-- ==== Sys2Proof/Word.lean ====
section
/-! DEFINITION. The word types of the device and the canonical sparse map that every memory and register file is held in. -/
namespace Sys2Proof

abbrev Byte := BitVec 8
abbrev Half := BitVec 16
abbrev Word := BitVec 32
abbrev DWord := BitVec 64

/-- A sparse map from keys to values, as plain data: keys strictly rising, and no entry equal to what an unlisted key reads as. -/
abbrev Store (α : Type) := List (Nat × α)

end Sys2Proof
end

