-- ==== Sys2Proof/Machine/Bits.lean ====
section
/-! DEFINITION. Bit fields, sign extension, byte order and the small integer helpers of R7, R11 and R327. -/
namespace Sys2Proof

/-- Bits hi to lo of a natural number, `x[hi:lo]` (R11). -/
def bits (x hi lo : Nat) : Nat := (x >>> lo) % 2 ^ (hi + 1 - lo)

/-- Bit i of a natural number. -/
def bit (x i : Nat) : Bool := x.testBit i

/-- `sext(x, n)` (R327): the value of n bits read as signed. -/
def sext (x n : Nat) : Int :=
  let y := x % 2 ^ n
  if y < 2 ^ (n - 1) then (y : Int) else (y : Int) - (2 ^ n : Nat)

/-- `trunc(v, n)` (R327): v modulo 2^n. -/
def trunc (v : Int) (n : Nat) : Nat := (v % (2 ^ n : Nat)).toNat

/-- `clamp(x, lo, hi)` (R327). -/
def clamp (x lo hi : Int) : Int := if x < lo then lo else if hi < x then hi else x

/-- x with bits lo and up replaced by the low n bits of y. -/
def setBits (x lo n y : Nat) : Nat :=
  x - (bits x (lo + n - 1) lo) * 2 ^ lo + (y % 2 ^ n) * 2 ^ lo

/-- x in a sorted list, before the first element that it does not exceed. -/
def insertBy {α : Type} (le : α → α → Bool) (x : α) : List α → List α
  | [] => [x]
  | y :: ys => if le x y then x :: y :: ys else y :: insertBy le x ys

/-- A list in order; elements that are equal in it keep their places. -/
def sortBy {α : Type} (le : α → α → Bool) : List α → List α
  | [] => []
  | x :: xs => insertBy le x (sortBy le xs)

/-- The least multiple of m at or above x (roundup of the layout rules). -/
def roundup (x m : Nat) : Nat := (x + m - 1) / m * m

/-- ⌈x / m⌉. -/
def cdiv (x m : Nat) : Nat := (x + m - 1) / m

/-- The value of bytes in little-endian order (R7). -/
def ofBytes : List Byte → Nat
  | [] => 0
  | b :: bs => b.toNat + 256 * ofBytes bs

/-- The n low bytes of a value, in little-endian order (R7). -/
def toBytes : Nat → Nat → List Byte
  | 0, _ => []
  | n + 1, x => BitVec.ofNat 8 x :: toBytes n (x / 256)

/-- n bytes from position i of a byte list, zero where the list ends. -/
def sliceBytes (bs : List Byte) (i n : Nat) : List Byte :=
  (List.range n).map fun k => bs.getD (i + k) 0

/-- The n-byte little-endian field at position i of a byte list. -/
def fieldAt (bs : List Byte) (i n : Nat) : Nat := ofBytes (sliceBytes bs i n)

/-- The list with the bytes from position i replaced, its length kept. -/
def patchBytes (bs : List Byte) (i : Nat) (new : List Byte) : List Byte :=
  (List.range bs.length).map fun k => if i ≤ k ∧ k < i + new.length then new.getD (k - i) 0 else bs.getD k 0

/-- The bytes `new` merged into `old` where the mask has a 1. -/
def mergeBytes (mask : Nat) (old new : List Byte) : List Byte :=
  (List.range old.length).map fun k => if mask.testBit k then new.getD k 0 else old.getD k 0

/-- The number of 1 bits among the low n bits. -/
def popCount (x : Nat) : Nat → Nat
  | 0 => 0
  | n + 1 => (if x.testBit n then 1 else 0) + popCount x n

/-- The indexes of a list of truths below n at which p holds. -/
def indexesWhere (n : Nat) (p : Nat → Bool) : List Nat := (List.range n).filter p

/-- The element of a list with the least key, the first of equals. -/
def minBy {α : Type} (key : α → Nat) : List α → Option α
  | [] => none
  | a :: as =>
    match minBy key as with
    | none => some a
    | some b => if key b < key a then some b else some a

/-- A list with element i replaced by f of it. -/
def modifyAt {α : Type} (f : α → α) : List α → Nat → List α
  | [], _ => []
  | a :: as, 0 => f a :: as
  | a :: as, n + 1 => a :: modifyAt f as n

/-- A list with every element that satisfies p replaced by f of it. -/
def mapWhere {α : Type} (p : α → Bool) (f : α → α) (l : List α) : List α :=
  l.map fun a => if p a then f a else a

/-- ⌊√n⌋ by bits, from bit k down. -/
def isqrtAux (n : Nat) : Nat → Nat → Nat
  | 0, r => r
  | k + 1, r =>
    let r' := r + 2 ^ k
    if r' * r' ≤ n then isqrtAux n k r' else isqrtAux n k r

/-- ⌊√n⌋. -/
def isqrt (n : Nat) : Nat := isqrtAux n (Nat.log2 n / 2 + 1) 0

end Sys2Proof
end

