-- ==== Sys2Proof/Machine/Digest.lean ====
section
/-! DEFINITION. SHA-384 (R312): the hash function of FIPS 180-4 (assumption 33), with its constants computed from their definition. -/
namespace Sys2Proof.Machine

/-- ⌊∛n⌋ by bits, from bit k down. -/
def icbrtAux (n : Nat) : Nat → Nat → Nat
  | 0, r => r
  | k + 1, r =>
    let r' := r + 2 ^ k
    if r' * r' * r' ≤ n then icbrtAux n k r' else icbrtAux n k r

/-- A prime, by trial division. -/
def isPrime (n : Nat) : Bool := decide (2 ≤ n) && (List.range n).all fun d => decide (d < 2) || n % d != 0

/-- The first 80 primes. -/
def primes80 : List Nat := (List.range 410).filter isPrime

/-- The 80 round constants: the first 64 fraction bits of the cube roots of the primes. -/
def shaK : List DWord := primes80.map fun p => BitVec.ofNat 64 (icbrtAux (p * 2 ^ 192) 67 0)

/-- The initial value: the first 64 fraction bits of the square roots of the ninth to sixteenth primes. -/
def shaInit : List DWord := (primes80.drop 8).take 8 |>.map fun p => BitVec.ofNat 64 (isqrtAux (p * 2 ^ 128) 68 0)

/-- The n-byte big-endian value of bytes. -/
def ofBig (bs : List Byte) : Nat := bs.foldl (fun a b => 256 * a + b.toNat) 0

/-- The message padded to whole blocks of 128 bytes. -/
def shaPad (m : List Byte) : List Byte :=
  let z := (239 - m.length % 128) % 128
  m ++ 0x80 :: List.replicate z 0 ++ (toBytes 16 (8 * m.length)).reverse

def rotr (x : DWord) (n : Nat) : DWord := x.rotateRight n

/-- The message schedule grown by n words, the newest first. -/
def shaGrow : Nat → List DWord → List DWord
  | 0, w => w
  | n + 1, w =>
    let a := w.getD 14 0
    let b := w.getD 1 0
    let s0 := rotr a 1 ^^^ rotr a 8 ^^^ (a >>> 7)
    let s1 := rotr b 19 ^^^ rotr b 61 ^^^ (b >>> 6)
    shaGrow n ((s1 + w.getD 6 0 + s0 + w.getD 15 0) :: w)

/-- One round on the eight working variables. -/
def shaRound (v : List DWord) (kw : DWord × DWord) : List DWord :=
  let x (i : Nat) : DWord := v.getD i 0
  let s1 := rotr (x 4) 14 ^^^ rotr (x 4) 18 ^^^ rotr (x 4) 41
  let ch := (x 4 &&& x 5) ^^^ (~~~(x 4) &&& x 6)
  let t1 := x 7 + s1 + ch + kw.1 + kw.2
  let s0 := rotr (x 0) 28 ^^^ rotr (x 0) 34 ^^^ rotr (x 0) 39
  let maj := (x 0 &&& x 1) ^^^ (x 0 &&& x 2) ^^^ (x 1 &&& x 2)
  [t1 + s0 + maj, x 0, x 1, x 2, x 3 + t1, x 4, x 5, x 6]

/-- One block of 128 bytes taken into the hash value. -/
def shaBlock (h : List DWord) (b : List Byte) : List DWord :=
  let w := (List.range 16).map fun i => BitVec.ofNat 64 (ofBig (sliceBytes b (8 * i) 8))
  let ws := (shaGrow 64 w.reverse).reverse
  let v := (shaK.zip ws).foldl shaRound h
  List.zipWith (· + ·) h v

/-- SHA-384: 48 bytes. -/
def sha384 (m : List Byte) : List Byte :=
  let p := shaPad m
  let h := (List.range (p.length / 128)).foldl (fun h i => shaBlock h (sliceBytes p (128 * i) 128)) shaInit
  (h.take 6).flatMap fun x => (toBytes 8 x.toNat).reverse

end Sys2Proof.Machine
end

