-- ==== Sys2Proof/Config.lean ====
section
/-! DEFINITION. What the spec leaves open: the free values, opaque constants that nothing can evaluate (notes/assumptions/2.md
and the rows they name). -/
namespace Sys2Proof.Config

/-- A free 32-bit value; the argument is State's counter of free values (assumption 2). -/
opaque freeWord : Nat → Word
/-- A free byte (assumption 2). -/
opaque freeByte : Nat → Byte
/-- A free choice (assumption 2). -/
opaque freeBool : Nat → Bool
/-- Core cycles that pass in a step (assumption 8). -/
opaque elapsedCycles : Nat → Nat
/-- Microseconds of the reference counter that pass in a step (assumption 8). -/
opaque elapsedMicros : Nat → Nat
/-- How often an event of timing counted by R315 occurs in a step: the step, the core and the source (assumption 8). -/
opaque timingEvents : Nat → Nat → Nat → Nat
/-- Whether a core's limiter holds its groups in a step, when its vector duty is less than whole: the step and the core (assumption 8). -/
opaque limiterHolds : Nat → Nat → Bool
/-- The error of R47 that arises in a step, if one does: its kind, two numbers that choose its place, and the lanes that meet it
(assumption 69). -/
opaque upset : Nat → Option (Nat × Nat × Nat × Nat)
/-- The ceiling of a spatial engine's or a copy channel's grant above its floor, in milliwatts: the key of the grant (assumption 18). -/
opaque unitCeiling : Nat → Nat
/-- The steps for which a first-level cache keeps a clean sector: the sector's key and the step of its fill (assumption 67). -/
opaque cleanLife : Nat → Nat → Nat
/-- A correctly rounded result that the model's enclosure did not decide: format bits of the function, the operand and the
mode (assumption 20). -/
opaque roundTie : Nat → Nat → Nat → Word
/-- Whether a configuration record (kind 1) or a Curator image (kind 2) verifies (assumption 5). -/
opaque verifies : Nat → List Byte → Bool
/-- Whether a certificate chain verifies from the root and permits recovery of a kind, and whether an image verifies under the key
that a chain ends with or that a configuration record names for Docent (assumption 5). -/
opaque chainVerifies : List Byte → Nat → Bool
opaque verifiesUnder : List Byte → List Byte → Bool
/-- A numbered value of a configuration record (assumption 5). -/
opaque recordField : List Byte → Nat → Nat
/-- The version of an image, and the length that its signed header gives (assumption 5). -/
opaque imageVersion : List Byte → Nat
opaque imageLength : List Byte → Nat
/-- The private key that the boot ROM derives from the fingerprint with the helper data of flash (assumption 5). -/
opaque identityKey : List Byte → List Byte
/-- The signature of a statement under a private key (assumption 5). -/
opaque signature : List Byte → List Byte → List Byte
/-- The identity key's certificate from the helper data of flash (assumption 5). -/
opaque certificate : List Byte → List Byte
/-- The counter that Docent gives to a context, or takes back, in a step, if it does: its number and its new owner (R152; assumption 28). -/
opaque counterOwner : Nat → Option (Nat × Option Word)
/-- The bytes that the engines save under a layout that software never interprets (assumption 12). -/
opaque engineBytes : Nat → List Byte

end Sys2Proof.Config
end

