-- ==== Sys2Proof/Syntax.lean ====
section
/-! DEFINITION. The steps of the device: one constructor of Instr per row of spec/opcode_table.json. The native instructions
carry their operands as R320 to R437 name them, and the device events carry what the outside world or a register write supplies. -/
namespace Sys2Proof

/-- A vector register v0 to v1023 (R175). -/
abbrev VReg := BitVec 10
/-- A uniform register k0 to k63 (R175). -/
abbrev KReg := BitVec 6
/-- A predicate p0 to p15 (R175). -/
abbrev PReg := BitVec 4
/-- A rejoin mask j0 to j7 (R175). -/
abbrev JReg := BitVec 3
/-- A shape register sh0 to sh7 (R175). -/
abbrev ShReg := BitVec 3
/-- A barrier b0 to b15 (R349). -/
abbrev BarReg := BitVec 4
/-- A quarantined register q0 to q15 (R175). -/
abbrev QReg := BitVec 4
/-- An accumulator frame; 0 to 191 exist (R175). -/
abbrev FrameReg := BitVec 8
/-- The 27-bit signed immediate (R320). -/
abbrev Imm := BitVec 27

/-- What every instruction word carries beside its opcode: the switch marker and the guard (R320, R321). -/
structure Hdr where
  s  : Bool
  g  : PReg
  gn : Bool
deriving DecidableEq, Repr

/-- A source of kind v/k (R339): a vector register, a uniform register, or the literal word (R323). -/
inductive Src where
  | v   (n : VReg)
  | k   (n : KReg)
  | lit (x : DWord)
deriving DecidableEq, Repr

/-- A source of kind k (R339). -/
inductive KSrc where
  | k   (n : KReg)
  | lit (x : DWord)
deriving DecidableEq, Repr

/-- The offset part of the memory form: OFF scaled by the access size, or the literal's S32 byte offset when X = 1 (R324). -/
inductive Off where
  | scaled (o : Byte)
  | lit    (x : Word)
deriving DecidableEq, Repr

/-- The address of the memory form: base + index * 2^scale + offset (R324). -/
structure Adr where
  base  : Src
  index : Src
  scale : BitVec 2
  off   : Off
deriving DecidableEq, Repr

/-- Access sizes of the memory family (R388). -/
inductive Sz where
  | n8 | s8 | n16 | s16 | w32 | w64 | w128
deriving DecidableEq, Repr

/-- Memory scopes (R211). -/
inductive Scope where
  | g | b | a | d | x
deriving DecidableEq, Repr

/-- ORDER of an atomic (R324). -/
inductive Order where
  | none | acq | rel | ar
deriving DecidableEq, Repr

/-- Rounding modes (R237). -/
inductive Rm where
  | rn | rz | rd | ru
deriving DecidableEq, Repr

/-- Element formats of CVT and CVT2 in the order of their codes (R385). -/
inductive Fmt where
  | f32 | bf16 | f16 | e4m3 | e5m2 | fp4 | ds8 | s32 | s16 | s8 | s4 | n8 | n16 | n32 | s64 | n64
deriving DecidableEq, Repr

/-- Comparison codes (R355). -/
inductive Cmp where
  | eq | ne | lt | le | gt | ge | num | nan
deriving DecidableEq, Repr

/-- Operations of RED and SCAN (R375). -/
inductive RedOp where
  | add | min | max | and | or | xor | fadd | fmax
deriving DecidableEq, Repr

/-- Operations of ATOM and ATOMS (R396). -/
inductive AtomOp where
  | add | min | max | and | or | xor | exch | cas
deriving DecidableEq, Repr

/-- Types of ATOM (R396). -/
inductive AtomTy where
  | s32 | n32 | s64 | n64
deriving DecidableEq, Repr

/-- The two directions of PMOV (R358). -/
inductive PmovOp where
  | toV   (d : VReg)
  | fromV (a b : Src)
deriving DecidableEq, Repr

/-- The modes of VOTE with their destinations (R359). -/
inductive VoteOp where
  | all    (d : PReg)
  | any    (d : PReg)
  | ballot (d : KReg)
  | eq     (d : PReg)
deriving DecidableEq, Repr

/-- The modes of LXCH (R373). -/
inductive LxMode where
  | at | below | above | flip
deriving DecidableEq, Repr

/-- The operations of CCTL (R395): on the line of an address, or on a whole cache. -/
inductive CctlOp where
  | wb      (a : Adr)
  | inv     (a : Adr)
  | wbinv   (a : Adr)
  | iinv    (a : Adr)
  | wball
  | iinvall
deriving DecidableEq, Repr

/-- The destination of RDWPT (R415). -/
inductive WptDst where
  | k (d : KReg)
  | v (d : VReg)
deriving DecidableEq, Repr

/-- The two operations of a ring instruction (R416). -/
inductive RingOp where
  | acq (d : KReg)
  | done
deriving DecidableEq, Repr

/-- The target modes of ENQ (R150, R420). -/
inductive EnqMode where
  | own
  | core (b : Src)
  | hash
deriving DecidableEq, Repr

/-- The destination class of MOVSR (R430). -/
inductive SrDst where
  | v (d : VReg)
  | k (d : KReg)
  | q (d : QReg)
deriving DecidableEq, Repr

/-- Who performs a register access (R83). -/
inductive Agent where
  | host | docent | curator
deriving DecidableEq, Repr

/-- An access to a register of BAR0: who writes, the offset, the size in bytes and the value (R83). -/
structure Access where
  who  : Agent
  off  : Nat
  size : Nat
  val  : DWord
deriving DecidableEq, Repr

/-- A coherence message: its 16-byte header and its payload (R68, R69). -/
structure Msg where
  hdr  : BitVec 128
  data : List Byte
deriving DecidableEq, Repr

/-- The engines of a context stop (R294), with the core, atoll, queue or graph they belong to. -/
inductive Engine where
  | vector (core : Nat)
  | matrix (core : Nat)
  | drain (core : Nat)
  | copy (core ch : Nat)
  | spatial (atoll : Nat)
  | gather
  | walker
  | futures
  | det
deriving DecidableEq, Repr

/-- One constructor per row of the opcode table. -/
inductive Instr where
  -- Power and board (R29 to R34).
  | thermalShutdown (sensor : Nat) (temp : Int)
  | arbiterWindow (temp : Int)
  -- Registers, PCIe and windows (R81 to R86).
  | hostWindowRead (off len : Nat)
  | hostWindowWrite (off : Nat) (data : List Byte)
  -- Boot and firmware (R88 to R94).
  -- Error records (R95 to R97).
  -- Memory controllers (R35 to R54). A sector is named by its physical address divided by 32.
  | sectorRead (sector : Nat) (ctx : Option Word)
  | sectorWrite (sector : Nat) (mask : Word) (data : List Byte) (ctx : Option Word)
  | scrubSector (ch : Nat)
  | memoryRetrain (ch : Nat) (bad : Option (Bool × Nat))
  | mrepCommandComplete (ch : Nat)
  -- Strait links (R55 to R59).
  | linkLaneFailure (link : Nat)
  | linkTrained (link : Nat) (width : BitVec 2) (rate : Bool) (peer : BitVec 3) (plink : BitVec 2)
  | flitReceive (link : Nat) (flit : List Byte)
  | replayRequest (link : Nat) (seq : BitVec 12)
  -- Coherence messages received (R63 to R77).
  | retryBackoffExpiry (txid : Nat)
  | deviceLossTimeout (dev : BitVec 3)
  | l2Evict (dpa : Nat)
  | l1DirtyTimeout (core sector : Nat)
  -- Submission (R105 to R114).
  | ringEntryFetch (n : Nat)
  | completionRecordWrite (n : Nat)
  -- Dispatch and issue (R100 to R103, R134 to R147, R310).
  | corePull (core : Nat)
  | clauseIssue (core quad : Nat)
  | blockRetire (launch block : Nat)
  | launchComplete (launch : Nat)
  | detCommit (launch block : Nat)
  -- The current node of a graph (R117).
  | nodeLaunch (graph : Nat)
  | nodeJoin (graph : Nat)
  | nodeCond (graph : Nat)
  | nodeWhile (graph : Nat)
  | nodeEndw (graph : Nat)
  | nodeStore (graph : Nat)
  | nodeDecr (graph : Nat)
  | nodeWaitd (graph : Nat)
  | nodeEnd (graph : Nat)
  | nodeInvalid (graph : Nat)
  -- Timers (R146, R157, R169).
  | watchdogExpiry (core : Nat)
  | tileFlushTimer (queue : Nat)
  | deadlineExpiry (ctx : Word)
  -- Engines (R200, R247, R264, R276, R281).
  | mmaKstep (core : Nat)
  | drainElement (core : Nat)
  | copyChunk (core ch : Nat)
  | spatialQuery (atoll : Nat)
  | spatialStepBody (atoll : Nat)
  -- Trap ring (R291 to R293).
  -- Context commands and service releases (R294 to R302).
  | engineAcknowledge (e : Engine)
  -- Invalidation and binding, performed by MOVS (R155, R163, R208).
  | tlbinvPage (asn : Half) (vpn : BitVec 36)
  | tlbinvAsn (asn : Half)
  | gqdBind (ctx : Word) (n : Nat) (desc : DWord)
  | gqdUnbind (n : Nat)
  | pldBind (ctx : Word) (n : Nat) (desc : DWord)
  | pldUnbind (n : Nat)
  -- Control (R341).
  | nop (h : Hdr)
  | bra (h : Hdr) (imm : Imm)
  | brx (h : Hdr) (a : Src)
  | call (h : Hdr) (imm : Imm)
  | callx (h : Hdr) (a : Src)
  | ret (h : Hdr)
  | exit (h : Hdr)
  | yield (h : Hdr)
  | jmark (h : Hdr) (j : JReg)
  | jwait (h : Hdr) (j : JReg)
  | bar (h : Hdr) (b : BarReg)
  | abar (h : Hdr) (b : BarReg)
  | chkc (h : Hdr)
  | bkpt (h : Hdr)
  | trap (h : Hdr) (code : BitVec 26)
  | trapSvc (h : Hdr) (n : BitVec 24)
  -- Predicates (R354).
  | pseti (h : Hdr) (d : PReg) (a b : Src) (c : PReg) (cmp : Cmp) (n : Bool)
  | psetiImm (h : Hdr) (d : PReg) (a : VReg) (cmp : Cmp) (n : Bool) (imm : Imm)
  | psetf (h : Hdr) (d : PReg) (a b : Src) (c : PReg) (cmp : Cmp)
  | plop (h : Hdr) (d a b : PReg) (lut : BitVec 4)
  | pmov (h : Hdr) (op : PmovOp)
  | vote (h : Hdr) (op : VoteOp) (a : PReg)
  -- Uniform (R360).
  | kmov (h : Hdr) (d : KReg) (a : KSrc) (w64 : Bool)
  | kmovImm (h : Hdr) (d : KReg) (imm : Imm)
  | kadd (h : Hdr) (d : KReg) (a b : KSrc) (n sat w64 : Bool)
  | kaddImm (h : Hdr) (d a : KReg) (imm : Imm)
  | ksub (h : Hdr) (d : KReg) (a b : KSrc) (n sat w64 : Bool)
  | kmul (h : Hdr) (d : KReg) (a b : KSrc) (n sat : Bool)
  | kmin (h : Hdr) (d : KReg) (a b : KSrc) (n : Bool)
  | kmax (h : Hdr) (d : KReg) (a b : KSrc) (n : Bool)
  | kand (h : Hdr) (d : KReg) (a b : KSrc)
  | kor (h : Hdr) (d : KReg) (a b : KSrc)
  | kxor (h : Hdr) (d : KReg) (a b : KSrc)
  | kshl (h : Hdr) (d : KReg) (a b : KSrc) (n sat : Bool)
  | kshr (h : Hdr) (d : KReg) (a b : KSrc)
  | ksar (h : Hdr) (d : KReg) (a b : KSrc)
  | kcmp (h : Hdr) (d : KReg) (a b : KSrc) (cmp : Cmp) (n : Bool)
  | ksel (h : Hdr) (d : KReg) (a b : KSrc) (c : KReg)
  -- Integer vector (R362 to R370).
  | mov (h : Hdr) (d : VReg) (a : Src) (w64 : Bool)
  | movImm (h : Hdr) (d : VReg) (imm : Imm)
  | sel (h : Hdr) (d : VReg) (a b : Src) (c : PReg)
  | iadd (h : Hdr) (d : VReg) (a b : Src) (n sat : Bool)
  | iaddImm (h : Hdr) (d a : VReg) (imm : Imm)
  | isub (h : Hdr) (d : VReg) (a b : Src) (n sat : Bool)
  | imul (h : Hdr) (d : VReg) (a b : Src) (n sat : Bool)
  | imulImm (h : Hdr) (d a : VReg) (imm : Imm)
  | imulh (h : Hdr) (d : VReg) (a b : Src) (n : Bool)
  | imad (h : Hdr) (d : VReg) (a b : Src) (c : VReg) (n sat : Bool)
  | imadw (h : Hdr) (d : VReg) (a b : Src) (c : VReg) (n sat : Bool)
  | imin (h : Hdr) (d : VReg) (a b : Src) (n : Bool)
  | imax (h : Hdr) (d : VReg) (a b : Src) (n : Bool)
  | iabs (h : Hdr) (d : VReg) (a : Src) (sat : Bool)
  | ineg (h : Hdr) (d : VReg) (a : Src) (sat : Bool)
  | iand (h : Hdr) (d : VReg) (a b : Src)
  | iandImm (h : Hdr) (d a : VReg) (imm : Imm)
  | ior (h : Hdr) (d : VReg) (a b : Src)
  | iorImm (h : Hdr) (d a : VReg) (imm : Imm)
  | ixor (h : Hdr) (d : VReg) (a b : Src)
  | ixorImm (h : Hdr) (d a : VReg) (imm : Imm)
  | inot (h : Hdr) (d : VReg) (a : Src)
  | ishl (h : Hdr) (d : VReg) (a b : Src) (n sat : Bool)
  | ishlImm (h : Hdr) (d a : VReg) (imm : Imm)
  | ishr (h : Hdr) (d : VReg) (a b : Src)
  | ishrImm (h : Hdr) (d a : VReg) (imm : Imm)
  | isar (h : Hdr) (d : VReg) (a b : Src)
  | isarImm (h : Hdr) (d a : VReg) (imm : Imm)
  | irot (h : Hdr) (d : VReg) (a b : Src)
  | popc (h : Hdr) (d : VReg) (a : Src)
  | clz (h : Hdr) (d : VReg) (a : Src)
  | brev (h : Hdr) (d : VReg) (a : Src)
  | bfe (h : Hdr) (d : VReg) (a b : Src) (n : Bool)
  | bfi (h : Hdr) (d : VReg) (a b : Src) (c : VReg)
  | iadd64 (h : Hdr) (d : VReg) (a b : Src) (n sat : Bool)
  | isub64 (h : Hdr) (d : VReg) (a b : Src) (n sat : Bool)
  | iclamp (h : Hdr) (d : VReg) (a b : Src) (c : VReg) (n : Bool)
  | padd16 (h : Hdr) (d : VReg) (a b : Src) (sat sub : Bool)
  | pmac16 (h : Hdr) (d : VReg) (a b : Src) (c : VReg)
  | pshr (h : Hdr) (d : VReg) (a b : Src) (hi : Bool)
  | hash (h : Hdr) (d : VReg) (a b : Src)
  -- Cross-lane (R371).
  | lxch (h : Hdr) (d : VReg) (a b : Src) (seg : BitVec 3) (mode : LxMode)
  | slide (h : Hdr) (d : VReg) (a b : Src) (c : KReg)
  | red (h : Hdr) (d : VReg) (a : Src) (seg : BitVec 3) (op : RedOp) (n sat : Bool)
  | scan (h : Hdr) (d : VReg) (a : Src) (seg : BitVec 3) (excl : Bool) (op : RedOp) (n sat : Bool)
  | bcast (h : Hdr) (d : VReg) (a b : Src)
  | krdl (h : Hdr) (d : KReg) (a : VReg) (b : Src)
  -- Floating point (R379 to R387).
  | fadd (h : Hdr) (d : VReg) (a b : Src) (rm : Rm) (sat : Bool)
  | fsub (h : Hdr) (d : VReg) (a b : Src) (rm : Rm) (sat : Bool)
  | fmul (h : Hdr) (d : VReg) (a b : Src) (rm : Rm) (sat : Bool)
  | ffma (h : Hdr) (d : VReg) (a b : Src) (c : VReg) (rm : Rm) (sat : Bool)
  | fdiv (h : Hdr) (d : VReg) (a b : Src) (rm : Rm) (sat : Bool)
  | fmin (h : Hdr) (d : VReg) (a b : Src)
  | fmax (h : Hdr) (d : VReg) (a b : Src)
  | fabs (h : Hdr) (d : VReg) (a : Src)
  | fneg (h : Hdr) (d : VReg) (a : Src)
  | frnd (h : Hdr) (d : VReg) (a : Src) (rm : Rm)
  | fscale (h : Hdr) (d : VReg) (a b : Src) (rm : Rm) (sat : Bool)
  | fclass (h : Hdr) (d : VReg) (a : Src)
  | frcp (h : Hdr) (d : VReg) (a : Src) (rm : Rm) (sat : Bool)
  | frsq (h : Hdr) (d : VReg) (a : Src) (rm : Rm) (sat : Bool)
  | fsqrt (h : Hdr) (d : VReg) (a : Src) (rm : Rm) (sat : Bool)
  | fexp2 (h : Hdr) (d : VReg) (a : Src) (rm : Rm) (sat : Bool)
  | flog2 (h : Hdr) (d : VReg) (a : Src) (rm : Rm) (sat : Bool)
  | fsin (h : Hdr) (d : VReg) (a : Src) (rm : Rm) (sat : Bool)
  | fcos (h : Hdr) (d : VReg) (a : Src) (rm : Rm) (sat : Bool)
  | hadd2 (h : Hdr) (d : VReg) (a b : Src) (rm : Rm) (sat f16 : Bool)
  | hsub2 (h : Hdr) (d : VReg) (a b : Src) (rm : Rm) (sat f16 : Bool)
  | hmul2 (h : Hdr) (d : VReg) (a b : Src) (rm : Rm) (sat f16 : Bool)
  | hfma2 (h : Hdr) (d : VReg) (a b : Src) (c : VReg) (rm : Rm) (sat f16 : Bool)
  | hmin2 (h : Hdr) (d : VReg) (a b : Src) (f16 : Bool)
  | hmax2 (h : Hdr) (d : VReg) (a b : Src) (f16 : Bool)
  | hdot2 (h : Hdr) (d : VReg) (a b : Src) (c : VReg) (rm : Rm) (sat f16 : Bool)
  | cvt (h : Hdr) (d : VReg) (a : Src) (dfmt sfmt : Fmt) (spos : BitVec 3) (rm : Rm) (sat : Bool)
  | cvt2 (h : Hdr) (d : VReg) (a b : Src) (dfmt sfmt : Fmt) (dpos : BitVec 2) (rm : Rm) (sat : Bool)
  -- Memory (R388, R396, R400, R401).
  | ld (h : Hdr) (sz : Sz) (d : VReg) (adr : Adr) (ann : Option Scope) (pf : Bool)
  | st (h : Hdr) (sz : Sz) (d : VReg) (adr : Adr) (ann : Option Scope)
  | lds (h : Hdr) (sz : Sz) (d : VReg) (adr : Adr) (ann : Option Scope)
  | sts (h : Hdr) (sz : Sz) (d : VReg) (adr : Adr) (ann : Option Scope)
  | ldk (h : Hdr) (w64 : Bool) (d : KReg) (adr : Adr) (ann : Option Scope)
  | pref (h : Hdr) (l2 : Bool) (adr : Adr)
  | cctl (h : Hdr) (op : CctlOp)
  | fence (h : Hdr) (scope : Scope)
  | qfence (h : Hdr) (mask : Byte) (scope : Scope)
  | atom (h : Hdr) (op : AtomOp) (ty : AtomTy) (d : VReg) (a b : Src) (c : VReg) (ord : Order) (scope : Scope)
  | atomFadd (h : Hdr) (d : VReg) (a b : Src) (ord : Order) (scope : Scope)
  | atoms (h : Hdr) (op : AtomOp) (n : Bool) (d : VReg) (a b : Src) (c : VReg) (ord : Order)
  | atomsFadd (h : Hdr) (d : VReg) (a b : Src) (ord : Order)
  -- Matrix (R405).
  | shape (h : Hdr) (sh : ShReg) (a b : KSrc) (fmt : BitVec 5)
  | shext (h : Hdr) (sh : ShReg) (a : KSrc)
  | shq (h : Hdr) (d : KReg) (sh : ShReg)
  | wbld (h : Hdr) (a b : KSrc) (slot : BitVec 6) (ch : BitVec 2)
  | mma (h : Hdr) (f : FrameReg) (a b : KSrc) (sh : ShReg) (pk : KReg) (twin z : Bool)
  | accrd (h : Hdr) (d : VReg) (f : FrameReg) (b : Src) (w4 : Bool)
  | accwr (h : Hdr) (f : FrameReg) (a b : Src)
  | accclr (h : Hdr) (f : FrameReg)
  | wmark (h : Hdr) (d : KReg) (f : FrameReg)
  | drnld (h : Hdr) (n : BitVec 5)
  -- Copies, rings and register blocks (R413 to R417).
  | copy (h : Hdr) (d : KReg) (a : KReg) (b : KSrc) (ch : BitVec 2)
  | rdwpt (h : Hdr) (d : WptDst) (ch : BitVec 2)
  | ringp (h : Hdr) (ring : BitVec 3) (op : RingOp)
  | ringc (h : Hdr) (ring : BitVec 3) (op : RingOp)
  | regacq (h : Hdr) (a : KSrc)
  | regrel (h : Hdr) (a : KSrc)
  -- Tasks and search (R418).
  | spawn (h : Hdr) (a b : Src) (c : VReg)
  | enq (h : Hdr) (a : Src) (mode : EnqMode)
  | decr (h : Hdr) (a b : Src)
  | waitd (h : Hdr) (a : Src)
  | leafq (h : Hdr) (d : VReg) (a b : Src) (sp : Bool)
  | fres (h : Hdr) (a b : Src)
  | waitf (h : Hdr) (d : VReg) (a : Src) (c : VReg)
  | testf (h : Hdr) (d : VReg) (a : Src)
  | cqry (h : Hdr) (d : VReg) (a b : Src)
  | dstep (h : Hdr) (d : VReg) (a : Src)
  | poola (h : Hdr) (d : VReg) (a : Src) (c : PReg)
  | poolf (h : Hdr) (a b : Src)
  | poolft (h : Hdr) (a b : Src)
  | bestupd (h : Hdr) (a b : Src) (c : VReg)
  | dlnset (h : Hdr) (a : Src)
  | dlnrd (h : Hdr) (d : KReg)
  | cancel (h : Hdr) (a : Src)
  -- System (R430).
  | movs (h : Hdr) (sreg : BitVec 10) (a : Src)
  | movsr (h : Hdr) (d : SrDst) (sreg : BitVec 10)
  | movq (h : Hdr) (d : QReg) (adr : Adr)
  | tret (h : Hdr)
  | laneend (h : Hdr)
  | pkrd (h : Hdr) (d : VReg) (a b : Src)
  | pkwr (h : Hdr) (a b : Src) (c : VReg)
  -- Resumption by privileged software (R202, R266).
  | copyResume (launch block ch : Nat)
  | drainResume (core frame : Nat)
  -- Events without operands.
  | powerGoodRelease
  | powerGoodLoss
  | railSequenceFault
  | boardReset
  | perstDeassert
  | boot
  | lockstepMismatch
  | docentSafePoint
  | docentQuiesceTimeout
  | docentReady
  | docentReadyTimeout
  | errorRecordWrite
  | trapRingWrite
  | ctxRestoreLoad
  | tlbinvAll
  -- Accesses to a register with behaviour; the access stands in State (R83).
  | pwrbudWrite
  | registerWrite
  | attest
  | readIdentityCertificate
  | replaceDocent
  | replaceDocentAndWriteFlash
  | installRecoveryBundle
  | fwmbxInvalidCommand
  | errctlWrite
  | errbaseWrite
  | softRowRepair
  | hardRowRepair
  | laneRemap
  | clearPoison
  | retrain
  | mrepInvalidCommand
  | sdomLeave
  | sdomJoin
  | migrationStart
  | migrationRelease
  | sqcfgWrite
  | sqDoorbell
  | cqctlWrite
  | trctlWrite
  | trbaseWrite
  | ctxPreemptSave
  | ctxRestore
  | ctxEnd
  | ctxRelease
  | ctxcmdInvalid
  | svcrelResume
  | svcrelKill
  -- Messages received; the message stands in State (R68).
  | rds
  | rdx
  | wb
  | cln
  | atomMessage
  | wrh
  | leave
  | join
  | fwds
  | fwdx
  | inv
  | rcl
  | dats
  | date
  | datm
  | rcld
  | atomr
  | invack
  | fwdack
  | fwdmiss
  | wback
  | retry
  | poisoned
  | done
  | unknownMessage
deriving DecidableEq, Repr

end Sys2Proof
end

