-- ==== Sys2Proof/WellFormed.lean ====
section
/-! DEFINITION. The field checks of R317 to R325 and of the instruction entries: an instruction that fails one raises ILLEGAL
at decoding, so only well-formed instructions reach the machine. Device events have no fields to check. -/
namespace Sys2Proof

/-- The literals that a source selects (R323). -/
def Src.lits : Src → List DWord
  | .lit x => [x]
  | _ => []

/-- The literals that a k source selects (R323). -/
def KSrc.lits : KSrc → List DWord
  | .lit x => [x]
  | _ => []

/-- The literal of a long offset (R324). -/
def Off.lits : Off → List DWord
  | .lit x => [x.zeroExtend 64]
  | _ => []

/-- The literals of the memory form (R323). -/
def Adr.lits (a : Adr) : List DWord := a.base.lits ++ a.index.lits ++ a.off.lits

/-- A 32-bit operand's literal has bits 63:32 zero (R323). -/
def Src.ok32 : Src → Bool
  | .lit x => x.toNat < 2 ^ 32
  | _ => true

/-- A 64-bit operand names an even register (R322). -/
def Src.okPair : Src → Bool
  | .v n => n.toNat % 2 == 0
  | .k n => n.toNat % 2 == 0
  | .lit _ => true

/-- A 32-bit k operand. -/
def KSrc.ok32 : KSrc → Bool
  | .lit x => x.toNat < 2 ^ 32
  | _ => true

/-- A 64-bit k operand. -/
def KSrc.okPair : KSrc → Bool
  | .k n => n.toNat % 2 == 0
  | .lit _ => true

/-- A source of kind k, 32 or 64 bits wide. -/
def KSrc.okW (w64 : Bool) (x : KSrc) : Bool := if w64 then x.okPair else x.ok32

/-- A source of kind v/k, 32 or 64 bits wide. -/
def Src.okW (w64 : Bool) (x : Src) : Bool := if w64 then x.okPair else x.ok32

/-- The source is not a v register (the mark k of R339). -/
def Src.isK : Src → Bool
  | .v _ => false
  | _ => true

/-- At most one literal is selected (R323). -/
def lit1 (a b : Src) : Bool := (a.lits ++ b.lits).length ≤ 1

/-- At most one literal is selected (R323). -/
def klit1 (a b : KSrc) : Bool := (a.lits ++ b.lits).length ≤ 1

/-- Two 32-bit sources. -/
def ok2 (a b : Src) : Bool := a.ok32 && b.ok32 && lit1 a b

/-- Two 32-bit k sources. -/
def kok2 (a b : KSrc) : Bool := a.ok32 && b.ok32 && klit1 a b

/-- A 64-bit v register is even (R322). -/
def VReg.even (d : VReg) : Bool := d.toNat % 2 == 0

/-- A 64-bit k register is even (R322). -/
def KReg.even (d : KReg) : Bool := d.toNat % 2 == 0

/-- The bytes of an access (R388). -/
def Sz.bytes : Sz → Nat
  | .n8 | .s8 => 1
  | .n16 | .s16 => 2
  | .w32 => 4
  | .w64 => 8
  | .w128 => 16

/-- The registers of an access (R388). -/
def Sz.regs : Sz → Nat
  | .w64 => 2
  | .w128 => 4
  | _ => 1

/-- The code of an access size (R388). -/
def Sz.code : Sz → Nat
  | .n8 => 0 | .s8 => 1 | .n16 => 2 | .s16 => 3 | .w32 => 4 | .w64 => 5 | .w128 => 6

/-- Stores take SZ 0, 2, 4, 5 and 6 (R388). -/
def Sz.storable : Sz → Bool
  | .s8 | .s16 => false
  | _ => true

/-- The data register of the memory form: 1023 at any width, or a multiple of the registers it uses (R322, R324). -/
def dataReg (n : Nat) (d : VReg) : Bool := d.toNat == 1023 || d.toNat % n == 0

/-- The address of the memory form for memory: a 64-bit base, a 32-bit index, at most one literal (R323, R324). -/
def Adr.okMem (a : Adr) : Bool := a.base.okPair && a.index.ok32 && a.lits.length ≤ 1

/-- The address of the memory form for the scratchpad: a 32-bit base (R324). -/
def Adr.okSp (a : Adr) : Bool := a.base.ok32 && a.index.ok32 && a.lits.length ≤ 1

/-- ANN of LDS and STS is none, .g or .b (R388). -/
def annSp : Option Scope → Bool
  | none | some .g | some .b => true
  | _ => false

/-- Integer compares take CMP 0 to 5 (R355). -/
def Cmp.int : Cmp → Bool
  | .num | .nan => false
  | _ => true

/-- Whether SGN and ISAT belong to an operation of RED and SCAN (R375). -/
def redOk (op : RedOp) (n sat : Bool) : Bool :=
  match op with
  | .add => true
  | .min | .max => !sat
  | _ => !n && !sat

/-- The width of a format in bits (R385). -/
def Fmt.width : Fmt → Nat
  | .f32 | .s32 | .n32 => 32
  | .bf16 | .f16 | .s16 | .n16 => 16
  | .e4m3 | .e5m2 | .ds8 | .s8 | .n8 => 8
  | .fp4 | .s4 => 4
  | .s64 | .n64 => 64

/-- The formats that .sat belongs to (R386). -/
def Fmt.satOk : Fmt → Bool
  | .f32 | .bf16 | .f16 | .e5m2 | .e4m3 => true
  | _ => false

/-- What a system register number names: its width in bits, whether MOVS may write it, whether MOVSR may read it (R431). -/
structure SregInfo where
  wide  : Bool
  write : Bool
  read  : Bool
deriving DecidableEq, Repr

/-- The system registers of R431. -/
def sregInfo (n : Nat) : Option SregInfo :=
  if n = 0x000 then some ⟨true, false, true⟩
  else if n = 0x001 then some ⟨false, false, true⟩
  else if n = 0x002 then some ⟨true, false, true⟩
  else if n = 0x003 then some ⟨true, true, true⟩
  else if n = 0x004 then some ⟨true, false, true⟩
  else if n = 0x005 then some ⟨false, true, true⟩
  else if n = 0x010 then some ⟨false, true, true⟩
  else if n = 0x011 then some ⟨true, true, true⟩
  else if n = 0x012 then some ⟨false, true, true⟩
  else if n = 0x013 then some ⟨true, false, true⟩
  else if n = 0x020 ∨ n = 0x021 then some ⟨true, true, true⟩
  else if n = 0x022 then some ⟨true, false, true⟩
  else if n = 0x023 then some ⟨false, true, true⟩
  else if n = 0x024 then some ⟨true, true, true⟩
  else if 0x025 ≤ n ∧ n ≤ 0x02F then some ⟨true, true, true⟩
  else if n = 0x030 then some ⟨true, true, false⟩
  else if 0x040 ≤ n ∧ n ≤ 0x04F then some ⟨true, true, true⟩
  else if 0x050 ≤ n ∧ n ≤ 0x057 then some ⟨true, true, true⟩
  else if 0x060 ≤ n ∧ n ≤ 0x067 then some ⟨false, true, true⟩
  else if 0x070 ≤ n ∧ n ≤ 0x07F then some ⟨false, true, true⟩
  else if n = 0x080 ∨ n = 0x081 then some ⟨true, false, true⟩
  else if n = 0x082 ∨ n = 0x083 then some ⟨false, false, true⟩
  else if 0x088 ≤ n ∧ n ≤ 0x08F then some ⟨true, false, true⟩
  else if 0x090 ≤ n ∧ n ≤ 0x09F then some ⟨true, false, true⟩
  else none

/-- MOVS: the register exists, has a writer, and the value has its width (R431, R433). -/
def movsOk (sreg : Nat) (a : Src) : Bool :=
  match sregInfo sreg with
  | some i => i.write && a.okW i.wide
  | none => false

/-- MOVSR: the register exists and can be read, and a 64-bit register fills an even pair of v or k (R431, R434). -/
def movsrOk (d : SrDst) (sreg : Nat) : Bool :=
  match sregInfo sreg with
  | some i =>
    i.read && (!i.wide || (match d with
      | .v d => d.even
      | .k d => d.even
      | .q _ => true))
  | none => false

/-- The frames a0 to a191 exist (R322). -/
def FrameReg.ok (f : FrameReg) : Bool := f.toNat < 192

/-- ATOM: D is 1023 or fits the type, and the 64-bit types name pairs (R396). -/
def AtomTy.wide : AtomTy → Bool
  | .s64 | .n64 => true
  | _ => false

/-- C is 0 but for CAS (R324). -/
def casC (op : AtomOp) (c : VReg) : Bool := op == .cas || c == 0

/-- The well-formedness check of R317 to R325 and of the entries. -/
def Instr.wf : Instr → Bool
  | .brx _ a => a.okPair
  | .callx _ a => a.okPair
  | .pseti _ _ a b _ cmp _ => ok2 a b && cmp.int
  | .psetiImm _ _ _ cmp _ _ => cmp.int
  | .psetf _ _ a b _ _ => ok2 a b
  | .pmov _ (.fromV a b) => ok2 a b
  | .vote _ (.ballot d) _ => d.toNat % 4 == 0
  | .kmov _ d a w => a.okW w && (!w || d.even)
  | .kadd _ d a b _ _ w => a.okW w && b.okW w && klit1 a b && (!w || d.even)
  | .ksub _ d a b _ _ w => a.okW w && b.okW w && klit1 a b && (!w || d.even)
  | .kmul _ _ a b _ _ => kok2 a b
  | .kmin _ _ a b _ => kok2 a b
  | .kmax _ _ a b _ => kok2 a b
  | .kand _ _ a b => kok2 a b
  | .kor _ _ a b => kok2 a b
  | .kxor _ _ a b => kok2 a b
  | .kshl _ _ a b _ _ => kok2 a b
  | .kshr _ _ a b => kok2 a b
  | .ksar _ _ a b => kok2 a b
  | .kcmp _ _ a b cmp _ => kok2 a b && cmp.int
  | .ksel _ _ a b _ => kok2 a b
  | .mov _ d a w => a.okW w && (!w || d.even)
  | .sel _ _ a b _ => ok2 a b
  | .iadd _ _ a b _ _ => ok2 a b
  | .isub _ _ a b _ _ => ok2 a b
  | .imul _ _ a b _ _ => ok2 a b
  | .imulh _ _ a b _ => ok2 a b
  | .imad _ _ a b _ _ _ => ok2 a b
  | .imadw _ d a b c _ _ => ok2 a b && d.even && c.even
  | .imin _ _ a b _ => ok2 a b
  | .imax _ _ a b _ => ok2 a b
  | .iabs _ _ a _ => a.ok32
  | .ineg _ _ a _ => a.ok32
  | .iand _ _ a b => ok2 a b
  | .ior _ _ a b => ok2 a b
  | .ixor _ _ a b => ok2 a b
  | .inot _ _ a => a.ok32
  | .ishl _ _ a b _ _ => ok2 a b
  | .ishr _ _ a b => ok2 a b
  | .isar _ _ a b => ok2 a b
  | .irot _ _ a b => ok2 a b
  | .popc _ _ a => a.ok32
  | .clz _ _ a => a.ok32
  | .brev _ _ a => a.ok32
  | .bfe _ _ a b _ => ok2 a b
  | .bfi _ _ a b _ => ok2 a b
  | .iadd64 _ d a b _ _ => a.okPair && b.okPair && lit1 a b && d.even
  | .isub64 _ d a b _ _ => a.okPair && b.okPair && lit1 a b && d.even
  | .iclamp _ _ a b _ _ => ok2 a b
  | .padd16 _ _ a b _ _ => ok2 a b
  | .pmac16 _ _ a b _ => ok2 a b
  | .pshr _ _ a b _ => ok2 a b
  | .hash _ _ a b => ok2 a b
  | .lxch _ _ a b _ _ => ok2 a b
  | .slide _ _ a b _ => ok2 a b
  | .red _ _ a _ op n sat => a.ok32 && redOk op n sat
  | .scan _ _ a _ _ op n sat => a.ok32 && redOk op n sat
  | .bcast _ _ a b => ok2 a b
  | .krdl _ _ _ b => b.ok32
  | .fadd _ _ a b _ _ => ok2 a b
  | .fsub _ _ a b _ _ => ok2 a b
  | .fmul _ _ a b _ _ => ok2 a b
  | .ffma _ _ a b _ _ _ => ok2 a b
  | .fdiv _ _ a b _ _ => ok2 a b
  | .fmin _ _ a b => ok2 a b
  | .fmax _ _ a b => ok2 a b
  | .fabs _ _ a => a.ok32
  | .fneg _ _ a => a.ok32
  | .frnd _ _ a _ => a.ok32
  | .fscale _ _ a b _ _ => ok2 a b
  | .fclass _ _ a => a.ok32
  | .frcp _ _ a _ _ => a.ok32
  | .frsq _ _ a _ _ => a.ok32
  | .fsqrt _ _ a _ _ => a.ok32
  | .fexp2 _ _ a _ _ => a.ok32
  | .flog2 _ _ a _ _ => a.ok32
  | .fsin _ _ a _ _ => a.ok32
  | .fcos _ _ a _ _ => a.ok32
  | .hadd2 _ _ a b _ _ _ => ok2 a b
  | .hsub2 _ _ a b _ _ _ => ok2 a b
  | .hmul2 _ _ a b _ _ _ => ok2 a b
  | .hfma2 _ _ a b _ _ _ _ => ok2 a b
  | .hmin2 _ _ a b _ => ok2 a b
  | .hmax2 _ _ a b _ => ok2 a b
  | .hdot2 _ _ a b _ _ _ _ => ok2 a b
  | .cvt _ d a df sf spos _ sat =>
    a.okW (sf.width == 64) && (df.width != 64 || d.even) && (!sat || df.satOk)
      && (if sf.width < 32 then spos.toNat * sf.width < 32 else spos == 0)
  | .cvt2 _ _ a b df sf dpos _ sat =>
    ok2 a b && (sf == .f32 || sf == .s32 || sf == .n32) && df.width < 32
      && dpos.toNat * (2 * df.width) < 32 && (!sat || df.satOk)
  | .ld _ sz d adr ann pf => dataReg sz.regs d && adr.okMem && (!pf || ann.isNone)
  | .st _ sz d adr _ => sz.storable && dataReg sz.regs d && adr.okMem
  | .lds _ sz d adr ann => dataReg sz.regs d && adr.okSp && annSp ann
  | .sts _ sz d adr ann => sz.storable && dataReg sz.regs d && adr.okSp && annSp ann
  | .ldk _ w d adr _ => adr.base.isK && adr.index.isK && adr.okMem && (!w || d.even)
  | .pref _ _ adr => adr.okMem
  | .cctl _ (.wb a) => a.okMem
  | .cctl _ (.inv a) => a.okMem
  | .cctl _ (.wbinv a) => a.okMem
  | .cctl _ (.iinv a) => a.okMem
  | .atom _ op ty d a b c _ _ =>
    a.okPair && b.okW ty.wide && lit1 a b && (!ty.wide || (dataReg 2 d && c.even)) && casC op c
  | .atomFadd _ _ a b _ _ => a.okPair && b.ok32 && lit1 a b
  | .atoms _ op _ _ a b c _ => ok2 a b && casC op c
  | .atomsFadd _ _ a b _ => ok2 a b
  | .shape _ _ a b _ => kok2 a b
  | .shext _ _ a => a.ok32
  | .shq _ d _ => d.toNat % 4 == 0
  | .wbld _ a b _ _ => a.okPair && b.ok32 && klit1 a b
  | .mma _ f a b _ pk _ _ => FrameReg.ok f && kok2 a b && pk.toNat % 4 == 0
  | .accrd _ d f b w4 => FrameReg.ok f && b.ok32 && (!w4 || d.toNat % 4 == 0)
  | .accwr _ f a b => FrameReg.ok f && ok2 a b
  | .accclr _ f => FrameReg.ok f
  | .wmark _ _ f => FrameReg.ok f
  | .copy _ d a b _ => d.even && a.toNat % 8 == 0 && b.ok32
  | .rdwpt _ (.k d) _ => d.even
  | .rdwpt _ (.v d) _ => d.even
  | .regacq _ a => a.ok32
  | .regrel _ a => a.ok32
  | .spawn _ a b _ => a.okPair && b.okPair && lit1 a b
  | .enq _ a (.core b) => a.okPair && b.ok32 && lit1 a b
  | .enq _ a _ => a.okPair
  | .decr _ a b => ok2 a b
  | .waitd _ a => a.ok32
  | .leafq _ _ a b sp => a.ok32 && b.okW (!sp) && lit1 a b
  | .fres _ a b => a.ok32 && b.okPair && lit1 a b
  | .waitf _ d a _ => d.even && a.ok32
  | .testf _ _ a => a.ok32
  | .cqry _ _ a b => a.okPair && b.okPair && lit1 a b
  | .dstep _ _ a => a.okPair
  | .poola _ d a _ => d.even && a.ok32
  | .poolf _ a b => a.ok32 && b.okPair && lit1 a b
  | .poolft _ a b => ok2 a b
  | .bestupd _ a b c => ok2 a b && c.even
  | .dlnset _ a => a.ok32
  | .cancel _ a => a.ok32
  | .movs _ sreg a => movsOk sreg.toNat a
  | .movsr _ d sreg => movsrOk d sreg.toNat
  | .movq _ _ adr => adr.okMem
  | .pkrd _ _ a b => ok2 a b
  | .pkwr _ a b _ => ok2 a b
  | _ => true

end Sys2Proof
end

