-- ==== Sys2Proof/Decode.lean ====
section
/-! DEFINITION. The decoder and the encoder of the native words (R316 to R326, R334 to R337), of a coherence message's header
(R69) and of a graph node (R115). Decoding is total: every word is an instruction or is rejected. -/
namespace Sys2Proof

/-- The encoding generation of a kernel (R110, R334). -/
inductive Enc where
  | e3 | e2 | e1
deriving DecidableEq, Repr

/-- The fields of an instruction word (R320). -/
structure Raw where
  s   : Bool
  opc : BitVec 11
  g   : BitVec 4
  gn  : Bool
  d   : BitVec 10
  a   : BitVec 10
  b   : BitVec 10
  c   : BitVec 10
  m   : BitVec 7
deriving DecidableEq, Repr

/-- The word of the fields (R320). -/
def Raw.pack (r : Raw) : DWord :=
  BitVec.ofBool r.s ++ r.opc ++ r.g ++ BitVec.ofBool r.gn ++ r.d ++ r.a ++ r.b ++ r.c ++ r.m

/-- The fields of a word (R320). -/
def Raw.unpack (w : DWord) : Raw :=
  { s := w.getLsbD 63, opc := w.extractLsb' 52 11, g := w.extractLsb' 48 4, gn := w.getLsbD 47
    d := w.extractLsb' 37 10, a := w.extractLsb' 27 10, b := w.extractLsb' 17 10, c := w.extractLsb' 7 10
    m := w.extractLsb' 0 7 }

/-- KA, bit 6 of M (R320). -/
def Raw.ka (r : Raw) : Bool := r.m.getLsbD 6

/-- KB, bit 5 of M (R320). -/
def Raw.kb (r : Raw) : Bool := r.m.getLsbD 5

/-- IMM, bits 26:0 of an immediate form (R320). -/
def Raw.imm (r : Raw) : Imm := r.b ++ r.c ++ r.m

/-- The switch marker and the guard (R320, R321). -/
def Raw.hdr (r : Raw) : Hdr := ⟨r.s, r.g, r.gn⟩

/-! ## Codes of the modifiers -/

def Scope.code : Scope → BitVec 3
  | .g => 0 | .b => 1 | .a => 2 | .d => 3 | .x => 4

def scopeOf (c : BitVec 3) : Option Scope :=
  match c.toNat with
  | 0 => some .g | 1 => some .b | 2 => some .a | 3 => some .d | 4 => some .x | _ => none

/-- ANN is 0 for none, or 1 + SCOPE (R325). -/
def annCode : Option Scope → BitVec 3
  | none => 0
  | some s => s.code + 1

def annOf (c : BitVec 3) : Option (Option Scope) :=
  if c = 0 then some none else (scopeOf (c - 1)).map some

def Order.code : Order → BitVec 2
  | .none => 0 | .acq => 1 | .rel => 2 | .ar => 3

def orderOf (c : BitVec 2) : Order :=
  match c.toNat with
  | 0 => .none | 1 => .acq | 2 => .rel | _ => .ar

def Rm.code : Rm → BitVec 2
  | .rn => 0 | .rz => 1 | .rd => 2 | .ru => 3

def rmOf (c : BitVec 2) : Rm :=
  match c.toNat with
  | 0 => .rn | 1 => .rz | 2 => .rd | _ => .ru

def Cmp.code : Cmp → BitVec 3
  | .eq => 0 | .ne => 1 | .lt => 2 | .le => 3 | .gt => 4 | .ge => 5 | .num => 6 | .nan => 7

def cmpOf (c : BitVec 3) : Cmp :=
  match c.toNat with
  | 0 => .eq | 1 => .ne | 2 => .lt | 3 => .le | 4 => .gt | 5 => .ge | 6 => .num | _ => .nan

def RedOp.code : RedOp → BitVec 3
  | .add => 0 | .min => 1 | .max => 2 | .and => 3 | .or => 4 | .xor => 5 | .fadd => 6 | .fmax => 7

def redOpOf (c : BitVec 3) : RedOp :=
  match c.toNat with
  | 0 => .add | 1 => .min | 2 => .max | 3 => .and | 4 => .or | 5 => .xor | 6 => .fadd | _ => .fmax

def AtomOp.code : AtomOp → Nat
  | .add => 0 | .min => 1 | .max => 2 | .and => 3 | .or => 4 | .xor => 5 | .exch => 6 | .cas => 7

def atomOpOf (c : Nat) : AtomOp :=
  match c with
  | 0 => .add | 1 => .min | 2 => .max | 3 => .and | 4 => .or | 5 => .xor | 6 => .exch | _ => .cas

def AtomTy.code : AtomTy → Nat
  | .s32 => 0 | .n32 => 1 | .s64 => 2 | .n64 => 3

def atomTyOf (c : Nat) : AtomTy :=
  match c with
  | 0 => .s32 | 1 => .n32 | 2 => .s64 | _ => .n64

def Fmt.code : Fmt → BitVec 4
  | .f32 => 0 | .bf16 => 1 | .f16 => 2 | .e4m3 => 3 | .e5m2 => 4 | .fp4 => 5 | .ds8 => 6 | .s32 => 7
  | .s16 => 8 | .s8 => 9 | .s4 => 10 | .n8 => 11 | .n16 => 12 | .n32 => 13 | .s64 => 14 | .n64 => 15

def fmtOf (c : BitVec 4) : Fmt :=
  match c.toNat with
  | 0 => .f32 | 1 => .bf16 | 2 => .f16 | 3 => .e4m3 | 4 => .e5m2 | 5 => .fp4 | 6 => .ds8 | 7 => .s32
  | 8 => .s16 | 9 => .s8 | 10 => .s4 | 11 => .n8 | 12 => .n16 | 13 => .n32 | 14 => .s64 | _ => .n64

def LxMode.code : LxMode → BitVec 2
  | .at => 0 | .below => 1 | .above => 2 | .flip => 3

def lxModeOf (c : BitVec 2) : LxMode :=
  match c.toNat with
  | 0 => .at | 1 => .below | 2 => .above | _ => .flip

def szOf (c : Nat) : Option Sz :=
  match c with
  | 0 => some .n8 | 1 => some .s8 | 2 => some .n16 | 3 => some .s16 | 4 => some .w32 | 5 => some .w64 | 6 => some .w128
  | _ => none

/-! ## Operand fields -/

/-- A v/k field (R322, R323). -/
def srcOf (k : Bool) (f : BitVec 10) (l : DWord) : Src :=
  if k then (if f = 0x3FF then .lit l else .k (f.truncate 6)) else .v f

/-- A k field (R322, R323). -/
def ksrcOf (f : BitVec 10) (l : DWord) : KSrc :=
  if f = 0x3FF then .lit l else .k (f.truncate 6)

def Src.field : Src → BitVec 10
  | .v n => n
  | .k n => n.zeroExtend 10
  | .lit _ => 0x3FF

def KSrc.field : KSrc → BitVec 10
  | .k n => n.zeroExtend 10
  | .lit _ => 0x3FF

/-- Source A, source B. -/
def Raw.srcA (r : Raw) (l : DWord) : Src := srcOf r.ka r.a l
def Raw.srcB (r : Raw) (l : DWord) : Src := srcOf r.kb r.b l
def Raw.ksrcA (r : Raw) (l : DWord) : KSrc := ksrcOf r.a l
def Raw.ksrcB (r : Raw) (l : DWord) : KSrc := ksrcOf r.b l
def Raw.kD (r : Raw) : KReg := r.d.truncate 6
def Raw.kA (r : Raw) : KReg := r.a.truncate 6
def Raw.kC (r : Raw) : KReg := r.c.truncate 6
def Raw.pD (r : Raw) : PReg := r.d.truncate 4
def Raw.pA (r : Raw) : PReg := r.a.truncate 4
def Raw.pB (r : Raw) : PReg := r.b.truncate 4
def Raw.pC (r : Raw) : PReg := r.c.truncate 4
/-- The common modifier bits (R325). -/
def Raw.sgn (r : Raw) : Bool := r.m.getLsbD 0
def Raw.isat (r : Raw) : Bool := r.m.getLsbD 1
def Raw.m2 (r : Raw) : Bool := r.m.getLsbD 2
def Raw.m3 (r : Raw) : Bool := r.m.getLsbD 3
def Raw.m4 (r : Raw) : Bool := r.m.getLsbD 4
def Raw.rm (r : Raw) : Rm := rmOf (r.m.truncate 2)
def Raw.cmp (r : Raw) : Cmp := cmpOf (r.m.extractLsb' 2 3)
def Raw.ch (r : Raw) : BitVec 2 := r.m.truncate 2
def Raw.scope (r : Raw) : Option Scope := scopeOf (r.m.truncate 3)
def Raw.order (r : Raw) : Order := orderOf (r.m.extractLsb' 3 2)
def Raw.ann (r : Raw) : Option (Option Scope) := annOf (r.m.extractLsb' 2 3)

/-- The address of the memory form (R324). -/
def Raw.adr (r : Raw) (l : DWord) : Adr :=
  { base := r.srcA l, index := r.srcB l, scale := r.c.extractLsb' 8 2
    off := if r.m.getLsbD 1 then .lit (l.truncate 32) else .scaled (r.c.truncate 8) }

/-! ## Decoding by family (R326) -/

def parseControl (r : Raw) (l : DWord) (o : Nat) : Option Instr :=
  let h := r.hdr
  match o with
  | 0x01 => some (.nop h)
  | 0x02 => some (.bra h r.imm)
  | 0x03 => some (.brx h (r.srcA l))
  | 0x04 => some (.call h r.imm)
  | 0x05 => some (.callx h (r.srcA l))
  | 0x06 => some (.ret h)
  | 0x07 => some (.exit h)
  | 0x08 => some (.yield h)
  | 0x09 => some (.jmark h (r.d.truncate 3))
  | 0x0A => some (.jwait h (r.d.truncate 3))
  | 0x0B => some (.bar h (r.d.truncate 4))
  | 0x0C => some (.abar h (r.d.truncate 4))
  | 0x0D => some (.chkc h)
  | 0x0E => some (.bkpt h)
  | 0x0F => if r.imm.getLsbD 26 then some (.trapSvc h (r.imm.truncate 24)) else some (.trap h (r.imm.truncate 26))
  | _ => none

def parsePredicate (r : Raw) (l : DWord) (o : Nat) : Option Instr :=
  let h := r.hdr
  match o with
  | 0 => some (.pseti h r.pD (r.srcA l) (r.srcB l) r.pC r.cmp r.sgn)
  | 1 => some (.psetf h r.pD (r.srcA l) (r.srcB l) r.pC r.cmp)
  | 2 => some (.plop h r.pD r.pA r.pB (r.m.truncate 4))
  | 3 => if r.sgn then some (.pmov h (.fromV (r.srcA l) (r.srcB l))) else some (.pmov h (.toV r.d))
  | 4 =>
    match (r.m.truncate 2).toNat with
    | 0 => some (.vote h (.all r.pD) r.pA)
    | 1 => some (.vote h (.any r.pD) r.pA)
    | 2 => some (.vote h (.ballot r.kD) r.pA)
    | _ => some (.vote h (.eq r.pD) r.pA)
  | 5 => some (.psetiImm h (r.d.truncate 4) r.a (cmpOf (r.d.extractLsb' 4 3)) (r.d.getLsbD 7) r.imm)
  | _ => none

def parseUniform (r : Raw) (l : DWord) (o : Nat) : Option Instr :=
  let h := r.hdr
  let a := r.ksrcA l
  let b := r.ksrcB l
  match o with
  | 0 => some (.kmov h r.kD a r.m2)
  | 1 => some (.kadd h r.kD a b r.sgn r.isat r.m2)
  | 2 => some (.ksub h r.kD a b r.sgn r.isat r.m2)
  | 3 => some (.kmul h r.kD a b r.sgn r.isat)
  | 4 => some (.kmin h r.kD a b r.sgn)
  | 5 => some (.kmax h r.kD a b r.sgn)
  | 6 => some (.kand h r.kD a b)
  | 7 => some (.kor h r.kD a b)
  | 8 => some (.kxor h r.kD a b)
  | 9 => some (.kshl h r.kD a b r.sgn r.isat)
  | 10 => some (.kshr h r.kD a b)
  | 11 => some (.ksar h r.kD a b)
  | 12 => some (.kcmp h r.kD a b r.cmp r.sgn)
  | 13 => some (.ksel h r.kD a b r.kC)
  | 14 => some (.kmovImm h r.kD r.imm)
  | 15 => some (.kaddImm h r.kD r.kA r.imm)
  | _ => none

def parseInteger (r : Raw) (l : DWord) (o : Nat) : Option Instr :=
  let h := r.hdr
  let a := r.srcA l
  let b := r.srcB l
  match o with
  | 0x00 => some (.mov h r.d a r.m2)
  | 0x01 => some (.sel h r.d a b r.pC)
  | 0x02 => some (.iadd h r.d a b r.sgn r.isat)
  | 0x03 => some (.isub h r.d a b r.sgn r.isat)
  | 0x04 => some (.imul h r.d a b r.sgn r.isat)
  | 0x05 => some (.imulh h r.d a b r.sgn)
  | 0x06 => some (.imad h r.d a b r.c r.sgn r.isat)
  | 0x07 => some (.imadw h r.d a b r.c r.sgn r.isat)
  | 0x08 => some (.imin h r.d a b r.sgn)
  | 0x09 => some (.imax h r.d a b r.sgn)
  | 0x0A => some (.iabs h r.d a r.isat)
  | 0x0B => some (.ineg h r.d a r.isat)
  | 0x0C => some (.iand h r.d a b)
  | 0x0D => some (.ior h r.d a b)
  | 0x0E => some (.ixor h r.d a b)
  | 0x0F => some (.inot h r.d a)
  | 0x10 => some (.ishl h r.d a b r.sgn r.isat)
  | 0x11 => some (.ishr h r.d a b)
  | 0x12 => some (.isar h r.d a b)
  | 0x13 => some (.irot h r.d a b)
  | 0x14 => some (.popc h r.d a)
  | 0x15 => some (.clz h r.d a)
  | 0x16 => some (.brev h r.d a)
  | 0x17 => some (.bfe h r.d a b r.sgn)
  | 0x18 => some (.bfi h r.d a b r.c)
  | 0x19 => some (.iadd64 h r.d a b r.sgn r.isat)
  | 0x1A => some (.isub64 h r.d a b r.sgn r.isat)
  | 0x1B => some (.iclamp h r.d a b r.c r.sgn)
  | 0x1C => some (.padd16 h r.d a b r.isat r.m2)
  | 0x1D => some (.pmac16 h r.d a b r.c)
  | 0x1E => some (.pshr h r.d a b r.m2)
  | 0x1F => some (.hash h r.d a b)
  | 0x40 => some (.movImm h r.d r.imm)
  | 0x41 => some (.iaddImm h r.d r.a r.imm)
  | 0x42 => some (.imulImm h r.d r.a r.imm)
  | 0x43 => some (.iandImm h r.d r.a r.imm)
  | 0x44 => some (.iorImm h r.d r.a r.imm)
  | 0x45 => some (.ixorImm h r.d r.a r.imm)
  | 0x46 => some (.ishlImm h r.d r.a r.imm)
  | 0x47 => some (.ishrImm h r.d r.a r.imm)
  | 0x48 => some (.isarImm h r.d r.a r.imm)
  | _ => none

def parseCross (r : Raw) (l : DWord) (o : Nat) : Option Instr :=
  let h := r.hdr
  let a := r.srcA l
  let b := r.srcB l
  let seg : BitVec 3 := r.c.truncate 3
  let op := redOpOf (r.m.extractLsb' 2 3)
  match o with
  | 0 => some (.lxch h r.d a b seg (lxModeOf (r.m.truncate 2)))
  | 1 => some (.slide h r.d a b r.kC)
  | 2 => some (.red h r.d a seg op r.sgn r.isat)
  | 3 => some (.scan h r.d a seg (r.c.getLsbD 3) op r.sgn r.isat)
  | 4 => some (.bcast h r.d a b)
  | 5 => some (.krdl h r.kD r.a b)
  | _ => none

def parseFloat (r : Raw) (l : DWord) (o : Nat) : Option Instr :=
  let h := r.hdr
  let a := r.srcA l
  let b := r.srcB l
  let df := fmtOf (r.c.extractLsb' 4 4)
  let sf := fmtOf (r.c.truncate 4)
  match o with
  | 0x00 => some (.fadd h r.d a b r.rm r.m2)
  | 0x01 => some (.fsub h r.d a b r.rm r.m2)
  | 0x02 => some (.fmul h r.d a b r.rm r.m2)
  | 0x03 => some (.ffma h r.d a b r.c r.rm r.m2)
  | 0x04 => some (.fdiv h r.d a b r.rm r.m2)
  | 0x05 => some (.fmin h r.d a b)
  | 0x06 => some (.fmax h r.d a b)
  | 0x07 => some (.fabs h r.d a)
  | 0x08 => some (.fneg h r.d a)
  | 0x09 => some (.frnd h r.d a r.rm)
  | 0x0A => some (.fscale h r.d a b r.rm r.m2)
  | 0x0B => some (.fclass h r.d a)
  | 0x0C => some (.frcp h r.d a r.rm r.m2)
  | 0x0D => some (.frsq h r.d a r.rm r.m2)
  | 0x0E => some (.fsqrt h r.d a r.rm r.m2)
  | 0x0F => some (.fexp2 h r.d a r.rm r.m2)
  | 0x10 => some (.flog2 h r.d a r.rm r.m2)
  | 0x11 => some (.fsin h r.d a r.rm r.m2)
  | 0x12 => some (.fcos h r.d a r.rm r.m2)
  | 0x13 => some (.hadd2 h r.d a b r.rm r.m2 r.m3)
  | 0x14 => some (.hsub2 h r.d a b r.rm r.m2 r.m3)
  | 0x15 => some (.hmul2 h r.d a b r.rm r.m2 r.m3)
  | 0x16 => some (.hfma2 h r.d a b r.c r.rm r.m2 r.m3)
  | 0x17 => some (.hmin2 h r.d a b r.m3)
  | 0x18 => some (.hmax2 h r.d a b r.m3)
  | 0x19 => some (.hdot2 h r.d a b r.c r.rm r.m2 r.m3)
  | 0x1A => some (.cvt h r.d a df sf (BitVec.ofBool r.m3 ++ r.c.extractLsb' 8 2) r.rm r.m2)
  | 0x1B => some (.cvt2 h r.d a b df sf (r.c.extractLsb' 8 2) r.rm r.m2)
  | _ => none

def parseMemory (r : Raw) (l : DWord) (o : Nat) : Option Instr :=
  let h := r.hdr
  let a := r.adr l
  if o < 0x08 then do some (.ld h (← szOf o) r.d a (← r.ann) r.sgn)
  else if o < 0x10 then do some (.st h (← szOf (o - 0x08)) r.d a (← r.ann))
  else if o < 0x18 then do some (.lds h (← szOf (o - 0x10)) r.d a (← r.ann))
  else if o < 0x20 then do some (.sts h (← szOf (o - 0x18)) r.d a (← r.ann))
  else match o with
  | 0x20 => do some (.ldk h false r.kD a (← r.ann))
  | 0x21 => do some (.ldk h true r.kD a (← r.ann))
  | 0x22 => some (.pref h (r.d.getLsbD 0) a)
  | 0x23 =>
    match r.d.toNat with
    | 0 => some (.cctl h (.wb a))
    | 1 => some (.cctl h (.inv a))
    | 2 => some (.cctl h (.wbinv a))
    | 3 => some (.cctl h (.iinv a))
    | 4 => some (.cctl h .wball)
    | 5 => some (.cctl h .iinvall)
    | _ => none
  | 0x24 => do some (.fence h (← r.scope))
  | 0x25 => do some (.qfence h (r.c.truncate 8) (← r.scope))
  | _ => none

def parseAtomic (r : Raw) (l : DWord) (o : Nat) : Option Instr :=
  let h := r.hdr
  let a := r.srcA l
  let b := r.srcB l
  if o < 0x20 then do some (.atom h (atomOpOf (o / 4)) (atomTyOf (o % 4)) r.d a b r.c r.order (← r.scope))
  else if o = 0x20 then do some (.atomFadd h r.d a b r.order (← r.scope))
  else if 0x28 ≤ o ∧ o < 0x38 then some (.atoms h (atomOpOf ((o - 0x28) / 2)) (o % 2 == 1) r.d a b r.c r.order)
  else if o = 0x38 then some (.atomsFadd h r.d a b r.order)
  else none

def parseMatrix (r : Raw) (l : DWord) (o : Nat) : Option Instr :=
  let h := r.hdr
  let ka := r.ksrcA l
  let kb := r.ksrcB l
  let fd : FrameReg := r.d.truncate 8
  let fa : FrameReg := r.a.truncate 8
  match o with
  | 0 => some (.shape h (r.d.truncate 3) ka kb (r.m.truncate 5))
  | 1 => some (.shext h (r.d.truncate 3) ka)
  | 2 => some (.shq h r.kD (r.a.truncate 3))
  | 3 => some (.wbld h ka kb (r.c.truncate 6) r.ch)
  | 4 => some (.mma h fd ka kb (r.c.truncate 3) (r.c.extractLsb' 3 6) r.m4 r.m3)
  | 5 => some (.accrd h r.d fa (r.srcB l) r.sgn)
  | 6 => some (.accwr h fd (r.srcA l) (r.srcB l))
  | 7 => some (.accclr h fd)
  | 8 => some (.wmark h r.kD fa)
  | 9 => some (.drnld h (r.d.truncate 5))
  | _ => none

def parseAsync (r : Raw) (l : DWord) (o : Nat) : Option Instr :=
  let h := r.hdr
  let ring : BitVec 3 := r.a.truncate 3
  match o with
  | 0 => some (.copy h r.kD r.kA (r.ksrcB l) r.ch)
  | 1 => if r.m2 then some (.rdwpt h (.v r.d) r.ch) else some (.rdwpt h (.k r.kD) r.ch)
  | 2 => if r.sgn then some (.ringp h ring .done) else some (.ringp h ring (.acq r.kD))
  | 3 => if r.sgn then some (.ringc h ring .done) else some (.ringc h ring (.acq r.kD))
  | 4 => some (.regacq h (r.ksrcA l))
  | 5 => some (.regrel h (r.ksrcA l))
  | _ => none

def parseTasks (r : Raw) (l : DWord) (o : Nat) : Option Instr :=
  let h := r.hdr
  let a := r.srcA l
  let b := r.srcB l
  match o with
  | 0x00 => some (.spawn h a b r.c)
  | 0x01 =>
    match (r.m.truncate 2).toNat with
    | 0 => some (.enq h a .own)
    | 1 => some (.enq h a (.core b))
    | 2 => some (.enq h a .hash)
    | _ => none
  | 0x02 => some (.decr h a b)
  | 0x03 => some (.waitd h a)
  | 0x04 => some (.leafq h r.d a b r.sgn)
  | 0x05 => some (.fres h a b)
  | 0x06 => some (.waitf h r.d a r.c)
  | 0x07 => some (.testf h r.d a)
  | 0x08 => some (.cqry h r.d a b)
  | 0x09 => some (.dstep h r.d a)
  | 0x0A => some (.poola h r.d a r.pC)
  | 0x0B => some (.poolf h a b)
  | 0x0C => some (.poolft h a b)
  | 0x0D => some (.bestupd h a b r.c)
  | 0x0E => some (.dlnset h a)
  | 0x0F => some (.dlnrd h r.kD)
  | 0x10 => some (.cancel h a)
  | _ => none

def parseSystem (r : Raw) (l : DWord) (o : Nat) : Option Instr :=
  let h := r.hdr
  match o with
  | 0 => some (.movs h r.b (r.srcA l))
  | 1 =>
    match (r.m.truncate 2).toNat with
    | 0 => some (.movsr h (.v r.d) r.b)
    | 1 => some (.movsr h (.k r.kD) r.b)
    | 2 => some (.movsr h (.q (r.d.truncate 4)) r.b)
    | _ => none
  | 2 => some (.movq h (r.d.truncate 4) (r.adr l))
  | 3 => some (.tret h)
  | 4 => some (.laneend h)
  | 5 => some (.pkrd h r.d (r.srcA l) (r.srcB l))
  | 6 => some (.pkwr h (r.srcA l) (r.srcB l) r.c)
  | _ => none

/-- The instruction that the fields and the literal name, before the checks of the fields the entry does not use (R326). -/
def parse (r : Raw) (l : DWord) : Option Instr :=
  let o := r.opc.toNat
  if o < 0x080 then parseControl r l o
  else if o < 0x090 then parsePredicate r l (o - 0x080)
  else if o < 0x100 then parseUniform r l (o - 0x090)
  else if o < 0x180 then parseInteger r l (o - 0x100)
  else if o < 0x200 then parseCross r l (o - 0x180)
  else if o < 0x300 then parseFloat r l (o - 0x200)
  else if o < 0x340 then parseMemory r l (o - 0x300)
  else if o < 0x380 then parseAtomic r l (o - 0x340)
  else if o < 0x400 then parseMatrix r l (o - 0x380)
  else if o < 0x480 then parseAsync r l (o - 0x400)
  else if o < 0x500 then parseTasks r l (o - 0x480)
  else parseSystem r l (o - 0x500)

/-! ## Encoding -/

/-- A word with v/k sources A and B, a C field and M[4:0]. -/
def mk3 (h : Hdr) (o : Nat) (d : BitVec 10) (a b : Src) (c : BitVec 10) (m : BitVec 5) : Raw × List DWord :=
  ({ s := h.s, opc := BitVec.ofNat 11 o, g := h.g, gn := h.gn, d := d, a := a.field, b := b.field, c := c
     m := BitVec.ofBool a.isK ++ BitVec.ofBool b.isK ++ m }, a.lits ++ b.lits)

/-- A word with a v/k source A and a B field. -/
def mk1 (h : Hdr) (o : Nat) (d : BitVec 10) (a : Src) (b c : BitVec 10) (m : BitVec 5) : Raw × List DWord :=
  ({ s := h.s, opc := BitVec.ofNat 11 o, g := h.g, gn := h.gn, d := d, a := a.field, b := b, c := c
     m := BitVec.ofBool a.isK ++ 0#1 ++ m }, a.lits)

/-- A word with a v/k source B and an A field. -/
def mkB (h : Hdr) (o : Nat) (d a : BitVec 10) (b : Src) (c : BitVec 10) (m : BitVec 5) : Raw × List DWord :=
  ({ s := h.s, opc := BitVec.ofNat 11 o, g := h.g, gn := h.gn, d := d, a := a, b := b.field, c := c
     m := 0#1 ++ BitVec.ofBool b.isK ++ m }, b.lits)

/-- A word with k sources A and B, both K bits set. -/
def mkK2 (h : Hdr) (o : Nat) (d : BitVec 10) (a b : KSrc) (c : BitVec 10) (m : BitVec 5) : Raw × List DWord :=
  ({ s := h.s, opc := BitVec.ofNat 11 o, g := h.g, gn := h.gn, d := d, a := a.field, b := b.field, c := c
     m := 3#2 ++ m }, a.lits ++ b.lits)

/-- A word with a k source A. -/
def mkK1 (h : Hdr) (o : Nat) (d : BitVec 10) (a : KSrc) (m : BitVec 5) : Raw × List DWord :=
  ({ s := h.s, opc := BitVec.ofNat 11 o, g := h.g, gn := h.gn, d := d, a := a.field, b := 0, c := 0
     m := 2#2 ++ m }, a.lits)

/-- A word whose fields are plain numbers. -/
def mk0 (h : Hdr) (o : Nat) (d a b c : BitVec 10) (m : BitVec 7) : Raw × List DWord :=
  ({ s := h.s, opc := BitVec.ofNat 11 o, g := h.g, gn := h.gn, d := d, a := a, b := b, c := c, m := m }, [])

/-- An immediate form (R320). -/
def mkI (h : Hdr) (o : Nat) (d a : BitVec 10) (i : Imm) : Raw × List DWord :=
  ({ s := h.s, opc := BitVec.ofNat 11 o, g := h.g, gn := h.gn, d := d, a := a
     b := i.extractLsb' 17 10, c := i.extractLsb' 7 10, m := i.extractLsb' 0 7 }, [])

def Off.isLit : Off → Bool
  | .lit _ => true
  | _ => false

def Off.byte : Off → Byte
  | .scaled o => o
  | .lit _ => 0

/-- A word of the memory form with ANN and M[0] (R324, R325). -/
def mkM (h : Hdr) (o : Nat) (d : BitVec 10) (a : Adr) (ann : BitVec 3) (pf : Bool) : Raw × List DWord :=
  ({ s := h.s, opc := BitVec.ofNat 11 o, g := h.g, gn := h.gn, d := d, a := a.base.field, b := a.index.field
     c := a.scale ++ a.off.byte
     m := BitVec.ofBool a.base.isK ++ BitVec.ofBool a.index.isK ++ ann ++ BitVec.ofBool a.off.isLit ++ BitVec.ofBool pf }
   , a.lits)

/-- M[4:0] of RM and SAT with F16 (R379, R383). -/
def mF (rm : Rm) (sat f16 : Bool) : BitVec 5 := 0#1 ++ BitVec.ofBool f16 ++ BitVec.ofBool sat ++ rm.code

/-- M[4:0] of SGN and ISAT with M[2] (R325). -/
def mInt (n sat m2 : Bool) : BitVec 5 := 0#2 ++ BitVec.ofBool m2 ++ BitVec.ofBool sat ++ BitVec.ofBool n

/-- M[4:0] of CMP and SGN (R354). -/
def mCmp (c : Cmp) (n : Bool) : BitVec 5 := c.code ++ 0#1 ++ BitVec.ofBool n

/-- M[4:0] of ORDER and SCOPE (R324). -/
def mAtom (o : Order) (s : BitVec 3) : BitVec 5 := o.code ++ s

/-- M[4:0] of OP, ISAT and SGN (R371). -/
def mRed (op : RedOp) (n sat : Bool) : BitVec 5 := op.code ++ BitVec.ofBool sat ++ BitVec.ofBool n

/-- The C field of a conversion (R386). -/
def cCvt (df sf : Fmt) (pos : BitVec 2) : BitVec 10 := pos ++ df.code ++ sf.code

/-- The fields and the literal words of an instruction; none for a device event, which no word stands for. -/
def Instr.raw : Instr → Option (Raw × List DWord)
  | .nop h => some (mk0 h 0x001 0 0 0 0 0)
  | .bra h i => some (mkI h 0x002 0 0 i)
  | .brx h a => some (mk1 h 0x003 0 a 0 0 0)
  | .call h i => some (mkI h 0x004 0 0 i)
  | .callx h a => some (mk1 h 0x005 0 a 0 0 0)
  | .ret h => some (mk0 h 0x006 0 0 0 0 0)
  | .exit h => some (mk0 h 0x007 0 0 0 0 0)
  | .yield h => some (mk0 h 0x008 0 0 0 0 0)
  | .jmark h j => some (mk0 h 0x009 (j.zeroExtend 10) 0 0 0 0)
  | .jwait h j => some (mk0 h 0x00A (j.zeroExtend 10) 0 0 0 0)
  | .bar h b => some (mk0 h 0x00B (b.zeroExtend 10) 0 0 0 0)
  | .abar h b => some (mk0 h 0x00C (b.zeroExtend 10) 0 0 0 0)
  | .chkc h => some (mk0 h 0x00D 0 0 0 0 0)
  | .bkpt h => some (mk0 h 0x00E 0 0 0 0 0)
  | .trap h c => some (mkI h 0x00F 0 0 (0#1 ++ c))
  | .trapSvc h n => some (mkI h 0x00F 0 0 (4#3 ++ n))
  | .pseti h d a b c cmp n => some (mk3 h 0x080 (d.zeroExtend 10) a b (c.zeroExtend 10) (mCmp cmp n))
  | .psetf h d a b c cmp => some (mk3 h 0x081 (d.zeroExtend 10) a b (c.zeroExtend 10) (mCmp cmp false))
  | .plop h d a b lut => some (mk0 h 0x082 (d.zeroExtend 10) (a.zeroExtend 10) (b.zeroExtend 10) 0 (lut.zeroExtend 7))
  | .pmov h (.toV d) => some (mk0 h 0x083 d 0 0 0 0)
  | .pmov h (.fromV a b) => some (mk3 h 0x083 0 a b 0 1)
  | .vote h (.all d) a => some (mk0 h 0x084 (d.zeroExtend 10) (a.zeroExtend 10) 0 0 0)
  | .vote h (.any d) a => some (mk0 h 0x084 (d.zeroExtend 10) (a.zeroExtend 10) 0 0 1)
  | .vote h (.ballot d) a => some (mk0 h 0x084 (d.zeroExtend 10) (a.zeroExtend 10) 0 0 2)
  | .vote h (.eq d) a => some (mk0 h 0x084 (d.zeroExtend 10) (a.zeroExtend 10) 0 0 3)
  | .psetiImm h d a cmp n i => some (mkI h 0x085 (0#2 ++ BitVec.ofBool n ++ cmp.code ++ d) a i)
  | .kmov h d a w => some (mkK1 h 0x090 (d.zeroExtend 10) a (mInt false false w))
  | .kadd h d a b n sat w => some (mkK2 h 0x091 (d.zeroExtend 10) a b 0 (mInt n sat w))
  | .ksub h d a b n sat w => some (mkK2 h 0x092 (d.zeroExtend 10) a b 0 (mInt n sat w))
  | .kmul h d a b n sat => some (mkK2 h 0x093 (d.zeroExtend 10) a b 0 (mInt n sat false))
  | .kmin h d a b n => some (mkK2 h 0x094 (d.zeroExtend 10) a b 0 (mInt n false false))
  | .kmax h d a b n => some (mkK2 h 0x095 (d.zeroExtend 10) a b 0 (mInt n false false))
  | .kand h d a b => some (mkK2 h 0x096 (d.zeroExtend 10) a b 0 0)
  | .kor h d a b => some (mkK2 h 0x097 (d.zeroExtend 10) a b 0 0)
  | .kxor h d a b => some (mkK2 h 0x098 (d.zeroExtend 10) a b 0 0)
  | .kshl h d a b n sat => some (mkK2 h 0x099 (d.zeroExtend 10) a b 0 (mInt n sat false))
  | .kshr h d a b => some (mkK2 h 0x09A (d.zeroExtend 10) a b 0 0)
  | .ksar h d a b => some (mkK2 h 0x09B (d.zeroExtend 10) a b 0 0)
  | .kcmp h d a b cmp n => some (mkK2 h 0x09C (d.zeroExtend 10) a b 0 (mCmp cmp n))
  | .ksel h d a b c => some (mkK2 h 0x09D (d.zeroExtend 10) a b (c.zeroExtend 10) 0)
  | .kmovImm h d i => some (mkI h 0x09E (d.zeroExtend 10) 0 i)
  | .kaddImm h d a i => some (mkI h 0x09F (d.zeroExtend 10) (a.zeroExtend 10) i)
  | .mov h d a w => some (mk1 h 0x100 d a 0 0 (mInt false false w))
  | .sel h d a b c => some (mk3 h 0x101 d a b (c.zeroExtend 10) 0)
  | .iadd h d a b n sat => some (mk3 h 0x102 d a b 0 (mInt n sat false))
  | .isub h d a b n sat => some (mk3 h 0x103 d a b 0 (mInt n sat false))
  | .imul h d a b n sat => some (mk3 h 0x104 d a b 0 (mInt n sat false))
  | .imulh h d a b n => some (mk3 h 0x105 d a b 0 (mInt n false false))
  | .imad h d a b c n sat => some (mk3 h 0x106 d a b c (mInt n sat false))
  | .imadw h d a b c n sat => some (mk3 h 0x107 d a b c (mInt n sat false))
  | .imin h d a b n => some (mk3 h 0x108 d a b 0 (mInt n false false))
  | .imax h d a b n => some (mk3 h 0x109 d a b 0 (mInt n false false))
  | .iabs h d a sat => some (mk1 h 0x10A d a 0 0 (mInt false sat false))
  | .ineg h d a sat => some (mk1 h 0x10B d a 0 0 (mInt false sat false))
  | .iand h d a b => some (mk3 h 0x10C d a b 0 0)
  | .ior h d a b => some (mk3 h 0x10D d a b 0 0)
  | .ixor h d a b => some (mk3 h 0x10E d a b 0 0)
  | .inot h d a => some (mk1 h 0x10F d a 0 0 0)
  | .ishl h d a b n sat => some (mk3 h 0x110 d a b 0 (mInt n sat false))
  | .ishr h d a b => some (mk3 h 0x111 d a b 0 0)
  | .isar h d a b => some (mk3 h 0x112 d a b 0 0)
  | .irot h d a b => some (mk3 h 0x113 d a b 0 0)
  | .popc h d a => some (mk1 h 0x114 d a 0 0 0)
  | .clz h d a => some (mk1 h 0x115 d a 0 0 0)
  | .brev h d a => some (mk1 h 0x116 d a 0 0 0)
  | .bfe h d a b n => some (mk3 h 0x117 d a b 0 (mInt n false false))
  | .bfi h d a b c => some (mk3 h 0x118 d a b c 0)
  | .iadd64 h d a b n sat => some (mk3 h 0x119 d a b 0 (mInt n sat false))
  | .isub64 h d a b n sat => some (mk3 h 0x11A d a b 0 (mInt n sat false))
  | .iclamp h d a b c n => some (mk3 h 0x11B d a b c (mInt n false false))
  | .padd16 h d a b sat sub => some (mk3 h 0x11C d a b 0 (mInt false sat sub))
  | .pmac16 h d a b c => some (mk3 h 0x11D d a b c 0)
  | .pshr h d a b hi => some (mk3 h 0x11E d a b 0 (mInt false false hi))
  | .hash h d a b => some (mk3 h 0x11F d a b 0 0)
  | .movImm h d i => some (mkI h 0x140 d 0 i)
  | .iaddImm h d a i => some (mkI h 0x141 d a i)
  | .imulImm h d a i => some (mkI h 0x142 d a i)
  | .iandImm h d a i => some (mkI h 0x143 d a i)
  | .iorImm h d a i => some (mkI h 0x144 d a i)
  | .ixorImm h d a i => some (mkI h 0x145 d a i)
  | .ishlImm h d a i => some (mkI h 0x146 d a i)
  | .ishrImm h d a i => some (mkI h 0x147 d a i)
  | .isarImm h d a i => some (mkI h 0x148 d a i)
  | .lxch h d a b seg mode => some (mk3 h 0x180 d a b (seg.zeroExtend 10) (mode.code.zeroExtend 5))
  | .slide h d a b c => some (mk3 h 0x181 d a b (c.zeroExtend 10) 0)
  | .red h d a seg op n sat => some (mk1 h 0x182 d a 0 (seg.zeroExtend 10) (mRed op n sat))
  | .scan h d a seg ex op n sat => some (mk1 h 0x183 d a 0 (0#6 ++ BitVec.ofBool ex ++ seg) (mRed op n sat))
  | .bcast h d a b => some (mk3 h 0x184 d a b 0 0)
  | .krdl h d a b => some (mkB h 0x185 (d.zeroExtend 10) a b 0 0)
  | .fadd h d a b rm sat => some (mk3 h 0x200 d a b 0 (mF rm sat false))
  | .fsub h d a b rm sat => some (mk3 h 0x201 d a b 0 (mF rm sat false))
  | .fmul h d a b rm sat => some (mk3 h 0x202 d a b 0 (mF rm sat false))
  | .ffma h d a b c rm sat => some (mk3 h 0x203 d a b c (mF rm sat false))
  | .fdiv h d a b rm sat => some (mk3 h 0x204 d a b 0 (mF rm sat false))
  | .fmin h d a b => some (mk3 h 0x205 d a b 0 0)
  | .fmax h d a b => some (mk3 h 0x206 d a b 0 0)
  | .fabs h d a => some (mk1 h 0x207 d a 0 0 0)
  | .fneg h d a => some (mk1 h 0x208 d a 0 0 0)
  | .frnd h d a rm => some (mk1 h 0x209 d a 0 0 (mF rm false false))
  | .fscale h d a b rm sat => some (mk3 h 0x20A d a b 0 (mF rm sat false))
  | .fclass h d a => some (mk1 h 0x20B d a 0 0 0)
  | .frcp h d a rm sat => some (mk1 h 0x20C d a 0 0 (mF rm sat false))
  | .frsq h d a rm sat => some (mk1 h 0x20D d a 0 0 (mF rm sat false))
  | .fsqrt h d a rm sat => some (mk1 h 0x20E d a 0 0 (mF rm sat false))
  | .fexp2 h d a rm sat => some (mk1 h 0x20F d a 0 0 (mF rm sat false))
  | .flog2 h d a rm sat => some (mk1 h 0x210 d a 0 0 (mF rm sat false))
  | .fsin h d a rm sat => some (mk1 h 0x211 d a 0 0 (mF rm sat false))
  | .fcos h d a rm sat => some (mk1 h 0x212 d a 0 0 (mF rm sat false))
  | .hadd2 h d a b rm sat f => some (mk3 h 0x213 d a b 0 (mF rm sat f))
  | .hsub2 h d a b rm sat f => some (mk3 h 0x214 d a b 0 (mF rm sat f))
  | .hmul2 h d a b rm sat f => some (mk3 h 0x215 d a b 0 (mF rm sat f))
  | .hfma2 h d a b c rm sat f => some (mk3 h 0x216 d a b c (mF rm sat f))
  | .hmin2 h d a b f => some (mk3 h 0x217 d a b 0 (mF .rn false f))
  | .hmax2 h d a b f => some (mk3 h 0x218 d a b 0 (mF .rn false f))
  | .hdot2 h d a b c rm sat f => some (mk3 h 0x219 d a b c (mF rm sat f))
  | .cvt h d a df sf pos rm sat =>
    some (mk1 h 0x21A d a 0 (cCvt df sf (pos.truncate 2)) (mF rm sat (pos.getLsbD 2)))
  | .cvt2 h d a b df sf pos rm sat => some (mk3 h 0x21B d a b (cCvt df sf pos) (mF rm sat false))
  | .ld h sz d adr ann pf => some (mkM h (0x300 + sz.code) d adr (annCode ann) pf)
  | .st h sz d adr ann => some (mkM h (0x308 + sz.code) d adr (annCode ann) false)
  | .lds h sz d adr ann => some (mkM h (0x310 + sz.code) d adr (annCode ann) false)
  | .sts h sz d adr ann => some (mkM h (0x318 + sz.code) d adr (annCode ann) false)
  | .ldk h w d adr ann => some (mkM h (if w then 0x321 else 0x320) (d.zeroExtend 10) adr (annCode ann) false)
  | .pref h l2 adr => some (mkM h 0x322 (if l2 then 1 else 0) adr 0 false)
  | .cctl h (.wb a) => some (mkM h 0x323 0 a 0 false)
  | .cctl h (.inv a) => some (mkM h 0x323 1 a 0 false)
  | .cctl h (.wbinv a) => some (mkM h 0x323 2 a 0 false)
  | .cctl h (.iinv a) => some (mkM h 0x323 3 a 0 false)
  | .cctl h .wball => some (mk0 h 0x323 4 0 0 0 0)
  | .cctl h .iinvall => some (mk0 h 0x323 5 0 0 0 0)
  | .fence h s => some (mk0 h 0x324 0 0 0 0 (s.code.zeroExtend 7))
  | .qfence h mask s => some (mk0 h 0x325 0 0 0 (mask.zeroExtend 10) (s.code.zeroExtend 7))
  | .atom h op ty d a b c o s => some (mk3 h (0x340 + 4 * op.code + ty.code) d a b c (mAtom o s.code))
  | .atomFadd h d a b o s => some (mk3 h 0x360 d a b 0 (mAtom o s.code))
  | .atoms h op n d a b c o => some (mk3 h (0x368 + 2 * op.code + n.toNat) d a b c (mAtom o 0))
  | .atomsFadd h d a b o => some (mk3 h 0x378 d a b 0 (mAtom o 0))
  | .shape h sh a b fmt => some (mkK2 h 0x380 (sh.zeroExtend 10) a b 0 fmt)
  | .shext h sh a => some (mkK1 h 0x381 (sh.zeroExtend 10) a 0)
  | .shq h d sh => some (mk0 h 0x382 (d.zeroExtend 10) (sh.zeroExtend 10) 0 0 0)
  | .wbld h a b slot ch => some (mkK2 h 0x383 0 a b (slot.zeroExtend 10) (ch.zeroExtend 5))
  | .mma h f a b sh pk twin z =>
    some (mkK2 h 0x384 (f.zeroExtend 10) a b (0#1 ++ pk ++ sh) (BitVec.ofBool twin ++ BitVec.ofBool z ++ 0#3))
  | .accrd h d f b w4 => some (mkB h 0x385 d (f.zeroExtend 10) b 0 (mInt w4 false false))
  | .accwr h f a b => some (mk3 h 0x386 (f.zeroExtend 10) a b 0 0)
  | .accclr h f => some (mk0 h 0x387 (f.zeroExtend 10) 0 0 0 0)
  | .wmark h d f => some (mk0 h 0x388 (d.zeroExtend 10) (f.zeroExtend 10) 0 0 0)
  | .drnld h n => some (mk0 h 0x389 (n.zeroExtend 10) 0 0 0 0)
  | .copy h d a b ch => some (mkK2 h 0x400 (d.zeroExtend 10) (.k a) b 0 (ch.zeroExtend 5))
  | .rdwpt h (.k d) ch => some (mk0 h 0x401 (d.zeroExtend 10) 0 0 0 (ch.zeroExtend 7))
  | .rdwpt h (.v d) ch => some (mk0 h 0x401 d 0 0 0 (1#5 ++ ch))
  | .ringp h ring (.acq d) => some (mk0 h 0x402 (d.zeroExtend 10) (ring.zeroExtend 10) 0 0 0)
  | .ringp h ring .done => some (mk0 h 0x402 0 (ring.zeroExtend 10) 0 0 1)
  | .ringc h ring (.acq d) => some (mk0 h 0x403 (d.zeroExtend 10) (ring.zeroExtend 10) 0 0 0)
  | .ringc h ring .done => some (mk0 h 0x403 0 (ring.zeroExtend 10) 0 0 1)
  | .regacq h a => some (mkK1 h 0x404 0 a 0)
  | .regrel h a => some (mkK1 h 0x405 0 a 0)
  | .spawn h a b c => some (mk3 h 0x480 0 a b c 0)
  | .enq h a .own => some (mk1 h 0x481 0 a 0 0 0)
  | .enq h a (.core b) => some (mk3 h 0x481 0 a b 0 1)
  | .enq h a .hash => some (mk1 h 0x481 0 a 0 0 2)
  | .decr h a b => some (mk3 h 0x482 0 a b 0 0)
  | .waitd h a => some (mk1 h 0x483 0 a 0 0 0)
  | .leafq h d a b sp => some (mk3 h 0x484 d a b 0 (mInt sp false false))
  | .fres h a b => some (mk3 h 0x485 0 a b 0 0)
  | .waitf h d a c => some (mk1 h 0x486 d a 0 c 0)
  | .testf h d a => some (mk1 h 0x487 d a 0 0 0)
  | .cqry h d a b => some (mk3 h 0x488 d a b 0 0)
  | .dstep h d a => some (mk1 h 0x489 d a 0 0 0)
  | .poola h d a c => some (mk1 h 0x48A d a 0 (c.zeroExtend 10) 0)
  | .poolf h a b => some (mk3 h 0x48B 0 a b 0 0)
  | .poolft h a b => some (mk3 h 0x48C 0 a b 0 0)
  | .bestupd h a b c => some (mk3 h 0x48D 0 a b c 0)
  | .dlnset h a => some (mk1 h 0x48E 0 a 0 0 0)
  | .dlnrd h d => some (mk0 h 0x48F (d.zeroExtend 10) 0 0 0 0)
  | .cancel h a => some (mk1 h 0x490 0 a 0 0 0)
  | .movs h sreg a => some (mk1 h 0x500 0 a sreg 0 0)
  | .movsr h (.v d) sreg => some (mk0 h 0x501 d 0 sreg 0 0)
  | .movsr h (.k d) sreg => some (mk0 h 0x501 (d.zeroExtend 10) 0 sreg 0 1)
  | .movsr h (.q d) sreg => some (mk0 h 0x501 (d.zeroExtend 10) 0 sreg 0 2)
  | .movq h d adr => some (mkM h 0x502 (d.zeroExtend 10) adr 0 false)
  | .tret h => some (mk0 h 0x503 0 0 0 0 0)
  | .laneend h => some (mk0 h 0x504 0 0 0 0 0)
  | .pkrd h d a b => some (mk3 h 0x505 d a b 0 0)
  | .pkwr h a b c => some (mk3 h 0x506 0 a b c 0)
  | _ => none

/-- The words of an instruction in E3; a device event has none. -/
def encode (i : Instr) : List DWord :=
  match i.raw with
  | some (r, lits) => r.pack :: lits
  | none => []

/-! ## The legacy encodings (R334 to R337) -/

/-- The immediate forms, as E3 opcodes (R326). -/
def immOpc (o : Nat) : Bool :=
  o == 0x002 || o == 0x004 || o == 0x00F || o == 0x085 || o == 0x09E || o == 0x09F || (0x140 ≤ o && o ≤ 0x148)

/-- The opcodes of the memory form, as E3 opcodes (R388, R430). -/
def memOpc (o : Nat) : Bool := (0x300 ≤ o && o ≤ 0x323) || o == 0x502

/-- The opcodes whose C field holds a number that may be all ones (R386, R387, R401). -/
def numC (o : Nat) : Bool := o == 0x21A || o == 0x21B || o == 0x325

/-- The E3 opcode of an E2 opcode; none where the instruction is missing (R337). -/
def opcE2 (o : Nat) : Option Nat :=
  if o = 0x0A0 then some 0x185
  else if o = 0x185 ∨ o = 0x11F ∨ o = 0x488 ∨ o = 0x489 ∨ o = 0x48C ∨ o = 0x48E ∨ o = 0x48F ∨ o = 0x490
    ∨ o = 0x404 ∨ o = 0x405 ∨ o = 0x505 ∨ o = 0x506 then none
  else some o

/-- The E3 opcode of an E1 opcode; none where the instruction is missing (R337). -/
def opcE1 (o : Nat) : Option Nat :=
  if 0x010 ≤ o ∧ o ≤ 0x015 then some (o + 0x070)
  else if 0x020 ≤ o ∧ o ≤ 0x02F then some (o + 0x070)
  else if (0x080 ≤ o ∧ o ≤ 0x09F) ∨ (0x380 ≤ o ∧ o ≤ 0x389) ∨ (0x480 ≤ o ∧ o ≤ 0x490) ∨ (0x402 ≤ o ∧ o ≤ 0x405)
    ∨ o = 0x325 ∨ o = 0x11F ∨ o = 0x11D ∨ o = 0x185 ∨ o = 0x219 ∨ o = 0x21B ∨ o = 0x378 ∨ o = 0x505 ∨ o = 0x506 then none
  else some o

/-- A register field of n bits: all ones stands for v1023 or the literal (R334). -/
def widen (n f : Nat) : BitVec 10 := if f = 2 ^ n - 1 then 0x3FF else BitVec.ofNat 10 f

/-- The E3 fields of a legacy word, with register fields of n bits and E3 opcode o; none where a reserved bit is set (R334). -/
def unpackLegacy (n o w : Nat) : Option Raw :=
  let dLo := 47 - n
  let aLo := dLo - n
  let bLo := aLo - n
  let cLo := bLo - n
  let mLo := cLo - 7
  let d := bits w (dLo + n - 1) dLo
  let a := bits w (aLo + n - 1) aLo
  let base : Raw :=
    { s := w.testBit 63, opc := BitVec.ofNat 11 o, g := BitVec.ofNat 4 (w >>> 48), gn := w.testBit 47
      d := widen n d, a := widen n a, b := 0, c := 0, m := 0 }
  if immOpc o then
    if bits w (aLo - 1) 27 ≠ 0 then none
    else some { base with b := BitVec.ofNat 10 (w >>> 17), c := BitVec.ofNat 10 (w >>> 7), m := BitVec.ofNat 7 w }
  else if w % 2 ^ mLo ≠ 0 then none
  else
    let c := bits w (cLo + n - 1) cLo
    let c' : BitVec 10 :=
      if memOpc o then BitVec.ofNat 2 (c >>> (n - 2)) ++ BitVec.ofInt 8 (sext c (n - 2))
      else if numC o then BitVec.ofNat 10 c
      else widen n c
    some { base with b := widen n (bits w (bLo + n - 1) bLo), c := c', m := BitVec.ofNat 7 (w >>> mLo) }

/-- The E3 fields of a word in its generation (R334, R337). -/
def unpackEnc (e : Enc) (w : DWord) : Option Raw :=
  match e with
  | .e3 => some (Raw.unpack w)
  | .e2 =>
    match opcE2 (bits w.toNat 62 52) with
    | none => none
    | some o => (unpackLegacy 8 o w.toNat).bind fun r => if o = 0x384 ∧ r.m4 then none else some r
  | .e1 =>
    match opcE1 (bits w.toNat 62 52) with
    | none => none
    | some o => unpackLegacy 7 o w.toNat

/-- The next instruction of a clause's words, and how many words it takes; none is ILLEGAL (R318, R322, R323, R325). -/
def decode (e : Enc) (ws : List DWord) : Option (Instr × Nat) :=
  match ws with
  | [] => none
  | w :: rest =>
    match unpackEnc e w with
    | none => none
    | some r =>
      match parse r (rest.headD 0) with
      | none => none
      | some i =>
        match i.raw with
        | none => none
        | some (r', lits) =>
          if i.wf && r' == r && lits == rest.take lits.length then some (i, 1 + lits.length) else none

/-- The instruction of one opcode-table row's bits, its words laid out from bit 0 up, in E3. -/
def decodeTableWord (nbits w : Nat) : Option Instr :=
  let x := w % 2 ^ nbits
  (decode .e3 [BitVec.ofNat 64 x, BitVec.ofNat 64 (x >>> 64)]).map (·.1)

/-! ## Coherence messages (R68, R69) -/

/-- The opcode of a message header, bits 127:120 (R69). -/
def Msg.op (m : Msg) : Nat := bits m.hdr.toNat 127 120

/-- The event that the arrival of a message is: by its MTYPE, unless it is not listed or its GRAIN is reserved (R68, R69). -/
def Msg.row (m : Msg) : Instr :=
  if bits m.hdr.toNat 113 112 = 3 then .unknownMessage
  else
    match Msg.op m with
    | 0x01 => .rds
    | 0x02 => .rdx
    | 0x04 => .wb
    | 0x05 => .cln
    | 0x06 => .atomMessage
    | 0x07 => .wrh
    | 0x08 => .leave
    | 0x09 => .join
    | 0x10 => .fwds
    | 0x11 => .fwdx
    | 0x12 => .inv
    | 0x13 => .rcl
    | 0x20 => .dats
    | 0x21 => .date
    | 0x22 => .datm
    | 0x23 => .rcld
    | 0x24 => .atomr
    | 0x31 => .invack
    | 0x32 => .fwdack
    | 0x33 => .fwdmiss
    | 0x34 => .wback
    | 0x35 => .retry
    | 0x36 => .poisoned
    | 0x37 => .done
    | _ => .unknownMessage

/-! ## Device registers (R83, R105, R291, R297, R302) -/

/-- The registers of the device space; `gap` is an unassigned offset. -/
inductive Reg where
  | devstat
  | pwrbud
  | pwrshr (n : Nat)
  | pwrlim (n : Nat)
  | mscrub
  | mrep (c : Nat)
  | mlane (c : Nat)
  | slnk (n : Nat)
  | sroute
  | sdom
  | smigc
  | smigs
  | smigd
  | sqbase (n : Nat)
  | sqcfg (n : Nat)
  | sqdb (n : Nat)
  | sqhead (n : Nat)
  | cqbase (n : Nat)
  | cqctl (n : Nat)
  | win (n : Nat)
  | errbase
  | errctl
  | trbase
  | trctl
  | fwmbx
  | ctxcmd
  | ctxst
  | svcpc
  | svctgt
  | svcrel
  | gap
deriving DecidableEq, Repr

/-- The register that holds a byte offset of BAR0 (R83). -/
def regAt (off : Nat) : Reg :=
  let i := off % 0x100000 / 8
  match off / 0x100000 with
  | 0 => if i = 0 then .devstat else .gap
  | 1 => if i = 0 then .pwrbud else if i < 5 then .pwrshr (i - 1) else if i < 37 then .pwrlim (i - 5) else .gap
  | 2 => if i = 0 then .mscrub else if i < 33 then .mrep (i - 1) else if i < 65 then .mlane (i - 33) else .gap
  | 3 =>
    if i < 4 then .slnk i else if i = 4 then .sroute else if i = 5 then .sdom else if i = 6 then .smigc
    else if i = 7 then .smigs else if i = 8 then .smigd else .gap
  | 4 =>
    if 96 ≤ i then .gap
    else
      match i % 6 with
      | 0 => .sqbase (i / 6)
      | 1 => .sqcfg (i / 6)
      | 2 => .sqdb (i / 6)
      | 3 => .sqhead (i / 6)
      | 4 => .cqbase (i / 6)
      | _ => .cqctl (i / 6)
  | 5 => if i < 8 then .win i else .gap
  | 6 => if i = 0 then .errbase else if i = 1 then .errctl else if i = 2 then .trbase else if i = 3 then .trctl else .gap
  | 7 =>
    if i = 0 then .fwmbx else if i = 1 then .ctxcmd else if i = 2 then .ctxst else if i = 3 then .svcpc else if i = 4 then .svctgt
    else if i = 5 then .svcrel else .gap
  | _ => .gap

/-- An access of 4 or 8 bytes, naturally aligned (R83). -/
def Access.ok (a : Access) : Bool := (a.size == 4 || a.size == 8) && a.off % a.size == 0

/-- The bits of the register that an access writes. -/
def Access.mask (a : Access) : Nat := if a.size = 8 then 2 ^ 64 - 1 else if a.off % 8 = 4 then (2 ^ 32 - 1) * 2 ^ 32 else 2 ^ 32 - 1

/-- The value written, each bit in its place in the register, and zero in the bits that are not written. -/
def Access.value (a : Access) : Nat :=
  if a.size = 8 then a.val.toNat else if a.off % 8 = 4 then a.val.toNat % 2 ^ 32 * 2 ^ 32 else a.val.toNat % 2 ^ 32

/-- The event that a register write is (R34, R54, R62, R80, R92, R96, R105, R291, R297, R302). -/
def Access.row (a : Access) : Instr :=
  let x := a.value
  if !a.ok then .registerWrite
  else
    match regAt a.off with
    | .pwrbud => .pwrbudWrite
    | .mrep _ =>
      match bits x 59 56 with
      | 0 => .registerWrite
      | c =>
        if 5 < c ∨ 11 < bits x 34 30 then .mrepInvalidCommand
        else if c = 1 then .softRowRepair else if c = 2 then .hardRowRepair else if c = 3 then .laneRemap
        else if c = 4 then .clearPoison else .retrain
    | .sdom => if bits x 7 6 = 1 then .sdomLeave else if bits x 7 6 = 2 then .sdomJoin else .registerWrite
    | .smigc => if bits x 27 26 = 1 then .migrationStart else if bits x 27 26 = 2 then .migrationRelease else .registerWrite
    | .sqcfg _ => .sqcfgWrite
    | .sqdb _ => .sqDoorbell
    | .cqctl _ => .cqctlWrite
    | .errbase => .errbaseWrite
    | .errctl => .errctlWrite
    | .trbase => .trbaseWrite
    | .trctl => .trctlWrite
    | .fwmbx =>
      match bits x 51 48 with
      | 0 => .registerWrite
      | 1 => .attest
      | 2 => .readIdentityCertificate
      | 3 => .replaceDocent
      | 4 => .replaceDocentAndWriteFlash
      | 5 => .installRecoveryBundle
      | _ => .fwmbxInvalidCommand
    | .ctxcmd =>
      match bits x 63 61 with
      | 0 => .registerWrite
      | 1 => .ctxPreemptSave
      | 2 => .ctxRestore
      | 3 => .ctxEnd
      | 4 => .ctxRelease
      | _ => .ctxcmdInvalid
    | .svcrel => if x.testBit 63 then .svcrelKill else .svcrelResume
    | _ => .registerWrite

/-! ## Graph nodes (R115, R117) -/

/-- Every bit that the node kind does not use is zero (R115). -/
def nodeForm (ws : List DWord) (w0 w1 w2 : Nat) : Bool :=
  (List.range 8).all fun i =>
    let w := (ws.getD i 0).toNat
    decide (w - (w &&& (if i = 0 then w0 else if i = 1 then w1 else if i = 2 then w2 else 0)) = 0)

/-- The event that a node is performed by: its kind when its form is valid, else the invalid node (R115, R117). -/
def nodeRow (ws : List DWord) (graph : Nat) : Instr :=
  let next := 0xFFFF0000
  let alt := 0xFFFF00000000
  let adr := 2 ^ 48 - 1
  let dc := 0xFFF00000000
  let chk (ok : Bool) (i : Instr) : Instr := if ok then i else .nodeInvalid graph
  match bits (ws.getD 0 0).toNat 3 0 with
  | 1 => chk (nodeForm ws (next + 31) adr 0) (.nodeLaunch graph)
  | 2 => chk (nodeForm ws (next + 15) 0 0) (.nodeJoin graph)
  | 3 => chk (nodeForm ws (next + alt + 15) adr 0) (.nodeCond graph)
  | 4 => chk (nodeForm ws (next + alt + 15) adr 0xFFFFFFFF) (.nodeWhile graph)
  | 5 => chk (nodeForm ws (alt + 15) 0 0) (.nodeEndw graph)
  | 6 => chk (nodeForm ws (next + 15) adr 0xFFFFFFFF) (.nodeStore graph)
  | 7 => chk (nodeForm ws (next + 15) 0 dc) (.nodeDecr graph)
  | 8 => chk (nodeForm ws (next + 15) 0 dc) (.nodeWaitd graph)
  | 9 => chk (nodeForm ws 15 0 0) (.nodeEnd graph)
  | _ => .nodeInvalid graph

end Sys2Proof
end

