-- ==== Sys2Proof/Machine/State.lean ====
section
/-! DEFINITION. The state of the device as plain data, and its value after reset. -/
namespace Sys2Proof.Machine

/-- Why the machine stops. -/
inductive Fault where
  /-- Raised by step when no event is due while the device is held in reset or shut down (R29 to R31): a stuck state, safe. -/
  | heldInReset
deriving DecidableEq, Repr

/-- Why an instruction has no meaning. -/
inductive Refusal where
  /-- Raised by exec for an instruction without a meaning yet: safe. -/
  | notModelled (mnemonic : String)
deriving DecidableEq, Repr

/-- What a lane is doing (R185, R287, R295, R349, R351, R404, R410). -/
inductive LaneSt where
  | eligible
  /-- Parked at JWAIT on a rejoin mask (R188). -/
  | joinPark (j : JReg)
  /-- Parked at BAR (R349). -/
  | barPark (b : BarReg)
  /-- Parked at ABAR (R351). -/
  | abarPark (b : BarReg)
  /-- Parked at WAITF with its handle and destinations (R423). -/
  | futPark (handle : Word) (d c : VReg)
  /-- Parked at the ACCRD at pc with its operands; n numbers the issue among those of the group that wait (R180, R410). -/
  | accPark (d : VReg) (f : FrameReg) (e : Word) (w4 : Bool) (pc : DWord) (n : Nat)
  /-- Held before an instruction that needs the trapped lanes (R287). -/
  | held
  | finished
  | killed
  | trapped
  /-- In a service park (R302). -/
  | service
deriving DecidableEq, Repr

/-- One lane of a group: LPC, its state, yield bit and stamp, the trap registers and the return stack (R185, R186, R190, R286). -/
structure Lane where
  lpc     : DWord
  st      : LaneSt
  yld     : Bool
  stamp   : Nat
  tcause  : Word
  taddr   : DWord
  tpc     : DWord
  tnpc    : DWord
  spdepth : Nat
  /-- The hardware return stack, the newest entry first, at most 8 (R190). -/
  stack   : List DWord
  /-- The lane runs the handler (R289). -/
  handler : Bool
  /-- TRET has marked the lane (R436). -/
  marked  : Bool
  /-- The instruction at which the lane parks raises STEP when it has completed (R304). -/
  stepDue : Bool
  /-- When LPC is a word inside a clause: the clause's header and its count of words (R185). -/
  inside  : Option (DWord × Nat)
  /-- The clause of the trapped instruction, its header and count of words, for the retry of R290. -/
  tclause : DWord × Nat
deriving DecidableEq, Repr

/-- A lane at group start (R102). -/
def Lane.start (entry : DWord) : Lane :=
  { lpc := entry, st := .eligible, yld := false, stamp := 0, tcause := 0, taddr := 0, tpc := 0, tnpc := 0
    spdepth := 0, stack := [], handler := false, marked := false, stepDue := false
    inside := none, tclause := (0, 0) }

/-- What a group waits for at the instruction in issue (R404). -/
inductive Wait where
  /-- A memory transaction or a fence: the instruction may be tried again at any time, and the clause goes on within itself (R144). -/
  | retry
  /-- An engine's work: QFENCE, a frame with a pending operation, a full queue counter (R180, R228, R258; assumption 64). -/
  | engine
  /-- WAITD on a counter (R421). -/
  | waitd (n : Nat)
  /-- A WAITD whose counter has become zero: it completes when it issues again (R154). -/
  | woken
  /-- A ring acquire (R141). -/
  | ring
  /-- REGACQ, in the quadrant's queue (R178). -/
  | regacq
  /-- SPAWN (R419). -/
  | spawn
  /-- ENQ (R420). -/
  | enq
  /-- LEAFQ (R422). -/
  | leafq
  /-- CQRY or DSTEP (R424). -/
  | spatial
deriving DecidableEq, Repr

/-- The clause in issue: where its header lies, the word being issued, the words fetched at its start (R318), CLASS and the
executing lanes X (R185), and the wait it stands in. -/
structure Issue where
  on    : Bool
  hdr   : DWord
  pc    : DWord
  words : List DWord
  cls   : Nat
  x     : BitVec 128
  wait  : Option Wait
  /-- For a post or push that waits: the lanes still to act (R404). -/
  todo  : Option (BitVec 128)
deriving DecidableEq, Repr

def Issue.none : Issue :=
  { on := false, hdr := 0, pc := 0, words := [], cls := 0, x := 0, wait := .none, todo := .none }

/-- The role of a group's stage (R139, R140). -/
inductive Role where
  | general | copy | matrix | vector
deriving DecidableEq, Repr

/-- A group (R175, R295). Registers are sparse: v at 128 * register + lane, p at 128 * register + lane. -/
structure Group where
  task    : Nat
  block   : Nat
  index   : Nat
  ctx     : Word
  core    : Nat
  slot    : Nat
  width   : Nat
  role    : Role
  enc     : Enc
  det     : Bool
  regext  : Nat
  scratch : Nat
  v       : Store Word
  k       : Store Word
  /-- The bank of k48 to k62 not in use: the shadow bank outside the handler, the program's inside it (R289). -/
  kshadow : Store Word
  p       : Store Bool
  j       : Store (BitVec 128)
  arrived : Store (BitVec 128)
  sh      : Store (BitVec 128)
  q       : Store DWord
  fpctl   : Word
  stk     : DWord
  dbg     : Word
  grant   : Nat
  handler : Bool
  /-- A CANCEL event is pending (R171). -/
  cancel  : Bool
  /-- Handler mode ended with a CANCEL event pending, which is now delivered (R290). -/
  owed    : Bool := false
  /-- Stopped without an installed handler (R288). -/
  stopped : Bool
  /-- Commands not yet complete on queues 0 to 7 (R180, R305). -/
  async   : List Nat
  /-- Yield stamps handed out (R186). -/
  stamps  : Nat
  /-- Passed over for one choice after YIELD in a DET launch (R147). -/
  passed  : Bool
  /-- The cycle from which the group has been ready without issuing (R144). -/
  ready   : Option Nat
  lanes   : List Lane
  iss     : Issue
deriving DecidableEq, Repr

/-- The group in issue when no clause is issuing. -/
def Group.idle : Group :=
  { task := 0, block := 0, index := 0, ctx := 0, core := 0, slot := 0, width := 16, role := .general, enc := .e3
    det := false, regext := 0, scratch := 0, v := [], k := [], kshadow := [], p := [], j := [], arrived := []
    sh := [], q := [], fpctl := 0, stk := 0, dbg := 0, grant := 0, handler := false, cancel := false
    stopped := false, async := [0, 0, 0, 0, 0, 0, 0, 0], stamps := 0, passed := false, ready := none, lanes := [], iss := .none }

/-- Where a card came from (R104). -/
inductive CardSrc where
  | ring (n : Nat)
  | graph (g node : Nat)
  | post (core : Nat) (pc : DWord)
  | gather (q buf gen : Nat) (handles : List Word)
deriving DecidableEq, Repr

/-- A card in the task queue and the launch it becomes (R99 to R103, R149): its eight words, its source and segment, whether
WAITC holds it, and of the launch the kernel header, the blocks handed out and retired, and its flags. -/
structure Task where
  id       : Nat
  words    : List DWord
  src      : CardSrc
  seg      : Nat
  held     : Bool
  hdr      : List DWord
  launched : Bool
  handed   : Nat
  retired  : Nat
  /-- Blocks retired without cancellation (R113, DONE). -/
  done     : Nat
  /-- The undispatched blocks are dropped (R169). -/
  dropped  : Bool
  canc     : Bool
  ended    : Bool
  /-- The output regions in order of base and length (R311). -/
  outs     : List (Nat × Nat)
  /-- Blocks of a DET launch committed so far (R310). -/
  commits  : Nat
deriving DecidableEq, Repr

/-- The state of a ring slot; a holder is a group's index in its block (R141). -/
inductive RingSlot where
  | free
  | reserved (g : Nat)
  | full
  | taken (g : Nat)
deriving DecidableEq, Repr

/-- A stage ring (R141): depth, stages, the heads with their phases, the slots and the groups waiting at each head in order
of arrival. -/
structure Ring where
  depth  : Nat
  prod   : Nat
  cons   : Nat
  phead  : Nat
  pphase : Bool
  chead  : Nat
  cphase : Bool
  slots  : List RingSlot
  pwait  : List Nat
  cwait  : List Nat
deriving DecidableEq, Repr

/-- A resident block (R135, R141, R201). -/
structure Block where
  task    : Nat
  idx     : Nat
  core    : Nat
  rank    : Nat
  ctx     : Word
  base    : Nat
  scratch : Nat
  ngroups : Nat
  /-- The group slots that the block's groups hold (R134). -/
  slots   : List Nat
  rings   : List Ring
  issued  : List Nat
  done    : List Nat
  /-- A group of the block took a CANCEL event or was dropped (R171). -/
  canc    : Bool
  /-- The block has retired and waits for its commit (R310). -/
  retired : Bool
deriving DecidableEq, Repr

/-- A sector of a first-level cache: its data, the mask of dirty bytes, the mask of valid bytes, the cycle at which it became
dirty, the step at which it was last filled from L2 (assumption 67), the grain size of the page through which it entered, and the context that last wrote it (R45, R66, R195, R196). -/
structure L1Sec where
  data  : List Byte
  dirty : Nat
  valid : Nat
  since : Nat
  filled : Nat := 0
  gr    : Nat
  ctx   : Option Word
deriving DecidableEq, Repr

/-- The local state of a remote grain in L2 (R65). -/
inductive RSt where
  | home | s | e | m | o
deriving DecidableEq, Repr

/-- A sector in an L2 slice: data, the coherence byte of a home sector, whether it is dirty, and a remote grain's state (R65, R198). -/
structure L2Sec where
  data  : List Byte
  coh   : Byte
  dirty : Bool
  rst   : RSt
  /-- The size of the grain that holds it (R66). -/
  gr    : Nat := 32
deriving DecidableEq, Repr

/-- State of a weight-buffer slot (R256). -/
inductive WSt where
  | empty | filling | ready
deriving DecidableEq, Repr

/-- A fill's share of a weight-buffer slot: its source, the bytes from the slot's base that it has delivered, its channel, and its mode. -/
structure WFill where
  src  : Nat
  len  : Nat
  ch   : Nat
  priv : Bool
deriving DecidableEq, Repr

/-- A weight-buffer slot: state, owner (task, first block of the cohort or the block), source and length of its fill, and the
channel (R256, R268). -/
structure WSlot where
  st    : WSt
  task  : Nat
  owner : Nat
  src   : Nat
  len   : Nat
  ch    : Nat
  /-- The fill was issued in privileged mode (R206). -/
  priv  : Bool
  /-- The fills whose bytes the slot holds, the newest first, each longer than those before it: what a refill delivers again (R47, R268,
  R269; assumption 70). -/
  layers : List WFill := []
deriving DecidableEq, Repr

def WSlot.reset : WSlot := { st := .empty, task := 0, owner := 0, src := 0, len := 0, ch := 0, priv := false }

/-- An accumulator frame's status: the owning block (task, index), the watermark, TYPE (true S32), NANF, SATF, and the first row
frozen by a produced NaN (R258 to R260, R267). -/
structure Frame where
  owner  : Option (Nat × Nat)
  wm     : Nat
  s32    : Bool
  nanf   : Bool
  satf   : Bool
  frozen : Nat
deriving DecidableEq, Repr

def Frame.reset : Frame := { owner := none, wm := 32, s32 := false, nanf := false, satf := false, frozen := 0 }

/-- A matrix operation (R261, R268, R409): its issuing group and block, the snapshot of its operands, its next K-step and the
first produced NaN (row, K-step). -/
structure MOp where
  id     : Nat
  task   : Nat
  block  : Nat
  gi     : Nat
  ctx    : Word
  frame  : Nat
  sh     : BitVec 128
  aoff   : Nat
  slot   : Nat
  den    : Bool
  drn    : Nat
  pk     : List Word
  twin   : Bool
  /-- The follower's half of a twin operation (R262). -/
  half   : Bool
  z      : Bool
  ftz    : Bool
  nant   : Bool
  dv     : Bool
  dc     : Nat
  next   : Nat
  nan    : Option (Nat × Nat)
  pc     : DWord
deriving DecidableEq, Repr

/-- Why a drain is set aside (R266, R267): the cause with the address, or a NaN produced at an element by a K-step, the last of which
stands for the drain. -/
inductive DrainStop where
  | fault (cause : Nat) (addr : Nat)
  | nan (elem kstep : Nat)
deriving DecidableEq, Repr

/-- The drain of an operation and its restart state (R264, R266). -/
structure Drain where
  op     : MOp
  elem   : Nat
  mi     : Nat
  t      : List Word
  amax   : Option (Word × Nat)
  nanchk : Option Nat
  stop   : Option DrainStop
  /-- The NaN of the operation has been reported (R267). -/
  told   : Bool
deriving DecidableEq, Repr

/-- A drain-memory slot: its tag, the blocks that loaded it, and its 16 micro-instructions (R263). -/
structure DSlot where
  asn    : Nat
  khdr   : Nat
  n      : Nat
  users  : List (Nat × Nat)
  words  : List Word
deriving DecidableEq, Repr

/-- A command of a copy channel (R199 to R202): its block and group, its operands, the bytes delivered, and why it stopped. -/
structure CopyCmd where
  task   : Nat
  block  : Nat
  gi     : Nat
  ctx    : Word
  skind  : Nat
  srank  : Nat
  saddr  : Nat
  dkind  : Nat
  drank  : Nat
  daddr  : Nat
  len    : Nat
  rows   : Nat
  sstr   : Nat
  dstr   : Nat
  dc     : Option Nat
  ticket : Nat
  pos    : Nat
  chunk  : Nat
  stop   : Option (Nat × Nat × Nat)
  /-- The matrix operations issued earlier that must read the slots before the fill (R256). -/
  after  : Nat
  pc     : DWord
  /-- Issued in privileged mode (R206). -/
  priv   : Bool
  /-- A refill at a restore, which delivers to no block's DONE (R268). -/
  refill : Bool
deriving DecidableEq, Repr

/-- The state of a future (R159, R160). -/
inductive FutSt where
  | free | pending | ready | cancelled | faulted
deriving DecidableEq, Repr

/-- An entry of a future table (R159). -/
structure Fut where
  st    : FutSt
  value : DWord
  task  : Nat
  block : Nat
  gi    : Nat
  ctx   : Word
  qctx  : Option Word
  tag   : Half
  canc  : Bool
  gen   : Nat
deriving DecidableEq, Repr

def Fut.reset : Fut :=
  { st := .free, value := 0, task := 0, block := 0, gi := 0, ctx := 0, qctx := none, tag := 0, canc := false, gen := 0 }

/-- A command of an atoll's spatial engine (R270, R283): a query or a step, the bodies done, and a step's working state. -/
structure SpCmd where
  step   : Bool
  rec_   : DWord
  oct    : DWord
  handle : Word
  task   : Nat
  block  : Nat
  gi     : Nat
  ctx    : Word
  tag    : Half
  canc   : Bool
  body   : Nat
  work   : List Word
  pc     : DWord
  /-- Issued in privileged mode (R270). -/
  priv   : Bool
  /-- A cancellation has ended its future, which may have been freed since (R282). -/
  isOver : Bool := false
deriving DecidableEq, Repr

/-- A core (R13). -/
structure Core where
  ecfg   : List Word
  ecnt   : List DWord
  icache : Store DWord
  wslots : Store WSlot
  wbytes : List Host.Cell
  frames : Store Frame
  fbits  : Store Word
  mq     : List MOp
  drain  : Option Drain
  aside  : List Drain
  dslots : List DSlot
  chans  : List (List CopyCmd)
  futs   : Store Fut
  /-- The near slice taken from last, 0 or 1 (R137). -/
  near   : Nat
  fails  : Store Nat
  reserve : Option Nat
  watch  : Nat
  /-- The slot of each quadrant that issued last (R144). -/
  rr     : List Nat
  /-- Waiting REGACQ requests: quadrant, task, block, group, operand, in order of arrival (R178). -/
  regq   : List (Nat × Nat × Nat × Nat × Nat)
  /-- Nothing fitted: the core waits for a signal (R137). -/
  idle   : Bool
  /-- The running group of each DET launch: task, block, group (R147). -/
  detRun : List (Nat × Nat × Nat)
deriving DecidableEq, Repr

def Core.reset : Core :=
  { ecfg := [0, 0, 0, 0, 0, 0, 0, 0], ecnt := [0, 0, 0, 0, 0, 0, 0, 0], icache := [], wslots := [], wbytes := []
    frames := [], fbits := [], mq := [], drain := none, aside := [], dslots := [], chans := [[], [], [], []], futs := []
    near := 1, fails := [], reserve := none, watch := 0, rr := [15, 15, 15, 15], regq := []
    idle := false, detRun := [] }

/-- Whether a context runs (R294, R298). -/
inductive RunSt where
  | running | stopping | stopped | saved | ended
deriving DecidableEq, Repr

/-- What befalls a context while it is saved, in order: the cancel set of a deadline that expires, or the end of the futures of a tile,
CANCELLED where a cancel set has them and otherwise in a state with a value (R155, R158, R167, R169). -/
inductive Late where
  | expiry (set : Word)
  | futures (handles : List Word) (st : FutSt) (value : Nat) (set : Option Word)
deriving DecidableEq, Repr

/-- A context's system registers and state (R167, R203, R288, R308, R431). -/
structure Ctx where
  atb    : DWord
  tbase  : DWord
  dln    : DWord
  dlnact : Word
  bpb    : DWord
  detc   : DWord
  detce  : List DWord
  /-- The best-plan slots are frozen and new objects of the cancel set are refused (R166, R170). -/
  frozen : Bool
  run    : RunSt
  /-- What befell the context while it was saved (R158, R167, R169). -/
  late   : List Late
  /-- An expiry whose steps are not yet complete (R169). -/
  expiring : Bool
deriving DecidableEq, Repr

def Ctx.reset : Ctx :=
  { atb := 0, tbase := 0, dln := 0, dlnact := 0, bpb := 0, detc := 0, detce := [0, 0, 0, 0, 0, 0, 0, 0, 0, 0]
    frozen := false, run := .running, late := [], expiring := false }

/-- A dependence counter (R152). -/
structure Counter where
  value : Nat
  owner : Option Word
  under : Bool
deriving DecidableEq, Repr

def Counter.reset : Counter := { value := 0, owner := none, under := false }

/-- A row of an open gathering tile, and whether a DET launch pushed it (R156, R308). -/
structure GRow where
  bytes  : List Byte
  handle : Word
  tag    : Half
  canc   : Bool
  det    : Bool
deriving DecidableEq, Repr

/-- A tile that leaves the queue: the descriptor and the binding it was filled under, its buffer, its rows, its number and
whether a timer posted it (R157). -/
structure GTile where
  desc    : List DWord
  gen     : Nat
  buf     : Nat
  rows    : List GRow
  seq     : Nat
  flushed : Bool
  /-- Its card, once its record is written and its template read; it then waits for an entry only (R149, R157). -/
  card    : Option (List DWord) := none
deriving DecidableEq, Repr

/-- A gathering queue: its register, its descriptor's words, the rows and the buffer of the open tile, the tiles whose record or
card is not yet posted, the buffers of posted tiles, the next tile number, when the first row
entered the open tile, and the count of bindings (R155 to R158). -/
structure GQueue where
  reg    : DWord
  bound  : Bool
  desc   : List DWord
  rows   : List GRow
  cur    : Option Nat
  posts  : List GTile
  bufs   : List Nat
  seq    : Nat
  first  : Nat
  gen    : Nat
deriving DecidableEq, Repr

def GQueue.reset : GQueue :=
  { reg := 0, bound := false, desc := [0, 0, 0, 0], rows := [], cur := none, posts := [], bufs := [], seq := 0, first := 0
    gen := 0 }

/-- An accession pool: its register, its descriptor's words, the head of the free list and the counter of ignored POOLFs (R163, R164). -/
structure Pool where
  reg   : DWord
  bound : Bool
  desc  : List DWord
  head  : Nat
  dfree : Nat
deriving DecidableEq, Repr

def Pool.reset : Pool := { reg := 0, bound := false, desc := [0, 0, 0, 0], head := 0xFFFFF, dfree := 0 }

/-- A graph being walked (R115 to R118): the current node, the loop counts of the active WHILEs with the innermost first, the
outstanding ASYNC launches (task, node), the launch awaited with the node that follows it, the status of a refused card, with which
the graph ends at once, and whether a block or launch was cancelled. -/
structure Graph where
  id     : Nat
  ring   : Nat
  ctx    : Word
  asn    : Half
  va     : DWord
  count  : Nat
  node   : Nat
  user   : DWord
  loops  : List (Nat × Nat)
  out    : List (Nat × Nat)
  await  : Option (Nat × Nat)
  ending : Option Nat
  /-- The STATUS, 1 or 2, with which the graph ends once its launches have completed, or 0 (R117, R298). -/
  worst  : Nat
  canc   : Bool
deriving DecidableEq, Repr

/-- A submission ring and its completion ring (R105, R106, R113). -/
structure SQ where
  sqbase : DWord
  en     : Bool
  asn    : Half
  ctx    : Word
  err    : BitVec 2
  tail   : Nat
  head   : Nat
  cqbase : DWord
  ie     : Bool
  widx   : Nat
  ridx   : Nat
  phase  : Bool
  held   : List (List DWord)
  /-- A record's write has faulted since the ring was last enabled (R113). -/
  faulted : Bool := false
deriving DecidableEq, Repr

def SQ.reset : SQ :=
  { sqbase := 0, en := false, asn := 0, ctx := 0, err := 0, tail := 0, head := 0, cqbase := 0, ie := false, widx := 0
    ridx := 0, phase := true, held := [] }

/-- The sources of the trap ring (R292, R293). -/
inductive TrapSrc where
  | group (task block gi : Nat)
  | service (task block gi : Nat) (pc : DWord)
  | copy (core ch task block : Nat)
  | drain (core : Nat) (task block frame : Nat)
  | watchdog (core : Nat)
  | post (core : Nat)
  | cancelLog (core slot : Nat)
  | digest (core : Nat)
deriving DecidableEq, Repr

/-- The fields of a trap-ring entry but for SEQ, P and CRC (R292). -/
structure TrapEntry where
  cause : Nat
  sub   : Nat
  src   : Nat
  nest  : Bool
  slot  : Nat
  ctx   : Word
  core  : Nat
  info  : Nat
  asn   : Nat
  pc    : DWord
  addr  : DWord
  mask  : BitVec 128
  detail : DWord
deriving DecidableEq, Repr

/-- The trap ring (R291, R293): the registers, the entries due and the entries pending since the ring was full or disabled. -/
structure TrapRing where
  host  : Bool
  base  : DWord
  en    : Bool
  ie    : Bool
  ovf   : Bool
  size  : Nat
  widx  : Nat
  ridx  : Nat
  seq   : Nat
  phase : Bool
  due   : List (TrapSrc × TrapEntry)
  pend  : List (TrapSrc × TrapEntry)
deriving DecidableEq, Repr

def TrapRing.reset : TrapRing :=
  { host := false, base := 0, en := false, ie := false, ovf := false, size := 0, widx := 0, ridx := 0, seq := 0
    phase := true, due := [], pend := [] }

/-- The fields of an error record but for SEQ, DEV, P and CRC (R95, R98); `va` is the address-space number and the virtual address, when
VAV is 1 (assumption 13). -/
structure ErrRec where
  cause  : Nat
  sub    : Nat
  engine : Nat
  inst   : Nat
  repair : Nat
  ctx    : Option Word
  dpa    : Option Nat
  count  : Nat
  info0  : DWord
  info1  : DWord
  time   : DWord
  va     : Option (Nat × Nat) := none
deriving DecidableEq, Repr

/-- The error ring (R95 to R97) and its queue of at most 64 records. -/
structure ErrRing where
  host  : Bool
  base  : DWord
  en    : Bool
  ie    : Bool
  ovf   : Bool
  size  : Nat
  lost  : Nat
  widx  : Nat
  ridx  : Nat
  seq   : Nat
  phase : Bool
  queue : List ErrRec
deriving DecidableEq, Repr

def ErrRing.reset : ErrRing :=
  { host := false, base := 0, en := false, ie := false, ovf := false, size := 0, lost := 0, widx := 0, ridx := 0, seq := 0
    phase := true, queue := [] }

/-- A Strait link (R55 to R59). -/
structure Link where
  up      : Bool
  width   : BitVec 2
  rate    : Bool
  peer    : BitVec 3
  plink   : BitVec 2
  retrain : Byte
  replay  : Byte
  /-- The replay buffer, oldest first: sequence number and flit. -/
  buf     : List (Nat × List Byte)
  next    : Nat
  expect  : Nat
  /-- Failures in a row of the expected flit (R57). -/
  bad     : Nat
  /-- Times of the retrains within the last second (R57). -/
  times   : List Nat
  credits : List Nat
  /-- Message bytes received that do not yet make a whole message. -/
  stream  : List Byte
  /-- Messages that wait to leave, by virtual channel: those of this device in queues 0 to 3, those relayed in 4 to 7 (R55, R58, R61). -/
  queues  : List (List Msg)
  /-- Credits to be returned for what was received, by virtual channel (R56, R58). -/
  owed    : List Nat
deriving DecidableEq, Repr

def Link.reset : Link :=
  { up := false, width := 0, rate := false, peer := 0, plink := 0, retrain := 0, replay := 0, buf := [], next := 0, expect := 0
    bad := 0, times := [], credits := [256, 256, 256, 256], stream := [], queues := List.replicate 8 [], owed := [0, 0, 0, 0] }

/-- Who a home transaction serves (R70, R71, R78). -/
inductive Requester where
  | remote (m : Msg)
  | own (write : Bool)
  | migrate
deriving DecidableEq, Repr

/-- A transaction open at a home slice (R64): the grain's first sector as DPA / 32, its bytes, the requester, the transaction
identifier, the devices whose acknowledgement is awaited, the owner whose answer is awaited, whether its data are awaited too,
and the fields of the coherence byte to write at the end. -/
structure HomeTx where
  grain  : Nat
  gsize  : Nat
  req    : Requester
  txid   : Nat
  acks   : Byte
  owner  : Option Nat
  data   : Bool
  own    : Nat
  rsh    : Bool
  /-- The owner's answer said that its copy was dirty. -/
  dirty  : Bool
  /-- When the transaction began, on the reference counter (R76). -/
  since  : Nat
  /-- The owner cannot supply the grain, which becomes POISON when the transaction ends (R72, R76). -/
  bad    : Bool
deriving DecidableEq, Repr

/-- A request outstanding at a remote home, or a grain in the write-back buffer (R64, R70, R72): what was sent, the tag of the
requester, the RETRYs met, the ticket, whether a resend is due, and whether data and DONE have come. -/
structure OutReq where
  txid    : Nat
  grain   : Nat
  gsize   : Nat
  mtype   : Nat
  data    : List Byte
  tag     : List Nat
  retries : Nat
  ticket  : Nat
  waiting : Bool
  gotData : Option (List Byte)
  gotDone : Bool
  /-- A write-back's copy may still serve a forward (R72). -/
  live    : Bool
  since   : Nat
  /-- The data differ from the home's: a write-back's copy, the data of an RDX that an owner supplied, a poisoned WRH (R70, R78). -/
  dirty   : Bool := false
  /-- The grain that the answer to an RDX named (R79). -/
  into    : Nat := 0
  /-- A WB that announces an uncorrectable error in the owner's copy, or a WRH of a poisoned grain: sent with DIRTY (R73, R78). -/
  bad     : Bool := false
deriving DecidableEq, Repr

/-- What a request ended with that is not kept in L2: the old value of an ATOM of the requester with this tag, or nothing
when it was poisoned (R68, R70, R73). -/
structure RemoteDone where
  tag    : List Nat
  grain  : Nat
  value  : Option DWord
deriving DecidableEq, Repr

/-- The tickets of a home slice (R64): RETRYs given by requester and transaction, the last ticket number, and the tickets
outstanding with their devices, in order. -/
structure Tickets where
  given : List (Nat × Nat × Nat)
  last  : Nat
  held  : List (Nat × Nat)
deriving DecidableEq, Repr

def Tickets.reset : Tickets := { given := [], last := 0, held := [] }

/-- The coherence logic (R60 to R80). -/
structure Coh where
  sroute  : Word
  en      : Bool
  devid   : BitVec 3
  present : Byte
  lost    : Byte
  mst     : BitVec 2
  txs     : List HomeTx
  /-- The pending tables of the slices, in order of arrival (R64). -/
  waiting : List Msg
  outs    : List OutReq
  answers : List RemoteDone
  /-- Data that owners sent to this home for its waiting reads, by grain, with the step that used them first (R71). -/
  served  : List (Nat × List Byte × Option Nat)
  /-- Grains whose requests a redirected home answered, with the grain that answered and the step that used the answer first (R79). -/
  moved   : List (Nat × Nat × Option Nat)
  nextTx  : Nat
  slices  : Store Tickets
  /-- Homes whose DONE is awaited while leaving or joining (R74, R77). -/
  awaiting : Byte
  /-- The transaction identifiers of the LEAVE or JOIN sent to each home (R68). -/
  memberTx : List (Nat × Nat)
  smigBusy : Bool
  smigSt  : BitVec 3
  smigSize : BitVec 2
  smigs   : DWord
  smigd   : DWord
  /-- A migration or its redirection is active, with the first sectors of the two pages and the bytes of a page (R78, R79). -/
  migOn   : Bool
  migFrom : Nat
  migTo   : Nat
  migPage : Nat
  /-- The grain size of the migration, the grains recalled and the grains copied, and whether one was poisoned (R78). -/
  migSize : Nat
  migRecalled : Nat
  migCopied : Nat
  migBad  : Bool
deriving DecidableEq, Repr

/-- The corrected errors of a memory row: in this scrub pass, and since its last record, with that record's time (R50). -/
structure RowCe where
  row     : Nat
  pass    : Nat
  pending : Nat
  last    : Option Nat
deriving DecidableEq, Repr

/-- A channel's repair and lane registers (R54) with the rows repaired and the corrected errors counted (R50, R52). -/
structure MChan where
  busy   : Bool
  status : BitVec 3
  cmd    : BitVec 4
  sub    : Bool
  lane   : BitVec 5
  line   : BitVec 26
  arem   : Bool
  alane  : BitVec 5
  brem   : Bool
  blane  : BitVec 5
  ce     : Half
  /-- The memory rows soft-repaired since power-on, and those hard-repaired (R52). -/
  soft   : List Nat
  hard   : List Nat
  /-- Sectors scrubbed since reset (R49). -/
  scrub  : Nat
  rows   : List RowCe
  /-- Corrected errors since the last retrain, by 12 * sub-channel + lane. -/
  laneCe : Store Nat
deriving DecidableEq, Repr

def MChan.reset : MChan :=
  { busy := false, status := 0, cmd := 0, sub := false, lane := 0, line := 0, arem := false, alane := 0, brem := false
    blane := 0, ce := 0, soft := [], hard := [], scrub := 0, rows := [], laneCe := [] }

/-- Board inputs, power registers and sensors (R28 to R34). -/
structure Power where
  /-- The five power-good inputs, in the order of R28. -/
  rails   : List Bool
  inReset : Bool
  railFault : Bool
  thermal : Bool
  alert   : Bool
  /-- The readings of the sixteen junction sensors, in whole degrees (R31). -/
  sensors : List Int
  /-- PERST# has deasserted, and the port answers configuration requests (R81). -/
  port    : Bool
  lock    : Bool
  eff     : BitVec 9
  clamp   : Bool
  budget  : BitVec 9
  shares  : List Word
  lims    : Store Word
  /-- Grants of the current window above the floors, in milliwatts: core c at c, spatial engine e at 64 + e, channel h of core c
  at 128 + 4 * c + h (R32). -/
  grant   : Store Rat
deriving DecidableEq, Repr

/-- The highest junction reading, T (R31). -/
def Power.temp (p : Power) : Int := p.sensors.foldl max (p.sensors.headD 0)

/-- The parts (R12, R20). -/
inductive Part where
  | nk960 | nk940
deriving DecidableEq, Repr

/-- The configuration record's values (R22, R36, R60). -/
structure CfgRec where
  part    : Part
  stepg   : Nat
  devid   : BitVec 3
  present : Byte
  budget  : BitVec 9
  gib     : Nat
  /-- log2 of the size of BAR 4 in GiB, 0 to 6 (R82). -/
  bar     : Nat
  scrub   : Word
  sroute  : Word
deriving DecidableEq, Repr

/-- Flash and firmware (R22, R84, R88 to R94). -/
structure Firm where
  /-- Slots A and B of the configuration record, of Curator and of Docent, and the active mark of each kind. -/
  record  : List (List Byte)
  curator : List (List Byte)
  docent  : List (List Byte)
  active  : List Nat
  helper  : List Byte
  /-- The repair area: rows soft-repaired, by channel, and lanes remapped, by channel and sub-channel (R51, R52). -/
  repairs : List (Nat × Nat)
  remaps  : List (Nat × Bool × Nat)
  boot    : BitVec 4
  ready   : Bool
  idok    : Bool
  deny    : Bool
  lsrst   : Half
  /-- The key register: the private key of the device's identity (R89). -/
  key     : Option (List Byte)
  busy    : Bool
  status  : BitVec 4
  cmd     : Byte
  mbaddr  : BitVec 36
  mbhost  : Bool
  docRun  : Bool
  docQuiesce : Bool
  docStart : Bool
  handover : Bool
  forced  : Bool
  /-- The configuration record, the Curator image and the Docent image in use, and the Docent image that replaces it. -/
  running : List (List Byte)
  incoming : List Byte
deriving DecidableEq, Repr

/-- A DET line: the grain size of its page, its owner block, whether a second block has accessed it, the readers, and the bytes each block has buffered
(R309, R310). -/
structure DetLine where
  gr      : Nat
  owner   : Nat
  shared  : Bool
  readers : List Nat
  bufs    : List (Nat × BitVec 128 × List Byte)
deriving DecidableEq, Repr

/-- A page-table entry that a TLB or a walker may hold: the address space, its level, the virtual address from that level's
shift up, and the entry; of a 64 KiB leaf the entry with OA[15:12] zero, for its 16 pages (R204, R207). -/
structure TlbE where
  asn  : Nat
  lvl  : Nat
  page : Nat
  e    : Nat
deriving DecidableEq, Repr

/-- The command of the collector in progress (R294, R298). -/
structure Collect where
  ctx  : Word
  cmd  : BitVec 3
  area : DWord
  acks : List Engine
deriving DecidableEq, Repr

/-- Context-command registers (R297, R302). -/
structure CtxRegs where
  area   : DWord
  ctx    : Word
  busy   : Bool
  status : BitVec 3
  aflt   : Bool
  need   : Half
  alen   : Half
  svcpc  : DWord
  svctgt : DWord
  col    : Option Collect
deriving DecidableEq, Repr

/-- What a saved or released context has beside the fields that R295 lists: its registers, the blocks and groups of its KIND 2 and KIND 3
sections in their order, its retired blocks that wait for a commit, and the cards of its KIND 9 sections. A restore takes from here what
its area does not say; the model's own field (assumption 12). -/
structure Kept where
  owner  : Word
  ctx    : Ctx
  blocks : List Block
  groups : List Group
  done   : List Block
  cards  : List Task
deriving DecidableEq, Repr

/-- What the device has sent to the outside, oldest first: a message when it is handed to its link, the flits that carry it when they
leave (assumption 3). -/
inductive Sent where
  | msg (m : Msg)
  | msix (v : Nat)
  | readCompletion (data : List Byte) (ep : Bool)
  | unsupported
  /-- A replay request naming a sequence number, and flits sent again (R57). -/
  | replay (link seq : Nat)
  | resend (link : Nat) (flits : List (List Byte))
  /-- A flit leaves on a link (R56). -/
  | flit (link : Nat) (bytes : List Byte)
deriving DecidableEq, Repr

/-- A flipped pair of bits, or a hop that keeps failing, that a check of R47 detects (assumption 69). -/
inductive Upset where
  /-- In a sector of L2, by DPA / 32. -/
  | l2 (k : Nat)
  /-- In a sector of a first-level cache, by its key. -/
  | l1 (key : Nat)
  /-- In a weight-buffer slot of a core. -/
  | weight (core slot : Nat)
  /-- Met by lanes of the group in a slot of a core: in their registers (0), the scratchpad (1), the accumulator store (2), stores of
  theirs lost in a first-level cache (3), or a hop of the fabric on their behalf (6). -/
  | unit (sub core slot : Nat) (lanes : BitVec 128)
  /-- Met by the next word that a drain of a core reads: of a frame, or of the scratchpad (R266). -/
  | drain (core : Nat) (frame : Bool)
  /-- Met by the next chunk of a copy channel, on a hop of the fabric. -/
  | copy (core ch : Nat)
deriving DecidableEq, Repr

/-- An event that is due: a row, a write to a register, or a message received. -/
inductive Event where
  | row (i : Instr)
  | access (a : Access)
  /-- A register write of the host whose turn after earlier writes of the host has come (R86). -/
  | posted (a : Access)
  | message (m : Msg)
deriving DecidableEq, Repr

/-- The device. -/
structure State where
  agenda  : List Event
  tick    : Nat
  freeCtr : Nat
  /-- The events that have stayed due, and how often each was passed over: the model's own bound on the free choice (assumption 1). -/
  passed  : List (Instr × Nat)
  outbox  : List Sent
  /-- The register access and the message being handled. -/
  bus     : Access
  rx      : Msg
  /-- The group whose clause is in issue, and the other groups. -/
  g       : Group
  groups  : List Group
  /-- Data bytes of the memory by physical address (R37), and the four side bytes of each sector at 4 * sector (R35). -/
  mem     : List Host.Cell
  side    : List Host.Cell
  hostmem : List Host.Cell
  /-- Ranges of host addresses that no route reaches, address and length (R97, R107, R113, R291; assumption 3). -/
  unrouted : List (Nat × Nat)
  /-- Scratchpad bytes at 2^23 * core + address. -/
  sp      : List Host.Cell
  l2      : Store L2Sec
  /-- First-level cache sectors at 2^36 * core + sector. -/
  l1      : Store L1Sec
  /-- What an access in progress has counted already: its tag, the event and the sector or page; the model's own bookkeeping, so that
  an access that waits counts once (R308, R315). -/
  counted : List (List Nat × Nat × Nat)
  /-- Errors of R47 that have arisen and have not been met: the model's own field (assumption 69). -/
  upsets  : List Upset
  tlb     : List TlbE
  lagoon  : List Nat
  det     : Store DetLine
  cores   : Store Core
  ctxs    : Store Ctx
  /-- What the areas of saved contexts do not say (assumption 12). -/
  kept    : List Kept
  tasks   : List Task
  nextId  : Nat
  blocks  : List Block
  counters : Store Counter
  graphs  : List Graph
  sqs     : Store SQ
  gqs     : Store GQueue
  pools   : Store Pool
  spatial : Store (List SpCmd)
  trap    : TrapRing
  err     : ErrRing
  rtc     : DWord
  /-- Core cycles, CLK, which every core counts alike (R306; assumption 8). -/
  clk     : DWord
  dcfg    : List Word
  dcnt    : List DWord
  win     : List DWord
  /-- Host accesses that wait for an earlier one or for a coherence transaction, and whether the head of them, or a mailbox command
  in progress, is now tried again (R86). -/
  hostq   : List Event
  again   : Bool
  links   : Store Link
  coh     : Coh
  mscrub  : Word
  chans   : Store MChan
  pwr     : Power
  cfg     : CfgRec
  fw      : Firm
  creg    : CtxRegs
deriving DecidableEq, Repr

/-- The configuration record that the model takes at reset (assumption 5). -/
def CfgRec.reset : CfgRec :=
  { part := .nk960, stepg := 1, devid := 0, present := 1, budget := 350, gib := 8, bar := 6, scrub := 0x81880000, sroute := 0 }

/-- The coherence logic at reset: a domain of one (R62). -/
def Coh.reset : Coh :=
  { sroute := 0, en := true, devid := 0, present := 1, lost := 0, mst := 0, txs := [], waiting := [], outs := [], answers := []
    served := [], moved := [], nextTx := 0, slices := [], awaiting := 0, memberTx := [], smigBusy := false, smigSt := 0, smigSize := 0
    smigs := 0, smigd := 0, migOn := false, migFrom := 0, migTo := 0, migPage := 4096, migSize := 32, migRecalled := 0, migCopied := 0, migBad := false }

/-- Power and board inputs at reset: all rails in range (assumption 4). -/
def Power.reset : Power :=
  { rails := [true, true, true, true, true], inReset := false, railFault := false, thermal := false
    alert := false, sensors := List.replicate 16 25, port := false, lock := false, eff := 350, clamp := false
    budget := 350, shares := [0x88888888, 0x88888888, 0x88888888, 0x88888888], lims := [], grant := [] }

/-- Firmware state at reset, before the boot ROM runs (R84, R88). -/
def Firm.reset : Firm :=
  { record := [[], []], curator := [[], []], docent := [[], []], active := [0, 0, 0], helper := [], repairs := [], remaps := [], boot := 0, ready := false
    idok := false, deny := false, lsrst := 0, key := none, busy := false, status := 0, cmd := 0, mbaddr := 0, mbhost := false
    docRun := false, docQuiesce := false, docStart := false, handover := false, forced := false, running := [[], [], []], incoming := [] }

def CtxRegs.reset : CtxRegs :=
  { area := 0, ctx := 0, busy := false, status := 0, aflt := false, need := 0, alen := 0, svcpc := 0, svctgt := 0, col := none }

/-- The device right after reset: the boot ROM starts (R88). -/
def State.reset : State :=
  { agenda := [.row .boot], tick := 0, freeCtr := 0, passed := [], outbox := [], bus := ⟨.host, 0, 8, 0⟩, rx := ⟨0, []⟩, g := .idle, groups := []
    mem := [], side := [], hostmem := [], unrouted := [], sp := [], l2 := [], l1 := [], counted := [], upsets := [], tlb := [], lagoon := [], det := [], cores := [], ctxs := [], kept := []
    tasks := [], nextId := 0, blocks := [], counters := [], graphs := [], sqs := [], gqs := [], pools := [], spatial := []
    trap := .reset, err := .reset, rtc := 0, clk := 0, dcfg := List.replicate 16 0, dcnt := List.replicate 16 0
    win := List.replicate 8 0, hostq := [], again := false, links := [], coh := .reset, mscrub := 0x81880000, chans := [], pwr := .reset, cfg := .reset
    fw := .reset, creg := .reset }

end Sys2Proof.Machine
end

