-- ==== Sys2Proof/Machine/Ops.lean ====
section
/-! DEFINITION. The named operations over the state: the sparse maps, registers, lane states, taking a trap, entering and leaving
the handler, and the checks that every instruction passes at issue. -/
namespace Sys2Proof

/-! ## Sparse maps -/

/-- What a sparse map holds at a key; an unlisted key reads as d. -/
def Store.get {α : Type} (d : α) : Store α → Nat → α
  | [], _ => d
  | (i, a) :: r, k => if i = k then a else Store.get d r k

/-- The entry of a sparse map, when it is listed. -/
def Store.look {α : Type} : Store α → Nat → Option α
  | [], _ => none
  | (i, a) :: r, k => if i = k then some a else Store.look r k

/-- Insertion in key order, without regard to the default. -/
def Store.insert {α : Type} : Store α → Nat → α → Store α
  | [], k, a => [(k, a)]
  | (i, b) :: r, k, a =>
    if i = k then (k, a) :: r else if k < i then (k, a) :: (i, b) :: r else (i, b) :: Store.insert r k a

/-- Removal of a key. -/
def Store.erase {α : Type} : Store α → Nat → Store α
  | [], _ => []
  | (i, b) :: r, k => if i = k then Store.erase r k else (i, b) :: Store.erase r k

/-- Writing a key; writing what an unlisted key reads as removes the entry. -/
def Store.put {α : Type} [DecidableEq α] (d : α) (s : Store α) (k : Nat) (a : α) : Store α :=
  if a = d then Store.erase s k else Store.insert s k a

/-- Every key is above lo and the keys rise. -/
def Store.sortedAbove {α : Type} : Option Nat → Store α → Bool
  | _, [] => true
  | lo, (i, _) :: r => (match lo with | none => true | some l => decide (l < i)) && Store.sortedAbove (some i) r

/-- The canonical form: keys strictly rising, and no entry equal to what its key reads as unlisted. -/
def Store.wf {α : Type} [DecidableEq α] (d : Nat → α) (s : Store α) : Bool :=
  Store.sortedAbove none s && s.all fun e => decide (e.2 ≠ d e.1)

/-- The canonical form of a memory whose unlisted bytes read as zero. -/
def Memory.wf (m : List Host.Cell) : Bool := Store.wf (fun _ => (0 : Byte)) m

/-- The byte of a memory whose unlisted bytes read as zero. -/
def Memory.byte (m : List Host.Cell) (a : Nat) : Byte := Store.get 0 m a

/-- n bytes from address a. -/
def Memory.read (m : List Host.Cell) (a n : Nat) : List Byte := (List.range n).map fun i => Memory.byte m (a + i)

/-- Bytes written from address a, in ascending order. -/
def Memory.write (m : List Host.Cell) : Nat → List Byte → List Host.Cell
  | _, [] => m
  | a, b :: bs => Memory.write (Store.put 0 m a b) (a + 1) bs

namespace Machine

abbrev Out := Host.Outcome State Fault Refusal

/-! ## Cores, contexts, groups -/

def State.core (s : State) (c : Nat) : Core := Store.get Core.reset s.cores c

def State.setCore (s : State) (c : Nat) (k : Core) : State := { s with cores := Store.put Core.reset s.cores c k }

def State.modCore (s : State) (c : Nat) (f : Core → Core) : State := s.setCore c (f (s.core c))

def State.cx (s : State) (c : Word) : Ctx := Store.get Ctx.reset s.ctxs c.toNat

def State.setCx (s : State) (c : Word) (x : Ctx) : State := { s with ctxs := Store.put Ctx.reset s.ctxs c.toNat x }

def State.modCx (s : State) (c : Word) (f : Ctx → Ctx) : State := s.setCx c (f (s.cx c))

def State.pool (s : State) (n : Nat) : Pool := Store.get Pool.reset s.pools n

def State.setPool (s : State) (n : Nat) (p : Pool) : State := { s with pools := Store.put Pool.reset s.pools n p }

def State.gq (s : State) (n : Nat) : GQueue := Store.get GQueue.reset s.gqs n

def State.setGq (s : State) (n : Nat) (q : GQueue) : State := { s with gqs := Store.put GQueue.reset s.gqs n q }

def State.counter (s : State) (n : Nat) : Counter := Store.get Counter.reset s.counters n

def State.setCounter (s : State) (n : Nat) (c : Counter) : State :=
  { s with counters := Store.put Counter.reset s.counters n c }

def State.sq (s : State) (n : Nat) : SQ := Store.get SQ.reset s.sqs n

def State.setSq (s : State) (n : Nat) (q : SQ) : State := { s with sqs := Store.put SQ.reset s.sqs n q }

def State.link (s : State) (n : Nat) : Link := Store.get Link.reset s.links n

def State.setLink (s : State) (n : Nat) (l : Link) : State := { s with links := Store.put Link.reset s.links n l }

def State.chan (s : State) (n : Nat) : MChan := Store.get MChan.reset s.chans n

def State.setChan (s : State) (n : Nat) (c : MChan) : State := { s with chans := Store.put MChan.reset s.chans n c }

/-- An event appended to the agenda. -/
def State.due (s : State) (e : Event) : State := { s with agenda := s.agenda ++ [e] }

def State.dueRow (s : State) (i : Instr) : State := s.due (.row i)

/-- A free value is drawn: the counter advances (assumption 2). -/
def State.draw (s : State) : State := { s with freeCtr := s.freeCtr + 1 }

/-- The group identity: task, block, index. -/
def Group.is (g : Group) (task block index : Nat) : Bool := g.task == task && g.block == block && g.index == index

def State.issuing (s : State) : Bool := s.g.iss.on

/-- Every resident group, the one in issue first. -/
def State.allGroups (s : State) : List Group := if s.issuing then s.g :: s.groups else s.groups

/-- A function applied to every resident group. -/
def State.mapGroups (s : State) (f : Group → Group) : State :=
  { s with g := if s.issuing then f s.g else s.g, groups := s.groups.map f }

def State.mapGroup (s : State) (task block index : Nat) (f : Group → Group) : State :=
  s.mapGroups fun g => if g.is task block index then f g else g

def State.findGroup (s : State) (task block index : Nat) : Option Group :=
  s.allGroups.find? fun g => g.is task block index

def State.findBlock (s : State) (task block : Nat) : Option Block :=
  s.blocks.find? fun b => b.task == task && b.idx == block

def State.modBlock (s : State) (task block : Nat) (f : Block → Block) : State :=
  { s with blocks := mapWhere (fun b => b.task == task && b.idx == block) f s.blocks }

def State.task (s : State) (id : Nat) : Option Task := s.tasks.find? fun t => t.id == id

def State.modTask (s : State) (id : Nat) (f : Task → Task) : State :=
  { s with tasks := mapWhere (fun t => t.id == id) f s.tasks }

/-- The block of the group in issue. -/
def State.gblock (s : State) : Option Block := s.findBlock s.g.task s.g.block

/-- The number of cores and of slices of the part (R12, R20). -/
def Part.cores : Part → Nat
  | .nk960 => 32
  | .nk940 => 16

def Part.slices : Part → Nat
  | .nk960 => 64
  | .nk940 => 32

def Part.channels : Part → Nat
  | .nk960 => 32
  | .nk940 => 16

/-- Scratchpad bytes per core (R20). -/
def Part.scratch : Part → Nat
  | .nk960 => 8388608
  | .nk940 => 4194304

/-- Weight-buffer slots (R20). -/
def Part.slots : Part → Nat
  | .nk960 => 64
  | .nk940 => 32

/-- The largest granted M (R20). -/
def Part.maxM : Part → Nat
  | .nk960 => 32
  | .nk940 => 16

def State.part (s : State) : Part := s.cfg.part

/-- PWRLIM0 to PWRLIM31 at reset: both duties whole (R34). -/
def limReset : Word := 0x00004008

/-! ## Event counters (R314, R315) -/

/-- Core counters that select a source count n events. -/
def State.countCore (s : State) (c src n : Nat) : State :=
  s.modCore c fun k =>
    { k with ecnt := (List.range 8).map fun i =>
        let cfg := k.ecfg.getD i 0
        if cfg.getLsbD 31 && bits cfg.toNat 7 0 == src then k.ecnt.getD i 0 + BitVec.ofNat 64 n else k.ecnt.getD i 0 }

/-- Device counters that select a source count n events. -/
def State.countDev (s : State) (src n : Nat) : State :=
  { s with dcnt := (List.range 16).map fun i =>
      let cfg := s.dcfg.getD i 0
      if cfg.getLsbD 31 && bits cfg.toNat 7 0 == src then s.dcnt.getD i 0 + BitVec.ofNat 64 n else s.dcnt.getD i 0 }

/-! ## Registers of a group (R175) -/

/-- A v register of a lane; v1023 reads zero. -/
def Group.rv (g : Group) (r : VReg) (l : Nat) : Word :=
  if r.toNat = 1023 then 0 else Store.get 0 g.v (128 * r.toNat + l)

/-- A write of a v register; a write to v1023 is discarded. -/
def Group.wv (g : Group) (r : VReg) (l : Nat) (x : Word) : Group :=
  if r.toNat = 1023 then g else { g with v := Store.put 0 g.v (128 * r.toNat + l) x }

/-- A k register; k63 reads zero. -/
def Group.rk (g : Group) (r : KReg) : Word :=
  if r.toNat = 63 then 0 else Store.get 0 g.k r.toNat

/-- A write of a k register; a write to k63 is discarded. -/
def Group.wk (g : Group) (r : KReg) (x : Word) : Group :=
  if r.toNat = 63 then g else { g with k := Store.put 0 g.k r.toNat x }

/-- A predicate of a lane; p15 reads true. -/
def Group.rp (g : Group) (r : PReg) (l : Nat) : Bool :=
  if r.toNat = 15 then true else Store.get false g.p (128 * r.toNat + l)

/-- A write of a predicate; a write to p15 is discarded. -/
def Group.wp (g : Group) (r : PReg) (l : Nat) (x : Bool) : Group :=
  if r.toNat = 15 then g else { g with p := Store.put false g.p (128 * r.toNat + l) x }

def Group.rj (g : Group) (r : JReg) : BitVec 128 := Store.get 0 g.j r.toNat

def Group.rsh (g : Group) (r : ShReg) : BitVec 128 := Store.get 0 g.sh r.toNat

def Group.wsh (g : Group) (r : ShReg) (x : BitVec 128) : Group := { g with sh := Store.put 0 g.sh r.toNat x }

def Group.rq (g : Group) (r : QReg) : DWord := Store.get 0 g.q r.toNat

def Group.wq (g : Group) (r : QReg) (x : DWord) : Group := { g with q := Store.put 0 g.q r.toNat x }

/-- A v pair, the low half in the even register (R176). -/
def Group.rv64 (g : Group) (r : VReg) (l : Nat) : DWord := g.rv (r + 1) l ++ g.rv r l

def Group.rk64 (g : Group) (r : KReg) : DWord := g.rk (r + 1) ++ g.rk r

def Group.wk64 (g : Group) (r : KReg) (x : DWord) : Group :=
  (g.wk r (x.truncate 32)).wk (r + 1) (x.extractLsb' 32 32)

def Group.wv64 (g : Group) (r : VReg) (l : Nat) (x : DWord) : Group :=
  (g.wv r l (x.truncate 32)).wv (r + 1) l (x.extractLsb' 32 32)

/-- The context is an E1 one, or FTZ is set (R245). -/
def Group.ftz (g : Group) : Bool := g.fpctl.getLsbD 0 || g.fpctl.getLsbD 3

def Group.nant (g : Group) : Bool := g.fpctl.getLsbD 1

def Group.satt (g : Group) : Bool := g.fpctl.getLsbD 2

def Group.setSat (g : Group) : Group := { g with fpctl := g.fpctl ||| 0x10 }

def Group.setNanp (g : Group) : Group := { g with fpctl := g.fpctl ||| 0x20 }

/-- Privileged mode (R429). -/
def Group.priv (g : Group) : Bool := g.handler || g.ctx.getLsbD 31

/-! ## Lanes -/

/-- Lanes 0 to width - 1. -/
def Group.laneIdx (g : Group) : List Nat := List.range g.width

def Group.lane (g : Group) (l : Nat) : Lane := g.lanes.getD l (Lane.start 0)

def Group.modLane (g : Group) (l : Nat) (f : Lane → Lane) : Group := { g with lanes := modifyAt f g.lanes l }

/-- A function of the lane's index applied to every lane of a set. -/
def Group.modLanes (g : Group) (x : BitVec 128) (f : Nat → Lane → Lane) : Group :=
  { g with lanes := g.lanes.mapIdx fun l a => if x.getLsbD l then f l a else a }

/-- The lanes of a set, ascending. -/
def lanesIn (x : BitVec 128) (w : Nat) : List Nat := (List.range w).filter fun l => x.getLsbD l

/-- The set of the lanes below w for which p holds. -/
def laneSet (w : Nat) (p : Nat → Bool) : BitVec 128 :=
  (List.range w).foldl (fun (x : BitVec 128) l => if p l then x ||| (1#128 <<< l) else x) 0

/-- Finished or killed (R189). -/
def LaneSt.gone : LaneSt → Bool
  | .finished | .killed => true
  | _ => false

def Group.goneSet (g : Group) : BitVec 128 := laneSet g.width fun l => (g.lane l).st.gone

def Group.trappedSet (g : Group) : BitVec 128 := laneSet g.width fun l => (g.lane l).st == .trapped

/-- Every lane is finished or killed (R189). -/
def Group.dead (g : Group) : Bool := g.lanes.all fun a => a.st.gone

/-- A lane is trapped (R287). -/
def Group.anyTrapped (g : Group) : Bool := g.lanes.any fun a => a.st == .trapped

/-- The guard of a lane (R321). -/
def Group.guard (g : Group) (h : Hdr) (l : Nat) : Bool := g.rp h.g l ^^ h.gn

/-- The active lanes: those of X whose guard is true (R185, R321). -/
def Group.active (g : Group) (h : Hdr) : BitVec 128 :=
  laneSet g.width fun l => g.iss.x.getLsbD l && g.guard h l

/-- The lowest lane of a set. -/
def lowest (x : BitVec 128) : Nat := ((List.range 128).find? fun l => x.getLsbD l).getD 0

/-! ## The clause in issue -/

/-- The address after the clause's last word, where the next header lies (R180). -/
def Issue.next (i : Issue) : DWord := i.hdr + 8 + BitVec.ofNat 64 (8 * i.words.length)

/-- The words from the one being issued on. -/
def Issue.rest (i : Issue) : List DWord := i.words.drop (((i.pc - i.hdr).toNat - 8) / 8)

/-- The instruction of n words at the pc is the clause's last (R181, R318). -/
def Issue.last (i : Issue) (n : Nat) : Bool := i.rest.length == n

/-- The address that follows an instruction of n words (R286). -/
def Issue.after (i : Issue) (n : Nat) : DWord := i.pc + BitVec.ofNat 64 (8 * n)

/-- The clause as a lane inside it records it. -/
def Issue.bounds (i : Issue) : DWord × Nat := (i.hdr, i.words.length)

/-! ## Rejoin masks (R188, R189) -/

/-- Lanes are removed from j0 to j7 and from every arrival set (R189). -/
def Group.dropLanes (g : Group) (x : BitVec 128) : Group :=
  { g with
    j := (List.range 8).foldl (fun m i => Store.put 0 m i (Store.get 0 m i &&& ~~~x)) g.j
    arrived := (List.range 8).foldl (fun m i => Store.put 0 m i (Store.get 0 m i &&& ~~~x)) g.arrived }

/-- A lane leaves its park: it goes on, or raises the STEP that its instruction owes, at the next address (R304). -/
def Lane.wake (a : Lane) : Lane :=
  if a.stepDue then
    { a with st := .trapped, tcause := 0x8000000E, taddr := 0, tpc := a.lpc, tnpc := a.lpc
             tclause := a.inside.getD (a.lpc, 0), stepDue := false }
  else { a with st := .eligible }

/-- The release check of one mask: when the arrival set holds every lane of the mask that is not gone, the arrived lanes go on. -/
def Group.releaseJoin (g : Group) (i : Nat) : Group :=
  let arr := Store.get 0 g.arrived i
  let need := Store.get 0 g.j i &&& ~~~g.goneSet
  if arr ≠ 0 ∧ need &&& ~~~arr = 0 then
    let g := g.modLanes arr fun _ a => if a.st.gone then a else a.wake
    { g with arrived := Store.put 0 g.arrived i 0 }
  else g

/-- The release checks of every mask. -/
def Group.releaseJoins (g : Group) : Group := (List.range 8).foldl Group.releaseJoin g

/-- Lanes are finished or killed: they leave X, the masks and the arrival sets, and a release that this completes takes place (R189). -/
def Group.endLanes (g : Group) (x : BitVec 128) (st : LaneSt) : Group :=
  let g := g.modLanes x fun _ a => if a.st.gone then a else { a with st := st, handler := false, marked := false }
  let g := { g with iss := { g.iss with x := g.iss.x &&& ~~~x } }
  (g.dropLanes x).releaseJoins

/-! ## Taking a trap (R284 to R290) -/

/-- The trap codes of R284. -/
def cILLEGAL : Nat := 1
def cREGBOUND : Nat := 2
def cROLE : Nat := 3
def cUNIF : Nat := 4
def cSHAPE : Nat := 5
def cXLATE : Nat := 6
def cPERM : Nat := 7
def cALIGN : Nat := 8
def cNAN : Nat := 9
def cSTACK : Nat := 10
def cECC : Nat := 11
def cTAG : Nat := 12
def cCANCEL : Nat := 13
def cSTEP : Nat := 14
def cBKPT : Nat := 15
def cQUAR : Nat := 16
def cSAT : Nat := 17
def cWATCH : Nat := 18

/-- What a trap reports: the code, the sub-cause, the address, the access kind, the level and DIS (R286). -/
structure Cause where
  code : Nat
  sub  : Nat
  addr : DWord
  acc  : Nat
  lvl  : Nat
  dis  : Bool
deriving DecidableEq, Repr

/-- A cause with no address and no sub-cause. -/
def Cause.mk0 (code : Nat) : Cause := ⟨code, 0, 0, 0, 0, false⟩

/-- A cause with a sub-cause and an address, as a load. -/
def Cause.at (code sub : Nat) (addr : DWord) : Cause := ⟨code, sub, addr, 0, 0, false⟩

/-- TCAUSE with V set (R286). -/
def Cause.tcause (c : Cause) : Word :=
  BitVec.ofNat 32 (2 ^ 31 + c.acc % 4 * 2 ^ 20 + c.dis.toNat * 2 ^ 19 + c.lvl % 4 * 2 ^ 17 + c.sub % 256 * 2 ^ 8 + c.code % 256)

/-- An entry of the trap ring becomes due (R291). -/
def State.trapDue (s : State) (src : TrapSrc) (e : TrapEntry) : State :=
  { s with trap := { s.trap with due := s.trap.due ++ [(src, e)] }, agenda := s.agenda ++ [.row .trapRingWrite] }

/-- The trap-ring entry of a stopped or ended group (R288, R290, R292). -/
def groupEntry (s : State) (g : Group) (c : Cause) (pc : DWord) (mask : BitVec 128) (nest : Bool) : TrapEntry :=
  { cause := c.code, sub := c.sub, src := 0, nest := nest, slot := g.slot, ctx := g.ctx, core := g.core, info := 0
    asn := bits (s.cx g.ctx).atb.toNat 63 48, pc := pc, addr := c.addr, mask := mask, detail := 0 }

/-- A lane takes a trap at the word in issue: LPC stays there, and the trap registers say why (R286, R287). -/
def Lane.trap (a : Lane) (i : Issue) (n : Nat) (c : Cause) : Lane :=
  { a with st := .trapped, lpc := i.pc, tcause := c.tcause, taddr := c.addr, tpc := i.pc, tnpc := i.after n
           inside := some i.bounds, tclause := i.bounds, marked := false, stepDue := false }

/-- Taking an exception: the lanes of a set trap at the instruction of n words in issue, each with its cause, and leave X
(R286, R287). A trap in handler mode ends the group, with an entry of NEST 1 and the launch's STATUS 2 (R290). -/
def State.raise (s : State) (n : Nat) (x : BitVec 128) (c : Nat → Cause) : State :=
  if x = 0 then s
  else if s.g.handler then
    let l := lowest x
    let e := groupEntry s s.g (c l) s.g.iss.pc x true
    let g := s.g.endLanes (laneSet s.g.width fun _ => true) .killed
    let s := { s with g := { g with handler := false } }
    (s.modTask s.g.task fun t => { t with ended := true }).trapDue (.group s.g.task s.g.block s.g.index) e
  else
    { s with g :=
      { s.g.modLanes x fun l a => a.trap s.g.iss n (c l) with iss := { s.g.iss with x := s.g.iss.x &&& ~~~x } } }

/-- The same cause on every lane of a set. -/
def State.raiseAll (s : State) (n : Nat) (x : BitVec 128) (c : Cause) : State := s.raise n x fun _ => c

/-- Handler entry (R289): the group enters handler mode, the shadow bank takes the names k48 to k62 with its fixed contents,
and every trapped lane goes to the handler's entry. -/
def Group.enterHandler (g : Group) (entry : DWord) : Group :=
  let t := g.trappedSet
  let codes := (lanesIn t g.width).foldl (fun (m : Nat) l => m ||| 2 ^ bits (g.lane l).tcause.toNat 7 0) 0
  let kprog := g.k.filter fun e => decide (48 ≤ e.1)
  let k0 := g.k.filter (fun e => decide (e.1 < 48)) ++ g.kshadow
  let k1 := (List.range 4).foldl (fun m i => Store.put 0 m (48 + i) (t.extractLsb' (32 * i) 32)) k0
  let k2 := Store.put 0 (Store.put 0 k1 52 g.ctx) 53 (BitVec.ofNat 32 codes)
  let g := g.modLanes t fun _ a =>
    { a with st := .eligible, handler := true, lpc := entry, yld := false, inside := none }
  { g with handler := true, k := k2, kshadow := kprog }

/-- Handler mode ends when no handler lane remains: the program's k48 to k63 return, held lanes become eligible, and a pending
CANCEL event is to be delivered (R290). -/
def Group.leaveHandler (g : Group) : Group :=
  if g.handler && g.lanes.all (fun a => !a.handler) then
    let ksh := g.k.filter fun e => decide (48 ≤ e.1)
    let k := g.k.filter (fun e => decide (e.1 < 48)) ++ g.kshadow
    { g with handler := false, k := k, kshadow := ksh, owed := g.cancel
             lanes := g.lanes.map fun a => if a.st == .held then { a with st := .eligible } else a }
  else g

/-- Return from the trap: each marked lane leaves handler mode with V := 0 and LPC := TPC, and waits as a held lane until handler
mode ends; a misaligned TPC traps ALIGN, which ends the group (R290, R436). -/
def Lane.tret (a : Lane) : Lane :=
  let (h, n) := a.tclause
  let d := (a.tpc - h).toNat
  { a with st := .held, handler := false, marked := false, tcause := a.tcause &&& 0x7FFFFFFF, lpc := a.tpc
           inside := if h < a.tpc ∧ d ≤ 8 * n then some a.tclause else none }

/-- The end of a clause in which lanes executed TRET (R436). -/
def State.finishTret (s : State) : State :=
  let m := laneSet s.g.width fun l => (s.g.lane l).marked && (s.g.lane l).st == .eligible
  if m = 0 then s
  else
    let bad := laneSet s.g.width fun l => m.getLsbD l && bits (s.g.lane l).tpc.toNat 2 0 ≠ 0
    if bad ≠ 0 then s.raise 1 bad fun l => { Cause.at cALIGN 0 (s.g.lane l).tpc with acc := 3 }
    else { s with g := (s.g.modLanes m fun _ a => a.tret).leaveHandler }

/-! ## Issue of one instruction -/

/-- What issue checks before an instruction acts: its guard, the CLASS values that allow it (R317), the roles that may issue it
(R140), the v registers it names (R177), its words, whether it ends its clause (R181), and whether it is a point that needs the
trapped lanes (R287). -/
structure Info where
  h     : Hdr
  cls   : Nat → Bool
  role  : Role → Bool
  regs  : List VReg
  len   : Nat
  ends  : Bool
  holds : Bool

/-- A v register in a block above the grant (R177); v1023 is exempt. -/
def Group.beyond (g : Group) (r : VReg) : Bool := r.toNat ≠ 1023 && decide (g.grant < r.toNat / 64)

/-- The executing lanes that the instruction in issue still concerns: after a wait, those it left to act (R404). -/
def Issue.due (i : Issue) : BitVec 128 := if i.wait.isSome then i.x &&& i.todo.getD i.x else i.x

/-- Before the instruction acts, LPC of the executing lanes moves past it (R180, R185), and a wait at it is over. -/
def State.moveOn (s : State) (i : Info) : State :=
  let a := s.g.iss.after i.len
  let ins := if s.g.iss.last i.len then none else some s.g.iss.bounds
  let g := s.g.modLanes s.g.iss.due fun _ l => { l with lpc := a, inside := ins }
  { s with g := { g with iss := { g.iss with wait := none } } }

/-- STEP is armed for the instructions now issued (R304). -/
def Group.stepping (g : Group) : Bool := g.dbg.getLsbD 0 && (!g.handler || g.dbg.getLsbD 1)

/-- STEP after a completed instruction: TPC holds the next address (R304). -/
def Lane.step (a : Lane) (i : Issue) : Lane :=
  let c := Cause.mk0 cSTEP
  { a with st := .trapped, tcause := c.tcause, taddr := 0, tpc := a.lpc, tnpc := a.lpc, tclause := i.bounds, stepDue := false }

/-- The instruction in issue waits: it stays at its word, to be tried again (R404). -/
def State.waitFor (s : State) (w : Wait) (todo : Option (BitVec 128)) : State :=
  { s with g := { s.g with iss := { s.g.iss with wait := some w, todo := todo } } }

/-- The end of an instruction: when it waits, the lanes left to act stay at it; otherwise the pc moves on, and under STEP every
executing lane that completed it traps (R304). -/
def State.finish (s : State) (i : Info) : State :=
  let iss := s.g.iss
  if iss.wait.isSome then
    { s with g := s.g.modLanes iss.due fun _ a => { a with lpc := iss.pc, inside := some iss.bounds } }
  else
    let s := { s with g := { s.g with iss := { iss with pc := iss.after i.len, todo := none } } }
    if s.g.stepping then
      let parked := s.g.modLanes (laneSet s.g.width fun l =>
          iss.x.getLsbD l && (s.g.lane l).st != .eligible && (s.g.lane l).st != .trapped && !(s.g.lane l).st.gone)
        fun _ a => { a with stepDue := true }
      let x := laneSet s.g.width fun l => iss.x.getLsbD l && (s.g.lane l).st == .eligible
      if s.g.handler then
        ({ s with g := parked }).raise i.len x fun _ => Cause.mk0 cSTEP
      else
        { s with g := { parked.modLanes x fun _ a => a.step iss with iss := { s.g.iss with x := s.g.iss.x &&& ~~~x } } }
    else s

/-- One instruction: the checks of R285 in order (ILLEGAL, ROLE, REGBOUND), then its own effect on the active lanes. With no
active lane only the pc moves (R321). What follows a misplaced clause-ending word is the next clause header (R286). An instruction that is tried again counts once (R315). -/
def issue (i : Info) (s : State) (body : State → BitVec 128 → State) : Out :=
  let s := if s.g.iss.wait.isSome then s else s.countCore s.g.core 3 1
  if !(i.cls s.g.iss.cls) || (i.ends && !s.g.iss.last i.len) then
    .next (s.raiseAll (if i.ends then s.g.iss.rest.length else i.len) s.g.iss.x (.mk0 cILLEGAL))
  else if i.holds && s.g.anyTrapped && !s.g.handler then
    .next { s with g := { s.g.modLanes s.g.iss.x fun _ a =>
      { a with st := .held, lpc := s.g.iss.pc, inside := some s.g.iss.bounds } with iss := { s.g.iss with x := 0 } } }
  else
    let act := s.g.active i.h
    if act = 0 then .next ((s.moveOn i).finish i)
    else if !(i.role s.g.role) then .next (((s.moveOn i).raiseAll i.len act (.mk0 cROLE)).finish i)
    else if i.regs.any s.g.beyond then .next (((s.moveOn i).raiseAll i.len act (.mk0 cREGBOUND)).finish i)
    else .next ((body (s.moveOn i) act).finish i)

end Machine
end Sys2Proof
end

