-- ==== Sys2Proof/Machine/Dram.lean ====
section
/-! DEFINITION. The memory controllers: mapping of addresses, side bytes, reading with correction, poisoning, and the queue of
error records (R35 to R54, R95 to R98). -/
namespace Sys2Proof.Machine

/-! ## Mapping (R36, R37) -/

/-- Bytes of installed memory (R36). -/
def State.installed (s : State) : Nat := s.part.channels * s.cfg.gib * 2 ^ 30

/-- The channel of a physical address (R37). -/
def State.chanOf (s : State) (pa : Nat) : Nat :=
  match s.part with
  | .nk960 => bits pa 11 7 ^^^ bits pa 16 12 ^^^ bits pa 21 17 ^^^ bits pa 26 22 ^^^ bits pa 31 27 ^^^ bits pa 36 32 ^^^ bits pa 37 37
  | .nk940 => bits pa 10 7 ^^^ bits pa 14 11 ^^^ bits pa 18 15 ^^^ bits pa 22 19 ^^^ bits pa 26 23 ^^^ bits pa 30 27 ^^^ bits pa 34 31 ^^^ bits pa 36 35

/-- The line index within its channel (R37). -/
def State.lineOf (s : State) (pa : Nat) : Nat :=
  match s.part with
  | .nk960 => bits pa 37 12
  | .nk940 => bits pa 36 11

/-- The sub-channel: 0 A, 1 B (R37). -/
def subOf (pa : Nat) : Nat := bits pa 5 5

/-- The physical address of the line that a channel's line index names: the inverse of R37. -/
def State.lineAddr (s : State) (ch line : Nat) : Nat :=
  match s.part with
  | .nk960 =>
    let hi := line * 4096
    hi + (ch ^^^ s.chanOf hi) * 128
  | .nk940 =>
    let hi := line * 2048
    hi + (ch ^^^ s.chanOf hi) * 128

/-- The home L2 slice of a domain physical address (R198). -/
def State.sliceOf (s : State) (dpa : Nat) : Nat :=
  (bits dpa 12 7 ^^^ bits dpa 18 13 ^^^ bits dpa 24 19 ^^^ bits dpa 30 25 ^^^ bits dpa 36 31 ^^^ bits dpa 40 37) % s.part.slices

/-! ## Codes -/

/-- One bit step of a CRC that shifts left, of w bits. -/
def crcStep (w poly x : Nat) : Nat := if x.testBit (w - 1) then (2 * x) % 2 ^ w ^^^ poly else 2 * x

/-- A CRC of 8 bits, most significant bit first (R40). -/
def crc8 (bs : List Byte) : Byte :=
  BitVec.ofNat 8 (bs.foldl (fun c b => (List.range 8).foldl (fun c _ => crcStep 8 0x2F c) (c ^^^ b.toNat)) 0xFF ^^^ 0xFF)

/-- The tag of a sector (R40). -/
def sectorTag (sector : Nat) (data : List Byte) (coh : Byte) : Byte := crc8 (toBytes 5 sector ++ data ++ [coh])

/-- The product by α in GF(2^8) with field polynomial 0x11D (R41). -/
def gfDouble (x : Nat) : Nat := if x < 128 then 2 * x else 2 * x ^^^ 0x11D

/-- The product in GF(2^8). -/
def gfMul (a b : Nat) : Nat :=
  (List.range 8).foldl (fun acc i => gfDouble acc ^^^ (if b.testBit (7 - i) then a else 0)) 0

/-- α to a power. -/
def gfPow : Nat → Nat
  | 0 => 1
  | n + 1 => gfDouble (gfPow n)

/-- The inverse: x to the power 254. -/
def gfInv (x : Nat) : Nat :=
  ((List.range 7).foldl (fun (p : Nat × Nat) _ => let y := gfMul p.1 p.1; (y, gfMul p.2 y)) (x, 1)).2

/-- The syndromes S0 and S1 (R41). -/
def syndromes (w : List Byte) : Nat × Nat :=
  (w.foldr (fun b a => b.toNat ^^^ a) 0, w.foldr (fun b a => b.toNat ^^^ gfDouble a) 0)

/-- The check bytes that make both syndromes zero (R41). -/
def checkBytes (w : List Byte) : List Byte :=
  let (a, b) := syndromes w
  let x := gfMul (b ^^^ gfMul a (gfPow 35)) (gfInv (gfPow 34 ^^^ gfPow 35))
  [BitVec.ofNat 8 x, BitVec.ofNat 8 (a ^^^ x)]

/-- The 36 bytes of a sector with valid side bytes (R38). -/
def codeword (sector : Nat) (data : List Byte) (coh : Byte) : List Byte :=
  let w := data ++ [coh, sectorTag sector data coh]
  w ++ checkBytes w

/-- A CRC-32C, reflected (R95, R292); `foldl` over bytes with initial and final inversion. -/
def crc32c (bs : List Byte) : Word :=
  let c := bs.foldl (fun c b => (List.range 8).foldl
    (fun (c : Nat) _ => if c.testBit 0 then (c / 2) ^^^ 0x82F63B78 else c / 2) (c ^^^ b.toNat)) 0xFFFFFFFF
  BitVec.ofNat 32 (c ^^^ 0xFFFFFFFF)

/-! ## Error records (R95 to R98) -/

/-- A record with every optional field absent. -/
def ErrRec.mk0 (cause sub engine inst repair : Nat) : ErrRec :=
  { cause := cause, sub := sub, engine := engine, inst := inst, repair := repair, ctx := none, dpa := none, count := 1
    info0 := 0, info1 := 0, time := 0 }

/-- A record arrives at the on-die queue of 64; when it is full the record is dropped (R97). -/
def State.report (s : State) (r : ErrRec) : State :=
  if s.err.queue.length < 64 then
    { s with err := { s.err with queue := s.err.queue ++ [{ r with time := s.rtc }] }
             agenda := s.agenda ++ [.row .errorRecordWrite] }
  else { s with err := { s.err with ovf := true, lost := min 0xFFFF (s.err.lost + 1) } }

/-- An ADDR-RANGE record of the refusing unit (R98). -/
def State.addrRange (s : State) (engine inst dpa : Nat) (ctx : Option Word) (va : Option (Nat × Nat) := none) : State :=
  s.report { ErrRec.mk0 5 0 engine inst 0 with dpa := some dpa, ctx := ctx, va := va }

/-! ## Sectors of memory; a sector is its physical address divided by 32 -/

/-- The byte of a side position 4 * sector + j in initialised memory: the side bytes of a zero sector in HOME-I (R46). -/
def sideDefault (i : Nat) : Byte := (codeword (i / 4) (List.replicate 32 0) 0).getD (32 + i % 4) 0

/-- The 36 bytes of a sector as memory holds them. -/
def State.sector (s : State) (sec : Nat) : List Byte :=
  Memory.read s.mem (32 * sec) 32 ++ (List.range 4).map fun j => Store.get (sideDefault (4 * sec + j)) s.side (4 * sec + j)

/-- The 36 bytes of a sector written. -/
def State.putSector (s : State) (sec : Nat) (w : List Byte) : State :=
  { s with mem := Memory.write s.mem (32 * sec) (w.take 32)
           side := (List.range 4).foldl (fun m j => Store.put (sideDefault (4 * sec + j)) m (4 * sec + j) (w.getD (32 + j) 0)) s.side }

/-- A controller writes a sector with its coherence byte and fresh side bytes (R38). -/
def State.writeSector (s : State) (sec : Nat) (data : List Byte) (coh : Byte) : State := s.putSector sec (codeword sec data coh)

/-- The domain physical address of a sector of this device. -/
def State.dpaOf (s : State) (sec : Nat) : Nat := s.coh.devid.toNat * 2 ^ 38 + 32 * sec

/-- The byte position that the syndromes name (R42). -/
def errorPos (s0 s1 : Nat) : Option Nat :=
  if s0 = 0 ∨ s1 = 0 then none else (List.range 36).find? fun p => gfMul s0 (gfPow p) == s1

/-- What reading a sector finds (R42): its data and coherence byte with the position corrected, or the record's cause. -/
def readOutcome (sec : Nat) (w : List Byte) : Except Nat (List Byte × Byte × Option Nat) :=
  let (s0, s1) := syndromes w
  let check (w : List Byte) (p : Option Nat) : Except Nat (List Byte × Byte × Option Nat) :=
    if sectorTag sec (w.take 32) (w.getD 32 0) = w.getD 33 0 then .ok (w.take 32, w.getD 32 0, p) else .error 3
  if s0 = 0 ∧ s1 = 0 then check w none
  else
    match errorPos s0 s1 with
    | some p => check (modifyAt (· ^^^ BitVec.ofNat 8 s0) w p) (some p)
    | none => .error 2

/-- The first sector of a grain of n bytes. -/
def holder (sec n : Nat) : Nat := sec - sec % (n / 32)

/-- A grain is set to POISON in its state-holding sector, data unchanged (R44). -/
def State.poison (s : State) (sec n : Nat) : State :=
  let h := holder sec n
  let s := s.writeSector h ((s.sector h).take 32) 6
  let k := s.dpaOf h / 32
  match s.l2.find? fun e => e.1 == k with
  | some e => { s with l2 := Store.insert s.l2 k { e.2 with coh := 6 } }
  | none => s

/-- The memory row of R50: sub-channel and LINE[25:5] of its channel. -/
def State.rowOf (s : State) (pa : Nat) : Nat := 2 * bits (s.lineOf pa) 25 5 + subOf pa

/-- A corrected error is counted and recorded (R50). A lane is a candidate when at least three quarters of the sub-channel's
corrected errors since the last retrain lie on it. A row that reaches CETHR in the pass is reported in a record of its own with REPAIR
none, whose COUNT is the errors of the pass and which does not count for the limit of 1,000,000 us (assumption 14). -/
def State.countCe (s : State) (sec p : Nat) (ctx : Option Word) : State :=
  let pa := 32 * sec
  let ch := s.chanOf pa
  let c := s.chan ch
  let row := s.rowOf pa
  let r := (c.rows.find? fun r => r.row == row).getD ⟨row, 0, 0, none⟩
  let r := { r with pass := r.pass + 1, pending := r.pending + 1 }
  let lane := p % 12
  let key := 12 * subOf pa + lane
  let lanes := Store.put 0 c.laneCe key (Store.get 0 c.laneCe key + 1)
  let mine := Store.get 0 lanes key
  let all := ((List.range 12).map fun l => Store.get 0 lanes (12 * subOf pa + l)).foldl (· + ·) 0
  let laneCand := decide (3 * all ≤ 4 * mine)
  let rowCand := r.pass == bits s.mscrub.toNat 19 16
  let due := match r.last with
    | none => true
    | some t => decide (t + 1000000 ≤ s.rtc.toNat)
  let write := due && decide (s.err.queue.length < 64)
  let r' := if write then { r with pending := 0, last := some s.rtc.toNat } else r
  let c := { c with ce := if c.ce = 0xFFFF then c.ce else c.ce + 1, laneCe := lanes
                    rows := r' :: c.rows.filter fun x => x.row != row }
  let s := s.setChan ch c
  let s := if due then
      s.report { ErrRec.mk0 1 (subOf pa + (if laneCand then 4 + 16 * lane else 0)) 0 ch 1 with
        ctx := ctx, dpa := some (s.dpaOf sec), count := r.pending }
    else s
  if rowCand then s.report { ErrRec.mk0 1 (subOf pa + 2) 0 ch 0 with ctx := ctx, dpa := some (s.dpaOf sec), count := r.pass } else s

/-- Reading a sector of a grain of n bytes (R42 to R44): its data and coherence byte, or the trap code ECC or TAG, after which
the grain is poisoned and the record written. -/
def State.readSector (s : State) (sec n : Nat) (ctx : Option Word) : Except Nat (List Byte × Byte) × State :=
  match readOutcome sec (s.sector sec) with
  | .ok (d, c, none) => (.ok (d, c), s)
  | .ok (d, c, some p) => (.ok (d, c), (s.writeSector sec d c).countCe sec p ctx)
  | .error e =>
    (.error (if e = 3 then cTAG else cECC),
      (s.poison sec n).report { ErrRec.mk0 e (subOf (32 * sec)) 0 (s.chanOf (32 * sec)) 4 with
        ctx := ctx, dpa := some (s.dpaOf sec) })

/-- A coherence byte as the home writes it: that of a sector that holds no state is zero (R39). -/
def cohFor (sec n : Nat) (b : Byte) : Byte := if sec = holder sec n then b else 0

/-- A coherence byte that is handled as POISON with a record (R39). -/
def badCoh (b : Byte) : Bool := b.toNat.testBit 6 || b.toNat % 8 == 7

/-- The record MEM-COH of a state-holding byte; its REPAIR is 4, since the grain counts as poisoned (R39; assumption 17). -/
def State.cohRecord (s : State) (sec : Nat) (b : Byte) (dpa : Nat) (ctx : Option Word) : State :=
  s.report { ErrRec.mk0 4 (subOf (32 * sec) + 256 * b.toNat) 0 (s.chanOf (32 * sec)) 4 with dpa := some dpa, ctx := ctx }

/-- A sector of a grain of n bytes read by its controller alone: a bad state-holding byte is recorded (R39, R42). -/
def State.readChecked (s : State) (sec n : Nat) (ctx : Option Word) : Except Nat (List Byte × Byte) × State :=
  match s.readSector sec n ctx with
  | (.ok (d, b), s) => (.ok (d, b), if sec = holder sec n && badCoh b then s.cohRecord sec b (s.dpaOf sec) ctx else s)
  | r => r

/-- The coherence byte that stands in a sector: as corrected, or as stored when the sector reads uncorrectable (R45; assumption 17). -/
def State.storedCoh (s : State) (sec : Nat) : Byte :=
  match readOutcome sec (s.sector sec) with
  | .ok (_, c, _) => c
  | .error _ => (s.sector sec).getD 32 0

/-- A controller's write of a sector: whole under a coherence byte, or merged into the sector as read under a mask of bytes (R45). -/
def State.mergeSector (s : State) (sec n : Nat) (mask : Nat) (data : List Byte) (coh : Byte) (ctx : Option Word) : State :=
  if mask % 2 ^ 32 = 2 ^ 32 - 1 then s.writeSector sec data (cohFor sec n coh)
  else
    match s.readSector sec n ctx with
    | (.ok (d, c), s) => s.writeSector sec (mergeBytes mask d data) (cohFor sec n c)
    | (.error _, s) => s

end Sys2Proof.Machine
end

