-- ==== Sys2Proof/Machine/Messages.lean ====
section
/-! DEFINITION. Coherence messages: their header, the flits they travel in, and routes (R56 to R61, R68, R69). -/
namespace Sys2Proof.Machine

/-! ## Headers (R69) -/

def mSrc (m : Msg) : Nat := bits m.hdr.toNat 119 117
def mDst (m : Msg) : Nat := bits m.hdr.toNat 116 114
def mGr (m : Msg) : Nat := bits m.hdr.toNat 113 112
def mTx (m : Msg) : Nat := bits m.hdr.toNat 111 100
def mReqField (m : Msg) : Nat := bits m.hdr.toNat 99 97
def mDirty (m : Msg) : Bool := m.hdr.getLsbD 96
def mTicket (m : Msg) : Nat := bits m.hdr.toNat 47 36

/-- The sector DPA[40:5] that the header names. -/
def mAddr (m : Msg) : Nat := bits m.hdr.toNat 35 0

/-- Bytes of a GRAIN code (R69, R204); the reserved code 3 is given the length of code 2, so that the stream goes on after the message that
is discarded (assumption 13). -/
def grainBytes (c : Nat) : Nat := if c = 0 then 32 else if c = 1 then 128 else 512

def grainCode (n : Nat) : Nat := if n = 32 then 0 else if n = 128 then 1 else 2

/-- The bytes of a message's grain. -/
def mSize (m : Msg) : Nat := grainBytes (mGr m)

/-- The first sector of the message's grain. -/
def mGrain (m : Msg) : Nat := holder (mAddr m) (mSize m)

/-- The requester of a request: REQ of a redirected one, else SRC; a REQ of zero counts as none (assumption 16). -/
def mReq (m : Msg) : Nat := if mReqField m = 0 then mSrc m else mReqField m

/-- A header from its fields. -/
def mHdr (op src dst gr tx req : Nat) (dirty : Bool) (ticket addr : Nat) : BitVec 128 :=
  BitVec.ofNat 128 (op % 256 * 2 ^ 120 + src % 8 * 2 ^ 117 + dst % 8 * 2 ^ 114 + gr % 4 * 2 ^ 112 + tx % 4096 * 2 ^ 100
    + req % 8 * 2 ^ 97 + dirty.toNat * 2 ^ 96 + ticket % 4096 * 2 ^ 36 + addr % 2 ^ 36)

/-- The message types of R68. -/
def mtRDS : Nat := 0x01
def mtRDX : Nat := 0x02
def mtWB : Nat := 0x04
def mtCLN : Nat := 0x05
def mtATOM : Nat := 0x06
def mtWRH : Nat := 0x07
def mtLEAVE : Nat := 0x08
def mtJOIN : Nat := 0x09
def mtFWDS : Nat := 0x10
def mtFWDX : Nat := 0x11
def mtINV : Nat := 0x12
def mtRCL : Nat := 0x13
def mtDATS : Nat := 0x20
def mtDATE : Nat := 0x21
def mtDATM : Nat := 0x22
def mtRCLD : Nat := 0x23
def mtATOMR : Nat := 0x24
def mtINVACK : Nat := 0x31
def mtFWDACK : Nat := 0x32
def mtFWDMISS : Nat := 0x33
def mtWBACK : Nat := 0x34
def mtRETRY : Nat := 0x35
def mtPOISONED : Nat := 0x36
def mtDONE : Nat := 0x37

/-- The payload bytes of a message type (R68). -/
def payload (op gr : Nat) : Nat :=
  if op == mtWB || op == mtWRH || op == mtDATS || op == mtDATE || op == mtDATM || op == mtRCLD then grainBytes gr
  else if op == mtATOM || op == mtATOMR then 32
  else 0

/-! ## Devices and routes (R60, R61) -/

/-- This device's number. -/
def State.own (s : State) : Nat := s.coh.devid.toNat

def State.isPresent (s : State) (d : Nat) : Bool := s.coh.present.toNat.testBit d

/-- The other devices present. -/
def State.peers (s : State) : List Nat := (List.range 8).filter fun d => d != s.own && s.isPresent d

/-- The set of devices as a mask. -/
def devMask (l : List Nat) : Byte := l.foldl (fun (m : Byte) d => m ||| (1#8 <<< d)) 0

/-- The outgoing link to a device (R61). -/
def State.route (s : State) (d : Nat) : Option Nat :=
  let f := bits s.coh.sroute.toNat (4 * d + 3) (4 * d)
  if f.testBit 3 then some (f % 4) else none

/-! ## Sending -/

/-- A message as bytes: the low half of the header first (R69). -/
def msgBytes (m : Msg) : List Byte := toBytes 16 m.hdr.toNat ++ m.data

/-- The virtual channel of a message type (R58, R68). -/
def vcOf (op : Nat) : Nat := if op < 0x10 then 0 else if op < 0x20 then 1 else if op < 0x30 then 2 else 3

/-- The credits of 8 bytes that a message needs (R56). -/
def msgUnits (m : Msg) : Nat := (msgBytes m).length / 8

/-- The virtual channels to which 8 credits can be returned, as the field CRD (R56). -/
def Link.crd (l : Link) : Nat :=
  (List.range 4).foldl (fun c i => c + (if 8 ≤ l.owed.getD i 0 then 2 ^ i else 0)) 0

/-- A flit of a type with its payload padded with zero (R56). -/
def mkFlit (typ seq ack crd : Nat) (body : List Byte) : List Byte :=
  let b := toBytes 4 (seq % 4096 * 2 ^ 20 + ack % 4096 * 2 ^ 8 + typ % 16 * 2 ^ 4 + crd % 16) ++ sliceBytes body 0 248
  b ++ toBytes 4 (crc32c b).toNat

/-- A flit leaves: it takes the next sequence number, returns what credits it can, and enters the replay buffer (R56, R57). Idle flits take
sequence numbers too (assumption 13). -/
def Link.emit (l : Link) (typ : Nat) (body : List Byte) : List Byte × Link :=
  let f := mkFlit typ l.next (l.expect + 4095) l.crd body
  (f, { l with buf := l.buf ++ [(l.next, f)], next := (l.next + 1) % 4096
               owed := l.owed.map fun n => if 8 ≤ n then n - 8 else n })

/-- The flits of a message's bytes, in order. -/
def Link.transmit (l : Link) (bs : List Byte) : List (List Byte) × Link :=
  (List.range (cdiv bs.length 248)).foldl (fun r i =>
    let (f, l) := r.2.emit 1 (sliceBytes bs (248 * i) 248)
    (r.1 ++ [f], l)) ([], l)

/-- A message is handed to the link of its route, where it waits its turn on its virtual channel, in a queue of its own when it is
relayed (R58, R61); the outside sees it (assumption 3). -/
def State.send (s : State) (m : Msg) (relayed : Bool := false) : State :=
  let s := { s with outbox := s.outbox ++ [Sent.msg m] }
  match s.route (mDst m) with
  | some n =>
    let l := s.link n
    s.setLink n { l with queues := modifyAt (· ++ [m]) l.queues (vcOf m.op + if relayed then 4 else 0) }
  | none => s

/-- The queue whose first message can leave: the replay buffer of 64 flits has room and its virtual channel has the credits; relayed
messages before this device's own, responses before requests (R57, R58; assumption 13). -/
def Link.ready (l : Link) : Option Nat :=
  [7, 6, 5, 4, 3, 2, 1, 0].find? fun q =>
    match l.queues.getD q [] with
    | [] => false
    | m :: _ => decide (l.buf.length + cdiv (msgBytes m).length 248 ≤ 64) && decide (msgUnits m ≤ l.credits.getD (q % 4) 0)

/-- A link that is up sends what it can (R55 to R58); fuel bounds the messages. -/
def State.pump : Nat → Nat → State → State
  | 0, _, s => s
  | f + 1, n, s =>
    let l := s.link n
    match if l.up then l.ready else none with
    | none => s
    | some q =>
      match l.queues.getD q [] with
      | [] => s
      | m :: rest =>
        let (fs, l') := { l with queues := modifyAt (fun _ => rest) l.queues q
                                 credits := modifyAt (· - msgUnits m) l.credits (q % 4) }.transmit (msgBytes m)
        State.pump f n { s.setLink n l' with outbox := s.outbox ++ fs.map (Sent.flit n) }

/-- Every link sends what it can. -/
def State.pumpAll (s : State) : State :=
  s.links.foldl (fun t e => t.pump ((e.2.queues.map List.length).foldl (· + ·) 0) e.1) s

/-- A message from this device about a grain of n bytes. -/
def State.sendTo (s : State) (op dst n tx req : Nat) (dirty : Bool) (grain : Nat) (data : List Byte) : State :=
  s.send ⟨mHdr op s.own dst (grainCode n) tx req dirty 0 grain, data⟩

/-- A message that cannot be right: the record COH-PROTO (R68), with the header's upper word; the unit that reports is the home slice of the
message's address, ENGINE 1 (assumption 13). -/
def State.cohProto (s : State) (m : Msg) : State :=
  s.report { ErrRec.mk0 0x11 m.op 1 (s.sliceOf (32 * mAddr m)) 0 with
    dpa := some (32 * mAddr m), info0 := m.hdr.extractLsb' 64 64 }

end Sys2Proof.Machine
end

