-- ==== Sys2Proof/Machine/Home.lean ====
section
/-! DEFINITION. The point of coherence: the state of a grain, home transactions, requests to remote homes, and page migration
(R63 to R80). A sector is named by its DPA divided by 32, a grain by its first sector. -/
namespace Sys2Proof.Machine

/-! ## The state of a grain at its home (R39, R63, R65) -/

def stI : Nat := 0
def stS : Nat := 1
def stE : Nat := 2
def stO : Nat := 3
def stM : Nat := 4
def stMIG : Nat := 5
def stPOISON : Nat := 6

/-- The fields of a coherence byte, and for POISON the trap code that an access takes. -/
structure GState where
  st   : Nat
  own  : Nat
  rsh  : Bool
  code : Nat
deriving DecidableEq, Repr

/-- A coherence byte from its fields (R39). -/
def cohByte (st own : Nat) (rsh : Bool) : Byte := BitVec.ofNat 8 (rsh.toNat * 128 + own % 8 * 8 + st % 8)

/-- The sectors of a grain. -/
def grainKeys (g n : Nat) : List Nat := (List.range (n / 32)).map (g + ·)

/-- The sector within this device's memory. -/
def homeSec (k : Nat) : Nat := k % 2 ^ 33

/-- The home device of a sector (R60). -/
def homeDev (k : Nat) : Nat := k / 2 ^ 33

/-- A sector at its home: the L2 copy where one exists, memory otherwise (R63). -/
def State.peek (s : State) (k n : Nat) (ctx : Option Word) : Except Nat (List Byte × Byte) × State :=
  match Store.look s.l2 k with
  | some e => (.ok (e.data, e.coh), s)
  | none => s.readSector (homeSec k) n ctx

/-- The coherence byte of a grain written in its state-holding sector (R39). -/
def State.setCoh (s : State) (g : Nat) (b : Byte) : State :=
  match Store.look s.l2 g with
  | some e => { s with l2 := Store.insert s.l2 g { e with coh := b, dirty := true } }
  | none => s.writeSector (homeSec g) ((s.sector (homeSec g)).take 32) b

/-- Owner fields that name an absent device are fixed before the transaction (R75). -/
def State.fixOwner (s : State) (g : Nat) (x : GState) : GState × State :=
  if x.st < 1 ∨ 4 < x.st ∨ s.isPresent x.own then (x, s)
  else if x.st = stS then
    if x.rsh then (x, s) else (⟨stI, 0, false, 0⟩, s.setCoh g 0)
  else
    let lost := s.coh.lost.toNat.testBit x.own
    let s := (s.setCoh g 6).report { ErrRec.mk0 (if lost then 0x12 else 0x11) (if lost then x.own else 0) 1 (s.sliceOf (32 * g)) 4 with
      dpa := some (32 * g) }
    (⟨stPOISON, 0, false, cECC⟩, s)

/-- The state of a grain of n bytes at this home (R39, R75). -/
def State.gstate (s : State) (g n : Nat) (ctx : Option Word) : GState × State :=
  match s.peek g n ctx with
  | (.error c, s) => (⟨stPOISON, 0, false, c⟩, s)
  | (.ok (_, b), s) =>
    let x := b.toNat
    if badCoh b then (⟨stPOISON, 0, false, cECC⟩, s.cohRecord (homeSec g) b (32 * g) ctx)
    else if x % 8 = 6 then (⟨stPOISON, 0, false, cECC⟩, s)
    else s.fixOwner g ⟨x % 8, bits x 5 3, x.testBit 7, 0⟩

/-- The state of a grain for a write of a full sector, which reads nothing: where the state-holding sector reads uncorrectable, the
grain is in POISON if its stored byte says so, and else in HOME-I (R45; assumption 17). -/
def State.gstateFull (s : State) (g n : Nat) (ctx : Option Word) : GState × State :=
  match Store.look s.l2 g, readOutcome (homeSec g) (s.sector (homeSec g)) with
  | none, .error _ =>
    (⟨if ((s.sector (homeSec g)).getD 32 0).toNat % 8 = stPOISON then stPOISON else stI, 0, false, cECC⟩, s)
  | _, _ => s.gstate g n ctx

/-- The home drops its own copies, dirty data to memory first (R70). -/
def State.dropOwn (s : State) (g n : Nat) : State :=
  (grainKeys g n).foldl (fun s k =>
    match Store.look s.l2 k with
    | some e =>
      let s := if e.dirty then s.writeSector (homeSec k) e.data e.coh else s
      { s with l2 := Store.erase s.l2 k }
    | none => s) s

/-- Home data of a whole grain, or the trap code of a sector that reads uncorrectable. -/
def State.grainData (s : State) (g n : Nat) (ctx : Option Word) : Except Nat (List Byte) × State :=
  (grainKeys g n).foldl (fun (r : Except Nat (List Byte) × State) k =>
    match r with
    | (.error c, s) => (.error c, s)
    | (.ok d, s) =>
      match s.peek k n ctx with
      | (.ok (x, _), s) => (.ok (d ++ x), s)
      | (.error c, s) => (.error c, s)) (.ok [], s)

/-- A whole grain written at its home: it stands in the home's L2. -/
def State.putGrain (s : State) (g n : Nat) (data : List Byte) (coh : Byte) : State :=
  (grainKeys g n).foldl (fun s k =>
    let e : L2Sec := { data := sliceBytes data (32 * (k - g)) 32, coh := if k = g then coh else 0, dirty := true, rst := .home }
    { s with l2 := Store.insert s.l2 k e }) s

/-- Data that an owner sent for reads of this home are no longer the grain's (R71). -/
def State.dropServed (s : State) (g : Nat) : State :=
  { s with coh := { s.coh with served := s.coh.served.filter fun e => e.1 != g } }

/-! ## Redirection (R79) -/

/-- Bytes of the page of a migration (R80). -/
def pageBytes (size : Nat) : Nat := if size = 0 then 4096 else if size = 1 then 65536 else 2097152

/-- The first sector of the source and of the destination of the migration (R80). -/
def State.migSrc (s : State) : Nat := s.coh.migFrom

def State.migDst (s : State) : Nat := s.coh.migTo

/-- A migration or its redirection is active. -/
def State.migActive (s : State) : Bool := s.coh.migOn

/-- The sector to which a released sector of the migrating page is redirected (R79). -/
def State.redirected (s : State) (k : Nat) : Option Nat :=
  let sk := s.migSrc
  if s.migActive ∧ sk ≤ k ∧ k - sk < s.coh.migCopied * (s.coh.migSize / 32) then some (s.migDst + (k - sk)) else none

/-! ## Transactions at the home (R64, R70, R71) -/

def State.txOpen (s : State) (g : Nat) : Bool := s.coh.txs.any fun t => t.grain == g

def State.pushTx (s : State) (t : HomeTx) : State := { s with coh := { s.coh with txs := s.coh.txs ++ [{ t with since := s.rtc.toNat }] } }

/-- Device d has a request waiting or open at this home, or owes it an acknowledgement (R74). -/
def State.busyWith (s : State) (d : Nat) : Bool :=
  (s.coh.waiting.any fun m => m.op != mtLEAVE && mReq m == d)
    || s.coh.txs.any fun t => t.acks.toNat.testBit d || t.owner == some d || match t.req with
      | .remote m => mReq m == d
      | _ => false

/-- A LEAVE that waited for its device's earlier messages is taken up (R74). -/
def State.wakeLeave (s : State) : State :=
  match s.coh.waiting.find? fun m => m.op == mtLEAVE && !s.busyWith (mSrc m) with
  | some m => { s with coh := { s.coh with waiting := s.coh.waiting.erase m }, agenda := s.agenda ++ [.message m] }
  | none => s

/-- The first request waiting for a grain is taken up again (R64), or a LEAVE that nothing holds any more. -/
def State.wake (s : State) (g : Nat) : State :=
  if s.txOpen g then s
  else
    match s.coh.waiting.find? fun m => m.op != mtLEAVE && mGrain m == g with
    | some m => { s with coh := { s.coh with waiting := s.coh.waiting.erase m }, agenda := .message m :: s.agenda }
    | none => s.wakeLeave

/-- INV to each device of a list (R70). -/
def State.sendInvs (s : State) (l : List Nat) (n tx req g : Nat) : State :=
  l.foldl (fun s d => s.sendTo mtINV d n tx req false g []) s

/-- The devices whose copies an invalidation reaches, other than r (R70). -/
def State.invTargets (s : State) (x : GState) (r : Nat) : List Nat :=
  if x.rsh then s.peers.filter (· != r)
  else if x.st = stS ∧ x.own ≠ r ∧ s.isPresent x.own then [x.own] else []

/-- A home write brings a grain to HOME-I (R71); true when it stands there, else a transaction is open. -/
def State.openWrite (s : State) (g n : Nat) (x : GState) (req : Requester) (tx : Nat) : Bool × State :=
  if x.st = stI then (true, s)
  else
    let inv := s.invTargets x s.own
    if x.st = stS then
      if inv.isEmpty then (true, s.setCoh g 0)
      else (false, (s.sendInvs inv n tx s.own g).pushTx ⟨g, n, req, tx, devMask inv, none, false, x.own, x.rsh, false, 0, false⟩)
    else
      (false, ((s.sendTo mtRCL x.own n tx s.own false g []).sendInvs inv n tx s.own g).pushTx
        ⟨g, n, req, tx, devMask inv, some x.own, true, x.own, x.rsh, false, 0, false⟩)

/-- A home read of a grain that a remote owner holds (R71). -/
def State.openRead (s : State) (g n : Nat) (x : GState) (tx : Nat) : State :=
  (s.sendTo mtFWDS x.own n tx s.own false g []).pushTx ⟨g, n, .own false, tx, 0, some x.own, true, x.own, x.rsh, false, 0, false⟩

/-- A transaction identifier for the home's own use. -/
def State.freshTx (s : State) : Nat × State :=
  (s.coh.nextTx, { s with coh := { s.coh with nextTx := (s.coh.nextTx + 1) % 4096 } })

/-! ## Requests to remote homes (R64, R70) -/

/-- Sixteen requests to the home slice of a grain are outstanding (R64). -/
def State.sliceFull (s : State) (g : Nat) : Bool :=
  decide (16 ≤ (s.coh.outs.filter fun o =>
    homeDev o.grain == homeDev g && s.sliceOf (32 * o.grain) == s.sliceOf (32 * g)).length)

/-- The message of an outstanding request (R69): DIRTY announces poison in a WB or a WRH (R73, R78). -/
def State.outMsg (s : State) (o : OutReq) : Msg :=
  ⟨mHdr o.mtype s.own (homeDev o.grain) (grainCode o.gsize) o.txid s.own o.bad o.ticket o.grain,
    if o.mtype = mtCLN then [] else o.data⟩

/-- A request to a grain's remote home, when fewer than 16 to its slice are outstanding and the device is a member (R64, R74). -/
def State.request (s : State) (op g n : Nat) (tag : List Nat) (data : List Byte) (bad : Bool := false) : State :=
  let wb := op == mtWB || op == mtCLN
  let dup := s.coh.outs.any fun o => o.grain == g && (op != mtATOM || o.tag == tag)
  if dup ∨ s.sliceFull g ∨ (s.coh.mst ≠ 0 ∧ ¬ wb) then s
  else
    let (tx, s) := s.freshTx
    let o : OutReq := { txid := tx, grain := g, gsize := n, mtype := op, data := data, tag := tag, retries := 0, ticket := 0
                        waiting := false, gotData := none, gotDone := false, live := wb, since := s.rtc.toNat, bad := bad }
    let s := { s with coh := { s.coh with outs := s.coh.outs ++ [o] } }
    s.send (s.outMsg o)

/-- Every sector of a grain leaves L2 without a write. -/
def State.forget (s : State) (g n : Nat) : State :=
  { s with l2 := s.l2.filter fun e => !(decide (g ≤ e.1) && decide (e.1 < g + n / 32)) }

/-- A remote grain enters L2 under a grant (R65). -/
def State.grant (s : State) (g n : Nat) (data : List Byte) (r : RSt) : State :=
  (grainKeys g n).foldl (fun s k =>
    let e : L2Sec := { data := sliceBytes data (32 * (k - g)) 32, coh := 0, dirty := false, rst := r, gr := n }
    { s with l2 := Store.insert s.l2 k e }) s

/-- The local state of a remote grain, by its first sector. -/
def State.remoteSt (s : State) (g : Nat) : RSt := ((Store.look s.l2 g).map (·.rst)).getD .home

/-- The data of a remote grain held in L2. -/
def State.heldData (s : State) (g n : Nat) : List Byte :=
  (grainKeys g n).flatMap fun k => ((Store.look s.l2 k).map (·.data)).getD (List.replicate 32 0)

/-- WB or CLN of a remote grain, which leaves L2 when the request could be made. -/
def State.giveBack (s : State) (op g n : Nat) (dirty lost : Bool) : State :=
  let t := s.request op g n [] (if lost then List.replicate n 0 else s.heldData g n) lost
  if t.coh.outs.length = s.coh.outs.length then s
  else
    let mark (o : OutReq) : OutReq := if o.grain = g then { o with dirty := dirty } else o
    { t with coh := { t.coh with outs := t.coh.outs.map mark } }.forget g n

/-- A remote grain leaves L2: S silently, E and M clean with CLN, else with WB; the write-back buffer keeps it (R70, R72). One whose
dirty data were lost goes as a WB of zeros with DIRTY (R73). Nothing happens while a request for the grain is outstanding, or 16 are to
its slice. -/
def State.evictRemote (s : State) (g n : Nat) (lost : Bool := false) : State :=
  let dirty := (grainKeys g n).any fun k => ((Store.look s.l2 k).map (·.dirty)).getD false
  match s.remoteSt g with
  | .home => s
  | .s => s.forget g n
  | .o => s.giveBack mtWB g n true lost
  | _ => s.giveBack (if dirty then mtWB else mtCLN) g n dirty (lost && dirty)

/-! ## Page migration (R78) -/

/-- The next grain of the source is recalled: true when it stands in MIG or POISON. -/
def State.migRecall (s : State) : Bool × State :=
  let n := s.coh.migSize
  let g := s.migSrc + s.coh.migRecalled * (n / 32)
  if s.txOpen g then (false, s)
  else
    let (x, s) := s.gstate g n none
    if x.st = stPOISON then
      (true, { s with coh := { s.coh with migRecalled := s.coh.migRecalled + 1, migBad := true } })
    else
      let (tx, s) := s.freshTx
      match s.openWrite g n x .migrate tx with
      | (true, s) => (true, { s.setCoh g 5 with coh := { s.coh with migRecalled := s.coh.migRecalled + 1 } })
      | (false, s) => (false, s)

/-- A grain is released: redirected from now on, and its waiting requests pass on (R79). -/
def State.migRelease1 (s : State) (g : Nat) : State :=
  ({ s with coh := { s.coh with migCopied := s.coh.migCopied + 1 } }).wake g

/-- The next grain is written at the destination home: true when it is done (R78). -/
def State.migCopy1 (s : State) : Bool × State :=
  let n := s.coh.migSize
  let g := s.migSrc + s.coh.migCopied * (n / 32)
  let d := s.migDst + s.coh.migCopied * (n / 32)
  let (x, s) := s.gstate g n none
  let (data, s) := if x.st = stPOISON then (.error 0, s) else s.grainData g n none
  let (bad, bytes) := match data with
    | .ok b => (false, b)
    | .error _ => (true, List.replicate n 0)
  let s := { s with coh := { s.coh with migBad := s.coh.migBad || bad } }
  if !s.isPresent (homeDev d) then (true, { s with coh := { s.coh with migBad := true } }.migRelease1 g)
  else if homeDev d = s.own then
    if s.txOpen d then (false, s)
    else
      let (y, s) := s.gstate d n none
      if y.st = stPOISON then (true, s.migRelease1 g)
      else
        let (tx, s) := s.freshTx
        match s.openWrite d n y .migrate tx with
        | (true, s) =>
          let s := if bad then s.poison (homeSec d) n else s.putGrain d n bytes 0
          (true, s.migRelease1 g)
        | (false, s) => (false, s)
  else (false, s.request mtWRH d n [] bytes bad)

/-- The migration engine runs as far as it can (R78): it waits where another transaction holds a grain, and for the DONE of each WRH. -/
def State.migRun : Nat → State → State
  | 0, s => s
  | f + 1, s =>
    let total := s.coh.migPage / s.coh.migSize
    if !s.coh.smigBusy then s
    else if s.coh.migRecalled < total then
      match s.migRecall with
      | (true, s) => State.migRun f s
      | (false, s) => s
    else if s.coh.migCopied < total then
      if s.coh.outs.any fun o => o.mtype == mtWRH then s
      else
        match s.migCopy1 with
        | (true, s) => State.migRun f s
        | (false, s) => s
    else { s with coh := { s.coh with smigBusy := false, smigSt := if s.coh.migBad then 5 else 2 } }

/-- Steps enough for two passes over the page. -/
def State.migSteps (s : State) : Nat := 2 * (s.coh.migPage / s.coh.migSize) + 2

/-! ## The end of a home transaction -/

/-- POISONED goes to the remote requester of a transaction (R72). -/
def State.poisonRequester (s : State) (t : HomeTx) : State :=
  match t.req with
  | .remote m => s.sendTo mtPOISONED (mReq m) t.gsize (mTx m) 0 false t.grain []
  | _ => s

/-- A transaction with nothing more to await ends: the coherence byte is written and the requester told (R70, R71). -/
def State.closeTx (s : State) (t : HomeTx) (after : Byte) : State :=
  let s := { s with coh := { s.coh with txs := s.coh.txs.erase t } }
  let s := s.setCoh t.grain after
  match t.req with
  | .remote m =>
    if t.bad then (s.poisonRequester t).wake t.grain
    else if m.op == mtRDS then s.wake t.grain
    else if m.op == mtRDX then (s.sendTo mtDONE (mReq m) t.gsize (mTx m) 0 false t.grain []).wake t.grain
    else { s with agenda := .message m :: s.agenda }
  | .own _ => s.wake t.grain
  | .migrate => s.migRun s.migSteps

/-- The coherence byte after a transaction whose last answer has come (R70, R71), POISON when its owner could not supply the grain (R72). -/
def HomeTx.after (t : HomeTx) : Byte :=
  if t.bad then 6 else
  match t.req with
  | .remote m =>
    if m.op == mtRDS then cohByte (if t.dirty then stO else stS) t.own true
    else if m.op == mtRDX then cohByte stM (mReq m) false
    else 0
  | .own false => cohByte (if t.dirty then stO else stS) t.own t.rsh
  | _ => 0

/-- A transaction's record is replaced, or the transaction closes when nothing is awaited any more. -/
def State.advanceTx (s : State) (t t' : HomeTx) : State :=
  if t'.acks = 0 ∧ t'.owner = none ∧ ¬ t'.data then
    let s := { s with coh := { s.coh with txs := s.coh.txs.map fun x => if x == t then t' else x } }
    s.closeTx t' t'.after
  else { s with coh := { s.coh with txs := s.coh.txs.map fun x => if x == t then t' else x } }

/-- The owner of a grain cannot supply it: the grain becomes POISON when the acknowledgements that are still awaited have come
(R72, R76). -/
def State.failTx (s : State) (t : HomeTx) : State := s.advanceTx t { t with owner := none, data := false, bad := true }

end Sys2Proof.Machine
end

