-- ==== Sys2Proof/Machine/Access.lean ====
section
/-! DEFINITION. The memory path of an access: translation, the home or local L2, the first-level cache, DET ownership, release and
acquire, and the scratchpad (R193 to R210, R213 to R225, R309, R310). -/
namespace Sys2Proof.Machine

/-- Why an access does not complete: a trap cause, or it waits for a coherence transaction. -/
inductive Stop where
  | trap (c : Cause)
  | wait
deriving DecidableEq, Repr

/-- An access: it changes the state whether it completes, faults or waits. -/
abbrev Mem (α : Type) := ExceptT Stop (StateM State) α

/-- An access run on a state. -/
def Mem.on {α : Type} (m : Mem α) (s : State) : Except Stop α × State := m s

/-- A state function with a result as an access. -/
def Mem.of {α : Type} (f : State → α × State) : Mem α := fun s => let (a, s) := f s; (.ok a, s)

def Mem.mod (f : State → State) : Mem Unit := fun s => (.ok (), f s)

/-- A trap with code and sub-cause; the address and the access kind are the accessor's (R286). -/
def Mem.trap {α : Type} (code sub lvl : Nat) (addr : Nat) : Mem α :=
  throw (.trap ⟨code, sub, BitVec.ofNat 64 addr, 0, lvl, false⟩)

/-- On whose behalf an access is made: its context, privilege, core, the DET launch and block it belongs to, the PC, the unit and
its instance for an ADDR-RANGE record (R98), and the tag of its requests to remote homes. -/
structure Who where
  ctx  : Word
  priv : Bool
  core : Nat
  det  : Option (Nat × Nat)
  pc   : DWord
  tag  : List Nat
  /-- The access belongs to no context: the host's, or the device's own (R98). -/
  anon : Bool := false
  /-- The address space of a card or a graph, whose addresses are not those of its context's ATB (R99, R116). -/
  asn  : Option Nat := none
deriving DecidableEq, Repr

/-- The address space of an access (R99, R203). -/
def State.asnFor (s : State) (w : Who) : Nat := w.asn.getD (bits (s.cx w.ctx).atb.toNat 63 48)

/-- The context that an error record names (R98). -/
def Who.ctx? (w : Who) : Option Word := if w.anon then none else some w.ctx

/-! ## Deterministic execution (R308 to R310) -/

/-- An event of DETC in the context (R308). -/
def State.detEvent (s : State) (ctx : Word) (n : Nat) (pc : DWord) : State :=
  s.modCx ctx fun x =>
    let e := x.detce.getD n 0
    let c := min 0xFFFF (bits e.toNat 63 48 + 1)
    let p := if x.detc.getLsbD n then bits e.toNat 47 0 else bits pc.toNat 47 0
    { x with detc := x.detc ||| (1 <<< n), detce := modifyAt (fun _ => BitVec.ofNat 64 (c * 2 ^ 48 + p)) x.detce n }

/-- An event of DETC when the access belongs to a DET launch. -/
def Who.det! (w : Who) (n : Nat) : Mem Unit := Mem.mod fun s => if w.det.isSome then s.detEvent w.ctx n w.pc else s

/-- An access that may wait, with an event that it counts once: at its first try, and not again until it has ended (R308, R315). -/
def Mem.counting {α : Type} (w : Who) (kind at_ : Nat) (due : Bool) (count : State → State) (m : Mem α) : Mem α := fun s =>
  let key := (w.tag, kind, at_)
  let s := if !due || s.counted.contains key then s else { count s with counted := key :: s.counted }
  match m s with
  | (.error .wait, s) => (.error .wait, s)
  | (r, s) => (r, { s with counted := s.counted.erase key })

/-- The key of a DET line: launch and line (R309). -/
def detKey (task dpa : Nat) : Nat := 2 ^ 40 * task + dpa / 128

def DetLine.empty (b : Nat) : DetLine := { gr := 32, owner := b, shared := false, readers := [], bufs := [] }

/-- The line as block b's access finds it: created private at the first, shared from a second block on (R309). -/
def State.detTouch (s : State) (task b dpa : Nat) : DetLine :=
  match Store.look s.det (detKey task dpa) with
  | none => DetLine.empty b
  | some l => if l.owner = b then l else { l with shared := true }

/-- The buffered bytes of a block: mask and data. -/
def DetLine.buf (l : DetLine) (b : Nat) : BitVec 128 × List Byte :=
  match l.bufs.find? fun e => e.1 == b with
  | some (_, m, d) => (m, d)
  | none => (0, List.replicate 128 0)

/-- Bytes at an offset of a line, overlaid with the block's buffer (R310). -/
def DetLine.overlay (l : DetLine) (b off : Nat) (mem : List Byte) : List Byte :=
  let (m, d) := l.buf b
  mem.mapIdx fun i x => if m.getLsbD (off + i) then d.getD (off + i) 0 else x

/-- Bytes buffered by a block; a line that a higher block has read records event 8 (R310). -/
def State.detWrite (s : State) (w : Who) (task b dpa gr : Nat) (bytes : List Byte) : State :=
  let l := s.detTouch task b dpa
  let off := dpa % 128
  let (m, d) := l.buf b
  let m' := (List.range bytes.length).foldl (fun (m : BitVec 128) i => m ||| (1#128 <<< (off + i))) m
  let l' := { l with gr := gr, bufs := l.bufs.filter (fun e => e.1 != b) ++ [(b, m', patchBytes d off bytes)] }
  let s := { s with det := Store.insert s.det (detKey task dpa) l' }
  if l.readers.any fun r => decide (b < r) then s.detEvent w.ctx 8 w.pc else s

/-- A block's read of a line: none while it must wait for lower blocks, else the line, with the reader noted (R310). -/
def State.detRead (s : State) (task b dpa : Nat) : Option DetLine × State :=
  let l := s.detTouch task b dpa
  let commits := ((s.task task).map (·.commits)).getD 0
  if l.shared ∧ commits < b then
    (none, { s with det := Store.insert s.det (detKey task dpa) l })
  else
    let l' := { l with readers := if l.readers.contains b then l.readers else b :: l.readers }
    (some l', { s with det := Store.insert s.det (detKey task dpa) l' })

/-! ## L2: the home slice, and the local copies of remote grains (R65, R71, R198) -/

/-- A DPA that is absent or beyond installed memory (R36, R60). -/
def State.outOfRange (s : State) (dpa : Nat) : Bool :=
  let d := dpa / 2 ^ 38
  !s.isPresent d || (d == s.own && decide (s.installed ≤ dpa % 2 ^ 38))

/-- The grain holding a sector is in MIG, or its page is redirected (R79). -/
def State.migrating (s : State) (k n : Nat) : Bool :=
  (s.redirected k).isSome
    || (homeDev k == s.own && !s.txOpen (holder k n) && (s.gstate (holder k n) n none).1.st == stMIG)

/-- The device behind an address is lost, and a request of this accessor waited on it: the access ends with ECC (R76). -/
def State.lostTo (s : State) (w : Who) (dpa : Nat) : Bool :=
  !s.isPresent (dpa / 2 ^ 38) && s.coh.answers.any fun a => a.tag == w.tag && a.value == none && homeDev a.grain == dpa / 2 ^ 38

/-- A DPA that the access is refused: one out of range, but for a lost device's on which it waited. -/
def State.refused (s : State) (w : Who) (dpa : Nat) : Bool := s.outOfRange dpa && !s.lostTo w dpa

/-- An answer to a request of a home's own read serves the accesses of one step (R71): it is used now, or has been used before. -/
def usableNow (s : State) (used : Option Nat) : Bool := used == none || used == some s.tick

/-- The access at a grain's home (R70, R71); `full` for a write of a full sector, which reads nothing (R45). -/
def reachHome (w : Who) (k n : Nat) (write full : Bool) : Mem (Except Nat Nat) := do
  let g := holder k n
  let s ← get
  if s.txOpen g then throw .wait
  let x ← Mem.of fun s => if full then s.gstateFull g n w.ctx? else s.gstate g n w.ctx?
  if x.st = stPOISON then return .error x.code
  if x.st = stMIG then throw .wait
  if write then
    let tx ← Mem.of State.freshTx
    let ready ← Mem.of fun s => s.openWrite g n x (.own true) tx
    if !ready then throw .wait
    Mem.mod fun s => s.dropServed g
    return .ok k
  else if x.st = stI ∨ x.st = stS then
    let s ← get
    if s.coh.served.any fun e => e.1 == g then Mem.mod fun s => s.dropServed g
    return .ok k
  else
    let s ← get
    match s.coh.served.find? fun e => e.1 == g with
    | some e =>
      if usableNow s e.2.2 then
        Mem.mod fun s => { s with coh := { s.coh with served := (g, e.2.1, some s.tick) :: (s.dropServed g).coh.served } }
        return .ok k
    | none => pure ()
    Mem.mod fun s => s.dropServed g
    let tx ← Mem.of State.freshTx
    Mem.mod fun s => s.openRead g n x tx
    throw .wait

/-- The access to a remote grain in the local L2 under the first sector g', which answers for g (R65, R70). -/
def reachCopy (w : Who) (k g g' n : Nat) (write : Bool) : Mem (Except Nat Nat) := do
  let s ← get
  let k' := g' + (k - g)
  match s.remoteSt g', write with
  | .m, _ => return .ok k'
  | .e, true =>
    Mem.mod fun s => { s with l2 := s.l2.map fun e =>
      if g' ≤ e.1 ∧ e.1 < g' + n / 32 then (e.1, { e.2 with rst := .m }) else e }
    return .ok k'
  | .e, false | .s, false | .o, false => return .ok k'
  | _, true => do Mem.mod fun s => s.request mtRDX g' n w.tag []; throw .wait
  | .home, false => do Mem.mod fun s => s.request mtRDS g' n w.tag []; throw .wait

/-- The access to a grain of another home: an answer POISONED ends it with ECC (R73), and so does the loss of the home (R76). A
redirected answer serves the accesses of one step; after that the copy is given up and the home asked again, so that a stale translation
meets the cleared page once the redirection has ended (R79; assumption 16). -/
def reachRemote (w : Who) (k n : Nat) (write : Bool) : Mem (Except Nat Nat) := do
  let g := holder k n
  let s ← get
  match s.coh.answers.find? fun a => a.tag == w.tag && a.value == none && (a.grain == g || s.lostTo w (32 * k)) with
  | some a =>
    Mem.mod fun s => { s with coh := { s.coh with answers := s.coh.answers.erase a } }
    return .error cECC
  | none =>
    match s.coh.moved.find? fun e => e.1 == g with
    | none => reachCopy w k g g n write
    | some e =>
      let g' := e.2.1
      let forgotten (s : State) : Coh := { s.coh with moved := s.coh.moved.filter fun e => e.1 != g }
      if s.remoteSt g' = .home then
        if s.coh.outs.any fun o => o.grain == g' then throw .wait
        Mem.mod fun s => { s with coh := forgotten s }
        reachCopy w k g g n write
      else if usableNow s e.2.2 then
        Mem.mod fun s => { s with coh := { s.coh with moved := (g, g', some s.tick) :: (forgotten s).moved } }
        reachCopy w k g g' n write
      else
        Mem.mod fun s => s.evictRemote g' n
        throw .wait

/-- Whether the grain holding a sector is readable, or writable, here: it waits while a transaction is open, and gives the sector
at which the access is performed, or the code of POISON. -/
def reachAt (w : Who) (k n : Nat) (write full : Bool) : Mem (Except Nat Nat) := do
  let s ← get
  let k := (s.redirected k).getD k
  if homeDev k = s.own then reachHome w k n write full else reachRemote w k n write

/-- The same for an access, whose event 5 of DETC is recorded once (R308); not for what only goes on with an access, or for a
write-back. -/
def reach (w : Who) (k n : Nat) (write : Bool) (note : Bool := true) (full : Bool := false) : Mem (Except Nat Nat) := do
  let s ← get
  Mem.counting w 5 k (note && w.det.isSome && s.migrating k n) (fun s => s.detEvent w.ctx 5 w.pc) (reachAt w k n write full)

/-- The bytes of a sector at L2, read into it on a home miss; or the code ECC or TAG. -/
def l2Sector (w : Who) (k n : Nat) (note : Bool := true) : Mem (Except Nat (List Byte)) := do
  match ← reach w k n false note with
  | .error c => return .error c
  | .ok k =>
    let s ← get
    match s.coh.served.find? fun e => e.1 == holder k n with
    | some e => return .ok (sliceBytes e.2.1 (32 * (k - holder k n)) 32)
    | none =>
      match Store.look s.l2 k with
      | some e => return .ok e.data
      | none =>
        match ← Mem.of fun s => s.readSector (homeSec k) n w.ctx? with
        | .error c => return .error c
        | .ok (d, c) =>
          Mem.mod fun s => { s with l2 := Store.insert s.l2 k { data := d, coh := c, dirty := false, rst := .home, gr := n } }
          return .ok d

/-- Bytes within one sector read at L2 (R44): POISON and uncorrectable sectors trap at the address. -/
def l2Read (w : Who) (dpa n gr va : Nat) (note : Bool := true) : Mem (List Byte) := do
  match ← l2Sector w (dpa / 32) gr note with
  | .ok d => return sliceBytes d (dpa % 32) n
  | .error c => Mem.trap c 0 0 va

/-- A discarded write to a POISON grain (R45). -/
def State.discarded (s : State) (dpa : Nat) (ctx : Option Word) : State :=
  s.report { ErrRec.mk0 2 (subOf dpa) 0 (s.chanOf (dpa % 2 ^ 38)) 0 with ctx := ctx, dpa := some dpa }

/-- A full-sector write reads nothing: where it meets an uncorrectable state-holding sector that is not POISON, the bytes replace it
under the coherence byte as stored (R45; assumption 17). -/
def State.overwritten (s : State) (k gr mask : Nat) (data : List Byte) : State :=
  if mask = 2 ^ 32 - 1 ∧ k = holder k gr ∧ homeDev k = s.own ∧ Store.look s.l2 k = none then
    let w := s.sector (homeSec k)
    match readOutcome (homeSec k) w with
    | .ok _ => s
    | .error _ => if (w.getD 32 0).toNat % 8 = stPOISON then s else s.writeSector (homeSec k) data (w.getD 32 0)
  else s

/-- A sector that a full-sector write enters in L2 without reading its data: the coherence byte of a state-holding sector stays. -/
def State.blankSector (s : State) (k gr : Nat) : L2Sec :=
  let c := if k = holder k gr then (match (s.peek k gr none).1 with | .ok (_, c) => c | .error _ => 0) else 0
  { data := List.replicate 32 0, coh := c, dirty := true, rst := .home, gr := gr }

/-- The bytes of a mask written to the sector of dpa at L2 (R45, R198): a write to a POISON grain is discarded, with a record where
this device is its home; a remote home's POISONED has brought its record (R73). -/
def l2Put (w : Who) (dpa gr mask : Nat) (data : List Byte) : Mem Unit := do
  Mem.mod fun s => s.overwritten (dpa / 32) gr mask data
  match ← reach w (dpa / 32) gr true false (decide (mask = 2 ^ 32 - 1)) with
  | .error _ => Mem.mod fun s => if homeDev (dpa / 32) = s.own then s.discarded dpa w.ctx? else s
  | .ok k =>
    let s ← get
    let old ← match Store.look s.l2 k with
      | some e => pure (some e)
      | none =>
        if mask = 2 ^ 32 - 1 then pure (some (s.blankSector k gr))
        else do
          match ← Mem.of fun s => s.readSector (homeSec k) gr w.ctx? with
          | .ok (d, c) => pure (some { data := d, coh := c, dirty := true, rst := .home, gr := gr })
          | .error _ => pure none
    match old with
    | none => pure ()
    | some e =>
      Mem.mod fun s => { s with l2 := Store.insert s.l2 k { e with
        data := mergeBytes mask e.data data, coh := cohFor k gr e.coh, dirty := true, gr := gr } }

/-- The mask of n bytes from an offset of a sector. -/
def maskOf (off n : Nat) : Nat := (2 ^ n - 1) * 2 ^ off

/-- Bytes within one sector written at L2. -/
def l2Write (w : Who) (dpa gr : Nat) (bytes : List Byte) : Mem Unit :=
  l2Put w dpa gr (maskOf (dpa % 32) bytes.length) (patchBytes (List.replicate 32 0) (dpa % 32) bytes)

/-! ## Translation (R203 to R206) -/

/-- A leaf: the DPA of the byte asked for, the bytes left in the page, and its attributes. -/
structure Leaf where
  dpa  : Nat
  left : Nat
  ord  : Nat
  gr   : Nat
  det  : Bool
  prof : Bool
  c    : Bool
  rd   : Bool
  wr   : Bool
  ex   : Bool
  prv  : Bool
deriving DecidableEq, Repr

/-- Bytes of the page of a leaf entry at a level. -/
def leafBytes (lvl : Nat) (e : Nat) : Nat :=
  if lvl = 0 then (if e.testBit 50 then 65536 else 4096) else if lvl = 1 then 2 ^ 21 else 2 ^ 30

/-- The entry is malformed at its level (R204). -/
def malformed (lvl va e : Nat) : Bool :=
  let leaf := e.testBit 51
  decide (bits e 49 41 ≠ 0) || decide (bits e 11 0 ≠ 0)
    || (!leaf && (decide (bits e 62 52 ≠ 0) || e.testBit 50))
    || (leaf && (decide (bits e 62 61 = 3) || decide (bits e 60 59 = 3)))
    || (leaf && lvl == 3) || (!leaf && lvl == 0) || (e.testBit 50 && decide (0 < lvl))
    || (leaf && (if lvl = 0 ∧ e.testBit 50 then decide (bits e 15 12 ≠ bits va 15 12)
                 else decide (bits e 40 12 * 4096 % leafBytes lvl e ≠ 0)))

/-- The leaf that an entry gives for an address. -/
def mkLeaf (lvl va e : Nat) : Leaf :=
  let size := leafBytes lvl e
  let oa := bits e 40 12 * 4096
  let base := if lvl = 0 ∧ e.testBit 50 then oa - bits va 15 12 * 4096 else oa
  { dpa := base + va % size, left := size - va % size, ord := bits e 62 61, gr := grainBytes (bits e 60 59)
    det := e.testBit 58, prof := e.testBit 57, c := e.testBit 56, rd := e.testBit 55, wr := e.testBit 54
    ex := e.testBit 53, prv := e.testBit 52 }

/-- An ADDR-RANGE record of the refusing slice, and XLATE with sub-cause 2 (R36, R205); whether the record names the virtual address is
free (assumption 13). -/
def rangeTrap {α : Type} (w : Who) (dpa lvl va : Nat) : Mem α := do
  Mem.mod fun s =>
    let named := if Config.freeBool s.freeCtr then some (s.asnFor w, va) else none
    s.draw.addrRange 1 (s.sliceOf dpa) dpa w.ctx? named
  Mem.trap cXLATE 2 lvl va

/-- What the cached entry of a level says for an address: a 64 KiB leaf takes the address's bits 15:12 (R204). -/
def TlbE.at (t : TlbE) (va : Nat) : Nat := if t.lvl = 0 ∧ t.e.testBit 50 then t.e + bits va 15 12 * 4096 else t.e

/-- The cached entry covers an address (R207, R208). -/
def TlbE.covers (t : TlbE) (va : Nat) : Bool :=
  if t.lvl = 0 ∧ t.e.testBit 50 then va / 2 ^ 16 == t.page / 16 else va / 2 ^ (12 + 9 * t.lvl) == t.page

/-- The cached form of an entry read at a level. -/
def TlbE.mk' (asn lvl va e : Nat) : TlbE :=
  { asn := asn, lvl := lvl, page := va / 2 ^ (12 + 9 * lvl)
    e := if lvl = 0 ∧ e.testBit 50 then setBits e 12 4 0 else e }

/-- Entries of a level that a TLB or a walker may still hold for an address, other than the one in memory (R207, R208). -/
def State.staleEntries (s : State) (asn lvl va : Nat) (fresh : Option Nat) : List Nat :=
  ((s.tlb.filter fun t => t.asn == asn && t.lvl == lvl && t.covers va).map fun t => t.at va).filter fun e => fresh != some e

/-- The entry of a level: the one in memory, or by a free choice one that a cache still holds (R207, R208; assumption 7). -/
def pickEntry (asn lvl va : Nat) (read : Mem Nat) : Mem Nat := fun s =>
  let (r, s) := read s
  let fresh := match r with
    | .ok e => some e
    | .error _ => none
  match r, s.staleEntries asn lvl va fresh with
  | .error .wait, _ => (.error .wait, s)
  | r, [] => (r, s)
  | r, cs =>
    let k := (Config.freeWord s.freeCtr).toNat % (cs.length + 1)
    if k = 0 then (r, s.draw) else (.ok (cs.getD (k - 1) 0), s.draw)

/-- The walk from the table of a level down (R203 to R205), with the entries it went through; table entries are read with 32-byte
grains (assumption 17). -/
def walkFrom (w : Who) (asn va : Nat) : Nat → Nat → List TlbE → Mem (Leaf × List TlbE)
  | lvl, table, path => do
    let e ← pickEntry asn lvl va do
      let s ← get
      if s.refused w table then rangeTrap w table lvl va
      else
        let x := ofBytes (← l2Read w (table + 8 * bits va (12 + 9 * lvl + 8) (12 + 9 * lvl)) 8 32 va)
        if !x.testBit 63 then Mem.trap cXLATE 0 lvl va
        else if malformed lvl va x then Mem.trap cXLATE 1 lvl va
        else return x
    let path := TlbE.mk' asn lvl va e :: path
    if e.testBit 51 then
      let l := mkLeaf lvl va e
      let s ← get
      if s.refused w l.dpa then rangeTrap w l.dpa lvl va else return (l, path)
    else
      match lvl with
      | 0 => Mem.trap cXLATE 1 0 va
      | n + 1 => walkFrom w asn va n (bits e 40 12 * 4096) path
termination_by structural lvl => lvl

/-- Entries enter the translation caches (R207). -/
def State.cacheEntries (s : State) (path : List TlbE) : State :=
  { s with tlb := path.foldl (fun l e => if l.contains e then l else e :: l) s.tlb }

/-- A leaf that covers an address stands in the translation caches, so that no walk starts (R207, R315). -/
def State.leafCached (s : State) (asn va : Nat) : Bool := s.tlb.any fun t => t.asn == asn && t.e.testBit 51 && t.covers va

/-- Translation of a virtual address in the accessor's context (R203, R207). -/
def walk (w : Who) (va : Nat) : Mem Leaf := do
  if 2 ^ 48 ≤ va then Mem.trap cXLATE 3 0 va
  let s ← get
  let atb := (s.cx w.ctx).atb.toNat
  let asn := s.asnFor w
  let (l, path) ← Mem.counting w 18 (va / 4096) (!s.leafCached asn va) (fun s => s.countDev 18 1)
    (walkFrom w asn va 3 (bits atb 40 12 * 4096) [])
  Mem.mod fun s => s.cacheEntries path
  return l

/-- The translations covering a page of an address space are dropped (R208). -/
def State.tlbDropPage (s : State) (asn va : Nat) : State :=
  { s with tlb := s.tlb.filter fun t => !(t.asn == asn && t.covers va) }

/-- Every translation of an address space is dropped (R208). -/
def State.tlbDropAsn (s : State) (asn : Nat) : State := { s with tlb := s.tlb.filter fun t => t.asn != asn }

/-- The rights that an access needs of a page (R206). -/
structure Need where
  rd : Bool
  wr : Bool
  ex : Bool
deriving DecidableEq, Repr

def Need.load : Need := ⟨true, false, false⟩
def Need.store : Need := ⟨false, true, false⟩
def Need.atomic : Need := ⟨true, true, false⟩
def Need.fetch : Need := ⟨false, false, true⟩
def Need.nothing : Need := ⟨false, false, false⟩

/-- The access kind that TCAUSE.ACC reports (R286). -/
def Need.acc (n : Need) : Nat := if n.ex then 3 else if n.rd && n.wr then 2 else if n.wr then 1 else 0

/-- A byte's translation with its rights checked (R206); an access of a DET launch to an UNORD page is noted (R223). -/
def translate (w : Who) (need : Need) (va : Nat) : Mem Leaf := do
  let l ← walk w va
  if (need.rd && !l.rd) || (need.wr && !l.wr) || (need.ex && !l.ex) || (l.prv && !w.priv) then Mem.trap cPERM 0 0 va
  if l.ord = 2 then w.det! 3
  return l

/-- A trap of an access is given the access kind. -/
def withAcc {α : Type} (acc : Nat) (m : Mem α) : Mem α := fun s =>
  match m s with
  | (.error (.trap c), s) => (.error (.trap { c with acc := acc }), s)
  | r => r

/-- A part of an access: its virtual address, length and leaf. -/
structure Piece where
  va  : Nat
  len : Nat
  leaf : Leaf
deriving DecidableEq, Repr

/-- The parts of an access of n bytes, cut at pages, each translated; fuel bounds the pages. -/
def pieces (w : Who) (need : Need) : Nat → Nat → Nat → Mem (List Piece)
  | 0, _, _ => pure []
  | f + 1, va, n => do
    if n = 0 then return []
    let l ← translate w need va
    let k := min n l.left
    let r ← pieces w need f (va + k) (n - k)
    return ⟨va, k, l⟩ :: r

/-- An address range cut at multiples of m: offsets from the first address with their lengths. -/
def cuts (m : Nat) : Nat → Nat → Nat → List (Nat × Nat)
  | 0, _, _ => []
  | f + 1, a, n => if n = 0 then [] else let k := min n (m - a % m); (a, k) :: cuts m f (a + k) (n - k)

/-! ## First-level cache (R195 to R197) -/

/-- The core whose cache holds a line: in lagoon mode by the address (R197). -/
def State.l1Core (s : State) (core dpa : Nat) : Nat :=
  if s.lagoon.contains (core / 4) then core / 4 * 4 + bits dpa 8 7 else core

/-- The cores whose caches a core's accesses use (R197). -/
def State.l1Cores (s : State) (core : Nat) : List Nat :=
  if s.lagoon.contains (core / 4) then (List.range 4).map (core / 4 * 4 + ·) else [core]

/-- The key of a sector in a core's cache. -/
def l1Key (core sector : Nat) : Nat := 2 ^ 36 * core + sector

/-- Dirty bytes of one sector go to the home slice in the name of the context that last wrote the sector, and the sector becomes
clean (R45, R196). -/
def flushKey (w : Who) (gr key : Nat) : Mem Unit := do
  let s ← get
  match Store.look s.l1 key with
  | none => pure ()
  | some e =>
    if e.dirty = 0 then pure ()
    else
      let w' := { w with tag := [key], ctx := e.ctx.getD 0, anon := e.ctx.isNone }
      l2Put w' (32 * (key % 2 ^ 36)) gr e.dirty e.data
      Mem.mod fun s => { s with l1 := Store.insert s.l1 key { e with dirty := 0 } }

/-- Every dirty sector of the caches of a core is written back (R196, R217). -/
def writeBackAll (w : Who) (core : Nat) : Mem Unit := do
  let s ← get
  let cs := s.l1Cores core
  (s.l1.filter fun e => e.2.dirty != 0 && cs.contains (e.1 / 2 ^ 36)).forM fun e => flushKey w e.2.gr e.1

/-- Clean sectors are invalidated, and of dirty ones the clean bytes (R196, R217, R218). -/
def State.dropClean (s : State) (core : Nat) : State :=
  let cs := s.l1Cores core
  { s with l1 := s.l1.filterMap fun e =>
      if cs.contains (e.1 / 2 ^ 36) then
        if e.2.dirty = 0 then none else some (e.1, { e.2 with valid := e.2.dirty })
      else some e }

/-- A scope reaches beyond the cache (R196): codes 0 .g, 1 .b, 2 .a, 3 .d, 4 .x. -/
def State.beyondCache (s : State) (core scope : Nat) : Bool :=
  decide (3 ≤ scope) || (scope == 2 && !s.lagoon.contains (core / 4))

/-- The release effect at a scope (R217). -/
def release (w : Who) (scope : Nat) : Mem Unit := do
  let s ← get
  if s.beyondCache w.core scope then writeBackAll w w.core

/-- The acquire effect at a scope (R217). -/
def acquire (w : Who) (scope : Nat) : Mem Unit :=
  Mem.mod fun s => if s.beyondCache w.core scope then s.dropClean w.core else s

/-- The clean bytes of an address range leave the core's cache (R217). -/
def State.dropBytes (s : State) (core dpa n : Nat) : State :=
  let key := l1Key (s.l1Core core dpa) (dpa / 32)
  match Store.look s.l1 key with
  | none => s
  | some e =>
    let v' := e.valid - (e.valid &&& (maskOf (dpa % 32) n &&& (2 ^ 32 - 1 - e.dirty)))
    if v' = 0 then { s with l1 := Store.erase s.l1 key }
    else { s with l1 := Store.insert s.l1 key { e with valid := v' } }

/-- The lines that a core's cache holds (R13, R195). -/
def State.l1Lines (s : State) (core : Nat) : List Nat :=
  ((s.l1.filter fun e => e.1 / 2 ^ 36 == core).map fun e => e.1 % 2 ^ 36 / 4).eraseDups

/-- Room for a sector in its cache of 768 KiB: with all 6,144 lines held, one of them, freely chosen, is written back and dropped (R13,
R196; assumption 67). -/
def l1Room (w : Who) (key : Nat) : Mem Unit := do
  let s ← get
  let core := key / 2 ^ 36
  if (Store.look s.l1 key).isSome || decide (s.l1.length < 6144) then return
  let ls := s.l1Lines core
  if ls.contains (key % 2 ^ 36 / 4) || decide (ls.length < 6144) then return
  let v := ls.getD ((Config.freeWord s.freeCtr).toNat % ls.length) 0
  Mem.mod State.draw
  let ks := (List.range 4).map fun i => l1Key core (4 * v + i)
  ks.forM fun k => flushKey w ((((Store.look s.l1 k).map fun e => e.gr)).getD 32) k
  Mem.mod fun s => { s with l1 := ks.foldl Store.erase s.l1 }

/-- A sector of the first-level cache gives the bytes of a mask: they are dirty, or it was filled within the life of a clean sector
(assumption 67). -/
def State.l1Hits (s : State) (key m : Nat) (e : L1Sec) : Bool :=
  e.dirty &&& m == m || (e.valid &&& m == m && decide (s.tick < e.filled + 1 + Config.cleanLife key e.filled))

/-- Bytes of one sector through the first-level cache (R195): a miss fills the sector from L2, and of what stood there only the dirty
bytes stay, so that a load takes no two writes of eight aligned bytes (R216). -/
def l1Read (w : Who) (dpa n gr va : Nat) : Mem (List Byte) := do
  let s ← get
  let key := l1Key (s.l1Core w.core dpa) (dpa / 32)
  let old := Store.look s.l1 key
  match old with
  | some e => if s.l1Hits key (maskOf (dpa % 32) n) e then return sliceBytes e.data (dpa % 32) n
  | none => pure ()
  match ← Mem.counting w 8 (dpa / 32) true (fun s => s.countCore w.core 8 1) (l2Sector w (dpa / 32) gr) with
  | .error c => Mem.trap c 0 0 va
  | .ok d =>
    l1Room w key
    let e := old.getD { data := d, dirty := 0, valid := 0, since := 0, gr := gr, ctx := w.ctx? }
    let d := mergeBytes e.dirty d e.data
    Mem.mod fun s => { s with l1 := Store.insert s.l1 key { e with data := d, valid := 2 ^ 32 - 1, filled := s.tick } }
    return sliceBytes d (dpa % 32) n

/-- Bytes of one sector stored in the first-level cache, allocated without reading (R195). -/
def State.l1Put (s : State) (w : Who) (dpa gr : Nat) (bytes : List Byte) : State :=
  let core := s.l1Core w.core dpa
  let key := l1Key core (dpa / 32)
  let m := maskOf (dpa % 32) bytes.length
  let e := (Store.look s.l1 key).getD { data := List.replicate 32 0, dirty := 0, valid := 0, since := 0, gr := gr, ctx := none }
  let e' : L1Sec :=
    { data := patchBytes e.data (dpa % 32) bytes, dirty := e.dirty ||| m
      valid := e.valid ||| m
      gr := gr
      ctx := w.ctx?
      filled := e.filled
      since := if e.dirty = 0 then s.clk.toNat else e.since }
  { s with l1 := Store.insert s.l1 key e' }

/-- The same, once there is room. -/
def l1Write (w : Who) (dpa gr : Nat) (bytes : List Byte) : Mem Unit := do
  let s ← get
  l1Room w (l1Key (s.l1Core w.core dpa) (dpa / 32))
  Mem.mod fun s => s.l1Put w dpa gr bytes

/-! ## Reads and writes by page kind -/

/-- The DET launch and block of an access to a DET page (R310). -/
def Who.detOf (w : Who) (l : Leaf) : Option (Nat × Nat) := if l.det then w.det else none

/-- The bytes that a block has buffered: domain physical address, grain size and byte, ascending. -/
def State.detBytes (s : State) (launch block : Nat) : List (Nat × Nat × Byte) :=
  (s.det.filter fun e => e.1 / 2 ^ 40 == launch).flatMap fun e =>
    let (m, d) := e.2.buf block
    ((List.range 128).filter fun i => m.getLsbD i).map fun i => (e.1 % 2 ^ 40 * 128 + i, e.2.gr, d.getD i 0)

/-- A block's buffers are dropped. -/
def State.detDrop (s : State) (launch block : Nat) : State :=
  let drop (e : Nat × DetLine) : Nat × DetLine :=
    if e.1 / 2 ^ 40 == launch then (e.1, { e.2 with bufs := e.2.bufs.filter fun x => x.1 != block }) else e
  { s with det := s.det.map drop }

/-- Room for a write by block b of a DET launch. Whether a slice's buffer is full is a free choice, since no size is given: then the
lowest uncommitted block commits its lines early, and a write of another block waits (R310; assumption 2). -/
def detRoom (w : Who) (t b : Nat) : Mem Unit := do
  let s ← get
  Mem.mod State.draw
  if Config.freeBool s.freeCtr then
    let low := ((s.task t).map (·.commits)).getD 0
    let u : Who := { w with priv := true, det := none, tag := [8, t, low] }
    (s.detBytes t low).forM fun x => l2Write u x.1 x.2.1 [x.2.2]
    Mem.mod fun s => s.detDrop t low
    if b ≠ low then throw .wait

/-- The accessor's dirty bytes of a sector go home before an access at L2 (R215). -/
def flushAt (w : Who) (dpa gr : Nat) : Mem Unit := do
  let s ← get
  flushKey w gr (l1Key (s.l1Core w.core dpa) (dpa / 32))

/-- One sector's bytes read by a path: through the cache, or at L2 (R195, R310). -/
def readPart (w : Who) (cached : Bool) (l : Leaf) (dpa n va : Nat) : Mem (List Byte) := do
  match w.detOf l with
  | some (t, b) =>
    if cached then flushAt w dpa l.gr
    match ← Mem.of fun s => s.detRead t b dpa with
    | none => throw .wait
    | some line => do
      let d ← l2Read w dpa n l.gr va
      return line.overlay b (dpa % 128) d
  | none =>
    if cached && l.c && l.ord != 0 then l1Read w dpa n l.gr va
    else
      if cached then flushAt w dpa l.gr
      l2Read w dpa n l.gr va

/-- One sector's bytes written by a path; `home` performs the store at the home slice (R195, R217, R310). -/
def writePart (w : Who) (cached home : Bool) (l : Leaf) (dpa : Nat) (bytes : List Byte) : Mem Unit := do
  match w.detOf l with
  | some (t, b) => do
    if cached then flushAt w dpa l.gr
    Mem.mod fun s => s.detWrite w t b dpa l.gr bytes
  | none =>
    if cached && l.c && l.ord != 0 && !home then l1Write w dpa l.gr bytes
    else
      if cached then flushAt w dpa l.gr
      l2Write w dpa l.gr bytes
      if cached then Mem.mod fun s => s.dropBytes w.core dpa bytes.length

/-- Every sector of a part read in ascending order. -/
def readPiece (w : Who) (cached : Bool) (p : Piece) : Mem (List Byte) := do
  let cs := cuts 32 (p.len / 32 + 2) p.leaf.dpa p.len
  let ds ← cs.mapM fun c => readPart w cached p.leaf c.1 c.2 (p.va + (c.1 - p.leaf.dpa))
  return ds.flatten

/-- Every sector of a part written in ascending order. -/
def writePiece (w : Who) (cached home : Bool) (p : Piece) (bytes : List Byte) : Mem Unit := do
  let cs := cuts 32 (p.len / 32 + 2) p.leaf.dpa p.len
  cs.forM fun c => writePart w cached home p.leaf c.1 (sliceBytes bytes (c.1 - p.leaf.dpa) c.2)

/-- Before any byte of a part is written: on a DET page the buffer has room (R310); the sectors that a store performs at L2 are brought
into reach, a sector written whole over its uncorrectable contents without being read (R45), and a remote POISON grain faults the store
with ECC (R70, R73). -/
def reachPiece (w : Who) (cached home : Bool) (p : Piece) (bytes : List Byte) : Mem Unit :=
  match w.detOf p.leaf with
  | some (t, b) => detRoom w t b
  | none =>
    if cached && p.leaf.c && p.leaf.ord != 0 && !home then pure ()
    else
      (cuts 32 (p.len / 32 + 2) p.leaf.dpa p.len).forM fun c => do
        if c.2 = 32 then
          Mem.mod fun s => s.overwritten (c.1 / 32) p.leaf.gr (2 ^ 32 - 1) (sliceBytes bytes (c.1 - p.leaf.dpa) 32)
        match ← reach w (c.1 / 32) p.leaf.gr true true (decide (c.2 = 32)) with
        | .error e =>
          let s ← get
          if homeDev (c.1 / 32) ≠ s.own then Mem.trap e 0 0 (p.va + (c.1 - p.leaf.dpa))
        | .ok _ => pure ()

/-- The bytes of a part of a store. -/
def Piece.of (p : Piece) (va : Nat) (bytes : List Byte) : List Byte := sliceBytes bytes (p.va - va) p.len

/-- A load of n bytes cut at pages, translated and read part by part, so that the lowest faulting byte decides (R209, R285). -/
def readParts (w : Who) (need : Need) (cached : Bool) : Nat → Nat → Nat → Mem (List Byte)
  | 0, _, _ => pure []
  | f + 1, va, n => do
    if n = 0 then return []
    let l ← translate w need va
    let k := min n l.left
    let d ← readPiece w cached ⟨va, k, l⟩
    let r ← readParts w need cached f (va + k) (n - k)
    return d ++ r

/-- The strongest page kind of an access: STRONG before REL before UNORD (R224). -/
def strongest (ps : List Piece) : Nat := (ps.map fun p => p.leaf.ord).foldl min 2

/-- An address within the best-plan slots of a context (R166, R432). -/
def State.inSlots (s : State) (ctx : Word) (va : Nat) : Bool :=
  let b := bits (s.cx ctx).bpb.toNat 47 7 * 128
  decide (b ≤ va) && decide (va < b + 128)

/-- A load by a lane (R217, R221, R389, R390); ann is 0, or the scope plus 1. An aligned 16-byte load of a best-plan slot at L2 is an
acquire at .d (R231). -/
def loadBytes (w : Who) (va n ann : Nat) : Mem (List Byte) := withAcc 0 do
  let s0 ← get
  let ps : Except Stop (List Piece) := ((pieces w .load (n / 4096 + 2) va n).on s0).1
  match ps with
  | .ok ps =>
    if strongest ps = 0 then acquire w 4
    else if ann ≠ 0 ∧ strongest ps = 1 then acquire w (ann - 1)
    if n = 16 ∧ va % 16 = 0 ∧ s0.inSlots w.ctx va ∧ ps.all (fun p => !(p.leaf.c && p.leaf.ord != 0)) then acquire w 3
  | .error _ => pure ()
  readParts w .load true (n / 4096 + 2) va n

/-- A store by a lane: every page is checked before any byte is written, and each page's part takes its own path (R224, R389, R390). -/
def storeBytes (w : Who) (va ann : Nat) (bytes : List Byte) : Mem Unit := withAcc 1 do
  let ps ← pieces w .store (bytes.length / 4096 + 2) va bytes.length
  let strong := strongest ps = 0
  let rel := ann ≠ 0 ∧ strongest ps = 1
  if strong then release w 4
  else if rel then release w (ann - 1)
  let s ← get
  let home (p : Piece) : Bool := decide (p.leaf.ord = 0) || (decide rel && s.beyondCache w.core (ann - 1))
  ps.forM fun p => reachPiece w true (home p) p (p.of va bytes)
  ps.forM fun p => writePiece w true (home p) p (p.of va bytes)

/-- The place of an atomic (R210). -/
inductive Place where
  | l1 | l2 | home
deriving DecidableEq, Repr

/-- The place of R210 for a scope and a page. -/
def State.place (s : State) (core scope : Nat) (l : Leaf) : Place :=
  if !s.beyondCache core scope && l.c && l.ord != 0 then .l1
  else if scope = 4 ∧ homeDev (l.dpa / 32) ≠ s.own then .home
  else .l2

/-- An atomic on bytes within one sector, performed indivisibly: the old bytes; `f` gives the new ones, and `pay` is the payload
of an ATOM message to a remote home (R68, R210, R397). -/
def atomicAt (w : Who) (scope : Nat) (l : Leaf) (n va : Nat) (pay : List Byte) (f : List Byte → List Byte) : Mem (List Byte) := do
  match w.detOf l with
  | some (t, b) =>
    flushAt w l.dpa l.gr
    detRoom w t b
    match ← Mem.of fun s => s.detRead t b l.dpa with
    | none => throw .wait
    | some line => do
      let d ← l2Read w l.dpa n l.gr va
      let old := line.overlay b (l.dpa % 128) d
      Mem.mod fun s => s.detWrite w t b l.dpa l.gr (f old)
      return old
  | none =>
    let s ← get
    match s.place w.core scope l with
    | .l1 => do
      let old ← l1Read w l.dpa n l.gr va
      l1Write w l.dpa l.gr (f old)
      return old
    | .l2 => do
      flushAt w l.dpa l.gr
      match ← reach w (l.dpa / 32) l.gr true with
      | .error c => Mem.trap c 0 0 va
      | .ok _ =>
        let old ← l2Read w l.dpa n l.gr va false
        l2Write w l.dpa l.gr (f old)
        Mem.mod fun s => s.dropBytes w.core l.dpa n
        return old
    | .home => do
      flushAt w l.dpa l.gr
      let g := l.dpa / 32
      let s ← get
      match s.coh.answers.find? fun a => a.tag == w.tag && a.grain == g with
      | some a =>
        Mem.mod fun s => { s with coh := { s.coh with answers := s.coh.answers.erase a } }.dropBytes w.core l.dpa n
        match a.value with
        | some v => return toBytes n v.toNat
        | none => Mem.trap cECC 0 0 va
      | none =>
        Mem.mod fun s => s.request mtATOM g l.gr w.tag pay
        throw .wait

/-- Bytes read by an engine at the home slices, past every first-level cache (R199). -/
def engineRead (w : Who) (va n : Nat) : Mem (List Byte) := withAcc 0 (readParts w .load false (n / 4096 + 2) va n)

/-- Bytes written by an engine at the home slices. -/
def engineWrite (w : Who) (va : Nat) (bytes : List Byte) : Mem Unit := withAcc 1 do
  let ps ← pieces w .store (bytes.length / 4096 + 2) va bytes.length
  ps.forM fun p => reachPiece w false true p (p.of va bytes)
  ps.forM fun p => writePiece w false true p (p.of va bytes)

/-- Bytes read at domain physical addresses, for the command processor, save areas and rings at a DPA (assumption 17). -/
def physRead (w : Who) (dpa n : Nat) : Mem (List Byte) := do
  let ds ← (cuts 32 (n / 32 + 2) dpa n).mapM fun c => do
    let s ← get
    if s.refused w c.1 then Mem.trap cXLATE 2 0 c.1
    l2Read w c.1 c.2 32 c.1
  return ds.flatten

/-- Bytes written at domain physical addresses. -/
def physWrite (w : Who) (dpa : Nat) (bytes : List Byte) : Mem Unit :=
  (cuts 32 (bytes.length / 32 + 2) dpa bytes.length).forM fun c => do
    let s ← get
    if s.refused w c.1 then Mem.trap cXLATE 2 0 c.1
    l2Write w c.1 32 (sliceBytes bytes (c.1 - dpa) c.2)

/-! ## Scratchpad (R193) -/

def spKey (core a : Nat) : Nat := 2 ^ 23 * core + a

/-- Bytes of a block's scratchpad. -/
def State.spLoad (s : State) (core base off n : Nat) : List Byte := Memory.read s.sp (spKey core (base + off)) n

def State.spStore (s : State) (core base off : Nat) (bytes : List Byte) : State :=
  { s with sp := Memory.write s.sp (spKey core (base + off)) bytes }

end Sys2Proof.Machine
end

