-- ==== Sys2Proof/Machine/Flags.lean ====
section
/-! DEFINITION. Wrapping, clamping and comparing: every result that sets FPCTL.SAT or FPCTL.NANP, or traps in its place
(R242, R243, R355, R362). -/
namespace Sys2Proof.Machine

/-- The least value of a type of w bits; n selects the unsigned one. -/
def tmin (w : Nat) (n : Bool) : Int := if n then 0 else -(2 ^ (w - 1) : Nat)

/-- The greatest value of a type of w bits. -/
def tmax (w : Nat) (n : Bool) : Int := if n then ((2 ^ w : Nat) : Int) - 1 else ((2 ^ (w - 1) : Nat) : Int) - 1

/-- The value of w bits read as signed, or as unsigned with n (R362). -/
def ival {w : Nat} (n : Bool) (x : BitVec w) : Int := if n then (x.toNat : Int) else x.toInt

/-- The result of an integer operation from its exact value: wrapped, or clamped under .sat; and whether it was clamped (R243). -/
def intRes (w : Nat) (n sat : Bool) (x : Int) : BitVec w × Bool :=
  if sat then (BitVec.ofInt w (clamp x (tmin w n) (tmax w n)), decide (x < tmin w n ∨ tmax w n < x))
  else (BitVec.ofInt w x, false)

/-- Integer comparison (R355). -/
def cmpInt (c : Cmp) (n : Bool) (a b : Word) : Bool :=
  let x := ival n a
  let y := ival n b
  match c with
  | .eq => decide (x = y)
  | .ne => decide (x ≠ y)
  | .lt => decide (x < y)
  | .le => decide (x ≤ y)
  | .gt => decide (y < x)
  | .ge => decide (y ≤ x)
  | .num => true
  | .nan => false

/-- What an instruction does in one lane: its register and predicate writes, a trap in their place, and whether a result was
clamped or a NaN was produced. -/
structure LaneOut where
  v    : List (VReg × Word) := []
  p    : List (PReg × Bool) := []
  trap : Option Cause := none
  sat  : Bool := false
  nan  : Bool := false
deriving DecidableEq, Repr

/-- The cause a lane reports, by the order of R285: its own, then NAN under NANT (R242), then SAT under SATT (R243). -/
def LaneOut.cause (o : LaneOut) (g : Group) : Option Cause :=
  match o.trap with
  | some c => some c
  | none =>
    if o.nan && g.nant then some (.mk0 cNAN)
    else if o.sat && g.satt then some (.mk0 cSAT)
    else none

/-- The writes of one lane, with the sticky flags (R242, R243). -/
def LaneOut.apply (o : LaneOut) (l : Nat) (g : Group) : Group :=
  let g := o.v.foldl (fun g w => g.wv w.1 l w.2) g
  let g := o.p.foldl (fun g w => g.wp w.1 l w.2) g
  let g := if o.sat then g.setSat else g
  if o.nan then g.setNanp else g

/-- The lanes of a set act at once, each with the outcome f gives it; a lane that traps has no effect (R287, R327). -/
def State.lanesOut (s : State) (n : Nat) (act : BitVec 128) (f : Nat → LaneOut) : State :=
  let bad := laneSet s.g.width fun l => act.getLsbD l && ((f l).cause s.g).isSome
  let g := (lanesIn (act &&& ~~~bad) s.g.width).foldl (fun g l => (f l).apply l g) s.g
  ({ s with g := g }).raise n bad fun l => ((f l).cause s.g).getD (.mk0 0)

/-- A vector instruction: each active lane's outcome is a function of the group before it (R340, R378). -/
def vop (i : Info) (s : State) (f : Group → Nat → LaneOut) : Out :=
  issue i s fun s act => s.lanesOut i.len act (f s.g)

/-- What an instruction that acts once does: k writes, or a trap on every active lane, and whether a result was clamped. -/
structure OnceOut where
  k    : List (KReg × Word) := []
  trap : Option Cause := none
  sat  : Bool := false

/-- The outcome of an instruction that acts once; a clamp under SATT raises SAT on every active lane (R361). -/
def State.onceOut (s : State) (n : Nat) (act : BitVec 128) (o : OnceOut) : State :=
  match o.trap with
  | some c => s.raiseAll n act c
  | none =>
    if o.sat && s.g.satt then s.raiseAll n act (.mk0 cSAT)
    else
      let g := o.k.foldl (fun g w => g.wk w.1 w.2) s.g
      { s with g := if o.sat then g.setSat else g }

/-- A uniform instruction. -/
def kop (i : Info) (s : State) (f : Group → OnceOut) : Out :=
  issue i s fun s act => s.onceOut i.len act (f s.g)

end Sys2Proof.Machine
end

