-- ==== Sys2Proof/Machine/Operands.lean ====
section
/-! DEFINITION. The operand forms: v/k sources and literals at each width (R322, R323, R339), uniform operands (R327), the address
of the memory form (R324, R327), and the issue data of each family (R140, R317). -/
namespace Sys2Proof.Machine

/-- A 32-bit source in a lane. -/
def Group.s32 (g : Group) (a : Src) (l : Nat) : Word :=
  match a with
  | .v r => g.rv r l
  | .k r => g.rk r
  | .lit x => x.truncate 32

/-- A 64-bit source in a lane. -/
def Group.s64 (g : Group) (a : Src) (l : Nat) : DWord :=
  match a with
  | .v r => g.rv64 r l
  | .k r => g.rk64 r
  | .lit x => x

/-- A 32-bit k source. -/
def Group.ks32 (g : Group) (a : KSrc) : Word :=
  match a with
  | .k r => g.rk r
  | .lit x => x.truncate 32

/-- A 64-bit k source. -/
def Group.ks64 (g : Group) (a : KSrc) : DWord :=
  match a with
  | .k r => g.rk64 r
  | .lit x => x

/-- The v register that a source names. -/
def Src.regs : Src → List VReg
  | .v r => [r]
  | _ => []

/-- The words of an instruction with these literals. -/
def len1 (a : Src) : Nat := 1 + a.lits.length
def len2 (a b : Src) : Nat := 1 + (a.lits ++ b.lits).length
def klen1 (a : KSrc) : Nat := 1 + a.lits.length
def klen2 (a b : KSrc) : Nat := 1 + (a.lits ++ b.lits).length
def alen (a : Adr) : Nat := 1 + a.lits.length

/-- The lanes of a set whose operand differs from that of the lowest (R327). -/
def unlike (w : Nat) (act : BitVec 128) (f : Nat → DWord) : BitVec 128 :=
  laneSet w fun l => act.getLsbD l && f l != f (lowest act)

/-- uniform(F): the operand of the lowest active lane; when the active lanes disagree they all raise UNIF, with DIS in those
that differ (R327). -/
def State.uniform (s : State) (n : Nat) (act : BitVec 128) (f : Nat → DWord) (body : DWord → State) : State :=
  let d := unlike s.g.width act f
  if d = 0 then body (f (lowest act))
  else s.raise n act fun l => { Cause.mk0 cUNIF with dis := d.getLsbD l }

/-- uniform(F) of a 32-bit source. -/
def State.uniform32 (s : State) (n : Nat) (act : BitVec 128) (a : Src) (body : Word → State) : State :=
  s.uniform n act (fun l => (s.g.s32 a l).zeroExtend 64) fun x => body (x.truncate 32)

/-- The offset of the memory form, scaled by the access size (R324, R327). -/
def Off.value (o : Off) (size : Nat) : Int :=
  match o with
  | .scaled b => b.toInt * size
  | .lit x => x.toInt

/-- ea(l) with a 64-bit base (R327). -/
def Group.ea64 (g : Group) (a : Adr) (size : Nat) (l : Nat) : Int :=
  ((g.s64 a.base l).toNat : Int) + (g.s32 a.index l).toInt * 2 ^ a.scale.toNat + Off.value a.off size

/-- ea(l) with a 32-bit base, for the scratchpad (R327). -/
def Group.ea32 (g : Group) (a : Adr) (size : Nat) (l : Nat) : Int :=
  ((g.s32 a.base l).toNat : Int) + (g.s32 a.index l).toInt * 2 ^ a.scale.toNat + Off.value a.off size

/-- The v registers that an address names. -/
def Adr.regs (a : Adr) : List VReg := Src.regs a.base ++ Src.regs a.index

/-- A v pair or quad of a lane as bytes. -/
def Group.vbytes (g : Group) (d : VReg) (n l : Nat) : List Byte :=
  if d.toNat = 1023 then List.replicate n 0
  else toBytes n (ofBytes ((List.range (cdiv n 4)).flatMap fun i => toBytes 4 (g.rv (d + BitVec.ofNat 10 i) l).toNat))

/-- The writes of n loaded bytes to a v register, pair or quad; D = 1023 discards them all (R324, R390). -/
def vwrites (d : VReg) (bs : List Byte) : List (VReg × Word) :=
  if d.toNat = 1023 then []
  else (List.range (cdiv bs.length 4)).map fun i =>
    (d + BitVec.ofNat 10 i, BitVec.ofNat 32 (ofBytes (sliceBytes bs (4 * i) 4)))

/-- The writes of a 64-bit value to a v pair. -/
def vwrites64 (d : VReg) (x : DWord) : List (VReg × Word) := [(d, x.truncate 32), (d + 1, x.extractLsb' 32 32)]

/-- The writes of a 64-bit value to a k pair. -/
def kwrites64 (d : KReg) (x : DWord) : List (KReg × Word) := [(d, x.truncate 32), (d + 1, x.extractLsb' 32 32)]

/-! ## Issue data by family (R140, R317) -/

/-- Control, predicates, uniform, integer vector, memory, QFENCE: every CLASS and every role. -/
def Info.any (h : Hdr) (regs : List VReg) (len : Nat) : Info :=
  { h := h, cls := fun _ => true, role := fun _ => true, regs := regs, len := len, ends := false, holds := false }

/-- The VECTOR and GENERAL roles. -/
def Role.vec : Role → Bool
  | .vector | .general => true
  | _ => false

/-- The MATRIX and GENERAL roles. -/
def Role.mat : Role → Bool
  | .matrix | .general => true
  | _ => false

/-- The COPY and GENERAL roles. -/
def Role.cpy : Role → Bool
  | .copy | .general => true
  | _ => false

/-- Floating point, CVT, CVT2 and cross-lane: CLASS VEC or SYS, role VECTOR or GENERAL. -/
def Info.vec (h : Hdr) (regs : List VReg) (len : Nat) : Info :=
  { h := h, cls := fun c => c == 0 || c == 6, role := Role.vec, regs := regs, len := len, ends := false, holds := false }

/-- PADD16, PMAC16 and PSHR: every CLASS, role VECTOR or GENERAL. -/
def Info.packed (h : Hdr) (regs : List VReg) (len : Nat) : Info := { Info.any h regs len with role := Role.vec }

/-- Matrix: CLASS MAT or SYS, role MATRIX or GENERAL. -/
def Info.mat (h : Hdr) (regs : List VReg) (len : Nat) : Info :=
  { h := h, cls := fun c => c == 1 || c == 6, role := Role.mat, regs := regs, len := len, ends := false, holds := false }

/-- COPY, RDWPT, RINGP, RINGC: CLASS CPY or SYS. -/
def Info.cpy (h : Hdr) (regs : List VReg) (len : Nat) : Info :=
  { Info.any h regs len with cls := fun c => c == 2 || c == 6 }

/-- CQRY and DSTEP: CLASS SPC or SYS; they end their clause. -/
def Info.spc (h : Hdr) (regs : List VReg) (len : Nat) : Info :=
  { Info.any h regs len with cls := fun c => c == 3 || c == 6, ends := true }

/-- The other tasks and search: CLASS TSK or SYS. -/
def Info.tsk (h : Hdr) (regs : List VReg) (len : Nat) : Info :=
  { Info.any h regs len with cls := fun c => c == 4 || c == 6 }

/-- REGACQ and REGREL: CLASS CTL or SYS. -/
def Info.ctl (h : Hdr) (regs : List VReg) (len : Nat) : Info :=
  { Info.any h regs len with cls := fun c => c == 5 || c == 6 }

/-- System: CLASS SYS. -/
def Info.sys (h : Hdr) (regs : List VReg) (len : Nat) : Info :=
  { Info.any h regs len with cls := fun c => c == 6 }

/-- The instruction ends its clause (R181). -/
def Info.ending (i : Info) : Info := { i with ends := true }

/-- The instruction is a point that needs the trapped lanes (R287). -/
def Info.holding (i : Info) : Info := { i with holds := true }

end Sys2Proof.Machine
end

