-- ==== Sys2Proof/Machine/LaneAccess.lean ====
section
/-! DEFINITION. Accesses by the lanes of an instruction: lane by lane in ascending order, each with its own outcome, and an
instruction whose access waits is tried again for the lanes that are left (R209, R327, R390, R397). -/
namespace Sys2Proof.Machine

/-- On whose behalf lane l of the group in issue makes an access. -/
def State.who (s : State) (l : Nat) : Who :=
  { ctx := s.g.ctx, priv := s.g.priv, core := s.g.core
    det := if s.g.det then some (s.g.task, s.g.block) else none
    pc := s.g.iss.pc, tag := [0, s.g.task, s.g.block, s.g.index, l] }

/-- What the lanes have done so far: the state, the traps met and the lanes that wait. -/
structure Lanes where
  s     : State
  traps : List (Nat × Cause)
  wait  : BitVec 128

/-- One lane acts, unless a lower lane waits. -/
def Lanes.act (f : Nat → Mem LaneOut) (r : Lanes) (l : Nat) : Lanes :=
  if r.wait ≠ 0 then { r with wait := r.wait ||| (1#128 <<< l) }
  else
    match (f l).on r.s with
    | (.ok o, s) => { r with s := { s with g := o.apply l s.g } }
    | (.error (.trap c), s) => { r with s := s, traps := (l, c) :: r.traps }
    | (.error .wait, s) => { r with s := s, wait := 1#128 <<< l }

/-- The lanes of a set act in ascending order; the lanes that trap leave X, and from the first that waits on they are tried
again. -/
def State.memLanesAs (s : State) (w : Wait) (i : Info) (act : BitVec 128) (f : Nat → Mem LaneOut) : State :=
  let todo := act &&& (s.g.iss.todo.getD act)
  let r := (lanesIn todo s.g.width).foldl (Lanes.act f) ⟨s, [], 0⟩
  let bad := laneSet s.g.width fun l => r.traps.any fun t => t.1 == l
  let s := r.s.raise i.len bad fun l => ((r.traps.find? fun t => t.1 == l).map (·.2)).getD (.mk0 0)
  if r.wait = 0 then s else s.waitFor w (some r.wait)

/-- The same for an access that waits on a memory transaction. -/
def State.memLanes (s : State) (i : Info) (act : BitVec 128) (f : Nat → Mem LaneOut) : State := s.memLanesAs .retry i act f

/-- An instruction whose active lanes each make an access. -/
def mop (i : Info) (s : State) (f : State → Nat → Mem LaneOut) : Out :=
  issue i s fun s act => s.memLanes i act (f s)

/-- An access made once for the group; its fault is raised on every active lane (R393). -/
def State.memOnce (s : State) (i : Info) (act : BitVec 128) (m : Mem Unit) : State :=
  match m.on s with
  | (.ok _, s) => s
  | (.error (.trap c), s) => s.raiseAll i.len act c
  | (.error .wait, s) => s.waitFor .retry none

/-! ## Checks of R389 -/

/-- ALIGN with the address truncated to w bits. -/
def alignTrap {α : Type} (e : Int) (w acc : Nat) : Mem α :=
  throw (.trap { Cause.at cALIGN 0 (BitVec.ofNat 64 (trunc e w)) with acc := acc })

/-- Steps 1 and 2 of R389 for memory: the address, aligned to m and within 48 bits. -/
def vaCheck (e : Int) (m acc : Nat) : Mem Nat := do
  if e % (m : Int) ≠ 0 then alignTrap e 64 acc
  if e < 0 ∨ (2 ^ 48 : Nat) ≤ e then throw (.trap { Cause.at cXLATE 3 (BitVec.ofNat 64 (trunc e 64)) with acc := acc })
  return e.toNat

/-- Steps 1 and 2 of R389 for the scratchpad of the issuing block (R193). -/
def spCheck (s : State) (e : Int) (m n acc : Nat) : Mem Nat := do
  if e % (m : Int) ≠ 0 then alignTrap e 32 acc
  if e < 0 ∨ (s.g.scratch : Int) < e + n then throw (.trap { Cause.at cPERM 0 (BitVec.ofNat 64 (trunc e 32)) with acc := acc })
  return e.toNat

/-- The scratchpad base of the block in issue (R135). -/
def State.spBase (s : State) : Nat := ((s.gblock).map (·.base)).getD 0

/-- A loaded value extended as SZ says (R388). -/
def extendSz (sz : Sz) (bs : List Byte) : List Byte :=
  match sz with
  | .n8 | .n16 => toBytes 4 (ofBytes bs)
  | .s8 => toBytes 4 (trunc (sext (ofBytes bs) 8) 32)
  | .s16 => toBytes 4 (trunc (sext (ofBytes bs) 16) 32)
  | _ => bs

/-- ANN of an annotation: 0 none, else the scope plus 1 (R324). -/
def Scope.code : Scope → Nat
  | .g => 0
  | .b => 1
  | .a => 2
  | .d => 3
  | .x => 4

def annOf : Option Scope → Nat
  | none => 0
  | some s => Scope.code s + 1

end Sys2Proof.Machine
end

