-- ==== Sys2Proof/Machine/Groups.lean ====
section
/-! DEFINITION. Groups within their block: stages and rings, barriers, register blocks, retirement and the delivery of a CANCEL
event (R141 to R143, R162, R171, R178, R189, R349 to R351). -/
namespace Sys2Proof.Machine

/-! ## Cards and kernel headers (R99, R110) -/

def Task.w (t : Task) (i : Nat) : Nat := (t.words.getD i 0).toNat
def Task.h (t : Task) (i : Nat) : Nat := (t.hdr.getD i 0).toNat

def Task.ctx (t : Task) : Word := BitVec.ofNat 32 (t.w 6)
def Task.asn (t : Task) : Nat := bits (t.w 0) 63 48
def Task.ctag (t : Task) : Half := BitVec.ofNat 16 (bits (t.w 2) 63 48)
def Task.centry (t : Task) : Nat := bits (t.w 2) 47 0
def Task.cancellable (t : Task) : Bool := (t.w 3).testBit 44
def Task.prio (t : Task) : Nat := bits (t.w 3) 43 42
def Task.width (t : Task) : Nat := 16 * 2 ^ bits (t.w 3) 41 40
def Task.cohort (t : Task) : Nat := bits (t.w 3) 39 37
def Task.ngroups (t : Task) : Nat := bits (t.w 3) 36 32 + 1
def Task.nblocks (t : Task) : Nat := bits (t.w 3) 31 0
def Task.twin (t : Task) : Bool := (t.w 3).testBit 45
def Task.lagoon (t : Task) : Bool := (t.w 3).testBit 46
def Task.isDet (t : Task) : Bool := (t.w 3).testBit 47 || (t.h 0).testBit 40
def Task.dv (t : Task) : Bool := (t.w 4).testBit 44
def Task.donec (t : Task) : Nat := bits (t.w 4) 43 32
def Task.wv (t : Task) : Bool := (t.w 4).testBit 12
def Task.waitc (t : Task) : Nat := bits (t.w 4) 11 0
def Task.khdr (t : Task) : Nat := bits (t.w 0) 47 0
def Task.nstage (t : Task) : Nat := bits (t.h 0) 44 42
def Task.scratch (t : Task) : Nat := bits (t.h 1) 31 0

/-- The groups of a stage (R110). -/
def Task.stageCount (t : Task) (i : Nat) : Nat := bits (t.h 2) (16 * i + 6) (16 * i + 2) + 1

/-- The stage of a group: stage s holds the indices that follow those of stage s - 1 (R110). -/
def Task.stageOf (t : Task) (gi : Nat) : Nat :=
  let ends := (List.range t.nstage).map fun i => ((List.range (i + 1)).map t.stageCount).foldl (· + ·) 0
  ((List.range t.nstage).find? fun i => decide (gi < ends.getD i 0)).getD 0

/-- The role of a group (R110, R140). -/
def Task.roleOf (t : Task) (gi : Nat) : Role :=
  if t.nstage = 0 then .general
  else
    match bits (t.h 2) (16 * t.stageOf gi + 1) (16 * t.stageOf gi) with
    | 0 => .copy
    | 1 => .matrix
    | _ => .vector

/-- The producing and the consuming stage of a ring (R110). -/
def Task.ringField (t : Task) (i : Nat) : Nat := bits (t.h (3 + i / 4)) (16 * (i % 4) + 15) (16 * (i % 4))

/-! ## Stage rings (R141 to R143) -/

def Block.ring (b : Block) (i : Nat) : Ring := b.rings.getD i ⟨0, 0, 0, 0, false, 0, false, [], [], []⟩

def Block.setRing (b : Block) (i : Nat) (r : Ring) : Block := { b with rings := modifyAt (fun _ => r) b.rings i }

def Ring.slot (r : Ring) (i : Nat) : RingSlot := r.slots.getD i .free

def Ring.setSlot (r : Ring) (i : Nat) (x : RingSlot) : Ring := { r with slots := modifyAt (fun _ => x) r.slots i }

/-- A group holds a slot of the ring. -/
def Ring.holds (r : Ring) (gi : Nat) : Bool := r.slots.any fun x => x == .reserved gi || x == .taken gi

/-- Every group of a stage of a block has retired. -/
def State.stageGone (s : State) (task block stage : Nat) : Bool :=
  match s.task task with
  | none => true
  | some t => !(s.allGroups.any fun g => g.task == task && g.block == block && t.stageOf g.index == stage)

/-- A slot handle (R141). -/
def ringHandle (slot : Nat) (phase : Bool) (ring : Nat) (closed : Bool) : Word :=
  BitVec.ofNat 32 (slot + 16 * phase.toNat + 32 * ring + 2 ^ 31 * closed.toNat)

/-- An acquire tried: the handle and the ring after it, or none while the group must wait (R141, R143). -/
def Ring.acquire (r : Ring) (i : Nat) (prod : Bool) (gi : Nat) (otherGone : Bool) : Option (Word × Ring) :=
  let queue := if prod then r.pwait else r.cwait
  let head := if prod then r.phead else r.chead
  let phase := if prod then r.pphase else r.cphase
  let ready := r.slot head == (if prod then .free else .full)
  let mine := (queue.head?.getD gi) == gi
  let wrap := head + 1 == r.depth
  let next := if wrap then 0 else head + 1
  if ready && mine then
    let r := r.setSlot head (if prod then .reserved gi else .taken gi)
    let r := if prod then { r with phead := next, pphase := phase ^^ wrap, pwait := r.pwait.erase gi }
             else { r with chead := next, cphase := phase ^^ wrap, cwait := r.cwait.erase gi }
    some (ringHandle head phase i false, r)
  else if !ready && otherGone then
    some (ringHandle head phase i true, { r with pwait := if prod then r.pwait.erase gi else r.pwait
                                                 cwait := if prod then r.cwait else r.cwait.erase gi })
  else none

/-- A group waits at a head of the ring, in order of arrival. -/
def Ring.await (r : Ring) (prod : Bool) (gi : Nat) : Ring :=
  if prod then { r with pwait := if r.pwait.contains gi then r.pwait else r.pwait ++ [gi] }
  else { r with cwait := if r.cwait.contains gi then r.cwait else r.cwait ++ [gi] }

/-- The group's RESERVED slot is published and its TAKEN slot released, and it waits no more (R143). -/
def Ring.leave (r : Ring) (gi : Nat) : Ring :=
  { r with slots := r.slots.map fun x => if x == .reserved gi then .full else if x == .taken gi then .free else x
           pwait := r.pwait.erase gi, cwait := r.cwait.erase gi }

def State.leaveRings (s : State) (task block gi : Nat) : State :=
  s.modBlock task block fun b => { b with rings := b.rings.map fun r => r.leave gi }

/-! ## Barriers (R349 to R351) -/

/-- Every live lane of the group is parked at barrier b, and there is one. -/
def Group.arrivedAt (g : Group) (atoll : Bool) (b : BarReg) : Bool :=
  let at_ := fun (a : Lane) => a.st == (if atoll then .abarPark b else .barPark b)
  g.lanes.any at_ && g.lanes.all fun a => a.st.gone || at_ a

/-- The lanes parked at a barrier go on. -/
def Group.releaseBar (g : Group) (atoll : Bool) (b : BarReg) : Group :=
  { g with lanes := g.lanes.map fun a => if a.st == (if atoll then .abarPark b else .barPark b) then a.wake else a }

/-- Barrier b of a set of groups completes when every one that has not retired has arrived (R349). -/
def State.barrier (s : State) (atoll : Bool) (b : BarReg) (member : Group → Bool) : State :=
  let gs := s.allGroups.filter fun g => member g && !g.dead
  if !gs.isEmpty && gs.all fun g => g.arrivedAt atoll b then
    let s := s.mapGroups fun g => if member g then g.releaseBar atoll b else g
    if atoll then gs.foldl (fun s g => if s.beyondCache g.core 2 then s.dropClean g.core else s) s else s
  else s

/-- The groups of a block, and of its cohort. -/
def Group.inBlock (g : Group) (task block : Nat) : Bool := g.task == task && g.block == block

def Group.inCohort (g : Group) (task block cohort : Nat) : Bool :=
  g.task == task && (if cohort = 0 then g.block == block else g.block / cohort == block / cohort)

/-- The barriers of a block and of its cohort are examined. -/
def State.barriers (s : State) (task block : Nat) : State :=
  let c := ((s.task task).map Task.cohort).getD 0
  (List.range 16).foldl (fun s b =>
    (s.barrier false (BitVec.ofNat 4 b) fun g => g.inBlock task block).barrier true (BitVec.ofNat 4 b) fun g => g.inCohort task block c) s

/-! ## Register blocks (R177, R178, R335) -/

/-- The quadrant of a group (R134). -/
def Group.quad (g : Group) : Nat := g.slot / 16

/-- Units that a grant costs (R178). -/
def Group.units (g : Group) (n : Nat) : Nat := n * (g.width / 16)

/-- Extension units in use on a quadrant. -/
def State.unitsUsed (s : State) (core quad : Nat) : Nat :=
  ((s.allGroups.filter fun g => g.core == core && g.quad == quad).map fun g => g.units g.grant).foldl (· + ·) 0

/-- A larger grant: newly granted registers read zero (R178). -/
def Group.grow (g : Group) (n : Nat) : Group :=
  { g with grant := n, v := g.v.filter fun e => decide (e.1 < 128 * (64 * (g.grant + 1))) }

/-- A smaller grant: the contents of the blocks given back are lost (R178). -/
def Group.shrink (g : Group) (n : Nat) : Group :=
  { g with grant := n, v := g.v.filter fun e => decide (e.1 < 128 * (64 * (n + 1))) }

/-- Waiting requests of a quadrant are served in order of arrival; when every holder waits, the head is withdrawn (R178). -/
def State.serveRegs (s : State) (core quad : Nat) : Nat → State
  | 0 => s
  | f + 1 =>
    match (s.core core).regq.find? fun q => q.1 == quad with
    | none => s
    | some q =>
      let (_, t, b, gi, n) := q
      let drop (s : State) := s.modCore core fun c => { c with regq := c.regq.erase q }
      match s.findGroup t b gi with
      | none => (drop s).serveRegs core quad f
      | some g =>
        if s.unitsUsed core quad + g.units n ≤ 32 + g.units g.grant then
          ((drop s).mapGroup t b gi fun g => g.grow n).serveRegs core quad f
        else
          let holders := s.allGroups.filter fun x => x.core == core && x.quad == quad && decide (0 < x.grant)
          if holders.all fun x => (s.core core).regq.any fun r => x.is r.2.1 r.2.2.1 r.2.2.2.1 then (drop s).serveRegs core quad f
          else s

/-! ## Outstanding counts (R180) -/

/-- The counter of a queue's commands stands at 63, the most it holds: a command more waits at issue. -/
def Group.counterFull (g : Group) (q : Nat) : Bool := decide (63 ≤ g.async.getD q 0)

/-- The numbers of the ACCRD issues of a group that wait. -/
def Group.waitingLoads (g : Group) : List Nat :=
  (g.lanes.filterMap fun a => match a.st with
    | .accPark _ _ _ _ _ n => some n
    | _ => none).eraseDups

/-- The loads of a group that are outstanding: its ACCRD instructions that wait; every other load completes as it issues. -/
def Group.loads (g : Group) : Nat := g.waitingLoads.length

/-! ## Retirement (R103, R143, R162, R178, R189) -/

/-- The entries of a core's future table that a group allocated are freed (R162). -/
def State.freeFutures (s : State) (core task block gi : Nat) : State :=
  s.modCore core fun c =>
    { c with futs := c.futs.map fun e =>
        if e.2.task == task && e.2.block == block && e.2.gi == gi && e.2.st != .free then (e.1, { e.2 with st := .free }) else e }

/-- A group retires: its slots, futures, ring slots and units are given back. -/
def State.retireGroup (s : State) (g : Group) : State :=
  let s := if s.issuing && s.g.is g.task g.block g.index then { s with g := .idle } else s
  let s := { s with groups := s.groups.filter fun x => !x.is g.task g.block g.index }
  let s := (s.freeFutures g.core g.task g.block g.index).leaveRings g.task g.block g.index
  let s := s.modCore g.core fun c =>
    { c with watch := 0, regq := c.regq.filter fun q => !g.is q.2.1 q.2.2.1 q.2.2.2.1 }
  s.serveRegs g.core g.quad 64

/-! ## Cancellation points (R171, R296) -/

/-- The group stands where it takes a pending event: a lane parked at WAITF, BAR or ABAR, a wait that is a cancellation point, every
live lane in a service park (R302), or the end of handler mode (R290). -/
def Group.atCancelPoint (g : Group) : Bool :=
  g.owed || (g.lanes.any fun a => match a.st with
    | .futPark .. | .barPark _ | .abarPark _ => true
    | _ => false)
  || (g.lanes.any (fun a => a.st == .service) && g.lanes.all fun a => a.st.gone || a.st == .service)
  || (match g.iss.wait with
    | some (.waitd _) | some .woken | some .ring | some .leafq | some .spawn => true
    | _ => false)

/-- A pending CANCEL event may be delivered: no lane is trapped and no handler runs. -/
def Group.mayCancel (g : Group) : Bool := g.cancel && !g.anyTrapped && !g.handler

/-- The group after delivery: its live lanes go to CENTRY, or finish when CENTRY is 0 (R171). -/
def Group.deliver (g : Group) (centry : Nat) : Group :=
  let lanes := g.lanes.map fun a =>
    if a.st.gone then a
    else if centry = 0 then { a with st := .finished, stepDue := false }
    else { a with st := .eligible, lpc := BitVec.ofNat 64 centry, yld := false, inside := none, stepDue := false }
  { g with cancel := false, owed := false, j := [], arrived := [], lanes := lanes, iss := { g.iss with x := 0, wait := none, todo := none } }

/-- Delivery of the CANCEL event of a group (R171), with its log when TBASE.CLOG is set (R296). -/
def State.deliver (s : State) (g : Group) : State :=
  let centry := ((s.task g.task).map Task.centry).getD 0
  let s := s.mapGroup g.task g.block g.index fun g => g.deliver centry
  let s := (s.modBlock g.task g.block fun b => { b with canc := true }).modTask g.task fun t => { t with canc := true }
  let s := s.leaveRings g.task g.block g.index
  let s := (s.modCore g.core fun c => { c with regq := c.regq.filter fun q => !g.is q.2.1 q.2.2.1 q.2.2.2.1 }).serveRegs g.core g.quad 64
  if (s.cx g.ctx).tbase.getLsbD 1 then
    s.trapDue (.cancelLog g.core g.slot)
      { cause := cCANCEL, sub := 0, src := 6, nest := false, slot := g.slot, ctx := g.ctx, core := g.core, info := 0
        asn := bits (s.cx g.ctx).atb.toNat 63 48, pc := BitVec.ofNat 64 centry, addr := 0, mask := 0, detail := 0 }
  else s

/-- A cancellation point reached: a pending event is taken there, before the instruction acts; otherwise the instruction acts (R171,
R352; assumption 65). -/
def atPoint (body : State → BitVec 128 → State) (s : State) (act : BitVec 128) : State :=
  if s.g.mayCancel then s.deliver s.g else body s act

/-! ## What follows a change of lane states -/

/-- A group with a trapped handler lane, which left a park owing STEP, ends (R290, R304). -/
def State.nestEnd (s : State) (g : Group) : State :=
  let l := lowest (laneSet g.width fun l => (g.lane l).st == .trapped && (g.lane l).handler)
  let a := g.lane l
  let c : Cause := ⟨bits a.tcause.toNat 7 0, bits a.tcause.toNat 15 8, a.taddr, 0, 0, false⟩
  let e := groupEntry s g c a.tpc (1#128 <<< l) true
  let s := s.mapGroup g.task g.block g.index fun g =>
    { g.endLanes (laneSet g.width fun _ => true) .killed with handler := false }
  (s.modTask g.task fun t => { t with ended := true }).trapDue (.group g.task g.block g.index) e

/-- A handler lane is trapped, which ends the group (R290, R304). -/
def Group.nested (g : Group) : Bool := g.lanes.any fun a => a.st == .trapped && a.handler

/-- Handler mode has no handler lane left (R290). -/
def Group.handlerOver (g : Group) : Bool := g.handler && g.lanes.all fun a => !a.handler

/-- Groups whose lanes are all gone retire; a trap in handler mode ends its group; handler mode ends when its last lane is gone; pending
events at cancellation points are delivered; barriers complete (R171, R189, R290, R349). -/
def State.settle1 (s : State) : State :=
  match s.allGroups.find? fun g => g.dead && !g.lanes.isEmpty with
  | some g => (s.retireGroup g).barriers g.task g.block
  | none =>
    match s.allGroups.find? Group.nested with
    | some g => s.nestEnd g
    | none =>
      match s.allGroups.find? Group.handlerOver with
      | some g => s.mapGroup g.task g.block g.index Group.leaveHandler
      | none =>
        match s.allGroups.find? fun g => g.mayCancel && g.atCancelPoint && (s.cx g.ctx).run == .running with
        | some g => (s.deliver g).barriers g.task g.block
        | none => s

/-- The fix point of the above, within as many rounds as there are groups to retire or to deliver to. -/
def State.settleN : Nat → State → State
  | 0, s => s
  | n + 1, s => State.settleN n s.settle1

def State.settle (s : State) : State := s.settleN (4 * s.allGroups.length + 1)

end Sys2Proof.Machine
end

