-- ==== Sys2Proof/Machine/Control.lean ====
section
/-! DEFINITION. Control instructions (R341 to R353, R185 to R192, R302). -/
namespace Sys2Proof.Machine

/-- A state function after an instruction. -/
def Out.then (o : Out) (f : State → State) : Out :=
  match o with
  | .next s => .next (f s)
  | .fault r => .fault r
  | .refused r => .refused r

/-- NOP (R342). -/
def execNop (h : Hdr) (s : State) : Out := issue (.any h [] 1) s fun s _ => s

/-! ## Control transfers (R186, R343, R344) -/

/-- The checks of a target (R343). -/
def targetTrap (t : Int) : Option Cause :=
  let c (code sub : Nat) : Cause := { Cause.at code sub (BitVec.ofNat 64 (trunc t 64)) with acc := 3 }
  if t < 0 ∨ (2 ^ 48 : Nat) ≤ t then some (c cXLATE 3)
  else if t % 8 ≠ 0 then some (c cALIGN 0)
  else none

/-- A lane goes to a target; at or below its clause header it yields (R186). -/
def Lane.goto (a : Lane) (hdr : DWord) (t stamp : Nat) : Lane :=
  let a := { a with lpc := BitVec.ofNat 64 t, inside := none }
  if t ≤ hdr.toNat then { a with yld := true, stamp := stamp } else a

/-- Lanes go to their targets; those that yield share one fresh stamp (R186). -/
def State.jump (s : State) (x : BitVec 128) (t : Nat → Nat) : State :=
  let h := s.g.iss.hdr
  let n := s.g.stamps + 1
  let yields := (lanesIn x s.g.width).any fun l => decide (t l ≤ h.toNat)
  let g := s.g.modLanes x fun l a => a.goto h (t l) n
  { s with g := { g with stamps := if yields then n else g.stamps } }

/-- A branch: the lanes whose target passes the checks go to it, and the others trap (R343). -/
def State.branch (s : State) (n : Nat) (act : BitVec 128) (t : Nat → Int) : State :=
  let bad := laneSet s.g.width fun l => act.getLsbD l && (targetTrap (t l)).isSome
  (s.jump (act &&& ~~~bad) fun l => (t l).toNat).raise n bad fun l => (targetTrap (t l)).getD (.mk0 0)

/-- The target of an immediate form. -/
def State.immTarget (s : State) (imm : Imm) : Int := (s.g.iss.pc.toNat : Int) + 8 * imm.toInt

/-- BRA (R343). -/
def execBra (h : Hdr) (imm : Imm) (s : State) : Out :=
  issue (Info.any h [] 1).ending s fun s act => s.branch 1 act fun _ => s.immTarget imm

/-- BRX (R343). -/
def execBrx (h : Hdr) (a : Src) (s : State) : Out :=
  issue (Info.any h (Src.regs a) (len1 a)).ending s fun s act => s.branch (len1 a) act fun l => ((s.g.s64 a l).toNat : Int)

/-! ## The return stack (R190 to R192) -/

/-- The spill slot d of lane l (R191). -/
def Group.spillSlot (g : Group) (l d : Nat) : Nat := bits g.stk.toNat 47 6 * 64 + (d * g.width + l) * 64

/-- STACK with its underlying code, access kind and address (R192). -/
def stackTrap (sub acc addr : Nat) : Cause := { Cause.at cSTACK sub (BitVec.ofNat 64 addr) with acc := acc }

/-- A fault of a spill or fill is reported as STACK (R192). -/
def asStack {α : Type} (acc : Nat) (m : Mem α) : Mem α := fun s =>
  match m s with
  | (.error (.trap c), s) => (.error (.trap (stackTrap c.code acc c.addr.toNat)), s)
  | r => r

/-- A push, with a spill of a full stack first: the stack and the spill depth after it; the spill's store clears the watchdog (R146,
R190). -/
def pushed (s : State) (l : Nat) (ret : DWord) : Mem (List DWord × Nat) := do
  let a := s.g.lane l
  if a.stack.length < 8 then return (ret :: a.stack, a.spdepth)
  let at_ := s.g.spillSlot l a.spdepth
  if a.spdepth = bits s.g.stk.toNat 63 56 then throw (.trap (stackTrap 0 1 at_))
  asStack 1 (storeBytes (s.who l) at_ 0 (a.stack.reverse.flatMap fun e => toBytes 8 e.toNat))
  Mem.mod fun t => t.modCore s.g.core fun c => { c with watch := 0 }
  return ([ret], a.spdepth + 1)

/-- A pop, with a fill of an empty stack first: the address, and the stack and the spill depth after it (R190). -/
def popped (s : State) (l : Nat) : Mem (DWord × List DWord × Nat) := do
  let a := s.g.lane l
  match a.stack with
  | t :: r => return (t, r, a.spdepth)
  | [] =>
    if a.spdepth = 0 then throw (.trap (stackTrap 0 0 0))
    let at_ := s.g.spillSlot l (a.spdepth - 1)
    let bs ← asStack 0 (loadBytes (s.who l) at_ 64 0)
    let es := (List.range 8).map fun i => fieldAt bs (8 * i) 8
    match (List.range 8).find? fun i => decide (2 ^ 48 ≤ es.getD i 0) with
    | some i => throw (.trap (stackTrap 0 0 (at_ + 8 * i)))
    | none =>
      let r := (es.reverse.map fun e => BitVec.ofNat 64 e)
      return (r.headD 0, r.tail, a.spdepth - 1)

/-- The stamp of the lanes that set their yield bits at the transfer in issue: the one that lanes of it have taken at an earlier try, or
a fresh one (R186). -/
def State.transferStamp (s : State) : Nat :=
  if s.g.iss.todo.isSome && (lanesIn s.g.iss.x s.g.width).any fun l => (s.g.lane l).yld then s.g.stamps else s.g.stamps + 1

/-- A lane's stack and position after a call or return. -/
def setLane (l : Nat) (hdr : DWord) (t stamp : Nat) (stack : List DWord) (depth : Nat) : Mem Unit :=
  Mem.mod fun s =>
    let g := s.g.modLane l fun a => { (a.goto hdr t stamp) with stack := stack, spdepth := depth }
    { s with g := { g with stamps := if t ≤ hdr.toNat then stamp else g.stamps } }

/-- CALL and CALLX in a lane (R344). -/
def callLane (s : State) (n l : Nat) (t : Int) : Mem LaneOut := do
  match targetTrap t with
  | some c => throw (.trap c)
  | none =>
    let (st, d) ← pushed s l (s.g.iss.after n)
    setLane l s.g.iss.hdr t.toNat s.transferStamp st d
    return {}

/-- CALL (R344). -/
def execCall (h : Hdr) (imm : Imm) (s : State) : Out :=
  mop (Info.any h [] 1).ending s fun s l => callLane s 1 l (s.immTarget imm)

/-- CALLX (R344). -/
def execCallx (h : Hdr) (a : Src) (s : State) : Out :=
  mop (Info.any h (Src.regs a) (len1 a)).ending s fun s l => callLane s (len1 a) l ((s.g.s64 a l).toNat : Int)

/-- RET (R344). -/
def execRet (h : Hdr) (s : State) : Out :=
  mop (Info.any h [] 1).ending s fun s l => do
    let (t, st, d) ← popped s l
    if bits t.toNat 2 0 ≠ 0 then throw (.trap { Cause.at cALIGN 0 t with acc := 3 })
    setLane l s.g.iss.hdr t.toNat s.transferStamp st d
    return {}

/-! ## Lanes that end, yield or join -/

/-- EXIT (R345). -/
def execExit (h : Hdr) (s : State) : Out :=
  Out.then (issue (Info.any h [] 1).ending.holding s fun s act => { s with g := s.g.endLanes act .finished }) State.settle

/-- A fresh yield stamp for a set of lanes (R186). -/
def Group.yieldLanes (g : Group) (x : BitVec 128) : Group :=
  let n := g.stamps + 1
  { g.modLanes x fun _ a => { a with yld := true, stamp := n } with stamps := n }

/-- YIELD; in a DET launch it ends the group's turn (R147, R346). -/
def execYield (h : Hdr) (s : State) : Out :=
  issue (Info.any h [] 1).ending s fun s act => { s with g := { s.g.yieldLanes act with passed := s.g.det } }

/-- JMARK (R347). -/
def execJmark (h : Hdr) (j : JReg) (s : State) : Out :=
  Out.then (issue (.any h [] 1) s fun s act =>
    { s with g := { s.g with j := Store.put 0 s.g.j j.toNat act }.releaseJoin j.toNat }) State.settle

/-- JWAIT: lanes of the mask park, and go on when the mask is complete (R188, R348). -/
def execJwait (h : Hdr) (j : JReg) (s : State) : Out :=
  Out.then (issue (Info.any h [] 1).ending s fun s act =>
    let inn := act &&& s.g.rj j
    let g := s.g.modLanes inn fun _ a => { a with st := .joinPark j }
    { s with g := { g with arrived := Store.put 0 g.arrived j.toNat (Store.get 0 g.arrived j.toNat ||| inn) }.releaseJoin j.toNat }) State.settle

/-! ## Barriers (R349 to R351) -/

/-- BAR (R349). -/
def execBar (h : Hdr) (b : BarReg) (s : State) : Out :=
  Out.then (issue (Info.any h [] 1).ending.holding s (atPoint fun s act =>
    let s := { s with g := s.g.modLanes act fun _ a => { a with st := .barPark b } }
    s.barrier false b fun g => g.inBlock s.g.task s.g.block)) State.settle

/-- ABAR: arrival is a release at .a; without a cohort it raises ROLE (R351). -/
def execAbar (h : Hdr) (b : BarReg) (s : State) : Out :=
  Out.then (issue (Info.any h [] 1).ending.holding s (atPoint fun s act =>
    let c := ((s.task s.g.task).map Task.cohort).getD 0
    if c = 0 then s.raiseAll 1 act (.mk0 cROLE)
    else
      match (release (s.who (lowest act)) 2).on s with
      | (.error (.trap c), s) => s.raiseAll 1 act c
      | (.error .wait, s) => s.waitFor .retry none
      | (.ok _, s) =>
        let s := { s with g := s.g.modLanes act fun _ a => { a with st := .abarPark b } }
        s.barrier true b fun g => g.inCohort s.g.task s.g.block c)) State.settle

/-! ## Cancellation point, breakpoints and traps (R352, R353) -/

/-- CHKC (R352). -/
def execChkc (h : Hdr) (s : State) : Out :=
  Out.then (issue (Info.any h [] 1).ending s (atPoint fun s _ => s)) State.settle

/-- BKPT (R353). -/
def execBkpt (h : Hdr) (s : State) : Out :=
  issue (Info.any h [] 1).ending s fun s act => s.raiseAll 1 act (.mk0 cBKPT)

/-- TRAP with IMM[26] = 0 raises BKPT (R353). -/
def execTrap (h : Hdr) (_code : BitVec 26) (s : State) : Out :=
  issue (Info.any h [] 1).ending s fun s act => s.raiseAll 1 act (.mk0 cBKPT)

/-- The service trap: the active lanes park at the TRAP word, and the request enters the trap ring (R302, R353). -/
def execTrapSvc (h : Hdr) (n : BitVec 24) (s : State) : Out :=
  Out.then (issue (Info.any h [] 1).ending s fun s act =>
    let i := s.g.iss
    let s := { s with g := { s.g.modLanes act fun _ a =>
      { a with st := .service, lpc := i.pc, inside := some i.bounds } with iss := { i with x := i.x &&& ~~~act } } }
    s.trapDue (.service s.g.task s.g.block s.g.index i.pc)
      { groupEntry s s.g (.mk0 0) i.pc act false with src := 8, info := n.toNat }) State.settle

end Sys2Proof.Machine
end

