-- ==== Sys2Proof/Machine/Counters.lean ====
section
/-! DEFINITION. Dependence counters: ownership, adjustment, and the release of held cards and waiting groups (R152 to R154). -/
namespace Sys2Proof.Machine

/-- The counter exists and the context owns it (R152, R403). -/
def State.ownsCounter (s : State) (ctx : Word) (n : Nat) : Bool := decide (n < 4096) && (s.counter n).owner == some ctx

/-- VALUE := VALUE - a, clamped, with UNDER set on a clamp (R152). -/
def Counter.adjust (c : Counter) (a : Int) : Counter :=
  let x : Int := c.value - a
  { c with value := (clamp x 0 0xFFFFFF).toNat, under := c.under || decide (x < 0) || decide (0xFFFFFF < x) }

/-- Slices signal the cores that wait for work (R137). -/
def State.signal (s : State) : State := { s with cores := s.cores.map fun (e : Nat × Core) => (e.1, { e.2 with idle := false }) }

/-- The cards held on a counter enter their lists, in the order in which they were posted: behind every card already there
(R154). -/
def State.releaseCards (s : State) (n : Nat) : State :=
  let out := s.tasks.filter fun t => t.held && t.waitc == n
  let rest := s.tasks.filter fun t => !(t.held && t.waitc == n)
  { s.signal with tasks := rest ++ out.map fun t => { t with held := false } }

/-- The groups that wait on a counter are woken (R154). -/
def State.wakeWaitd (s : State) (n : Nat) : State :=
  s.mapGroups fun g => if g.iss.wait == some (.waitd n) then { g with iss := { g.iss with wait := some .woken } } else g

/-- An adjustment by a at the counter's home slice (R152 to R154). -/
def State.adjust (s : State) (n : Nat) (a : Int) : State :=
  let c := (s.counter n).adjust a
  let s := s.setCounter n c
  if c.value = 0 then (s.releaseCards n).wakeWaitd n else s

end Sys2Proof.Machine
end

