-- ==== Sys2Proof/Machine/Matrix.lean ====
section
/-! DEFINITION. Shape registers, the weight buffer, accumulator frames and the matrix instructions (R249 to R265, R405 to R412). -/
namespace Sys2Proof.Machine

/-! ## Shape registers (R249 to R253) -/

/-- The fields of a shape register. -/
structure Shape where
  v    : Bool
  chg  : Bool
  sc   : Bool
  fmt  : Nat
  rqm  : Nat
  rqn  : Nat
  rqk  : Nat
  gm   : Nat
  gn   : Nat
  em   : Nat
  en   : Nat
  astr : Nat
  kst  : Nat
deriving DecidableEq, Repr

/-- The fields of the 128 bits (R249). -/
def Shape.of (x : BitVec 128) : Shape :=
  let n := x.toNat
  { v := n.testBit 127, chg := n.testBit 126, sc := n.testBit 125, fmt := bits n 124 120, rqm := bits n 119 112
    rqn := bits n 111 104, rqk := bits n 103 91, gm := 8 * 2 ^ bits n 90 89, gn := 8 * 2 ^ bits n 88 87
    em := bits n 86 81, en := bits n 80 74, astr := bits n 63 32, kst := bits n 11 0 }

/-- The code of a granted size 8, 16, 32 or 64. -/
def grantCode (n : Nat) : Nat := if n = 8 then 0 else if n = 16 then 1 else if n = 32 then 2 else 3

/-- The 128 bits of the fields (R249). -/
def Shape.word (p : Shape) : BitVec 128 :=
  BitVec.ofNat 128 (p.v.toNat * 2 ^ 127 + p.chg.toNat * 2 ^ 126 + p.sc.toNat * 2 ^ 125 + p.fmt % 32 * 2 ^ 120
    + p.rqm % 256 * 2 ^ 112 + p.rqn % 256 * 2 ^ 104 + p.rqk % 8192 * 2 ^ 91 + grantCode p.gm * 2 ^ 89
    + grantCode p.gn * 2 ^ 87 + p.em % 64 * 2 ^ 81 + p.en % 128 * 2 ^ 74 + p.astr % 2 ^ 32 * 2 ^ 32 + p.kst % 4096)

/-- The largest of 8, 16 and 32 that does not exceed n. -/
def grantOf (n : Nat) : Nat := if 32 ≤ n then 32 else if 16 ≤ n then 16 else 8

/-- The grant of a request on a part; `leader` when the group belongs to the rank-0 block of a TWIN cohort (R250). -/
def Shape.grant (part : Part) (leader : Bool) (p : Shape) : Shape :=
  { p with gm := grantOf (min p.rqm part.maxM)
           gn := if 64 ≤ p.rqn ∧ leader then 64 else grantOf p.rqn
           kst := min p.rqk 4096 - 1 }

/-- R246 marks scales "Not allowed" for the pair. -/
def noScales (fmt : Nat) : Bool := fmt == 0 || fmt == 5 || fmt == 6 || fmt == 7 || fmt == 8 || fmt == 13 || fmt == 14

/-- The accumulator is S32 (R250). -/
def Shape.s32 (p : Shape) : Bool := p.fmt == 0 || (!p.sc && (p.fmt == 1 || p.fmt == 2))

/-- SHAPE with a sub-cause (R253). -/
def shapeTrap (sub : Nat) : Cause := Cause.at cSHAPE sub 0

/-- The block of the group in issue is the leader of a TWIN cohort. -/
def State.twinLeader (s : State) : Bool :=
  ((s.task s.g.task).map Task.twin).getD false && ((s.gblock).map (·.rank)).getD 0 == 0

/-- SHAPE (R250, R406). -/
def execShape (h : Hdr) (sh : ShReg) (a b : KSrc) (fmt : BitVec 5) (s : State) : Out :=
  issue (.mat h [] (klen2 a b)) s fun s act =>
    let r := (s.g.ks32 a).toNat
    let astr := (s.g.ks32 b).toNat
    let p : Shape :=
      { v := true, chg := false, sc := r.testBit 29, fmt := fmt.toNat, rqm := bits r 7 0, rqn := bits r 15 8, rqk := bits r 28 16
        gm := 8, gn := 8, em := 0, en := 0, astr := astr, kst := 0 }
    if 15 ≤ p.fmt ∨ (p.sc ∧ noScales p.fmt) ∨ astr % 64 ≠ 0 then s.raiseAll (klen2 a b) act (shapeTrap 1)
    else if p.rqm < 8 ∨ p.rqn < 8 ∨ p.rqk = 0 then s.raiseAll (klen2 a b) act (shapeTrap 0)
    else
      let q := p.grant s.part s.twinLeader
      { s with g := s.g.wsh sh { q with em := q.gm, en := q.gn }.word }

/-- CHG clears as the trap of sub-cause 2 is taken (R252; assumption 30). -/
def State.changedShape (s : State) (n : Nat) (act : BitVec 128) (sh : ShReg) : State :=
  ({ s with g := s.g.wsh sh { Shape.of (s.g.rsh sh) with chg := false }.word }).raiseAll n act (shapeTrap 2)

/-- SHEXT (R251, R406). -/
def execShext (h : Hdr) (sh : ShReg) (a : KSrc) (s : State) : Out :=
  issue (.mat h [] (klen1 a)) s fun s act =>
    let p := Shape.of (s.g.rsh sh)
    let e := (s.g.ks32 a).toNat
    let em := bits e 7 0
    let en := bits e 15 8
    if !p.v then s.raiseAll (klen1 a) act (shapeTrap 3)
    else if p.chg then s.changedShape (klen1 a) act sh
    else if em = 0 ∨ p.gm < em ∨ en = 0 ∨ p.gn < en then s.raiseAll (klen1 a) act (shapeTrap 4)
    else { s with g := s.g.wsh sh { p with em := em, en := en }.word }

/-- SHQ (R406). -/
def execShq (h : Hdr) (d : KReg) (sh : ShReg) (s : State) : Out :=
  issue (.mat h [] 1) s fun s _ =>
    let x := if (Shape.of (s.g.rsh sh)).v then s.g.rsh sh else 0
    { s with g := (s.g.wk64 d (x.truncate 64)).wk64 (d + 2) (x.extractLsb' 64 64) }

/-! ## Copy commands on a channel (R199) -/

/-- The commands of a core's channel. -/
def Core.chan (c : Core) (n : Nat) : List CopyCmd := c.chans.getD n []

/-- A command placed on a channel of the issuing block: ISSUED grows, and the group's count of the queue (R180, R201). -/
def State.placeCopy (s : State) (ch : Nat) (c : CopyCmd) : State :=
  let s := s.modCore s.g.core fun k => { k with chans := modifyAt (fun q => q ++ [c]) k.chans ch }
  let s := s.modBlock s.g.task s.g.block fun b =>
    { b with issued := modifyAt (fun n => (n + c.len * c.rows) % 2 ^ 64) b.issued ch }
  { s with g := { s.g with async := modifyAt (· + 1) s.g.async ch } }

/-- The ticket of a command of n bytes: the new ISSUED of its block on the channel (R201). -/
def State.nextTicketOf (s : State) (ch n : Nat) : Nat := ((((s.gblock).map (·.issued)).getD []).getD ch 0 + n) % 2 ^ 64

/-- A command of the group in issue with the fields that every command carries; `after` is the place in the order of issue
among the core's matrix operations (R256). -/
def State.newCopy (s : State) : CopyCmd :=
  { task := s.g.task, block := s.g.block, gi := s.g.index, ctx := s.g.ctx, skind := 0, srank := 0, saddr := 0, dkind := 0
    drank := 0, daddr := 0, len := 0, rows := 1, sstr := 0, dstr := 0, dc := none, ticket := 0, pos := 0, chunk := 0
    stop := none, after := s.nextId, pc := s.g.iss.pc, priv := s.g.priv, refill := false }

/-! ## The weight buffer (R255, R256) -/

def slotBytes : Nat := 16384

/-- The owner of the slots that a block fills: the launch, and the cohort's first block or the block (R256). -/
def State.slotOwner (s : State) (task block : Nat) : Nat × Nat :=
  let c := ((s.task task).map Task.cohort).getD 0
  (task, if c = 0 then block else block / c * c)

def Core.wslot (c : Core) (i : Nat) : WSlot := Store.get WSlot.reset c.wslots i

def Core.setWslot (c : Core) (i : Nat) (w : WSlot) : Core := { c with wslots := Store.put WSlot.reset c.wslots i w }

def WSlot.heldBy (w : WSlot) (o : Nat × Nat) : Bool := w.task == o.1 && w.owner == o.2

/-- Elements of one chunk, the width of B in bits, and the width of A in bits, by FMT (R246). -/
def pairInfo (fmt : Nat) : Nat × Nat × Nat :=
  match fmt with
  | 0 => (64, 8, 8)
  | 1 => (64, 4, 8)
  | 2 => (128, 4, 4)
  | 3 => (64, 8, 8)
  | 4 => (32, 8, 16)
  | 5 | 6 | 7 | 8 => (64, 8, 8)
  | 9 | 10 => (64, 4, 8)
  | 11 => (128, 4, 4)
  | 12 => (32, 4, 16)
  | _ => (32, 16, 16)

/-- Bytes of B elements per column and chunk, e (R255). -/
def Shape.colBytes (p : Shape) : Nat := let (n, b, _) := pairInfo p.fmt; n * b / 8

/-- Scales per column and chunk, ns (R255). -/
def Shape.colScales (p : Shape) : Nat := let (_, b, _) := pairInfo p.fmt; p.colBytes * 8 / (32 * b)

/-- Columns that each core computes with: the granted N, or 32 for each core of a twin operation. -/
def Shape.cols (p : Shape) : Nat := min p.gn 32

/-- Bk (R255). -/
def Shape.bk (p : Shape) : Nat := roundup (p.cols * p.colBytes + p.sc.toNat * p.cols * p.colScales * 3) 64

/-- The slots that a stream of n bytes from the base of a slot touches. -/
def slotsOf (slot n : Nat) : List Nat := (List.range (cdiv n slotBytes)).map (slot + ·)

/-- The slots of K-step k of an operation (R255). -/
def stepSlots (p : Shape) (slot k : Nat) : List Nat :=
  let lo := k * p.bk / slotBytes
  let hi := ((k + 1) * p.bk - 1) / slotBytes
  (List.range (hi + 1 - lo)).map (slot + lo + ·)

/-- WBLD (R407). -/
def execWbld (h : Hdr) (a b : KSrc) (slot : BitVec 6) (ch : BitVec 2) (s : State) : Out :=
  let n := klen2 a b
  issue (.mat h [] n) s fun s act =>
    let va := s.g.ks64 a
    let len := (s.g.ks32 b).toNat
    let slots := slotsOf slot.toNat len
    let o := s.slotOwner s.g.task s.g.block
    let core := s.core s.g.core
    if va.toNat % 64 ≠ 0 ∨ len % 64 ≠ 0 ∨ len = 0 then s.raiseAll n act (Cause.at cALIGN 0 va)
    else if s.part.slots ≤ slot.toNat + cdiv len slotBytes - 1 then s.raiseAll n act (.mk0 cPERM)
    else if slots.any fun i => (core.wslot i).st != .empty && !(core.wslot i).heldBy o then s.raiseAll n act (.mk0 cPERM)
    else if s.g.counterFull ch.toNat then s.waitFor .engine none
    else
      match (release (s.who (lowest act)) 3).on s with
      | (.error (.trap c), s) => s.raiseAll n act c
      | (.error .wait, s) => s.waitFor .retry none
      | (.ok _, s) =>
        let s := s.modCore s.g.core fun k => slots.foldl (fun k i =>
          let off := slotBytes * (i - slot.toNat)
          k.setWslot i { k.wslot i with
            st := .filling, task := o.1, owner := o.2, src := va.toNat + off, len := min slotBytes (len - off), ch := ch.toNat
            priv := s.g.priv }) k
        let c := { s.newCopy with saddr := va.toNat, dkind := 2, daddr := slotBytes * slot.toNat, len := len
                                  ticket := s.nextTicketOf ch.toNat len }
        { s with nextId := s.nextId + 1 }.placeCopy ch.toNat c

/-! ## Accumulator frames (R258 to R260) -/

def Core.frame (c : Core) (f : Nat) : Frame := Store.get Frame.reset c.frames f

def Core.setFrame (c : Core) (f : Nat) (x : Frame) : Core := { c with frames := Store.put Frame.reset c.frames f x }

/-- Element e of a frame. -/
def Core.elem (c : Core) (f e : Nat) : Word := Store.get 0 c.fbits (1024 * f + e)

def Core.setElem (c : Core) (f e : Nat) (x : Word) : Core := { c with fbits := Store.put 0 c.fbits (1024 * f + e) x }

/-- Every element of a frame becomes zero. -/
def Core.clearFrame (c : Core) (f : Nat) : Core :=
  { c with fbits := c.fbits.filter fun e => !(decide (1024 * f ≤ e.1) && decide (e.1 < 1024 * f + 1024)) }

/-- The frame belongs to another block (R258). -/
def Core.frameTaken (c : Core) (f : Nat) (o : Nat × Nat) : Bool :=
  match (c.frame f).owner with
  | none => false
  | some b => b != o

/-- A block that names a frame of no block claims it, cleared to zero (R258). -/
def Core.claim (c : Core) (f : Nat) (o : Nat × Nat) : Core :=
  match (c.frame f).owner with
  | some _ => c
  | none => (c.clearFrame f).setFrame f { Frame.reset with owner := some o }

/-- An operation on the frame is pending (R260). -/
def Core.framePending (c : Core) (f : Nat) : Bool :=
  c.mq.any (fun o => o.frame == f) || (c.drain.map fun d => d.op.frame == f).getD false
    || c.aside.any fun d => d.op.frame == f

/-- A lane outside the clause in issue takes a trap at an instruction it has parked at; in handler mode this ends its group
(R267, R287, R290). -/
def State.trapParked (s : State) (g : Group) (l : Nat) (c : Cause) (pc : DWord) : State :=
  if (g.lane l).handler then
    let e := groupEntry s g c pc (1#128 <<< l) true
    let s := s.mapGroup g.task g.block g.index fun g =>
      { g.endLanes (laneSet g.width fun _ => true) .killed with handler := false }
    (s.modTask g.task fun t => { t with ended := true }).trapDue (.group g.task g.block g.index) e
  else
    s.mapGroup g.task g.block g.index fun g => g.modLane l fun a =>
      { a with st := .trapped, lpc := pc, tcause := c.tcause, taddr := c.addr, tpc := pc, tnpc := a.lpc, inside := some a.tclause
               marked := false, stepDue := false }

/-- What an ACCRD of a row meets: it returns, traps NAN or waits (R259, R267, R410). -/
inductive RowSt where
  | ready | frozen | wait
deriving DecidableEq, Repr

def Frame.row (f : Frame) (i : Nat) : RowSt :=
  if f.nanf ∧ f.frozen ≤ i then .frozen else if i < f.wm then .ready else .wait

/-- The element writes of an ACCRD. -/
def Core.accWrites (c : Core) (d : VReg) (f : FrameReg) (e : Nat) (w4 : Bool) : List (VReg × Word) :=
  (List.range (if w4 then 4 else 1)).map fun m => (if d.toNat = 1023 then d else d + BitVec.ofNat 10 m, c.elem f.toNat (e + m))

/-- One lane parked at ACCRD is examined. -/
def State.wakeAcc1 (s : State) (core : Nat) (g : Group) (l : Nat) : State :=
  match (g.lane l).st with
  | .accPark d f e w4 pc _ =>
    match ((s.core core).frame f.toNat).row (e.toNat / 32) with
    | .wait => s
    | .frozen => s.trapParked g l (Cause.at cNAN 0 (e.zeroExtend 64)) pc
    | .ready =>
      let ws := (s.core core).accWrites d f e.toNat w4
      s.mapGroup g.task g.block g.index fun g => (ws.foldl (fun g w => g.wv w.1 l w.2) g).modLane l Lane.wake
  | _ => s

/-- The lanes that wait at ACCRD on a core are examined after a watermark or NANF has changed. -/
def State.wakeAcc (s : State) (core : Nat) : State :=
  (s.allGroups.filter fun g => g.core == core).foldl (fun s g => (lanesIn (laneSet g.width fun _ => true) g.width).foldl
    (fun s l => s.wakeAcc1 core ((s.findGroup g.task g.block g.index).getD g) l) s) s

/-- The block that owns the frames a group names. -/
def Group.owner (g : Group) : Nat × Nat := (g.task, g.block)

/-- ACCRD (R410). -/
def execAccrd (h : Hdr) (d : VReg) (f : FrameReg) (b : Src) (w4 : Bool) (s : State) : Out :=
  let n := len1 b
  issue (.mat h (d :: Src.regs b) n) s fun s act =>
    let taken := (s.core s.g.core).frameTaken f.toNat s.g.owner
    if !taken && decide (63 ≤ s.g.loads) then s.waitFor .engine none
    else
      let s := if taken then s else s.modCore s.g.core fun c => c.claim f.toNat s.g.owner
      let c := s.core s.g.core
      let e (l : Nat) := (s.g.s32 b l).toNat
      let w := if w4 then 4 else 1
      let trap (l : Nat) : Option Cause :=
        if w4 ∧ e l % 4 ≠ 0 then some (Cause.at cALIGN 0 (BitVec.ofNat 64 (e l)))
        else if taken then some (.mk0 cPERM)
        else if 1024 < e l + w then some (Cause.at cPERM 0 (BitVec.ofNat 64 (e l)))
        else if (c.frame f.toNat).row (e l / 32) = .frozen then some (Cause.at cNAN 0 (BitVec.ofNat 64 (e l)))
        else none
      let bad := laneSet s.g.width fun l => act.getLsbD l && (trap l).isSome
      let ready := laneSet s.g.width fun l => act.getLsbD l && !bad.getLsbD l && (c.frame f.toNat).row (e l / 32) == .ready
      let park := act &&& ~~~bad &&& ~~~ready
      let i := s.g.iss
      let g := (lanesIn ready s.g.width).foldl (fun g l =>
        (c.accWrites d f (e l) w4).foldl (fun g x => g.wv x.1 l x.2) g) s.g
      let g := g.modLanes park fun l a =>
        { a with st := .accPark d f (s.g.s32 b l) w4 i.pc (s.g.waitingLoads.foldl max 0 + 1), tclause := i.bounds, stepDue := s.g.stepping }
      ({ s with g := { g with iss := { i with x := i.x &&& ~~~park } } }).raise n bad fun l => (trap l).getD (.mk0 0)

/-- What ACCWR and ACCCLR share: ownership, the wait for the frame, and the claim (R258, R259, R411). -/
def frameWrite (i : Info) (f : FrameReg) (s : State) (body : State → BitVec 128 → State) : Out :=
  issue i s fun s act =>
    let c := s.core s.g.core
    if c.frameTaken f.toNat s.g.owner then s.raiseAll i.len act (.mk0 cPERM)
    else if (c.frame f.toNat).owner.isSome ∧ (c.framePending f.toNat ∨ (c.frame f.toNat).wm ≠ 32) then s.waitFor .engine none
    else body (s.modCore s.g.core fun c => c.claim f.toNat s.g.owner) act

/-- ACCWR (R411). -/
def execAccwr (h : Hdr) (f : FrameReg) (a b : Src) (s : State) : Out :=
  let n := len2 a b
  frameWrite (.mat h (Src.regs a ++ Src.regs b) n) f s fun s act =>
    let e (l : Nat) := (s.g.s32 a l).toNat
    let bad := laneSet s.g.width fun l => act.getLsbD l && decide (1023 < e l)
    let s := s.modCore s.g.core fun c =>
      (lanesIn (act &&& ~~~bad) s.g.width).foldl (fun c l => c.setElem f.toNat (e l) (s.g.s32 b l)) c
    s.raise n bad fun l => Cause.at cPERM 0 (BitVec.ofNat 64 (e l))

/-- ACCCLR (R411). -/
def execAccclr (h : Hdr) (f : FrameReg) (s : State) : Out :=
  frameWrite (.mat h [] 1) f s fun s _ =>
    s.modCore s.g.core fun c =>
      (c.clearFrame f.toNat).setFrame f.toNat { c.frame f.toNat with satf := false, nanf := false, frozen := 0 }

/-- The frame status word (R260). -/
def Core.frameStatus (c : Core) (f : Nat) : Word :=
  let x := c.frame f
  BitVec.ofNat 32 ((c.framePending f).toNat * 2 ^ 11 + x.s32.toNat * 2 ^ 10 + x.nanf.toNat * 2 ^ 9 + x.satf.toNat * 2 ^ 8 + x.wm)

/-- WMARK (R412). -/
def execWmark (h : Hdr) (d : KReg) (f : FrameReg) (s : State) : Out :=
  issue (.mat h [] 1) s fun s act =>
    let c := s.core s.g.core
    if c.frameTaken f.toNat s.g.owner then s.raiseAll 1 act (.mk0 cPERM)
    else { s with g := s.g.wk d (c.frameStatus f.toNat) }

/-! ## Drain programs (R263, R265) -/

/-- A micro-instruction that keeps R265. -/
def microOk (w : Word) : Bool :=
  let n := w.toNat
  let op := bits n 31 28
  let td := bits n 27 26
  let sa := bits n 25 23
  let sb := bits n 22 20
  let imm := bits n 19 0
  let none3 := decide (td = 0) && decide (sa = 0) && decide (sb = 0)
  match op with
  | 0 => none3 && decide (imm = 0)
  | 1 => decide (sb = 0) && decide (imm = 0)
  | 2 | 3 => decide (sb = 0) && decide (imm < 8)
  | 4 | 5 => decide (imm = 0)
  | 6 => decide (sb = 0) && decide (imm < 3)
  | 7 => decide (sb = 0) && decide (imm = 0)
  | 8 => decide (sb = 0) && decide (imm < 4)
  | 9 => decide (td = 0) && decide (sb = 0) && decide (imm < 4)
  | 10 => decide (td = 0) && decide (sb = 0) && decide (imm = 0)
  | 11 => decide (sb = 0) && decide (imm < 256) && decide (imm % 16 < 14)
  | 12 => decide (td = 0) && decide (sb = 0) && decide (imm < 12) && decide (imm % 4 < 3)
  | 13 => decide (td = 0) && decide (imm < 4)
  | 14 => none3
  | _ => decide (imm = 0)

/-- A program that uses RESF before its END. -/
def usesResf (ws : List Word) : Bool :=
  (ws.takeWhile fun w => bits w.toNat 31 28 != 0).any fun w => bits w.toNat 31 28 == 13

/-- The slot that holds a tag (R263). -/
def Core.program (c : Core) (asn khdr n : Nat) : Option DSlot := c.dslots.find? fun d => d.asn == asn && d.khdr == khdr && d.n == n

/-- The address-space number of the group in issue. -/
def State.asnOf (s : State) (ctx : Word) : Nat := bits (s.cx ctx).atb.toNat 63 48

/-- The kernel header of a launch. -/
def State.khdrOf (s : State) (task : Nat) : Nat := ((s.task task).map Task.khdr).getD 0

/-- The cores that a group's drain programs and twin operations concern: its own, and the follower's for a TWIN leader. -/
def State.twinCores (s : State) (twin : Bool) : List (Nat × (Nat × Nat)) :=
  if twin then [(s.g.core, s.g.owner), (s.g.core + 1, (s.g.task, s.g.block + 1))] else [(s.g.core, s.g.owner)]

/-- A program placed on a core, or its slot reused, for a block. -/
def Core.loadProgram (c : Core) (asn khdr n : Nat) (user : Nat × Nat) (ws : List Word) : Core :=
  match c.program asn khdr n with
  | some _ =>
    let tagged (d : DSlot) : Bool := d.asn == asn && d.khdr == khdr && d.n == n
    let use (d : DSlot) : DSlot := { d with users := if d.users.contains user then d.users else user :: d.users }
    { c with dslots := mapWhere tagged use c.dslots }
  | none => { c with dslots := c.dslots ++ [{ asn := asn, khdr := khdr, n := n, users := [user], words := ws }] }

/-- DRNLD (R263, R412). -/
def execDrnld (h : Hdr) (n : BitVec 5) (s : State) : Out :=
  issue (.mat h [] 1) s fun s act =>
    match s.task s.g.task with
    | none => s
    | some t =>
      let asn := s.asnOf s.g.ctx
      let cores := s.twinCores s.twinLeader
      let missing := cores.any fun c => ((s.core c.1).program asn t.khdr n.toNat).isNone
      let load (s : State) (ws : List Word) := cores.foldl (fun s c =>
        s.modCore c.1 fun k => k.loadProgram asn t.khdr n.toNat c.2 ws) s
      if bits (t.h 6) 39 32 ≤ n.toNat then s.raiseAll 1 act (shapeTrap 7)
      else if cores.any fun c => ((s.core c.1).program asn t.khdr n.toNat).isNone && decide (32 ≤ (s.core c.1).dslots.length) then
        s.raiseAll 1 act (shapeTrap 7)
      else if !missing then load s []
      else
        let at_ := t.khdr + bits (t.h 6) 31 0 + 64 * n.toNat
        match (withAcc 3 (readParts (s.who (lowest act)) .fetch false 3 at_ 64)).on s with
        | (.error (.trap c), s) => s.raiseAll 1 act c
        | (.error .wait, s) => s.waitFor .retry none
        | (.ok bs, s) =>
          let ws := (List.range 16).map fun i => BitVec.ofNat 32 (fieldAt bs (4 * i) 4)
          if ws.all microOk then load s ws else s.raiseAll 1 act (.mk0 cILLEGAL)

/-! ## Issuing a matrix operation (R261, R408, R409) -/

/-- The checks of R261 and R409 in their order: the first cause that fails. -/
def State.mmaCheck (s : State) (f : Nat) (aoff ctl : Nat) (p : Shape) (twin : Bool) : Option Cause :=
  let slot := bits ctl 5 0
  let den := ctl.testBit 11
  let asn := s.asnOf s.g.ctx
  let khdr := s.khdrOf s.g.task
  let cores := s.twinCores twin
  let progs := cores.map fun c => (s.core c.1).program asn khdr (bits ctl 10 6)
  let stream := (p.kst + 1) * p.bk
  let o := s.slotOwner s.g.task s.g.block
  let off := BitVec.ofNat 64 aoff
  if !p.v then some (shapeTrap 3)
  else if (twin != (p.gn == 64)) || (twin && den && progs.any fun d => (d.map fun d => usesResf d.words).getD false) then
    some (shapeTrap 5)
  else if cores.any fun c => (s.core c.1).frameTaken f c.2 then some (.mk0 cPERM)
  else if aoff % 64 ≠ 0 then some (Cause.at cALIGN 0 off)
  else if s.g.scratch < aoff + (p.em - 1) * p.astr + 64 * (p.kst + 1) then some (Cause.at cPERM 0 off)
  else if s.part.slots * slotBytes < slot * slotBytes + stream then some (shapeTrap 6)
  else if cores.any fun c => (slotsOf slot stream).any fun i =>
      ((s.core c.1).wslot i).st == .empty || !((s.core c.1).wslot i).heldBy o then some (.mk0 cPERM)
  else if den && progs.any Option.isNone then some (shapeTrap 7)
  else if ctl.testBit 12 && !s.ownsCounter s.g.ctx (bits ctl 24 13) then some (.mk0 cPERM)
  else none

/-- MMA (R409). -/
def execMma (h : Hdr) (f : FrameReg) (a b : KSrc) (sh : ShReg) (pk : KReg) (twin z : Bool) (s : State) : Out :=
  let n := klen2 a b
  issue (.mat h [] n) s fun s act =>
    let p := Shape.of (s.g.rsh sh)
    let aoff := (s.g.ks32 a).toNat
    let ctl := (s.g.ks32 b).toNat
    if p.v && p.chg then s.changedShape n act sh
    else
      match s.mmaCheck f.toNat aoff ctl p twin with
      | some c => s.raiseAll n act c
      | none =>
        if s.g.counterFull 4 || (ctl.testBit 11 && s.g.counterFull 5) then s.waitFor .engine none
        else
        let op : MOp :=
          { id := s.nextId, task := s.g.task, block := s.g.block, gi := s.g.index, ctx := s.g.ctx, frame := f.toNat
            sh := s.g.rsh sh, aoff := aoff, slot := bits ctl 5 0, den := ctl.testBit 11, drn := bits ctl 10 6
            pk := (List.range 4).map fun i => if pk.toNat + i = 63 then 0 else s.g.rk (pk + BitVec.ofNat 6 i)
            twin := twin, half := false, z := z, ftz := s.g.ftz, nant := s.g.nant, dv := ctl.testBit 12
            dc := bits ctl 24 13, next := 0, nan := none, pc := s.g.iss.pc }
        let s := (s.twinCores twin).foldl (fun s c => s.modCore c.1 fun k =>
          let k := k.claim f.toNat c.2
          let k := k.setFrame f.toNat { k.frame f.toNat with wm := 0, s32 := p.s32 }
          { k with mq := k.mq ++ [{ op with half := c.1 != s.g.core }] }) s
        let q := modifyAt (· + 1) s.g.async 4
        { s with nextId := s.nextId + 1, g := { s.g with async := if op.den then modifyAt (· + 1) q 5 else q } }

end Sys2Proof.Machine
end

