-- ==== Sys2Proof/Machine/Async.lean ====
section
/-! DEFINITION. Copies, write pointers, stage rings and register blocks (R141 to R143, R178, R199 to R201, R413 to R417). -/
namespace Sys2Proof.Machine

/-! ## COPY and RDWPT -/

/-- Blocks in the cohort of the block in issue, or 1 without a cohort: the ranks that exist (R199). -/
def State.ranks (s : State) : Nat :=
  let c := ((s.task s.g.task).map Task.cohort).getD 0
  if c = 0 then 1 else c

/-- The command of a descriptor and a counter word (R413). -/
def State.copyOf (s : State) (a : KReg) (ctl : Nat) : CopyCmd :=
  let k (i : Nat) : Nat := (s.g.rk (a + BitVec.ofNat 6 i)).toNat
  let w5 := k 5
  let sk := (w5.testBit 16).toNat
  let dk := (w5.testBit 20).toNat
  { s.newCopy with
    skind := sk, srank := bits w5 18 17, saddr := if sk = 1 then k 0 else k 1 * 2 ^ 32 + k 0
    dkind := dk, drank := bits w5 22 21, daddr := if dk = 1 then k 2 else k 3 * 2 ^ 32 + k 2
    len := k 4, rows := bits w5 12 0, sstr := k 6, dstr := k 7
    dc := if ctl.testBit 12 then some (bits ctl 11 0) else none }

/-- COPY (R413, R414). -/
def execCopy (h : Hdr) (d : KReg) (a : KReg) (b : KSrc) (ch : BitVec 2) (s : State) : Out :=
  let n := klen1 b
  issue { Info.cpy h [] n with role := Role.cpy } s fun s act =>
    let c := s.copyOf a (s.g.ks32 b).toNat
    let w5 := (s.g.rk (a + 5)).toNat
    let zero := bits w5 31 23 = 0 ∧ bits w5 19 19 = 0 ∧ bits w5 15 13 = 0
    if c.len = 0 ∨ 2 ^ 20 < c.len ∨ c.rows = 0 ∨ 4096 < c.rows ∨ ¬ zero then s.raiseAll n act (.mk0 cPERM)
    else if (c.skind = 1 ∧ s.ranks ≤ c.srank) ∨ (c.dkind = 1 ∧ s.ranks ≤ c.drank) then s.raiseAll n act (.mk0 cPERM)
    else if (c.dc.map fun x => !s.ownsCounter s.g.ctx x).getD false then s.raiseAll n act (.mk0 cPERM)
    else if s.g.counterFull ch.toNat then s.waitFor .engine none
    else
      match (release (s.who (lowest act)) 3).on s with
      | (.error (.trap c), s) => s.raiseAll n act c
      | (.error .wait, s) => s.waitFor .retry none
      | (.ok _, s) =>
        let t := s.nextTicketOf ch.toNat (c.len * c.rows)
        let s := s.placeCopy ch.toNat { c with ticket := t }
        { s with g := s.g.wk64 d (BitVec.ofNat 64 t) }

/-- RDWPT: DONE of the channel, with the acquire effect of R229 (R415). -/
def execRdwpt (h : Hdr) (d : WptDst) (ch : BitVec 2) (s : State) : Out :=
  let regs := match d with
    | .v r => [r]
    | .k _ => []
  issue (.cpy h regs 1) s fun s act =>
    let x := BitVec.ofNat 64 ((((s.gblock).map (·.done)).getD []).getD ch.toNat 0)
    let s := s.dropClean s.g.core
    match d with
    | .k r => { s with g := s.g.wk64 r x }
    | .v r => { s with g := (lanesIn act s.g.width).foldl (fun g l => (vwrites64 r x).foldl (fun g w => g.wv w.1 l w.2) g) s.g }

/-! ## Stage rings (R141 to R143, R416) -/

/-- The uses of R142 that raise ROLE. -/
def State.ringRole (s : State) (i : Nat) (prod : Bool) (acquire : Bool) : Bool :=
  match s.task s.g.task, s.gblock with
  | some t, some b =>
    let r := b.ring i
    let gi := s.g.index
    let kind := fun x : RingSlot => x == (if prod then .reserved gi else .taken gi)
    t.nstage == 0 || r.depth == 0 || t.stageOf gi != (if prod then r.prod else r.cons)
      || (if acquire then r.holds gi || (List.range 8).any fun j => decide (i < j) && (b.ring j).holds gi
          else !r.slots.any kind)
  | _, _ => true

/-- The group's slot of the kind is published or released (R141). -/
def Ring.finish (r : Ring) (prod : Bool) (gi : Nat) : Ring :=
  { r with slots := r.slots.map fun x =>
      if prod then (if x == .reserved gi then .full else x) else if x == .taken gi then .free else x }

/-- A ring instruction, a cancellation point in every form (R404, R416). -/
def ringOp (h : Hdr) (ring : BitVec 3) (prod : Bool) (op : RingOp) (s : State) : Out :=
  issue (Info.cpy h [] 1).ending s (atPoint fun s act =>
    let i := ring.toNat
    let set (s : State) (r : Ring) := s.modBlock s.g.task s.g.block fun b => b.setRing i r
    let r := ((s.gblock).map fun b => b.ring i).getD ⟨0, 0, 0, 0, false, 0, false, [], [], []⟩
    match op with
    | .done =>
      if s.ringRole i prod false then s.raiseAll 1 act (.mk0 cROLE)
      else set s (r.finish prod s.g.index)
    | .acq d =>
      if s.ringRole i prod true then s.raiseAll 1 act (.mk0 cROLE)
      else
        let gone := s.stageGone s.g.task s.g.block (if prod then r.cons else r.prod)
        match r.acquire i prod s.g.index gone with
        | some (x, r) => let s := set s r; { s with g := s.g.wk d x }
        | none => (set s (r.await prod s.g.index)).waitFor .ring none)

/-- RINGP (R416). -/
def execRingp (h : Hdr) (ring : BitVec 3) (op : RingOp) (s : State) : Out := Out.then (ringOp h ring true op s) State.settle

/-- RINGC (R416). -/
def execRingc (h : Hdr) (ring : BitVec 3) (op : RingOp) (s : State) : Out := Out.then (ringOp h ring false op s) State.settle

/-! ## Register blocks (R178, R417) -/

/-- REGACQ (R178, R417). -/
def execRegacq (h : Hdr) (a : KSrc) (s : State) : Out :=
  let len := klen1 a
  let again := s.g.iss.wait == some .regacq
  issue (Info.ctl h [] len).ending s fun s act =>
    let n := (s.g.ks32 a).toNat
    let req := (s.g.quad, s.g.task, s.g.block, s.g.index, n)
    if n ≤ s.g.grant then s
    else if s.g.regext < n ∨ 32 < s.g.units n then s.raiseAll len act (.mk0 cREGBOUND)
    else
      let s := if again then s else (s.modCore s.g.core fun c => { c with regq := c.regq ++ [req] }).serveRegs s.g.core s.g.quad 64
      if n ≤ s.g.grant then s
      else if (s.core s.g.core).regq.contains req then s.waitFor .regacq none
      else s.raiseAll len act (.mk0 cREGBOUND)

/-- REGREL (R178, R417). -/
def execRegrel (h : Hdr) (a : KSrc) (s : State) : Out :=
  issue (.ctl h [] (klen1 a)) s fun s _ =>
    let n := (s.g.ks32 a).toNat
    if n < s.g.grant then ({ s with g := s.g.shrink n }).serveRegs s.g.core s.g.quad 64 else s

end Sys2Proof.Machine
end

