-- ==== Sys2Proof/Machine/Futures.lean ====
section
/-! DEFINITION. Futures and cancel sets (R159 to R162, R168, R170). -/
namespace Sys2Proof.Machine

/-! ## Cancel sets (R168) -/

/-- A cancel set, VALUE and MASK (R168, R418). -/
structure CSet where
  value : Half
  mask  : Half
deriving DecidableEq, Repr

/-- VALUE[15:0] and MASK[31:16] of a word. -/
def CSet.of (w : Word) : CSet := ⟨w.truncate 16, w.extractLsb' 16 16⟩

def CSet.word (c : CSet) : Word := c.mask ++ c.value

/-- The tag lies in the set. -/
def CSet.has (c : CSet) (tag : Half) : Bool := tag &&& c.mask == c.value &&& c.mask

/-- An object with this tag and CANCELLABLE flag matches (R168). -/
def CSet.hits (c : CSet) (tag : Half) (canc : Bool) : Bool := canc && c.has tag

/-- New objects with this tag and flag are refused in the context (R170). -/
def State.refuses (s : State) (ctx : Word) (tag : Half) (canc : Bool) : Bool :=
  (s.cx ctx).frozen && (CSet.of (s.cx ctx).dlnact).hits tag canc

/-- The cancel tag and the CANCELLABLE flag of a launch's card. -/
def State.tagOf (s : State) (task : Nat) : Half × Bool :=
  match s.task task with
  | some t => (t.ctag, t.cancellable)
  | none => (0, false)

/-! ## The future table of a core (R159 to R162) -/

def FutSt.final : FutSt → Bool
  | .ready | .cancelled | .faulted => true
  | _ => false

/-- The code that WAITF and TESTF write (R418). -/
def FutSt.code : FutSt → Word
  | .free | .pending => 0
  | .ready => 1
  | .cancelled => 2
  | .faulted => 3

def Core.fut (c : Core) (i : Nat) : Fut := Store.get Fut.reset c.futs i

def Core.setFut (c : Core) (i : Nat) (f : Fut) : Core := { c with futs := Store.put Fut.reset c.futs i f }

/-- The lowest free entry from i on, among n (R159). -/
def Core.freeFut (c : Core) : Nat → Nat → Option Nat
  | 0, _ => none
  | n + 1, i => if (c.fut i).st = .free then some i else c.freeFut n (i + 1)

/-- The generation that follows, modulo 2^15, 0 skipped (R159). -/
def nextGen (g : Nat) : Nat := if (g + 1) % 2 ^ 15 = 0 then 1 else (g + 1) % 2 ^ 15

/-- A handle: core, entry and generation (R159). -/
def futHandle (core entry gen : Nat) : Word := BitVec.ofNat 32 (core * 2 ^ 27 + entry * 2 ^ 15 + gen)

def hCore (h : Word) : Nat := bits h.toNat 31 27
def hEntry (h : Word) : Nat := bits h.toNat 26 15
def hGen (h : Word) : Nat := bits h.toNat 14 0

/-- A future allocated for the group in issue, already CANCELLED when its card is refused; none when the table is full (R159,
R170). -/
def State.allocFut (s : State) (qctx : Option Word) : Option Word × State :=
  let c := s.core s.g.core
  match c.freeFut 4096 0 with
  | none => (none, s)
  | some i =>
    let (tag, canc) := s.tagOf s.g.task
    let gen := nextGen (c.fut i).gen
    let f : Fut :=
      { st := if s.refuses s.g.ctx tag canc then .cancelled else .pending, value := 0, task := s.g.task, block := s.g.block
        gi := s.g.index, ctx := s.g.ctx, qctx := qctx, tag := tag, canc := canc, gen := gen }
    (some (futHandle s.g.core i gen), s.setCore s.g.core (c.setFut i f))

/-- The entry that a handle names, when it is not free and the generation agrees. -/
def State.futOf (s : State) (h : Word) : Option Fut :=
  let f := (s.core (hCore h)).fut (hEntry h)
  if f.st != .free && f.gen == hGen h && decide (hCore h < s.part.cores) then some f else none

def State.setFutOf (s : State) (h : Word) (f : Fut) : State := s.modCore (hCore h) fun c => c.setFut (hEntry h) f

/-- The handle is not refused to the group in issue (R162). -/
def State.ownFut (s : State) (h : Word) : Option Fut :=
  if hCore h = s.g.core then
    (s.futOf h).bind fun f => if s.g.is f.task f.block f.gi then some f else none
  else none

/-- The registers that a returning WAITF writes in a lane. -/
def Group.futWrites (g : Group) (l : Nat) (d c : VReg) (f : Fut) : Group :=
  ((vwrites64 d f.value).foldl (fun g w => g.wv w.1 l w.2) g).wv c l f.st.code

/-- Lanes of a group parked on a handle return from WAITF (R161). -/
def Group.wakeFut (g : Group) (h : Word) (f : Fut) : Group :=
  (List.range g.width).foldl (fun g l =>
    match (g.lane l).st with
    | .futPark h' d c => if h' = h then (g.futWrites l d c f).modLane l Lane.wake else g
    | _ => g) g

/-- A lane of the group is parked on the handle. -/
def Group.waitsFut (g : Group) (h : Word) : Bool := g.lanes.any fun a => match a.st with
  | .futPark h' _ _ => h' == h
  | _ => false

/-- When the future of a handle is final, the lanes parked on it return, as an acquire at .d, and the entry is freed (R161, R162). -/
def State.wakeFut (s : State) (h : Word) : State :=
  match s.futOf h with
  | none => s
  | some f =>
    if f.st.final && s.allGroups.any (fun g => g.is f.task f.block f.gi && g.waitsFut h) then
      let s := s.mapGroup f.task f.block f.gi fun g => g.wakeFut h f
      (s.setFutOf h { f with st := .free }).dropClean (hCore h)
    else s

/-- A resolve of the future of a handle, by a context or by an engine: discarded when the entry is freed, final or another's,
and counted unless it reports a fault (R160, R162). -/
def State.resolve (s : State) (h : Word) (by_ : Option Word) (st : FutSt) (x : DWord) : State :=
  let stale := if st = .ready then s.countCore (hCore h) 10 1 else s
  match s.futOf h with
  | none => stale
  | some f =>
    if f.st.final || !(match by_ with | none => true | some c => c == f.ctx || f.qctx == some c) then stale
    else (s.setFutOf h { f with st := st, value := x }).wakeFut h

/-- A PENDING future becomes CANCELLED or FAULTED, with no effect on a final one. -/
def State.endFut (s : State) (h : Word) (st : FutSt) (x : DWord) : State :=
  match s.futOf h with
  | some f => if f.st = .pending then s.setFutOf h { f with st := st, value := x } else s
  | none => s

/-- Every handle of a core's table whose future is final. -/
def State.finalHandles (s : State) (core : Nat) : List Word :=
  (s.core core).futs.filterMap fun e => if e.2.st.final then some (futHandle core e.1 e.2.gen) else none

/-- Lanes parked on futures that are final return. -/
def State.wakeFuts (s : State) : State :=
  (List.range s.part.cores).foldl (fun s c => (s.finalHandles c).foldl State.wakeFut s) s

end Sys2Proof.Machine
end

