-- ==== Sys2Proof/Machine/Cards.lean ====
section
/-! DEFINITION. Posting cards, refusing and dropping them, completion records queued, what the graph walker is told, gathering
tiles, pools, best-plan slots and cancellation (R99, R100, R104, R113, R117, R148 to R151, R155 to R158, R163 to R172). -/
namespace Sys2Proof.Machine

/-! ## Completion records and the graph walker -/

/-- The 16 words of a completion record, but for P and TIME (R113). -/
def completion (ctx : Word) (status kind : Nat) (user : DWord) (w3 : Nat) (payload : List DWord) : List DWord :=
  BitVec.ofNat 64 (ctx.toNat * 2 ^ 32 + status * 2 ^ 24 + kind * 2 ^ 20) :: user :: 0 :: BitVec.ofNat 64 w3
    :: (List.range 12).map fun i => payload.getD i 0

/-- DETV: DETC is nonzero at completion (R113, R308). -/
def State.detv (s : State) (ctx : Word) : Bool := (s.cx ctx).detc.truncate 10 != (0 : BitVec 10)

/-- A record is queued for a completion ring (R113). -/
def State.complete (s : State) (n : Nat) (r : List DWord) : State :=
  let q := s.sq n
  (s.setSq n { q with held := q.held ++ [r] }).dueRow (.completionRecordWrite n)

def State.modGraph (s : State) (id : Nat) (f : Graph → Graph) : State :=
  { s with graphs := mapWhere (fun g => g.id == id) f s.graphs }

/-- A graph ends with a status: its record names the node (R117). -/
def State.endGraph (s : State) (g : Graph) (status : Nat) : State :=
  let w3 := g.node * 2 ^ 48 + g.canc.toNat * 2 ^ 34 + (s.detv g.ctx).toNat * 2 ^ 32
  ({ s with graphs := s.graphs.filter fun x => x.id != g.id }).complete g.ring (completion g.ctx status 2 g.user w3 [])

/-- The status with which a graph ends without a visit: a card was refused, or a launch ended with STATUS 1 or 2, or its context has
ended, and the launches that it awaits have completed (R117, R298). -/
def Graph.isOver (g : Graph) : Option Nat :=
  match g.ending with
  | some n => some n
  | none => if g.worst ≠ 0 ∧ g.out.isEmpty ∧ g.await.isNone then some g.worst else none

/-- A graph that is over ends. -/
def State.graphCheck (s : State) (id : Nat) : State :=
  match s.graphs.find? fun g => g.id == id with
  | none => s
  | some g =>
    match g.isOver with
    | some n => s.endGraph g n
    | none => s

/-- The walker is told that a launch has completed: after STATUS 0 an awaited launch lets the walk go on at NEXT (R103, R117). -/
def State.graphTold (s : State) (id task status : Nat) (canc : Bool) : State :=
  let upd (g : Graph) : Graph :=
    let g := { g with out := g.out.filter (fun e => e.1 != task), worst := max g.worst status, canc := g.canc || canc }
    match g.await with
    | some (t, next) => if t = task then { g with await := none, node := if status = 0 then next else g.node } else g
    | none => g
  (s.modGraph id upd).graphCheck id

/-- A card of the graph was refused: the graph ends with the status (R117). -/
def State.graphRefused (s : State) (id task status : Nat) : State :=
  let upd (g : Graph) : Graph :=
    { g with out := g.out.filter (fun e => e.1 != task), ending := some (g.ending.getD status)
             await := if (g.await.map (·.1)) = some task then none else g.await }
  (s.modGraph id upd).graphCheck id

/-! ## Gathering queues (R155 to R158) -/

def GQueue.w (q : GQueue) (i : Nat) : Nat := (q.desc.getD i 0).toNat
def GQueue.card (q : GQueue) : Nat := bits (q.w 0) 47 0
def GQueue.buf (q : GQueue) : Nat := bits (q.w 1) 47 0
def GQueue.flush (q : GQueue) : Nat := bits (q.w 2) 51 32
def GQueue.nbuf (q : GQueue) : Nat := max 1 (bits (q.w 2) 11 9) + 1
def GQueue.tr (q : GQueue) : Nat := if (q.w 2).testBit 8 then 64 else 32
def GQueue.rowb (q : GQueue) : Nat := min 32 (max 1 (bits (q.w 2) 7 0))
def GQueue.asn (q : GQueue) : Nat := bits (q.w 3) 47 32
def GQueue.ctx (q : GQueue) : Word := BitVec.ofNat 32 (q.w 3)

/-- The length of a tile buffer (R155). -/
def GQueue.bufLen (q : GQueue) : Nat := roundup (320 + q.tr * 8 * q.rowb) 64

/-- The lowest buffer that no tile uses. -/
def GQueue.freeBuf (q : GQueue) : Option Nat :=
  (List.range q.nbuf).find? fun i =>
    !(q.cur == some i || q.posts.any (fun t => t.gen == q.gen && t.buf == i) || q.bufs.contains i)

/-- PENDING futures end: those that a cancel set matches become CANCELLED, and the others take a state with a value (R158). -/
def State.endFuts (s : State) (handles : List Word) (st : FutSt) (value : Nat) (set : Option Word) : State :=
  handles.foldl (fun s h =>
    match s.futOf h with
    | none => s
    | some f =>
      if set.any fun x => (CSet.of x).hits f.tag f.canc then s.endFut h .cancelled 0
      else s.endFut h st (BitVec.ofNat 64 value)) s

/-- The futures of a context's tile end; those of a saved context end when it is restored (R155, R158, R295). -/
def State.endTile (s : State) (ctx : Word) (handles : List Word) (st : FutSt) (value : Nat) (set : Option Word) : State :=
  if (s.cx ctx).run = .saved then s.modCx ctx fun c => { c with late := c.late ++ [.futures handles st value set] }
  else s.endFuts handles st value set

/-- A buffer is freed, while the binding stands that it was used under (R158). -/
def State.freeBuf (s : State) (q buf gen : Nat) : State :=
  let x := s.gq q
  if x.gen = gen then s.setGq q { x with bufs := x.bufs.filter fun b => b != buf } else s

/-- The tile of a refused or dropped card: its futures end and its buffer is freed (R158). -/
def State.tileGone (s : State) (ctx : Word) (q buf gen : Nat) (hs : List Word) (value : Nat) (set : Option Word) : State :=
  (s.endTile ctx hs .faulted value set).freeBuf q buf gen

/-! ## Cards (R99, R100, R104, R148 to R151) -/

/-- The segment of an affinity key on a part with n slices (R148). -/
def segOf (n aff : Nat) : Nat := aff * 0x9E37 % 65536 / (65536 / n)

/-- A card's words with its hardware-filled fields (R99). -/
def fillCard (ws : List DWord) (asn : Nat) (ctx : Word) : List DWord :=
  (List.range 8).map fun i =>
    let w := (ws.getD i 0).toNat
    BitVec.ofNat 64 (if i = 0 then setBits w 48 16 asn else if i = 6 then setBits w 0 32 ctx.toNat else w)

/-- A card that has been posted. -/
def Task.card (id : Nat) (ws : List DWord) (src : CardSrc) (seg : Nat) (held : Bool) : Task :=
  { id := id, words := ws, src := src, seg := seg, held := held, hdr := [], launched := false, handed := 0, retired := 0, done := 0
    dropped := false, canc := false, ended := false, outs := [], commits := 0 }

/-- DONEC of a card is decremented, when DV = 1 and the context owns it (R103, R104). -/
def State.donec (s : State) (t : Task) : State :=
  if t.dv && s.ownsCounter t.ctx t.donec then s.adjust t.donec 1 else s

/-- The trap-ring entry of a refused post (R104, R292). -/
def State.refusedEntry (s : State) (core : Nat) (pc : DWord) (ctx : Word) (asn status : Nat) : State :=
  s.trapDue (.post core)
    { cause := 0, sub := 0, src := 5, nest := false, slot := 0, ctx := ctx, core := core, info := status, asn := asn, pc := pc
      addr := 0, mask := 0, detail := 0 }

/-- A refused card is reported according to where it came from (R104). -/
def State.refuse (s : State) (t : Task) (status : Nat) : State :=
  let s := match t.src with
    | .ring n => s.complete n (completion t.ctx status 1 (BitVec.ofNat 64 (t.w 5)) ((s.detv t.ctx).toNat * 2 ^ 32) [])
    | .graph g _ => s.graphRefused g t.id status
    | .post core pc => s.refusedEntry core pc t.ctx t.asn status
    | .gather q buf gen hs => ((s.refusedEntry 0 0 t.ctx t.asn status).tileGone t.ctx q buf gen hs status none).wakeFuts
  s.donec t

/-- What became of a post. -/
inductive PostRes where
  | posted | full | dropped | refused
deriving DecidableEq, Repr

/-- Cards that occupy entries of a segment (R149). -/
def State.segCount (s : State) (seg : Nat) : Nat := (s.tasks.filter fun t => t.seg == seg).length

/-- A card is posted into a segment (R100, R149, R150, R170). -/
def State.post (s : State) (ws : List DWord) (src : CardSrc) (seg : Nat) : PostRes × State :=
  let t := Task.card s.nextId ws src seg false
  let mayDrop := match src with
    | .post .. | .gather .. => true
    | _ => false
  if mayDrop && s.refuses t.ctx t.ctag t.cancellable then (.dropped, s.donec t)
  else if (t.wv && !s.ownsCounter t.ctx t.waitc) || (t.dv && !s.ownsCounter t.ctx t.donec) then (.refused, s.refuse t 8)
  else if 1024 ≤ s.segCount seg then (.full, s)
  else
    let held := t.wv && (s.counter t.waitc).value != 0
    (.posted, { s.signal with nextId := s.nextId + 1, tasks := s.tasks ++ [{ t with held := held }] })

/-! ## Posting a gathering tile (R157) -/

/-- Hardware acts on a context's behalf with privileged rights, for pools and best-plan slots (assumption 31). -/
def hwWho (ctx : Word) (priv : Bool) (tag : List Nat) : Who :=
  { ctx := ctx, priv := priv, core := 0, det := none, pc := 0, tag := tag }

/-- The tile record (R157). -/
def GQueue.record (q : GQueue) (t : GTile) : List Byte :=
  let n := t.rows.length
  let head := toBytes 8 (n + t.flushed.toNat * 128 + t.seq % 2 ^ 32 * 2 ^ 32) ++ List.replicate 56 0
  let hs := sliceBytes (t.rows.flatMap fun r => toBytes 4 r.handle.toNat) 0 256
  let rows := sliceBytes (t.rows.flatMap fun r => sliceBytes r.bytes 0 (8 * q.rowb)) 0 (q.tr * 8 * q.rowb)
  head ++ hs ++ rows

/-- The tile's card: its record is written and the template read, in the descriptor's context without privilege, once (R99, R157). -/
def GQueue.write (q : GQueue) (n : Nat) (t : GTile) : Mem (List DWord) :=
  match t.card with
  | some ws => return ws
  | none => do
    let w := hwWho q.ctx false [2, n]
    let va := q.buf + t.buf * q.bufLen
    engineWrite w va (q.record t)
    let bs ← engineRead w q.card 64
    let ws := (List.range 8).map fun i => BitVec.ofNat 64 (fieldAt bs (8 * i) 8)
    return fillCard (modifyAt (fun _ => BitVec.ofNat 64 va) ws 7) q.asn q.ctx

/-- The oldest tile that waits is posted, or waits on (R149, R157, R158). -/
def State.postTile (s : State) (n : Nat) : State :=
  match (s.gq n).posts with
  | [] => s
  | t :: rest =>
    let q := { s.gq n with desc := t.desc }
    let hs := t.rows.map (·.handle)
    let done (s : State) (keep : Bool) : State :=
      let x := s.gq n
      s.setGq n { x with posts := rest, bufs := if keep && x.gen == t.gen then x.bufs ++ [t.buf] else x.bufs }
    match (q.write n t).on s with
    | (.error .wait, s) => s
    | (.error (.trap _), s) => (((done s false).endTile q.ctx hs .faulted 8 none).refusedEntry 0 0 q.ctx q.asn 8).wakeFuts
    | (.ok ws, s) =>
      let seg := segOf s.part.slices (bits (ws.getD 1 0).toNat 63 48)
      match (done s true).post ws (.gather n t.buf t.gen hs) seg with
      | (.full, _) => s.setGq n { s.gq n with posts := { t with card := some ws } :: rest }
      | (.dropped, s) => (s.tileGone q.ctx n t.buf t.gen hs 1 (some (s.cx q.ctx).dlnact)).wakeFuts
      | (_, s) => s

/-- The open tile leaves the queue to be posted; a timed post of a tile with rows of a DET launch is an event of DETC (R157, R308). -/
def State.closeTile (s : State) (n : Nat) (flushed : Bool) : State :=
  let q := s.gq n
  match q.cur with
  | none => s
  | some b =>
    let t : GTile := { desc := q.desc, gen := q.gen, buf := b, rows := q.rows, seq := q.seq, flushed := flushed }
    let s := s.setGq n { q with rows := [], cur := none, seq := (q.seq + 1) % 2 ^ 32, posts := q.posts ++ [t] }
    let s := if flushed && q.rows.any (·.det) then s.detEvent q.ctx 0 0 else s
    s.postTile n

/-- The queue's open tile is discarded and its futures become CANCELLED, as the queue is bound or unbound (R155). -/
def State.discardTile (s : State) (n : Nat) : State :=
  let q := s.gq n
  let s := s.endTile q.ctx (q.rows.map (·.handle)) .cancelled 0 none
  (s.setGq n { q with rows := [], cur := none, bufs := [], seq := 0, gen := q.gen + 1 }).wakeFuts

/-! ## Accession pools (R163 to R165) -/

def Pool.w (p : Pool) (i : Nat) : Nat := (p.desc.getD i 0).toNat
def Pool.size (p : Pool) : Nat := 2 ^ (min 6 (bits (p.w 0) 50 48) + 6)
def Pool.base (p : Pool) : Nat := bits (p.w 0) 47 0
def Pool.count (p : Pool) : Nat := max 1 (bits (p.w 1) 19 0)
def Pool.meta_ (p : Pool) : Nat := bits (p.w 2) 47 0
def Pool.ctx (p : Pool) : Word := BitVec.ofNat 32 (p.w 3)

/-- A metadata word (R163). -/
def metaWord (alloc c : Bool) (next tag : Nat) : Nat := alloc.toNat * 2 ^ 63 + c.toNat * 2 ^ 62 + next * 2 ^ 32 + tag

def metaNone : Nat := 0xFFFFF

def Pool.who (p : Pool) (n : Nat) : Who := hwWho p.ctx true [3, n]

/-- A node's metadata. -/
def Pool.readMeta (p : Pool) (n i : Nat) : Mem Nat := do
  return ofBytes (← engineRead (p.who n) (p.meta_ + 8 * i) 8)

def Pool.writeMeta (p : Pool) (n i x : Nat) : Mem Unit := engineWrite (p.who n) (p.meta_ + 8 * i) (toBytes 8 x)

/-- A node taken from the head of the free list: its index, or none when the list is empty (R164). A link that is no node's index, which
only a program that writes its pool's metadata can leave there, ends the list (R5, R163; assumption 68). -/
def Pool.take (p : Pool) (n : Nat) (tag : Half) (canc : Bool) : Mem (Option Nat) := do
  if p.count ≤ p.head then return none
  let x ← p.readMeta n p.head
  p.writeMeta n p.head (metaWord true canc metaNone tag.toNat)
  Mem.mod fun s => s.setPool n { s.pool n with head := bits x 51 32 }
  return some p.head

/-- A node pushed on the free list; its tag and C stay as they are (R163, R164; assumption 32). -/
def Pool.push (p : Pool) (n i : Nat) : Mem Unit := do
  let x ← p.readMeta n i
  let s ← get
  p.writeMeta n i (metaWord false (x.testBit 62) (s.pool n).head (bits x 15 0))
  Mem.mod fun s => s.setPool n { s.pool n with head := i }

/-- Every allocated node whose tag lies in the set, and whose C is 1 where that is asked, is freed in ascending index (R165, R169). -/
def Pool.sweep (p : Pool) (n : Nat) (set : CSet) (needC : Bool) : Mem Unit := do
  let bs ← engineRead (p.who n) p.meta_ (8 * p.count)
  let hit (i : Nat) : Bool :=
    let x := fieldAt bs (8 * i) 8
    x.testBit 63 && set.has (BitVec.ofNat 16 x) && (!needC || x.testBit 62)
  let idx := (List.range p.count).filter hit
  idx.forM fun i => do
    let ps ← pieces (p.who n) .store 2 (p.meta_ + 8 * i) 8
    ps.forM fun q => reachPiece (p.who n) false true q (List.replicate q.len 0)
  idx.forM fun i => p.push n i

/-- Binding: every node is free, in ascending order (R163). -/
def Pool.bind (p : Pool) (n : Nat) : Mem Unit := do
  engineWrite (p.who n) p.meta_ ((List.range p.count).flatMap fun i =>
    toBytes 8 (metaWord false false (if i + 1 < p.count then i + 1 else metaNone) 0))
  Mem.mod fun s => s.setPool n { p with head := 0 }

/-! ## Cancellation (R169, R172, R298) -/

/-- The cores' reservations for a card end, and its list has a new head (R137, R138). -/
def State.unreserve (s : State) (id : Nat) : State :=
  let s := s.signal
  { s with cores := s.cores.map fun (e : Nat × Core) => if e.2.reserve = some id then (e.1, { e.2 with reserve := none }) else e }

/-- A card leaves the task queue (R138, R149). -/
def State.forgetTask (s : State) (id : Nat) : State :=
  { s with tasks := s.tasks.filter fun t => t.id != id }.unreserve id

/-- A card is dropped: whole when none of its blocks has been dispatched, and otherwise its undispatched blocks (R158, R169). -/
def State.dropCard (s : State) (t : Task) (ended : Bool) (set : Option Word) : State :=
  if t.handed = 0 then
    let s := (s.forgetTask t.id).donec t
    match t.src with
    | .graph g _ => s.graphTold g t.id (if ended then 2 else 1) true
    | .gather q buf gen hs => s.tileGone t.ctx q buf gen hs 1 set
    | _ => s
  else if t.dropped ∨ t.handed = t.nblocks then s
  else
    (s.unreserve t.id).modTask t.id fun t => { t with dropped := true, canc := true, ended := t.ended || ended }

/-- Step 1 of R169 but for freezing the slots: matching cards and rows. -/
def State.cancelCards (s : State) (ctx : Word) (set : CSet) : State :=
  let s := (s.tasks.filter fun t => t.ctx == ctx && set.hits t.ctag t.cancellable).foldl
    (fun s t => s.dropCard t false (some set.word)) s
  { s with gqs := s.gqs.map fun e =>
      if e.2.ctx == ctx then (e.1, { e.2 with rows := e.2.rows.filter fun r => !set.hits r.tag r.canc }) else e }

/-- Step 2 of R169: matching PENDING futures become CANCELLED, and the commands of the spatial engines that hold them are over, even
where the futures are freed before the engines come to them (R282). -/
def State.cancelFuts (s : State) (ctx : Word) (set : CSet) : State :=
  let hit (f : Fut) : Bool := f.st == .pending && f.ctx == ctx && set.hits f.tag f.canc
  let upd (f : Fut) : Fut := if hit f then { f with st := .cancelled, value := 0 } else f
  let cmd (c : SpCmd) : SpCmd := if ((s.futOf c.handle).map hit).getD false then { c with isOver := true } else c
  { s with cores := s.cores.map fun e => (e.1, { e.2 with futs := e.2.futs.map fun x => (x.1, upd x.2) })
           spatial := s.spatial.map fun e => (e.1, e.2.map cmd) }

/-- Step 3 of R169: every pool of the context frees its matching nodes; a pool whose metadata faults is passed over (assumption 31). -/
def cancelPools (ctx : Word) (set : CSet) : Mem Unit :=
  (List.range 8).forM fun n => do
    let s ← get
    let p := s.pool n
    if p.bound && p.ctx == ctx then
      try p.sweep n set true
      catch e => match e with
        | .wait => throw .wait
        | .trap _ => pure ()

/-- Step 4 of R169: groups whose card matches receive a pending event, which groups at a cancellation point take (R171). -/
def State.cancelGroups (s : State) (ctx : Word) (set : CSet) : State :=
  let hit (g : Group) : Bool := g.ctx == ctx && (let (tag, c) := s.tagOf g.task; set.hits tag c)
  ((s.mapGroups fun g => if hit g then { g with cancel := true } else g).settle).wakeFuts

/-- Cancellation of a set in a context: steps 1 to 4 of R169 without the slots (R172). -/
def cancelAll (ctx : Word) (set : CSet) : Mem Unit := do
  Mem.mod fun s => (s.cancelCards ctx set).cancelFuts ctx set
  cancelPools ctx set
  Mem.mod fun s => s.cancelGroups ctx set

end Sys2Proof.Machine
end

