-- ==== Sys2Proof/Machine/FloatOps.lean ====
section
/-! DEFINITION. Exact values, the number formats, the one rounding, the seven functions and the conversions (R232 to R241). -/
namespace Sys2Proof.Machine

/-- An exact value: a NaN, an infinity, or (-1)^neg * m * 2^e, where m = 0 keeps the sign of a zero. -/
inductive XR where
  | nan
  | inf (neg : Bool)
  | fin (neg : Bool) (m : Nat) (e : Int)
deriving DecidableEq, Repr

/-- How a format's top exponent is used (R233). -/
inductive TopKind where
  | ieee | e4m3 | none
deriving DecidableEq, Repr

/-- A floating-point format: bits of the exponent and of the fraction, the bias, and its top exponent (R232). -/
structure FF where
  ew   : Nat
  fw   : Nat
  bias : Nat
  top  : TopKind
deriving DecidableEq, Repr

def ffF32 : FF := ⟨8, 23, 127, .ieee⟩
def ffBF16 : FF := ⟨8, 7, 127, .ieee⟩
def ffF16 : FF := ⟨5, 10, 15, .ieee⟩
def ffE5M2 : FF := ⟨5, 2, 15, .ieee⟩
def ffE4M3 : FF := ⟨4, 3, 7, .e4m3⟩
def ffFP4 : FF := ⟨2, 1, 1, .none⟩

/-- The code of the largest finite value. -/
def FF.maxCode (f : FF) : Nat :=
  match f.top with
  | .ieee => (2 ^ f.ew - 1) * 2 ^ f.fw - 1
  | .e4m3 => 2 ^ (f.ew + f.fw) - 2
  | .none => 2 ^ (f.ew + f.fw) - 1

/-- canon(F) (R233). -/
def FF.canon (f : FF) : Nat :=
  match f.top with
  | .ieee => (2 ^ f.ew - 1) * 2 ^ f.fw + 2 ^ (f.fw - 1)
  | .e4m3 => 2 ^ (f.ew + f.fw) - 1
  | .none => 0

/-- The sign bit of a code. -/
def FF.signed (f : FF) (neg : Bool) (c : Nat) : Nat := c + neg.toNat * 2 ^ (f.ew + f.fw)

/-- fval(b, F): the exact value of a code; under FTZ a subnormal reads as zero of its sign (R232, R233, R239). -/
def FF.value (f : FF) (ftz : Bool) (x : Nat) : XR :=
  let neg := x.testBit (f.ew + f.fw)
  let e := bits x (f.ew + f.fw - 1) f.fw
  let m := x % 2 ^ f.fw
  if f.top = .ieee ∧ e = 2 ^ f.ew - 1 then (if m = 0 then .inf neg else .nan)
  else if f.top = .e4m3 ∧ x % 2 ^ (f.ew + f.fw) = 2 ^ (f.ew + f.fw) - 1 then .nan
  else if e = 0 then .fin neg (if ftz then 0 else m) (1 - (f.bias : Int) - f.fw)
  else .fin neg (2 ^ f.fw + m) ((e : Int) - f.bias - f.fw)

/-- Whether a magnitude rounds up: what is dropped against half a unit, by the mode and the sign (R237). -/
def roundsUp (rm : Rm) (neg odd : Bool) (rem half : Nat) : Bool :=
  match rm with
  | .rn => decide (half < rem) || (rem == half && odd)
  | .rz => false
  | .rd => neg && rem != 0
  | .ru => !neg && rem != 0

/-- A magnitude m * 2^e as a whole number of units 2^q, rounded once. -/
def roundUnits (rm : Rm) (neg : Bool) (m : Nat) (e q : Int) : Nat :=
  if q ≤ e then m * 2 ^ (e - q).toNat
  else
    let sh := (q - e).toNat
    let n := m / 2 ^ sh
    let rem := m % 2 ^ sh
    if roundsUp rm neg (n % 2 == 1) rem (2 ^ (sh - 1)) then n + 1 else n

/-- The code of the rounded magnitude of a nonzero value with an unbounded exponent above. -/
def FF.roundCode (f : FF) (rm : Rm) (neg : Bool) (m : Nat) (e : Int) : Nat :=
  let top := (Nat.log2 m : Int) + e
  let q := max top (1 - (f.bias : Int)) - f.fw
  ((q + f.fw + f.bias - 1).toNat) * 2 ^ f.fw + roundUnits rm neg m e q

/-- Whether an overflow in a mode goes to infinity (R237). -/
def overInf (rm : Rm) (neg : Bool) : Bool :=
  match rm with
  | .rn => true
  | .rz => false
  | .rd => neg
  | .ru => !neg

/-- round(x, F, mode, sat) (R237, R239, R240). -/
def FF.round (f : FF) (rm : Rm) (sat ftz : Bool) (x : XR) : Nat :=
  match x with
  | .nan => f.canon
  | .inf neg =>
    match f.top with
    | .ieee => f.signed neg (f.maxCode + 1)
    | .e4m3 => if sat then f.signed neg f.maxCode else f.canon
    | .none => f.signed neg f.maxCode
  | .fin neg m e =>
    if m = 0 then f.signed neg 0
    else
      let c := f.roundCode rm neg m e
      if f.maxCode < c then
        match f.top with
        | .ieee => f.signed neg (if overInf rm neg && !sat then f.maxCode + 1 else f.maxCode)
        | .e4m3 => if sat then f.signed neg f.maxCode else f.canon
        | .none => f.signed neg f.maxCode
      else if ftz ∧ c < 2 ^ f.fw then f.signed neg 0
      else f.signed neg c

/-- A value is a NaN. -/
def XR.isNan : XR → Bool
  | .nan => true
  | _ => false

def XR.neg : XR → XR
  | .nan => .nan
  | .inf n => .inf !n
  | .fin n m e => .fin (!n) m e

/-- A value is a zero. -/
def XR.isZero : XR → Bool
  | .fin _ 0 _ => true
  | _ => false

def XR.sign : XR → Bool
  | .nan => false
  | .inf n => n
  | .fin n _ _ => n

/-- x * y (R380). -/
def XR.mul (x y : XR) : XR :=
  match x, y with
  | .nan, _ => .nan
  | _, .nan => .nan
  | .inf a, .inf b => .inf (a ^^ b)
  | .inf a, .fin b m _ => if m = 0 then .nan else .inf (a ^^ b)
  | .fin a m _, .inf b => if m = 0 then .nan else .inf (a ^^ b)
  | .fin a m e, .fin b n k => .fin (a ^^ b) (m * n) (e + k)

/-- The least exponent of the finite terms. -/
def minExp : List XR → Int
  | [] => 0
  | [.fin _ _ e] => e
  | .fin _ _ e :: r => min e (minExp r)
  | _ :: r => minExp r

/-- A finite term as a whole number of units 2^q. -/
def XR.units (q : Int) : XR → Int
  | .fin n m e => (if n then -1 else 1) * ((m * 2 ^ (e - q).toNat : Nat) : Int)
  | _ => 0

/-- The exact sum of terms (R237, R247, R384): a NaN term or infinities of both signs give NaN; an exactly zero sum of terms
of one sign keeps it, and otherwise is -0 under RD and +0 under the other modes. -/
def XR.sum (rm : Rm) (l : List XR) : XR :=
  if l.any XR.isNan then .nan
  else
    let pos := l.any fun x => x == .inf false
    let neg := l.any fun x => x == .inf true
    if pos && neg then .nan
    else if pos then .inf false
    else if neg then .inf true
    else
      let q := minExp l
      let t := (l.map (XR.units q)).foldl (· + ·) 0
      if t = 0 then
        .fin (if l.all XR.sign then true else if l.all fun x => !x.sign then false else rm == .rd) 0 0
      else .fin (decide (t < 0)) t.natAbs q

/-- x + y. -/
def XR.add (rm : Rm) (x y : XR) : XR := XR.sum rm [x, y]

/-- A quotient or root with a sticky bit below: enough bits for one rounding to any format of R232. -/
def sticky (neg : Bool) (q : Nat) (exact : Bool) (e : Int) : XR := .fin neg (2 * q + (!exact).toNat) (e - 1)

/-- x / y (R380). -/
def XR.div (x y : XR) : XR :=
  match x, y with
  | .nan, _ => .nan
  | _, .nan => .nan
  | .inf _, .inf _ => .nan
  | .inf a, .fin b _ _ => .inf (a ^^ b)
  | .fin a _ _, .inf b => .fin (a ^^ b) 0 0
  | .fin a m e, .fin b n k =>
    if n = 0 then (if m = 0 then .nan else .inf (a ^^ b))
    else if m = 0 then .fin (a ^^ b) 0 0
    else
      let p := m * 2 ^ 96
      sticky (a ^^ b) (p / n) (p % n == 0) (e - k - 96)

/-- FSQRT's exact value (R238). -/
def XR.sqrt (x : XR) : XR :=
  match x with
  | .nan => .nan
  | .inf true => .nan
  | .inf false => .inf false
  | .fin neg m e =>
    if m = 0 then .fin neg 0 0
    else if neg then .nan
    else
      let (m, e) := if e % 2 = 0 then (m, e) else (2 * m, e - 1)
      let p := m * 2 ^ 96
      let r := isqrt p
      sticky false r (r * r == p) (e / 2 - 48)

/-- FRSQ's exact value (R238). -/
def XR.rsqrt (x : XR) : XR :=
  match x with
  | .nan => .nan
  | .inf true => .nan
  | .inf false => .fin false 0 0
  | .fin neg m e =>
    if m = 0 then .inf neg
    else if neg then .nan
    else
      let (m, e) := if e % 2 = 0 then (m, e) else (2 * m, e - 1)
      let r := isqrt (2 ^ 192 / m)
      sticky false r (r * r * m == 2 ^ 192) (-(e / 2) - 96)

/-- FRCP's exact value (R238). -/
def XR.rcp (x : XR) : XR := XR.div (.fin false 1 0) x

/-- x * 2^n (R380). -/
def XR.scale (x : XR) (n : Int) : XR :=
  match x with
  | .fin s m e => .fin s m (e + clamp n (-1000) 1000)
  | y => y

/-- The integer value that x rounds to; a zero keeps the sign of x (R382). -/
def XR.rint (rm : Rm) (x : XR) : XR :=
  match x with
  | .fin s m e => .fin s (roundUnits rm s m e 0) 0
  | y => y

/-- The order of two values that are not NaN: less, and equal. Zeros are equal (R355). -/
def XR.lt (x y : XR) : Bool :=
  match x, y with
  | .nan, _ => false
  | _, .nan => false
  | .inf true, .inf true => false
  | .inf true, _ => true
  | _, .inf true => false
  | .inf false, _ => false
  | _, .inf false => true
  | a, b => let q := minExp [a, b]; decide (a.units q < b.units q)

def XR.eq (x y : XR) : Bool := !x.isNan && !y.isNan && !x.lt y && !y.lt x

/-- The FP32 comparisons of R355. -/
def XR.cmp (c : Cmp) (x y : XR) : Bool :=
  let un := x.isNan || y.isNan
  match c with
  | .eq => x.eq y
  | .ne => !x.eq y
  | .lt => x.lt y
  | .le => !un && !y.lt x
  | .gt => y.lt x
  | .ge => !un && !x.lt y
  | .num => !un
  | .nan => un

/-! ## The seven functions by enclosure (R238) -/

/-- The fraction bits of the fixed-point enclosures. -/
def fxP : Nat := 320

/-- The sum of the terms of a series in fixed point: term k is obtained from term k-1 by f. -/
def fxSeries (f : Nat → Nat → Nat) : Nat → Nat → Nat → Nat
  | 0, _, _ => 0
  | n + 1, k, t => t + fxSeries f n (k + 1) (f k t)

/-- atanh(1/n) in fixed point, below by less than 300 units. -/
def fxAtanhInv (n : Nat) : Nat :=
  (List.range 150).foldl (fun a k => a + 2 ^ fxP / ((2 * k + 1) * n ^ (2 * k + 1))) 0

/-- ln 2 = 2 atanh(1/3) in fixed point, below by less than 600 units. -/
def fxLn2 : Nat := 2 * fxAtanhInv 3

/-- arctan(1/n) in fixed point, within 300 units. -/
def fxAtanInv (n : Nat) : Int :=
  (List.range 150).foldl (fun (a : Int) k =>
    let t : Int := (2 ^ fxP / ((2 * k + 1) * n ^ (2 * k + 1)) : Nat)
    if k % 2 = 0 then a + t else a - t) 0

/-- pi by Machin's formula in fixed point, within 6000 units. -/
def fxPi : Nat := (16 * fxAtanInv 5 - 4 * fxAtanInv 239).toNat

/-- What an enclosure's error never reaches: 2^180 units of 2^-320. -/
def fxErr : Nat := 2 ^ 180

/-- exp of y in fixed point, 0 ≤ y < 1, within fxErr. -/
def fxExp (y : Nat) : Nat := fxSeries (fun k t => t * y / 2 ^ fxP / (k + 1)) 80 0 (2 ^ fxP)

/-- sin of y in fixed point, 0 ≤ y < 2, within fxErr. -/
def fxSin (y : Nat) : Int :=
  let sq := y * y / 2 ^ fxP
  (List.range 45).foldl (fun (st : Int × Nat) k =>
    (if k % 2 = 0 then st.1 + st.2 else st.1 - st.2, st.2 * sq / 2 ^ fxP / ((2 * k + 2) * (2 * k + 3)))) (0, y) |>.1

/-- cos of y in fixed point, 0 ≤ y < 2, within fxErr. -/
def fxCos (y : Nat) : Int :=
  let sq := y * y / 2 ^ fxP
  (List.range 45).foldl (fun (st : Int × Nat) k =>
    (if k % 2 = 0 then st.1 + st.2 else st.1 - st.2, st.2 * sq / 2 ^ fxP / ((2 * k + 1) * (2 * k + 2)))) (0, 2 ^ fxP) |>.1

/-- ln of m in fixed point, 1 ≤ m < 2, within fxErr. -/
def fxLn (m : Nat) : Nat :=
  let z := (m - 2 ^ fxP) * 2 ^ fxP / (m + 2 ^ fxP)
  let sq := z * z / 2 ^ fxP
  2 * ((List.range 110).foldl (fun (st : Nat × Nat) k => (st.1 + st.2 / (2 * k + 1), st.2 * sq / 2 ^ fxP)) (0, z)).1

/-- The rounding of an irrational value known to lie strictly between lo and hi units of 2^e: the code of both ends where
they agree, and otherwise a free value (assumption 20). -/
def enclose (f : FF) (rm : Rm) (sat ftz : Bool) (neg : Bool) (lo hi : Nat) (e : Int) (id arg : Nat) : Nat :=
  let a := f.round rm sat ftz (.fin neg (2 * lo + 1) (e - 1))
  let b := f.round rm sat ftz (.fin neg (2 * hi - 1) (e - 1))
  if a = b then a else (Config.roundTie id arg (match rm with | .rn => 0 | .rz => 1 | .rd => 2 | .ru => 3)).toNat

/-- The rounding of a signed fixed-point result within fxErr. -/
def encloseFx (rm : Rm) (sat ftz : Bool) (x : Int) (e : Int) (id arg : Nat) : Nat :=
  enclose ffF32 rm sat ftz (decide (x < 0)) (x.natAbs - fxErr) (x.natAbs + fxErr) e id arg

/-- FEXP2 (R238). -/
def fexp2 (rm : Rm) (sat ftz : Bool) (arg : Nat) : Nat :=
  match ffF32.value ftz arg with
  | .nan => ffF32.canon
  | .inf neg => ffF32.round rm sat ftz (if neg then .fin false 0 0 else .inf false)
  | .fin neg m e =>
    if m = 0 then ffF32.round rm sat ftz (.fin false 1 0)
    else if 9 ≤ (Nat.log2 m : Int) + e then ffF32.round rm sat ftz (.fin false 1 (if neg then -600 else 600))
    else
      let v : Int := (if neg then -1 else 1) * ((m * 2 ^ (e + fxP).toNat : Nat) : Int)
      let n := v / (2 ^ fxP : Nat)
      let f := (v % (2 ^ fxP : Nat)).toNat
      if f = 0 then ffF32.round rm sat ftz (.fin false 1 n)
      else
        let r := fxExp (f * fxLn2 / 2 ^ fxP)
        let lo := max (2 ^ fxP) (r - fxErr)
        let hi := min (2 ^ (fxP + 1)) (r + fxErr)
        enclose ffF32 rm sat ftz false lo hi (n - fxP) 0 arg

/-- FLOG2 (R238). -/
def flog2 (rm : Rm) (sat ftz : Bool) (arg : Nat) : Nat :=
  match ffF32.value ftz arg with
  | .nan => ffF32.canon
  | .inf neg => if neg then ffF32.canon else ffF32.round rm sat ftz (.inf false)
  | .fin neg m e =>
    if m = 0 then ffF32.round rm sat ftz (.inf true)
    else if neg then ffF32.canon
    else
      let lg := Nat.log2 m
      let n : Int := (lg : Int) + e
      if m = 2 ^ lg then ffF32.round rm sat ftz (if n = 0 then .fin false 0 0 else .fin (decide (n < 0)) n.natAbs 0)
      else
        let f := fxLn (m * 2 ^ (fxP - lg)) * 2 ^ fxP / fxLn2
        encloseFx rm sat ftz (n * (2 ^ fxP : Nat) + f) (-(fxP : Int)) 1 arg

/-- The quadrant of |x| and the rest in fixed point (R238: no approximation in the range reduction that the rounding sees). -/
def fxReduce (m : Nat) (e : Int) : Nat × Nat :=
  let x := m * 2 ^ (e + fxP).toNat
  let h := fxPi / 2
  (x / h % 4, x % h)

/-- FSIN (R238). -/
def fsin (rm : Rm) (sat ftz : Bool) (arg : Nat) : Nat :=
  match ffF32.value ftz arg with
  | .nan => ffF32.canon
  | .inf _ => ffF32.canon
  | .fin neg m e =>
    if m = 0 then ffF32.signed neg 0
    else if (Nat.log2 m : Int) + e < -40 then
      ffF32.round rm sat ftz (.fin neg (m * 2 ^ 64 - 1) (e - 64))
    else
      let (q, r) := fxReduce m e
      let y := match q with
        | 0 => fxSin r
        | 1 => fxCos r
        | 2 => -fxSin r
        | _ => -fxCos r
      encloseFx rm sat ftz (if neg then -y else y) (-(fxP : Int)) 2 arg

/-- FCOS (R238). -/
def fcos (rm : Rm) (sat ftz : Bool) (arg : Nat) : Nat :=
  match ffF32.value ftz arg with
  | .nan => ffF32.canon
  | .inf _ => ffF32.canon
  | .fin _ m e =>
    if m = 0 then ffF32.round rm sat ftz (.fin false 1 0)
    else if (Nat.log2 m : Int) + e < -40 then
      ffF32.round rm sat ftz (.fin false (2 ^ 64 - 1) (-64))
    else
      let (q, r) := fxReduce m e
      let y := match q with
        | 0 => fxCos r
        | 1 => -fxSin r
        | 2 => -fxCos r
        | _ => fxSin r
      encloseFx rm sat ftz y (-(fxP : Int)) 3 arg

/-! ## Conversions (R235, R240) -/

/-- One term of a DS8 code, in units of 2^-6. -/
def ds8Term (s : Bool) (e : Nat) : Int := if e = 7 then 0 else (if s then -1 else 1) * ((2 ^ (6 - e) : Nat) : Int)

/-- The value of a DS8 code, in units of 2^-6 (R235). -/
def ds8Value (c : Nat) : Int := ds8Term (c.testBit 7) (bits c 6 4) + ds8Term (c.testBit 3) (bits c 2 0)

/-- A signed whole number of units 2^e as an exact value; zero is +0. -/
def XR.ofInt (x : Int) (e : Int) : XR := .fin (decide (x < 0)) x.natAbs e

/-- The candidates of R240: each DS8 value with the numerically smallest code that has it, and 0x77 for zero. -/
def ds8Codes : List Nat := (List.range 256).filter fun c => ds8Value c ≠ 0 || c == 0x77

/-- The better of two DS8 codes for a value of t units of 2^-6 / d; the first of equals stays. -/
def ds8Better (rm : Rm) (t d : Int) (best : Option Nat) (c : Nat) : Option Nat :=
  let v := ds8Value c * d
  let ok := match rm with
    | .rn => true
    | .rz => if t < 0 then decide (t ≤ v ∧ v ≤ 0) else decide (v ≤ t ∧ 0 ≤ v)
    | .rd => decide (v ≤ t)
    | .ru => decide (t ≤ v)
  if !ok then best
  else
    match best with
    | none => some c
    | some b =>
      let w := ds8Value b * d
      let dc := (t - v).natAbs
      let db := (t - w).natAbs
      if dc < db ∨ (dc = db ∧ v.natAbs < w.natAbs) then some c else best

/-- Conversion to DS8 (R240). -/
def toDs8 (rm : Rm) (x : XR) : Nat :=
  match x with
  | .nan => 0x77
  | .inf neg => if neg then 0x88 else 0x00
  | .fin neg m e =>
    if m = 0 then 0x77
    else if 2 ≤ (Nat.log2 m : Int) + e then (if neg then 0x88 else 0x00)
    else
      let q := e + 6
      let m' : Int := (if neg then -1 else 1) * (m : Int)
      let (t, d) := if 0 ≤ q then (m' * 2 ^ q.toNat, 1) else (m', 2 ^ (-q).toNat)
      let (t, d) := if (200 : Int) < -q then ((if neg then -1 else 1), 2 ^ 40) else (t, d)
      let hi : Int := 128 * d
      let t := clamp t (-hi) hi
      (ds8Codes.foldl (ds8Better rm t d) none).getD 0x77

/-- The format's parameters when it is a floating-point one. -/
def fmtFF : Fmt → Option FF
  | .f32 => some ffF32
  | .bf16 => some ffBF16
  | .f16 => some ffF16
  | .e4m3 => some ffE4M3
  | .e5m2 => some ffE5M2
  | .fp4 => some ffFP4
  | _ => none

/-- The width and signedness of an integer format; true is unsigned. -/
def fmtInt : Fmt → Nat × Bool
  | .s32 => (32, false) | .s16 => (16, false) | .s8 => (8, false) | .s4 => (4, false)
  | .n8 => (8, true) | .n16 => (16, true) | .n32 => (32, true) | .s64 => (64, false) | .n64 => (64, true)
  | _ => (32, false)

/-- The exact value of the bits of a format (R386). -/
def fmtValue (f : Fmt) (ftz : Bool) (x : Nat) : XR :=
  match fmtFF f with
  | some ff => ff.value ftz (x % 2 ^ f.width)
  | none =>
    if f = .ds8 then .ofInt (ds8Value (x % 256)) (-6)
    else
      let (w, n) := fmtInt f
      .ofInt (if n then ((x % 2 ^ w : Nat) : Int) else sext x w) 0

/-- A converted value: its bits, whether an integer clamped (or took a NaN), and whether a NaN was produced (R240, R242, R243). -/
structure Conv where
  code : Nat
  sat  : Bool
  nan  : Bool
deriving DecidableEq, Repr

/-- Conversion of an exact value to a format (R240). -/
def convert (f : Fmt) (rm : Rm) (sat ftz : Bool) (x : XR) : Conv :=
  match fmtFF f with
  | some ff =>
    let c := ff.round rm sat ftz x
    ⟨c, false, f == .e4m3 && !x.isNan && c % 128 == 127⟩
  | none =>
    if f = .ds8 then ⟨toDs8 rm x, false, false⟩
    else
      let (w, n) := fmtInt f
      let lo : Int := if n then 0 else -((2 ^ (w - 1) : Nat) : Int)
      let hi : Int := if n then ((2 ^ w : Nat) : Int) - 1 else ((2 ^ (w - 1) : Nat) : Int) - 1
      match x with
      | .nan => ⟨0, true, false⟩
      | .inf neg => ⟨trunc (if neg then lo else hi) w, true, false⟩
      | .fin neg m e =>
        let big : Bool := decide ((70 : Int) < (Nat.log2 m : Int) + e) && m != 0
        let u : Int := if big then 2 ^ 80 else ((roundUnits rm neg m e 0 : Nat) : Int)
        let v : Int := if neg then -u else u
        ⟨trunc (clamp v lo hi) w, decide (v < lo ∨ hi < v), false⟩

end Sys2Proof.Machine
end

