-- ==== Sys2Proof/Machine/IntegerOps.lean ====
section
/-! DEFINITION. The integer operations that the vector and the uniform instructions share (R361 to R370). -/
namespace Sys2Proof.Machine

/-- IMULH: bits 63:32 of the exact product (R363). -/
def mulHigh (n : Bool) (a b : Word) : Word := (BitVec.ofInt 64 (ival n a * ival n b)).extractLsb' 32 32

/-- The smaller value (R363). -/
def minInt (n : Bool) (a b : Word) : Word := if ival n b < ival n a then b else a

/-- The larger value (R363). -/
def maxInt (n : Bool) (a b : Word) : Word := if ival n a < ival n b then b else a

/-- ISHL (R364): 0 for an amount of 32 or more; under .sat the clamp of the exact a * 2^b. -/
def shl (n sat : Bool) (a b : Word) : Word × Bool :=
  if sat then intRes 32 n true (ival n a * 2 ^ (min b.toNat 64))
  else (if b.toNat < 32 then a <<< b.toNat else 0, false)

/-- ISHR (R364). -/
def shr (a b : Word) : Word := if b.toNat < 32 then a >>> b.toNat else 0

/-- ISAR (R364). -/
def sar (a b : Word) : Word :=
  if b.toNat < 32 then a.sshiftRight b.toNat else if a.getLsbD 31 then 0xFFFFFFFF else 0

/-- Leading zeros of the low n bits (R363). -/
def clzBits (x : Nat) : Nat → Nat
  | 0 => 0
  | n + 1 => if x.testBit n then 0 else 1 + clzBits x n

/-- BREV (R363). -/
def brev (a : Word) : Word := a.reverse

/-- The length of a bit field within the word (R365). -/
def fieldLen (b : Word) : Nat := min (bits b.toNat 15 8) (32 - bits b.toNat 7 0)

/-- BFE (R365). -/
def bfe (n : Bool) (a b : Word) : Word :=
  let pos := bits b.toNat 7 0
  if bits b.toNat 15 8 = 0 ∨ 32 ≤ pos then 0
  else
    let f := bits a.toNat (pos + fieldLen b - 1) pos
    if n then BitVec.ofNat 32 f else BitVec.ofInt 32 (sext f (fieldLen b))

/-- BFI (R365). -/
def bfi (a b c : Word) : Word :=
  let pos := bits b.toNat 7 0
  if bits b.toNat 15 8 = 0 ∨ 32 ≤ pos then c
  else BitVec.ofNat 32 (setBits c.toNat pos (fieldLen b) a.toNat)

/-- The S16 elements of a packed pair (R234). -/
def e16 (x : Word) (i : Nat) : Int := (x.extractLsb' (16 * i) 16).toInt

/-- PADD16 (R368). -/
def padd16 (sat sub : Bool) (a b : Word) : Word × Bool :=
  let f (i : Nat) := intRes 16 false sat (if sub then e16 a i - e16 b i else e16 a i + e16 b i)
  ((f 1).1 ++ (f 0).1, (f 0).2 || (f 1).2)

/-- PMAC16 (R244, R369): always clamped. -/
def pmac16 (a b c : Word) : Word × Bool :=
  intRes 32 false true (c.toInt + e16 a 0 * e16 b 0 + e16 a 1 * e16 b 1)

/-- PSHR's value (R244, R369). -/
def pshr (x : Word) (b : Word) : BitVec 16 × Bool :=
  let n := min b.toNat 31
  intRes 16 false true (if n = 0 then x.toInt else (x.toInt + 2 ^ (n - 1)) / 2 ^ n)

/-- One round of HASH (R370). -/
def hashRound (b x : Word) (r : Nat) : Word :=
  let x := x ^^^ (b + BitVec.ofNat 32 (r * 0x9E3779B9))
  let x := x * 0x85EBCA6B
  let x := x ^^^ (x >>> 13)
  let x := x * 0xC2B2AE35
  x ^^^ (x >>> 16)

/-- HASH (R370). -/
def hash (a b : Word) : Word := (List.range 4).foldl (hashRound b) a

end Sys2Proof.Machine
end

