-- ==== Sys2Proof/Machine/Integer.lean ====
section
/-! DEFINITION. The integer vector instructions (R362 to R370). -/
namespace Sys2Proof.Machine

def iInfo2 (h : Hdr) (d : VReg) (a b : Src) : Info := .any h (d :: (Src.regs a ++ Src.regs b)) (len2 a b)
def iInfo3 (h : Hdr) (d : VReg) (a b : Src) (c : VReg) : Info := .any h (d :: c :: (Src.regs a ++ Src.regs b)) (len2 a b)
def iInfo1 (h : Hdr) (d : VReg) (a : Src) : Info := .any h (d :: Src.regs a) (len1 a)
def iInfoImm (h : Hdr) (d a : VReg) : Info := .any h [d, a] 1

/-- A 32-bit result. -/
def v32 (d : VReg) (x : Word) : LaneOut := { v := [(d, x)] }

/-- A 32-bit result with its clamp. -/
def vSat (d : VReg) (x : Word × Bool) : LaneOut := { v := [(d, x.1)], sat := x.2 }

/-- A 64-bit result with its clamp. -/
def vSat64 (d : VReg) (x : DWord × Bool) : LaneOut := { v := vwrites64 d x.1, sat := x.2 }

/-- A value of a two-operand instruction in one lane. -/
def bin (h : Hdr) (d : VReg) (a b : Src) (s : State) (f : Word → Word → Word) : Out :=
  vop (iInfo2 h d a b) s fun g l => v32 d (f (g.s32 a l) (g.s32 b l))

/-- A value of a two-operand instruction that may clamp. -/
def binSat (h : Hdr) (d : VReg) (a b : Src) (s : State) (f : Word → Word → Word × Bool) : Out :=
  vop (iInfo2 h d a b) s fun g l => vSat d (f (g.s32 a l) (g.s32 b l))

/-- A value of a one-operand instruction. -/
def un (h : Hdr) (d : VReg) (a : Src) (s : State) (f : Word → Word) : Out :=
  vop (iInfo1 h d a) s fun g l => v32 d (f (g.s32 a l))

/-- A value of an immediate form: b is the sign-extended immediate (R367). -/
def binImm (h : Hdr) (d a : VReg) (imm : Imm) (s : State) (f : Word → Word → Word) : Out :=
  vop (iInfoImm h d a) s fun g l => v32 d (f (g.rv a l) (imm.signExtend 32))

/-- MOV. -/
def execMov (h : Hdr) (d : VReg) (a : Src) (w : Bool) (s : State) : Out :=
  vop (iInfo1 h d a) s fun g l => if w then { v := vwrites64 d (g.s64 a l) } else v32 d (g.s32 a l)

/-- MOV with an immediate. -/
def execMovImm (h : Hdr) (d : VReg) (imm : Imm) (s : State) : Out :=
  vop (.any h [d] 1) s fun _ _ => v32 d (imm.signExtend 32)

/-- SEL. -/
def execSel (h : Hdr) (d : VReg) (a b : Src) (c : PReg) (s : State) : Out :=
  vop (iInfo2 h d a b) s fun g l => v32 d (if g.rp c l then g.s32 a l else g.s32 b l)

/-- IADD. -/
def execIadd (h : Hdr) (d : VReg) (a b : Src) (n sat : Bool) (s : State) : Out :=
  binSat h d a b s fun x y => intRes 32 n sat (ival n x + ival n y)

/-- IADD with an immediate. -/
def execIaddImm (h : Hdr) (d a : VReg) (imm : Imm) (s : State) : Out := binImm h d a imm s fun x y => x + y

/-- ISUB. -/
def execIsub (h : Hdr) (d : VReg) (a b : Src) (n sat : Bool) (s : State) : Out :=
  binSat h d a b s fun x y => intRes 32 n sat (ival n x - ival n y)

/-- IMUL. -/
def execImul (h : Hdr) (d : VReg) (a b : Src) (n sat : Bool) (s : State) : Out :=
  binSat h d a b s fun x y => intRes 32 n sat (ival n x * ival n y)

/-- IMUL with an immediate. -/
def execImulImm (h : Hdr) (d a : VReg) (imm : Imm) (s : State) : Out := binImm h d a imm s fun x y => x * y

/-- IMULH. -/
def execImulh (h : Hdr) (d : VReg) (a b : Src) (n : Bool) (s : State) : Out := bin h d a b s (mulHigh n)

/-- IMAD: exact before its single wrap or clamp. -/
def execImad (h : Hdr) (d : VReg) (a b : Src) (c : VReg) (n sat : Bool) (s : State) : Out :=
  vop (iInfo3 h d a b c) s fun g l =>
    vSat d (intRes 32 n sat (ival n (g.s32 a l) * ival n (g.s32 b l) + ival n (g.rv c l)))

/-- IMADW (R366). -/
def execImadw (h : Hdr) (d : VReg) (a b : Src) (c : VReg) (n sat : Bool) (s : State) : Out :=
  vop (iInfo3 h d a b c) s fun g l =>
    vSat64 d (intRes 64 n sat (ival n (g.s32 a l) * ival n (g.s32 b l) + ival n (g.rv64 c l)))

/-- IMIN. -/
def execImin (h : Hdr) (d : VReg) (a b : Src) (n : Bool) (s : State) : Out := bin h d a b s (minInt n)

/-- IMAX. -/
def execImax (h : Hdr) (d : VReg) (a b : Src) (n : Bool) (s : State) : Out := bin h d a b s (maxInt n)

/-- IABS. -/
def execIabs (h : Hdr) (d : VReg) (a : Src) (sat : Bool) (s : State) : Out :=
  vop (iInfo1 h d a) s fun g l => vSat d (intRes 32 false sat (((g.s32 a l).toInt.natAbs : Nat) : Int))

/-- INEG. -/
def execIneg (h : Hdr) (d : VReg) (a : Src) (sat : Bool) (s : State) : Out :=
  vop (iInfo1 h d a) s fun g l => vSat d (intRes 32 false sat (-(g.s32 a l).toInt))

/-- IAND. -/
def execIand (h : Hdr) (d : VReg) (a b : Src) (s : State) : Out := bin h d a b s fun x y => x &&& y

/-- IAND with an immediate. -/
def execIandImm (h : Hdr) (d a : VReg) (imm : Imm) (s : State) : Out := binImm h d a imm s fun x y => x &&& y

/-- IOR. -/
def execIor (h : Hdr) (d : VReg) (a b : Src) (s : State) : Out := bin h d a b s fun x y => x ||| y

/-- IOR with an immediate. -/
def execIorImm (h : Hdr) (d a : VReg) (imm : Imm) (s : State) : Out := binImm h d a imm s fun x y => x ||| y

/-- IXOR. -/
def execIxor (h : Hdr) (d : VReg) (a b : Src) (s : State) : Out := bin h d a b s fun x y => x ^^^ y

/-- IXOR with an immediate. -/
def execIxorImm (h : Hdr) (d a : VReg) (imm : Imm) (s : State) : Out := binImm h d a imm s fun x y => x ^^^ y

/-- INOT. -/
def execInot (h : Hdr) (d : VReg) (a : Src) (s : State) : Out := un h d a s fun x => ~~~x

/-- ISHL. -/
def execIshl (h : Hdr) (d : VReg) (a b : Src) (n sat : Bool) (s : State) : Out := binSat h d a b s (shl n sat)

/-- ISHL with an immediate. -/
def execIshlImm (h : Hdr) (d a : VReg) (imm : Imm) (s : State) : Out := binImm h d a imm s fun x y => (shl false false x y).1

/-- ISHR. -/
def execIshr (h : Hdr) (d : VReg) (a b : Src) (s : State) : Out := bin h d a b s shr

/-- ISHR with an immediate. -/
def execIshrImm (h : Hdr) (d a : VReg) (imm : Imm) (s : State) : Out := binImm h d a imm s shr

/-- ISAR. -/
def execIsar (h : Hdr) (d : VReg) (a b : Src) (s : State) : Out := bin h d a b s sar

/-- ISAR with an immediate. -/
def execIsarImm (h : Hdr) (d a : VReg) (imm : Imm) (s : State) : Out := binImm h d a imm s sar

/-- IROT. -/
def execIrot (h : Hdr) (d : VReg) (a b : Src) (s : State) : Out := bin h d a b s fun x y => x.rotateLeft (y.toNat % 32)

/-- POPC. -/
def execPopc (h : Hdr) (d : VReg) (a : Src) (s : State) : Out := un h d a s fun x => BitVec.ofNat 32 (popCount x.toNat 32)

/-- CLZ. -/
def execClz (h : Hdr) (d : VReg) (a : Src) (s : State) : Out := un h d a s fun x => BitVec.ofNat 32 (clzBits x.toNat 32)

/-- BREV. -/
def execBrev (h : Hdr) (d : VReg) (a : Src) (s : State) : Out := un h d a s brev

/-- BFE. -/
def execBfe (h : Hdr) (d : VReg) (a b : Src) (n : Bool) (s : State) : Out := bin h d a b s (bfe n)

/-- BFI. -/
def execBfi (h : Hdr) (d : VReg) (a b : Src) (c : VReg) (s : State) : Out :=
  vop (iInfo3 h d a b c) s fun g l => v32 d (bfi (g.s32 a l) (g.s32 b l) (g.rv c l))

/-- IADD64 (R366). -/
def execIadd64 (h : Hdr) (d : VReg) (a b : Src) (n sat : Bool) (s : State) : Out :=
  vop (iInfo2 h d a b) s fun g l => vSat64 d (intRes 64 n sat (ival n (g.s64 a l) + ival n (g.s64 b l)))

/-- ISUB64 (R366). -/
def execIsub64 (h : Hdr) (d : VReg) (a b : Src) (n sat : Bool) (s : State) : Out :=
  vop (iInfo2 h d a b) s fun g l => vSat64 d (intRes 64 n sat (ival n (g.s64 a l) - ival n (g.s64 b l)))

/-- ICLAMP: min(max(a, b), c). -/
def execIclamp (h : Hdr) (d : VReg) (a b : Src) (c : VReg) (n : Bool) (s : State) : Out :=
  vop (iInfo3 h d a b c) s fun g l => v32 d (minInt n (maxInt n (g.s32 a l) (g.s32 b l)) (g.rv c l))

/-- PADD16 (R368). -/
def execPadd16 (h : Hdr) (d : VReg) (a b : Src) (sat sub : Bool) (s : State) : Out :=
  vop (.packed h (d :: (Src.regs a ++ Src.regs b)) (len2 a b)) s fun g l => vSat d (padd16 sat sub (g.s32 a l) (g.s32 b l))

/-- PMAC16 (R369). -/
def execPmac16 (h : Hdr) (d : VReg) (a b : Src) (c : VReg) (s : State) : Out :=
  vop (.packed h (d :: c :: (Src.regs a ++ Src.regs b)) (len2 a b)) s fun g l =>
    vSat d (pmac16 (g.s32 a l) (g.s32 b l) (g.rv c l))

/-- PSHR: the other half of vD keeps its value (R369). -/
def execPshr (h : Hdr) (d : VReg) (a b : Src) (hi : Bool) (s : State) : Out :=
  vop (.packed h (d :: (Src.regs a ++ Src.regs b)) (len2 a b)) s fun g l =>
    let r := pshr (g.s32 a l) (g.s32 b l)
    let old := g.rv d l
    vSat d (if hi then r.1 ++ old.extractLsb' 0 16 else old.extractLsb' 16 16 ++ r.1, r.2)

/-- HASH (R370). -/
def execHash (h : Hdr) (d : VReg) (a b : Src) (s : State) : Out := bin h d a b s hash

end Sys2Proof.Machine
end

