-- ==== Sys2Proof/Machine/Float.lean ====
section
/-! DEFINITION. The FP32 compare, FP32 arithmetic, packed 16-bit arithmetic and the conversions (R356, R379 to R387). -/
namespace Sys2Proof.Machine

/-- The FP32 value of a word. -/
def f32 (ftz : Bool) (x : Word) : XR := ffF32.value ftz x.toNat

/-- PSETF (R355, R356). -/
def execPsetf (h : Hdr) (d : PReg) (a b : Src) (c : PReg) (cmp : Cmp) (s : State) : Out :=
  vop (.any h (Src.regs a ++ Src.regs b) (len2 a b)) s fun g l =>
    { p := [(d, XR.cmp cmp (f32 g.ftz (g.s32 a l)) (f32 g.ftz (g.s32 b l)) && g.rp c l)] }

/-- The rounded FP32 result of an exact value, with whether it is a NaN produced from operands that are not (R380). -/
def fres (d : VReg) (rm : Rm) (sat ftz : Bool) (x : XR) (nanIn : Bool) : LaneOut :=
  { v := [(d, BitVec.ofNat 32 (ffF32.round rm sat ftz x))], nan := x.isNan && !nanIn }

def fInfo1 (h : Hdr) (d : VReg) (a : Src) : Info := .vec h (d :: Src.regs a) (len1 a)
def fInfo2 (h : Hdr) (d : VReg) (a b : Src) : Info := .vec h (d :: (Src.regs a ++ Src.regs b)) (len2 a b)
def fInfo3 (h : Hdr) (d : VReg) (a b : Src) (c : VReg) : Info := .vec h (d :: c :: (Src.regs a ++ Src.regs b)) (len2 a b)

/-- A two-operand FP32 instruction with its exact function (R380). -/
def fbin (h : Hdr) (d : VReg) (a b : Src) (rm : Rm) (sat : Bool) (s : State) (f : XR → XR → XR) : Out :=
  vop (fInfo2 h d a b) s fun g l =>
    let x := f32 g.ftz (g.s32 a l)
    let y := f32 g.ftz (g.s32 b l)
    fres d rm sat g.ftz (f x y) (x.isNan || y.isNan)

/-- A one-operand FP32 instruction with its exact function. -/
def fun1 (h : Hdr) (d : VReg) (a : Src) (rm : Rm) (sat : Bool) (s : State) (f : XR → XR) : Out :=
  vop (fInfo1 h d a) s fun g l =>
    let x := f32 g.ftz (g.s32 a l)
    fres d rm sat g.ftz (f x) x.isNan

/-- A function of R238 by enclosure, which gives the rounded code. -/
def ftrans (h : Hdr) (d : VReg) (a : Src) (s : State) (f : Bool → Nat → Nat) : Out :=
  vop (fInfo1 h d a) s fun g l =>
    let r := f g.ftz (g.s32 a l).toNat
    { v := [(d, BitVec.ofNat 32 r)], nan := r == ffF32.canon && !(f32 g.ftz (g.s32 a l)).isNan }

/-- FADD. -/
def execFadd (h : Hdr) (d : VReg) (a b : Src) (rm : Rm) (sat : Bool) (s : State) : Out := fbin h d a b rm sat s (XR.add rm)

/-- FSUB. -/
def execFsub (h : Hdr) (d : VReg) (a b : Src) (rm : Rm) (sat : Bool) (s : State) : Out :=
  fbin h d a b rm sat s fun x y => x.add rm y.neg

/-- FMUL. -/
def execFmul (h : Hdr) (d : VReg) (a b : Src) (rm : Rm) (sat : Bool) (s : State) : Out := fbin h d a b rm sat s XR.mul

/-- FFMA: no intermediate rounding. -/
def execFfma (h : Hdr) (d : VReg) (a b : Src) (c : VReg) (rm : Rm) (sat : Bool) (s : State) : Out :=
  vop (fInfo3 h d a b c) s fun g l =>
    let x := f32 g.ftz (g.s32 a l)
    let y := f32 g.ftz (g.s32 b l)
    let z := f32 g.ftz (g.rv c l)
    fres d rm sat g.ftz ((x.mul y).add rm z) (x.isNan || y.isNan || z.isNan)

/-- FDIV. -/
def execFdiv (h : Hdr) (d : VReg) (a b : Src) (rm : Rm) (sat : Bool) (s : State) : Out := fbin h d a b rm sat s XR.div

/-- A code as it was read: under FTZ a subnormal is a zero of its sign (R381). -/
def asRead (f : FF) (ftz : Bool) (x : Nat) : Nat :=
  if (f.value ftz x).isZero then f.signed (f.value ftz x).sign 0 else x

/-- The choice of FMIN and FMAX (R241, R381): -0 below +0, a NaN gives way, two NaNs give the canonical one. -/
def fpick (f : FF) (mx ftz : Bool) (x y : Nat) : Nat :=
  let a := f.value ftz x
  let b := f.value ftz y
  if a.isNan && b.isNan then f.canon
  else if a.isNan then asRead f ftz y
  else if b.isNan then asRead f ftz x
  else
    let below := a.lt b || (a.eq b && a.sign && !b.sign)
    asRead f ftz (if below == mx then y else x)

/-- FMIN. -/
def execFmin (h : Hdr) (d : VReg) (a b : Src) (s : State) : Out :=
  vop (fInfo2 h d a b) s fun g l => v32 d (BitVec.ofNat 32 (fpick ffF32 false g.ftz (g.s32 a l).toNat (g.s32 b l).toNat))

/-- FMAX. -/
def execFmax (h : Hdr) (d : VReg) (a b : Src) (s : State) : Out :=
  vop (fInfo2 h d a b) s fun g l => v32 d (BitVec.ofNat 32 (fpick ffF32 true g.ftz (g.s32 a l).toNat (g.s32 b l).toNat))

/-- FABS (R381). -/
def execFabs (h : Hdr) (d : VReg) (a : Src) (s : State) : Out :=
  vop (fInfo1 h d a) s fun g l => v32 d (g.s32 a l &&& 0x7FFFFFFF)

/-- FNEG (R381). -/
def execFneg (h : Hdr) (d : VReg) (a : Src) (s : State) : Out :=
  vop (fInfo1 h d a) s fun g l => v32 d (g.s32 a l ^^^ 0x80000000)

/-- FRND (R382). -/
def execFrnd (h : Hdr) (d : VReg) (a : Src) (rm : Rm) (s : State) : Out := fun1 h d a rm false s (XR.rint rm)

/-- FSCALE (R380). -/
def execFscale (h : Hdr) (d : VReg) (a b : Src) (rm : Rm) (sat : Bool) (s : State) : Out :=
  vop (fInfo2 h d a b) s fun g l =>
    let x := f32 g.ftz (g.s32 a l)
    fres d rm sat g.ftz (x.scale (g.s32 b l).toInt) x.isNan

/-- FCLASS (R382). -/
def fclass (ftz : Bool) (x : Word) : Word :=
  match f32 ftz x with
  | .nan => 0x100
  | .inf neg => if neg then 0x001 else 0x080
  | .fin neg m _ =>
    if m = 0 then (if neg then 0x008 else 0x010)
    else if m < 2 ^ 23 then (if neg then 0x004 else 0x020)
    else (if neg then 0x002 else 0x040)

def execFclass (h : Hdr) (d : VReg) (a : Src) (s : State) : Out :=
  vop (fInfo1 h d a) s fun g l => v32 d (fclass g.ftz (g.s32 a l))

/-- FRCP. -/
def execFrcp (h : Hdr) (d : VReg) (a : Src) (rm : Rm) (sat : Bool) (s : State) : Out := fun1 h d a rm sat s XR.rcp

/-- FRSQ. -/
def execFrsq (h : Hdr) (d : VReg) (a : Src) (rm : Rm) (sat : Bool) (s : State) : Out := fun1 h d a rm sat s XR.rsqrt

/-- FSQRT. -/
def execFsqrt (h : Hdr) (d : VReg) (a : Src) (rm : Rm) (sat : Bool) (s : State) : Out := fun1 h d a rm sat s XR.sqrt

/-- FEXP2. -/
def execFexp2 (h : Hdr) (d : VReg) (a : Src) (rm : Rm) (sat : Bool) (s : State) : Out := ftrans h d a s (fexp2 rm sat)

/-- FLOG2. -/
def execFlog2 (h : Hdr) (d : VReg) (a : Src) (rm : Rm) (sat : Bool) (s : State) : Out := ftrans h d a s (flog2 rm sat)

/-- FSIN. -/
def execFsin (h : Hdr) (d : VReg) (a : Src) (rm : Rm) (sat : Bool) (s : State) : Out := ftrans h d a s (fsin rm sat)

/-- FCOS. -/
def execFcos (h : Hdr) (d : VReg) (a : Src) (rm : Rm) (sat : Bool) (s : State) : Out := ftrans h d a s (fcos rm sat)

/-! ## Packed pairs (R383, R384) -/

/-- The format of a packed pair. -/
def hfmt (f16 : Bool) : FF := if f16 then ffF16 else ffBF16

/-- Element i of a packed pair as a code. -/
def he (x : Word) (i : Nat) : Nat := (x.extractLsb' (16 * i) 16).toNat

/-- A packed pair of two codes. -/
def pack2 (lo hi : Nat) : Word := BitVec.ofNat 16 hi ++ BitVec.ofNat 16 lo

/-- An element result: the code, and whether a NaN was produced. -/
def hres (f : FF) (rm : Rm) (sat ftz : Bool) (x : XR) (nanIn : Bool) : Nat × Bool :=
  (f.round rm sat ftz x, x.isNan && !nanIn)

/-- A packed result from its two elements; a produced NaN in either counts once (R383). -/
def h2 (d : VReg) (f : Nat → Nat × Bool) : LaneOut :=
  { v := [(d, pack2 (f 0).1 (f 1).1)], nan := (f 0).2 || (f 1).2 }

/-- A two-operand packed instruction. -/
def hbin (h : Hdr) (d : VReg) (a b : Src) (rm : Rm) (sat f16 : Bool) (s : State) (f : XR → XR → XR) : Out :=
  vop (fInfo2 h d a b) s fun g l => h2 d fun i =>
    let x := (hfmt f16).value g.ftz (he (g.s32 a l) i)
    let y := (hfmt f16).value g.ftz (he (g.s32 b l) i)
    hres (hfmt f16) rm sat g.ftz (f x y) (x.isNan || y.isNan)

/-- HADD2. -/
def execHadd2 (h : Hdr) (d : VReg) (a b : Src) (rm : Rm) (sat f16 : Bool) (s : State) : Out :=
  hbin h d a b rm sat f16 s (XR.add rm)

/-- HSUB2. -/
def execHsub2 (h : Hdr) (d : VReg) (a b : Src) (rm : Rm) (sat f16 : Bool) (s : State) : Out :=
  hbin h d a b rm sat f16 s fun x y => x.add rm y.neg

/-- HMUL2. -/
def execHmul2 (h : Hdr) (d : VReg) (a b : Src) (rm : Rm) (sat f16 : Bool) (s : State) : Out :=
  hbin h d a b rm sat f16 s XR.mul

/-- HFMA2. -/
def execHfma2 (h : Hdr) (d : VReg) (a b : Src) (c : VReg) (rm : Rm) (sat f16 : Bool) (s : State) : Out :=
  vop (fInfo3 h d a b c) s fun g l => h2 d fun i =>
    let x := (hfmt f16).value g.ftz (he (g.s32 a l) i)
    let y := (hfmt f16).value g.ftz (he (g.s32 b l) i)
    let z := (hfmt f16).value g.ftz (he (g.rv c l) i)
    hres (hfmt f16) rm sat g.ftz ((x.mul y).add rm z) (x.isNan || y.isNan || z.isNan)

/-- HMIN2. -/
def execHmin2 (h : Hdr) (d : VReg) (a b : Src) (f16 : Bool) (s : State) : Out :=
  vop (fInfo2 h d a b) s fun g l => h2 d fun i =>
    (fpick (hfmt f16) false g.ftz (he (g.s32 a l) i) (he (g.s32 b l) i), false)

/-- HMAX2. -/
def execHmax2 (h : Hdr) (d : VReg) (a b : Src) (f16 : Bool) (s : State) : Out :=
  vop (fInfo2 h d a b) s fun g l => h2 d fun i =>
    (fpick (hfmt f16) true g.ftz (he (g.s32 a l) i) (he (g.s32 b l) i), false)

/-- HDOT2: one rounding of the exact sum (R384). -/
def execHdot2 (h : Hdr) (d : VReg) (a b : Src) (c : VReg) (rm : Rm) (sat f16 : Bool) (s : State) : Out :=
  vop (fInfo3 h d a b c) s fun g l =>
    let f := hfmt f16
    let e (x : Word) (i : Nat) := f.value g.ftz (he x i)
    let z := f32 g.ftz (g.rv c l)
    let ins := [e (g.s32 a l) 0, e (g.s32 a l) 1, e (g.s32 b l) 0, e (g.s32 b l) 1, z]
    fres d rm sat g.ftz
      (XR.sum rm [(e (g.s32 a l) 0).mul (e (g.s32 b l) 0), (e (g.s32 a l) 1).mul (e (g.s32 b l) 1), z])
      (ins.any XR.isNan)

/-! ## Conversions (R386, R387) -/

/-- CVT (R386). -/
def execCvt (h : Hdr) (d : VReg) (a : Src) (df sf : Fmt) (spos : BitVec 3) (rm : Rm) (sat : Bool) (s : State) : Out :=
  vop (fInfo1 h d a) s fun g l =>
    let src := if sf.width = 64 then (g.s64 a l).toNat else (g.s32 a l).toNat >>> (spos.toNat * sf.width)
    let r := convert df rm sat g.ftz (fmtValue sf g.ftz src)
    { v := if df.width = 64 then vwrites64 d (BitVec.ofNat 64 r.code) else [(d, BitVec.ofNat 32 r.code)]
      sat := r.sat, nan := r.nan }

/-- CVT2: the other bits of vD keep their values (R387). -/
def execCvt2 (h : Hdr) (d : VReg) (a b : Src) (df sf : Fmt) (dpos : BitVec 2) (rm : Rm) (sat : Bool) (s : State) : Out :=
  vop (fInfo2 h d a b) s fun g l =>
    let w := df.width
    let r0 := convert df rm sat g.ftz (fmtValue sf g.ftz (g.s32 a l).toNat)
    let r1 := convert df rm sat g.ftz (fmtValue sf g.ftz (g.s32 b l).toNat)
    let old := (g.rv d l).toNat
    { v := [(d, BitVec.ofNat 32 (setBits old (2 * w * dpos.toNat) (2 * w) (r0.code + r1.code * 2 ^ w)))]
      sat := r0.sat || r1.sat, nan := r0.nan || r1.nan }

end Sys2Proof.Machine
end

