-- ==== Sys2Proof/Machine/Engines.lean ====
section
/-! DEFINITION. What the matrix arrays, the drain engines and the copy channels do in one step (R200 to R202, R247, R254 to R257,
R259, R262 to R269, R409). -/
namespace Sys2Proof.Machine

/-! ## What the engines share -/

/-- The context runs: its engines go on (R294, R298). -/
def State.ctxRuns (s : State) (c : Word) : Bool := (s.cx c).run == .running

/-- The DET launch and block that an engine's access belongs to (R310). -/
def State.detWho (s : State) (task block : Nat) : Option (Nat × Nat) :=
  if ((s.task task).map Task.isDet).getD false then some (task, block) else none

/-- The group has one command less outstanding on a queue (R180, R305). -/
def State.asyncDone (s : State) (task block gi q : Nat) : State :=
  s.mapGroup task block gi fun g => { g with async := modifyAt (· - 1) g.async q }

/-- The first slot of a group, while it is resident. -/
def State.slotOf (s : State) (task block gi : Nat) : Nat := ((s.findGroup task block gi).map (·.slot)).getD 0

/-- An entry of the trap ring about an engine's command (R292). -/
def State.engineEntry (s : State) (cause sub src core info : Nat) (ctx : Word) (slot : Nat) (pc : DWord) (addr : Nat)
    (detail : Nat) : TrapEntry :=
  { cause := cause, sub := sub, src := src, nest := false, slot := slot, ctx := ctx, core := core, info := info
    asn := s.asnOf ctx, pc := pc, addr := BitVec.ofNat 64 addr, mask := 0, detail := BitVec.ofNat 64 detail }

/-! ## K-steps (R246, R247, R254 to R257, R409) -/

/-- The format of the elements of A, by FMT (R246, R250). -/
def aFmt (fmt : Nat) : Fmt :=
  match fmt with
  | 0 | 1 | 3 => .s8
  | 2 => .s4
  | 4 | 12 | 13 => .bf16
  | 5 | 6 | 9 => .e4m3
  | 7 | 8 | 10 => .e5m2
  | 11 => .fp4
  | _ => .f16

/-- The format of the elements of B, by FMT (R246, R250). -/
def bFmt (fmt : Nat) : Fmt :=
  match fmt with
  | 0 => .s8
  | 1 | 2 => .s4
  | 3 | 4 => .ds8
  | 5 | 7 => .e4m3
  | 6 | 8 => .e5m2
  | 9 | 10 | 11 | 12 => .fp4
  | 13 => .bf16
  | _ => .f16

/-- Element i of a run of bytes in a format; a 4-bit element 2i lies in the low half of its byte. -/
def elemAt (f : Fmt) (bs : List Byte) (i : Nat) : Nat :=
  match f.width with
  | 4 => bits (bs.getD (i / 2) 0).toNat (4 * (i % 2) + 3) (4 * (i % 2))
  | w => fieldAt bs (i * (w / 8)) (w / 8)

/-- The exact value of a BS24 scale: the high 24 bits of an FP32 (R236). -/
def scaleValue (ftz : Bool) (x : Nat) : XR := ffF32.value ftz (x * 256)

/-- The scale of element i of column j of a K-step's bytes, 1 where there is none (R247, R255). -/
def Shape.scaleOf (p : Shape) (ftz : Bool) (bs : List Byte) (j i : Nat) : XR :=
  if p.sc then scaleValue ftz (fieldAt bs (p.cols * p.colBytes + 3 * (j * p.colScales + i / 32)) 3) else .fin false 1 0

/-- The result of one element's chunk: its bits, whether it was clamped, and whether a NaN was produced (R242, R247). -/
structure ChunkOut where
  bits : Word
  sat  : Bool
  nan  : Bool

/-- One element takes one chunk: `row` holds A's 64 bytes and `col` the K-step's stream (R247, R257). -/
def Shape.chunk (p : Shape) (ftz : Bool) (acc : Word) (row col : List Byte) (j : Nat) : ChunkOut :=
  let (n, _, _) := pairInfo p.fmt
  let a (i : Nat) : XR := fmtValue (aFmt p.fmt) ftz (elemAt (aFmt p.fmt) row i)
  let cb := sliceBytes col (j * p.colBytes) p.colBytes
  let b (i : Nat) : XR := fmtValue (bFmt p.fmt) ftz (elemAt (bFmt p.fmt) cb i)
  let sc (i : Nat) : XR := p.scaleOf ftz col j i
  let sum := XR.sum .rn ((List.range n).map fun i => ((a i).mul (b i)).mul (sc i))
  if p.s32 then
    let v := acc.toInt + sum.units 0
    ⟨BitVec.ofInt 32 (clamp v (tmin 32 false) (tmax 32 false)), decide (v < tmin 32 false ∨ tmax 32 false < v), false⟩
  else
    let x := ffF32.value ftz acc.toNat
    let r := XR.add .rn x sum
    let nanIn := x.isNan || (List.range n).any fun i => (a i).isNan || (b i).isNan || (sc i).isNan
    ⟨BitVec.ofNat 32 (ffF32.round .rn false ftz r), false, r.isNan && !nanIn⟩

/-- The columns that one half of an operation computes: of the extent, those on its core (R251, R262). -/
def MOp.ncols (op : MOp) : Nat := min 32 ((Shape.of op.sh).en - 32 * op.half.toNat)

/-- The block on whose core a half runs (R262). -/
def MOp.place (op : MOp) : Nat × Nat := (op.task, op.block + op.half.toNat)

/-- A half whose drain is over, waiting for the other (R262). -/
def MOp.halfDone (op : MOp) : Bool := op.next == (Shape.of op.sh).kst + 2

/-- The slots that the K-steps of an operation have yet to read (R256). -/
def MOp.unread (op : MOp) : List Nat :=
  let p := Shape.of op.sh
  ((List.range (p.kst + 1)).filter fun k => op.next ≤ k).flatMap fun k => stepSlots p op.slot k

/-- The slots that a fill covers. -/
def CopyCmd.fills (c : CopyCmd) : List Nat := if c.dkind = 2 then slotsOf (c.daddr / slotBytes) c.len else []

/-- The bytes of a slot, from its base, that a fill has delivered. -/
def CopyCmd.filled (c : CopyCmd) (slot : Nat) : Nat := min slotBytes (c.daddr + c.pos - slotBytes * slot)

/-- The slots of a fill whose last byte it has yet to write (R407). -/
def CopyCmd.unfilled (c : CopyCmd) : List Nat :=
  c.fills.filter fun i => decide (c.filled i < min slotBytes (c.daddr + c.len - slotBytes * i))

/-- Fills, issued before the operation, that have yet to write the last byte of a slot of its next K-step (R256, R407). -/
def Core.fillsBefore (c : Core) (op : MOp) : List CopyCmd :=
  let ss := stepSlots (Shape.of op.sh) op.slot op.next
  c.chans.flatten.filter fun x => (x.refill || decide (x.after < op.id)) && x.unfilled.any ss.contains

/-- A context's weight-buffer slots are being refilled: no command of its queues proceeds (R268). -/
def State.refilling (s : State) (ctx : Word) : Bool :=
  s.cores.any fun e => e.2.chans.any fun q => q.any fun x => x.refill && x.stop.isNone && x.ctx == ctx

/-- The commands of a context proceed: it runs, and its slots are refilled (R268, R294, R298). -/
def State.engineRuns (s : State) (ctx : Word) : Bool := s.ctxRuns ctx && !s.refilling ctx

/-- The search for the operation whose K-step is next. -/
structure Pick where
  op     : Option MOp
  stop   : Bool
  blocks : List (Nat × Nat)
  frames : List Nat

/-- One operation of the queue is looked at: those of a block whose drain is set aside, or of a context that does not run, are
passed over with the block's later ones; a follower's half of a twin operation that is over holds its queue until the operation retires,
a leader's holds none; one whose refill has faulted is passed over with the later ones on its frame; the
first of the others is the next, when its slots are ready (R256, R262, R266, R268). -/
def State.pickStep (s : State) (core : Nat) (r : Pick) (op : MOp) : Pick :=
  let c := s.core core
  if r.stop then r
  else if r.blocks.contains op.place ∨ !s.engineRuns op.ctx ∨ c.aside.any (fun d => d.op.place == op.place) then
    { r with blocks := op.place :: r.blocks }
  else if op.halfDone then { r with stop := op.half }
  else if r.frames.contains op.frame then r
  else
    match c.fillsBefore op with
    | [] => { r with op := some op, stop := true }
    | fs => if fs.any fun f => f.refill && f.stop.isSome then { r with frames := op.frame :: r.frames } else { r with stop := true }

/-- The operation whose K-step is next on a core; none while a drain runs. -/
def State.nextOp (s : State) (core : Nat) : Option MOp :=
  let c := s.core core
  if c.drain.isSome then none else (c.mq.foldl (s.pickStep core) ⟨none, false, [], []⟩).op

/-- The frame after a K-step, element by element in row-major order, with its sticky flag and the first NaN produced. -/
def kstepFrame (op : MOp) (rows : Nat → List Byte) (col : List Byte) (c : Core) : Core × Option (Nat × Nat) :=
  let p := Shape.of op.sh
  let es := (List.range p.em).flatMap fun i => (List.range op.ncols).map fun j => (i, j)
  es.foldl (fun (r : Core × Option (Nat × Nat)) e =>
    let (c, nan) := r
    let x := 32 * e.1 + e.2
    let acc := if op.next = 0 ∧ op.z then 0 else c.elem op.frame x
    let o := p.chunk op.ftz acc (rows e.1) col e.2
    let c := c.setElem op.frame x o.bits
    let c := if o.sat then c.setFrame op.frame { c.frame op.frame with satf := true } else c
    (c, nan.or (if o.nan then some (x, op.next) else none))) (c, none)

/-- A drain at its start (R264, R267). -/
def Drain.start (op : MOp) : Drain :=
  { op := op, elem := 0, mi := 0, t := [], amax := none, nanchk := none, stop := none, told := false }

/-- A group's FPCTL after a NaN is produced for it without NANT, or found by NANCHK (R242, R265). -/
def State.producedNan (s : State) (op : MOp) : State := s.mapGroup op.task op.block op.gi Group.setNanp

/-- K-step op.next of an operation on a core (R247, R409); after the last the drain begins. -/
def State.kstep (s : State) (core : Nat) (op : MOp) : State :=
  let p := Shape.of op.sh
  let c := s.core core
  let (ac, ab) := match s.findBlock op.task op.block with
    | some b => (b.core, b.base)
    | none => (core, 0)
  let rows (i : Nat) := s.spLoad ac ab (op.aoff + i * p.astr + 64 * op.next) 64
  let col := Memory.read c.wbytes (op.slot * slotBytes + op.next * p.bk) p.bk
  let (c', nan) := kstepFrame op rows col c
  let op' := { op with next := op.next + 1, nan := op.nan.or nan }
  let c' := if p.kst < op'.next then { c' with mq := c'.mq.filter (fun o => o.id != op.id), drain := some (Drain.start op') }
            else { c' with mq := mapWhere (fun o => o.id == op.id) (fun _ => op') c'.mq }
  let s := (s.setCore core c').countCore core 11 1
  if nan.isSome && !op.nant then s.producedNan op else s

/-- MMA_KSTEP (R247, R409). -/
def execMmaKstep (core : Nat) (s : State) : Out :=
  match s.nextOp core with
  | some op => .next (s.kstep core op)
  | none => .next s

/-! ## Drains (R259, R263 to R267) -/

/-- Where a drain's stores and reads go: the block on its core (R262). -/
def State.drainBlock (s : State) (op : MOp) : Option Block := s.findBlock op.place.1 op.place.2

/-- A scratchpad offset of a drain: ALIGN and PERM (R265, R266). -/
def drainCheck (b : Block) (off n : Nat) : Option (Nat × Nat) :=
  if off % n ≠ 0 then some (cALIGN, off) else if b.scratch < off + n then some (cPERM, off) else none

/-- What a micro-instruction does: the state and the drain after it with whether a NaN was produced, or a fault before any
effect. -/
inductive MicroOut where
  | ok (s : State) (d : Drain) (nan : Bool)
  | fault (cause addr : Nat)

/-- The next element of a drain in row-major order. -/
def Drain.ahead (d : Drain) : Nat := if d.elem % 32 + 1 < d.op.ncols then d.elem + 1 else 32 * (d.elem / 32 + 1)

/-- The element is its row's last on this core (R265). -/
def Drain.rowEnd (d : Drain) : Bool := d.elem % 32 + 1 == d.op.ncols

/-- A 32-bit word read at a scratchpad offset of the drain's block, checked; one with an uncorrectable error faults ECC (R47, R266). -/
def State.drainWord (s : State) (b : Block) (off : Nat) : Except (Nat × Nat) Word :=
  match drainCheck b off 4 with
  | some f => .error f
  | none =>
    if s.upsets.contains (.drain b.core false) then .error (cECC, off)
    else .ok (BitVec.ofNat 32 (ofBytes (s.spLoad b.core b.base off 4)))

/-- The table index of GELU, computed exactly (R265). -/
def geluIndex (x : XR) : Nat :=
  match x with
  | .nan => 0
  | .inf neg => if neg then 0 else 255
  | .fin neg m e =>
    let q := e + 5
    let v : Int := if 0 ≤ q then (m : Int) * 2 ^ (min q.toNat 400) else 0
    let lo : Int := if 0 ≤ q then (if neg then -v else v) else
      let k := (-q).toNat
      if neg then -((cdiv m (2 ^ k) : Nat) : Int) else ((m / 2 ^ k : Nat) : Int)
    (clamp (lo + 128) 0 255).toNat

/-- The formats of CVT by its code (R265). -/
def cvtFmt (n : Nat) : Fmt :=
  match n with
  | 0 => .f32 | 1 => .bf16 | 2 => .f16 | 3 => .e4m3 | 4 => .e5m2 | 5 => .fp4 | 6 => .ds8 | 7 => .s32 | 8 => .s16
  | 9 => .s8 | 10 => .s4 | 11 => .n8 | 12 => .n16 | _ => .n32

def rmOf (n : Nat) : Rm := match n with | 0 => .rn | 1 => .rz | 2 => .rd | _ => .ru

/-- A drain store: the core's watchdog counter clears with it (R146). -/
def State.drainStore (s : State) (b : Block) (off : Nat) (bytes : List Byte) : State :=
  (s.spStore b.core b.base off bytes).modCore b.core fun c => { c with watch := 0 }

/-- One micro-instruction on the current element (R265). -/
def micro (s : State) (core : Nat) (b : Block) (d : Drain) (w : Word) : MicroOut :=
  let n := w.toNat
  let op := d.op
  let i := d.elem / 32
  let j := d.elem % 32 + 32 * op.half.toNat
  let imm := bits n 19 0
  let p := imm % 4
  let pk (k : Nat) : Word := op.pk.getD k 0
  let src (k : Nat) : Word :=
    match k with
    | 4 => (s.core core).elem op.frame d.elem
    | 5 => BitVec.ofNat 32 i
    | 6 => BitVec.ofNat 32 j
    | 7 => 0
    | k => d.t.getD k 0
  let a := src (bits n 25 23)
  let c := src (bits n 22 20)
  let fv (x : Word) : XR := ffF32.value op.ftz x.toNat
  let td := bits n 27 26
  let put (x : Word) (nan : Bool) : MicroOut := .ok s { d with t := modifyAt (fun _ => x) d.t td } nan
  let float (x : XR) (ins : List XR) : MicroOut :=
    put (BitVec.ofNat 32 (ffF32.round .rn false op.ftz x)) (x.isNan && !ins.any XR.isNan)
  let canon : Word := BitVec.ofNat 32 ffF32.canon
  let vec (f : XR → MicroOut) : MicroOut :=
    match s.drainWord b ((pk p).toNat + 4 * (if imm.testBit 2 then j else i)) with
    | .error (c, x) => .fault c x
    | .ok v => f (fv v)
  if s.upsets.contains (.drain core true) ∧ (bits n 25 23 = 4 ∨ bits n 22 20 = 4) then .fault cECC 0
  else
  match bits n 31 28 with
  | 1 => put a false
  | 2 => vec fun v => float ((fv a).mul v) [fv a, v]
  | 3 => vec fun v => float (XR.add .rn (fv a) v) [fv a, v]
  | 4 => float (XR.add .rn (fv a) (fv c)) [fv a, fv c]
  | 5 => float ((fv a).mul (fv c)) [fv a, fv c]
  | 6 =>
    if (fv a).isNan then put canon false
    else put (BitVec.ofNat 32 (fpick ffF32 false op.ftz (fpick ffF32 true op.ftz a.toNat (pk p).toNat) (pk (p + 1)).toNat)) false
  | 7 => put (if (fv a).isNan then canon else if (XR.fin false 0 0).lt (fv a) then a else 0) false
  | 8 =>
    if (fv a).isNan then put canon false
    else
      let x := (pk p).toNat + 8 * geluIndex (fv a)
      match s.drainWord b x, s.drainWord b (x + 4) with
      | .error (c, x), _ => .fault c x
      | _, .error (c, x) => .fault c x
      | .ok g, .ok o => float (XR.add .rn ((fv g).mul (fv a)) (fv o)) [fv a, fv g, fv o]
  | 9 =>
    let r := match d.amax with
      | none => (a, j)
      | some (v, k) => if !(fv a).isNan && ((fv v).isNan || (fv v).lt (fv a)) then (a, j) else (v, k)
    let d' := { d with amax := some r }
    if d.rowEnd then
      let x := (pk p).toNat + 8 * i
      match drainCheck b x 4, drainCheck b (x + 4) 4 with
      | some (c, x), _ => .fault c x
      | _, some (c, x) => .fault c x
      | none, none => .ok (s.drainStore b x (toBytes 4 r.1.toNat ++ toBytes 4 r.2)) d' false
    else .ok s d' false
  | 10 =>
    if (fv a).isNan then .ok (s.producedNan op) { d with nanchk := d.nanchk.or (some d.elem) } false else .ok s d false
  | 11 =>
    let f := cvtFmt (imm % 16)
    let x := if imm.testBit 7 then XR.ofInt a.toInt 0 else fv a
    let r := convert f (rmOf (bits imm 5 4)) (imm.testBit 6) op.ftz x
    let s := if r.sat then s.mapGroup op.task op.block op.gi Group.setSat else s
    .ok s { d with t := modifyAt (fun _ => BitVec.ofNat 32 r.code) d.t td } r.nan
  | 12 =>
    let size := 2 ^ bits imm 3 2
    let x := (pk p).toNat + i * (pk (p + 1)).toNat + j * size
    match drainCheck b x size with
    | some (c, x) => .fault c x
    | none => .ok (s.drainStore b x (toBytes size a.toNat)) d false
  | 13 =>
    if d.rowEnd then
      match s.drainWord b ((pk p).toNat + 4 * i) with
      | .error (c, x) => .fault c x
      | .ok h => .ok (s.resolve h (some op.ctx) .ready (c ++ a)) d false
    else .ok s d false
  | 14 =>
    if d.rowEnd ∧ i + 1 = (Shape.of op.sh).em then
      if s.ownsCounter op.ctx (bits imm 11 0) then .ok (s.adjust (bits imm 11 0) (sext (bits imm 19 12) 8)) d false
      else .fault cPERM 0
    else .ok s d false
  | 15 => put (a + c) false
  | _ => .ok s d false

/-- The entry of a drain of a core that is set aside: SRC 2 for a fault, SRC 3 for a produced NaN (R266, R267, R292). -/
def State.drainEntry (s : State) (core : Nat) (d : Drain) (stop : DrainStop) : TrapEntry :=
  let op := d.op
  let make (cause src addr el detail : Nat) : TrapEntry :=
    s.engineEntry cause 0 src core (op.frame % 256 * 2 ^ 14 + el % 1024 * 2 ^ 4 + d.mi % 16) op.ctx (s.slotOf op.task op.block op.gi)
      op.pc addr detail
  match stop with
  | .fault cause addr => make cause 2 addr d.elem 0
  | .nan el kstep => make cNAN 3 0 el kstep

/-- A drain is set aside, and reported (R266, R267). -/
def State.setAside (s : State) (core : Nat) (d : Drain) (stop : DrainStop) : State :=
  let op := d.op
  (s.modCore core fun c => { c with drain := none, aside := c.aside ++ [{ d with stop := some stop }] }).trapDue
    (.drain core op.place.1 op.place.2 op.frame) (s.drainEntry core d stop)

/-- The record of a word with an uncorrectable error that a drain has read, which is met with it (R47, R95, R98). -/
def State.drainUpset (s : State) (core elem : Nat) (ctx : Word) : State :=
  let frame := s.upsets.contains (.drain core true)
  { s with upsets := s.upsets.erase (.drain core frame) }.report
    { ErrRec.mk0 0x08 (if frame then 2 else 1) 5 core 0 with ctx := some ctx, info0 := BitVec.ofNat 64 elem }

/-- A drain is set aside on a fault (R266). -/
def State.drainFault (s : State) (core : Nat) (d : Drain) (cause addr : Nat) : State :=
  (if cause = cECC then s.drainUpset core d.elem d.op.ctx else s).setAside core d (.fault cause addr)

/-- A drain is set aside on a produced NaN: NANF, and the lanes stalled on the row or above trap (R267). -/
def State.drainNan (s : State) (core : Nat) (d : Drain) (el kstep : Nat) : State :=
  let f := d.op.frame
  let s := s.modCore core fun c => c.setFrame f { c.frame f with nanf := true, frozen := d.elem / 32 }
  (s.setAside core { d with told := true } (.nan el kstep)).wakeAcc core

/-- An operation retires: its group's counts, and its counter (R153, R409). -/
def State.retireOp (s : State) (op : MOp) : State :=
  let s := s.asyncDone op.task op.block op.gi 4
  let s := if op.den then s.asyncDone op.task op.block op.gi 5 else s
  if op.dv && s.ownsCounter op.ctx op.dc then s.adjust op.dc 1 else s

/-- The drain of a half is over; a twin operation retires with its second half (R262). -/
def State.drainOver (s : State) (core : Nat) (op : MOp) : State :=
  let s := s.modCore core fun c => { c with drain := none }
  if op.twin then
    let other := if op.half then core - 1 else core + 1
    if (s.core other).mq.any fun o => o.id == op.id && o.halfDone then
      (s.modCore other fun c => { c with mq := c.mq.filter fun o => o.id != op.id }).retireOp op
    else
      s.modCore core fun c => { c with mq := { op with next := (Shape.of op.sh).kst + 2 } :: c.mq }
  else s.retireOp op

/-- A later operation on the frame has been issued (R259). -/
def Core.superseded (c : Core) (op : MOp) : Bool :=
  c.mq.any (fun o => o.frame == op.frame && decide (op.id < o.id))

/-- The element is done: the next follows, its row becomes final, and after the last row the drain is over (R259). -/
def State.drainAhead (s : State) (core : Nat) (d : Drain) : State :=
  let em := (Shape.of d.op.sh).em
  let rowDone := d.rowEnd || d.op.ncols == 0
  let nxt := if d.op.ncols = 0 then 32 * em else d.ahead
  let last := decide (32 * em ≤ nxt)
  let d' := { d with elem := nxt, mi := 0, t := [], amax := if rowDone then none else d.amax }
  let s := s.modCore core fun c =>
    let c := { c with drain := some d' }
    if rowDone && !c.superseded d.op then
      c.setFrame d.op.frame { c.frame d.op.frame with wm := if last then 32 else d.elem / 32 + 1 }
    else c
  let s := if rowDone then s.wakeAcc core else s
  if last then s.drainOver core d'.op else s

/-- Micro-instructions from the drain's on, until END, the 16th word, a fault or a NaN under NANT (R264, R267). -/
def runMicros (core : Nat) (b : Block) : List Word → Drain → State → State
  | [], d, s => s.drainAhead core d
  | w :: ws, d, s =>
    if bits w.toNat 31 28 = 0 then s.drainAhead core d
    else
      match micro s core b d w with
      | .fault c x => s.drainFault core d c x
      | .ok s d nan =>
        let s := if nan && !d.op.nant then s.producedNan d.op else s
        let d := { d with mi := d.mi + 1 }
        if nan && d.op.nant && !d.told then s.drainNan core d d.elem (Shape.of d.op.sh).kst
        else runMicros core b ws d s

/-- The drain engine's next drain: the one in progress, or one set aside that has been resumed (R266). -/
def State.nextDrain (s : State) (core : Nat) : Option Drain :=
  let c := s.core core
  match c.drain with
  | some d => if s.engineRuns d.op.ctx then some d else none
  | none => c.aside.find? fun d => d.stop.isNone && s.engineRuns d.op.ctx

/-- Temporaries at the start of an element are undefined: free values (R264, assumption 2). -/
def State.drainTemps (s : State) (d : Drain) : Drain × State :=
  if d.t.isEmpty then
    ({ d with t := (List.range 4).map fun i => Config.freeWord (s.freeCtr + i) }, { s with freeCtr := s.freeCtr + 4 })
  else (d, s)

/-- The program's words, none with DEN = 0 (R259, R263). -/
def State.drainWords (s : State) (core : Nat) (op : MOp) : List Word :=
  if op.den then
    (((s.core core).program (s.asnOf op.ctx) (s.khdrOf op.task) op.drn).map (·.words)).getD []
  else []

/-- One element of a drain (R264, R267). -/
def State.drainStep (s : State) (core : Nat) (d : Drain) : State :=
  let s := s.modCore core fun c => { c with drain := some d, aside := c.aside.erase d }
  match d.op.nan with
  | some (el, k) =>
    if d.op.nant ∧ !d.told ∧ el / 32 = d.elem / 32 ∧ d.elem % 32 = 0 ∧ d.mi = 0 then s.drainNan core d el k
    else go s
  | none => go s
where
  go (s : State) : State :=
    match s.drainBlock d.op with
    | none => s.drainAhead core d
    | some b =>
      if d.op.ncols = 0 then s.drainAhead core d
      else
      let (d, s) := s.drainTemps d
      runMicros core b ((s.drainWords core d.op).drop d.mi) d s

/-- DRAIN_ELEMENT (R264). -/
def execDrainElement (core : Nat) (s : State) : Out :=
  match s.nextDrain core with
  | some d => .next (s.drainStep core d).settle
  | none => .next s

/-- DRAIN_RESUME (R266, R267): the drain set aside on a frame goes on from its restart state, and NANF clears. -/
def execDrainResume (core frame : Nat) (s : State) : Out :=
  let stopped (d : Drain) : Bool := d.op.frame == frame && d.stop.isSome
  if (s.core core).aside.any stopped then
    .next (s.modCore core fun c =>
      ({ c with aside := mapWhere stopped (fun d => { d with stop := none }) c.aside }).setFrame frame
        { c.frame frame with nanf := false, frozen := 0 })
  else .next s

/-! ## Copy channels (R199 to R202, R256) -/

/-- A fill waits for another of its slots: one issued before it, and of two refills of a slot the longer, whose bytes lie below
(R256, R268). -/
def CopyCmd.waitsFor (c x : CopyCmd) : Bool :=
  (if c.refill then x.refill && decide (c.len < x.len) else decide (x.after < c.after)) && x.unfilled.any c.fills.contains

/-- A command may run: it is its block's first on the channel, has not stopped, its context runs with its slots refilled, and as a fill it
waits for no K-step and no other fill (R200, R202, R256, R268). -/
def State.copyReady (s : State) (core : Nat) (q : List CopyCmd) (c : CopyCmd) : Bool :=
  let first := q.find? fun x => x.task == c.task && x.block == c.block
  let k := s.core core
  first == some c && c.stop.isNone && (if c.refill then s.ctxRuns c.ctx else s.engineRuns c.ctx)
    && (c.refill || !(k.mq.any fun o => decide (o.id < c.after) && o.unread.any c.fills.contains))
    && !(k.chans.flatten.any fun x => x != c && c.waitsFor x)

/-- The command of a channel whose chunk is next. -/
def State.nextCopy (s : State) (core ch : Nat) : Option CopyCmd :=
  let q := (s.core core).chan ch
  q.find? (s.copyReady core q)

/-- The block of a rank of the command's cohort (R199). -/
def State.rankBlock (s : State) (c : CopyCmd) (rank : Nat) : Option Block :=
  let n := ((s.task c.task).map Task.cohort).getD 0
  s.findBlock c.task (if n = 0 then c.block else c.block / n * n + rank)

/-- Bytes n at a scratchpad offset of a block, checked (R202). -/
def scratchRange (b : Option Block) (off n : Nat) : Mem Block :=
  match b with
  | none => Mem.trap cPERM 0 0 off
  | some b => if b.scratch < off + n then Mem.trap cPERM 0 0 (max off b.scratch) else pure b

/-- On whose behalf a channel makes its accesses. -/
def State.copyWho (s : State) (core ch : Nat) (c : CopyCmd) : Who :=
  { ctx := c.ctx, priv := c.priv, core := core, det := s.detWho c.task c.block, pc := c.pc, tag := [1, core, ch] }

/-- The bytes of a chunk read and delivered (R199, R200). -/
def moveChunk (w : Who) (core : Nat) (c : CopyCmd) (row off n : Nat) : Mem Unit := do
  let s ← get
  let src := c.saddr + row * c.sstr + off
  let dst := c.daddr + row * c.dstr + off
  let bs ← if c.skind = 0 then engineRead w src n else do
    let b ← scratchRange (s.rankBlock c c.srank) src n
    let t ← get
    pure (t.spLoad b.core b.base src n)
  if c.dkind = 0 then engineWrite w dst bs
  else if c.dkind = 1 then do
    let b ← scratchRange (s.rankBlock c c.drank) dst n
    Mem.mod fun s => s.spStore b.core b.base dst bs
  else Mem.mod fun s => s.modCore core fun k => { k with wbytes := Memory.write k.wbytes dst bs }

/-- The bytes of a fill in a slot lie over those of earlier fills. -/
def WSlot.overlay (w : WSlot) (f : WFill) : WSlot := { w with layers := f :: w.layers.filter fun x => decide (f.len < x.len) }

/-- What a chunk of a fill has done to a slot: its bytes are there, and with its last byte the slot is READY when no other fill of it is
outstanding (R256, R407). -/
def Core.fillSlot (k : Core) (ch : Nat) (c : CopyCmd) (slot : Nat) : Core :=
  let n := c.filled slot
  let w := k.wslot slot
  let w := if c.refill ∨ n = 0 then w
           else w.overlay ⟨c.saddr + (slotBytes * slot - c.daddr), n, ch, c.priv⟩
  let left := k.chans.flatten.any fun x => x.unfilled.contains slot
  k.setWslot slot (if left || w.st != .filling then w else { w with st := .ready })

/-- The slots of a fill after a chunk. -/
def Core.fillSlots (k : Core) (ch : Nat) (c : CopyCmd) : Core := c.fills.foldl (fun k i => k.fillSlot ch c i) k

/-- A command leaves its channel complete: its counter and its group's count (R153, R199). -/
def State.copyDone (s : State) (core ch : Nat) (c : CopyCmd) : State :=
  let s := s.modCore core fun k => { k with chans := modifyAt (fun q => q.erase c) k.chans ch }
  let s := match c.dc with
    | some n => if s.ownsCounter c.ctx n then s.adjust n 1 else s
    | none => s
  if c.refill then s else s.asyncDone c.task c.block c.gi ch

/-- The entry of a stopped command (R202, R292). -/
def State.copyEntry (s : State) (core ch : Nat) (c : CopyCmd) : TrapEntry :=
  let (cause, sub, addr) := c.stop.getD (0, 0, 0)
  s.engineEntry cause sub 1 core (ch * 2 ^ 22 + c.chunk % 2 ^ 22) c.ctx (s.slotOf c.task c.block c.gi) c.pc addr c.ticket

/-- A chunk whose hop of the fabric still fails after 8 retries stops its command with ECC, and the record FAB-CRC (R47). -/
def State.copyHop (core ch src : Nat) : Mem Unit := do
  let s ← get
  if s.upsets.contains (.copy core ch) then
    Mem.mod fun s => { s with upsets := s.upsets.erase (.copy core ch) }.report (ErrRec.mk0 0x07 8 2 core 3)
    Mem.trap cECC 0 0 src

/-- The next chunk of a command: to a 4 KiB boundary of the destination at most (R200 to R202). -/
def State.copyStep (s : State) (core ch : Nat) (c : CopyCmd) : State :=
  let row := c.pos / c.len
  let off := c.pos % c.len
  let n := min (c.len - off) (4096 - (c.daddr + row * c.dstr + off) % 4096)
  let set (s : State) (c' : CopyCmd) : State :=
    s.modCore core fun k => { k with chans := modifyAt (fun q => mapWhere (· == c) (fun _ => c') q) k.chans ch }
  match (State.copyHop core ch (c.saddr + row * c.sstr + off) >>= fun _ => moveChunk (s.copyWho core ch c) core c row off n).on s with
  | (.error .wait, s) => s
  | (.error (.trap t), s) =>
    let c' := { c with stop := some (t.code, t.sub, t.addr.toNat) }
    (set s c').trapDue (.copy core ch c.task c.block) (s.copyEntry core ch c')
  | (.ok _, s) =>
    let c' := { c with pos := c.pos + n, chunk := c.chunk + 1 }
    let s := (set s c').modCore core fun k => k.fillSlots ch c'
    let s := if c.refill then s
             else s.modBlock c.task c.block fun b => { b with done := modifyAt (fun x => (x + n) % 2 ^ 64) b.done ch }
    if c.len * c.rows ≤ c'.pos then s.copyDone core ch c' else s

/-- The first of a core's blocks that owns a slot. -/
def State.slotBlock (s : State) (core : Nat) (w : WSlot) : Nat :=
  ((s.blocks.find? fun b => b.core == core && s.slotOwner b.task b.idx == (w.task, w.owner)).map (·.idx)).getD w.owner

/-- A slot is refilled from the sources of the bytes it holds, each on the channel of its fill and before what waits there (R47, R268). -/
def State.refill (s : State) (core slot : Nat) (ctx : Word) : State :=
  let w := (s.core core).wslot slot
  let cmd (f : WFill) : CopyCmd :=
    { task := w.task, block := s.slotBlock core w, gi := 0, ctx := ctx, skind := 0, srank := 0, saddr := f.src, dkind := 2, drank := 0
      daddr := slotBytes * slot, len := f.len, rows := 1, sstr := 0, dstr := 0, dc := none, ticket := 0, pos := 0, chunk := 0
      stop := none, after := 0, pc := 0, priv := f.priv, refill := true }
  if w.layers.isEmpty then s
  else
    s.modCore core fun k =>
      w.layers.foldl (fun k f => { k with chans := modifyAt (fun q => cmd f :: q) k.chans f.ch })
        (k.setWslot slot { w with st := .filling })

/-- COPY_CHUNK (R200 to R202). -/
def execCopyChunk (core ch : Nat) (s : State) : Out :=
  match s.nextCopy core ch with
  | some c => .next (s.copyStep core ch c).settle
  | none => .next s

/-- COPY_RESUME (R202): the block's stopped command goes on at the chunk it stopped at. -/
def execCopyResume (launch block ch : Nat) (s : State) : Out :=
  match s.findBlock launch block with
  | none => .next s
  | some b => .next (s.modCore b.core fun k =>
      { k with chans := modifyAt (mapWhere (fun c => c.task == launch && c.block == block) fun c => { c with stop := none }) k.chans ch })

end Sys2Proof.Machine
end

