-- ==== Sys2Proof/Machine/Admission.lean ====
section
/-! DEFINITION. From a card in its list to resident blocks and back: the dispatcher's checks, admission, retirement, commits and the
completion of a launch (R99 to R104, R110, R111, R134 to R138, R310 to R313). -/
namespace Sys2Proof.Machine

/-! ## The dispatcher's checks (R100, R110, R111) -/

/-- The RSV fields of a card are zero and its KIND is 1 (R99). -/
def Task.formOk (t : Task) : Bool :=
  bits (t.w 3) 63 60 == 1 && bits (t.w 3) 59 48 == 0 && bits (t.w 4) 63 45 == 0 && bits (t.w 4) 31 13 == 0 && bits (t.w 6) 63 32 == 0

/-- KHDR, ARGS and CENTRY are aligned. -/
def Task.alignOk (t : Task) : Bool :=
  t.khdr % 64 == 0 && bits (t.w 1) 47 0 % 8 == 0 && t.centry % 8 == 0

/-- A valid stage field, and a valid ring field (R110). -/
def stageOk (f : Nat) : Bool := f % 4 != 3 && f / 128 == 0
def ringOk (f : Nat) : Bool := f / 512 == 0 && f % 32 != 1 && decide (f % 32 ≤ 16)

/-- KMAGIC, ENC and the reserved fields of the header, with the legacy grants (R110, R335). -/
def headerOk (h : Nat → Nat) : Bool :=
  let enc := bits (h 0) 33 32
  let ext := bits (h 0) 39 36
  bits (h 0) 31 0 == 0x484B584E && enc != 3 && bits (h 0) 63 45 == 0 && !(h 0).testBit 41 && decide (bits (h 0) 44 42 ≤ 4)
    && bits (h 1) 63 32 == 0 && bits (h 5) 31 0 % 64 == 0 && bits (h 6) 63 40 == 0 && decide (bits (h 6) 39 32 ≤ 32)
    && bits (h 7) 63 48 == 0 && decide (bits (h 7) 47 32 ≤ 256) && ([12, 13, 14, 15].all fun i => h i == 0)
    && ((List.range (bits (h 0) 44 42)).all fun i => stageOk (bits (h 2) (16 * i + 15) (16 * i)))
    && ((List.range 8).all fun i => ringOk (bits (h (3 + i / 4)) (16 * (i % 4) + 15) (16 * (i % 4))))
    && !(enc == 1 && decide (ext < 3)) && !(enc == 2 && decide (ext < 1))

/-- Slots that a group takes (R100). -/
def Task.slotsPer (t : Task) : Nat := max 1 (t.width / 32)

/-- The checks of R100 that need only the card and the header, from KMAGIC on, in their order: the first failing STATUS. For the kernel of
a bound code heap, `g` is the number of groups that R126 asks for. -/
def Task.limits (t : Task) (p : Part) (g : Option Nat) : Option Nat :=
  let stages := ((List.range t.nstage).map t.stageCount).foldl (· + ·) 0
  if !headerOk t.h then some 4
  else if bits (t.w 3) 41 40 ≠ bits (t.h 0) 35 34 ∨ t.nblocks = 0 then some 5
  else if g.any fun n => n != t.ngroups then some 5
  else if 64 < t.ngroups * t.slotsPer then some 5
  else if t.nstage ≠ 0 ∧ stages ≠ t.ngroups then some 5
  else if p.scratch < t.scratch then some 6
  else if 4 < t.cohort ∨ (t.cohort ≠ 0 ∧ t.nblocks % t.cohort ≠ 0) then some 6
  else if (t.twin ∧ t.cohort ≠ 2) ∨ (t.lagoon ∧ t.cohort = 0) then some 7
  else none

/-- On whose behalf the dispatcher reads for a card. -/
def Task.who (t : Task) : Who := { hwWho t.ctx (t.ctx.getLsbD 31) [6, t.id] with asn := some t.asn }

/-- G of the code heap whose kernel header a card names: the descriptor stands 256 bytes before the header (R126, R127; assumption
71). -/
def Task.heapGroups (t : Task) : Mem (Option Nat) := do
  if t.khdr % 2 ^ 20 ≠ 256 then return none
  try
    let bs ← engineRead t.who (t.khdr - 256) 64
    let n := fieldAt bs 4 1
    if fieldAt bs 0 4 = 0x50484D41 ∧ 20 ≤ n ∧ n ≤ 32 ∧ t.khdr % 2 ^ n = 256 ∧ fieldAt bs 5 1 = 1 then return some (fieldAt bs 40 4)
    return none
  catch e => match e with
    | .wait => throw .wait
    | .trap _ => return none

/-- 64-bit words of bytes. -/
def words64 (bs : List Byte) (n : Nat) : List DWord := (List.range n).map fun i => BitVec.ofNat 64 (fieldAt bs (8 * i) 8)

/-- An output region: base and length (R111). -/
def Task.region (t : Task) (bs : List Byte) (i : Nat) : Mem (Nat × Nat) := do
  let w0 := fieldAt bs (16 * i) 8
  let len := fieldAt bs (16 * i + 8) 8
  if w0.testBit 63 then
    let b ← engineRead t.who (bits (t.w 1) 47 0 + 8 * bits w0 47 0) 8
    return (ofBytes b, len)
  else return (bits w0 47 0, len)

/-- The order of the digest engine: ascending base, then ascending length (R311). -/
def regionLe (a b : Nat × Nat) : Bool := decide (a.1 < b.1) || (a.1 == b.1 && decide (a.2 ≤ b.2))

/-- The dispatcher's checks: the launch that the card becomes, or the refusing STATUS (R100). -/
def dispatchCheck (t : Task) : Mem (Except Nat Task) := do
  if !t.formOk then return .error 3
  if !t.alignOk then return .error 8
  let bs ← engineRead t.who t.khdr 128
  let t := { t with hdr := words64 bs 16 }
  let g ← t.heapGroups
  let s ← get
  match t.limits s.part g with
  | some n => return .error n
  | none =>
    let n := bits (t.h 7) 47 32
    if t.isDet ∧ n ≠ 0 then
      let tab ← engineRead t.who (t.khdr + bits (t.h 7) 31 0) (16 * n)
      let rs ← (List.range n).mapM (t.region tab)
      return .ok { t with launched := true, outs := sortBy regionLe rs }
    else return .ok { t with launched := true }

/-! ## What a core holds (R134, R135) -/

/-- The blocks resident on a core. -/
def State.blocksOn (s : State) (core : Nat) : List Block := s.blocks.filter fun b => b.core == core && !b.retired

/-- The group slots in use on a core. -/
def State.slotsUsed (s : State) (core : Nat) : List Nat := (s.blocksOn core).flatMap (·.slots)

/-- The free slots of a quadrant, ascending. -/
def freeSlots (used : List Nat) (quad : Nat) : List Nat := ((List.range 16).map (16 * quad + ·)).filter fun i => !used.contains i

/-- The fixed grant of a launch's groups (R335). -/
def Task.fixedGrant (t : Task) : Nat := match bits (t.h 0) 33 32 with | 1 => 3 | 2 => 1 | _ => 0

/-- The units that one group of the launch takes at admission. -/
def Task.unitsPer (t : Task) : Nat := t.fixedGrant * (t.width / 16)

/-- The quadrant for the next group: the one with the most free slots that can hold it, the lower of equals (R134, R135). -/
def quadFor (need units : Nat) (used : List Nat) (left : List Nat) : Option Nat :=
  let ok := (List.range 4).filter fun q => decide (need ≤ (freeSlots used q).length) && decide (units ≤ left.getD q 0)
  minBy (fun q => 64 - (freeSlots used q).length) ok

/-- The groups placed in ascending index: the slots of each (R134). -/
def placeGroups (need units : Nat) : Nat → List Nat → List Nat → Option (List (List Nat))
  | 0, _, _ => some []
  | n + 1, used, left =>
    match quadFor need units used left with
    | none => none
    | some q =>
      let mine := (freeSlots used q).take need
      (placeGroups need units n (used ++ mine) (modifyAt (· - units) left q)).map (mine :: ·)

/-- The lowest free scratchpad range of a core, in units of 256 bytes (R135). -/
def State.placeScratch (s : State) (core size : Nat) : Option Nat :=
  if size = 0 then some 0
  else
    let taken := ((s.blocksOn core).filter fun b => b.scratch != 0).map fun b => (b.base, b.base + roundup b.scratch 256)
    let free (a : Nat) : Bool :=
      decide (a + roundup size 256 ≤ s.part.scratch) && taken.all fun r => decide (a + roundup size 256 ≤ r.1) || decide (r.2 ≤ a)
    minBy (fun a => a) ((0 :: taken.map (·.2)).filter free)

/-- Where one block would go on a core: its groups' slots and its scratchpad base (R134, R135). -/
def State.fits (s : State) (t : Task) (core : Nat) : Option (List (List Nat) × Nat) :=
  let left := (List.range 4).map fun q => 32 - s.unitsUsed core q
  if 64 ≤ (s.blocksOn core).length ∨ s.lagoon.contains (core / 4) then none
  else
    match placeGroups t.slotsPer t.unitsPer t.ngroups (s.slotsUsed core) left, s.placeScratch core t.scratch with
    | some g, some a => some (g, a)
    | _, _ => none

/-- The cores of an atoll. -/
def atollCores (core : Nat) : List Nat := (List.range 4).map (core / 4 * 4 + ·)

/-- The cores that would take the next block or cohort, pulled by a core, in ascending number; a core that has reserved admits only its
head (R136, R138). -/
def State.coresFor (s : State) (t : Task) (core : Nat) : Option (List Nat) :=
  let ok (c : Nat) : Bool := (s.fits t c).isSome && ((s.core c).reserve.all fun r => r == t.id)
  if t.lagoon && (atollCores core).any fun c => !(s.blocksOn c).isEmpty then none
  else if t.cohort = 0 then (if ok core then some [core] else none)
  else if t.twin then
    let pair := [core / 2 * 2, core / 2 * 2 + 1]
    if pair.all ok then some pair else none
  else
    let got := ((core :: (atollCores core).filter (· != core)).filter ok).take t.cohort
    if got.length = t.cohort ∧ ok core then some ((atollCores core).filter got.contains) else none

/-! ## Admission (R101, R102, R136) -/

/-- The encoding of a launch. -/
def Task.enc (t : Task) : Enc := match bits (t.h 0) 33 32 with | 1 => .e2 | 2 => .e1 | _ => .e3

/-- A group at its start (R102). -/
def Task.group (t : Task) (block core rank gi slot : Nat) : Group :=
  let entry := BitVec.ofNat 64 (t.khdr + bits (t.h 5) 31 0)
  let ks : List Nat := [block, gi, bits (t.w 1) 31 0, bits (t.w 1) 47 32, bits (t.w 7) 31 0, bits (t.w 7) 63 32, rank, t.nblocks]
  { Group.idle with
    task := t.id, block := block, index := gi, ctx := t.ctx, core := core, slot := slot, width := t.width, role := t.roleOf gi
    enc := t.enc, det := t.isDet, regext := bits (t.h 0) 39 36, scratch := t.scratch, grant := t.fixedGrant
    v := (List.range t.width).foldl (fun m l => Store.put 0 m l (BitVec.ofNat 32 l)) []
    k := (List.range 8).foldl (fun m i => Store.put 0 m i (BitVec.ofNat 32 (ks.getD i 0))) []
    fpctl := if bits (t.h 0) 33 32 = 2 then 9 else 0
    lanes := List.replicate t.width (Lane.start entry) }

/-- A stage ring at block start (R141). -/
def Task.ringStart (t : Task) (i : Nat) : Ring :=
  let f := t.ringField i
  let d := f % 32
  { depth := d, prod := bits f 6 5, cons := bits f 8 7, phead := 0, pphase := false, chead := 0, cphase := false
    slots := List.replicate d .free, pwait := [], cwait := [] }

/-- A block with its groups on a core (R102, R135). -/
def State.admitBlock (s : State) (t : Task) (block core rank : Nat) : State :=
  match s.fits t core with
  | none => s
  | some (gs, base) =>
    let b : Block :=
      { task := t.id, idx := block, core := core, rank := rank, ctx := t.ctx, base := base, scratch := t.scratch
        ngroups := t.ngroups, slots := gs.flatten, rings := (List.range 8).map t.ringStart, issued := [0, 0, 0, 0]
        done := [0, 0, 0, 0], canc := false, retired := false }
    let s := { s with blocks := s.blocks ++ [b]
                      groups := s.groups ++ gs.mapIdx fun gi (sl : List Nat) => t.group block core rank gi (sl.headD 0) }
    s.dropClean core

/-- Every valid sector of an atoll's caches is dropped, its dirty bytes being written back (R197). -/
def State.dropAtoll (s : State) (atoll : Nat) : State :=
  { s with l1 := s.l1.filter fun e => e.1 / 2 ^ 36 / 4 != atoll }

/-- The atoll's caches written back before it enters or leaves lagoon mode (R197). -/
def flushAtoll (w : Who) (atoll : Nat) : Mem Unit := do
  (atollCores (4 * atoll)).forM fun c => writeBackAll { w with core := c } c
  Mem.mod fun s => s.dropAtoll atoll

/-- The next block or cohort of a launch starts on its cores (R101, R136, R137). -/
def State.placeBlocks (s : State) (t : Task) (cores : List Nat) : State :=
  let s := if t.lagoon then { s with lagoon := (cores.headD 0 / 4) :: s.lagoon.filter (· != cores.headD 0 / 4) } else s
  let pairs := cores.zip (List.range cores.length)
  let held := s.lagoon
  let s := pairs.foldl (fun s c => { ({ s with lagoon := [] }).admitBlock t (t.handed + c.2) c.1 c.2 with lagoon := held }) s
  let s := s.modTask t.id fun t => { t with handed := t.handed + cores.length }
  s.unreserve t.id

/-! ## Pulling work (R137, R138) -/

/-- The card has blocks to hand out and its context runs (R137, R294). -/
def State.inList (s : State) (t : Task) : Bool :=
  !t.held && !t.dropped && (!t.launched || decide (t.handed < t.nblocks)) && s.ctxRuns t.ctx

/-- The head of a list. -/
def State.head (s : State) (seg prio : Nat) : Option Task :=
  s.tasks.find? fun t => t.seg == seg && t.prio == prio && s.inList t

/-- The near slices of a core, the one not taken from last first (R137). -/
def State.nearSlices (s : State) (core : Nat) : List Nat :=
  let n := s.part.slices
  let a := 2 * core % n
  let b := (2 * core + 1) % n
  if (s.core core).near = 0 then [b, a] else [a, b]

/-- The lists that a core examines, in order, and whether taking from them is a steal (R137). -/
def State.pullLists (s : State) (core : Nat) : List (Nat × Nat) × Bool :=
  let near := s.nearSlices core
  let any (seg : Nat) : Bool := (List.range 4).any fun p => (s.head seg p).isSome
  if near.any any then ((List.range 4).flatMap fun p => near.map fun sl => (sl, p), false)
  else
    let n := s.part.slices
    match ((List.range (n - 2)).map fun i => (2 * core + 2 + i) % n).find? any with
    | some seg => ((List.range 4).map fun p => (seg, p), true)
    | none => ([], true)

/-- A head did not fit on a core: its list's count grows, and at 64 the core, or for a cohort the atoll, reserves (R138). -/
def State.failed (s : State) (core : Nat) (t : Task) : Bool × State :=
  let key := 4 * t.seg + t.prio
  let n := Store.get 0 (s.core core).fails key + 1
  let s := s.modCore core fun c => { c with fails := Store.put 0 c.fails key n }
  if n < 64 then (false, s)
  else (true, (if t.cohort = 0 then [core] else atollCores core).foldl (fun s c =>
    s.modCore c fun k => { k with reserve := k.reserve.or (some t.id) }) s)

/-- A core takes the next block or cohort of a launch that fits (R136, R137). -/
def State.takeBlock (s : State) (core : Nat) (t : Task) (cores : List Nat) (steal : Bool) : State :=
  let flushed := if t.lagoon then (flushAtoll { t.who with core := core } (core / 4)).on s else (.ok (), s)
  match flushed with
  | (.error _, s) => s
  | (.ok _, s) =>
    let s := s.placeBlocks t cores
    let s := s.modCore core fun c =>
      { c with fails := Store.put 0 c.fails (4 * t.seg + t.prio) 0, near := if steal then c.near else (if t.seg = 2 * core % s.part.slices then 0 else 1) }
    if steal then
      let s := s.countDev 16 1
      if t.isDet then s.detEvent t.ctx 4 0 else s
    else s

/-- What examining a head comes to. -/
inductive Pull where
  | done (s : State)
  | miss (s : State)

/-- A head is examined: checked once, then taken, refused, or passed over (R100, R137, R138). -/
def State.examine (s : State) (core : Nat) (t : Task) (steal : Bool) : Pull :=
  let (r, s) := if t.launched then (Except.ok (Except.ok t), s) else (dispatchCheck t).on s
  match r with
  | .error .wait => .done s
  | .error (.trap _) => .done ((s.forgetTask t.id).refuse t 8).wakeFuts
  | .ok (.error n) => .done ((s.forgetTask t.id).refuse t n).wakeFuts
  | .ok (.ok t') =>
    let s := s.modTask t.id fun _ => t'
    match s.coresFor t' core with
    | some cores => .done (s.takeBlock core t' cores steal)
    | none =>
      match s.failed core t' with
      | (true, s) => .done s
      | (false, s) => .miss s

/-- The lists in order, until something happens. -/
def State.pullFrom (core : Nat) (steal : Bool) : List (Nat × Nat) → State → State
  | [], s => s.modCore core fun c => { c with idle := true }
  | (seg, p) :: r, s =>
    match s.head seg p with
    | none => s.pullFrom core steal r
    | some t =>
      match s.examine core t steal with
      | .done s => s
      | .miss s => s.pullFrom core steal r

/-- CORE_PULL (R137): a core that has reserved examines only that head (R138). -/
def execCorePull (core : Nat) (s : State) : Out :=
  match (s.core core).reserve.bind s.task with
  | some t =>
    if (s.head t.seg t.prio).map (·.id) = some t.id then
      match s.coresFor t core with
      | some cores => .next (s.takeBlock core t cores (!(s.nearSlices core).contains t.seg))
      | none => .next (s.modCore core fun c => { c with idle := true })
    else .next (s.modCore core fun c => { c with reserve := none })
  | none =>
    let (ls, steal) := s.pullLists core
    .next (s.pullFrom core steal ls)

/-! ## Retirement (R103, R256, R258, R263) -/

/-- Every group of the block has retired, and every copy, matrix operation and drain of its groups has completed (R103). -/
def State.quiet (s : State) (b : Block) : Bool :=
  let mine (task block : Nat) : Bool := task == b.task && block == b.idx
  let op (o : MOp) : Bool := mine o.task o.block || mine o.place.1 o.place.2
  !(s.allGroups.any fun g => g.task == b.task && g.block == b.idx)
    && s.cores.all fun (e : Nat × Core) =>
      !(e.2.chans.flatten.any (fun c => mine c.task c.block) || e.2.mq.any op || e.2.aside.any (fun d => op d.op)
        || (e.2.drain.map fun d => op d.op).getD false)

/-- The blocks of a block's cohort that are resident. -/
def State.mates (s : State) (b : Block) : List Block :=
  let n := ((s.task b.task).map Task.cohort).getD 0
  s.blocks.filter fun x => x.task == b.task && !x.retired && (if n = 0 then x.idx == b.idx else x.idx / n == b.idx / n)

/-- The block may retire: it and the other blocks of its cohort, which are co-resident until all retire, are quiet (R103, R133). -/
def State.mayRetire (s : State) (b : Block) : Bool := !b.retired && (s.mates b).all s.quiet

/-- What a core gives back when a block retires: its frames and its use of drain programs (R258, R263). -/
def Core.giveBack (c : Core) (o : Nat × Nat) : Core :=
  let fs := (List.range 192).filter fun f => (c.frame f).owner == some o
  let c := fs.foldl (fun c f => (c.clearFrame f).setFrame f Frame.reset) c
  let ds := c.dslots.map fun d => { d with users := d.users.filter (· != o) }
  { c with dslots := ds.filter fun d => !d.users.isEmpty, idle := false }

/-- The slots of an owner return to EMPTY on every core (R256). -/
def State.freeSlots (s : State) (o : Nat × Nat) : State :=
  { s with cores := s.cores.map fun (e : Nat × Core) => (e.1, { e.2 with wslots := e.2.wslots.filter fun x => !x.2.heldBy o }) }

/-- A block retires, its core's dirty bytes being at their homes (R103). -/
def State.retireBlock (s : State) (b : Block) : State :=
  let o := s.slotOwner b.task b.idx
  let last := (s.mates b).all fun x => x.idx == b.idx
  let s := s.modCore b.core fun c => c.giveBack (b.task, b.idx)
  let s := if last then s.freeSlots o else s
  let det := ((s.task b.task).map Task.isDet).getD false
  let s := if det then s.modBlock b.task b.idx fun b => { b with retired := true }
           else { s with blocks := s.blocks.filter fun x => !(x.task == b.task && x.idx == b.idx) }
  let s := if last then { s with lagoon := s.lagoon.filter (· != b.core / 4) } else s
  s.modTask b.task fun t =>
    { t with retired := t.retired + 1, done := if b.canc then t.done else t.done + 1, canc := t.canc || b.canc }

/-- The accesses of a block's retirement: its core's dirty bytes, and at the end of a lagoon cohort the whole atoll's (R103, R197). -/
def retireFlush (s : State) (b : Block) : Mem Unit :=
  let w : Who := { hwWho b.ctx true [7, b.task, b.idx] with core := b.core }
  if s.lagoon.contains (b.core / 4) then flushAtoll w (b.core / 4) else writeBackAll w b.core

/-- BLOCK_RETIRE (R103). -/
def execBlockRetire (launch block : Nat) (s : State) : Out :=
  match s.findBlock launch block with
  | none => .next s
  | some b =>
    if s.mayRetire b then
      match (retireFlush s b).on s with
      | (.ok _, s) => .next (s.retireBlock b)
      | (.error _, s) => .next s
    else .next s

/-! ## Commits of a DET launch (R310) -/

/-- The block's turn to commit has come. -/
def State.mayCommit (s : State) (b : Block) : Bool := b.retired && ((s.task b.task).map (·.commits)).getD 0 == b.idx

/-- The block's buffers are dropped, and it leaves the device. -/
def State.committed (s : State) (launch block : Nat) : State :=
  let s := s.detDrop launch block
  ({ s with blocks := s.blocks.filter fun x => !(x.task == launch && x.idx == block) }).modTask launch fun t =>
    { t with commits := t.commits + 1 }

/-- DET_COMMIT (R310). -/
def execDetCommit (launch block : Nat) (s : State) : Out :=
  match s.findBlock launch block with
  | none => .next s
  | some b =>
    if s.mayCommit b then
      let w := hwWho b.ctx true [8, launch, block]
      match ((s.detBytes launch block).forM fun x => l2Write w x.1 x.2.1 [x.2.2]).on s with
      | (.ok _, s) => .next (s.committed launch block)
      | (.error _, s) => .next s
    else .next s

/-! ## Completion (R103, R113, R114, R311 to R313) -/

/-- The bytes of a region but for those on PROF pages (R313). -/
def regionBytes (w : Who) : Nat → Nat → Nat → Mem (List Byte)
  | 0, _, _ => pure []
  | f + 1, va, n => do
    if n = 0 then return []
    let l ← translate w .load va
    let k := min n l.left
    let d ← if l.prof then pure [] else readPiece w false ⟨va, k, l⟩
    return d ++ (← regionBytes w f (va + k) (n - k))

/-- The message that is hashed (R312). -/
def digestMessage (t : Task) : Mem (List Byte) := do
  let ds ← (t.outs.filter fun r => r.2 != 0).mapM fun r => do
    let d ← regionBytes t.who (r.2 / 4096 + 2) r.1 r.2
    return toBytes 8 r.1 ++ toBytes 8 r.2 ++ d
  return ds.flatten

/-- The launch may complete: every block has retired or been dropped. -/
def State.mayComplete (s : State) (t : Task) : Bool :=
  t.launched && t.retired == t.handed && (t.dropped || t.handed == t.nblocks) && !(s.blocks.any fun b => b.task == t.id)

/-- STATUS of a launch (R114). -/
def Task.status (t : Task) : Nat := if t.ended then 2 else if t.canc then 1 else 0

/-- Steps 2 to 4 of R103. -/
def State.completeTask (s : State) (t : Task) (digest : Option (List Byte)) : State :=
  let s := { s with det := s.det.filter fun e => e.1 / 2 ^ 40 != t.id }
  let s := (s.forgetTask t.id).donec t
  match t.src with
  | .ring n =>
    let w3 := t.canc.toNat * 2 ^ 34 + digest.isSome.toNat * 2 ^ 33 + (s.detv t.ctx).toNat * 2 ^ 32 + t.done
    s.complete n (completion t.ctx t.status 1 (BitVec.ofNat 64 (t.w 5)) w3 ((digest.map fun d => words64 d 6).getD []))
  | .graph g _ => s.graphTold g t.id t.status t.canc
  | .gather q buf gen _ => s.freeBuf q buf gen
  | .post .. => s

/-- LAUNCH_COMPLETE (R103, R311): a launch in deterministic mode with output regions is hashed first. -/
def execLaunchComplete (launch : Nat) (s : State) : Out :=
  match s.task launch with
  | none => .next s
  | some t =>
    if s.mayComplete t then
      if t.isDet && bits (t.h 7) 47 32 != 0 then
        match (digestMessage t).on s with
        | (.ok m, s) => .next (s.completeTask t (some (sha384 m)))
        | (.error .wait, s) => .next s
        | (.error (.trap c), s) =>
          let e := s.engineEntry c.code c.sub 7 0 0 t.ctx 0 0 c.addr.toNat 0
          .next ((s.trapDue (.digest 0) e).completeTask t none)
      else .next (s.completeTask t none)
    else .next s

end Sys2Proof.Machine
end

