-- ==== Sys2Proof/Machine/Memory.lean ====
section
/-! DEFINITION. Loads, stores, prefetch, cache control and fences (R388 to R395, R400, R401). -/
namespace Sys2Proof.Machine

/-- The address of a memory access with the checks of R389. -/
def memAddr (s : State) (a : Adr) (n acc l : Nat) : Mem Nat := vaCheck (s.g.ea64 a n l) (min n 4) acc

/-- LD; LD.pf writes zero where the access would fault (R390, R391). -/
def execLd (h : Hdr) (sz : Sz) (d : VReg) (adr : Adr) (ann : Option Scope) (pf : Bool) (s : State) : Out :=
  mop (.any h (d :: Adr.regs adr) (alen adr)) s fun s l => fun s0 =>
    let r := (do
      let e ← memAddr s adr sz.bytes 0 l
      loadBytes (s.who l) e sz.bytes (annOf ann)).on s0
    match r with
    | (.ok bs, s1) => (.ok { v := vwrites d (extendSz sz bs) }, s1)
    | (.error (.trap c), s1) =>
      if pf then (.ok { v := vwrites d (List.replicate (4 * sz.regs) 0) }, s1) else (.error (.trap c), s1)
    | (.error .wait, s1) => (.error .wait, s1)

/-- ST (R390). -/
def execSt (h : Hdr) (sz : Sz) (d : VReg) (adr : Adr) (ann : Option Scope) (s : State) : Out :=
  mop (.any h (d :: Adr.regs adr) (alen adr)) s fun s l => do
    let e ← memAddr s adr sz.bytes 1 l
    storeBytes (s.who l) e (annOf ann) (s.g.vbytes d sz.bytes l)
    return {}

/-- LDS (R392). -/
def execLds (h : Hdr) (sz : Sz) (d : VReg) (adr : Adr) (_ann : Option Scope) (s : State) : Out :=
  mop (.any h (d :: Adr.regs adr) (alen adr)) s fun s l => do
    let e ← spCheck s (s.g.ea32 adr sz.bytes l) sz.bytes sz.bytes 0
    let now ← get
    return { v := vwrites d (extendSz sz (now.spLoad s.g.core s.spBase e sz.bytes)) }

/-- STS (R392). -/
def execSts (h : Hdr) (sz : Sz) (d : VReg) (adr : Adr) (_ann : Option Scope) (s : State) : Out :=
  mop (.any h (d :: Adr.regs adr) (alen adr)) s fun s l => do
    let e ← spCheck s (s.g.ea32 adr sz.bytes l) sz.bytes sz.bytes 1
    Mem.mod fun now => now.spStore s.g.core s.spBase e (s.g.vbytes d sz.bytes l)
    return {}

/-- LDK acts once; its operands are of kind k (R393). -/
def execLdk (h : Hdr) (w64 : Bool) (d : KReg) (adr : Adr) (ann : Option Scope) (s : State) : Out :=
  issue (.any h [] (alen adr)) s fun s act =>
    let n := if w64 then 8 else 4
    s.memOnce (.any h [] (alen adr)) act do
      let e ← memAddr s adr n 0 0
      let bs ← loadBytes (s.who (lowest act)) e n (annOf ann)
      let x := BitVec.ofNat 64 (ofBytes bs)
      Mem.mod fun s => { s with g := if w64 then s.g.wk64 d x else s.g.wk d (x.truncate 32) }

/-- What PREF does for a lane: the line's sectors enter the first-level cache or L2, when nothing faults or waits (R394). -/
def prefLine (s : State) (l2 : Bool) (adr : Adr) (l : Nat) : Mem Unit := do
  let e ← vaCheck (s.g.ea64 adr 1 l) 1 0
  let w := s.who l
  let p ← walk w e
  if !p.rd || (p.prv && !w.priv) then return
  let line := p.dpa - p.dpa % 128
  if l2 then (List.range 4).forM fun i => do let _ ← l2Sector w (line / 32 + i) p.gr
  else if p.c && p.ord != 0 && (w.detOf p).isNone then
    (List.range 4).forM fun i => do let _ ← l1Read w (line + 32 * i) 32 p.gr e

/-- PREF is a hint that never faults: an attempt that would fault leaves everything as it was (R394). -/
def execPref (h : Hdr) (l2 : Bool) (adr : Adr) (s : State) : Out :=
  mop (.any h (Adr.regs adr) (alen adr)) s fun s l => fun s0 =>
    match (prefLine s l2 adr l).on s0 with
    | (.ok _, s1) => (.ok {}, s1)
    | (.error _, _) => (.ok {}, s0)

/-- The line of a CCTL: translated, with PRIV checked (R395). -/
def cctlLine (s : State) (adr : Adr) (l : Nat) : Mem Leaf := withAcc 0 do
  let e ← vaCheck (s.g.ea64 adr 1 l) 1 0
  let p ← walk (s.who l) e
  if p.prv && !s.g.priv then Mem.trap cPERM 0 0 e
  return p

/-- The keys of a line's sectors in the cache that holds it (R197). -/
def State.lineKeys (s : State) (core dpa : Nat) : List Nat :=
  let c := s.l1Core core dpa
  (List.range 4).map fun i => l1Key c (dpa / 128 * 4 + i)

/-- Sectors of the first-level cache that satisfy p are dropped. -/
def State.dropSectors (s : State) (keys : List Nat) (p : L1Sec → Bool) : State :=
  { s with l1 := s.l1.filter fun e => !(keys.contains e.1 && p e.2) }

/-- Words of the instruction cache from address a, n bytes, are dropped (R319). -/
def State.dropCode (s : State) (core a n : Nat) : State :=
  s.modCore core fun c => { c with icache := c.icache.filter fun e => !(decide (a / 8 ≤ e.1) && decide (e.1 < (a + n) / 8)) }

/-- The registers and words of a CCTL. -/
def CctlOp.adr? : CctlOp → Option Adr
  | .wb a | .inv a | .wbinv a | .iinv a => some a
  | _ => none

/-- CCTL (R395). -/
def execCctl (h : Hdr) (op : CctlOp) (s : State) : Out :=
  let adr := CctlOp.adr? op
  mop (.any h ((adr.map Adr.regs).getD []) ((adr.map alen).getD 1)) s fun s l =>
    match op with
    | .wb a => do
      let p ← cctlLine s a l
      (s.lineKeys s.g.core p.dpa).forM fun k => flushKey (s.who l) p.gr k
      return {}
    | .inv a => do
      let p ← cctlLine s a l
      Mem.mod fun t => t.dropSectors (s.lineKeys s.g.core p.dpa) fun e => e.dirty == 0
      return {}
    | .wbinv a => do
      let p ← cctlLine s a l
      (s.lineKeys s.g.core p.dpa).forM fun k => flushKey (s.who l) p.gr k
      Mem.mod fun t => t.dropSectors (s.lineKeys s.g.core p.dpa) fun e => e.dirty == 0
      return {}
    | .iinv a => do
      let p ← cctlLine s a l
      Mem.mod fun t => t.dropCode s.g.core (p.dpa / 128 * 128) 128
      return {}
    | .wball => do
      writeBackAll (s.who l) s.g.core
      return {}
    | .iinvall => do
      Mem.mod fun t => t.modCore s.g.core fun c => { c with icache := [] }
      return {}

/-- The effect of a fence at a scope (R220). -/
def fenceAt (w : Who) (scope : Nat) : Mem Unit := do
  release w scope
  acquire w scope

/-- FENCE (R400). -/
def execFence (h : Hdr) (scope : Scope) (s : State) : Out :=
  issue (.any h [] 1) s fun s act => s.memOnce (.any h [] 1) act (fenceAt (s.who (lowest act)) (Scope.code scope))

/-- Every command of the group on the queues of a mask has completed (R180, R228). -/
def Group.drained (g : Group) (mask : Nat) : Bool :=
  (List.range 8).all fun i => !mask.testBit i || g.async.getD i 0 == 0

/-- QFENCE waits for the group's commands on the queues of the mask and then acts as FENCE, with .g taken as .b; the engines' writes
happen before what follows, so the core keeps no clean copy of their bytes (R228, R401). -/
def execQfence (h : Hdr) (mask : Byte) (scope : Scope) (s : State) : Out :=
  issue (.any h [] 1) s fun s act =>
    if s.g.drained mask.toNat then
      s.memOnce (.any h [] 1) act do
        fenceAt (s.who (lowest act)) (max 1 (Scope.code scope))
        if mask ≠ 0 then Mem.mod fun t => t.dropClean s.g.core
    else s.waitFor .engine none

end Sys2Proof.Machine
end

