-- ==== Sys2Proof/Machine/Atomics.lean ====
section
/-! DEFINITION. Atomics (R396 to R399, R210, R248). -/
namespace Sys2Proof.Machine

/-- Bytes of an atomic type (R396). -/
def AtomTy.bytes : AtomTy → Nat
  | .s32 | .n32 => 4
  | .s64 | .n64 => 8

def AtomTy.unsigned : AtomTy → Bool
  | .n32 | .n64 => true
  | _ => false

def AtomTy.code : AtomTy → Nat
  | .s32 => 0 | .n32 => 1 | .s64 => 2 | .n64 => 3

def AtomOp.code : AtomOp → Nat
  | .add => 0 | .min => 1 | .max => 2 | .and => 3 | .or => 4 | .xor => 5 | .exch => 6 | .cas => 7

/-- The new value of w bits from the old one, the operand and the comparand (R397). -/
def atomNew (op : AtomOp) (w : Nat) (n : Bool) (old b c : Nat) : Nat :=
  let v (x : Nat) : Int := if n then (x % 2 ^ w : Nat) else sext x w
  match op with
  | .add => (old + b) % 2 ^ w
  | .min => if v b < v old then b else old
  | .max => if v old < v b then b else old
  | .and => old &&& b
  | .or => old ||| b
  | .xor => old ^^^ b
  | .exch => b
  | .cas => if old = c then b else old

/-- The new word of an atomic FP32 addition (R398). -/
def faddNew (old b : Nat) : Nat :=
  ffF32.round .rn false false (XR.add .rn (ffF32.value false old) (ffF32.value false b))

/-- A NaN from values that are not NaN (R398). -/
def faddNan (old b : Nat) : Bool :=
  let x := ffF32.value false old
  let y := ffF32.value false b
  !x.isNan && !y.isNan && (XR.add .rn x y).isNan

/-- The payload of an ATOM message (R68). -/
def atomPayload (op ty b c off : Nat) : List Byte :=
  toBytes 8 b ++ toBytes 8 c ++ [BitVec.ofNat 8 op, BitVec.ofNat 8 ty, BitVec.ofNat 8 off] ++ List.replicate 13 0

/-- An atomic by a lane on n bytes at a virtual address (R397): ORDER adds release and acquire at the scope, on a STRONG page
it adds nothing to the release and acquire at .x that the access is (R221), and a .d or .x
atomic of a DET launch on a page that is not DET is noted. -/
def laneAtomic (s : State) (l n : Nat) (e : DWord) (ord : Order) (scope op ty b c : Nat) (f : Nat → Nat) : Mem Nat := withAcc 2 do
  let va ← vaCheck (e.toNat : Int) n 2
  let w := s.who l
  let p ← translate w .atomic va
  let now ← get
  let scope := if scope = 2 ∧ now.place w.core 2 p ≠ .l1 then 3 else scope
  if p.ord = 0 then
    release w 4
    acquire w 4
  if p.ord = 1 ∧ (ord = .rel ∨ ord = .ar) then release w scope
  if p.ord = 1 ∧ (ord = .acq ∨ ord = .ar) then acquire w scope
  if 3 ≤ scope ∧ !p.det then w.det! 2
  let old ← atomicAt w scope p n va (atomPayload op ty b c (p.dpa % 32)) fun o => toBytes n (f (ofBytes o))
  return ofBytes old

/-- The return of an atomic: D = 1023 returns nothing (R324, R396). -/
def atomRet (d : VReg) (n old : Nat) : LaneOut := { v := vwrites d (toBytes n old) }

/-- ATOM (R397). -/
def execAtom (h : Hdr) (op : AtomOp) (ty : AtomTy) (d : VReg) (a b : Src) (c : VReg) (ord : Order) (scope : Scope) (s : State) : Out :=
  mop (.any h (d :: c :: (Src.regs a ++ Src.regs b)) (len2 a b)) s fun s l => do
    let n := AtomTy.bytes ty
    let w64 := n == 8
    let bv := if w64 then (s.g.s64 b l).toNat else (s.g.s32 b l).toNat
    let cv := if op = .cas then (if w64 then (s.g.rv64 c l).toNat else (s.g.rv c l).toNat) else 0
    let old ← laneAtomic s l n (s.g.s64 a l) ord (Scope.code scope) (AtomOp.code op) (AtomTy.code ty) bv cv fun o => atomNew op (8 * n) (AtomTy.unsigned ty) o bv cv
    return atomRet d n old

/-- ATOM.fadd (R398). -/
def execAtomFadd (h : Hdr) (d : VReg) (a b : Src) (ord : Order) (scope : Scope) (s : State) : Out :=
  mop (.any h (d :: (Src.regs a ++ Src.regs b)) (len2 a b)) s fun s l => do
    let bv := (s.g.s32 b l).toNat
    let old ← laneAtomic s l 4 (s.g.s64 a l) ord (Scope.code scope) 8 0 bv 0 fun o => faddNew o bv
    if faddNan old bv then Mem.mod fun t => { t with g := t.g.setNanp }
    return atomRet d 4 old

/-- An atomic by a lane on a word of the scratchpad (R399). -/
def laneAtoms (s : State) (l : Nat) (e : Word) (f : Nat → Nat) : Mem Nat := do
  let o ← spCheck s (e.toNat : Int) 4 4 2
  let t ← get
  let old := ofBytes (t.spLoad s.g.core s.spBase o 4)
  Mem.mod fun t => t.spStore s.g.core s.spBase o (toBytes 4 (f old))
  return old

/-- ATOMS (R399). -/
def execAtoms (h : Hdr) (op : AtomOp) (n : Bool) (d : VReg) (a b : Src) (c : VReg) (_ord : Order) (s : State) : Out :=
  mop (.any h (d :: c :: (Src.regs a ++ Src.regs b)) (len2 a b)) s fun s l => do
    let bv := (s.g.s32 b l).toNat
    let cv := if op = .cas then (s.g.rv c l).toNat else 0
    let old ← laneAtoms s l (s.g.s32 a l) fun o => atomNew op 32 n o bv cv
    return atomRet d 4 old

/-- ATOMS.fadd (R398, R399). -/
def execAtomsFadd (h : Hdr) (d : VReg) (a b : Src) (_ord : Order) (s : State) : Out :=
  mop (.any h (d :: (Src.regs a ++ Src.regs b)) (len2 a b)) s fun s l => do
    let bv := (s.g.s32 b l).toNat
    let old ← laneAtoms s l (s.g.s32 a l) fun o => faddNew o bv
    if faddNan old bv then Mem.mod fun t => { t with g := t.g.setNanp }
    return atomRet d 4 old

end Sys2Proof.Machine
end

