-- ==== Sys2Proof/Machine/Submission.lean ====
section
/-! DEFINITION. Submission and completion rings, graph starts, and the graph walker (R105 to R108, R113 to R118). -/
namespace Sys2Proof.Machine

/-! ## Rings in host memory and at a DPA -/

/-- On whose behalf the device accesses a ring. -/
def ringWho (n : Nat) : Who := { hwWho 0 true [9, n] with anon := true }

/-- No route reaches some of n bytes of host memory (R97, R107, R113, R291; assumption 3). -/
def State.hostHole (s : State) (a n : Nat) : Bool := s.unrouted.any fun r => decide (r.1 < a + n) && decide (a < r.1 + r.2)

/-- Bytes of a ring read, at a host address or a DPA; an unrouted host address is refused as a DPA out of range is (R107). -/
def ringRead (w : Who) (host : Bool) (a n : Nat) : Mem (List Byte) := do
  if host then
    let s ← get
    if s.hostHole a n then Mem.trap cXLATE 2 0 a
    return Memory.read s.hostmem a n
  else physRead w a n

/-- Bytes written to a ring. -/
def ringWrite (w : Who) (host : Bool) (a : Nat) (bs : List Byte) : Mem Unit := do
  if host then
    let s ← get
    if s.hostHole a bs.length then Mem.trap cXLATE 2 0 a
    Mem.mod fun s => { s with hostmem := Memory.write s.hostmem a bs }
  else physWrite w a bs

/-- HOST and BASE of a ring's base register (R96, R105). -/
def baseHost (b : DWord) : Bool := b.getLsbD 63

def baseAddr (b : DWord) : Nat := bits b.toNat 47 12 * 4096

/-- An MSI-X message is sent (R87, R108). -/
def State.msix (s : State) (v : Nat) : State := { s with outbox := s.outbox ++ [.msix v] }

/-- The record of an address that a ring access was refused at, unless the read was poisoned (R98). -/
def State.ringFault (s : State) (inst : Nat) (c : Cause) : State :=
  if c.code = cXLATE then s.addrRange 9 inst (bits c.addr.toNat 40 0) none else s

/-! ## Submission (R105 to R107) -/

/-- Entries of a ring (R105). -/
def ringSize (b : DWord) : Nat := 2 ^ (bits b.toNat 55 52 + 4)

/-- An entry is due to be fetched. -/
def SQ.fetchDue (q : SQ) : Bool := q.en && q.head != q.tail

/-- HEAD advances modulo the ring's size. -/
def State.advanceHead (s : State) (n : Nat) : State :=
  let q := s.sq n
  s.setSq n { q with head := (q.head + 1) % ringSize q.sqbase }

/-- A failed entry read (R107). -/
def State.fetchFault (s : State) (n : Nat) (c : Cause) : State :=
  (s.setSq n { s.sq n with en := false, err := 2 }).ringFault n c

/-- The form of a graph start (R116). -/
def startOk (ws : List DWord) : Bool :=
  let w (i : Nat) : Nat := (ws.getD i 0).toNat
  bits (w 0) 63 48 == 0 && w 0 % 64 == 0 && bits (w 1) 63 32 == 0 && w 2 == 0 && w 3 == 2 * 2 ^ 60 && w 4 == 0 && w 6 == 0 && w 7 == 0

/-- The graph of a start entry of a ring (R116). -/
def State.startGraph (s : State) (n : Nat) (ws : List DWord) : Graph :=
  let q := s.sq n
  let w1 := (ws.getD 1 0).toNat
  { id := s.nextId, ring := n, ctx := q.ctx, asn := q.asn, va := BitVec.ofNat 64 (bits (ws.getD 0 0).toNat 47 0)
    count := bits w1 15 0, node := bits w1 31 16, user := ws.getD 5 0, loops := [], out := [], await := none, ending := none
    worst := 0, canc := false }

/-- The entry at HEAD is taken: a graph starts, or a card is posted; a full segment or 64 graphs stall the ring (R107, R115, R116,
R149). -/
def State.takeEntry (s : State) (n : Nat) (ws : List DWord) : State :=
  let q := s.sq n
  if bits (ws.getD 3 0).toNat 63 60 = 2 then
    if 64 ≤ s.graphs.length then s
    else
      let g := s.startGraph n ws
      let s := { s with nextId := s.nextId + 1, graphs := s.graphs ++ [g] }.advanceHead n
      if startOk ws then s else s.endGraph g 3
  else
    let card := fillCard ws q.asn.toNat q.ctx
    match s.post card (.ring n) (segOf s.part.slices (bits (card.getD 1 0).toNat 63 48)) with
    | (.full, _) => s
    | (_, t) => t.advanceHead n

/-- RING_ENTRY_FETCH (R107). -/
def execRingEntryFetch (n : Nat) (s : State) : Out :=
  let q := s.sq n
  if q.fetchDue then
    match (ringRead (ringWho n) (baseHost q.sqbase) (baseAddr q.sqbase + 64 * q.head) 64).on s with
    | (.ok bs, s) => .next (s.takeEntry n (words64 bs 8))
    | (.error .wait, s) => .next s
    | (.error (.trap c), s) => .next (s.fetchFault n c)
  else .next s

/-! ## Completion records (R108, R113) -/

/-- The completion ring is full. -/
def SQ.cqFull (q : SQ) : Bool := (q.widx + 1) % ringSize q.cqbase == q.ridx % ringSize q.cqbase

/-- A record is due to be written: the ring has room, and no write of it has faulted since the ring was last enabled. -/
def SQ.recordDue (q : SQ) : Bool := !q.held.isEmpty && !q.cqFull && !q.faulted

/-- The bytes of a record: TIME and P are filled in as it is written. -/
def recordBytes (r : List DWord) (time : DWord) (p : Bool) : List Byte :=
  (List.range 16).flatMap fun i =>
    toBytes 8 (if i = 0 then (r.getD 0 0).toNat + p.toNat else if i = 2 then time.toNat else (r.getD i 0).toNat)

/-- WIDX advances, the phase inverting at the wrap. -/
def State.recordDone (s : State) (n : Nat) : State :=
  let q := s.sq n
  let w := (q.widx + 1) % ringSize q.cqbase
  let s := s.setSq n { q with held := q.held.tail, widx := w, phase := q.phase ^^ (w == 0) }
  if q.ie then s.msix (2 + n) else s

/-- COMPLETION_RECORD_WRITE (R113): words 1 to 15, then word 0; the error record of a write that faults names the record's address,
whichever of its words met the fault (assumption 13). -/
def execCompletionRecordWrite (n : Nat) (s : State) : Out :=
  let q := s.sq n
  if q.recordDue then
    let bs := recordBytes (q.held.headD []) s.rtc q.phase
    let a := baseAddr q.cqbase + 128 * q.widx
    let write : Mem Unit := do
      ringWrite (ringWho n) (baseHost q.cqbase) (a + 8) (sliceBytes bs 8 120)
      ringWrite (ringWho n) (baseHost q.cqbase) a (sliceBytes bs 0 8)
    match write.on s with
    | (.ok _, s) => .next (s.recordDone n)
    | (.error .wait, s) => .next s
    | (.error (.trap c), s) => .next ((s.setSq n { s.sq n with en := false, err := 3, faulted := true }).ringFault n { c with addr := BitVec.ofNat 64 a })
  else .next s

/-! ## The graph walker (R115 to R118) -/

def State.graph (s : State) (id : Nat) : Option Graph := s.graphs.find? fun g => g.id == id

/-- On whose behalf the walker makes its accesses. -/
def Graph.who (g : Graph) : Who := { hwWho g.ctx (g.ctx.getLsbD 31) [10, g.id] with asn := some g.asn.toNat }

/-- The words of the current node. -/
def Graph.read (g : Graph) : Mem (List DWord) := do
  return words64 (← engineRead g.who (g.va.toNat + 64 * g.node) 64) 8

/-- The walker may perform the current node: it awaits no launch and the context runs (R117, R118). -/
def State.mayWalk (s : State) (g : Graph) : Bool := g.await.isNone && g.ending.isNone && g.worst == 0 && s.ctxRuns g.ctx

/-- The event that the current node of a graph is; an index beyond the count, and a node that cannot be read, are invalid (R117). -/
def State.nodeOf (s : State) (g : Graph) : Instr :=
  if g.count ≤ g.node then .nodeInvalid g.id
  else
    match (g.read.on s).1 with
    | .ok ws => nodeRow ws g.id
    | .error _ => .nodeInvalid g.id

def nodeNext (ws : List DWord) : Nat := bits (ws.getD 0 0).toNat 31 16
def nodeAlt (ws : List DWord) : Nat := bits (ws.getD 0 0).toNat 47 32
def nodeAddr (ws : List DWord) : Nat := bits (ws.getD 1 0).toNat 47 0
def nodeValue (ws : List DWord) : Nat := bits (ws.getD 2 0).toNat 31 0
def nodeDc (ws : List DWord) : Nat := bits (ws.getD 2 0).toNat 43 32
def nodeAsync (ws : List DWord) : Bool := (ws.getD 0 0).getLsbD 4

/-- The walk goes on at a node. -/
def State.goNode (s : State) (g : Graph) (n : Nat) : State := s.modGraph g.id fun g => { g with node := n }

/-- What a visit comes to: the graph ends with a status, the walk goes on in a state, or it waits in one. -/
inductive Visit where
  | ends (status : Nat) (s : State)
  | goes (s : State)

/-- A visit of the current node of a graph that may be walked, when that node is the one named by `row`: the node is read, and a
fault of it ends the graph with STATUS 8 (R116, R117). -/
def State.visit (s : State) (id : Nat) (row : Instr) (body : State → Graph → List DWord → Visit) : Out :=
  match s.graph id with
  | none => .next s
  | some g =>
    if s.mayWalk g && s.nodeOf g == row then
      if g.count ≤ g.node then .next (s.endGraph g 9)
      else
        match g.read.on s with
        | (.error .wait, s) => .next s
        | (.error (.trap _), s) => .next (s.endGraph g 8)
        | (.ok ws, s) =>
          match body s g ws with
          | .ends n s => .next (s.endGraph ((s.graph id).getD g) n)
          | .goes s => .next s
    else .next s

/-- A visit that makes an access: a fault ends the graph with STATUS 8 (R114, R117). -/
def State.visitMem {α : Type} (s : State) (m : Mem α) (k : State → α → Visit) : Visit :=
  match m.on s with
  | (.ok a, s) => k s a
  | (.error .wait, s) => .goes s
  | (.error (.trap _), s) => .ends 8 s

/-- An address of the node's alignment. -/
def alignedTo {α : Type} (a n : Nat) (m : Mem α) : Mem α := if a % n = 0 then m else Mem.trap cALIGN 0 0 a

/-- The card of a LAUNCH node posted (R117, R149, R170). -/
def State.launchNode (s : State) (g : Graph) (ws card : List DWord) : Visit :=
  let card := fillCard card g.asn.toNat g.ctx
  let id := s.nextId
  match s.post card (.graph g.id g.node) (segOf s.part.slices (bits (card.getD 1 0).toNat 63 48)) with
  | (.full, _) => .goes s
  | (.posted, t) =>
    if nodeAsync ws then
      .goes ((t.modGraph g.id fun x => { x with out := x.out ++ [(id, g.node)] }).goNode g (nodeNext ws))
    else .goes (t.modGraph g.id fun x => { x with await := some (id, nodeNext ws) })
  | (_, t) => .goes t

/-- NODE_LAUNCH (R117). -/
def execNodeLaunch (graph : Nat) (s : State) : Out :=
  s.visit graph (.nodeLaunch graph) fun s g ws =>
    if nodeAsync ws ∧ 16 ≤ g.out.length then .goes s
    else s.visitMem (alignedTo (nodeAddr ws) 64 (engineRead g.who (nodeAddr ws) 64)) fun s bs => s.launchNode g ws (words64 bs 8)

/-- NODE_JOIN (R117). -/
def execNodeJoin (graph : Nat) (s : State) : Out :=
  s.visit graph (.nodeJoin graph) fun s g ws => .goes (if g.out.isEmpty then s.goNode g (nodeNext ws) else s)

/-- The condition word (R117). -/
def condWord (g : Graph) (ws : List DWord) : Mem Nat :=
  alignedTo (nodeAddr ws) 4 do return ofBytes (← engineRead g.who (nodeAddr ws) 4)

/-- NODE_COND (R117). -/
def execNodeCond (graph : Nat) (s : State) : Out :=
  s.visit graph (.nodeCond graph) fun s g ws =>
    s.visitMem (condWord g ws) fun s x => .goes (s.goNode g (if x ≠ 0 then nodeNext ws else nodeAlt ws))

/-- NODE_WHILE (R117): a visit from outside the loop's body starts a count. -/
def execNodeWhile (graph : Nat) (s : State) : Out :=
  s.visit graph (.nodeWhile graph) fun s g ws =>
    let back := match g.loops with
      | (n, _) :: _ => n == g.node
      | [] => false
    let loops := if back then g.loops else (g.node, 0) :: g.loops
    if 8 < loops.length then .ends 11 s
    else
      s.visitMem (condWord g ws) fun s x =>
        let count := (loops.headD (0, 0)).2
        if x = 0 then .goes ((s.modGraph g.id fun h => { h with loops := loops.tail }).goNode g (nodeAlt ws))
        else if nodeValue ws ≠ 0 ∧ count = nodeValue ws then .ends 10 s
        else .goes ((s.modGraph g.id fun h => { h with loops := (g.node, count + 1) :: loops.tail }).goNode g (nodeNext ws))

/-- NODE_ENDW (R117). -/
def execNodeEndw (graph : Nat) (s : State) : Out :=
  s.visit graph (.nodeEndw graph) fun s g ws =>
    match g.loops with
    | (n, _) :: _ => if n = nodeAlt ws then .goes (s.goNode g n) else .ends 9 s
    | [] => .ends 9 s

/-- A store of the walker: a target that is POISON or cannot be read ends it as a fault (R117). -/
def nodeStore (g : Graph) (va x : Nat) : Mem Unit := do
  let w := g.who
  let p ← withAcc 1 (translate w .store va)
  match ← reach w (p.dpa / 32) p.gr true with
  | .error c => Mem.trap c 0 0 va
  | .ok _ =>
    let _ ← l2Read w p.dpa 4 p.gr va
    l2Write w p.dpa p.gr (toBytes 4 x)

/-- NODE_STORE (R117). -/
def execNodeStore (graph : Nat) (s : State) : Out :=
  s.visit graph (.nodeStore graph) fun s g ws =>
    s.visitMem (alignedTo (nodeAddr ws) 4 (nodeStore g (nodeAddr ws) (nodeValue ws))) fun s _ => .goes (s.goNode g (nodeNext ws))

/-- NODE_DECR (R117, R152). -/
def execNodeDecr (graph : Nat) (s : State) : Out :=
  s.visit graph (.nodeDecr graph) fun s g ws =>
    if s.ownsCounter g.ctx (nodeDc ws) then .goes ((s.adjust (nodeDc ws) 1).goNode g (nodeNext ws)) else .ends 8 s

/-- NODE_WAITD (R117, R152). -/
def execNodeWaitd (graph : Nat) (s : State) : Out :=
  s.visit graph (.nodeWaitd graph) fun s g ws =>
    if s.ownsCounter g.ctx (nodeDc ws) then
      .goes (if (s.counter (nodeDc ws)).value = 0 then s.goNode g (nodeNext ws) else s)
    else .ends 8 s

/-- NODE_END (R117). -/
def execNodeEnd (graph : Nat) (s : State) : Out :=
  s.visit graph (.nodeEnd graph) fun s g _ => if g.out.isEmpty then .ends 0 s else .goes s

/-- NODE_INVALID (R116, R117). -/
def execNodeInvalid (graph : Nat) (s : State) : Out :=
  s.visit graph (.nodeInvalid graph) fun s _ _ => .ends 9 s

end Sys2Proof.Machine
end

