-- ==== Sys2Proof/Machine/Registers.lean ====
section
/-! DEFINITION. The device register space: what a write may change, what a register reads as, and the writes without a behaviour of
their own (R10, R34, R54, R59, R61, R62, R80, R83 to R85, R92, R96, R105, R106, R291, R297, R302). -/
namespace Sys2Proof

/-! ## Accesses (R83) -/

/-- The bits of a field of a register after a write: those of the access, where it covers them, else the old ones. -/
def Access.fieldOf (a : Access) (old hi lo : Nat) : Nat :=
  let m := Machine.maskOf lo (hi + 1 - lo) &&& a.mask
  bits ((old - (old &&& m)) + (a.value &&& m)) hi lo

/-- A write-one-to-clear bit is cleared. -/
def Access.clears (a : Access) (i : Nat) : Bool := a.value.testBit i

/-- The access covers the field. -/
def Access.covers (a : Access) (hi lo : Nat) : Bool :=
  Machine.maskOf lo (hi + 1 - lo) &&& a.mask == Machine.maskOf lo (hi + 1 - lo)

/-- The submission ring that an access names (R105). -/
def Access.ring (a : Access) : Nat := a.off % 0x100000 / 48

/-- Curator or Docent. -/
def Agent.firm : Agent → Bool
  | .host => false
  | _ => true

def Agent.curatorOnly : Agent → Bool
  | .curator => true
  | _ => false

/-- The agents that may write a register (R34, R54, R61, R62, R80, R85, R92, R105, R297, R302). -/
def Reg.writers : Reg → Agent → Bool
  | .sroute, w | .sdom, w | .pwrbud, w => w.curatorOnly
  | .pwrshr _, w | .mscrub, w | .mrep _, w | .mlane _, w | .smigc, w | .smigs, w | .smigd, w | .sqbase _, w | .cqbase _, w
  | .win _, w | .ctxcmd, w | .ctxst, w | .svcpc, w | .svctgt, w | .svcrel, w | .errbase, w | .trbase, w | .sqcfg _, w => w.firm
  | .sqhead _, _ => false
  | _, _ => true

namespace Machine

/-! ## Writes -/

/-- Boot has failed: only DEVSTAT and FWMBX answer (R88). -/
def State.bootFailed (s : State) : Bool := decide (8 ≤ s.fw.boot.toNat)

/-- The register is one of the part's, and its block answers (R83, R88). -/
def State.assigned (s : State) (r : Reg) : Bool :=
  let has := match r with
    | .gap => false
    | .pwrshr n => decide (8 * n < s.part.cores)
    | .pwrlim c => decide (c < s.part.cores)
    | .mrep c => decide (c < s.part.channels)
    | .mlane c => decide (c < s.part.channels)
    | _ => true
  has && (!s.bootFailed || r == .devstat || r == .fwmbx)

/-- A write was ignored for its writer: DENY is set (R83). -/
def State.deny (s : State) : State := { s with fw := { s.fw with deny := true } }

/-- A register write by an agent that the register admits; an access of the host of another size or alignment completes with Unsupported
Request (R83). -/
def State.regWrite (s : State) (who : Agent → Bool) (body : State → Access → State) : State :=
  let a := s.bus
  if !a.ok then (if a.who == .host then { s with outbox := s.outbox ++ [.unsupported] } else s)
  else if !s.assigned (regAt a.off) then s
  else if !who a.who then s.deny
  else body s a

/-- The same as an event. -/
def regOp (who : Agent → Bool) (s : State) (body : State → Access → State) : Out := .next (s.regWrite who body)

/-! ## Register values -/

def b2n (b : Bool) (i : Nat) : Nat := b.toNat * 2 ^ i

/-- DEVSTAT (R84). -/
def State.devstat (s : State) : Nat :=
  (match s.part with | .nk960 => 0x0960 | .nk940 => 0x0940) * 2 ^ 48 + s.cfg.stepg % 256 * 2 ^ 40 + s.fw.boot.toNat * 2 ^ 28
    + b2n s.fw.ready 27 + b2n s.fw.idok 26 + b2n s.fw.deny 25 + s.fw.lsrst.toNat

/-- PWRBUD (R34). -/
def Power.bud (p : Power) : Nat := b2n p.lock 31 + p.eff.toNat * 2 ^ 17 + b2n p.clamp 16 + p.budget.toNat


/-- MREPc (R54). -/
def MChan.rep (c : MChan) : Nat :=
  b2n c.busy 63 + c.status.toNat * 2 ^ 60 + b2n c.sub 40 + c.lane.toNat * 2 ^ 30 + c.line.toNat

/-- MLANEc (R54). -/
def MChan.lanes (c : MChan) : Nat :=
  b2n c.arem 31 + c.alane.toNat * 2 ^ 26 + b2n c.brem 25 + c.blane.toNat * 2 ^ 20 + c.ce.toNat

/-- SLNKn (R59). -/
def Link.status (l : Link) : Nat :=
  b2n l.up 31 + l.width.toNat * 2 ^ 29 + b2n l.rate 28 + l.peer.toNat * 2 ^ 25 + l.plink.toNat * 2 ^ 23 + l.retrain.toNat * 2 ^ 8
    + l.replay.toNat

/-- SDOM (R62). -/
def Coh.sdom (c : Coh) : Nat :=
  b2n c.en 31 + c.devid.toNat * 2 ^ 24 + c.present.toNat * 2 ^ 16 + c.lost.toNat * 2 ^ 8 + c.mst.toNat

/-- SMIGC (R80). -/
def Coh.smigc (c : Coh) : Nat := b2n c.smigBusy 31 + c.smigSt.toNat * 2 ^ 28 + c.smigSize.toNat * 2 ^ 24

/-- SQCFGn (R105). -/
def SQ.cfg (q : SQ) : Nat := b2n q.en 63 + q.asn.toNat * 2 ^ 32 + q.ctx.toNat

/-- SQHEADn (R105). -/
def SQ.headReg (q : SQ) : Nat := q.err.toNat * 2 ^ 62 + q.tail % 2 ^ 16 * 2 ^ 16 + q.head % 2 ^ 16

/-- CQCTLn (R105). -/
def SQ.cqctl (q : SQ) : Nat := b2n q.ie 62 + q.widx % 2 ^ 16 * 2 ^ 16 + q.ridx % 2 ^ 16

/-- WINn: HOFF and BASE bits below SIZE read as zero (R85). -/
def winRead (w : Nat) : Nat :=
  let sz := bits w 62 58
  let low := if 20 ≤ sz then sz - 20 else 0
  let keep (x : Nat) : Nat := x / 2 ^ low * 2 ^ low
  bits w 63 58 * 2 ^ 58 + keep (bits w 57 42) * 2 ^ 42 + keep (bits w 40 20) * 2 ^ 20 + bits w 19 18 * 2 ^ 18

/-- ERRBASE (R96). -/
def ErrRing.baseReg (r : ErrRing) : Nat := b2n r.host 63 + bits r.base.toNat 47 12 * 2 ^ 12

/-- ERRCTL (R96). -/
def ErrRing.ctl (r : ErrRing) : Nat :=
  b2n r.en 63 + b2n r.ie 62 + b2n r.ovf 61 + r.size * 2 ^ 52 + r.lost * 2 ^ 32 + r.widx % 2 ^ 16 * 2 ^ 16 + r.ridx % 2 ^ 16

/-- TRBASE (R291). -/
def TrapRing.baseReg (r : TrapRing) : Nat := b2n r.host 63 + bits r.base.toNat 47 12 * 2 ^ 12

/-- The hardware source of an entry: a group slot, a block's channel, a drain engine, a matrix queue, a watchdog, post or digest
logic, by core (R293). -/
def srcUnit (x : TrapSrc × TrapEntry) : Nat × Nat × Nat × Nat × Nat :=
  match x.1 with
  | .group .. | .service .. | .cancelLog .. => (x.2.core, 0, x.2.slot, 0, 0)
  | .copy core ch task block => (core, 1, ch, task, block)
  | .drain core .. => (core, x.2.src, 0, 0, 0)
  | .watchdog core => (core, 4, 0, 0, 0)
  | .post core => (core, 5, 0, 0, 0)
  | .digest core => (core, 6, 0, 0, 0)

/-- TRCTL (R291). -/
def TrapRing.ctl (r : TrapRing) : Nat :=
  b2n r.en 63 + b2n r.ie 62 + b2n r.ovf 61 + r.size * 2 ^ 52 + (r.pend.map srcUnit).eraseDups.length % 2 ^ 16 * 2 ^ 32
    + r.widx % 2 ^ 16 * 2 ^ 16 + r.ridx % 2 ^ 16

/-- FWMBX (R92). -/
def Firm.mbx (f : Firm) : Nat := b2n f.busy 63 + f.status.toNat * 2 ^ 52 + f.mbaddr.toNat * 2 ^ 12 + b2n f.mbhost 0

/-- CTXCMD (R297): AREA and CTX. -/
def CtxRegs.cmdReg (r : CtxRegs) : Nat := bits r.area.toNat 40 12 * 2 ^ 32 + r.ctx.toNat

/-- CTXST (R297). -/
def CtxRegs.st (r : CtxRegs) : Nat :=
  b2n r.busy 63 + r.status.toNat * 2 ^ 60 + b2n r.aflt 59 + r.need.toNat * 2 ^ 32 + r.alen.toNat * 2 ^ 16

/-- The value that a register of the device space reads as; write-only fields, reserved fields and unassigned offsets read zero
(R10, R83). -/
def State.regRead (s : State) (off : Nat) : Nat :=
  let r := regAt off
  if !s.assigned r then 0
  else
    match r with
    | .devstat => s.devstat
    | .pwrbud => s.pwr.bud
    | .pwrshr n => (s.pwr.shares.getD n 0).toNat
    | .pwrlim c => (Store.get limReset s.pwr.lims c).toNat
    | .mscrub => s.mscrub.toNat
    | .mrep c => (s.chan c).rep
    | .mlane c => (s.chan c).lanes
    | .slnk n => (s.link n).status
    | .sroute => s.coh.sroute.toNat
    | .sdom => s.coh.sdom
    | .smigc => s.coh.smigc
    | .smigs => s.coh.smigs.toNat
    | .smigd => s.coh.smigd.toNat
    | .sqbase n => (s.sq n).sqbase.toNat
    | .sqcfg n => (s.sq n).cfg
    | .sqhead n => (s.sq n).headReg
    | .cqbase n => (s.sq n).cqbase.toNat
    | .cqctl n => (s.sq n).cqctl
    | .win n => winRead (s.win.getD n 0).toNat
    | .errbase => s.err.baseReg
    | .errctl => s.err.ctl
    | .trbase => s.trap.baseReg
    | .trctl => s.trap.ctl
    | .fwmbx => s.fw.mbx
    | .ctxcmd => s.creg.cmdReg
    | .ctxst => s.creg.st
    | .svcpc => s.creg.svcpc.toNat
    | .svctgt => s.creg.svctgt.toNat
    | .sqdb _ | .svcrel | .gap => 0

/-- The value of a read access: 4 or 8 bytes, naturally aligned; none stands for Unsupported Request (R83). -/
def State.busRead (s : State) (off size : Nat) : Option Nat :=
  if (size = 4 ∨ size = 8) ∧ off % size = 0 then some (s.regRead off / 2 ^ (8 * (off % 8)) % 2 ^ (8 * size)) else none

/-! ## REGISTER_WRITE (R83) -/

/-- A ring base register: HOST, SIZE at most 12, BASE (R105). -/
def ringBaseWrite (a : Access) (old : DWord) : DWord :=
  BitVec.ofNat 64 (a.fieldOf old.toNat 63 63 * 2 ^ 63 + min 12 (a.fieldOf old.toNat 55 52) * 2 ^ 52 + a.fieldOf old.toNat 47 12 * 2 ^ 12)

/-- The registers that REGISTER_WRITE changes, after their writers have been checked. -/
def State.plainWrite (s : State) (r : Reg) (a : Access) : State :=
  let f (old hi lo : Nat) : Nat := a.fieldOf old hi lo
  match r with
  | .devstat => if a.clears 25 then { s with fw := { s.fw with deny := false } } else s
  | .pwrshr n =>
    { s with pwr := { s.pwr with shares := modifyAt (fun w => BitVec.ofNat 32 (f w.toNat 31 0)) s.pwr.shares n } }
  | .mscrub =>
    let o := s.mscrub.toNat
    let x := f o 31 31 * 2 ^ 31 + max 1 (f o 27 20) * 2 ^ 20 + max 1 (f o 19 16) * 2 ^ 16 + bits o 15 0
    { s with mscrub := BitVec.ofNat 32 x }
  | .mrep c =>
    let m := s.chan c
    if m.busy then s
    else s.setChan c { m with sub := (f m.rep 40 40) == 1, lane := BitVec.ofNat 5 (f m.rep 34 30), line := BitVec.ofNat 26 (f m.rep 25 0) }
  | .mlane c =>
    let m := s.chan c
    s.setChan c { m with ce := m.ce &&& ~~~(BitVec.ofNat 16 (f 0 15 0)) }
  | .slnk n => s.setLink n { s.link n with replay := (s.link n).replay &&& ~~~(BitVec.ofNat 8 (f 0 7 0)) }
  | .sroute => { s with coh := { s.coh with sroute := BitVec.ofNat 32 (f s.coh.sroute.toNat 31 0 &&& 0xBBBBBBBB) } }
  | .smigc => { s with coh := { s.coh with smigSize := BitVec.ofNat 2 (f s.coh.smigc 25 24) } }
  | .smigs => { s with coh := { s.coh with smigs := BitVec.ofNat 64 (f s.coh.smigs.toNat 40 12 * 4096) } }
  | .smigd => { s with coh := { s.coh with smigd := BitVec.ofNat 64 (f s.coh.smigd.toNat 40 12 * 4096) } }
  | .sqbase n => let q := s.sq n; if q.en then s else s.setSq n { q with sqbase := ringBaseWrite a q.sqbase }
  | .cqbase n => let q := s.sq n; if q.en then s else s.setSq n { q with cqbase := ringBaseWrite a q.cqbase }
  | .win n =>
    let upd (w : DWord) : DWord := BitVec.ofNat 64 (f w.toNat 63 42 * 2 ^ 42 + f w.toNat 40 18 * 2 ^ 18)
    { s with win := modifyAt upd s.win n }
  | .fwmbx =>
    if s.fw.busy then { s with fw := { s.fw with status := 2 } }
    else { s with fw := { s.fw with mbaddr := BitVec.ofNat 36 (f s.fw.mbx 47 12), mbhost := f s.fw.mbx 0 0 == 1 } }
  | .ctxcmd =>
    if s.creg.busy then s
    else { s with creg := { s.creg with area := BitVec.ofNat 64 (f s.creg.cmdReg 60 32 * 4096), ctx := BitVec.ofNat 32 (f s.creg.cmdReg 31 0) } }
  | .ctxst => { s with creg := { s.creg with alen := BitVec.ofNat 16 (f s.creg.st 31 16) } }
  | .svcpc => { s with creg := { s.creg with svcpc := BitVec.ofNat 64 (f s.creg.svcpc.toNat 47 3 * 8) } }
  | .svctgt => { s with creg := { s.creg with svctgt := BitVec.ofNat 64 (f s.creg.svctgt.toNat 47 3 * 8) } }
  | _ => s

/-- REGISTER_WRITE (R83). -/
def execRegisterWrite (s : State) : Out :=
  regOp (Reg.writers (regAt s.bus.off)) s fun s a => s.plainWrite (regAt a.off) a

/-! ## Submission registers (R105 to R107, R113) -/

/-- Another enabled ring holds the context (R106). -/
def State.ctxBound (s : State) (n : Nat) (ctx : Word) : Bool :=
  (List.range 16).any fun m => m != n && (s.sq m).en && (s.sq m).ctx == ctx

/-- SQCFG_WRITE (R106): ASN and CTX change only while EN = 0; an enable is refused for a context already bound. A context that a
command had ended starts anew when a ring takes it up. -/
def execSqcfgWrite (s : State) : Out :=
  regOp Agent.firm s fun s a =>
    let n := a.ring
    let q := s.sq n
    let en := a.fieldOf q.cfg 63 63 == 1
    if q.en then s.setSq n { q with en := en }
    else
      let q := { q with asn := BitVec.ofNat 16 (a.fieldOf q.cfg 47 32), ctx := BitVec.ofNat 32 (a.fieldOf q.cfg 31 0) }
      if !en then s.setSq n q
      else if s.ctxBound n q.ctx then s.setSq n { q with err := 1 }
      else
        let s := s.setSq n { q with en := true, err := 0, faulted := false, head := 0, tail := 0, widx := 0, ridx := 0, phase := true }
        let s := if (s.cx q.ctx).run == .ended then s.setCx q.ctx Ctx.reset else s
        if q.held.isEmpty then s else s.dueRow (.completionRecordWrite n)

/-- SQ_DOORBELL (R107). -/
def execSqDoorbell (s : State) : Out :=
  regOp (fun _ => true) s fun s a =>
    let n := a.ring
    let q := s.sq n
    if a.covers 15 0 then s.setSq n { q with tail := bits a.value 15 0 % ringSize q.sqbase } else s

/-- CQCTL_WRITE (R105, R113). -/
def execCqctlWrite (s : State) : Out :=
  regOp (fun _ => true) s fun s a =>
    let n := a.ring
    let q := s.sq n
    let q := { q with ie := a.fieldOf q.cqctl 62 62 == 1, ridx := a.fieldOf q.cqctl 15 0 }
    let s := s.setSq n q
    if q.held.isEmpty then s else s.dueRow (.completionRecordWrite n)

end Machine
end Sys2Proof
end

