-- ==== Sys2Proof/Machine/Strait.lean ====
section
/-! DEFINITION. Strait links: flits, retry, training, relaying, and the loss of a device (R55 to R59, R61, R76). -/
namespace Sys2Proof.Machine

/-! ## The loss of a device (R76) -/

/-- Every invalidation that a device owed is taken as acknowledged. -/
def State.dropAcks (s : State) (d : Nat) : State :=
  (s.coh.txs.filter fun t => t.acks.toNat.testBit d).foldl (fun s t =>
    s.advanceTx t { t with acks := t.acks &&& ~~~(1#8 <<< d) }) s

/-- The answer that a home transaction awaits from a device: the forward's acknowledgement, or the data that follow it (R70, R71). -/
def HomeTx.owedBy (t : HomeTx) (d : Nat) : Bool := t.owner == some d || (t.data && t.owner.isNone && t.own == d)

/-- Every grain whose forward to a device is outstanding becomes POISON. -/
def State.dropForwards (s : State) (d : Nat) : State :=
  (s.coh.txs.filter fun t => t.owedBy d).foldl (fun s t => s.failTx t) s

/-- A request ends with poison for its requester, and frees what it held. -/
def State.failRequest (s : State) (o : OutReq) : State :=
  let s := { s with coh := { s.coh with outs := s.coh.outs.erase o } }
  if o.mtype = mtWRH then
    let g := s.migSrc + s.coh.migCopied * (s.coh.migSize / 32)
    ({ s with coh := { s.coh with migBad := true } }.migRelease1 g).migRun s.migSteps
  else if o.mtype = mtWB ∨ o.mtype = mtCLN then s
  else { s with coh := { s.coh with answers := s.coh.answers ++ [⟨o.tag, o.grain, none⟩] } }

/-- The requests that wait on a device as home end with an ECC fault. -/
def State.dropRequests (s : State) (d : Nat) : State :=
  (s.coh.outs.filter fun o => homeDev o.grain == d).foldl State.failRequest s

/-- LEAVE and JOIN go on when the last DONE has come (R74, R77). -/
def State.memberStep (s : State) : State :=
  if s.coh.awaiting ≠ 0 then s
  else { s with coh := { s.coh with mst := if s.coh.mst = 1 then 2 else 0 } }

/-- A home answers LEAVE or JOIN, or never will. -/
def State.answered (s : State) (d : Nat) : State :=
  if s.coh.awaiting.toNat.testBit d then
    ({ s with coh := { s.coh with awaiting := s.coh.awaiting &&& ~~~(1#8 <<< d) } }).memberStep
  else s

/-- A device is lost to this one: LOST, PRESENT and the record, of the Strait unit, ENGINE 10, INST 0 (assumption 13), then what waited on
it. -/
def State.loseDevice (s : State) (d : Nat) : State :=
  if d = s.own ∨ ¬ s.isPresent d then s
  else
    let bit8 : Byte := 1#8 <<< d
    let s := { s with coh := { s.coh with lost := s.coh.lost ||| bit8, present := s.coh.present &&& ~~~bit8 } }
    let s := s.report (ErrRec.mk0 0x12 d 10 0 0)
    (((s.dropAcks d).dropForwards d).dropRequests d).answered d

/-- The devices whose route is a link. -/
def State.behind (s : State) (n : Nat) : List Nat := s.peers.filter fun d => s.route d == some n

/-! ## Training (R55, R57) -/

/-- A link is down: the record STR-DOWN, and the devices without another route are lost (R57, R76), with what waited to leave for them. -/
def State.linkDown (s : State) (n : Nat) : State :=
  let s := s.setLink n { s.link n with up := false, width := 0, queues := List.replicate 8 [] }
  let s := s.report (ErrRec.mk0 0x10 (n % 4) 10 n 0)
  (s.behind n).foldl State.loseDevice s

/-- A link retrains: it counts, and the third time within a second it is down (R57). -/
def State.retrainLink (s : State) (n : Nat) : State :=
  let l := s.link n
  let now := s.rtc.toNat
  let times := now :: l.times.filter fun t => decide (now < t + 1000000)
  let l := { l with up := false, bad := 0, times := times, retrain := if l.retrain = 0xFF then l.retrain else l.retrain + 1 }
  let s := s.setLink n l
  if 3 ≤ times.length then s.linkDown n else s

/-- LINK_LANE_FAILURE (R55): the link retrains at the next narrower width; below four lanes it is down. -/
def execLinkLaneFailure (n : Nat) (s : State) : Out :=
  let l := s.link n
  if 4 ≤ n ∨ ¬ l.up then .next s
  else if l.width.toNat ≤ 1 then .next (s.linkDown n)
  else .next ((s.setLink n { l with width := l.width - 1 }).retrainLink n)

/-- LINK_TRAINED (R55): the link carries flits at the width and rate reached, or is down. -/
def execLinkTrained (n : Nat) (width : BitVec 2) (rate : Bool) (peer : BitVec 3) (plink : BitVec 2) (s : State) : Out :=
  if 4 ≤ n then .next s
  else if width = 0 then .next (s.linkDown n)
  else .next (s.setLink n { s.link n with up := true, width := width, rate := rate, peer := peer, plink := plink })

/-! ## Receiving (R56, R57) -/

/-- A replay request goes out for the expected flit; after 8 failures in a row the link retrains. -/
def State.askReplay (s : State) (n : Nat) : State :=
  let l := s.link n
  let s := s.setLink n { l with bad := l.bad + 1 }
  let s := { s with outbox := s.outbox ++ [.replay n l.expect] }
  if 8 ≤ l.bad + 1 then s.retrainLink n else s

/-- The flits up to an acknowledged one leave the replay buffer. -/
def Link.acked (l : Link) (a : Nat) : Link :=
  match l.buf.findIdx? fun e => e.1 == a with
  | some i => { l with buf := l.buf.drop (i + 1) }
  | none => l

/-- Each credit bit returns 8 credits to its channel. -/
def Link.credit (l : Link) (crd : Nat) : Link :=
  { l with credits := (List.range 4).map fun i => l.credits.getD i 0 + (if crd.testBit i then 8 else 0) }

/-- The messages at the front of a stream, and what is left of it. A zero unit of 8 bytes where a message may begin is padding unless
the unit after it is the upper half of a header, whose highest byte is MTYPE and not zero (assumption 13). -/
def splitMessages : Nat → List Byte → List Msg × List Byte
  | 0, bs => ([], bs)
  | f + 1, bs =>
    if bs.length < 16 then ([], bs)
    else if fieldAt bs 0 8 = 0 ∧ fieldAt bs 15 1 = 0 then splitMessages f (bs.drop 8)
    else
      let hdr : BitVec 128 := BitVec.ofNat 128 (fieldAt bs 0 16)
      let n := payload (Msg.op ⟨hdr, []⟩) (bits hdr.toNat 113 112)
      if bs.length < 16 + n then ([], bs)
      else
        let (ms, r) := splitMessages f (bs.drop (16 + n))
        (⟨hdr, sliceBytes bs 16 n⟩ :: ms, r)

/-- A message received is presented here or relayed to its destination (R61); a device outside the domain takes none (R62). -/
def State.arrive (s : State) (m : Msg) : State :=
  if !s.coh.en then s
  else if mDst m = s.own then s.due (.message m)
  else s.send m true

/-- A link owes the credits of the messages that it has received (R56, R58). -/
def Link.owe (l : Link) (ms : List Msg) : Link :=
  ms.foldl (fun l m => { l with owed := modifyAt (· + msgUnits m) l.owed (vcOf m.op) }) l

/-- The payload of a flit joins the stream, its whole messages are delivered, and an idle flit acknowledges it and returns credits
(R56; assumption 13). -/
def State.takePayload (s : State) (n : Nat) (body : List Byte) : State :=
  let bs := (s.link n).stream ++ body
  let (ms, r) := splitMessages (bs.length / 8 + 1) bs
  let l := { s.link n with stream := r }.owe ms
  if l.buf.length < 64 then
    let (f, l) := l.emit 0 []
    ms.foldl State.arrive { s.setLink n l with outbox := s.outbox ++ [.flit n f] }
  else ms.foldl State.arrive (s.setLink n l)

/-- FLIT_RECEIVE (R56, R57): a CRC mismatch or a reserved type asks for a replay; a flit out of sequence is discarded, with a
replay request unless one is outstanding; a replay request is taken whatever its number; idle and link-control flits take sequence numbers
like any other (assumption 13). -/
def execFlitReceive (n : Nat) (flit : List Byte) (s : State) : Out :=
  let l := s.link n
  let h := fieldAt flit 0 4
  let seq := bits h 31 20
  let typ := bits h 7 4
  if 4 ≤ n ∨ ¬ l.up then .next s
  else if (crc32c (sliceBytes flit 0 252)).toNat ≠ fieldAt flit 252 4 ∨ 3 < typ then .next (s.askReplay n)
  else if typ = 2 then .next (s.dueRow (.replayRequest n (BitVec.ofNat 12 (bits h 19 8 + 1))))
  else if seq ≠ l.expect then .next (if l.bad = 0 then s.askReplay n else s)
  else
    let l := { (l.acked (bits h 19 8)).credit (bits h 3 0) with expect := (l.expect + 1) % 4096, bad := 0 }
    let s := s.setLink n l
    .next (if typ = 1 then s.takePayload n (sliceBytes flit 4 248) else s)

/-- REPLAY_REQUEST (R57): the flits from the named one on are sent again, in order, and the replay counts. -/
def execReplayRequest (n : Nat) (seq : BitVec 12) (s : State) : Out :=
  let l := s.link n
  if 4 ≤ n then .next s
  else
    match l.buf.findIdx? fun e => e.1 == seq.toNat with
    | none => .next s
    | some i =>
      let l := { l with buf := l.buf.drop i, replay := if l.replay = 0xFF then l.replay else l.replay + 1 }
      .next { s.setLink n l with outbox := s.outbox ++ [.resend n (l.buf.map (·.2))] }

/-- The devices from which a message awaited by this home is 10 ms late (R76). -/
def State.late (s : State) : List Nat :=
  s.peers.filter fun d => s.coh.txs.any fun t =>
    (t.acks.toNat.testBit d || t.owedBy d) && decide (t.since + 10000 ≤ s.rtc.toNat)

/-- DEVICE_LOSS_TIMEOUT (R76). -/
def execDeviceLossTimeout (dev : BitVec 3) (s : State) : Out :=
  .next (if s.late.contains dev.toNat then s.loseDevice dev.toNat else s)

end Sys2Proof.Machine
end

