-- ==== Sys2Proof/Machine/Coherence.lean ====
section
/-! DEFINITION. Coherence messages received: requests at the home, forwards at an owner, answers, evictions, membership and page
migration (R63 to R80, R196). -/
namespace Sys2Proof.Machine

/-! ## Requests at the home (R64, R68, R70) -/

/-- A record of a message that makes a grain POISON, and the grain. -/
def State.protoPoison (s : State) (m : Msg) (g : Nat) : State :=
  (s.setCoh g 6).report { ErrRec.mk0 0x11 m.op 1 (s.sliceOf (32 * g)) 4 with
    dpa := some (32 * g), info0 := m.hdr.extractLsb' 64 64 }

/-- An answer to a message about a grain: its grain size and TXID are echoed. -/
def State.answer (s : State) (op dst : Nat) (m : Msg) (g : Nat) (data : List Byte) : State :=
  s.sendTo op dst (mSize m) (mTx m) 0 false g data

/-- The tickets of the slice of a grain. -/
def State.tickets (s : State) (g : Nat) : Tickets := Store.get Tickets.reset s.coh.slices (s.sliceOf (32 * g))

def State.setTickets (s : State) (g : Nat) (t : Tickets) : State :=
  { s with coh := { s.coh with slices := Store.put Tickets.reset s.coh.slices (s.sliceOf (32 * g)) t } }

/-- A request is admitted: what the slice noted of its RETRYs and its ticket is forgotten (R64). -/
def State.admitReq (s : State) (m : Msg) : State :=
  let g := mGrain m
  let t := s.tickets g
  s.setTickets g { t with
    given := t.given.filter fun e => !(e.1 == mReq m && e.2.1 == mTx m)
    held := t.held.filter fun e => !(mTicket m != 0 && e.1 == mTicket m && e.2 == mReq m) }

/-- RETRY, which after 16 carries a ticket; a resent ticket is given again (R64). -/
def State.sendRetry (s : State) (m : Msg) : State :=
  let g := mGrain m
  let t := s.tickets g
  let r := mReq m
  let out (s : State) (ticket : Nat) : State :=
    s.send ⟨mHdr mtRETRY s.own r (mGr m) (mTx m) 0 false ticket (mAddr m), []⟩
  if mTicket m ≠ 0 then out s (mTicket m)
  else
    let n := ((t.given.find? fun e => e.1 == r && e.2.1 == mTx m).map (·.2.2)).getD 0
    let given := (r, mTx m, n + 1) :: t.given.filter fun e => !(e.1 == r && e.2.1 == mTx m)
    if 16 ≤ n ∧ t.held.length < 128 then
      let k := t.last % 4095 + 1
      out (s.setTickets g { given := given, last := k, held := t.held ++ [(k, r)] }) k
    else out (s.setTickets g { t with given := given }) 0

/-- The next ticket to be served is that of a device present (R64). -/
def State.nextTicket (s : State) (g : Nat) : Option (Nat × Nat) := (s.tickets g).held.find? fun e => s.isPresent e.2

/-- A request waits in the pending table of its slice: 60 entries, and 4 for tickets in order (R64). -/
def State.pend (s : State) (m : Msg) : State :=
  let g := mGrain m
  let here := s.coh.waiting.filter fun x => x.op != mtLEAVE && s.sliceOf (32 * mGrain x) == s.sliceOf (32 * g)
  let ticketed := mTicket m ≠ 0
  let n := (here.filter fun x => decide (mTicket x ≠ 0) == decide ticketed).length
  let ok := if ticketed then s.nextTicket g == some (mTicket m, mReq m) && decide (n < 4) else decide (n < 60)
  if ok then { s with coh := { s.coh with waiting := s.coh.waiting ++ [m] } }.admitReq m else s.sendRetry m

/-- A request for a released grain of the migrating page passes on to the destination home (R79). -/
def State.passOn (s : State) (m : Msg) (k : Nat) : State :=
  let d := homeDev k
  let src := if d = s.own then mSrc m else s.own
  let m' : Msg := ⟨mHdr m.op src d (mGr m) (mTx m) (mReq m) (m.hdr.getLsbD 96) 0 k, m.data⟩
  let s := if d = s.own then { s with agenda := .message m' :: s.agenda } else s.send m'
  s.wake (mGrain m)

/-- The message about to be handled; a device outside the domain takes none (R62). -/
def onMsg (s : State) (body : State → Msg → State) : Out :=
  let m := s.rx
  if !s.coh.en then .next s
  else if !s.isPresent (mSrc m) && m.op != mtJOIN then .next (s.cohProto m)
  else .next (body s m)

/-- A request at its home: one whose grain is elsewhere is discarded with COH-PROTO (R68); a released one passes on; one that
meets an open transaction, or MIG, waits; else `body` performs it on the grain's state (R64, R70, R79). -/
def homeRequest (s : State) (body : State → Msg → GState → State) : Out :=
  onMsg s fun s m =>
    let g := mGrain m
    if homeDev g ≠ s.own then s.cohProto m
    else if s.outOfRange (32 * g) then
      (s.addrRange 1 (s.sliceOf (32 * g)) (32 * g) none).answer mtPOISONED (mReq m) m (mAddr m) []
    else
      match s.redirected (mAddr m) with
      | some k => s.passOn m k
      | none =>
        if s.txOpen g then s.pend m
        else
          let (x, s) := s.gstate g (mSize m) none
          if x.st = stMIG then s.pend m
          else
            let s := if m.op = mtRDS then s else s.dropServed g
            (body (s.admitReq m) m x).wake g

/-- POISONED to the requester. -/
def State.sendPoisoned (s : State) (m : Msg) : State := s.answer mtPOISONED (mReq m) m (mAddr m) []

/-- A grain of the home's data goes to the requester, or POISONED when it reads uncorrectable; what follows is done only in the
first case. -/
def State.supply (s : State) (op : Nat) (m : Msg) (k : State → State) : State :=
  let g := mGrain m
  match s.grainData g (mSize m) none with
  | (.ok d, s) => k (s.answer op (mReq m) m g d)
  | (.error _, s) => (s.setCoh g 6).sendPoisoned m

/-- The home's L2 holds a copy of a grain. -/
def State.holdsCopy (s : State) (g n : Nat) : Bool := (grainKeys g n).any fun k => (Store.look s.l2 k).isSome

/-- A forward to the owner on behalf of the requester, and the transaction that awaits its acknowledgement and those of `acks`. -/
def State.forward (s : State) (op : Nat) (m : Msg) (x : GState) (acks : Byte) : State :=
  let g := mGrain m
  let n := mSize m
  (s.sendTo op x.own n (mTx m) (mReq m) false g []).pushTx
    ⟨g, n, .remote m, mTx m, acks, some x.own, false, x.own, x.rsh, x.st == stO, 0, false⟩

/-- RDS (R70). -/
def execRds (s : State) : Out :=
  homeRequest s fun s m x =>
    let g := mGrain m
    let r := mReq m
    if x.st = stPOISON then s.sendPoisoned m
    else if x.st = stI then
      let held := s.holdsCopy g (mSize m)
      s.supply (if held then mtDATS else mtDATE) m fun s => s.setCoh g (cohByte (if held then stS else stE) r false)
    else if x.st = stS then
      s.supply mtDATS m fun s => if x.own = r then s else s.setCoh g (cohByte stS x.own true)
    else if x.own = r then (s.protoPoison m g).sendPoisoned m
    else s.forward mtFWDS m x 0

/-- Exclusive ownership is given when nothing is awaited any more, else the transaction stays open (R70). -/
def State.grantWhen (s : State) (m : Msg) (x : GState) (acks : Byte) : State :=
  let g := mGrain m
  if acks = 0 then (s.setCoh g (cohByte stM (mReq m) false)).answer mtDONE (mReq m) m g []
  else s.pushTx ⟨g, mSize m, .remote m, mTx m, acks, none, false, x.own, x.rsh, false, 0, false⟩

/-- RDX (R70). -/
def execRdx (s : State) : Out :=
  homeRequest s fun s m x =>
    let g := mGrain m
    let n := mSize m
    let r := mReq m
    let inv := s.invTargets x r
    let acks := devMask inv
    if x.st = stPOISON then s.sendPoisoned m
    else if x.st = stI ∨ x.st = stS then
      s.supply mtDATM m fun s => ((s.dropOwn g n).sendInvs inv n (mTx m) r g).grantWhen m x acks
    else if x.own = r then
      if x.st = stO then ((s.dropOwn g n).sendInvs inv n (mTx m) r g).grantWhen m x acks
      else (s.protoPoison m g).sendPoisoned m
    else (s.forward mtFWDX m x acks).sendInvs inv n (mTx m) r g

/-- WBACK to the owner. -/
def State.sendWback (s : State) (m : Msg) : State := s.answer mtWBACK (mReq m) m (mAddr m) []

/-- The requester owns the grain. -/
def ownedBy (x : GState) (r : Nat) : Bool := (x.st == stE || x.st == stM || x.st == stO) && x.own == r

/-- WB (R70, R73): the owner's data are written, or poison announced with DIRTY; a stale one is only answered. One that has crossed a FWDS
still finds its sender as OWN of an O grain, and is written (assumption 16). -/
def execWb (s : State) : Out :=
  homeRequest s fun s m x =>
    let g := mGrain m
    let s :=
      if !ownedBy x (mReq m) then s
      else if m.hdr.getLsbD 96 then
        (s.setCoh g 6).report { ErrRec.mk0 2 (subOf (32 * g)) 1 (s.sliceOf (32 * g)) 4 with dpa := some (32 * g) }
      else s.putGrain g (mSize m) m.data (if x.rsh then cohByte stS x.own true else 0)
    s.sendWback m

/-- CLN (R70). -/
def execCln (s : State) : Out :=
  homeRequest s fun s m x =>
    let g := mGrain m
    let s :=
      if !ownedBy x (mReq m) then s
      else if x.st = stO then s.protoPoison m g
      else s.setCoh g 0
    s.sendWback m

/-! ## Atomics and migration writes at the home (R68, R71, R78) -/

/-- The payload of an ATOM is well formed (R68). -/
def atomOk (p : List Byte) : Bool :=
  let op := fieldAt p 16 1
  let ty := fieldAt p 17 1
  let off := fieldAt p 18 1
  let nb := if ty = 2 ∨ ty = 3 then 8 else 4
  decide (op ≤ 8) && decide (ty ≤ 3) && (op != 8 || ty == 0) && off % nb == 0 && decide (off + nb ≤ 32)
    && fieldAt p 19 13 == 0 && (op == 7 || fieldAt p 8 8 == 0)
    && (nb == 8 || (fieldAt p 4 4 == 0 && fieldAt p 12 4 == 0))

/-- The operation of a code of R326, or addition. -/
def atomOpOf (c : Nat) : AtomOp :=
  match c with
  | 1 => .min | 2 => .max | 3 => .and | 4 => .or | 5 => .xor | 6 => .exch | 7 => .cas | _ => .add

/-- The new value that an ATOM's payload asks for (R68, R397, R398). -/
def atomOfPayload (p : List Byte) (old : Nat) : Nat :=
  let op := fieldAt p 16 1
  let ty := fieldAt p 17 1
  let w := if ty = 2 ∨ ty = 3 then 64 else 32
  let b := fieldAt p 0 8 % 2 ^ w
  let c := fieldAt p 8 8 % 2 ^ w
  if op = 8 then faddNew old b else atomNew (atomOpOf op) w (ty % 2 == 1) old b c

/-- On whose behalf a home performs a remote atomic. -/
def homeWho : Who := { hwWho 0 true [1] with anon := true }

/-- The atomic at the home's L2 slice, and its answer (R71). -/
def State.homeAtom (s : State) (m : Msg) : State :=
  let p := m.data
  let nb := if fieldAt p 17 1 = 2 ∨ fieldAt p 17 1 = 3 then 8 else 4
  let a := 32 * mAddr m + fieldAt p 18 1
  let op : Mem Nat := do
    let old := ofBytes (← l2Read homeWho a nb (mSize m) a)
    l2Write homeWho a (mSize m) (toBytes nb (atomOfPayload p old))
    return old
  match op.on s with
  | (.ok old, s) => s.answer mtATOMR (mReq m) m (mAddr m) (toBytes 32 old)
  | (.error _, s) => s.sendPoisoned m

/-- A home write for a request: the remote copies are recalled first, and the request is then taken up again (R71). -/
def State.homeWrite (s : State) (m : Msg) (x : GState) (k : State → State) : State :=
  match s.openWrite (mGrain m) (mSize m) x (.remote m) (mTx m) with
  | (true, s) => k s
  | (false, s) => s

/-- ATOM_MESSAGE (R68, R71): a bad payload performs nothing and is answered POISONED with COH-PROTO. -/
def execAtomMessage (s : State) : Out :=
  homeRequest s fun s m x =>
    if !atomOk m.data then (s.cohProto m).sendPoisoned m
    else if x.st = stPOISON then s.sendPoisoned m
    else s.homeWrite m x fun s => s.homeAtom m

/-- WRH (R78): a home write of the whole grain, or poison for a poisoned source; a POISON grain discards it (R45). -/
def execWrh (s : State) : Out :=
  homeRequest s fun s m x =>
    let g := mGrain m
    let done (s : State) : State := s.answer mtDONE (mReq m) m g []
    if x.st = stPOISON then done (if m.hdr.getLsbD 96 then s else s.discarded (32 * g) none)
    else
      s.homeWrite m x fun s =>
        done (if m.hdr.getLsbD 96 then s.setCoh g 6 else s.putGrain g (mSize m) m.data 0)

/-! ## Members (R74, R77) -/

/-- LEAVE (R74): after every earlier message of the leaver. -/
def execLeave (s : State) : Out :=
  onMsg s fun s m =>
    let d := mSrc m
    if s.busyWith d then { s with coh := { s.coh with waiting := s.coh.waiting ++ [m] } }
    else
      ({ s with coh := { s.coh with present := s.coh.present &&& ~~~(1#8 <<< d) } }).answer mtDONE d m (mAddr m) []

/-- JOIN (R77); a lost device cannot rejoin (R76). -/
def execJoin (s : State) : Out :=
  onMsg s fun s m =>
    let d := mSrc m
    if s.coh.lost.toNat.testBit d then s.cohProto m
    else ({ s with coh := { s.coh with present := s.coh.present ||| (1#8 <<< d) } }).answer mtDONE d m (mAddr m) []

/-! ## Evictions (R70, R72, R74) -/

/-- L2_EVICT (R65, R70): a home sector goes to memory when dirty; a remote grain is given up. -/
def execL2Evict (dpa : Nat) (s : State) : Out :=
  let k := dpa / 32
  match Store.look s.l2 k with
  | none => .next s
  | some e =>
    if e.rst = .home then
      let s := if e.dirty then s.writeSector (homeSec k) e.data e.coh else s
      .next { s with l2 := Store.erase s.l2 k }
    else .next (s.evictRemote (holder k e.gr) e.gr)

/-- L1_DIRTY_TIMEOUT (R196): a sector dirty for 1,024 cycles goes to the home slice. -/
def execL1DirtyTimeout (core sector : Nat) (s : State) : Out :=
  let key := l1Key core sector
  match Store.look s.l1 key with
  | some e =>
    if e.dirty ≠ 0 ∧ e.since + 1024 ≤ s.clk.toNat then
      let w : Who := { hwWho 0 true [key] with anon := true, core := core }
      .next ((flushKey w e.gr key).on s).2
    else .next s
  | none => .next s

/-- The first sectors of the remote grains held, with their sizes. -/
def State.remoteGrains (s : State) : List (Nat × Nat) :=
  ((s.l2.filter fun e => e.2.rst != .home).map fun e => (holder e.1 e.2.gr, e.2.gr)).eraseDups

/-- LEAVE or JOIN to a home, whose DONE is then known by its transaction identifier (R68, R74, R77). -/
def State.memberMsg (s : State) (op d : Nat) : State :=
  let (tx, s) := s.freshTx
  { s with coh := { s.coh with memberTx := (d, tx) :: s.coh.memberTx } }.sendTo op d 32 tx s.own false 0 []

/-- A leaving device gives up its remote grains, and when it has no request left sends LEAVE to every home (R74). -/
def State.leaveOn (s : State) : State :=
  if s.coh.mst ≠ 1 ∨ s.coh.awaiting ≠ 0 then s
  else
    let s := s.remoteGrains.foldl (fun s x => s.evictRemote x.1 x.2) s
    if s.remoteGrains.isEmpty ∧ s.coh.outs.isEmpty then
      let ps := s.peers
      let s := ps.foldl (fun s d => s.memberMsg mtLEAVE d) { s with coh := { s.coh with memberTx := [] } }
      ({ s with coh := { s.coh with awaiting := devMask ps } }).memberStep
    else s

/-- The command field's register: SDOM's writers (R62). -/
def sdomOp (s : State) (body : State → State) : Out := regOp Agent.curatorOnly s fun s _ => body s

/-- SDOM_LEAVE (R74). -/
def execSdomLeave (s : State) : Out :=
  sdomOp s fun s => if s.coh.mst = 0 then ({ s with coh := { s.coh with mst := 1 } }).leaveOn else s

/-- SDOM_JOIN (R77). -/
def execSdomJoin (s : State) : Out :=
  sdomOp s fun s =>
    if s.coh.mst = 2 then
      let ps := s.peers
      let s := ps.foldl (fun s d => s.memberMsg mtJOIN d) { s with coh := { s.coh with memberTx := [] } }
      ({ s with coh := { s.coh with mst := 3, awaiting := devMask ps } }).memberStep
    else s

/-! ## Forwards and invalidations at an owner (R70 to R72) -/

/-- A forward: one for a grain of this home, or not from its home, is discarded with COH-PROTO (R68). -/
def ownerMsg (s : State) (body : State → Msg → State) : Out :=
  onMsg s fun s m =>
    let g := mGrain m
    if homeDev g = s.own ∨ homeDev g ≠ mSrc m then s.cohProto m else body s m

/-- What an owner finds of a grain: its data, whether they are dirty, and whether the write-back buffer holds them (R72). -/
def State.ownerCopy (s : State) (g n : Nat) : Option (List Byte × Bool × Bool) :=
  if s.remoteSt g ≠ .home then
    let dirty := s.remoteSt g = .o || (grainKeys g n).any fun k => ((Store.look s.l2 k).map (·.dirty)).getD false
    some (s.heldData g n, dirty, false)
  else
    match s.coh.outs.find? fun o => o.grain == g && o.live && !o.bad && (o.mtype == mtWB || o.mtype == mtCLN) with
    | some o => some (o.data, o.dirty, true)
    | none => none

/-- The copy after it has been given up, or its entry of the write-back buffer has ended. -/
def State.giveUp (s : State) (g n : Nat) : State :=
  let s := s.forget g n
  { s with coh := { s.coh with outs := s.coh.outs.map fun o => if o.grain = g then { o with live := false } else o } }

/-- The copy after a shared forward: S when clean, O when dirty (R70). -/
def State.shareCopy (s : State) (g n : Nat) (dirty : Bool) : State :=
  { s with l2 := s.l2.map fun (e : Nat × L2Sec) =>
      if g ≤ e.1 ∧ e.1 < g + n / 32 then (e.1, { e.2 with rst := if dirty then .o else .s }) else e }

/-- FWDMISS to the home. -/
def State.sendMiss (s : State) (m : Msg) : State := s.answer mtFWDMISS (mSrc m) m (mGrain m) []

/-- FWDACK to the home. -/
def State.sendFwdack (s : State) (m : Msg) (dirty : Bool) : State :=
  s.sendTo mtFWDACK (mSrc m) (mSize m) (mTx m) 0 dirty (mGrain m) []

/-- FWDS (R70, R72). -/
def execFwds (s : State) : Out :=
  ownerMsg s fun s m =>
    let g := mGrain m
    let n := mSize m
    match s.ownerCopy g n with
    | none => s.sendMiss m
    | some (d, dirty, buffered) =>
      let s := s.answer mtDATS (mReqField m) m g d
      (if buffered then s.giveUp g n else s.shareCopy g n dirty).sendFwdack m dirty

/-- FWDX (R70, R72). -/
def execFwdx (s : State) : Out :=
  ownerMsg s fun s m =>
    let g := mGrain m
    let n := mSize m
    match s.ownerCopy g n with
    | none => s.sendMiss m
    | some (d, dirty, _) => ((s.answer mtDATM (mReqField m) m g d).giveUp g n).sendFwdack m dirty

/-- INV (R72): INVACK, whether or not the device holds the grain. -/
def execInv (s : State) : Out :=
  ownerMsg s fun s m => (s.forget (mGrain m) (mSize m)).answer mtINVACK (mSrc m) m (mGrain m) []

/-- RCL (R71): the owner returns RCLD and drops its copy. -/
def execRcl (s : State) : Out :=
  ownerMsg s fun s m =>
    let g := mGrain m
    match s.ownerCopy g (mSize m) with
    | none => s.sendMiss m
    | some (d, _, _) => (s.giveUp g (mSize m)).answer mtRCLD (mSrc m) m g d

/-! ## Answers at the requester (R64, R68, R70, R79) -/

/-- A message answers a request: by TXID and grain, or a redirected request by TXID and place in the page, when it comes from the home of
the grain that it names or, with data, from an owner of that grain (R68, R79). -/
def OutReq.matches (o : OutReq) (m : Msg) : Bool :=
  o.txid == mTx m && mSize m == o.gsize && (o.grain == mAddr m || o.grain == mGrain m
    || (mAddr m % 128 == o.grain % 128 && (mSrc m == homeDev (mGrain m) || m.op == mtDATS || m.op == mtDATM)))

def State.outFor (s : State) (m : Msg) (types : List Nat) : Option OutReq :=
  s.coh.outs.find? fun o => types.contains o.mtype && o.matches m

def State.dropOut (s : State) (o : OutReq) : State := { s with coh := { s.coh with outs := s.coh.outs.erase o } }

def State.setOut (s : State) (o o' : OutReq) : State :=
  { s with coh := { s.coh with outs := s.coh.outs.map fun x => if x == o then o' else x } }

/-- A grant: the grain enters L2 as the message names it, and a redirected one is noted (R79). -/
def State.install (s : State) (o : OutReq) (g : Nat) (data : List Byte) (r : RSt) (dirty : Bool) : State :=
  let s := s.grant g o.gsize data r
  let s := if dirty then
    { s with l2 := s.l2.map fun (e : Nat × L2Sec) =>
        if g ≤ e.1 ∧ e.1 < g + o.gsize / 32 then (e.1, { e.2 with dirty := true }) else e }
    else s
  if g = o.grain then s
  else { s with coh := { s.coh with moved := (o.grain, g, none) :: s.coh.moved.filter fun e => e.1 != o.grain } }

/-- The grain that a redirected answer names keeps the sector's place within it. -/
def answerGrain (o : OutReq) (m : Msg) : Nat := holder (mAddr m) o.gsize

/-- DATS or DATE completes an RDS; DATS may also answer a home's own read (R70, R71). -/
def dataMsg (s : State) (r : RSt) (own : Bool) : Out :=
  onMsg s fun s m =>
    match s.outFor m [mtRDS] with
    | some o => ((s.dropOut o).install o (answerGrain o m) m.data r false).leaveOn
    | none =>
      match s.coh.txs.find? fun t => own && t.grain == mGrain m && t.txid == mTx m && t.data && t.req == .own false with
      | some t =>
        let s := { s with coh := { s.coh with served := (t.grain, m.data, none) :: s.coh.served.filter fun e => e.1 != t.grain } }
        s.advanceTx t { t with data := false }
      | none => s.cohProto m

/-- DATS (R70, R71). -/
def execDats (s : State) : Out := dataMsg s .s true

/-- DATE (R70). -/
def execDate (s : State) : Out := dataMsg s .e false

/-- An RDX completes when its data and DONE have come; an upgrade of an O copy with DONE alone (R70). -/
def State.tryRdx (s : State) (o : OutReq) : State :=
  match o.gotDone, o.gotData with
  | true, some d => ((s.dropOut o).install o o.into d .m o.dirty).leaveOn
  | true, none =>
    if s.remoteSt o.grain = .o then
      let s := s.dropOut o
      ({ s with l2 := s.l2.map fun (e : Nat × L2Sec) =>
          if o.grain ≤ e.1 ∧ e.1 < o.grain + o.gsize / 32 then (e.1, { e.2 with rst := .m, dirty := true }) else e }).leaveOn
    else s
  | false, _ => s

/-- DATM (R70): the data of an RDX, dirty when an owner supplied them. -/
def execDatm (s : State) : Out :=
  onMsg s fun s m =>
    match s.outFor m [mtRDX] with
    | some o =>
      let g := answerGrain o m
      let o' := { o with gotData := some m.data, into := g, dirty := mSrc m != homeDev g }
      (s.setOut o o').tryRdx o'
    | none => s.cohProto m

/-- DONE (R70, R74, R77, R78): for an RDX, a migration write, or LEAVE and JOIN. -/
def execDone (s : State) : Out :=
  onMsg s fun s m =>
    match s.outFor m [mtRDX] with
    | some o =>
      let o' := { o with gotDone := true }
      (s.setOut o o').tryRdx o'
    | none =>
      match s.outFor m [mtWRH] with
      | some o =>
        let g := s.migSrc + s.coh.migCopied * (s.coh.migSize / 32)
        ((s.dropOut o).migRelease1 g).migRun s.migSteps
      | none =>
        if s.coh.awaiting.toNat.testBit (mSrc m) && s.coh.memberTx.contains (mSrc m, mTx m) && mAddr m == 0 then s.answered (mSrc m)
        else s.cohProto m

/-- ATOMR (R68, R71). -/
def execAtomr (s : State) : Out :=
  onMsg s fun s m =>
    match s.outFor m [mtATOM] with
    | some o =>
      let a : RemoteDone := ⟨o.tag, o.grain, some (BitVec.ofNat 64 (fieldAt m.data 0 8))⟩
      ({ s.dropOut o with coh := { (s.dropOut o).coh with answers := s.coh.answers ++ [a] } }).leaveOn
    | none => s.cohProto m

/-- WBACK (R72): the entry of the write-back buffer is freed. -/
def execWback (s : State) : Out :=
  onMsg s fun s m =>
    match s.outFor m [mtWB, mtCLN] with
    | some o => (s.dropOut o).leaveOn
    | none => s.cohProto m

/-- POISONED (R72, R73): the copy is dropped, the record written, and the requester ends with ECC; for a WRH, the migration engine notes
the poison (R78). -/
def execPoisoned (s : State) : Out :=
  onMsg s fun s m =>
    match s.outFor m [mtRDS, mtRDX, mtATOM, mtWRH] with
    | some o =>
      if o.mtype = mtWRH then s.failRequest o
      else
      let s := ((s.dropOut o).forget (holder o.grain o.gsize) o.gsize).report
        { ErrRec.mk0 2 (subOf (32 * o.grain)) 1 (s.sliceOf (32 * o.grain)) 0 with dpa := some (32 * o.grain) }
      let a : RemoteDone := ⟨o.tag, o.grain, none⟩
      ({ s with coh := { s.coh with answers := s.coh.answers ++ [a] } }).leaveOn
    | none => s.cohProto m

/-- RETRY (R64): the request waits for its delay, with the ticket if one came. -/
def execRetry (s : State) : Out :=
  onMsg s fun s m =>
    match s.coh.outs.find? fun o => o.matches m with
    | some o => s.setOut o { o with retries := o.retries + 1, ticket := mTicket m, waiting := true }
    | none => s.cohProto m

/-- RETRY_BACKOFF_EXPIRY (R64): the request is sent again. -/
def execRetryBackoffExpiry (txid : Nat) (s : State) : Out :=
  match s.coh.outs.find? fun o => o.txid == txid && o.waiting with
  | some o =>
    let s := s.setOut o { o with waiting := false }
    .next (s.send (s.outMsg o))
  | none => .next s

/-! ## Acknowledgements at the home (R70 to R72) -/

/-- The open transaction that a message answers. -/
def State.txFor (s : State) (m : Msg) : Option HomeTx :=
  s.coh.txs.find? fun t => t.grain == mGrain m && t.txid == mTx m

/-- INVACK (R70). -/
def execInvack (s : State) : Out :=
  onMsg s fun s m =>
    match s.txFor m with
    | some t =>
      if t.acks.toNat.testBit (mSrc m) then s.advanceTx t { t with acks := t.acks &&& ~~~(1#8 <<< mSrc m) } else s.cohProto m
    | none => s.cohProto m

/-- FWDACK (R70, R71). -/
def execFwdack (s : State) : Out :=
  onMsg s fun s m =>
    match s.txFor m with
    | some t =>
      if t.owner = some (mSrc m) then s.advanceTx t { t with owner := none, dirty := t.dirty || mDirty m } else s.cohProto m
    | none => s.cohProto m

/-- RCLD (R71): the recalled data become the home's. -/
def execRcld (s : State) : Out :=
  onMsg s fun s m =>
    match s.txFor m with
    | some t =>
      if t.owner = some (mSrc m) ∧ t.data then
        (s.putGrain t.grain t.gsize m.data (cohByte stM t.own false)).advanceTx t { t with owner := none, data := false }
      else s.cohProto m
    | none => s.cohProto m

/-- FWDMISS (R72): a protocol error from a present owner; the grain becomes POISON. -/
def execFwdmiss (s : State) : Out :=
  onMsg s fun s m =>
    match s.txFor m with
    | some t => if t.owner = some (mSrc m) then (s.protoPoison m t.grain).failTx t else s.cohProto m
    | none => s.cohProto m

/-- UNKNOWN_MESSAGE (R68, R69): discarded with COH-PROTO. -/
def execUnknownMessage (s : State) : Out := if s.coh.en then .next (s.cohProto s.rx) else .next s

/-! ## Page migration (R78 to R80) -/

/-- The SIZE field that a write of SMIGC leaves. -/
def Access.migSize (a : Access) (c : Coh) : Nat := a.fieldOf c.smigc 25 24

/-- A start is refused (R80). -/
def State.migRefused (s : State) (size : Nat) : Bool :=
  let a := 4096 * bits s.coh.smigs.toNat 40 12
  let b := 4096 * bits s.coh.smigd.toNat 40 12
  let n := pageBytes size
  s.coh.smigBusy || s.coh.migOn || size == 3 || a % n != 0 || b % n != 0 || a / 2 ^ 38 != s.own || !s.isPresent (b / 2 ^ 38)
    || (decide (a < b + n) && decide (b < a + n))

/-- MIGRATION_START (R78, R80): pages beyond installed memory are refused with a record (R98); the grain size is a free choice, as
the engine is told none (assumption 17). -/
def execMigrationStart (s : State) : Out :=
  regOp Agent.firm s fun s a =>
    let size := Access.migSize a s.coh
    let s := { s with coh := { s.coh with smigSize := BitVec.ofNat 2 size } }
    let refuse (s : State) : State := { s with coh := { s.coh with smigSt := 4 } }
    let src := 4096 * bits s.coh.smigs.toNat 40 12
    let dst := 4096 * bits s.coh.smigd.toNat 40 12
    if s.migRefused size then refuse s
    else if s.outOfRange src then refuse (s.addrRange 1 (s.sliceOf src) src none)
    else if s.outOfRange dst then refuse (s.addrRange 1 (s.sliceOf dst) dst none)
    else
      let n := grainBytes ((Config.freeWord s.freeCtr).toNat % 3)
      let s := { s.draw with coh := { s.coh with
        smigBusy := true, smigSt := 1, migOn := true, migFrom := src / 32, migTo := dst / 32, migPage := pageBytes size
        migSize := n, migRecalled := 0, migCopied := 0, migBad := false } }
      s.migRun s.migSteps

/-- The source page is cleared, in HOME-I (R79). -/
def State.clearSource (s : State) : State :=
  (List.range (s.coh.migPage / 32)).foldl (fun s i =>
    let k := s.migSrc + i
    { s.writeSector (homeSec k) (List.replicate 32 0) 0 with l2 := Store.erase s.l2 k }) s

/-- MIGRATION_RELEASE (R79, R80): ignored unless STATUS is 2 or 5. -/
def execMigrationRelease (s : State) : Out :=
  regOp Agent.firm s fun s a =>
    let s := { s with coh := { s.coh with smigSize := BitVec.ofNat 2 (Access.migSize a s.coh) } }
    if s.coh.smigSt = 2 ∨ s.coh.smigSt = 5 then
      let s := s.clearSource
      { s with coh := { s.coh with smigSt := 3, migOn := false } }
    else s

end Sys2Proof.Machine
end

