-- ==== Sys2Proof/Machine/Host.lean ====
section
/-! DEFINITION. Host accesses through the windows onto device memory (R85, R86). -/
namespace Sys2Proof.Machine

/-! ## Windows (R85) -/

/-- An enabled window: EN, a SIZE of 20 to 36 and a GRAIN other than 3. -/
def winOn (w : Nat) : Bool :=
  w.testBit 63 && decide (20 ≤ bits w 62 58) && decide (bits w 62 58 ≤ 36) && bits w 19 18 != 3

/-- The first BAR4 offset of a window and the one after its last. -/
def winStart (w : Nat) : Nat := bits (winRead w) 57 42 * 2 ^ 20

def winEnd (w : Nat) : Nat := winStart w + 2 ^ bits w 62 58

/-- The enabled windows, the lowest-numbered first; after a failed boot none answers (R88). -/
def State.windows (s : State) : List Nat := if s.bootFailed then [] else (s.win.map (·.toNat)).filter winOn

/-- The window that maps a BAR4 offset; beyond the size of the BAR there is none (R82). -/
def State.winAt (s : State) (o : Nat) : Option Nat :=
  if 2 ^ (30 + s.cfg.bar) ≤ o then none else s.windows.find? fun w => decide (winStart w ≤ o) && decide (o < winEnd w)

/-- The target of an offset under a window. -/
def winTarget (w o : Nat) : Nat := bits (winRead w) 40 20 * 2 ^ 20 + (o - winStart w)

/-- The bytes from an offset to the next bound of a window. -/
def State.winLeft (s : State) (o n : Nat) : Nat :=
  (s.windows.flatMap fun w => [winStart w, winEnd w]).foldl (fun n b => if o < b then min n (b - o) else n) n

/-- A part of a host access: its offset and length, and the window that maps it. -/
structure HostPart where
  off : Nat
  len : Nat
  win : Option Nat
deriving DecidableEq, Repr

/-- An access split at the bounds of windows and at the grains of the window that maps it (R86); fuel bounds the parts. -/
def State.hostParts (s : State) : Nat → Nat → Nat → List HostPart
  | 0, _, _ => []
  | f + 1, o, n =>
    if n = 0 then []
    else
      let w := s.winAt o
      let k := s.winLeft o n
      let k := match w with
        | some x => let g := grainBytes (bits x 19 18); min k (g - winTarget x o % g)
        | none => k
      ⟨o, k, w⟩ :: s.hostParts f (o + k) (n - k)

/-- On whose behalf the host's accesses are made. -/
def hostWho : Who := { hwWho 0 true [11] with anon := true }

/-- The target of a part, when a window maps it to memory that exists; an address that does not is recorded (R36, R60, R85, R98). -/
def hostTarget (p : HostPart) : Mem (Option (Nat × Nat)) := do
  match p.win with
  | none => return none
  | some w =>
    let a := winTarget w p.off
    let s ← get
    if s.refused hostWho a then
      Mem.mod fun s => s.addrRange 11 0 (a % 2 ^ 41) none
      return none
    else return some (a, grainBytes (bits w 19 18))

/-! ## Reads and writes at the home slices (R86) -/

/-- What a read of a part gives: its bytes, poisoned data, or Unsupported Request. -/
inductive HostRead where
  | data (bs : List Byte)
  | poison (n : Nat)
  | unsupported
deriving DecidableEq, Repr

/-- The sectors of a part, which lie within one grain, brought into reach: false when the grain is poisoned (R86). -/
def reachCuts (write : Bool) (gr : Nat) : List (Nat × Nat) → Mem Bool
  | [] => pure true
  | c :: cs => do
    match ← reach hostWho (c.1 / 32) gr write true (write && decide (c.2 = 32)) with
    | .error _ => return false
    | .ok _ => reachCuts write gr cs

/-- Whether a part that has a target can be read now, before any part is: false when it is poisoned. -/
def hostReady (p : HostPart) : Mem Bool := do
  match p.win with
  | none => return true
  | some w =>
    let a := winTarget w p.off
    let s ← get
    if s.refused hostWho a then return true
    else
      reachCuts false (grainBytes (bits w 19 18)) (cuts 32 (p.len / 32 + 2) a p.len)

/-- The bytes of a part that lies within one grain, sector by sector; `ready` is what `hostReady` found. -/
def hostReadPart (p : HostPart) (ready : Bool) : Mem HostRead := do
  match ← hostTarget p with
  | none => return .unsupported
  | some (a, gr) =>
    if !ready then return .poison p.len
    let read : Mem (List Byte) := do
      let ds ← (cuts 32 (p.len / 32 + 2) a p.len).mapM fun c => l2Read hostWho c.1 c.2 gr c.1
      return ds.flatten
    fun s =>
      match read s with
      | (.ok d, s) => (.ok (.data d), s)
      | (.error .wait, s) => (.error .wait, s)
      | (.error (.trap _), s) => (.ok (.poison p.len), s)

/-- Free bytes stand for poisoned data, whose value the spec leaves open. -/
def State.freeBytes (s : State) (n : Nat) : List Byte × State :=
  ((List.range n).map fun i => Config.freeByte (s.freeCtr + i), { s with freeCtr := s.freeCtr + n })

/-- The completion of a read from its parts: Unsupported Request when a part has no target, EP when a part is poisoned (R85, R86). -/
def State.readDone (s : State) (ps : List HostRead) : State :=
  if ps.contains .unsupported then { s with outbox := s.outbox ++ [.unsupported] }
  else
    let (d, s) := ps.foldl (fun (r : List Byte × State) p =>
      match p with
      | .data b => (r.1 ++ b, r.2)
      | .poison n => let (b, s) := r.2.freeBytes n; (r.1 ++ b, s)
      | .unsupported => r) ([], s)
    let ep := ps.any fun p => match p with
      | .poison _ => true
      | _ => false
    { s with outbox := s.outbox ++ [.readCompletion d ep] }

/-- A part of a write: discarded without a target, and where it reaches a POISON grain, with one record of R45 at its home (R85, R86). -/
def hostWritePart (p : HostPart) (bs : List Byte) : Mem Unit := do
  match ← hostTarget p with
  | none => pure ()
  | some (a, gr) =>
    let cs := cuts 32 (bs.length / 32 + 2) a bs.length
    cs.forM fun c =>
      if c.2 = 32 then Mem.mod fun s => s.overwritten (c.1 / 32) gr (2 ^ 32 - 1) (sliceBytes bs (c.1 - a) 32) else pure ()
    if ← reachCuts true gr cs then cs.forM fun c => l2Write hostWho c.1 gr (sliceBytes bs (c.1 - a) c.2)
    else Mem.mod fun s => if homeDev (a / 32) = s.own then s.discarded a none else s

/-- The parts of a write in ascending order, up to the first that waits: the access that remains, if any. -/
def State.hostWrites (s : State) (off : Nat) (data : List Byte) : List HostPart → Option Event × State
  | [] => (none, s)
  | p :: ps =>
    match (hostWritePart p (sliceBytes data (p.off - off) p.len)).on s with
    | (.ok _, s) => State.hostWrites s off data ps
    | (.error _, s) => (some (.row (.hostWindowWrite p.off (data.drop (p.off - off)))), s)

/-- The register writes at the front of the queue have their turn (R86). -/
def State.hostNext (s : State) (q : List Event) : State :=
  let mine (e : Event) : Option Event := match e with
    | .access a => some (.posted a)
    | _ => none
  { s with hostq := q.dropWhile fun e => (mine e).isSome
           agenda := (q.takeWhile fun e => (mine e).isSome).filterMap mine ++ s.agenda }

/-- The access at the head of the queue is performed, as far as it does not wait. -/
def State.hostTry (s : State) : State :=
  match s.hostq with
  | .row (.hostWindowRead o n) :: rest =>
    let ps := s.hostParts (n + 1) o n
    let read : Mem (List HostRead) := do
      let rs ← ps.mapM hostReady
      (ps.zip rs).mapM fun x => hostReadPart x.1 x.2
    match read.on s with
    | (.ok ps, s) => (s.readDone ps).hostNext rest
    | (.error _, s) => s
  | .row (.hostWindowWrite o d) :: rest =>
    match s.hostWrites o d (s.hostParts (d.length + 1) o d.length) with
    | (none, s) => s.hostNext rest
    | (some i, s) => { s with hostq := i :: rest }
  | _ :: rest => s.hostNext rest
  | [] => s

/-- An access joins the queue, and is performed at once when none waits before it; the retry of the head is no new access (R86). -/
def State.hostAccess (s : State) (i : Instr) : State :=
  if s.again then { s with again := false }.hostTry
  else
    let first := s.hostq.isEmpty
    let s := { s with hostq := s.hostq ++ [.row i] }
    if first then s.hostTry else s

/-- HOST_WINDOW_READ (R85, R86). -/
def execHostWindowRead (off len : Nat) (s : State) : Out := .next (s.hostAccess (.hostWindowRead off len))

/-- HOST_WINDOW_WRITE (R85, R86). -/
def execHostWindowWrite (off : Nat) (data : List Byte) (s : State) : Out := .next (s.hostAccess (.hostWindowWrite off data))

end Sys2Proof.Machine
end

