-- ==== Sys2Proof/Machine/Issue.lean ====
section
/-! DEFINITION. The choice of a group by a quadrant, the fetch of its clause, handler entry, the end of a clause, the passing of
time and the watchdog (R144 to R147, R180 to R186, R287 to R289, R316 to R319, R336). -/
namespace Sys2Proof.Machine

/-! ## Clause headers (R316, R336) -/

/-- CLASS of a header. -/
def hClass (h : Nat) : Nat := bits h 63 61

/-- Words of the clause after its header. -/
def hCount (h : Nat) : Nat := bits h 60 57 + 1

/-- The header is valid in the encoding. -/
def hdrValid (e : Enc) (h : Nat) : Bool :=
  hClass h != 7 && bits h 34 0 == 0 &&
    match e with
    | .e3 => true
    | .e2 => hClass h != 3 && !h.testBit 43
    | .e1 => [0, 2, 5, 6].contains (hClass h) && bits h 40 37 == 0

/-- The queues that a header awaits (R180, R336). -/
def hQueues (e : Enc) (h : Nat) : List Nat :=
  match e with
  | .e1 => (List.range 4).filter fun q => h.testBit (41 + q)
  | _ => (List.range 8).filter fun q => h.testBit (37 + q)

/-- The conditions of a header before its clause's first word; stores are performed as they issue (R180). -/
def Group.waitsMet (g : Group) (h : Nat) : Bool :=
  (bits h 56 51 == 63 || decide (g.loads ≤ bits h 56 51)) && (hQueues g.enc h).all fun q => g.async.getD q 0 == 0

/-! ## Fetch (R318, R319) -/

/-- On whose behalf a group's words are fetched. -/
def Group.fetchWho (g : Group) (pc : DWord) : Who :=
  { ctx := g.ctx, priv := g.priv, core := g.core, det := none, pc := pc, tag := [0, g.task, g.block, g.index] }

/-- A code word: the one in memory, or by a free choice the one that the instruction cache still holds (R319). -/
def fetchWord (w : Who) (va : Nat) : Mem DWord := withAcc 3 do
  let l ← translate w .fetch va
  let x := BitVec.ofNat 64 (ofBytes (← l2Read w l.dpa 8 l.gr va))
  let s ← get
  let keep (s : State) : State := s.modCore w.core fun c => { c with icache := Store.insert c.icache (l.dpa / 8) x }
  match Store.look (s.core w.core).icache (l.dpa / 8) with
  | none => Mem.mod keep; return x
  | some y =>
    if y = x then return x
    else
      Mem.mod State.draw
      if Config.freeBool s.freeCtr then return y
      else Mem.mod keep; return x

/-- The words of a clause, and its header; no words when the header is invalid (R182, R318). -/
def fetchClause (w : Who) (e : Enc) (hdr : Nat) : Mem (Nat × Option (List DWord)) := do
  let h := (← fetchWord w hdr).toNat
  if !hdrValid e h then return (h, none)
  let ws ← (List.range (hCount h)).mapM fun i => fetchWord w (hdr + 8 + 8 * i)
  return (h, some ws)

/-! ## The issue address (R185) -/

/-- The lanes that may execute: in handler mode only the handler's (R289). -/
def Group.candidates (g : Group) : List Nat :=
  g.laneIdx.filter fun l => (g.lane l).st == .eligible && (!g.handler || (g.lane l).handler)

/-- A group whose clause ended while it waited stands between clauses (R171). -/
def Group.norm (g : Group) : Group := if g.iss.wait.isNone || g.iss.x == 0 then { g with iss := .none } else g

/-- The issue address A, the executing lanes (every eligible lane at A), and the clause that holds A when one of them stands inside
it. -/
def Group.choose (g : Group) : Option (DWord × BitVec 128 × Option (DWord × Nat)) :=
  let e := g.candidates
  let ny := e.filter fun l => !(g.lane l).yld
  let old := ((minBy id (e.map fun l => (g.lane l).stamp))).getD 0
  let from_ := if ny.isEmpty then e.filter fun l => (g.lane l).stamp == old else ny
  (minBy (fun l => (g.lane l).lpc.toNat) from_).map fun l =>
    let a := (g.lane l).lpc
    let x := e.filter fun i => (g.lane i).lpc == a
    (a, laneSet g.width fun i => x.contains i, (x.find? fun i => (g.lane i).inside.isSome).bind fun i => (g.lane i).inside)

/-- The group stands within a clause that it has begun and goes on with: a memory transaction keeps it there. A group of a DET launch,
which may wait for lower blocks (R310), is taken as one that does not (assumption 64). -/
def Group.midClause (g : Group) : Bool := g.iss.on && g.iss.wait == some .retry && !g.det

/-! ## Readiness and rank (R144, R147) -/

/-- A ring acquire of the group may go on: it is first at its head and the slot is there, or the other stage has gone (R141, R143). -/
def State.ringReady (s : State) (g : Group) : Bool :=
  match s.findBlock g.task g.block with
  | none => true
  | some b =>
    (List.range 8).any fun i =>
      let r := b.ring i
      let try_ (prod : Bool) : Bool :=
        (r.acquire i prod g.index (s.stageGone g.task g.block (if prod then r.cons else r.prod))).isSome
      (r.pwait.contains g.index && try_ true) || (r.cwait.contains g.index && try_ false)

/-- The instruction at which a group waits may go on. -/
def State.waitOver (s : State) (g : Group) (w : Wait) : Bool :=
  match w with
  | .waitd n => (s.counter n).value == 0
  | .ring => s.ringReady g
  | .regacq => !((s.core g.core).regq.any fun q => g.is q.2.1 q.2.2.1 q.2.2.2.1)
  | _ => true

/-- The local limiter leaves out the cycle on a core: with the vector duty below 8 of 8, a free choice (R33, R144; assumption 8). -/
def State.limited (s : State) (core : Nat) : Bool :=
  decide (bits (Store.get limReset s.pwr.lims core).toNat 7 0 < 8) && Config.limiterHolds s.tick core

/-- A group is ready (R144): its context runs, or is being stopped while the group's clause must end (R294); the limiter does not hold
it; in a clause its wait is over; between clauses it has an eligible lane and its header's conditions are met, or its fetch faults or
waits. -/
def State.groupReady (s : State) (g : Group) : Bool :=
  let g := g.norm
  if g.stopped || !(s.ctxRuns g.ctx || (g.midClause && (s.cx g.ctx).run == .stopping)) || (!g.midClause && s.limited g.core) then false
  else
    match g.iss.wait with
    | some w => s.waitOver g w
    | none =>
      match g.choose with
      | none => false
      | some (a, _, ins) =>
        let hdr := ((ins.map (·.1)).getD a).toNat
        match ((fetchWord (g.fetchWho a) hdr).on s).1 with
        | .error _ => true
        | .ok h => !hdrValid g.enc h.toNat || g.waitsMet h.toNat

/-- The groups resident on a quadrant that do not issue now. -/
def State.onQuad (s : State) (core quad : Nat) : List Group := s.groups.filter fun g => g.core == core && g.quad == quad

/-- The stage of a group has work on its input and room on its output (R144). -/
def State.flowing (s : State) (g : Group) : Bool :=
  match s.task g.task, s.findBlock g.task g.block with
  | some t, some b =>
    if t.nstage = 0 then true
    else
      let st := t.stageOf g.index
      let rings := b.rings.filter fun r => r.depth != 0
      let ins := rings.filter fun r => r.cons == st
      let outs := rings.filter fun r => r.prod == st
      (ins.isEmpty || ins.any fun r => r.slot r.chead == .full) && outs.all fun r => r.slot r.phead == .free
  | _, _ => true

/-- The logical index of a group (R147). -/
def Group.logical (g : Group) : Nat := 64 * g.block + g.index

/-- The DET launches with groups on a core. -/
def State.detTasks (s : State) (core : Nat) : List Nat := ((s.groups.filter fun g => g.core == core && g.det).map (·.task)).eraseDups

/-- The group of a DET launch that a core runs next: its running group, also while that is not ready, until it gives up its turn; then
the ready group of lowest logical index, a group that is passed over only when no other is ready (R147). -/
def State.detPick (s : State) (core task : Nat) : Option Group :=
  let mine := s.groups.filter fun g => g.core == core && g.task == task && g.det
  let ready := mine.filter s.groupReady
  let fresh := ready.filter fun g => !g.passed
  match mine.find? fun g => !g.passed && (s.core core).detRun.contains (g.task, g.block, g.index) with
  | some g => if s.groupReady g then some g else none
  | none => (minBy Group.logical fresh).or (minBy Group.logical ready)

/-- The ready groups of a quadrant, a DET launch standing for one of them; a group within a clause is the only one, since its whole
clause issues before the quadrant chooses again (R144, R147). -/
def State.readyOn (s : State) (core quad : Nat) : List Group :=
  let mid := (s.onQuad core quad).filter Group.midClause
  if !mid.isEmpty then mid
  else ((s.onQuad core quad).filter fun g => !g.det && s.groupReady g)
    ++ ((s.detTasks core).filterMap (s.detPick core)).filter fun g => g.quad == quad

/-- A group has been ready for 1,024 cycles without issuing (R144). -/
def State.promoted (s : State) (g : Group) : Bool :=
  !g.det && match g.ready with
    | some c => decide (c + 1024 ≤ s.clk.toNat)
    | none => false

/-- The group that a quadrant chooses: promoted ones oldest first, then flowing, then blocked ones in turn (R144). -/
def State.chosen (s : State) (core quad : Nat) : Option Group :=
  let c := s.readyOn core quad
  let last := (s.core core).rr.getD quad 15
  let turn (g : Group) : Nat := (g.slot % 16 + 15 - last) % 16
  (minBy (fun (g : Group) => g.ready.getD 0) (c.filter s.promoted)).or
    ((minBy turn (c.filter fun g => g.det || s.flowing g)).or (minBy turn c))

/-- Readiness is judged, at every passing of time: a group that is ready keeps the cycle since which it has been (R144). -/
def State.judge (s : State) : State :=
  { s with groups := s.groups.map fun g => { g with ready := if s.groupReady g then some (g.ready.getD s.clk.toNat) else none } }

/-! ## Handler entry and stops (R287 to R289) -/

/-- The group enters its handler now: a lane is trapped and none is eligible. -/
def State.entersHandler (s : State) (g : Group) : Bool :=
  let g := g.norm
  s.ctxRuns g.ctx && !g.stopped && !g.handler && g.anyTrapped && g.candidates.isEmpty && g.iss.wait.isNone

/-- The cause that a trapped lane reports. -/
def Lane.cause (a : Lane) : Cause :=
  { code := bits a.tcause.toNat 7 0, sub := bits a.tcause.toNat 15 8, addr := a.taddr, acc := bits a.tcause.toNat 21 20
    lvl := bits a.tcause.toNat 18 17, dis := a.tcause.getLsbD 19 }

/-- The entry of a stopped group: the cause of its lowest trapped lane, and all its trapped lanes (R288, R292). -/
def State.stopEntry (s : State) (g : Group) : TrapEntry :=
  let l := lowest g.trappedSet
  groupEntry s g (g.lane l).cause (g.lane l).tpc g.trappedSet false

/-- A group enters its handler, or without one stops (R288, R289). -/
def State.enterOrStop (s : State) (g : Group) : State :=
  let tb := (s.cx g.ctx).tbase.toNat
  if tb.testBit 0 then
    s.mapGroup g.task g.block g.index fun g => g.norm.enterHandler (BitVec.ofNat 64 (bits tb 47 6 * 64))
  else
    (s.mapGroup g.task g.block g.index fun g => { g.norm with stopped := true }).trapDue
      (.group g.task g.block g.index) (s.stopEntry g)

/-- Every group of a quadrant that has come to it enters its handler. -/
def State.enterHandlers (s : State) (core quad : Nat) : State :=
  ((s.onQuad core quad).filter s.entersHandler).foldl State.enterOrStop s

/-! ## Clauses (R180, R182, R185, R318) -/

/-- The group in issue goes back to its quadrant, between clauses. -/
def State.checkIn (s : State) : State :=
  if s.issuing then { s with groups := s.groups ++ [{ s.g with iss := .none }], g := .idle } else s

/-- The header word at an address, when it can be fetched and is valid (R182, R316). -/
def State.headerAt (s : State) (g : Group) (h : DWord) : Option Nat :=
  match ((fetchWord (g.fetchWho h) h.toNat).on s).1 with
  | .error _ => none
  | .ok w => if hdrValid g.enc w.toNat then some w.toNat else none

/-- The clauses followed one after another from a header at h: none when they do not come to the address a; else whether a is a
header, or the clause inside which it stands (R180). -/
def State.clauseOf (s : State) (g : Group) (a : DWord) : Nat → DWord → Option (Option (DWord × Nat))
  | 0, _ => none
  | fuel + 1, h =>
    if a = h then some none
    else if a < h then none
    else
      match s.headerAt g h with
      | none => none
      | some w =>
        if (a - h).toNat ≤ 8 * hCount w then some (some (h, hCount w))
        else s.clauseOf g a fuel (h + BitVec.ofNat 64 (8 * (hCount w + 1)))

/-- The clauses that may hold an address: a valid header's word lies up to 16 words before it, and its count of words takes the
address in (R180). -/
def State.holders (s : State) (g : Group) (a : DWord) : List (DWord × Nat) :=
  (List.range 16).filterMap fun i =>
    let h := a - BitVec.ofNat 64 (8 * (i + 1))
    if a.toNat < 8 * (i + 1) then none
    else (s.headerAt g h).bind fun w => if i + 1 ≤ hCount w then some (h, hCount w) else none

/-- A lane that TRET sends to an address outside the clause of its trap resumes there (R290): at a clause header when the clauses of
the launch's code, followed from its first, come to the address as one, and inside the clause that they show to hold it. Where they
do not come to it, a word that is a valid header is taken as one (R182), and another as a word of a clause that may hold it, by a
free choice (assumption 66). -/
def State.resumeLane (s : State) (l : Nat) : State :=
  let a := (s.g.lane l).lpc
  let inClause (c : DWord × Nat) (s : State) : State := { s with g := s.g.modLane l fun x => { x with inside := some c } }
  match (s.task s.g.task).bind fun t => s.clauseOf s.g a (bits (t.h 5) 63 32 / 8 + 1) (BitVec.ofNat 64 (t.khdr + bits (t.h 5) 31 0)) with
  | some none => s
  | some (some c) => inClause c s
  | none =>
    if (s.headerAt s.g a).isSome then s
    else
      let hs := s.holders s.g a
      match hs[(Config.freeWord s.freeCtr).toNat % max 1 hs.length]? with
      | some c => inClause c s.draw
      | none => s

/-- The lanes that return from their traps to an address that is neither in the clause of the trap nor the header that follows it. -/
def Group.returnsElsewhere (g : Group) : List Nat :=
  g.laneIdx.filter fun l =>
    let a := g.lane l
    a.marked && a.st == .eligible && a.tret.inside.isNone && a.tpc != a.tclause.1
      && a.tpc != a.tclause.1 + BitVec.ofNat 64 (8 * (a.tclause.2 + 1))

/-- The end of a clause: TRET takes effect, and the group stands between clauses (R290, R436). -/
def State.endClause (s : State) : State :=
  ((s.g.returnsElsewhere.foldl State.resumeLane s.finishTret).settle).checkIn

/-- The clause of the group that has been taken up begins: its lanes are chosen and its words fetched; at a SYS clause they are held
while a lane of the group is trapped (R287). -/
def State.beginClause (s : State) : State :=
  let g := s.g
  match g.choose with
  | none => s.endClause
  | some (a, x, ins) =>
    let hdr := (ins.map (·.1)).getD a
    let i : Issue := { Issue.none with on := true, hdr := hdr, pc := hdr, x := x }
    match (fetchClause (g.fetchWho hdr) g.enc hdr.toNat).on s with
    | (.error .wait, s) => s.endClause
    | (r, s) =>
      let g := { g.modLanes x fun _ l => { l with yld := false } with iss := i }
      let s := { s with g := g }
      match r with
      | .error (.trap c) => (s.raiseAll 1 x c).endClause
      | .error .wait => s.endClause
      | .ok (_, none) => (s.raiseAll 1 x (.mk0 cILLEGAL)).endClause
      | .ok (h, some ws) =>
        let pc := if ins.isSome then a else hdr + 8
        if ws.length * 8 ≤ (pc - hdr).toNat - 8 then
          { s with g := g.modLanes x fun _ l => { l with inside := none } }.endClause
        else if hClass h == 6 && g.anyTrapped && !g.handler then
          { s with g := g.modLanes x fun _ l => { l with st := .held } }.endClause
        else { s with g := { g with iss := { i with pc := pc, words := ws, cls := hClass h } } }

/-- A group is taken up: it leaves the waiting groups and is the one in issue. -/
def State.takeUp (s : State) (core quad : Nat) (g : Group) : State :=
  let rest := s.groups.filter fun x => !x.is g.task g.block g.index
  let rest := rest.map fun x => if g.det && x.core == core && x.task == g.task then { x with passed := false } else x
  let g := { g.norm with ready := none, passed := false }
  let s := { s with groups := rest, g := { g with iss := { g.iss with on := true } } }
  let s := s.modCore core fun c =>
    { c with rr := modifyAt (fun _ => g.slot % 16) c.rr quad
             detRun := if g.det then (g.task, g.block, g.index) :: c.detRun.filter (fun r => r.1 != g.task) else c.detRun }
  s.countCore core 2 1

/-- CLAUSE_ISSUE (R144): groups enter their handlers, a ready group is chosen, and its clause begins or goes on. -/
def execClauseIssue (core quad : Nat) (s : State) : Out :=
  if s.issuing then .next s
  else
    let s := s.settle.enterHandlers core quad
    match s.chosen core quad with
    | none => .next s
    | some g =>
      let t := s.takeUp core quad g
      if t.g.iss.wait.isSome then .next t else .next t.beginClause

/-- Something may issue on a quadrant. -/
def State.issueDue (s : State) (core quad : Nat) : Bool :=
  (s.onQuad core quad).any fun g => s.entersHandler g || s.groupReady g || g.nested

/-! ## The word in issue -/

/-- A store or an atomic, which clears the watchdog when it retires; a spill clears it where it is made (R146, R190). -/
def isStore : Instr → Bool
  | .st .. | .sts .. | .movq .. | .atom .. | .atomFadd .. | .atoms .. | .atomsFadd .. | .bestupd .. => true
  | _ => false

/-- An instruction at which lanes park on a wait of R133, or in a service park (R302). -/
def parks : Instr → Bool
  | .jwait .. | .bar .. | .abar .. | .waitf .. | .trapSvc .. => true
  | _ => false

/-- A wait of R133. -/
def Wait.counts : Wait → Bool
  | .waitd _ | .ring | .regacq => true
  | _ => false

/-- The watchdog of a core clears. -/
def State.pat (s : State) (core : Nat) : State := s.modCore core fun c => { c with watch := 0 }

/-- A lane of a set has completed the word: it is eligible, or STEP has stopped it after the word (R304). -/
def Group.completed (g : Group) (x : BitVec 128) : Bool :=
  (lanesIn x g.width).any fun l => (g.lane l).st == .eligible
    || ((g.lane l).st == .trapped && bits (g.lane l).tcause.toNat 7 0 == cSTEP)

/-- A group of a DET launch gives up its turn: it waits at a clause-ending wait, or none of its lanes can go on (R147). -/
def State.turnEnds (s : State) : Bool :=
  s.g.det && ((match s.g.iss.wait with
    | none | some .retry | some .engine => false
    | _ => true) || (s.g.iss.wait.isNone && s.g.candidates.isEmpty && !s.g.anyTrapped))

/-- The turn of the group in issue, if it has it, is over. -/
def State.endTurn (s : State) : State :=
  if s.issuing && s.turnEnds then
    s.modCore s.g.core fun c => { c with detRun := c.detRun.filter fun r => !s.g.is r.1 r.2.1 r.2.2 }
  else s

/-- The watchdog and a DET turn after a word of a group on a core, x being the lanes that the word was to act on (R146, R147). -/
def State.afterWord (s : State) (core : Nat) (i : Instr) (x : BitVec 128) : State :=
  let waits := s.issuing && (s.g.iss.wait.map Wait.counts).getD false
  let stored := isStore i && s.issuing && s.g.completed x && s.g.iss.wait.isNone
  let parked := parks i && (!s.issuing || s.g.lanes.any fun a => match a.st with
    | .joinPark _ | .barPark _ | .abarPark _ | .futPark .. | .service => true
    | _ => false)
  (if waits || stored || parked then s.pat core else s).endTurn

/-- The lanes of the clause in issue that act at the word: their guard is true (R185). -/
def State.acts (s : State) (i : Instr) : BitVec 128 :=
  match i.raw with
  | some (r, _) => s.g.active r.hdr
  | none => 0

/-- A group that must wait within its clause goes back to its quadrant; in a DET launch whose lower blocks have not committed, one
that waits on memory is passed over for one choice (R147, R310). -/
def State.parkWaiting (s : State) : State :=
  if s.issuing && s.g.iss.wait.isSome then
    let low := decide (((s.task s.g.task).map (·.commits)).getD 0 < s.g.block)
    let g := if s.g.det && s.g.iss.wait == some .retry && low then { s.g with passed := true } else s.g
    { s with groups := s.groups ++ [g], g := .idle }
  else s

/-- Words that the group in issue has left to execute. -/
def State.inClause (s : State) : Bool := s.g.iss.x != 0 && !s.g.iss.rest.isEmpty

/-! ## Time and the watchdog (R146, R315) -/

/-- All the eligible lanes of a group have yielded, and it has one (R146). -/
def Group.spins (g : Group) : Bool := !g.candidates.isEmpty && g.candidates.all fun l => (g.lane l).yld

/-- The watchdog of a core after n cycles: it counts while every resident group spins, and is zero without a group; at 2^20 its entry
is due (R146). -/
def State.watchCore (s : State) (n core : Nat) : State :=
  let gs := s.allGroups.filter fun g => g.core == core
  if gs.isEmpty then (if (s.core core).watch = 0 then s else s.pat core)
  else if gs.all Group.spins then
    let w := (s.core core).watch
    let s := s.modCore core fun c => { c with watch := c.watch + n }
    if w < 2 ^ 20 ∧ 2 ^ 20 ≤ w + n then s.dueRow (.watchdogExpiry core) else s
  else s

/-- Lanes of a core that wait on watermarks. -/
def State.accLanes (s : State) (core : Nat) : Nat :=
  ((s.allGroups.filter fun g => g.core == core).flatMap fun g => g.lanes.filter fun a => match a.st with
    | .accPark .. => true
    | _ => false).length

/-- Groups of a core that wait on a ring. -/
def State.ringGroups (s : State) (core : Nat) : Nat :=
  (s.allGroups.filter fun g => g.core == core && g.iss.wait == some .ring).length

/-- The counters of a core over n cycles (R315): cycles, lane-cycles on watermarks, group-cycles on rings, and the events of timing,
whose numbers are free (assumption 8). -/
def State.countTime (s : State) (n core : Nat) : State :=
  let s := ((s.countCore core 1 n).countCore core 6 (n * s.accLanes core)).countCore core 7 (n * s.ringGroups core)
  [4, 5, 9].foldl (fun s src => s.countCore core src (Config.timingEvents s.tick core src)) s

/-- Time passes: cycles and microseconds that the spec does not give (assumption 8). -/
def State.advance (s : State) : State :=
  let n := Config.elapsedCycles s.tick
  let s := { s with clk := s.clk + BitVec.ofNat 64 n, rtc := s.rtc + BitVec.ofNat 64 (Config.elapsedMicros s.tick)
                    tick := s.tick + 1 }
  let held := (s.cores.map fun (e : Nat × Core) => e.1) ++ s.allGroups.map fun g => g.core
  (held.eraseDups.foldl (fun s c => (s.countTime n c).watchCore n c) (s.countDev 19 (Config.timingEvents s.tick 0 19))).judge

/-- The watchdog's entries: one for each context with a resident group, with the count of the core's groups (R146, R292). -/
def State.watchEntries (s : State) (core : Nat) : State :=
  let gs := s.allGroups.filter fun g => g.core == core
  let cs := (gs.map fun g => g.ctx).eraseDups
  cs.foldl (fun s c => s.trapDue (.watchdog core) (s.engineEntry cWATCH 0 4 core gs.length c 0 0 0 0)) s

/-- WATCHDOG_EXPIRY (R146). -/
def execWatchdogExpiry (core : Nat) (s : State) : Out :=
  if 2 ^ 20 ≤ (s.core core).watch then .next ((s.watchEntries core).pat core) else .next s

end Sys2Proof.Machine
end

