-- ==== Sys2Proof/Machine/Rings.lean ====
section
/-! DEFINITION. The error ring and the trap ring (R95 to R98, R291 to R293). -/
namespace Sys2Proof.Machine

/-! ## The error ring (R95 to R97) -/

/-- Words 0 to 6 of an error record, P being 0 (R95). -/
def ErrRec.words (r : ErrRec) (seq dev : Nat) : List Nat :=
  [seq % 2 ^ 32 * 2 ^ 32 + r.cause % 256 * 2 ^ 24 + r.engine % 16 * 2 ^ 20 + r.inst % 256 * 2 ^ 12 + r.repair % 16 * 2 ^ 8
      + dev % 8 * 2 ^ 5 + b2n r.va.isSome 4 + b2n r.dpa.isSome 3 + b2n r.ctx.isSome 2,
   (r.va.getD (0, 0)).1 % 2 ^ 16 * 2 ^ 48 + r.dpa.getD 0 % 2 ^ 41,
   r.sub % 2 ^ 16 * 2 ^ 48 + (r.va.getD (0, 0)).2 % 2 ^ 48,
   min r.count 0xFFFFFFFF * 2 ^ 32 + (r.ctx.getD 0xFFFFFFFF).toNat,
   r.time.toNat, r.info0.toNat, r.info1.toNat]

/-- The 64 bytes of seven words with the CRC over bytes 0 to 59, P being set after it (R95, R292). -/
def sealed (ws : List Nat) (p : Bool) : List Byte :=
  let body := ws.flatMap (toBytes 8)
  let crc := (crc32c (body ++ [0, 0, 0, 0])).toNat
  toBytes 8 (ws.headD 0 + b2n p 0) ++ body.drop 8 ++ toBytes 8 crc

/-- Slots of an error or trap ring (R96, R291). -/
def slots64 (size : Nat) : Nat := 2 ^ (size + 6)

def ErrRing.full (r : ErrRing) : Bool := (r.widx + 1) % slots64 r.size == r.ridx % slots64 r.size

/-- A record is due to be written. -/
def State.errorDue (s : State) : Bool := s.err.en && !s.err.full && !s.err.queue.isEmpty

/-- A 64-byte entry is written: words 1 to 7, then word 0. -/
def writeEntry (w : Who) (host : Bool) (a : Nat) (bs : List Byte) : Mem Unit := do
  ringWrite w host (a + 8) (sliceBytes bs 8 56)
  ringWrite w host a (sliceBytes bs 0 8)

/-- The record has been written: WIDX and SEQ advance, and P inverts at the wrap (R97). -/
def State.errorWritten (s : State) : State :=
  let r := s.err
  let w := (r.widx + 1) % slots64 r.size
  let s := { s with err := { r with queue := r.queue.tail, widx := w, phase := r.phase ^^ (w == 0), seq := (r.seq + 1) % 2 ^ 32 } }
  if r.ie then s.msix 0 else s

/-- ERROR_RECORD_WRITE (R97): a faulting write clears EN, sets OVF and keeps the record. -/
def execErrorRecordWrite (s : State) : Out :=
  if s.errorDue then
    match s.err.queue with
    | [] => .next s
    | r :: _ =>
      let bs := sealed (r.words s.err.seq s.own) s.err.phase
      match (writeEntry (ringWho 17) s.err.host (s.err.base.toNat + 64 * s.err.widx) bs).on s with
      | (.ok _, s) => .next s.errorWritten
      | (.error .wait, s) => .next s
      | (.error (.trap _), s) => .next { s with err := { s.err with en := false, ovf := true } }
  else .next s

/-- The writer may go on (R97). -/
def State.errorKick (s : State) : State := if s.err.queue.isEmpty then s else s.dueRow .errorRecordWrite

/-- ERRCTL_WRITE (R96, R97): the host changes RIDX, IE and OVF only; a change of SIZE resets both indices. -/
def execErrctlWrite (s : State) : Out :=
  regOp (fun _ => true) s fun s a =>
    let r := s.err
    let c := s.err.ctl
    let r := { r with ie := a.fieldOf c 62 62 == 1, ovf := r.ovf && !a.clears 61, ridx := a.fieldOf c 15 0 }
    let r :=
      if a.who.firm then
        let size := min 10 (a.fieldOf c 55 52)
        let r := { r with en := a.fieldOf c 63 63 == 1 }
        if size = r.size then r else { r with size := size, widx := 0, ridx := 0, phase := true }
      else r
    { s with err := r }.errorKick

/-- ERRBASE_WRITE (R97). -/
def execErrbaseWrite (s : State) : Out :=
  regOp Agent.firm s fun s a =>
    let r := s.err
    { s with err := { r with
        host := a.fieldOf r.baseReg 63 63 == 1, base := BitVec.ofNat 64 (a.fieldOf r.baseReg 47 12 * 4096)
        widx := 0, ridx := 0, phase := true } }

/-! ## The trap ring (R291 to R293) -/

/-- Words 0 to 6 of a trap-ring entry, P being 0 (R292). -/
def TrapEntry.words (e : TrapEntry) (seq : Nat) : List Nat :=
  [seq % 2 ^ 32 * 2 ^ 32 + e.cause % 256 * 2 ^ 24 + e.sub % 256 * 2 ^ 16 + e.src % 16 * 2 ^ 12 + b2n e.nest 11 + e.slot % 64 * 2 ^ 5,
   e.ctx.toNat * 2 ^ 32 + e.core % 32 * 2 ^ 27 + e.info % 2 ^ 24,
   e.asn % 2 ^ 16 * 2 ^ 48 + e.pc.toNat % 2 ^ 48,
   e.addr.toNat % 2 ^ 48,
   e.mask.toNat % 2 ^ 64, e.mask.toNat / 2 ^ 64, e.detail.toNat]

def TrapRing.full (r : TrapRing) : Bool := (r.widx + 1) % slots64 r.size == r.ridx % slots64 r.size

/-- The source reports an event, not a condition that lasts (R293). -/
def TrapSrc.isEvent : TrapSrc → Bool
  | .watchdog _ | .post _ | .cancelLog .. | .digest _ => true
  | _ => false

/-- The source holds a pending bit. -/
def TrapRing.pending (r : TrapRing) (src : TrapSrc) : Bool := r.pend.any fun p => p.1 == src

/-- The entry of a source as its condition stands: none when the condition has ended (R293). -/
def State.rebuild (s : State) (x : TrapSrc × TrapEntry) : Option TrapEntry :=
  match x.1 with
  | .group t b gi => ((s.findGroup t b gi).filter (·.stopped)).map s.stopEntry
  | .service t b gi pc =>
    (s.findGroup t b gi).bind fun g =>
      let m := laneSet g.width fun l => (g.lane l).st == .service && (g.lane l).lpc == pc
      if m = 0 then none else some { x.2 with mask := m, slot := g.slot, core := g.core }
  | .copy core ch t b =>
    ((((s.core core).chan ch).find? fun c => c.task == t && c.block == b && c.stop.isSome)).map (s.copyEntry core ch)
  | .drain core _ _ f =>
    ((s.core core).aside.find? fun d => d.op.frame == f && d.stop.isSome).bind fun d => d.stop.map (s.drainEntry core d)
  | _ => some x.2

/-- An entry finds the ring full or disabled: OVF and the source's pending bit are set (R293). -/
def State.trapHold (s : State) (x : TrapSrc × TrapEntry) : State :=
  let s := { s with trap := { s.trap with ovf := true, pend := s.trap.pend ++ [x] } }
  if s.trap.en then s.countDev 21 1 else s

/-- The entry has been written. -/
def State.trapWritten (s : State) : State :=
  let r := s.trap
  let w := (r.widx + 1) % slots64 r.size
  let s := { s with trap := { r with widx := w, phase := r.phase ^^ (w == 0), seq := (r.seq + 1) % 2 ^ 32 } }
  let s := s.countDev 20 1
  if r.ie then s.msix 18 else s

/-- The address of the entry that the trap ring writes next. -/
def TrapRing.slotAt (r : TrapRing) : Nat := r.base.toNat + 64 * r.widx

/-- A faulting write clears EN, sets OVF and leaves the source pending; the record names the entry's address, whichever of its words
met the fault (R291; assumption 13). -/
def State.trapFault (s : State) (x : TrapSrc × TrapEntry) (c : Cause) : State :=
  ({ s with trap := { s.trap with en := false, ovf := true, pend := s.trap.pend ++ [x] } }).ringFault 16
    { c with addr := BitVec.ofNat 64 s.trap.slotAt }

/-- An entry is raised (R291, R293). -/
def State.trapRaise (s : State) (x : TrapSrc × TrapEntry) : State :=
  if s.trap.pending x.1 then (if x.1.isEvent then s.countDev 21 1 else s)
  else if !s.trap.en || s.trap.full then s.trapHold x
  else
    let bs := sealed (x.2.words s.trap.seq) s.trap.phase
    match (writeEntry (ringWho 16) s.trap.host s.trap.slotAt bs).on s with
    | (.ok _, s) => s.trapWritten
    | (.error .wait, s) => { s with trap := { s.trap with due := x :: s.trap.due } }
    | (.error (.trap c), s) => s.trapFault x c

/-- TRAP_RING_WRITE (R291, R293). -/
def execTrapRingWrite (s : State) : Out :=
  match s.trap.due with
  | [] => .next s
  | x :: r => .next ({ s with trap := { s.trap with due := r } }.trapRaise x)

/-- The order in which pending sources raise their entries again (R293). -/
def raiseKey (x : TrapSrc × TrapEntry) : Nat :=
  let (core, kind, i, _, _) := srcUnit x
  core * 2 ^ 16 + kind * 2 ^ 8 + i

/-- Pending sources raise their entries again (R293). -/
def State.raiseAgain (s : State) : State :=
  let xs := sortBy (fun a b => decide (raiseKey a ≤ raiseKey b)) s.trap.pend
  let es := xs.filterMap fun x => (s.rebuild x).map fun e => (x.1, e)
  let s := { s with trap := { s.trap with pend := [], due := es ++ s.trap.due } }
  es.foldl (fun s _ => s.dueRow .trapRingWrite) s

/-- TRCTL_WRITE (R291, R293). -/
def execTrctlWrite (s : State) : Out :=
  regOp (fun _ => true) s fun s a =>
    let r0 := s.trap
    let r := { r0 with ie := a.fieldOf r0.ctl 62 62 == 1, ovf := r0.ovf && !a.clears 61, ridx := a.fieldOf r0.ctl 15 0 }
    let r : TrapRing :=
      if a.who.firm then
        let size := min 10 (a.fieldOf r0.ctl 55 52)
        let r := { r with en := a.fieldOf r0.ctl 63 63 == 1 }
        if size = r.size then r else { r with size := size, widx := 0, ridx := 0, phase := true }
      else r
    let s := { s with trap := r }
    if r.ridx != r0.ridx || (r.en && !r0.en) then s.raiseAgain else s

/-- TRBASE_WRITE (R291). -/
def execTrbaseWrite (s : State) : Out :=
  regOp Agent.firm s fun s a =>
    let r := s.trap
    { s with trap := { r with
        host := a.fieldOf r.baseReg 63 63 == 1, base := BitVec.ofNat 64 (a.fieldOf r.baseReg 47 12 * 4096)
        widx := 0, ridx := 0, phase := true } }

end Sys2Proof.Machine
end

