-- ==== Sys2Proof/Machine/SaveArea.lean ====
section
/-! DEFINITION. The save area of a context as 64-bit words: how its items are written and read (R118, R268, R283, R294, R295). The items
whose layout is never interpreted follow a layout of the model's own (assumption 12). -/
namespace Sys2Proof.Machine

/-! ## Reading -/

/-- A reader of 64-bit words; none where the words do not make an item. -/
abbrev Rd (α : Type) := StateT (List Nat) Option α

/-- The next word. -/
def rd : Rd Nat := fun l =>
  match l with
  | [] => none
  | x :: r => some (x, r)

def rdB : Rd Bool := do return (← rd) != 0

/-- A value of w bits. -/
def rdV (w : Nat) : Rd (BitVec w) := do return BitVec.ofNat w (← rd)

/-- A value of 128 bits in two words. -/
def rdX : Rd (BitVec 128) := do
  let a ← rd
  let b ← rd
  return BitVec.ofNat 128 (a + b * 2 ^ 64)

/-- n items. -/
def rdMany {α : Type} (f : Rd α) : Nat → Rd (List α)
  | 0 => return []
  | n + 1 => do
    let a ← f
    let r ← rdMany f n
    return a :: r

/-- A list behind its count; every item takes at least a word. -/
def rdList {α : Type} (f : Rd α) : Rd (List α) := do
  let n ← rd
  if (← get).length < n then failure
  rdMany f n

def rdOpt {α : Type} (f : Rd α) : Rd (Option α) := do
  if (← rd) = 0 then return none
  return some (← f)

/-- n bytes, padded to whole words. -/
def rdBytes (n : Nat) : Rd (List Byte) := do
  let ws ← rdMany rd (cdiv n 8)
  return (ws.flatMap (toBytes 8)).take n

def rdPair : Rd (Nat × Nat) := do
  let a ← rd
  let b ← rd
  return (a, b)

/-! ## Writing -/

def wB (b : Bool) : Nat := b.toNat
def wX (x : BitVec 128) : List Nat := [x.toNat % 2 ^ 64, x.toNat / 2 ^ 64]
def wList {α : Type} (f : α → List Nat) (l : List α) : List Nat := l.length :: l.flatMap f
def wOpt {α : Type} (f : α → List Nat) : Option α → List Nat
  | none => [0]
  | some a => 1 :: f a
def wPair (p : Nat × Nat) : List Nat := [p.1, p.2]
def wNat (n : Nat) : List Nat := [n]

/-- Bytes as words, padded with zero. -/
def wBytes (bs : List Byte) : List Nat := (List.range (cdiv bs.length 8)).map fun i => fieldAt bs (8 * i) 8

/-! ## Items that software never interprets (assumption 12) -/

/-- Words under a key that is open: no claim can rest on their bytes. -/
def wKeyed (kind : Nat) (ws : List Nat) : List Nat :=
  ws.mapIdx fun i w => w % 2 ^ 64 ^^^ ofBytes (sliceBytes (Config.engineBytes (2 ^ 40 * kind + i)) 0 8)

/-- Numbers as bytes, each behind its length in bytes. -/
def pack (ws : List Nat) : List Byte :=
  ws.flatMap fun n =>
    let k := if n = 0 then 0 else Nat.log2 n / 8 + 1
    BitVec.ofNat 8 k :: toBytes k n

/-- At most n numbers read from their bytes. -/
def unpack : Nat → List Byte → List Nat
  | 0, _ => []
  | _, [] => []
  | n + 1, k :: r => ofBytes (r.take k.toNat) :: unpack n (r.drop k.toNat)

/-- The items of an object, of 256 bytes each: a word that says whether the object goes on in the next item, and 248 bytes. An object
of more than 248 bytes takes several. -/
def wItem (kind : Nat) (ws : List Nat) : List (List Nat) :=
  let bs := pack ws
  let n := max 1 (cdiv bs.length 248)
  (List.range n).map fun i => wKeyed kind (wB (decide (i + 1 < n)) :: wBytes (sliceBytes bs (248 * i) 248))

/-- The items of a list of objects behind their count. -/
def wItems {α : Type} (kind : Nat) (f : α → List Nat) (l : List α) : List Nat := wList id (l.flatMap fun a => wItem kind (f a))

/-- The objects that items make; `acc` are the bytes of an object begun. -/
def joinItems : List (List Nat) → List Byte → List (List Nat)
  | [], _ => []
  | x :: r, acc =>
    let bs := acc ++ (x.drop 1).flatMap (toBytes 8)
    if x.headD 0 = 0 then unpack bs.length bs :: joinItems r [] else joinItems r bs

def rdItems {α : Type} (kind : Nat) (f : Rd α) : Rd (List α) := do
  let xs ← rdList (rdMany rd 32)
  StateT.lift ((joinItems (xs.map (wKeyed kind)) []).mapM fun ws => f.run' ws)

/-! ## Context and graphs (R118, KIND 1) -/

def Graph.words (g : Graph) : List Nat :=
  [g.id, g.ring, g.ctx.toNat, g.asn.toNat, g.va.toNat, g.count, g.node, g.user.toNat] ++ wList wPair g.loops ++ wList wPair g.out
    ++ wOpt wPair g.await ++ wOpt wNat g.ending ++ [g.worst, wB g.canc]

def rdGraph : Rd Graph := do
  let id ← rd
  let ring ← rd
  let ctx ← rdV 32
  let asn ← rdV 16
  let va ← rdV 64
  let count ← rd
  let node ← rd
  let user ← rdV 64
  let loops ← rdList rdPair
  let out ← rdList rdPair
  let await ← rdOpt rdPair
  let ending ← rdOpt rd
  let worst ← rd
  return { id := id, ring := ring, ctx := ctx, asn := asn, va := va, count := count, node := node, user := user, loops := loops
           out := out, await := await, ending := ending, worst := worst, canc := ← rdB }

/-- The µs that remain on an armed deadline (R295). -/
def Ctx.rem (c : Ctx) (rtc : Nat) : Nat := if c.dln.getLsbD 63 then bits c.dln.toNat 62 0 - rtc else 0

/-- The KIND 1 section: the system registers and the graphs. -/
def Ctx.words (c : Ctx) (rtc : Nat) (gs : List Graph) : List Nat :=
  [c.atb.toNat, c.tbase.toNat, c.dln.toNat, c.rem rtc, c.dlnact.toNat, c.bpb.toNat, c.detc.toNat]
    ++ (List.range 10).map (fun i => (c.detce.getD i 0).toNat) ++ wList Graph.words gs

/-- What a KIND 1 section holds. -/
structure SavedCtx where
  ctx    : Ctx
  rem    : Nat
  graphs : List Graph

def rdCtx : Rd SavedCtx := do
  let atb ← rdV 64
  let tbase ← rdV 64
  let dln ← rdV 64
  let rem ← rd
  let act ← rdV 32
  let bpb ← rdV 64
  let detc ← rdV 64
  let detce ← rdMany (rdV 64) 10
  let gs ← rdList rdGraph
  return { ctx := { Ctx.reset with
             atb := atb, tbase := tbase, dln := dln, dlnact := act, bpb := bpb, detc := detc, detce := detce, run := .saved }
           rem := rem, graphs := gs }

/-! ## Blocks (KIND 2) -/

def RingSlot.words : RingSlot → List Nat
  | .free => [0, 0]
  | .reserved g => [1, g]
  | .full => [2, 0]
  | .taken g => [3, g]

def rdRingSlot : Rd RingSlot := do
  let (k, g) ← rdPair
  return match k with
    | 1 => .reserved g
    | 2 => .full
    | 3 => .taken g
    | _ => .free

def Ring.words (r : Ring) : List Nat :=
  [r.depth, r.prod, r.cons, r.phead, wB r.pphase, r.chead, wB r.cphase] ++ wList RingSlot.words r.slots ++ wList wNat r.pwait
    ++ wList wNat r.cwait

def rdRing : Rd Ring := do
  let depth ← rd
  let prod ← rd
  let cons ← rd
  let phead ← rd
  let pphase ← rdB
  let chead ← rd
  let cphase ← rdB
  let slots ← rdList rdRingSlot
  let pwait ← rdList rd
  return { depth := depth, prod := prod, cons := cons, phead := phead, pphase := pphase, chead := chead, cphase := cphase
           slots := slots, pwait := pwait, cwait := ← rdList rd }

/-! ## Groups (KIND 3) -/

/-- The code of a lane's state (R295). -/
def LaneSt.code : LaneSt → Nat
  | .eligible => 0
  | .joinPark _ | .barPark _ | .abarPark _ | .futPark .. | .accPark .. => 1
  | .held => 2
  | .finished => 3
  | .killed => 4
  | .trapped => 5
  | .service => 6

/-- The park's operand. -/
def LaneSt.operand : LaneSt → Nat
  | .joinPark j => 1 + j.toNat * 2 ^ 8
  | .barPark b => 2 + b.toNat * 2 ^ 8
  | .abarPark b => 3 + b.toNat * 2 ^ 8
  | .futPark h d c => 4 + d.toNat * 2 ^ 8 + c.toNat * 2 ^ 20 + h.toNat * 2 ^ 32
  | .accPark d f e w4 _ _ => 5 + d.toNat * 2 ^ 8 + f.toNat * 2 ^ 20 + wB w4 * 2 ^ 29 + e.toNat * 2 ^ 32
  | _ => 0

def laneStOf (code a : Nat) : LaneSt :=
  match code with
  | 0 => .eligible
  | 2 => .held
  | 3 => .finished
  | 4 => .killed
  | 5 => .trapped
  | 6 => .service
  | _ =>
    match a % 256 with
    | 1 => .joinPark (BitVec.ofNat 3 (a / 2 ^ 8))
    | 2 => .barPark (BitVec.ofNat 4 (a / 2 ^ 8))
    | 3 => .abarPark (BitVec.ofNat 4 (a / 2 ^ 8))
    | 4 => .futPark (BitVec.ofNat 32 (a / 2 ^ 32)) (BitVec.ofNat 10 (a / 2 ^ 8)) (BitVec.ofNat 10 (a / 2 ^ 20))
    | 5 => .accPark (BitVec.ofNat 10 (a / 2 ^ 8)) (BitVec.ofNat 8 (a / 2 ^ 20)) (BitVec.ofNat 32 (a / 2 ^ 32)) (bit a 29) 0 0
    | _ => .eligible

/-- A lane's p0 to p15 in one field. -/
def Group.pword (g : Group) (l : Nat) : Nat :=
  (List.range 16).foldl (fun m i => if g.rp (BitVec.ofNat 4 i) l then m ||| 2 ^ i else m) 0

def Lane.words (a : Lane) (p : Nat) : List Nat :=
  [a.lpc.toNat, a.st.code, wB a.yld, a.stamp, p, a.tcause.toNat, a.taddr.toNat, a.tpc.toNat, a.tnpc.toNat, a.spdepth, a.stack.length]
    ++ (List.range 8).map (fun i => (a.stack.getD i 0).toNat) ++ [a.st.operand]

def rdLane : Rd (Lane × Nat) := do
  let lpc ← rdV 64
  let code ← rd
  let yld ← rdB
  let stamp ← rd
  let p ← rd
  let tcause ← rdV 32
  let taddr ← rdV 64
  let tpc ← rdV 64
  let tnpc ← rdV 64
  let spdepth ← rd
  let n ← rd
  let stack ← rdMany (rdV 64) 8
  let a ← rd
  return ({ Lane.start lpc with
    st := laneStOf code a, yld := yld, stamp := stamp, tcause := tcause, taddr := taddr, tpc := tpc, tnpc := tnpc
    spdepth := spdepth, stack := stack.take n }, p)

/-- The v registers of blocks 0 to the grant, register by register, two lanes to a word. -/
def Group.vwords (g : Group) : List Nat :=
  (List.range (64 * (g.grant + 1))).flatMap fun r =>
    (List.range (g.width / 2)).map fun i =>
      (g.rv (BitVec.ofNat 10 r) (2 * i)).toNat + (g.rv (BitVec.ofNat 10 r) (2 * i + 1)).toNat * 2 ^ 32

/-- k0 to k62 of the program, and the handler's k48 to k62: the two banks change places at handler entry (R289). -/
def Group.kbanks (g : Group) : List Nat × List Nat :=
  let k (i : Nat) : Nat := (Store.get 0 g.k i).toNat
  let o (i : Nat) : Nat := (Store.get 0 g.kshadow i).toNat
  let hi (f : Nat → Nat) : List Nat := (List.range 15).map fun i => f (48 + i)
  ((List.range 48).map k ++ hi (if g.handler then o else k), hi (if g.handler then k else o))

/-- The words of a KIND 3 section, in the listed order. -/
def Group.words (g : Group) : List Nat :=
  [g.width, g.grant, g.fpctl.toNat, g.stk.toNat, g.dbg.toNat, wB g.handler] ++ g.kbanks.1 ++ [(g.rk 63).toNat] ++ g.kbanks.2
    ++ (List.range 8).flatMap (fun i => wX (Store.get 0 g.sh i))
    ++ (List.range 16).map (fun i => (Store.get 0 g.q i).toNat)
    ++ (List.range 8).flatMap (fun i => wX (Store.get 0 g.j i) ++ wX (Store.get 0 g.arrived i))
    ++ (List.range g.width).flatMap (fun l => (g.lane l).words (g.pword l)) ++ g.vwords

/-- A store from the values of keys base, base + 1 and up. -/
def storeOf {α : Type} [DecidableEq α] (d : α) (base : Nat) (l : List α) : Store α :=
  (l.zip (List.range l.length)).foldl (fun m e => Store.put d m (base + e.2) e.1) []

def rdGroup : Rd Group := do
  let width ← rd
  let grant ← rd
  if width ≠ 16 ∧ width ≠ 32 ∧ width ≠ 64 ∧ width ≠ 128 ∨ 15 < grant then failure
  let fpctl ← rdV 32
  let stk ← rdV 64
  let dbg ← rdV 32
  let handler ← rdB
  let ks ← rdMany (rdV 32) 64
  let shadow ← rdMany (rdV 32) 15
  let sh ← rdMany rdX 8
  let q ← rdMany (rdV 64) 16
  let js ← rdMany (do let a ← rdX; return (a, ← rdX)) 8
  let lanes ← rdMany rdLane width
  let vs ← rdMany (rdMany rd (width / 2)) (64 * (grant + 1))
  let v := (vs.zip (List.range vs.length)).foldl (fun (m : Store Word) row =>
    (row.1.zip (List.range row.1.length)).foldl (fun m e =>
      Store.put 0 (Store.put 0 m (128 * row.2 + 2 * e.2) (BitVec.ofNat 32 e.1)) (128 * row.2 + 2 * e.2 + 1)
        (BitVec.ofNat 32 (e.1 / 2 ^ 32))) m) []
  let p := (lanes.zip (List.range lanes.length)).foldl (fun (m : Store Bool) e =>
    (List.range 15).foldl (fun m i => Store.put false m (128 * i + e.2) (e.1.2.testBit i)) m) []
  return { Group.idle with
    width := width, v := v, k := storeOf 0 0 (ks.take 48 ++ if handler then shadow else (ks.take 63).drop 48)
    kshadow := storeOf 0 48 (if handler then (ks.take 63).drop 48 else shadow), p := p
    j := storeOf 0 0 (js.map (·.1)), arrived := storeOf 0 0 (js.map (·.2)), sh := storeOf 0 0 sh, q := storeOf 0 0 q, fpctl := fpctl
    stk := stk, dbg := dbg, grant := grant, handler := handler, lanes := lanes.map (·.1) }

/-- The groups of a block that stand at each barrier, as masks of group indices. -/
def barWords (gs : List Group) : List Nat :=
  (List.range 16).map fun b =>
    (gs.filter fun g => g.lanes.any fun a => a.st == .barPark (BitVec.ofNat 4 b) || a.st == .abarPark (BitVec.ofNat 4 b)).foldl
      (fun m g => m ||| 2 ^ g.index) 0

def Block.words (b : Block) (bytes : List Byte) (gs : List Group) : List Nat :=
  [b.core, b.rank, b.scratch] ++ wBytes bytes ++ barWords gs ++ b.rings.flatMap Ring.words
    ++ (List.range 4).map (fun i => b.issued.getD i 0) ++ (List.range 4).map (fun i => b.done.getD i 0)

/-- A block, but for what the device keeps of it, and its scratchpad bytes. -/
def rdBlock : Rd (Block × List Byte) := do
  let core ← rd
  let rank ← rd
  let scratch ← rd
  if 2 ^ 23 < scratch then failure
  let bytes ← rdBytes scratch
  let _ ← rdMany rd 16
  let rings ← rdMany rdRing 8
  let issued ← rdMany rd 4
  let done ← rdMany rd 4
  return ({ task := 0, idx := 0, ctx := 0, core := core, rank := rank, ngroups := 0, base := 0, scratch := scratch, slots := []
            rings := rings, issued := issued, done := done, canc := false, retired := false }, bytes)

/-! ## Matrix (KIND 4, R268) -/

def MOp.words (o : MOp) : List Nat :=
  [o.id, o.task, o.block, o.gi, o.ctx.toNat, o.frame] ++ wX o.sh ++ [o.aoff, o.slot, wB o.den, o.drn] ++ wList (fun w => [w.toNat]) o.pk
    ++ [wB o.twin, wB o.half, wB o.z, wB o.ftz, wB o.nant, wB o.dv, o.dc, o.next] ++ wOpt wPair o.nan ++ [o.pc.toNat]

def rdMOp : Rd MOp := do
  let id ← rd
  let task ← rd
  let block ← rd
  let gi ← rd
  let ctx ← rdV 32
  let frame ← rd
  let sh ← rdX
  let aoff ← rd
  let slot ← rd
  let den ← rdB
  let drn ← rd
  let pk ← rdList (rdV 32)
  let twin ← rdB
  let half ← rdB
  let z ← rdB
  let ftz ← rdB
  let nant ← rdB
  let dv ← rdB
  let dc ← rd
  let next ← rd
  let nan ← rdOpt rdPair
  return { id := id, task := task, block := block, gi := gi, ctx := ctx, frame := frame, sh := sh, aoff := aoff, slot := slot, den := den
           drn := drn, pk := pk, twin := twin, half := half, z := z, ftz := ftz, nant := nant, dv := dv, dc := dc, next := next
           nan := nan, pc := ← rdV 64 }

def DrainStop.words : DrainStop → List Nat
  | .fault c a => [0, c, a]
  | .nan e k => [1, e, k]

def rdDrainStop : Rd DrainStop := do
  let k ← rd
  let (c, a) ← rdPair
  return if k = 0 then .fault c a else .nan c a

def Drain.words (d : Drain) : List Nat :=
  d.op.words ++ [d.elem, d.mi] ++ wList (fun w => [w.toNat]) d.t ++ wOpt (fun x => [x.1.toNat, x.2]) d.amax ++ wOpt wNat d.nanchk
    ++ wOpt DrainStop.words d.stop ++ [wB d.told]

def rdDrain : Rd Drain := do
  let op ← rdMOp
  let elem ← rd
  let mi ← rd
  let t ← rdList (rdV 32)
  let amax ← rdOpt do
    let w ← rdV 32
    return (w, ← rd)
  let nanchk ← rdOpt rd
  let stop ← rdOpt rdDrainStop
  return { op := op, elem := elem, mi := mi, t := t, amax := amax, nanchk := nanchk, stop := stop, told := ← rdB }

def WSt.code : WSt → Nat
  | .empty => 0 | .filling => 1 | .ready => 2

def WSlot.words (w : WSlot) : List Nat :=
  [w.st.code, w.task, w.owner, w.src, w.len, w.ch, wB w.priv] ++ wList (fun f => [f.src, f.len, f.ch, wB f.priv]) w.layers

def rdWFill : Rd WFill := do
  let src ← rd
  let len ← rd
  let ch ← rd
  return { src := src, len := len, ch := ch, priv := ← rdB }

def rdWSlot : Rd WSlot := do
  let st ← rd
  let task ← rd
  let owner ← rd
  let src ← rd
  let len ← rd
  let ch ← rd
  let priv ← rdB
  return { st := if st = 1 then .filling else if st = 2 then .ready else .empty, task := task, owner := owner, src := src, len := len
           ch := ch, priv := priv, layers := ← rdList rdWFill }

def DSlot.saved (d : DSlot) : List Nat := [d.asn, d.khdr, d.n] ++ wList wPair d.users ++ wList (fun w => [w.toNat]) d.words

def rdDSlot : Rd DSlot := do
  let asn ← rd
  let khdr ← rd
  let n ← rd
  let users ← rdList rdPair
  return { asn := asn, khdr := khdr, n := n, users := users, words := ← rdList (rdV 32) }

def Frame.words (f : Frame) : List Nat := wOpt wPair f.owner ++ [f.wm, wB f.s32, wB f.nanf, wB f.satf, f.frozen]

def rdFrame : Rd Frame := do
  let owner ← rdOpt rdPair
  let wm ← rd
  let s32 ← rdB
  let nanf ← rdB
  let satf ← rdB
  return { owner := owner, wm := wm, s32 := s32, nanf := nanf, satf := satf, frozen := ← rd }

/-- What a core holds of a context's matrix work. -/
structure MatSave where
  frames : List (Nat × Frame × List Word)
  ops    : List MOp
  drain  : Option Drain
  aside  : List Drain
  slots  : List (Nat × WSlot)
  progs  : List DSlot

/-- The KIND 4 section; the contents of the frames stand as they are behind the frames' status words. -/
def MatSave.words (m : MatSave) : List Nat :=
  wItems 4 (fun f => f.1 :: f.2.1.words) m.frames ++ m.frames.flatMap (fun f => wBytes (f.2.2.flatMap fun w => toBytes 4 w.toNat))
    ++ wItems 4 MOp.words m.ops ++ wItems 4 Drain.words m.drain.toList ++ wItems 4 Drain.words m.aside
    ++ wItems 4 (fun x => x.1 :: x.2.words) m.slots ++ wItems 4 DSlot.saved m.progs

def rdMat : Rd MatSave := do
  let heads ← rdItems 4 do
    let i ← rd
    return (i, ← rdFrame)
  let bits ← rdMany (rdMany rd 512) heads.length
  let half (w : Nat) : List Word := [BitVec.ofNat 32 w, BitVec.ofNat 32 (w / 2 ^ 32)]
  let ops ← rdItems 4 rdMOp
  let drain ← rdItems 4 rdDrain
  let aside ← rdItems 4 rdDrain
  let slots ← rdItems 4 do
    let i ← rd
    return (i, ← rdWSlot)
  return { frames := (heads.zip bits).map fun f => (f.1.1, f.1.2, f.2.flatMap half), ops := ops, drain := drain.head?, aside := aside
           slots := slots, progs := ← rdItems 4 rdDSlot }

/-! ## Copies, spatial commands, futures, DET lines (KIND 5 to 8) -/

def CopyCmd.words (c : CopyCmd) : List Nat :=
  [c.task, c.block, c.gi, c.ctx.toNat, c.skind, c.srank, c.saddr, c.dkind, c.drank, c.daddr, c.len, c.rows, c.sstr, c.dstr]
    ++ wOpt wNat c.dc ++ [c.ticket, c.pos, c.chunk] ++ wOpt (fun x => [x.1, x.2.1, x.2.2]) c.stop
    ++ [c.after, c.pc.toNat, wB c.priv, wB c.refill]

def rdCopy : Rd CopyCmd := do
  let task ← rd
  let block ← rd
  let gi ← rd
  let ctx ← rdV 32
  let skind ← rd
  let srank ← rd
  let saddr ← rd
  let dkind ← rd
  let drank ← rd
  let daddr ← rd
  let len ← rd
  let rows ← rd
  let sstr ← rd
  let dstr ← rd
  let dc ← rdOpt rd
  let ticket ← rd
  let pos ← rd
  let chunk ← rd
  let stop ← rdOpt do
    let a ← rd
    let (b, c) ← rdPair
    return (a, b, c)
  let after ← rd
  let pc ← rdV 64
  let priv ← rdB
  return { task := task, block := block, gi := gi, ctx := ctx, skind := skind, srank := srank, saddr := saddr, dkind := dkind
           drank := drank, daddr := daddr, len := len, rows := rows, sstr := sstr, dstr := dstr, dc := dc, ticket := ticket, pos := pos
           chunk := chunk, stop := stop, after := after, pc := pc, priv := priv, refill := ← rdB }

def SpCmd.words (c : SpCmd) : List Nat :=
  [wB c.step, c.rec_.toNat, c.oct.toNat, c.handle.toNat, c.task, c.block, c.gi, c.ctx.toNat, c.tag.toNat, wB c.canc, c.body]
    ++ wList (fun w => [w.toNat]) c.work ++ [c.pc.toNat, wB c.priv, wB c.isOver]

def rdSp : Rd SpCmd := do
  let step ← rdB
  let rec_ ← rdV 64
  let oct ← rdV 64
  let handle ← rdV 32
  let task ← rd
  let block ← rd
  let gi ← rd
  let ctx ← rdV 32
  let tag ← rdV 16
  let canc ← rdB
  let body ← rd
  let work ← rdList (rdV 32)
  let pc ← rdV 64
  let priv ← rdB
  return { step := step, rec_ := rec_, oct := oct, handle := handle, task := task, block := block, gi := gi, ctx := ctx, tag := tag
           canc := canc, body := body, work := work, pc := pc, priv := priv, isOver := ← rdB }

def FutSt.num : FutSt → Nat
  | .free => 0 | .pending => 1 | .ready => 2 | .cancelled => 3 | .faulted => 4

def futStOf (n : Nat) : FutSt :=
  match n with
  | 1 => .pending | 2 => .ready | 3 => .cancelled | 4 => .faulted | _ => .free

def Fut.words (f : Fut) : List Nat :=
  [f.st.num, f.value.toNat, f.task, f.block, f.gi, f.ctx.toNat] ++ wOpt (fun w => [w.toNat]) f.qctx ++ [f.tag.toNat, wB f.canc, f.gen]

def rdFut : Rd Fut := do
  let st ← rd
  let value ← rdV 64
  let task ← rd
  let block ← rd
  let gi ← rd
  let ctx ← rdV 32
  let qctx ← rdOpt (rdV 32)
  let tag ← rdV 16
  let canc ← rdB
  return { st := futStOf st, value := value, task := task, block := block, gi := gi, ctx := ctx, qctx := qctx, tag := tag, canc := canc
           gen := ← rd }

def DetLine.words (l : DetLine) : List Nat :=
  [l.gr, l.owner, wB l.shared] ++ wList wNat l.readers ++ wList (fun b => b.1 :: wX b.2.1 ++ wBytes (sliceBytes b.2.2 0 128)) l.bufs

def rdDet : Rd DetLine := do
  let gr ← rd
  let owner ← rd
  let shared ← rdB
  let readers ← rdList rd
  let bufs ← rdList do
    let b ← rd
    let m ← rdX
    return (b, m, ← rdBytes 128)
  return { gr := gr, owner := owner, shared := shared, readers := readers, bufs := bufs }

/-! ## Cards and counters (KIND 9, 10) -/

/-- The graph and node that posted a card, if any. -/
def CardSrc.node : CardSrc → List Nat
  | .graph g n => [1, g, n]
  | _ => [0, 0, 0]

def Task.saved (t : Task) : List Nat :=
  (List.range 8).map (fun i => (t.words.getD i 0).toNat) ++ [t.handed, wB t.held] ++ t.src.node

/-- A card, but for what the device keeps of it. -/
def rdTask : Rd Task := do
  let words ← rdMany (rdV 64) 8
  let handed ← rd
  let held ← rdB
  let k ← rd
  let (g, n) ← rdPair
  return { Task.card 0 words (if k = 1 then .graph g n else .post 0 0) 0 held with handed := handed }

/-! ## Sections -/

/-- A section: KIND, UNIT and its words. -/
structure Section where
  kind  : Nat
  unit  : Nat
  words : List Nat
deriving DecidableEq, Repr

/-- LEN: a multiple of 64 bytes. -/
def Section.len (x : Section) : Nat := roundup (8 * x.words.length) 64

/-- The order of the directory (R295). -/
def Section.le (a b : Section) : Bool := decide (a.kind < b.kind) || (a.kind == b.kind && decide (a.unit ≤ b.unit))

/-- Where the sections begin. -/
def dirEnd (n : Nat) : Nat := roundup (64 + 16 * n) 64

/-- TOTAL (R295). -/
def areaTotal (ss : List Section) : Nat := dirEnd ss.length + (ss.map Section.len).foldl (· + ·) 0

/-- The directory, from an offset on. -/
def directory : Nat → List Section → List Nat
  | _, [] => []
  | off, x :: r => [x.kind * 2 ^ 56 + x.unit % 2 ^ 48, x.len * 2 ^ 32 + off % 2 ^ 32] ++ directory (off + x.len) r

/-- Words padded with zero to n bytes. -/
def padTo (n : Nat) (ws : List Nat) : List Nat := ws ++ List.replicate (n / 8 - ws.length) 0

/-- SMAGIC. -/
def smagic : Nat := 0x4E4B5341

/-- The header's words (R295). -/
def State.areaHeader (s : State) (ctx : Word) (ss : List Section) (state : Nat) : List Nat :=
  let part := match s.part with
    | .nk960 => 0x0960
    | .nk940 => 0x0940
  [smagic * 2 ^ 32 + part * 2 ^ 16 + state * 2 ^ 8 + 1, ss.length * 2 ^ 32 + ctx.toNat, areaTotal ss, s.rtc.toNat, s.own, 0, 0, 0]

/-- Everything behind the header. -/
def areaBody (ss : List Section) : List Nat :=
  padTo (dirEnd ss.length - 64) (directory (dirEnd ss.length) ss) ++ ss.flatMap fun x => padTo x.len x.words

/-- The sections that an area's words give, the header included. -/
def areaSections (ws : List Nat) : List Section :=
  let w (i : Nat) : Nat := ws.getD i 0
  (List.range (bits (w 1) 63 32)).map fun i =>
    let d := 8 + 2 * i
    let len := bits (w (d + 1)) 63 32
    let off := bits (w (d + 1)) 31 0
    ⟨bits (w d) 63 56, bits (w d) 47 0, (ws.drop (off / 8)).take (len / 8)⟩

end Sys2Proof.Machine
end

