-- ==== Sys2Proof/Machine/Tasks.lean ====
section
/-! DEFINITION. Tasks, futures and search (R148 to R172, R418 to R428). -/
namespace Sys2Proof.Machine

/-- The active lanes post or push in ascending order; a lane that must wait parks the group from that lane on (R404). -/
def pop (w : Wait) (i : Info) (s : State) (f : State → Nat → Mem LaneOut) : Out :=
  Out.then (issue i s fun s act => s.memLanesAs w i act (f s)) State.settle

/-- The same at a cancellation point. -/
def popPoint (w : Wait) (i : Info) (s : State) (f : State → Nat → Mem LaneOut) : Out :=
  Out.then (issue i s (atPoint fun s act => s.memLanesAs w i act (f s))) State.settle

/-- PERM with an address. -/
def permAt {α : Type} (a : Nat) : Mem α := throw (.trap (Cause.at cPERM 0 (BitVec.ofNat 64 a)))

/-! ## SPAWN and ENQ (R150, R151, R419, R420) -/

/-- The 64 bytes of a template or card read by a lane (R419). -/
def readCard (s : State) (l : Nat) (va : DWord) : Mem (List DWord) := do
  let e ← vaCheck (va.toNat : Int) 64 0
  let bs ← loadBytes (s.who l) e 64 0
  return (List.range 8).map fun i => BitVec.ofNat 64 (fieldAt bs (8 * i) 8)

/-- A lane's post: the release, then the card enters its segment or the lane waits (R151). -/
def postLane (s : State) (l : Nat) (ws : List DWord) (seg : Nat) : Mem LaneOut := do
  release (s.who l) 3
  let ws := fillCard ws (s.asnOf s.g.ctx) s.g.ctx
  let r ← Mem.of fun t =>
    match t.post ws (.post s.g.core s.g.iss.pc) seg with
    | (.full, _) => (true, t)
    | (_, t) => (false, t)
  if r then throw .wait
  return {}

/-- The card of a template (R150). -/
def spawnCard (s : State) (ws : List DWord) (inl : DWord) (aff : Word) : List DWord :=
  let w (i : Nat) : Nat := (ws.getD i 0).toNat
  let (tag, canc) := s.tagOf s.g.task
  let keep := bits (w 2) 63 48 ≠ 0 ∨ (w 3).testBit 44
  (List.range 8).map fun i => BitVec.ofNat 64
    (if i = 1 then setBits (w 1) 48 16 aff.toNat
     else if i = 2 ∧ ¬ keep then setBits (w 2) 48 16 tag.toNat
     else if i = 3 ∧ ¬ keep then setBits (w 3) 44 1 canc.toNat
     else if i = 7 then inl.toNat
     else w i)

/-- SPAWN (R419). -/
def execSpawn (h : Hdr) (a b : Src) (c : VReg) (s : State) : Out :=
  popPoint .spawn (Info.tsk h (c :: (Src.regs a ++ Src.regs b)) (len2 a b)).ending s fun s l => do
    let ws ← readCard s l (s.g.s64 a l)
    let card := spawnCard s ws (s.g.s64 b l) (s.g.rv c l)
    postLane s l card (segOf s.part.slices (bits (s.g.rv c l).toNat 15 0))

/-- The registers and words of a target mode. -/
def EnqMode.src? : EnqMode → List Src
  | .core b => [b]
  | _ => []

/-- ENQ (R150, R420). -/
def execEnq (h : Hdr) (a : Src) (mode : EnqMode) (s : State) : Out :=
  let bs := EnqMode.src? mode
  let n := 1 + (a.lits ++ bs.flatMap Src.lits).length
  pop .enq (Info.tsk h (Src.regs a ++ bs.flatMap Src.regs) n).ending s fun s l => do
    let ns := s.part.slices
    let named ← match mode with
      | .own => pure (some (2 * s.g.core % ns))
      | .core b =>
        let x := (s.g.s32 b l).toNat
        if x / 4 = s.g.core / 4 ∧ x < s.part.cores then pure (some (2 * x % ns)) else permAt x
      | .hash => pure none
    let ws ← readCard s l (s.g.s64 a l)
    postLane s l ws (named.getD (segOf ns (bits (ws.getD 1 0).toNat 63 48)))

/-! ## Dependence counters (R152 to R154, R421) -/

/-- DECR (R421). -/
def execDecr (h : Hdr) (a b : Src) (s : State) : Out :=
  Out.then (mop (.tsk h (Src.regs a ++ Src.regs b) (len2 a b)) s fun s l => do
    let n := (s.g.s32 a l).toNat
    if !s.ownsCounter s.g.ctx n then permAt 0
    release (s.who l) 3
    Mem.mod fun t => t.adjust n (sext (s.g.s32 b l).toNat 24)
    return {}) State.settle

/-- WAITD (R142, R154, R421). -/
def execWaitd (h : Hdr) (a : Src) (s : State) : Out :=
  let len := len1 a
  let woken := s.g.iss.wait == some .woken
  Out.then (issue (Info.tsk h (Src.regs a) len).ending s (atPoint fun s act =>
    let holds := ((s.gblock).map fun b => b.rings.any fun r => r.holds s.g.index).getD false
    if holds then s.raiseAll len act (.mk0 cROLE)
    else s.uniform32 len act a fun x =>
      let n := x.toNat
      if !s.ownsCounter s.g.ctx n then s.raiseAll len act (.mk0 cPERM)
      else if woken || (s.counter n).value == 0 then s.dropClean s.g.core
      else s.waitFor (.waitd n) none)) State.settle

/-! ## LEAFQ (R156, R422) -/

/-- A row pushed into the open tile of a queue, which is posted when it is full (R156, R157). -/
def State.pushRow (s : State) (n : Nat) (buf : Nat) (row : GRow) : State :=
  let q := s.gq n
  let q := { q with cur := some buf, first := if q.rows.isEmpty then s.rtc.toNat else q.first, rows := q.rows ++ [row] }
  let s := s.setGq n q
  if q.tr ≤ q.rows.length then s.closeTile n false else s

/-- One lane of LEAFQ (R422). -/
def leafLane (s : State) (d : VReg) (n : Nat) (b : Src) (sp : Bool) (l : Nat) : Mem LaneOut := do
  let t ← get
  let q := t.gq n
  if 16 ≤ n ∨ !q.bound ∨ q.ctx ≠ s.g.ctx then permAt 0
  let len := 8 * q.rowb
  let (tag, canc) := s.tagOf s.g.task
  if t.refuses s.g.ctx tag canc then
    if sp then let _ ← spCheck s ((s.g.s32 b l).toNat : Int) 8 len 0
    else
      let e ← vaCheck ((s.g.s64 b l).toNat : Int) 8 0
      let _ ← withAcc 0 (pieces (s.who l) .load (len / 4096 + 2) e len)
    match ← Mem.of fun t => t.allocFut (some q.ctx) with
    | none => throw .wait
    | some hd => return { v := [(d, hd)] }
  else
    let row ← if sp then do
        let e ← spCheck s ((s.g.s32 b l).toNat : Int) 8 len 0
        let t ← get
        pure (t.spLoad s.g.core s.spBase e len)
      else do
        let e ← vaCheck ((s.g.s64 b l).toNat : Int) 8 0
        loadBytes (s.who l) e len 0
    let t ← get
    let q := t.gq n
    match q.cur.or q.freeBuf with
    | none => throw .wait
    | some buf =>
      match ← Mem.of fun t => t.allocFut (some q.ctx) with
      | none => throw .wait
      | some hd =>
        Mem.mod fun t => t.pushRow n buf { bytes := row, handle := hd, tag := tag, canc := canc, det := s.g.det }
        return { v := [(d, hd)] }

/-- LEAFQ (R422). -/
def execLeafq (h : Hdr) (d : VReg) (a b : Src) (sp : Bool) (s : State) : Out :=
  let i := (Info.tsk h (d :: (Src.regs a ++ Src.regs b)) (len2 a b)).ending
  Out.then (issue i s (atPoint fun s act =>
    s.uniform32 i.len act a fun x =>
      match (release (s.who (lowest act)) 3).on s with
      | (.error (.trap c), s) => s.raiseAll i.len act c
      | (.error .wait, s) => s.waitFor .leafq s.g.iss.todo
      | (.ok _, s) => s.memLanesAs .leafq i act (leafLane s d x.toNat b sp))) State.settle

/-! ## Futures (R160 to R162, R423) -/

/-- FRES (R160, R423). -/
def execFres (h : Hdr) (a b : Src) (s : State) : Out :=
  mop (.tsk h (Src.regs a ++ Src.regs b) (len2 a b)) s fun s l => do
    release (s.who l) 3
    Mem.mod fun t => t.resolve (s.g.s32 a l) (some s.g.ctx) .ready (s.g.s64 b l)
    return {}

/-- WAITF in a lane: it returns, parks or raises PERM (R161, R162, R423). -/
def State.waitLane (s : State) (d : VReg) (a : Src) (c : VReg) (l : Nat) : Option Cause × State :=
  let h := s.g.s32 a l
  match s.ownFut h with
  | none => (some (Cause.at cPERM 0 (h.zeroExtend 64)), s)
  | some f =>
    if f.st.final then
      let s := { s with g := s.g.futWrites l d c f }
      (none, (s.setFutOf h { f with st := .free }).dropClean s.g.core)
    else (none, { s with g := s.g.modLane l fun x => { x with st := .futPark h d c } })

/-- The lanes of a set act in ascending order on the state, each with a trap or none. -/
def State.eachLane (s : State) (n : Nat) (act : BitVec 128) (f : State → Nat → Option Cause × State) : State :=
  let (s', ts) := (lanesIn act s.g.width).foldl (fun (r : State × List (Nat × Cause)) l =>
    match f r.1 l with
    | (none, s) => (s, r.2)
    | (some c, s) => (s, (l, c) :: r.2)) (s, [])
  let bad := laneSet s.g.width fun l => ts.any fun t => t.1 == l
  s'.raise n bad fun l => ((ts.find? fun t => t.1 == l).map (·.2)).getD (.mk0 0)

/-- WAITF (R423). -/
def execWaitf (h : Hdr) (d : VReg) (a : Src) (c : VReg) (s : State) : Out :=
  let n := len1 a
  Out.then (issue (Info.tsk h (d :: c :: Src.regs a) n).ending s (atPoint fun s act =>
    s.eachLane n act fun s l => s.waitLane d a c l)) State.settle

/-- TESTF (R162, R423). -/
def execTestf (h : Hdr) (d : VReg) (a : Src) (s : State) : Out :=
  vop (.tsk h (d :: Src.regs a) (len1 a)) s fun g l =>
    let x := g.s32 a l
    match ({ s with g := g }).ownFut x with
    | none => { trap := some (Cause.at cPERM 0 (x.zeroExtend 64)) }
    | some f => { v := [(d, f.st.code)] }

/-! ## The spatial engine's queue (R270, R424) -/

def State.spq (s : State) (atoll : Nat) : List SpCmd := Store.get [] s.spatial atoll

def State.setSpq (s : State) (atoll : Nat) (q : List SpCmd) : State := { s with spatial := Store.put [] s.spatial atoll q }

/-- One lane of CQRY or DSTEP (R424). -/
def spatialLane (s : State) (step : Bool) (d : VReg) (rec_ oct : DWord) (l : Nat) : Mem LaneOut := do
  release (s.who l) 3
  let t ← get
  let (tag, canc) := s.tagOf s.g.task
  let refused := t.refuses s.g.ctx tag canc
  let atoll := s.g.core / 4
  if !refused ∧ (256 ≤ (t.spq atoll).length ∨ t.g.counterFull 6) then throw .wait
  match ← Mem.of fun t => t.allocFut none with
  | none => throw .wait
  | some hd =>
    if !refused then
      let c : SpCmd := { step := step, rec_ := rec_, oct := oct, handle := hd, task := s.g.task, block := s.g.block
                         gi := s.g.index, ctx := s.g.ctx, tag := tag, canc := canc, body := 0, work := [], pc := s.g.iss.pc
                         priv := s.g.priv }
      Mem.mod fun t =>
        let t := t.setSpq atoll (t.spq atoll ++ [c])
        { t with g := { t.g with async := modifyAt (· + 1) t.g.async 6 } }
    return { v := [(d, hd)] }

/-- CQRY (R424). -/
def execCqry (h : Hdr) (d : VReg) (a b : Src) (s : State) : Out :=
  pop .spatial (.spc h (d :: (Src.regs a ++ Src.regs b)) (len2 a b)) s fun s l =>
    spatialLane s false d (s.g.s64 a l) (s.g.s64 b l) l

/-- DSTEP (R424). -/
def execDstep (h : Hdr) (d : VReg) (a : Src) (s : State) : Out :=
  pop .spatial (.spc h (d :: Src.regs a) (len1 a)) s fun s l => spatialLane s true d (s.g.s64 a l) 0 l

/-! ## Pools and best-plan slots (R164 to R166, R425, R426) -/

/-- An instruction on pool uniform(A): PERM where it is unbound or another context's (R164, R403, R425). -/
def poolOp (i : Info) (a : Src) (s : State) (f : State → Nat → Pool → Nat → Mem LaneOut) : Out :=
  issue i s fun s act =>
    s.uniform32 i.len act a fun x =>
      let n := x.toNat
      if 8 ≤ n ∨ !(s.pool n).bound ∨ (s.pool n).ctx ≠ s.g.ctx then s.raiseAll i.len act (.mk0 cPERM)
      else s.memLanes i act fun l => do
        let t ← get
        f s n (t.pool n) l

/-- POOLA (R164, R425). -/
def execPoola (h : Hdr) (d : VReg) (a : Src) (c : PReg) (s : State) : Out :=
  poolOp (.tsk h (d :: Src.regs a) (len1 a)) a s fun s n p l => do
    let t ← get
    let (tag, canc) := s.tagOf s.g.task
    let r ← if t.refuses s.g.ctx tag canc then pure none else p.take n tag canc
    (s.who l).det! 7
    acquire (s.who l) 3
    match r with
    | none => return { p := [(c, false)] }
    | some i => return { v := vwrites64 d (BitVec.ofNat 64 (p.base + i * p.size)), p := [(c, true)] }

/-- POOLF (R164, R425). -/
def execPoolf (h : Hdr) (a b : Src) (s : State) : Out :=
  poolOp (.tsk h (Src.regs a ++ Src.regs b) (len2 a b)) a s fun s n p l => do
    let va := (s.g.s64 b l).toNat
    let i := (va - p.base) / p.size
    if va < p.base ∨ (va - p.base) % p.size ≠ 0 ∨ p.count ≤ i then permAt va
    release (s.who l) 3
    let x ← p.readMeta n i
    if !x.testBit 63 || bits x 15 0 != (s.tagOf s.g.task).1.toNat then
      Mem.mod fun t => (t.setPool n { t.pool n with dfree := (t.pool n).dfree + 1 }).countDev 17 1
    else p.push n i
    return {}

/-- POOLFT (R165, R425). -/
def execPoolft (h : Hdr) (a b : Src) (s : State) : Out :=
  poolOp (.tsk h (Src.regs a ++ Src.regs b) (len2 a b)) a s fun s n p l => do
    p.sweep n (CSet.of (s.g.s32 b l)) false
    return {}

/-- The VA of best-plan slot i (R166, R432). -/
def State.slotVa (s : State) (ctx : Word) (i : Nat) : Nat := bits (s.cx ctx).bpb.toNat 47 7 * 128 + 16 * i

/-- BESTUPD (R166, R426). -/
def execBestupd (h : Hdr) (a b : Src) (c : VReg) (s : State) : Out :=
  mop (.tsk h (c :: (Src.regs a ++ Src.regs b)) (len2 a b)) s fun s l => do
    let i := (s.g.s32 a l).toNat
    if 8 ≤ i then permAt i
    let va := s.slotVa s.g.ctx i
    let key := (s.g.s32 b l).toNat
    withAcc 2 do
      let w := s.who l
      let p ← translate w .atomic va
      release w 3
      let t ← get
      if (t.cx s.g.ctx).frozen then return {}
      let new := toBytes 4 key ++ List.replicate 4 0 ++ toBytes 8 (s.g.rv64 c l).toNat
      let _ ← atomicAt w 3 p 16 va [] fun old => if fieldAt old 0 4 < key then new else old
      return {}

/-! ## The deadline and CANCEL (R167, R172, R427, R428) -/

/-- DLNSET (R427). -/
def execDlnset (h : Hdr) (a : Src) (s : State) : Out :=
  let n := len1 a
  issue (.tsk h (Src.regs a) n) s fun s act =>
    s.uniform32 n act a fun x =>
      let b := min x.toNat (2 ^ 24 - 1)
      s.modCx s.g.ctx fun c =>
        { c with dln := if b = 0 then c.dln &&& (2 ^ 63 - 1) else BitVec.ofNat 64 (2 ^ 63 + (s.rtc.toNat + b) % 2 ^ 63)
                 frozen := false }

/-- DLNRD; in a DET launch an armed deadline reads 0x00FF_FFFF (R427). -/
def execDlnrd (h : Hdr) (d : KReg) (s : State) : Out :=
  issue (.tsk h [] 1) s fun s _ =>
    let x := (s.cx s.g.ctx).dln.toNat
    let v := if !x.testBit 63 then 0 else if s.g.det then 0xFFFFFF else bits x 62 0 - s.rtc.toNat
    { s with g := s.g.wk d (BitVec.ofNat 32 v) }

/-- CANCEL (R172, R428). -/
def execCancel (h : Hdr) (a : Src) (s : State) : Out :=
  let n := len1 a
  Out.then (issue (.tsk h (Src.regs a) n) s fun s act =>
    s.uniform32 n act a fun x =>
      match (cancelAll s.g.ctx (CSet.of x)).on s with
      | (.error .wait, s) => s.waitFor .retry none
      | (_, s) => if s.g.det then s.detEvent s.g.ctx 9 s.g.iss.pc else s) State.settle

end Sys2Proof.Machine
end

