-- ==== Sys2Proof/Machine/Context.lean ====
section
/-! DEFINITION. Context commands: stopping, saving, ending, releasing and restoring a context, and the release of service traps (R21,
R252, R268, R294 to R302). -/
namespace Sys2Proof.Machine

/-! ## The commands (R297) -/

/-- A context command ends. -/
def State.ctxDone (s : State) (status : Nat) (aflt : Bool) : State :=
  let r := s.creg
  { s with creg := { r with busy := false, status := BitVec.ofNat 3 status, aflt := if status = 3 then aflt else r.aflt, col := none } }

/-- The command in progress: 1 to 4 as CTXCMD names it, and 5 for the loading phase of a restore. -/
def State.ctxStage (s : State) (cmd : Nat) : State :=
  let r := s.creg
  { s with creg := { r with col := some { ctx := r.ctx, cmd := BitVec.ofNat 3 cmd, area := r.area, acks := [] } } }

/-- A write of CTXCMD with a command, ignored while BUSY is set; a command in progress that waited goes on (R297). -/
def ctxOp (s : State) (start : State → State) (again : State → State) : Out :=
  if s.again then .next (again { s with again := false })
  else
    regOp Agent.firm s fun s a =>
      let r := s.creg
      if r.busy then s
      else
        let area := BitVec.ofNat 64 (a.fieldOf r.cmdReg 60 32 * 4096)
        start { s with creg := { r with area := area, ctx := BitVec.ofNat 32 (a.fieldOf r.cmdReg 31 0), busy := true } }

/-- CTXCMD_INVALID (R297). -/
def execCtxcmdInvalid (s : State) : Out := ctxOp s (fun s => s.ctxDone 6 false) fun s => s

/-! ## The collector (R294) -/

/-- The engines that acknowledge. -/
def State.engines (s : State) : List Engine :=
  ((List.range s.part.cores).flatMap fun c =>
      [Engine.vector c, Engine.matrix c, Engine.drain c] ++ (List.range 4).map (Engine.copy c))
    ++ (List.range (s.part.cores / 4)).map Engine.spatial ++ [.gather, .walker, .futures, .det]

/-- A context is being stopped. -/
def Collect.stops (c : Collect) : Bool := c.cmd == 1 || c.cmd == 3

/-- An engine stands at its boundary and has not acknowledged: between steps every engine does, but for a group within a
clause that it must end. -/
def State.mayAck (s : State) (e : Engine) : Bool :=
  match s.creg.col with
  | none => false
  | some c =>
    c.stops && !c.acks.contains e && s.engines.contains e && match e with
      | .vector k => !(s.issuing && s.g.ctx == c.ctx && s.g.core == k)
          && !(s.groups.any fun g => g.ctx == c.ctx && g.core == k && g.midClause)
      | _ => true

/-- The open tiles of the context's queues are posted as timed flushes (R294). -/
def State.flushTiles (s : State) (ctx : Word) : State :=
  (List.range 16).foldl (fun s n => if (s.gq n).bound && (s.gq n).ctx == ctx then s.closeTile n true else s) s

/-- ENGINE_ACKNOWLEDGE (R294). -/
def execEngineAcknowledge (e : Engine) (s : State) : Out :=
  if s.mayAck e then
    match s.creg.col with
    | none => .next s
    | some c =>
      let s := if e == .gather then s.flushTiles c.ctx else s
      .next { s with creg := { s.creg with col := some { c with acks := c.acks ++ [e] } } }
  else .next s

/-- Every engine has acknowledged. -/
def State.collected (s : State) : Bool :=
  match s.creg.col with
  | some c => c.stops && s.engines.all c.acks.contains
  | none => false

/-- The context is told to stop. -/
def State.stopCtx (s : State) (cmd : Nat) : State :=
  (s.modCx s.creg.ctx fun c => { c with run := .stopping }).ctxStage cmd

/-! ## What a context has on the device -/

/-- The tasks of a context. -/
def State.ctxTasks (s : State) (ctx : Word) : List Task := s.tasks.filter fun t => t.ctx == ctx

def State.ctxBlocks (s : State) (ctx : Word) : List Block := s.blocks.filter fun b => b.ctx == ctx

/-- What a core holds of a context's matrix work (R268). -/
def State.matOf (s : State) (ctx : Word) (core : Nat) : MatSave :=
  let c := s.core core
  let bs := s.ctxBlocks ctx
  let mine (o : Nat × Nat) : Bool := bs.any fun b => b.task == o.1 && b.idx == o.2
  let owners := bs.map fun b => s.slotOwner b.task b.idx
  { frames := (List.range 192).filterMap fun f =>
      if ((c.frame f).owner.map mine).getD false then some (f, c.frame f, (List.range 1024).map (c.elem f)) else none
    ops := c.mq.filter fun o => o.ctx == ctx
    drain := c.drain.filter fun d => d.op.ctx == ctx
    aside := c.aside.filter fun d => d.op.ctx == ctx
    slots := c.wslots.filter fun w => owners.contains (w.2.task, w.2.owner)
    progs := (c.dslots.map fun d => { d with users := d.users.filter mine }).filter fun d => !d.users.isEmpty }

def MatSave.isEmpty (m : MatSave) : Bool :=
  m.frames.isEmpty && m.ops.isEmpty && m.drain.isNone && m.aside.isEmpty && m.slots.isEmpty && m.progs.isEmpty

/-- The DET lines of a context's launches in a slice. -/
def State.detOf (s : State) (ctx : Word) (slice : Nat) : List (Nat × DetLine) :=
  s.det.filter fun e =>
    ((s.task (e.1 / 2 ^ 40)).map fun t => t.ctx == ctx).getD false && s.sliceOf (e.1 % 2 ^ 40 * 128) == slice

/-- A section, unless it has no item. -/
def someSection (kind unit : Nat) (empty : Bool) (ws : List Nat) : List Section := if empty then [] else [⟨kind, unit, ws⟩]

/-- The sections of a saved context (R295). -/
def State.ctxSections (s : State) (ctx : Word) : List Section :=
  let bs := s.ctxBlocks ctx
  let run := bs.filter fun b => !b.retired
  let gsOf (b : Block) : List Group := s.allGroups.filter fun g => g.task == b.task && g.block == b.idx
  let cs := List.range s.part.cores
  let ctxs := [⟨1, 0, (s.cx ctx).words s.rtc.toNat (s.graphs.filter fun g => g.ctx == ctx)⟩]
  let blocks := run.map fun b => ⟨2, b.idx, b.words (s.spLoad b.core b.base 0 b.scratch) (gsOf b)⟩
  let groups := run.flatMap fun b => (gsOf b).map fun g => ⟨3, 32 * b.idx + g.index, g.words⟩
  let mats := cs.flatMap fun c => someSection 4 c (s.matOf ctx c).isEmpty (s.matOf ctx c).words
  let copies := cs.flatMap fun c => (List.range 4).flatMap fun ch =>
    let l := ((s.core c).chan ch).filter fun x => x.ctx == ctx && !x.refill
    someSection 5 (4 * c + ch) l.isEmpty (wItems 5 CopyCmd.words l)
  let sps := (List.range (s.part.cores / 4)).flatMap fun a =>
    let l := (s.spq a).filter fun x => x.ctx == ctx
    someSection 6 a l.isEmpty (wItems 6 SpCmd.words l)
  let futs := cs.flatMap fun c =>
    let l := (s.core c).futs.filter fun f => f.2.st != .free && f.2.ctx == ctx
    someSection 7 c l.isEmpty (wList (fun f => f.1 :: f.2.words) l)
  let dets := (List.range s.part.slices).flatMap fun k =>
    someSection 8 k (s.detOf ctx k).isEmpty (wItems 8 (fun e => e.1 / 2 ^ 40 :: e.1 % 2 ^ 40 :: e.2.words) (s.detOf ctx k))
  sortBy Section.le (ctxs ++ blocks ++ groups ++ mats ++ copies ++ sps ++ futs ++ dets)

/-- What the device keeps of a context as it is saved, its blocks and groups in the order of their sections (assumption 12). -/
def State.keepCtx (s : State) (ctx : Word) : State :=
  let bs := s.ctxBlocks ctx
  let bare (g : Group) : Group := { g with v := [], k := [], kshadow := [], p := [], j := [], arrived := [], sh := [], q := [] }
  let gs := (bs.filter fun b => !b.retired).flatMap fun b => s.allGroups.filter fun g => g.task == b.task && g.block == b.idx
  let k : Kept :=
    { owner := ctx, ctx := s.cx ctx, done := bs.filter (·.retired), cards := []
      blocks := sortBy (fun a b => decide (a.idx ≤ b.idx)) (bs.filter fun b => !b.retired)
      groups := (sortBy (fun a b => decide (32 * a.block + a.index ≤ 32 * b.block + b.index)) gs).map bare }
  { s with kept := k :: s.kept.filter fun x => x.owner != ctx }

/-- What the device keeps of a context that is saved or released. -/
def State.keptOf (s : State) (ctx : Word) : Kept :=
  (s.kept.find? fun k => k.owner == ctx).getD { owner := ctx, ctx := Ctx.reset, blocks := [], groups := [], done := [], cards := [] }

/-! ## Safe points (R112) -/

/-- What a live-mask entry names: blocks of v registers, predicates and k registers (R112). -/
structure LiveMask where
  vblk : Nat
  pred : Nat
  k    : Nat
deriving DecidableEq, Repr

/-- The LMI of the safe-point entry that names OFF among the entries lo to hi - 1, which are in ascending OFF (R112). -/
def findSafe (w : Who) (tab off : Nat) : Nat → Nat → Nat → Mem (Option Nat)
  | 0, _, _ => return none
  | fuel + 1, lo, hi =>
    if hi ≤ lo then return none
    else do
      let mid := (lo + hi) / 2
      let e := ofBytes (← engineRead w (tab + 8 * mid) 8)
      if bits e 31 0 = off then return some (bits e 63 32)
      else if bits e 31 0 < off then findSafe w tab off fuel (mid + 1) hi
      else findSafe w tab off fuel lo mid

/-- The live mask of the clause header at an address: none unless its SAFE bit is set and the catalogue has its entry (R112). -/
def liveAt (w : Who) (khdr lpc : Nat) : Mem (Option LiveMask) := do
  let h := ofBytes (← engineRead w lpc 8)
  if !h.testBit 36 then return none
  let bs ← engineRead w (khdr + 40) 40
  let w5 := fieldAt bs 0 8
  let w8 := fieldAt bs 24 8
  let w9 := fieldAt bs 32 8
  match ← findSafe w (khdr + bits w8 31 0) ((lpc - khdr - bits w5 31 0) / 8) 33 0 (bits w8 63 32) with
  | none => return none
  | some i =>
    if bits w9 63 32 ≤ i then return none
    let e ← engineRead w (khdr + bits w9 31 0 + 16 * i) 16
    return some ⟨fieldAt e 0 2, fieldAt e 2 2, fieldAt e 8 8⟩

/-- The group stands at clause headers with every lane that is left. -/
def Group.atHeaders (g : Group) : Bool :=
  !g.handler && !g.stopped && !g.iss.on && g.lanes.any (fun a => !a.st.gone)
    && g.lanes.all fun a => a.st.gone || (a.st == .eligible && a.inside.isNone)

/-- What is live in a group at its safe points; none when one of its headers has no entry, or cannot be read (R112). -/
def Group.liveMask (g : Group) (khdr : Nat) : Mem (Option LiveMask) := do
  if !g.atHeaders then return none
  let w := hwWho g.ctx (g.ctx.getLsbD 31) [13]
  let pcs := (g.lanes.filterMap fun a => if a.st.gone then none else some a.lpc.toNat).eraseDups
  try
    pcs.foldlM (fun m pc => do
      match m with
      | none => return none
      | some m => return (← liveAt w khdr pc).map fun x => ⟨m.vblk ||| x.vblk, m.pred ||| x.pred, m.k ||| x.k⟩) (some ⟨0, 0, 0⟩)
  catch e => match e with
    | .wait => throw .wait
    | .trap _ => return none

/-- A group as a save at a safe point keeps it: registers that are not live hold free values (R112; assumption 24). -/
def Group.trim (g : Group) (m : LiveMask) (c : Nat) : Group :=
  { g with
    v := (List.range (min 1023 (64 * (g.grant + 1)))).flatMap fun r => (List.range g.width).filterMap fun l =>
      let x := if m.vblk.testBit (r / 64) then g.rv (BitVec.ofNat 10 r) l else Config.freeWord (c + 128 * r + l)
      if x = 0 then none else some (128 * r + l, x)
    p := (List.range 15).flatMap fun i => (List.range g.width).filterMap fun l =>
      let x := if m.pred.testBit i then g.rp (BitVec.ofNat 4 i) l else Config.freeBool (c + 128 * i + l)
      if x then some (128 * i + l, x) else none
    k := (List.range 63).filterMap fun i =>
      let x := if m.k.testBit i then g.rk (BitVec.ofNat 6 i) else Config.freeWord (c + 2 ^ 17 + i)
      if x = 0 then none else some (i, x) }

/-- A group as it is saved: whole, or at a safe point without what is not live; which of the two is a free choice (R112). -/
def savedGroup (g : Group) : Mem Group := do
  match (← get).task g.task with
  | none => return g
  | some t =>
    match ← g.liveMask t.khdr with
    | none => return g
    | some m => Mem.of fun s =>
        if Config.freeBool s.freeCtr then (g.trim m (s.freeCtr + 1), { s with freeCtr := s.freeCtr + 2 ^ 18 }) else (g, s.draw)

/-! ## Saving (R298) -/

/-- On whose behalf the collector accesses a save area. -/
def ctxWho (ctx : Word) : Who := hwWho ctx true [13]

/-- A write of a save area, which faults at a DPA out of range and at a POISON grain (R298). -/
def areaPut (w : Who) (dpa : Nat) (bs : List Byte) : Mem Unit :=
  (cuts 32 (bs.length / 32 + 2) dpa bs.length).forM fun c => do
    let s ← get
    if s.outOfRange c.1 then Mem.trap cXLATE 2 0 c.1
    match ← reach w (c.1 / 32) 32 true with
    | .error e =>
      Mem.mod fun s => s.discarded c.1 w.ctx?
      Mem.trap e 0 0 c.1
    | .ok _ => l2Write w c.1 32 (sliceBytes bs (c.1 - dpa) c.2)

/-- The whole area: everything behind the header, then the header, and of it the sector with STATE last (R298). -/
def areaWrite (w : Who) (area : Nat) (head body : List Nat) : Mem Unit := do
  areaPut w (area + 64) (body.flatMap (toBytes 8))
  areaPut w (area + 32) ((head.drop 4).flatMap (toBytes 8))
  areaPut w area ((head.take 4).flatMap (toBytes 8))

/-- The stores of a context's blocks are performed, and an atoll in lagoon mode is written back and invalidated (R197, R298). -/
def ctxFlush (s : State) (ctx : Word) : Mem Unit := (s.ctxBlocks ctx).forM (retireFlush s)

/-- The record of a DPA out of range (R98, R298, R300). -/
def State.areaFault (s : State) (c : Cause) : State :=
  if c.code = cXLATE then s.addrRange 15 0 (bits c.addr.toNat 40 0) (some s.creg.ctx) else s

/-- MiB that n bytes need. -/
def mib (n : Nat) : Nat := cdiv n (2 ^ 20)

/-- The waiting requests for register units are served on every quadrant of some cores (R178). -/
def State.serveAll (s : State) (cores : List Nat) : State :=
  cores.foldl (fun s c => (List.range 4).foldl (fun s q => s.serveRegs c q 64) s) s

/-- Blocks, groups and engine state of a context leave the device; its cards, counters and graphs stay (R294). -/
def State.removeCtx (s : State) (ctx : Word) : State :=
  let bs := s.ctxBlocks ctx
  let s := bs.foldl (fun s b =>
    (s.modCore b.core fun c => c.giveBack (b.task, b.idx)).freeSlots (s.slotOwner b.task b.idx)) s
  let clean (c : Core) : Core :=
    { c with mq := c.mq.filter fun o => o.ctx != ctx, drain := c.drain.filter fun d => d.op.ctx != ctx
             aside := c.aside.filter fun d => d.op.ctx != ctx, chans := c.chans.map fun q => q.filter fun x => x.ctx != ctx
             futs := c.futs.map fun f => if f.2.ctx == ctx then (f.1, { f.2 with st := .free }) else f
             regq := c.regq.filter fun q => !(bs.any fun b => b.task == q.2.1 && b.idx == q.2.2.1)
             detRun := c.detRun.filter fun r => !(bs.any fun b => b.task == r.1), idle := false }
  let launches := (s.ctxTasks ctx).map (·.id)
  let s : State := { s with
           cores := s.cores.map fun e => (e.1, clean e.2), groups := s.groups.filter fun g => g.ctx != ctx
           g := if s.g.ctx == ctx then .idle else s.g, blocks := s.blocks.filter fun b => b.ctx != ctx
           spatial := s.spatial.map fun e => (e.1, e.2.filter fun x => x.ctx != ctx)
           det := s.det.filter fun e => !launches.contains (e.1 / 2 ^ 40)
           lagoon := s.lagoon.filter fun a => !(bs.any fun b => b.core / 4 == a) }
  s.serveAll (bs.map fun b => b.core).eraseDups

/-- The stopped context is saved (R298): its stores are performed, the sections are written and the header last; without room or at a
fault it stays stopped. -/
def State.saveCtx (s : State) : State :=
  let r := s.creg
  let ctx := r.ctx
  let w := ctxWho ctx
  let stay (s : State) : State := s.modCx ctx fun c => { c with run := .stopped }
  match (do
      ctxFlush s ctx
      s.groups.mapM fun g => if g.ctx == ctx then savedGroup g else pure g : Mem (List Group)).on s with
  | (.error _, s) => s
  | (.ok gs, s) =>
    let ss := { s with groups := gs }.ctxSections ctx
    let total := areaTotal ss
    if r.alen.toNat * 2 ^ 20 < total then
      (stay { s with creg := { r with need := BitVec.ofNat 16 (mib total) } }).ctxDone 3 false
    else
      match (areaWrite w r.area.toNat (s.areaHeader ctx ss 1) (areaBody ss)).on s with
      | (.error .wait, s) => s
      | (.error (.trap c), s) => (stay (s.areaFault c)).ctxDone 3 true
      | (.ok _, s) =>
        let s := ({ s with creg := { r with need := BitVec.ofNat 16 (mib total) } } : State).keepCtx ctx
        ((s.removeCtx ctx).modCx ctx fun c => { c with run := .saved }).ctxDone 1 false

/-- CTX_PREEMPT_SAVE (R294, R298). -/
def execCtxPreemptSave (s : State) : Out :=
  ctxOp s
    (fun s => if [RunSt.running, .stopped].contains (s.cx s.creg.ctx).run then s.stopCtx 1 else s.ctxDone 2 false)
    fun s => if s.collected then s.saveCtx else s

/-! ## Ending (R298) -/

/-- The context's cards are dropped, its launches complete with STATUS 2, its graphs end, and its running state is discarded. -/
def State.endContext (s : State) (ctx : Word) : State :=
  let s := (s.ctxTasks ctx).foldl (fun s t =>
    if t.handed = 0 then s.dropCard t true none
    else (s.unreserve t.id).modTask t.id fun t =>
      { t with dropped := true, ended := true, canc := t.canc || decide (t.handed < t.nblocks), retired := t.handed }) s
  let s := s.removeCtx ctx
  let gs := s.graphs.filter fun g => g.ctx == ctx
  let s := gs.foldl (fun s g => (s.modGraph g.id fun g => { g with worst := 2 }).graphCheck g.id) s
  { s with kept := s.kept.filter fun k => k.owner != ctx }.modCx ctx fun c =>
    { c with run := .ended, dln := 0, frozen := false, late := [], expiring := false }

/-- CTX_END (R298). -/
def execCtxEnd (s : State) : Out :=
  ctxOp s (fun s => s.stopCtx 3) fun s =>
    if s.collected then
      match (ctxFlush s s.creg.ctx).on s with
      | (.error .wait, s) => s
      | (_, s) => ((s.endContext s.creg.ctx).ctxDone 7 false).wakeFuts
    else s

/-! ## Reading an area (R295, R300) -/

/-- Words of an area. -/
def areaGet (w : Who) (dpa n : Nat) : Mem (List Nat) := do
  return (words64 (← physRead w dpa n) (n / 8)).map (·.toNat)

/-- The header is that of a saved context of this device, or of a released one (R300). -/
def State.headerIs (s : State) (ctx : Word) (h : List Nat) : Bool :=
  let w (i : Nat) : Nat := h.getD i 0
  let part := match s.part with
    | .nk960 => 0x0960
    | .nk940 => 0x0940
  bits (w 0) 63 32 == smagic && bits (w 0) 7 0 == 1 && bits (w 1) 31 0 == ctx.toNat
    && ((bits (w 0) 15 8 == 1 && bits (w 4) 2 0 == s.own && bits (w 0) 31 16 == part) || bits (w 0) 15 8 == 4)

/-- The header, and behind a good one every word of TOTAL. -/
def State.readArea (s : State) : Mem (List Nat × Bool) := do
  let w := ctxWho s.creg.ctx
  let a := s.creg.area.toNat
  let h ← areaGet w a 64
  if !s.headerIs s.creg.ctx h then return (h, false)
  let r ← areaGet w (a + 64) (roundup (h.getD 2 0) 64 - 64)
  return (h ++ r, true)

/-- What an area holds. -/
structure Area where
  state    : Nat
  saved    : SavedCtx
  blocks   : List (Block × List Byte)
  groups   : List Group
  mats     : List (Nat × MatSave)
  copies   : List (Nat × List CopyCmd)
  sps      : List (Nat × List SpCmd)
  futs     : List (Nat × List (Nat × Fut))
  dets     : List (Nat × Nat × DetLine)
  cards    : List Task
  counters : List (Nat × Nat × Bool)
  /-- Blocks that had retired and wait for their commit. -/
  done     : List Block

/-- The items of an area's words, blocks and groups with the numbers that their UNIT gives; none where they make no area. -/
def parseArea (ws : List Nat) : Option Area := do
  let ss := areaSections ws
  let all {α : Type} (k : Nat) (f : Rd α) : Option (List (Nat × α)) :=
    (ss.filter fun x => x.kind == k).mapM fun x => (f.run' x.words).map fun a => (x.unit, a)
  let c ← (← all 1 rdCtx).head?
  let bs ← all 2 rdBlock
  let gs ← all 3 rdGroup
  let ms ← all 4 rdMat
  let cs ← all 5 (rdItems 5 rdCopy)
  let ps ← all 6 (rdItems 6 rdSp)
  let fs ← all 7 (rdList do let i ← rd; return (i, ← rdFut))
  let ds ← all 8 (rdItems 8 do let t ← rd; let k ← rd; return (t, k, ← rdDet))
  let ts ← all 9 (rdList rdTask)
  let ns ← all 10 (rdList do let n ← rd; let v ← rd; return (n, v, ← rdB))
  return { state := bits (ws.getD 0 0) 15 8, saved := c.2, blocks := bs.map fun b => ({ b.2.1 with idx := b.1 }, b.2.2)
           groups := gs.map fun g => { g.2 with block := g.1 / 32, index := g.1 % 32 }, mats := ms, copies := cs, sps := ps, futs := fs
           dets := ds.flatMap (·.2), cards := ts.flatMap (·.2), counters := ns.flatMap (·.2), done := [] }

/-! ### What the device keeps of an area (assumption 12) -/

/-- Each item with the first thing kept that agrees with it and that no item before it has taken. -/
def matchKept {α β : Type} (agree : α → β → Bool) : List α → List β → List (α × Option β)
  | [], _ => []
  | a :: r, ks => (a, ks.find? (agree a)) :: matchKept agree r (ks.eraseP (agree a))

/-- A saved lane with what is kept of it. -/
def Lane.refill (a k : Lane) : Lane :=
  let st := match a.st, k.st with
    | .accPark d f e w _ _, .accPark _ _ _ _ pc n => .accPark d f e w pc n
    | x, _ => x
  { a with st := st, handler := k.handler, marked := k.marked, stepDue := k.stepDue, inside := k.inside, tclause := k.tclause }

/-- A saved group with what is kept of it. -/
def Group.refill (g k : Group) : Group :=
  { g with
    task := k.task, ctx := k.ctx, core := k.core, role := k.role, enc := k.enc, det := k.det, regext := k.regext, scratch := k.scratch
    cancel := k.cancel, owed := k.owed, stopped := k.stopped, async := k.async, stamps := k.stamps, passed := k.passed, iss := k.iss
    lanes := g.lanes.mapIdx fun i a => ((k.lanes[i]?).map a.refill).getD a }

/-- A saved group of which nothing is kept, of a launch. -/
def Group.ofTask (g : Group) (ctx : Word) (id : Nat) (t : Option Task) : Group :=
  let g := { g with task := id, ctx := ctx }
  match t with
  | none => g
  | some t => { g with role := t.roleOf g.index, enc := t.enc, det := t.isDet, regext := bits (t.h 0) 39 36, scratch := t.scratch }

/-- A saved card with what is kept of it; a card of which nothing is kept has the blocks still out that the area holds. -/
def Task.refill (t : Task) (k : Option Task) (n out : Nat) : Task :=
  match k with
  | some k => { k with handed := t.handed, held := t.held }
  | none => { t with id := n, retired := t.handed - out, done := t.handed - out }

/-- An area with what the device keeps of its context; where it keeps nothing, a block is one of the context's first launch that has
handed out its index. -/
def State.fillIn (s : State) (a : Area) : Area :=
  let ctx := s.creg.ctx
  let k := s.keptOf ctx
  let cards := (matchKept (fun (t u : Task) => t.words == u.words) a.cards k.cards).mapIdx fun n x => x.1.refill x.2 n a.blocks.length
  let launches := if a.state = 4 then cards else s.ctxTasks ctx
  let guess (idx : Nat) : Nat := ((launches.find? fun t => decide (idx < t.handed)).map (·.id)).getD (s.nextId + cards.length)
  let blocks := (matchKept (fun (b : Block × List Byte) (u : Block) => b.1.idx == u.idx) a.blocks k.blocks).map fun x =>
    let b := x.1.1
    let b' : Block := match x.2 with
      | some u => { b with task := u.task, ctx := u.ctx, ngroups := u.ngroups, canc := u.canc }
      | none => { b with task := guess b.idx, ctx := ctx, ngroups := (a.groups.filter fun g => g.block == b.idx).length }
    (b', x.1.2)
  let groups := (matchKept (fun (g u : Group) => g.block == u.block && g.index == u.index) a.groups k.groups).map fun x =>
    match x.2 with
    | some u => x.1.refill u
    | none => let id := guess x.1.block; x.1.ofTask ctx id (launches.find? fun t => t.id == id)
  { a with
    cards := cards, blocks := blocks, groups := groups, done := k.done
    saved := { a.saved with ctx := { a.saved.ctx with frozen := k.ctx.frozen, late := k.ctx.late } } }

/-! ## The checking phase (R300, R301) -/

/-- The context runs, or has something on the device without being saved. -/
def State.ctxLive (s : State) (ctx : Word) : Bool :=
  match (s.cx ctx).run with
  | .stopping | .stopped => true
  | .running =>
    !((s.ctxTasks ctx).isEmpty && (s.ctxBlocks ctx).isEmpty && s.graphs.all fun g => g.ctx != ctx)
  | .saved | .ended => false

/-- STATE is written into the header. -/
def setAreaState (s : State) (n : Nat) : Mem Unit := l2Write (ctxWho s.creg.ctx) (s.creg.area.toNat + 1) 32 [BitVec.ofNat 8 n]

/-- A poisoned restore (R301). -/
def State.poisonedRestore (s : State) (dpa : Nat) : State :=
  match (setAreaState s 3).on s with
  | (.error .wait, s) => s
  | (_, s) =>
    let r := s.creg
    let e := ErrRec.mk0 0x30 ((dpa - r.area.toNat) / 2 ^ 20) 15 0 9
    (((s.report { e with ctx := some r.ctx, dpa := some (dpa / 32 * 32) }).endContext r.ctx).ctxDone 4 false).wakeFuts

/-- The limit of the target that an area exceeds: the SUB of CTX-REFUSED (R21, R299). -/
def State.limitOf (s : State) (a : Area) : Option Nat :=
  let slots := a.mats.flatMap fun m => m.2.slots.map (·.1)
  let fills := a.copies.flatMap fun c => c.2.flatMap CopyCmd.fills
  if a.blocks.any fun b => s.part.scratch < b.1.scratch then some 1
  else if (slots ++ fills).any fun i => s.part.slots ≤ i then some 2
  else if a.counters.any fun n => !s.ownsCounter s.creg.ctx n.1 then some 4
  else none

/-- What a fault of a read of the area comes to. -/
def State.areaBad (s : State) (c : Cause) : State :=
  if c.code = cXLATE then (s.areaFault c).ctxDone 2 false else s.poisonedRestore c.addr.toNat

/-- The registers of the context as it is loaded: of a saved context those of the area, but for its deadline once that has
expired and for DETC, which the device has kept; of a released one the area's, its deadline armed anew (R167, R299). -/
def State.loadRegs (s : State) (a : Area) : State :=
  let x := a.saved.ctx
  s.modCx s.creg.ctx fun c =>
    if a.state = 4 then
      { x with dln := if x.dln.getLsbD 63 then BitVec.ofNat 64 (2 ^ 63 + (s.rtc.toNat + a.saved.rem) % 2 ^ 63) else x.dln }
    else { x with dln := c.dln, detc := c.detc, detce := c.detce, frozen := c.frozen, late := c.late, expiring := c.expiring }

/-- The checking phase (R300). -/
def State.checkArea (s : State) : State :=
  if s.ctxLive s.creg.ctx then s.ctxDone 2 false
  else
    match s.readArea.on s with
    | (.error .wait, s) => s
    | (.error (.trap c), s) => s.areaBad c
    | (.ok (ws, good), s) =>
      if !good then s.ctxDone 2 false
      else
        match parseArea ws with
        | none => s.ctxDone 2 false
        | some a =>
          match s.limitOf a with
          | some n => (s.report { ErrRec.mk0 0x31 n 15 0 0 with ctx := some s.creg.ctx }).ctxDone 5 false
          | none => s.ctxStage 5

/-- CTX_RESTORE (R300): the checking phase. -/
def execCtxRestore (s : State) : Out := ctxOp s (fun s => (s.ctxStage 2).checkArea) State.checkArea

/-! ## The loading phase (R21, R252, R268, R299, R300) -/

/-- The numbers of an area's tasks, graphs and operations are moved beyond those of the device; tasks and graphs of a saved context
are still on the device and keep theirs. -/
def Area.renumber (a : Area) (base : Nat) : Area :=
  let t (i : Nat) : Nat := if a.state = 4 then base + i else i
  let op (o : MOp) : MOp := { o with id := base + o.id, task := t o.task }
  let dr (d : Drain) : Drain := { d with op := op d.op }
  let own (o : Nat × Nat) : Nat × Nat := (t o.1, o.2)
  let gr (g : Graph) : Graph :=
    { g with id := t g.id, out := g.out.map fun e => (t e.1, e.2), await := g.await.map fun e => (t e.1, e.2) }
  let card (c : Task) : Task :=
    { c with id := t c.id, src := match c.src with | .graph g n => .graph (t g) n | x => x }
  let mat (m : MatSave) : MatSave :=
    { frames := m.frames.map fun f => (f.1, { f.2.1 with owner := f.2.1.owner.map own }, f.2.2), ops := m.ops.map op
      drain := m.drain.map dr, aside := m.aside.map dr, slots := m.slots.map fun w => (w.1, { w.2 with task := t w.2.task })
      progs := m.progs.map fun d => { d with users := d.users.map own } }
  { a with
    saved := { a.saved with graphs := a.saved.graphs.map gr }
    done := a.done.map fun b => { b with task := t b.task }
    blocks := a.blocks.map fun b => ({ b.1 with task := t b.1.task }, b.2)
    groups := a.groups.map fun g => { g with task := t g.task }
    mats := a.mats.map fun m => (m.1, mat m.2)
    copies := a.copies.map fun c => (c.1, c.2.map fun x =>
      { x with task := t x.task, after := if x.refill then 0 else base + x.after })
    sps := a.sps.map fun c => (c.1, c.2.map fun x => { x with task := t x.task })
    futs := a.futs.map fun f => (f.1, f.2.map fun x => (x.1, { x.2 with task := t x.2.task }))
    dets := a.dets.map fun d => (t d.1, d.2)
    cards := a.cards.map card }

/-- The first number beyond those of an area that has been renumbered. -/
def Area.bound (a : Area) (base : Nat) : Nat :=
  let ops := a.mats.flatMap fun m => (m.2.ops ++ (m.2.drain.toList ++ m.2.aside).map (·.op)).map (·.id)
  let after := a.copies.flatMap fun c => c.2.map (·.after)
  (ops ++ after ++ a.cards.map (·.id) ++ a.blocks.map (·.1.task) ++ a.saved.graphs.map (·.id)).foldl max base + 1

/-- The ring that holds a context, if one is enabled. -/
def State.ringOf (s : State) (ctx : Word) (old : Nat) : Nat :=
  ((List.range 16).find? fun n => (s.sq n).en && (s.sq n).ctx == ctx).getD old

/-- Counters, cards and graphs of a released context (R299). -/
def State.loadReleased (s : State) (a : Area) : State :=
  if a.state ≠ 4 then s
  else
    let ctx := s.creg.ctx
    let s := a.counters.foldl (fun s n => s.setCounter n.1 { s.counter n.1 with value := n.2.1, under := n.2.2 }) s
    let card (t : Task) : Task :=
      { t with seg := segOf s.part.slices (bits (t.w 1) 63 48), held := t.held && (s.counter t.waitc).value != 0
               src := match t.src with | .ring n => .ring (s.ringOf ctx n) | x => x }
    { s.signal with tasks := s.tasks ++ a.cards.map card
                    graphs := s.graphs ++ a.saved.graphs.map fun g => { g with ring := s.ringOf ctx g.ring } }

/-- Groups placed in ascending index, each with its slots and units (R134, R135). -/
def placeEach : List (Nat × Nat) → List Nat → List Nat → Option (List (List Nat))
  | [], _, _ => some []
  | (need, units) :: r, used, left =>
    match quadFor need units used left with
    | none => none
    | some q =>
      let mine := (freeSlots used q).take need
      (placeEach r (used ++ mine) (modifyAt (· - units) left q)).map (mine :: ·)

/-- A shape register granted again on the target (R252). -/
def Shape.again (p : Shape) (part : Part) (leader : Bool) : Shape :=
  let q := p.grant part leader
  if !p.v ∨ (q.gm = p.gm ∧ q.gn = p.gn) then p else { q with chg := true, em := min p.em q.gm, en := min p.en q.gn }

def Group.regrant (g : Group) (part : Part) (leader : Bool) : Group :=
  (List.range 8).foldl (fun g i =>
    let r : ShReg := BitVec.ofNat 3 i
    if (Shape.of (g.rsh r)).v then g.wsh r ((Shape.of (g.rsh r)).again part leader).word else g) g

/-- A saved block with its groups is admitted on its core under R135 and R136, or must wait for room. -/
def State.admitSaved (s : State) (x : Block × List Byte) (gs : List Group) : Option State :=
  let b := x.1
  let core := b.core % s.part.cores
  let t := s.task b.task
  let lagoon := (t.map Task.lagoon).getD false
  let n := (t.map Task.cohort).getD 0
  let mate (y : Block) : Bool := y.task == b.task && n != 0 && y.idx / n == b.idx / n
  let room := if lagoon then (atollCores core).all fun c => (s.blocksOn c).all mate else !s.lagoon.contains (core / 4)
  let left := (List.range 4).map fun q => 32 - s.unitsUsed core q
  let sorted := sortBy (fun (g h : Group) => decide (g.index ≤ h.index)) gs
  if !room ∨ 64 ≤ (s.blocksOn core).length then none
  else
    match placeEach (sorted.map fun g => (max 1 (g.width / 32), g.units g.grant)) (s.slotsUsed core) left,
      s.placeScratch core b.scratch with
    | some slots, some base =>
      let leader := (t.map Task.twin).getD false && b.rank == 0
      let put (g : Group) (sl : List Nat) : Group :=
        { g.regrant s.part leader with core := core, slot := sl.headD 0, ready := none }
      let b' : Block := { b with core := core, base := base, slots := slots.flatten }
      some { s.spStore core base 0 x.2 with
        blocks := s.blocks ++ [b'], groups := s.groups ++ (sorted.zip slots).map fun p => put p.1 p.2
        lagoon := if lagoon then core / 4 :: s.lagoon.filter (· != core / 4) else s.lagoon }
    | _, _ => none

/-- Every block of an area, or none. -/
def State.admitAll (s : State) (a : Area) : Option State :=
  a.blocks.foldlM (fun s x => s.admitSaved x (a.groups.filter fun g => g.task == x.1.task && g.block == x.1.idx)) s

/-- What several saved cores bring to one core of the target (R21; assumption 61). -/
def Area.matsOn (a : Area) (cores core : Nat) : List MatSave := (a.mats.filter fun m => m.1 % cores == core).map (·.2)

/-- No number of a list occurs in it twice. -/
def distinct (l : List Nat) : Bool := l.eraseDups.length == l.length

/-- Frames, drain programs, slots and future entries of an area are free on the target, for all the saved cores that come to one of its
cores together, and the segments have room. -/
def State.hasRoom (s : State) (a : Area) : Bool :=
  ((List.range s.part.cores).all fun n =>
    let c := s.core n
    let ms := a.matsOn s.part.cores n
    let frames := ms.flatMap fun m => m.frames.map (·.1)
    let slots := ms.flatMap fun m => m.slots.map (·.1)
    distinct frames && distinct slots && frames.all (fun f => (c.frame f).owner.isNone) && slots.all (fun w => (c.wslot w).st == .empty)
      && decide (c.dslots.length + (ms.flatMap (·.progs)).length ≤ 32) && decide ((ms.filter (·.drain.isSome)).length ≤ 1))
  && (a.futs.all fun f => f.2.all fun e => ((s.core f.1).fut e.1).st == .free)
  && (List.range s.part.slices).all fun k => decide (s.segCount k ≤ 1024)

/-- A core's matrix work and copies come back: slots refill, and the drain in progress goes on from its restart state (R268). -/
def State.loadCore (s : State) (progs : List (Nat × Nat × Nat × List Word)) (core : Nat) (m : MatSave) : State :=
  let s := s.modCore (core % s.part.cores) fun c =>
    let c := m.frames.foldl (fun c f =>
      ((f.2.2.zip (List.range 1024)).foldl (fun c e => c.setElem f.1 e.2 e.1) c).setFrame f.1 f.2.1) c
    let c := m.slots.foldl (fun c w => c.setWslot w.1 { w.2 with st := .filling }) c
    let words (d : DSlot) : List Word :=
      ((progs.find? fun p => p.1 == d.asn && p.2.1 == d.khdr && p.2.2.1 == d.n).map (·.2.2.2)).getD d.words
    let c := m.progs.foldl (fun c d => d.users.foldl (fun c u => c.loadProgram d.asn d.khdr d.n u (words d)) c) c
    { c with mq := c.mq ++ m.ops, aside := c.aside ++ m.drain.toList ++ m.aside }
  m.slots.foldl (fun s w => s.refill (core % s.part.cores) w.1 s.creg.ctx) s

/-- The other sections. The entries of a future table keep their saved core, which their handles name: on a part without that core they
are out of reach (assumption 61). -/
def State.loadRest (s : State) (a : Area) : State :=
  let s := a.copies.foldl (fun s c =>
    s.modCore (c.1 / 4 % s.part.cores) fun k => { k with chans := modifyAt (fun q => q ++ c.2) k.chans (c.1 % 4) }) s
  let s := a.sps.foldl (fun s c => let n := c.1 % (s.part.cores / 4); s.setSpq n (s.spq n ++ c.2)) s
  let s := a.futs.foldl (fun s f => s.modCore f.1 fun c => f.2.foldl (fun c e => c.setFut e.1 e.2) c) s
  let s := a.dets.foldl (fun s d => { s with det := Store.insert s.det (2 ^ 40 * d.1 + d.2.1 % 2 ^ 40) d.2.2 }) s
  { s with blocks := s.blocks ++ a.done.map fun b => { b with core := b.core % s.part.cores } }

/-- The drain programs of an area as their kernel images hold them; one that cannot be read is as it was saved. -/
def reloadPrograms (tasks : List Task) (a : Area) (ctx : Word) : Mem (List (Nat × Nat × Nat × List Word)) :=
  (a.mats.flatMap fun m => m.2.progs).mapM fun d => do
    let at_ := ((tasks.find? fun t => t.khdr == d.khdr).map fun t => t.khdr + bits (t.h 6) 31 0 + 64 * d.n).getD 0
    try
      let bs ← readParts (hwWho ctx (ctx.getLsbD 31) [13]) .fetch false 3 at_ 64
      return (d.asn, d.khdr, d.n, (List.range 16).map fun i => BitVec.ofNat 32 (fieldAt bs (4 * i) 4))
    catch e => match e with
      | .wait => throw .wait
      | .trap _ => return (d.asn, d.khdr, d.n, d.words)

/-- The addresses at which lanes of a group are parked in service traps. -/
def Group.services (g : Group) : List DWord := (g.lanes.filterMap fun a => if a.st == .service then some a.lpc else none).eraseDups

/-- The service number of a TRAP word; where it cannot be read it is free (assumption 2). -/
def serviceNumber (g : Group) (pc : DWord) : Mem Nat := do
  try
    let w ← fetchWord (g.fetchWho pc) pc.toNat
    match decode g.enc [w] with
    | some (.trapSvc _ n, _) => return n.toNat
    | _ => Mem.of fun s => ((Config.freeWord s.freeCtr).toNat % 2 ^ 24, s.draw)
  catch e => match e with
    | .wait => throw .wait
    | .trap _ => Mem.of fun s => ((Config.freeWord s.freeCtr).toNat % 2 ^ 24, s.draw)

/-- A fresh entry for each address at which lanes of a restored group park in service traps (R302). -/
def State.serviceEntries (s : State) (ns : List (Nat × Nat × Nat × DWord × Nat)) : State :=
  ns.foldl (fun s x =>
    let (t, b, gi, pc, n) := x
    match s.findGroup t b gi with
    | none => s
    | some g =>
      let m := laneSet g.width fun l => (g.lane l).st == .service && (g.lane l).lpc == pc
      s.trapDue (.service t b gi pc) { groupEntry s g (.mk0 0) pc m false with src := 8, info := n }) s

/-- What befell a context while it was saved takes effect (R155, R158, R167, R169). -/
def State.lateEffect (s : State) (ctx : Word) : Late → State
  | .expiry w => (s.cancelFuts ctx (CSet.of w)).cancelGroups ctx (CSet.of w)
  | .futures hs st value set => s.endFuts hs st value set

/-- The context resumes: what befell it while it was saved takes effect, in order. -/
def State.resumeCtx (s : State) (ctx : Word) : State :=
  let late := (s.cx ctx).late
  let s := { s with kept := s.kept.filter fun k => k.owner != ctx }.modCx ctx fun c => { c with run := .running, late := [] }
  let s := late.foldl (fun s x => s.lateEffect ctx x) s
  ({ s with cores := s.cores.map fun (e : Nat × Core) => (e.1, { e.2 with idle := false }) }).settle.wakeFuts

/-- The loading phase with the area's items; none while there is no room. -/
def State.loadArea (s : State) (a : Area) (progs : List (Nat × Nat × Nat × List Word)) : Option State :=
  let s := { s with nextId := a.bound s.nextId }
  let s := s.loadReleased a
  if s.hasRoom a then
    (s.admitAll a).map fun s => (a.mats.foldl (fun s m => s.loadCore progs m.1 m.2) s).loadRest a
  else none

/-- The items of the area that is loaded, with what the device keeps of them, under numbers beyond the device's. -/
def State.loadItems (s : State) : Mem (Option Area) := do
  let (ws, good) ← s.readArea
  return (if good then parseArea ws else none).map fun a => (s.fillIn a).renumber s.nextId

/-- The atolls that a cohort of the area runs in lagoon mode are written back and invalidated before it starts (R197). -/
def State.enterLagoons (s : State) (a : Area) : Mem Unit :=
  let lagoon (b : Block) : Bool := ((s.task b.task).map Task.lagoon).getD false
  let atolls := (a.blocks.filter fun b => lagoon b.1).map fun b => b.1.core % s.part.cores / 4
  atolls.eraseDups.forM fun n => flushAtoll (ctxWho s.creg.ctx) n

/-- The accesses of a loading: caches written back, the drain programs and the service numbers, read in the context's address space, and
STATE = 2, which a POISON grain discards (R45, R197, R300). -/
def State.loadReads (s : State) (a : Area) : Mem (List (Nat × Nat × Nat × List Word) × List (Nat × Nat × Nat × DWord × Nat)) := do
  s.enterLagoons a
  let progs ← reloadPrograms (s.tasks ++ a.cards) a s.creg.ctx
  let ns ← (a.groups.flatMap fun g => g.services.map fun p => (g, p)).mapM fun x => do
    let n ← serviceNumber x.1 x.2
    return (x.1.task, x.1.block, x.1.index, x.2, n)
  try setAreaState s 2
  catch e => match e with
    | .wait => throw .wait
    | .trap _ => pure ()
  return (progs, ns)

/-- The context's registers as they were: its loading has not begun. -/
def State.unloaded (s : State) (c : Ctx) : State := s.setCx s.creg.ctx c

/-- An area for which there is room is loaded, and the context runs (R300). While an access waits, nothing is loaded. -/
def State.loadNow (s : State) (a : Area) : State :=
  let old := s.cx s.creg.ctx
  let s := s.loadRegs a
  match (s.loadReads a).on s with
  | (.error _, s) => s.unloaded old
  | (.ok (progs, ns), s) =>
    match s.loadArea a progs with
    | none => s.unloaded old
    | some t => ((t.resumeCtx t.creg.ctx).serviceEntries ns).ctxDone 1 false

/-- CTX_RESTORE_LOAD (R300): the loading phase, which waits for room. -/
def execCtxRestoreLoad (s : State) : Out :=
  if (s.creg.col.map (·.cmd)) = some 5 then
    match s.loadItems.on s with
    | (.error .wait, s) => .next s
    | (.error (.trap c), s) => .next (s.areaBad c)
    | (.ok none, s) => .next (s.ctxDone 2 false)
    | (.ok (some a), s) => .next (if (s.loadArea a []).isSome then s.loadNow a else s)
  else .next s

/-! ## Release (R299) -/

/-- The cards of a context in a segment, in priority then list order. -/
def State.segCards (s : State) (ctx : Word) (seg : Nat) : List Task :=
  (List.range 4).flatMap fun p => s.tasks.filter fun t => t.ctx == ctx && t.seg == seg && t.prio == p

/-- The counters that a context owns. -/
def State.ctxCounters (s : State) (ctx : Word) : List (Nat × Counter) := s.counters.filter fun e => e.2.owner == some ctx

/-- The sections of a release: those of the area, with the context's as it stands, and the cards and counters (R299). -/
def State.releaseSections (s : State) (ctx : Word) (old : List Section) : List Section :=
  let cards := (List.range s.part.slices).flatMap fun k =>
    someSection 9 k (s.segCards ctx k).isEmpty (wList Task.saved (s.segCards ctx k))
  let cs := s.ctxCounters ctx
  let counters := someSection 10 0 cs.isEmpty (wList (fun e => [e.1, e.2.value, wB e.2.under]) cs)
  let own : Section := ⟨1, 0, (s.cx ctx).words s.rtc.toNat (s.graphs.filter fun g => g.ctx == ctx)⟩
  sortBy Section.le (own :: (old.filter fun x => x.kind != 1) ++ cards ++ counters)

/-- Cards, counters, graphs and registers leave the device (R299); what the area does not say of them is kept (assumption 12). -/
def State.handOver (s : State) (ctx : Word) : State :=
  let k := { s.keptOf ctx with ctx := s.cx ctx, cards := (List.range s.part.slices).flatMap (s.segCards ctx) }
  let s := { s with kept := k :: s.kept.filter fun x => x.owner != ctx }
  let s := (s.ctxTasks ctx).foldl (fun s t => s.forgetTask t.id) s
  let s := (s.ctxCounters ctx).foldl (fun s e => s.setCounter e.1 { e.2 with owner := none }) s
  ({ s with graphs := s.graphs.filter fun g => g.ctx != ctx }).setCx ctx { Ctx.reset with run := .saved }

/-- The header that a release asks for (R299). -/
def State.releasable (s : State) (h : List Nat) : Bool :=
  let w (i : Nat) : Nat := h.getD i 0
  bits (w 0) 15 8 == 1 && bits (w 4) 2 0 == s.own && bits (w 1) 31 0 == s.creg.ctx.toNat

/-- What stands behind the header of an area, and the offsets of its sectors that cannot be read (R299; assumption 61). -/
def areaRest (w : Who) (area n : Nat) : Mem (List Nat × List Nat) := do
  let parts ← (cuts 32 (n / 32 + 2) 64 (n - 64)).mapM fun c => do
    try return (← areaGet w (area + c.1) 32, none)
    catch e => match e with
      | .wait => throw .wait
      | .trap x => if x.code = cXLATE then throw e else return ([0, 0, 0, 0], some c.1)
  return (parts.flatMap (·.1), parts.filterMap (·.2))

/-- A sector of an area is lost where it has been moved to (R45, R73, R299; assumption 61). -/
def State.loseSector (s : State) (dpa : Nat) : State :=
  let k := dpa / 32
  if homeDev k = s.own then s.poison (homeSec k) 32 else s.evictRemote (holder k 32) 32 true

/-- A release writes the area anew: the header with STATE = 4 last. A sector that cannot be read stays lost (R299). -/
def State.releaseWrite (s : State) (head : List Nat) (rest : List Nat × List Nat) : State :=
  let r := s.creg
  let ctx := r.ctx
  let ss := s.releaseSections ctx (areaSections (head ++ rest.1))
  let total := areaTotal ss
  let moved := dirEnd ss.length - dirEnd (bits (head.getD 1 0) 63 32)
  if r.alen.toNat * 2 ^ 20 < total then ({ s with creg := { r with need := BitVec.ofNat 16 (mib total) } }).ctxDone 3 false
  else
    let new := modifyAt (fun _ => head.getD 3 0) (s.areaHeader ctx ss 4) 3
    match (areaWrite (ctxWho ctx) r.area.toNat new (areaBody ss)).on s with
    | (.error .wait, s) => s
    | (.error (.trap c), s) => (s.areaFault c).ctxDone 3 true
    | (.ok _, s) =>
      (((rest.2.foldl (fun s o => s.loseSector (r.area.toNat + o + moved)) s)).handOver ctx).ctxDone 1 false

/-- CMD 4 (R299): the header of the area is that of a saved context of this device, or the command ends with STATUS 2; an area out of
range has a record too (R98). -/
def State.releaseCtx (s : State) : State :=
  let w := ctxWho s.creg.ctx
  match (areaGet w s.creg.area.toNat 64).on s with
  | (.error .wait, s) => s
  | (.error (.trap c), s) => (s.areaFault c).ctxDone 2 false
  | (.ok h, s) =>
    if !s.releasable h ∨ (s.cx s.creg.ctx).run ≠ .saved then s.ctxDone 2 false
    else
      match (areaRest w s.creg.area.toNat (roundup (h.getD 2 0) 64)).on s with
      | (.error .wait, s) => s
      | (.error (.trap c), s) => (s.areaFault c).ctxDone 2 false
      | (.ok rest, s) => if rest.2.any fun o => decide (o < dirEnd (bits (h.getD 1 0) 63 32)) then s.ctxDone 2 false else s.releaseWrite h rest

/-- CTX_RELEASE (R299). -/
def execCtxRelease (s : State) : Out := ctxOp s (fun s => (s.ctxStage 4).releaseCtx) State.releaseCtx

/-! ## SVCREL (R302) -/

/-- The group that a write of SVCREL names, and its lanes that are parked at SVCPC. -/
def State.svcLanes (s : State) (a : Access) : Option (Group × BitVec 128) :=
  let v := a.fieldOf 0 63 0
  (s.allGroups.find? fun g => g.core == bits v 62 58 && g.slot == bits v 57 52 && g.ctx.toNat == bits v 31 0).bind fun g =>
    let m := laneSet g.width fun l => (g.lane l).st == .service && (g.lane l).lpc == s.creg.svcpc
    if m = 0 then none else some (g, m)

/-- A parked lane resumes at a branch target (R182, R302). -/
def Lane.resume (a : Lane) (pc : DWord) : Lane := { a with lpc := pc, yld := false, inside := none }.wake

/-- SVCREL with KILL = 0 (R302). -/
def execSvcrelResume (s : State) : Out :=
  regOp Agent.firm s fun s a =>
    match s.svcLanes a with
    | none => s
    | some (g, m) => (s.mapGroup g.task g.block g.index fun g => g.modLanes m fun _ x => x.resume s.creg.svctgt).settle

/-- SVCREL with KILL = 1: the lanes are killed, and the launch completes with STATUS 2 (R114, R302). -/
def execSvcrelKill (s : State) : Out :=
  regOp Agent.firm s fun s a =>
    match s.svcLanes a with
    | none => s
    | some (g, m) =>
      let s := s.mapGroup g.task g.block g.index fun g => g.endLanes m .killed
      ((s.modTask g.task fun t => { t with ended := true }).barriers g.task g.block).settle

end Sys2Proof.Machine
end

