-- ==== Sys2Proof/Machine/CrossLane.lean ====
section
/-! DEFINITION. The cross-lane instructions (R371 to R377). Every read precedes every write (R372). -/
namespace Sys2Proof.Machine

/-- The segment size (R372). -/
def segSize (width : Nat) (seg : BitVec 3) : Nat :=
  if seg = 0 ∨ width ≤ 2 ^ seg.toNat then width else 2 ^ seg.toNat

/-- The source position of LXCH (R373). -/
def lxPos (mode : LxMode) (q : Nat) (b : Word) : Int :=
  match mode with
  | .at => b.toNat
  | .below => (q : Int) - b.toNat
  | .above => (q : Int) + b.toNat
  | .flip => ((q ^^^ b.toNat : Nat) : Int)

/-- LXCH (R373). -/
def execLxch (h : Hdr) (d : VReg) (a b : Src) (seg : BitVec 3) (mode : LxMode) (s : State) : Out :=
  vop (fInfo2 h d a b) s fun g l =>
    let sz := segSize g.width seg
    let q := l % sz
    let p := lxPos mode q (g.s32 b l)
    v32 d (g.s32 a (if 0 ≤ p ∧ p < sz then l - q + p.toNat else l))

/-- SLIDE (R374). -/
def execSlide (h : Hdr) (d : VReg) (a b : Src) (c : KReg) (s : State) : Out :=
  issue (fInfo2 h d a b) s fun s act =>
    s.uniform32 (len2 a b) act b fun x =>
      s.lanesOut (len2 a b) act fun l =>
        let p : Int := (l : Int) - x.toInt
        v32 d (if 0 ≤ p ∧ p < s.g.width then s.g.s32 a p.toNat else s.g.rk c)

/-- The exact integer combination of RED's integer operations; the bitwise ones are taken on the 32 bits (R375). -/
def redInt (op : RedOp) (n : Bool) (x y : Int) : Int :=
  match op with
  | .add => x + y
  | .min => min x y
  | .max => max x y
  | .and => ival n (BitVec.ofInt 32 x &&& BitVec.ofInt 32 y)
  | .or => ival n (BitVec.ofInt 32 x ||| BitVec.ofInt 32 y)
  | .xor => ival n (BitVec.ofInt 32 x ^^^ BitVec.ofInt 32 y)
  | _ => x

/-- The running value of a reduction: an exact integer or an FP32 code, and whether a step produced a NaN. -/
structure Acc where
  int : Int
  fp  : Nat
  nan : Bool

/-- One step of a reduction by the next lane's word (R375). -/
def Acc.step (op : RedOp) (n ftz : Bool) (a : Acc) (w : Word) : Acc :=
  match op with
  | .fadd =>
    let x := ffF32.value ftz a.fp
    let y := ffF32.value ftz w.toNat
    let r := x.add .rn y
    { a with fp := ffF32.round .rn false ftz r, nan := a.nan || (r.isNan && !x.isNan && !y.isNan) }
  | .fmax => { a with fp := fpick ffF32 true ftz a.fp w.toNat }
  | _ => { a with int := redInt op n a.int (ival n w) }

/-- The start of a reduction at the lowest active lane; that of .fadd is the lane's value as an FP32 result, its NaN canonical and its
subnormal flushed under FTZ (R239, R241, R375). -/
def Acc.first (op : RedOp) (n ftz : Bool) (w : Word) : Acc :=
  { int := ival n w
    fp := if op = .fmax then fpick ffF32 true ftz w.toNat w.toNat
          else ffF32.round .rn false ftz (ffF32.value ftz w.toNat)
    nan := false }

/-- The reduction of a list of words, none for an empty one. -/
def reduce (op : RedOp) (n ftz : Bool) : List Word → Option Acc
  | [] => none
  | w :: ws => some (ws.foldl (Acc.step op n ftz) (Acc.first op n ftz w))

/-- The result word of a reduction with its clamp (R375). -/
def Acc.result (op : RedOp) (n sat : Bool) (a : Acc) : Word × Bool :=
  match op with
  | .fadd => (BitVec.ofNat 32 a.fp, false)
  | .fmax => (BitVec.ofNat 32 a.fp, false)
  | .add => intRes 32 n sat a.int
  | _ => (BitVec.ofInt 32 a.int, false)

/-- The identity of an operation (R375). -/
def redIdentity (op : RedOp) (n : Bool) : Word :=
  match op with
  | .add | .or | .xor => 0
  | .min => BitVec.ofInt 32 (tmax 32 n)
  | .max => BitVec.ofInt 32 (tmin 32 n)
  | .and => 0xFFFFFFFF
  | .fadd => 0x80000000
  | .fmax => 0xFF800000

/-- The words of the active lanes of lane l's segment below an index. -/
def segWords (g : Group) (act : BitVec 128) (a : Src) (sz l upto : Nat) : List Word :=
  ((List.range sz).map fun i => l - l % sz + i).filterMap fun m =>
    if act.getLsbD m && decide (m < upto) then some (g.s32 a m) else none

/-- A lane's outcome from its reduction, an empty one giving the identity. -/
def redOut (d : VReg) (op : RedOp) (n sat : Bool) (r : Option Acc) : LaneOut :=
  match r with
  | none => v32 d (redIdentity op n)
  | some a => { v := [(d, (a.result op n sat).1)], sat := (a.result op n sat).2, nan := a.nan }

/-- RED (R375). A one-lane .fadd returns the lane's own value, its NaN made canonical and its subnormal flushed as an FP32 result. -/
def execRed (h : Hdr) (d : VReg) (a : Src) (seg : BitVec 3) (op : RedOp) (n sat : Bool) (s : State) : Out :=
  issue (fInfo1 h d a) s fun s act =>
    let sz := segSize s.g.width seg
    s.lanesOut (len1 a) act fun l => redOut d op n sat (reduce op n s.g.ftz (segWords s.g act a sz l s.g.width))

/-- SCAN (R376). -/
def execScan (h : Hdr) (d : VReg) (a : Src) (seg : BitVec 3) (excl : Bool) (op : RedOp) (n sat : Bool) (s : State) : Out :=
  issue (fInfo1 h d a) s fun s act =>
    let sz := segSize s.g.width seg
    s.lanesOut (len1 a) act fun l =>
      redOut d op n sat (reduce op n s.g.ftz (segWords s.g act a sz l (if excl then l else l + 1)))

/-- BCAST (R377). -/
def execBcast (h : Hdr) (d : VReg) (a b : Src) (s : State) : Out :=
  issue (fInfo2 h d a b) s fun s act =>
    s.uniform32 (len2 a b) act b fun x =>
      s.lanesOut (len2 a b) act fun _ => v32 d (if x.toNat < s.g.width then s.g.s32 a x.toNat else 0)

/-- KRDL (R377). -/
def execKrdl (h : Hdr) (d : KReg) (a : VReg) (b : Src) (s : State) : Out :=
  issue (.vec h (a :: Src.regs b) (len1 b)) s fun s act =>
    s.uniform32 (len1 b) act b fun x =>
      s.onceOut (len1 b) act { k := [(d, if x.toNat < s.g.width then s.g.rv a x.toNat else 0)] }

end Sys2Proof.Machine
end

