-- ==== Sys2Proof/Machine/Repair.lean ====
section
/-! DEFINITION. The memory controllers' own accesses, scrub, retraining and repair in service (R38, R42 to R45, R49 to R54). -/
namespace Sys2Proof.Machine

/-! ## Reads and writes of a sector (R38, R42 to R45) -/

/-- The grain of an access that names none: a free choice of the three sizes (assumption 17). -/
def State.freeGrain (s : State) : Nat × State := (grainBytes ((Config.freeWord s.freeCtr).toNat % 3), s.draw)

/-- A sector of the installed memory. -/
def State.sectorHere (s : State) (sec : Nat) : Bool := decide (32 * sec < s.installed)

/-- SECTOR_READ (R42 to R44): corrected and written back, or poisoned, with the records. -/
def execSectorRead (sector : Nat) (ctx : Option Word) (s : State) : Out :=
  if s.sectorHere sector then
    let (n, s) := s.freeGrain
    .next (s.readChecked sector n ctx).2
  else .next s

/-- SECTOR_WRITE (R38, R45): a whole sector is written, a part of one merged; a write to a POISON grain is discarded. -/
def execSectorWrite (sector : Nat) (mask : Word) (data : List Byte) (ctx : Option Word) (s : State) : Out :=
  if s.sectorHere sector then
    let (n, s) := s.freeGrain
    let g := s.dpaOf (holder sector n) / 32
    let (x, s) := if mask = -1 then s.gstateFull g n ctx else s.gstate g n ctx
    if x.st = stPOISON then .next (s.discarded (s.dpaOf sector) ctx)
    else .next (s.mergeSector sector n mask.toNat data (s.storedCoh sector) ctx)
  else .next s

/-! ## Scrub (R49, R50) -/

/-- Sectors of a channel. -/
def State.chanSectors (s : State) : Nat := s.cfg.gib * 2 ^ 30 / 32

/-- Passes that every channel has completed (R54). -/
def State.passes (s : State) : Nat :=
  (List.range s.part.channels).foldl (fun m c => min m ((s.chan c).scrub / s.chanSectors)) ((s.chan 0).scrub / s.chanSectors)

/-- The next sector of a channel's pass has been read; at the end of the pass the counts of its rows start anew. -/
def State.scrubOn (s : State) (ch : Nat) : State :=
  let c := s.chan ch
  let n := c.scrub + 1
  let rows := if n % s.chanSectors = 0 then c.rows.map fun r => { r with pass := 0 } else c.rows
  let s := s.setChan ch { c with scrub := n, rows := rows }
  { s with mscrub := BitVec.ofNat 32 (bits s.mscrub.toNat 31 16 * 2 ^ 16 + s.passes % 2 ^ 16) }

/-- SCRUB_SECTOR (R49): the next sector of the channel in line order, with no requester. -/
def execScrubSector (ch : Nat) (s : State) : Out :=
  if s.mscrub.getLsbD 31 && decide (ch < s.part.channels) then
    let i := (s.chan ch).scrub % s.chanSectors
    let sec := s.lineAddr ch (i / 4) / 32 + i % 4
    let (n, s) := s.freeGrain
    .next ((s.readChecked sec n none).2.scrubOn ch)
  else .next s

/-! ## Lanes (R51) -/

/-- The spare lane of a sub-channel is in use. -/
def MChan.spareUsed (c : MChan) (b : Bool) : Bool := if b then c.brem else c.arem

/-- A lane is steered to the spare lane, and the sub-channel retrains, so that its counts start anew (R50, R51). Every remap is kept in the
repair area, one made in service too, and is reloaded at boot (assumption 6). -/
def State.remap (s : State) (ch : Nat) (b : Bool) (lane : Nat) : State :=
  let c := s.chan ch
  let x := BitVec.ofNat 5 lane
  let c := if b then { c with brem := true, blane := x } else { c with arem := true, alane := x }
  let c := { c with laneCe := c.laneCe.filter fun e => decide (12 ≤ e.1) != b }
  { s.setChan ch c with fw := { s.fw with remaps := s.fw.remaps ++ [(ch, b, lane)] } }

/-- The record of a repair (R98); the code of REPAIR is that of the repair done (assumption 6). -/
def State.repairRecord (s : State) (ch status cmd repair : Nat) : State :=
  s.report (ErrRec.mk0 6 (status + 16 * cmd) 0 ch repair)

/-- A lane whose margin is too low is remapped while the spare is free; the counts since the last retrain start anew (R50, R51). -/
def State.retrained (s : State) (ch : Nat) (bad : Option (Bool × Nat)) : State :=
  let s := s.setChan ch { s.chan ch with laneCe := [] }
  match bad with
  | some (b, lane) =>
    if lane < 12 ∧ ¬ (s.chan ch).spareUsed b then (s.remap ch b lane).repairRecord ch 1 3 5 else s
  | none => s

/-- MEMORY_RETRAIN (R51). -/
def execMemoryRetrain (ch : Nat) (bad : Option (Bool × Nat)) (s : State) : Out :=
  if ch < s.part.channels then .next (s.retrained ch bad) else .next s

/-! ## Commands (R52 to R54) -/

/-- The channel of an access to MREPc. -/
def Access.chan (a : Access) : Nat :=
  match regAt a.off with
  | .mrep c => c
  | _ => 0

/-- A command ends with a STATUS. -/
def State.mrepEnd (s : State) (ch : Nat) (status : Nat) : State :=
  s.setChan ch { s.chan ch with busy := false, status := BitVec.ofNat 3 status, cmd := 0 }

/-- A write of MREPc with a command: ignored while BUSY, invalid with a LANE above 11, else the fields are stored and the command
starts, with STATUS 0 until it ends (R54; assumption 6). -/
def mrepOp (s : State) (cmd : Nat) (start : State → Nat → State) : Out :=
  regOp Agent.firm s fun s a =>
    let ch := Access.chan a
    let m := s.chan ch
    if m.busy then s
    else if 11 < a.fieldOf m.rep 34 30 then s.mrepEnd ch 6
    else
      start (s.setChan ch { m with
        busy := true, status := 0, cmd := BitVec.ofNat 4 cmd, sub := a.fieldOf m.rep 40 40 == 1
        lane := BitVec.ofNat 5 (a.fieldOf m.rep 34 30), line := BitVec.ofNat 26 (a.fieldOf m.rep 25 0) }) ch

/-- SOFT_ROW_REPAIR (R52). -/
def execSoftRowRepair (s : State) : Out := mrepOp s 1 fun s _ => s

/-- A context runs: it has cards, graphs or resident blocks. -/
def State.contextsRun (s : State) : Bool := !s.tasks.isEmpty || !s.blocks.isEmpty || !s.graphs.isEmpty

/-- HARD_ROW_REPAIR (R52): refused while a context runs. -/
def execHardRowRepair (s : State) : Out :=
  mrepOp s 2 fun s ch => if s.contextsRun then (s.mrepEnd ch 3).repairRecord ch 3 2 0 else s

/-- LANE_REMAP (R51). -/
def execLaneRemap (s : State) : Out := mrepOp s 3 fun s _ => s

/-- CLEAR_POISON (R53). -/
def execClearPoison (s : State) : Out := mrepOp s 4 fun s _ => s

/-- RETRAIN (R51). -/
def execRetrain (s : State) : Out := mrepOp s 5 fun s _ => s

/-- MREP_INVALID_COMMAND (R54): STATUS 6 at once, nothing else. -/
def execMrepInvalidCommand (s : State) : Out :=
  regOp Agent.firm s fun s a =>
    let ch := Access.chan a
    if (s.chan ch).busy then s else s.mrepEnd ch 6

/-- The sectors of a memory row on its sub-channel that are installed (R50). -/
def State.rowSectors (s : State) (ch line : Nat) (b : Bool) : List Nat :=
  ((List.range 64).map fun i => s.lineAddr ch (line / 32 * 32 + i / 2) / 32 + 2 * (i % 2) + b.toNat).filter s.sectorHere

/-- A row is copied through the repair buffer: true when a sector read uncorrectable, whose grain is then poisoned (R52). -/
def State.copyRow (s : State) (secs : List Nat) : Bool × State :=
  secs.foldl (fun (r : Bool × State) sec =>
    let (n, s) := r.2.freeGrain
    match s.readChecked sec n none with
    | (.ok (d, c), s) => (r.1, s.writeSector sec d c)
    | (.error _, s) => (true, s)) (false, s)

/-- Row repair, when a spare row is left; how many a bank group has is open (assumption 6). -/
def State.repairRow (s : State) (ch : Nat) (soft : Bool) : State :=
  let c := s.chan ch
  let cmd := if soft then 1 else 2
  if Config.freeBool s.freeCtr then (s.draw.mrepEnd ch 2).repairRecord ch 2 cmd 0
  else
    let row := 2 * (c.line.toNat / 32) + c.sub.toNat
    let (bad, s) := s.draw.copyRow (s.rowSectors ch c.line.toNat c.sub)
    let c := s.chan ch
    let s := if soft then s.setChan ch { c with soft := row :: c.soft } else s.setChan ch { c with hard := row :: c.hard }
    let s := if soft then { s with fw := { s.fw with repairs := s.fw.repairs ++ [(ch, row)] } } else s
    let st := if bad then 4 else 1
    (s.mrepEnd ch st).repairRecord ch st cmd (if soft then 6 else 7)

/-- The line is written with zero data in HOME-I, and L2 holds no copy of it (R53). -/
def State.clearLine (s : State) (ch : Nat) : State :=
  let a := s.lineAddr ch (s.chan ch).line.toNat
  (((List.range 4).map fun i => a / 32 + i).filter s.sectorHere).foldl (fun s sec =>
    let s := s.writeSector sec (List.replicate 32 0) 0
    { s with l2 := Store.erase s.l2 (s.dpaOf sec / 32) }) s

/-- A home transaction holds a grain of the line that is to be cleared. -/
def State.lineBusy (s : State) (ch : Nat) : Bool :=
  let a := s.dpaOf (s.lineAddr ch (s.chan ch).line.toNat / 32) / 32
  s.coh.txs.any fun t => decide (t.grain < a + 4) && decide (a < t.grain + t.gsize / 32)

/-- A free lane that training finds below its limit, or none (R51). -/
def State.freeBad (s : State) : Option (Bool × Nat) × State :=
  if Config.freeBool s.freeCtr then (some (Config.freeBool (s.freeCtr + 1), (Config.freeWord s.freeCtr).toNat % 12), s.draw.draw)
  else (none, s.draw)

/-- The lane found lies on a sub-channel whose spare is in use (R51). -/
def State.noSpare (s : State) (ch : Nat) (bad : Option (Bool × Nat)) : Bool :=
  match bad with
  | some (b, _) => (s.chan ch).spareUsed b
  | none => false

/-- MREP_COMMAND_COMPLETE (R51 to R54): the channel's command takes its effect and ends. -/
def execMrepCommandComplete (ch : Nat) (s : State) : Out :=
  let c := s.chan ch
  if c.busy then
    match c.cmd.toNat with
    | 1 => .next (s.repairRow ch true)
    | 2 => .next (s.repairRow ch false)
    | 3 =>
      if c.spareUsed c.sub then .next ((s.mrepEnd ch 2).repairRecord ch 2 3 0)
      else .next (((s.remap ch c.sub c.lane.toNat).mrepEnd ch 1).repairRecord ch 1 3 5)
    | 4 => if s.lineBusy ch then .next s else .next ((s.clearLine ch |>.mrepEnd ch 1).repairRecord ch 1 4 8)
    | _ =>
      let (bad, s) := s.freeBad
      let st := if s.noSpare ch bad then 2 else 1
      .next (((s.retrained ch bad).mrepEnd ch st).repairRecord ch st 5 0)
  else .next s

end Sys2Proof.Machine
end

