-- ==== Sys2Proof/Machine/Firmware.lean ====
section
/-! DEFINITION. Boot, the lockstep pair, the firmware mailbox and the replacement of Docent (R22, R60 to R62, R88 to R94). -/
namespace Sys2Proof.Machine

/-! ## Flash (R88) -/

/-- A kind of image: 0 configuration record, 1 Curator, 2 Docent. -/
def Firm.slots (f : Firm) (kind : Nat) : List (List Byte) :=
  match kind with
  | 0 => f.record
  | 1 => f.curator
  | _ => f.docent

/-- The slot that the active mark of a kind names. -/
def Firm.mark (f : Firm) (kind : Nat) : Nat := f.active.getD kind 0 % 2

/-- An image is written to the slot that the active mark does not name, and the mark moves there (R93, R94). -/
def Firm.install (f : Firm) (kind : Nat) (img : List Byte) : Firm :=
  let n := 1 - f.mark kind
  let put (l : List (List Byte)) : List (List Byte) := (List.range 2).map fun i => if i = n then img else l.getD i []
  let f := match kind with
    | 0 => { f with record := put f.record }
    | 1 => { f with curator := put f.curator }
    | _ => { f with docent := put f.docent }
  { f with active := (List.range 3).map fun k => if k = kind then n else f.mark k }

/-- The image in use of a kind. -/
def Firm.inUse (f : Firm) (kind : Nat) : List Byte := f.running.getD kind []

/-- An image of a kind comes into use. -/
def Firm.use (f : Firm) (kind : Nat) (img : List Byte) : Firm :=
  { f with running := (List.range 3).map fun k => if k = kind then img else f.inUse k }

/-- The version floor of a kind in the configuration record in use (R88). -/
def Firm.floor (f : Firm) (kind : Nat) : Nat := Config.recordField (f.inUse 0) (10 + kind)

/-- The STATUS with which verification of an image fails, if it does: 3 the signature, 4 the version floor (R88, R92). -/
def Firm.imageFault (f : Firm) (kind : Nat) (img : List Byte) : Option Nat :=
  let signed := if kind = 2 then Config.verifiesUnder (f.inUse 0) img else Config.verifies (kind + 1) img
  if !signed then some 3
  else if kind ≠ 0 ∧ Config.imageVersion img < f.floor kind then some 4
  else none

/-- The first slot of a kind that verifies, the marked one first; each slot that fails is recorded (R88, R98). -/
def State.loadImage (s : State) (kind : Nat) : Option (List Byte) × State :=
  let m := s.fw.mark kind
  [m, 1 - m].foldl (fun (r : Option (List Byte) × State) slot =>
    match r.1 with
    | some _ => r
    | none =>
      let img := (s.fw.slots kind).getD slot []
      match r.2.fw.imageFault kind img with
      | none => (some img, r.2)
      | some _ => (none, r.2.report (ErrRec.mk0 0x41 (kind + 1 + 256 * slot) 12 0 0))) (none, s)

def State.setBoot (s : State) (n : Nat) : State := { s with fw := { s.fw with boot := BitVec.ofNat 4 n } }

/-! ## Boot (R88) -/

/-- The values of a configuration record, each within its legal range (R10; assumption 5). -/
def CfgRec.of (rec_ : List Byte) : CfgRec :=
  let f (n : Nat) : Nat := Config.recordField rec_ n
  let dev := f 0 % 8
  { part := if f 7 % 2 = 0 then .nk960 else .nk940, stepg := f 8 % 256, bar := f 11 % 7
    devid := BitVec.ofNat 3 dev, present := BitVec.ofNat 8 (f 1 % 256 ||| 2 ^ dev)
    budget := BitVec.ofNat 9 (max 150 (min 350 (f 2))), gib := 2 ^ (1 + f 3 % 3)
    scrub := BitVec.ofNat 32 (f 4 % 2 * 2 ^ 31 + max 1 (f 5 % 256) * 2 ^ 20 + max 1 (f 6 % 16) * 2 ^ 16)
    sroute := BitVec.ofNat 32 (f 9) &&& 0xBBBBBBBB }

/-- Stage 1: the record's values stand in the registers whose reset value is cfg (R34, R54, R61, R62). -/
def State.applyRecord (s : State) (c : CfgRec) : State :=
  { s with cfg := c, mscrub := c.scrub
           pwr := { s.pwr with budget := c.budget, eff := c.budget }
           coh := { s.coh with devid := c.devid, present := 1#8 <<< c.devid.toNat, sroute := c.sroute } }

/-- Stage 2: the identity is reconstructed or not, which is free. The key derived with the helper data goes to the key register; without
it a FW-ID record is written, and the key register keeps what it holds (R89). -/
def State.identify (s : State) : State :=
  if Config.freeBool s.freeCtr then { s.draw with fw := { s.fw with idok := true, key := some (Config.identityKey s.fw.helper) } }
  else ({ s.draw with fw := { s.fw with idok := false } }).report (ErrRec.mk0 0x42 0 12 0 0)

/-- The lanes remapped at a channel, from the repair area (R54). -/
def MChan.reload (c : MChan) (ch : Nat) (l : List (Nat × Bool × Nat)) : MChan :=
  l.foldl (fun c x =>
    if x.1 ≠ ch then c
    else if x.2.1 then { c with brem := true, blane := BitVec.ofNat 5 x.2.2 }
    else { c with arem := true, alane := BitVec.ofNat 5 x.2.2 }) c

/-- Stage 4: repairs are applied again, training tests the lanes of every channel, and memory holds zero in HOME-I (R46, R51, R52). -/
def State.initMemory (s : State) : State :=
  let s := (List.range s.part.channels).foldl (fun s ch =>
    let soft := (s.fw.repairs.filter fun r => r.1 == ch).map (·.2)
    let s := s.setChan ch (({ s.chan ch with soft := soft }).reload ch s.fw.remaps)
    let (bad, s) := s.freeBad
    s.retrained ch bad) s
  { s with mem := [], side := [], l2 := [] }

/-- Stage 5: membership; a topology in which a present device has no valid route, or needs two relays, leaves the device out of the
domain (R61, R62). -/
def State.settle5 (s : State) : State :=
  let dev := s.cfg.devid.toNat
  let routed := (List.range 8).all fun d =>
    d == dev || !s.cfg.present.toNat.testBit d || bit s.cfg.sroute.toNat (4 * d + 3)
  let ok := routed && Config.recordField (s.fw.inUse 0) 10 == 0
  { s with coh := { s.coh with en := ok, present := if ok then s.cfg.present else 1#8 <<< dev } }

/-- Stage 6, and the restart after a lockstep mismatch: Docent is loaded and started. -/
def State.startDocent (s : State) : State :=
  match s.loadImage 2 with
  | (none, s) => s.setBoot 11
  | (some img, s) =>
    { s with fw := { s.fw.use 2 img with boot := 6, ready := true, docRun := true } }

/-- BOOT (R88): the stages in order, up to the first failure. -/
def execBoot (s : State) : Out :=
  if s.pwr.inReset || s.pwr.thermal then .next s
  else
    let s := { s with fw := { s.fw with boot := 0, ready := false, idok := false, docRun := false } }
    match s.loadImage 0 with
    | (none, s) => .next (s.setBoot 8)
    | (some r, s) =>
      let s := ({ s with fw := s.fw.use 0 r }).applyRecord (.of r)
      let s := (s.setBoot 1).identify.setBoot 2
      match s.loadImage 1 with
      | (none, s) => .next (s.setBoot 9)
      | (some c, s) =>
        let s := ({ s with fw := s.fw.use 1 c }).setBoot 3
        if Config.freeBool s.freeCtr then .next (s.draw.setBoot 10)
        else .next ((s.draw.initMemory.setBoot 4).settle5.setBoot 5).startDocent

/-- The restart after a lockstep mismatch: the images are verified again, without the steps for BOOT 2, 4 and 5 (R91). BOOT 10 ends only
with a board reset (R94). -/
def State.restartPair (s : State) : State :=
  if s.fw.boot = 10 then s
  else
    match s.loadImage 0 with
    | (none, s) => s.setBoot 8
    | (some r, s) =>
      match ({ s with fw := s.fw.use 0 r }).loadImage 1 with
      | (none, s) => s.setBoot 9
      | (some c, s) => { s with fw := s.fw.use 1 c }.startDocent

/-- LOCKSTEP_MISMATCH (R91): LSRST, the restart, and then the record. A mailbox command in progress is lost (assumption 5). -/
def execLockstepMismatch (s : State) : Out :=
  let f := s.fw
  let n := min 0xFFFF (f.lsrst.toNat + 1)
  let s := { s with fw := { f with
    lsrst := BitVec.ofNat 16 n, ready := false, docRun := false, docQuiesce := false, docStart := false, handover := false
    forced := false, busy := false, cmd := 0, incoming := [] } }
  .next (s.restartPair.report (ErrRec.mk0 0x40 n 12 0 12))

/-! ## The mailbox (R92, R94) -/

/-- A mailbox command ends: BUSY clears and vector 1 is sent. -/
def State.mbxEnd (s : State) (status : Nat) : State :=
  ({ s with fw := { s.fw with busy := false, cmd := 0, status := BitVec.ofNat 4 status, incoming := [] } }).msix 1

/-- The commands that the boot state accepts, with the buffer in host memory or not (R94); in BOOT 10 no command reaches device
memory. -/
def Firm.accepts (f : Firm) (cmd : Nat) : Bool :=
  match f.boot.toNat with
  | 8 | 9 => cmd == 5 && f.mbhost
  | 10 => (cmd == 1 || cmd == 2) && f.mbhost
  | 6 | 11 => decide (1 ≤ cmd) && decide (cmd ≤ 4)
  | _ => false

/-- A command whose buffer is at a DPA waits for it; a fault of the buffer, for which the spec gives no STATUS, ends the command
with a free one (assumption 5). -/
def State.mbxRun (s : State) (m : Mem Nat) : State :=
  match m.on s with
  | (.ok st, s) => if st = 0 then s else s.mbxEnd st
  | (.error .wait, s) => s
  | (.error (.trap _), s) => s.draw.mbxEnd ((Config.freeWord s.freeCtr).toNat % 16)

/-- A write of FWMBX with a command: refused while busy, invalid where the boot state does not accept it, else it starts; a command
that waited for its buffer goes on (R92, R94). -/
def mbxOp (s : State) (cmd : Nat) (body : State → State) : Out :=
  if s.again then .next (body { s with again := false })
  else
    regOp (fun _ => true) s fun s a =>
      let f := s.fw
      if f.busy then { s with fw := { f with status := 2 } }
      else
        let f := { f with mbaddr := BitVec.ofNat 36 (a.fieldOf f.mbx 47 12), mbhost := a.fieldOf f.mbx 0 0 == 1 }
        if f.accepts cmd then body { s with fw := { f with busy := true, cmd := BitVec.ofNat 8 cmd } }
        else ({ s with fw := f }).mbxEnd 6

/-- On whose behalf Curator accesses the buffer. -/
def mbxWho : Who := { hwWho 0 true [12] with anon := true }

def Firm.buf (f : Firm) : Nat := f.mbaddr.toNat * 4096

/-- The digest of an image in use; free bytes when none is. -/
def State.imageDigest (s : State) (kind : Nat) : List Byte × State :=
  if (s.fw.inUse kind).isEmpty then s.freeBytes 48 else (sha384 (s.fw.inUse kind), s)

/-- ATTEST (R89, R92). -/
def execAttest (s : State) : Out :=
  mbxOp s 1 fun s =>
    if !s.fw.idok then s.mbxEnd 8
    else
      let f := s.fw
      let (d0, s) := s.imageDigest 0
      let (d1, s) := s.imageDigest 1
      let (d2, s) := s.imageDigest 2
      s.mbxRun do
        let nonce ← ringRead mbxWho f.mbhost f.buf 48
        let ds := d0 ++ d1 ++ d2
        ringWrite mbxWho f.mbhost (f.buf + 64) (ds ++ sliceBytes (Config.signature (f.key.getD []) (nonce ++ ds)) 0 96)
        return 1

/-- READ_IDENTITY_CERTIFICATE (R92). -/
def execReadIdentityCertificate (s : State) : Out :=
  mbxOp s 2 fun s =>
    let f := s.fw
    s.mbxRun do
      ringWrite mbxWho f.mbhost f.buf (Config.certificate f.helper)
      return 1

/-! ## Replacing Docent (R93, R94) -/

/-- A replacement ends; a STATUS other than 1 is recorded (R98). -/
def State.replaceEnd (s : State) (status : Nat) : State :=
  let s := if status = 1 then s else s.report (ErrRec.mk0 0x43 status 12 0 0)
  ({ s with fw := { s.fw with docQuiesce := false, docStart := false, handover := false, forced := false } }).mbxEnd status

/-- The new Docent runs; CMD 4 puts it into flash. -/
def State.docentTakes (s : State) (status : Nat) : State :=
  let f := s.fw
  let img := f.incoming
  let f := if f.cmd = 4 then f.install 2 img else f
  ({ s with fw := { f.use 2 img with docRun := true, ready := true, boot := 6 } }).replaceEnd status

/-- An image is verified: after a failed boot it starts at once, else the old Docent is told to quiesce. -/
def State.offerDocent (s : State) (img : List Byte) : State :=
  match s.fw.imageFault 2 img with
  | some st => s.replaceEnd st
  | none =>
    let s := { s with fw := { s.fw with incoming := img } }
    if s.fw.boot.toNat = 11 then s.docentTakes 1 else { s with fw := { s.fw with docQuiesce := true } }

/-- The image that the buffer holds, its length from its signed header (R92). -/
def readImage (f : Firm) : Mem (List Byte) := do
  let head ← ringRead mbxWho f.mbhost f.buf 4096
  ringRead mbxWho f.mbhost f.buf (Config.imageLength head)

/-- CMD 3 and 4. -/
def State.replace (s : State) : State :=
  match (readImage s.fw).on s with
  | (.ok img, s) => s.offerDocent img
  | (.error .wait, s) => s
  | (.error (.trap _), s) => s.draw.replaceEnd ((Config.freeWord s.freeCtr).toNat % 16)

/-- REPLACE_DOCENT (R93). -/
def execReplaceDocent (s : State) : Out := mbxOp s 3 State.replace

/-- REPLACE_DOCENT_AND_WRITE_FLASH (R93). -/
def execReplaceDocentAndWriteFlash (s : State) : Out := mbxOp s 4 State.replace

/-- The old Docent stops and the new image starts, with the handover area or without (R93). -/
def State.stopDocent (s : State) (handover : Bool) : State :=
  { s with fw := { s.fw with
      docQuiesce := false, docStart := true, docRun := false, ready := false, handover := handover, forced := !handover } }

/-- DOCENT_SAFE_POINT (R93). -/
def execDocentSafePoint (s : State) : Out := .next (if s.fw.docQuiesce then s.stopDocent true else s)

/-- DOCENT_QUIESCE_TIMEOUT (R93). -/
def execDocentQuiesceTimeout (s : State) : Out := .next (if s.fw.docQuiesce then s.stopDocent false else s)

/-- DOCENT_READY (R93). -/
def execDocentReady (s : State) : Out :=
  .next (if s.fw.docStart then s.docentTakes (if s.fw.forced then 7 else 1) else s)

/-- DOCENT_READY_TIMEOUT (R93): the old image runs again. -/
def execDocentReadyTimeout (s : State) : Out :=
  .next (if s.fw.docStart then ({ s with fw := { s.fw with docRun := true, ready := true } }).replaceEnd 5 else s)

/-! ## Recovery (R94) -/

/-- The header of a bundle is good: magic, zeros, the KIND of the failed stage, and an image of at most 16 MiB. -/
def Firm.bundleOk (f : Firm) (h : List Byte) : Bool :=
  fieldAt h 0 4 == 0x01524B4E && fieldAt h 5 3 == 0 && fieldAt h 4 1 + 7 == f.boot.toNat && decide (fieldAt h 12 4 ≤ 2 ^ 24)

/-- The bytes of the buffer that a bundle's checks read. -/
def Firm.bundleBytes (f : Firm) (mem : List Host.Cell) : Nat :=
  let h := Memory.read mem f.buf 16
  if f.bundleOk h then 16 + fieldAt h 8 4 + fieldAt h 12 4 else 16

/-- The STATUS of a bundle's checks, in order, or its kind and image. -/
def Firm.bundle (f : Firm) (mem : List Host.Cell) : Except Nat (Nat × List Byte) :=
  let h := Memory.read mem f.buf 16
  let kind := fieldAt h 4 1
  let chlen := fieldAt h 8 4
  let imlen := fieldAt h 12 4
  if !f.bundleOk h then .error 6
  else
    let chain := Memory.read mem (f.buf + 16) chlen
    let img := Memory.read mem (f.buf + 16 + chlen) imlen
    if !Config.chainVerifies chain kind then .error 3
    else if !Config.verifiesUnder chain img then .error 3
    else if kind = 2 ∧ Config.imageVersion img < f.floor 1 then .error 4
    else .ok (kind, img)

/-- INSTALL_RECOVERY_BUNDLE (R94): the image goes to flash and boot starts anew; a buffer that no route reaches ends the command with a free
STATUS (assumption 5). -/
def execInstallRecoveryBundle (s : State) : Out :=
  mbxOp s 5 fun s =>
    if s.hostHole s.fw.buf (s.fw.bundleBytes s.hostmem) then s.draw.mbxEnd ((Config.freeWord s.freeCtr).toNat % 16) else
    match s.fw.bundle s.hostmem with
    | .error st => s.mbxEnd st
    | .ok (kind, img) => (({ s with fw := s.fw.install (kind - 1) img }).mbxEnd 1).dueRow .boot

/-- FWMBX_INVALID_COMMAND (R92): STATUS 6 at once. -/
def execFwmbxInvalidCommand (s : State) : Out := mbxOp s 0 fun s => s.mbxEnd 6

end Sys2Proof.Machine
end

