-- ==== Sys2Proof/Machine/Power.lean ====
section
/-! DEFINITION. Supply, resets, thermal limits and the power arbiter (R28 to R34, R81). -/
namespace Sys2Proof.Machine

/-! ## Resets (R29 to R31) -/

/-- The whole device in reset (assumption 4): flash, host memory, what has left the device, the configuration values, the
hard-repaired rows and the clocks of the model stay; the key register is cleared. -/
def State.deviceReset (s : State) (power : Power) : State :=
  let f := s.fw
  let fw : Firm :=
    { Firm.reset with record := f.record, curator := f.curator, docent := f.docent, active := f.active, helper := f.helper
                      repairs := f.repairs, remaps := f.remaps }
  let rows := s.chans.filterMap fun (e : Nat × MChan) => if e.2.hard.isEmpty then none else some (e.1, { MChan.reset with hard := e.2.hard })
  { State.reset with chans := rows, agenda := [], tick := s.tick, freeCtr := s.freeCtr, outbox := s.outbox, hostmem := s.hostmem, unrouted := s.unrouted, cfg := s.cfg
                     fw := fw, pwr := power, g := { Group.idle with iss := Issue.none } }

/-- The power registers after a reset of the device: the inputs and the sensors stay, and BUDGET and EFF take the value of the
configuration record in use (R34). -/
def State.powerReset (s : State) : Power :=
  let p := s.pwr
  { Power.reset with rails := p.rails, sensors := p.sensors, alert := decide (100 ≤ p.temp), port := p.port
                     eff := s.cfg.budget, budget := s.cfg.budget }

/-- POWER_GOOD_RELEASE (R29, R30): with the rails in sequence the device leaves reset and the boot ROM starts; after a wrong
sequence it stays in reset. -/
def execPowerGoodRelease (s : State) : Out :=
  if s.pwr.railFault then .next s
  else
    .next ({ s with pwr := { s.pwr with rails := [true, true, true, true, true], inReset := false } }.dueRow .boot)

/-- The power-good inputs after a loss: rails are lowered in the reverse order of R28, how many is free (R29; assumption 4). -/
def State.railsLost (s : State) : List Bool :=
  s.pwr.rails.mapIdx fun i r => r && decide (i < (Config.freeWord s.freeCtr).toNat % 5)

/-- POWER_GOOD_LOSS (R29, R89): reset at once, no context saved, the key register cleared. A sequence fault ends when every rail is low
(R30); a thermal shutdown does not end (R31). -/
def execPowerGoodLoss (s : State) : Out :=
  let rails := s.railsLost
  .next (s.draw.deviceReset { s.powerReset with
    rails := rails, inReset := true, railFault := s.pwr.railFault && rails.any id, thermal := s.pwr.thermal, port := false })

/-- RAIL_SEQUENCE_FAULT (R30): the device stays in reset. -/
def execRailSequenceFault (s : State) : Out :=
  .next { s with pwr := { s.pwr with railFault := true, inReset := true } }

/-- BOARD_RESET (R31, R84, R89): the device is reset, the key register cleared and a thermal shutdown ended; LSRST counts since power-on
and stays; the boot ROM starts when the rails are good. -/
def execBoardReset (s : State) : Out :=
  let held := s.pwr.inReset || s.pwr.railFault
  let n := s.fw.lsrst
  let s := s.deviceReset { s.powerReset with inReset := s.pwr.inReset, railFault := s.pwr.railFault }
  let s := { s with fw := { s.fw with lsrst := n } }
  .next (if held then s else s.dueRow .boot)

/-- PERST_DEASSERT (R81): the port answers configuration requests from 20 ms later on (assumption 8). -/
def execPerstDeassert (s : State) : Out := .next { s with pwr := { s.pwr with port := true } }

/-! ## Thermal limits (R31) -/

/-- The thermal cap THCAP in watts at a reading of whole degrees, rounded up. -/
def thcap (t : Int) : Nat :=
  if t ≤ 100 then 350 else if t ≤ 105 then 350 - 40 * (t - 100).toNat else 150

/-- The state of the compute die in reset: cores, caches, tasks, counters, queues, graphs, rings and links lose theirs; the
management pair, the power arbiter, the error ring, memory and configuration keep theirs (assumption 4). -/
def State.computeReset (s : State) : State :=
  { State.reset with
    agenda := s.agenda.filter fun e => e == .row .errorRecordWrite
    tick := s.tick, freeCtr := s.freeCtr, outbox := s.outbox, mem := s.mem, side := s.side, hostmem := s.hostmem, unrouted := s.unrouted, err := s.err
    rtc := s.rtc, win := s.win, chans := s.chans, mscrub := s.mscrub, pwr := s.pwr, cfg := s.cfg, fw := s.fw, coh := s.coh
    links := s.links }

/-- THERMAL_SHUTDOWN (R31): a sensor at 115 °C or more holds the compute die in reset until a board reset, and the record THERM
names the sensor. -/
def execThermalShutdown (sensor : Nat) (temp : Int) (s : State) : Out :=
  if temp < 115 then .next s
  else
    let s := { s with pwr := { s.pwr with sensors := modifyAt (fun _ => temp) s.pwr.sensors sensor, thermal := true, alert := true } }
    .next (s.computeReset.report { ErrRec.mk0 0x20 (temp.toNat % 65536) 14 sensor 0 with ctx := none })

/-! ## The arbiter (R32, R33) -/

/-- A sum of milliwatts. -/
def wattSum (l : List Rat) : Rat := l.foldl (· + ·) 0

/-- A step of the division of step 3: the cores whose request is within their share are granted it whole and leave the division. -/
def shareRound (left : Rat) (cores : List (Nat × Nat × Nat)) : Rat × List (Nat × Rat) × List (Nat × Nat × Nat) :=
  let w : Nat := (cores.map fun c => c.2.1).foldl (· + ·) 0
  let fits := fun (c : Nat × Nat × Nat) => decide (0 < c.2.1) && decide ((c.2.2 * w : Rat) ≤ left * c.2.1)
  let done := cores.filter fits
  (left - wattSum (done.map fun c => (c.2.2 : Rat)), done.map fun c => (c.1, (c.2.2 : Rat)), cores.filter fun c => !fits c)

/-- What is left among cores by their weights. -/
def shareLast (left : Rat) (cores : List (Nat × Nat × Nat)) : List (Nat × Rat) :=
  let w : Nat := (cores.map fun c => c.2.1).foldl (· + ·) 0
  cores.map fun c => (c.1, if w = 0 then 0 else left * c.2.1 / w)

/-- The division of what is left among cores (core, weight, request), what a core leaves unused going to the others. -/
def shareOut : Nat → Rat → List (Nat × Nat × Nat) → List (Nat × Rat)
  | 0, left, cores => shareLast left cores
  | f + 1, left, cores =>
    let (left', done, rest) := shareRound left cores
    if done.isEmpty then shareLast left cores else done ++ shareOut f left' rest

/-- The engines' and channels' grants (unit, request) out of what is left: each its request, or a share in proportion to it (R32). -/
def unitGrants (left : Rat) (want : List (Nat × Nat)) : List (Nat × Rat) :=
  let total : Nat := (want.map fun e => e.2).foldl (· + ·) 0
  want.map fun e => (e.1, if (total : Rat) ≤ left then (e.2 : Rat) else left * e.2 / total)

/-- The share weight of a core (R34). -/
def Power.weight (p : Power) (c : Nat) : Nat := bits (p.shares.getD (c / 8) 0).toNat (4 * (c % 8) + 3) (4 * (c % 8))

/-- A free amount below a bound. -/
def State.freeBelow (s : State) (n : Nat) : Nat × State :=
  ((Config.freeWord s.freeCtr).toNat % (n + 1), s.draw)

/-- Free amounts below a bound, one for each key. -/
def State.freeAmounts (s : State) (bound : Nat) (keys : List Nat) : List (Nat × Nat) × State :=
  keys.foldl (fun (r : List (Nat × Nat) × State) k =>
    let (x, s) := r.2.freeBelow bound
    (r.1 ++ [(k, x)], s)) ([], s)

/-- The limiter of a core for the window (R33): short, it lowers KDUTY, and VDUTY only with KDUTY at its floor; how far is free
(assumption 18). -/
def limiter (old : Word) (short : Bool) (k v : Nat) : Word :=
  let n := bits old.toNat 31 16
  if short then
    let kd := 1 + k % 63
    let vd := if kd = 1 then 1 + v % 8 else 8
    BitVec.ofNat 32 (min 0xFFFF (n + 1) * 2 ^ 16 + kd * 2 ^ 8 + vd)
  else BitVec.ofNat 32 (n * 2 ^ 16 + 64 * 2 ^ 8 + 8)

/-- The contexts with a DET launch resident or in the queue (R33, R308). -/
def State.detContexts (s : State) : List Word :=
  ((s.allGroups.filter fun g => g.det).map (fun g => g.ctx) ++ (s.tasks.filter Task.isDet).map Task.ctx).eraseDups

/-- The requests of the window, each unit's within its ceiling (assumption 18), and the grants of R32, exact, in milliwatts above the
floors. -/
def State.arbitrate (s : State) : State :=
  let n := s.part.cores
  let (floors, s) := s.freeBelow 120000
  let units := (List.range (n / 4)).map (64 + ·) ++ (List.range (4 * n)).map (128 + ·)
  let (want, s) := s.freeAmounts 350000 units
  let (ask, s) := s.freeAmounts 350000 (List.range n)
  let (ks, s) := s.freeAmounts 62 (List.range n)
  let (vs, s) := s.freeAmounts 7 (List.range n)
  let left : Rat := (1000 * s.pwr.eff.toNat - floors : Nat)
  let given := unitGrants left (want.map fun e => (e.1, min e.2 (Config.unitCeiling e.1)))
  let rest := left - wattSum (given.map fun e => e.2)
  let parts := shareOut n rest (ask.map fun e => (e.1, s.pwr.weight e.1, e.2))
  let grant := (parts ++ given).foldl (fun m e => Store.put 0 m e.1 e.2) []
  let short := fun c => decide (Store.get 0 grant c < ((((ask.find? fun e => e.1 == c).map (·.2)).getD 0 : Nat) : Rat))
  let lims := (List.range n).foldl (fun m c =>
    let k := ((ks.find? fun e => e.1 == c).map (·.2)).getD 0
    let v := ((vs.find? fun e => e.1 == c).map (·.2)).getD 0
    Store.put limReset m c (limiter (Store.get limReset m c) (short c) k v)) s.pwr.lims
  let s := { s with pwr := { s.pwr with grant := grant, lims := lims } }
  if (List.range n).any short then
    s.detContexts.foldl (fun s c => if Config.freeBool s.freeCtr then (s.detEvent c 6 0).draw else s.draw) s
  else s

/-- The sensors when the highest reading is T: a free one shows it (assumption 18). -/
def Power.heat (p : Power) (hot : Nat) (t : Int) : List Int :=
  (List.range 16).map fun i => if i = hot then t else min t (p.sensors.getD i t)

/-- ARBITER_WINDOW (R31 to R33): the thermal cap and the effective budget of the window, and the grants; a throttle that changes
the order in which the cores of a DET launch pull is noted in DETC. From 115 °C on the thermal shutdown follows. -/
def execArbiterWindow (temp : Int) (s : State) : Out :=
  let eff := min s.pwr.budget.toNat (thcap temp)
  let hot := (Config.freeWord s.freeCtr).toNat % 16
  let s := { s.draw with pwr := { s.pwr with sensors := s.pwr.heat hot temp, alert := decide (100 ≤ temp), eff := BitVec.ofNat 9 eff } }
  let s := s.arbitrate
  .next (if 115 ≤ temp then s.dueRow (.thermalShutdown hot temp) else s)

/-- PWRBUD_WRITE (R34): BUDGET is clamped and LOCK set unless LOCK stands; it takes effect in the next window. A write that clears CLAMP
and is itself clamped leaves it set (assumption 18). -/
def execPwrbudWrite (s : State) : Out :=
  regOp Agent.curatorOnly s fun s a =>
    let p := s.pwr
    let p := if a.clears 16 then { p with clamp := false } else p
    let p :=
      if p.lock then p
      else
        let p := { p with lock := a.fieldOf s.pwr.bud 31 31 == 1 }
        if a.mask &&& 0x1FF = 0 then p
        else
          let b := a.fieldOf s.pwr.bud 8 0
          { p with budget := BitVec.ofNat 9 (max 150 (min 350 b)), clamp := p.clamp || decide (b < 150) || decide (350 < b) }
    { s with pwr := p }

end Sys2Proof.Machine
end

