-- ==== Sys2Proof/Machine/Predicates.lean ====
section
/-! DEFINITION. The predicate instructions (R354 to R359). The FP32 compare is in Machine/Float.lean. -/
namespace Sys2Proof.Machine

/-- PSETI (R356). -/
def execPseti (h : Hdr) (d : PReg) (a b : Src) (c : PReg) (cmp : Cmp) (n : Bool) (s : State) : Out :=
  vop (.any h (Src.regs a ++ Src.regs b) (len2 a b)) s fun g l =>
    { p := [(d, cmpInt cmp n (g.s32 a l) (g.s32 b l) && g.rp c l)] }

/-- PSETI with an immediate (R354, R356). -/
def execPsetiImm (h : Hdr) (d : PReg) (a : VReg) (cmp : Cmp) (n : Bool) (imm : Imm) (s : State) : Out :=
  vop (.any h [a] 1) s fun g l => { p := [(d, cmpInt cmp n (g.rv a l) (imm.signExtend 32))] }

/-- PLOP (R357). -/
def execPlop (h : Hdr) (d a b : PReg) (lut : BitVec 4) (s : State) : Out :=
  vop (.any h [] 1) s fun g l => { p := [(d, lut.getLsbD (2 * (g.rp a l).toNat + (g.rp b l).toNat))] }

/-- The predicates of a lane as bits 15:0 (R358). -/
def Group.pall (g : Group) (l : Nat) : Nat :=
  (List.range 16).foldl (fun m i => m + (g.rp (BitVec.ofNat 4 i) l).toNat * 2 ^ i) 0

/-- PMOV (R358). -/
def execPmov (h : Hdr) (op : PmovOp) (s : State) : Out :=
  match op with
  | .toV d => vop (.any h [d] 1) s fun g l => { v := [(d, BitVec.ofNat 32 (g.pall l))] }
  | .fromV a b =>
    vop (.any h (Src.regs a ++ Src.regs b) (len2 a b)) s fun g l =>
      { p := ((List.range 15).filter fun i => (g.s32 b l).getLsbD i).map fun i =>
          (BitVec.ofNat 4 i, (g.s32 a l).getLsbD i) }

/-- A predicate written in every lane of a set. -/
def State.votes (s : State) (n : Nat) (act : BitVec 128) (d : PReg) (x : Bool) : State :=
  s.lanesOut n act fun _ => { p := [(d, x)] }

/-- VOTE (R359). -/
def execVote (h : Hdr) (op : VoteOp) (a : PReg) (s : State) : Out :=
  issue (.any h [] 1) s fun s act =>
    let on := lanesIn act s.g.width
    match op with
    | .all d => s.votes 1 act d (on.all fun l => s.g.rp a l)
    | .any d => s.votes 1 act d (on.any fun l => s.g.rp a l)
    | .eq d => s.votes 1 act d (on.all (fun l => s.g.rp a l) || on.all fun l => !s.g.rp a l)
    | .ballot d =>
      let bal := laneSet s.g.width fun l => act.getLsbD l && s.g.rp a l
      s.onceOut 1 act
        { k := (List.range (max 1 (s.g.width / 32))).map fun m =>
            (d + BitVec.ofNat 6 m, bal.extractLsb' (32 * m) 32) }

end Sys2Proof.Machine
end

