-- ==== Sys2Proof/Machine/Spatial.lean ====
section
/-! DEFINITION. The spatial engine: collision queries on an occupancy octree, and dynamics steps (R270 to R283, R450). -/
namespace Sys2Proof.Machine

/-- What an engine's command does: it may wait on memory, or end with a code and an address (R278). -/
abbrev SpM (α : Type) := ExceptT (Nat × Nat) (ExceptT Stop (StateM State)) α

/-- The command ends with a code and the address that R450 names. -/
def SpM.fault {α : Type} (code va : Nat) : SpM α := throw (code, va)

/-- The code of a memory fault (R278). -/
def spCode (c : Cause) : Nat := if c.code = cXLATE then 3 else if c.code = cPERM then 4 else 5

/-- An access whose fault is reported with an address (R450). -/
def SpM.access {α : Type} (va : Nat) (m : Mem α) : SpM α := fun s =>
  match m s with
  | (.ok a, s) => (.ok (.ok a), s)
  | (.error (.trap c), s) => (.ok (.error (spCode c, va)), s)
  | (.error .wait, s) => (.error .wait, s)

/-- On whose behalf an atoll's engine makes a command's accesses (R270). -/
def State.spWho (s : State) (atoll : Nat) (c : SpCmd) : Who :=
  { ctx := c.ctx, priv := c.priv, core := 4 * atoll, det := s.detWho c.task c.block, pc := c.pc, tag := [5, atoll] }

/-! ## The octree (R271 to R273) -/

/-- An octree handle. -/
structure Octree where
  o     : List Nat
  exp   : Int
  depth : Nat
  root  : Nat

/-- An FP32 value without flushing. -/
def fp (x : Nat) : XR := ffF32.value false x

/-- The value is finite. -/
def XR.finite : XR → Bool
  | .fin .. => true
  | _ => false

/-- The handle at an address, checked in the four parts of R450. -/
def readOctree (w : Who) (va : Nat) : SpM Octree := do
  if va % 32 ≠ 0 then SpM.fault 7 va
  let bs ← SpM.access va (engineRead w va 32)
  let root := fieldAt bs 16 8
  if bits root 47 0 % 64 ≠ 0 then SpM.fault 7 (bits root 47 0)
  let o := (List.range 3).map fun i => fieldAt bs (4 * i) 4
  let exp := sext (fieldAt bs 12 1) 8
  let depth := fieldAt bs 13 1
  if o.any (fun x => !(fp x).finite) ∨ exp < -24 ∨ 24 < exp ∨ depth < 1 ∨ 16 < depth ∨ fieldAt bs 14 2 ≠ 0
      ∨ 2 ^ 48 ≤ root ∨ fieldAt bs 24 8 ≠ 0 then SpM.fault 2 va
  return { o := o, exp := exp, depth := depth, root := root }

/-- Leaf-unit coordinates are held exactly in units of 2^-200. -/
def spUnit : Int := 2 ^ 200

/-- A finite value times 2^k in units of 2^-200. -/
def fxOf (x : XR) (k : Int) : Int :=
  match x with
  | .fin neg m e => (if neg then -1 else 1) * ((m * 2 ^ (e + k + 200).toNat : Nat) : Int)
  | _ => 0

/-- The scale of R273 as a power of two. -/
def Octree.shift (t : Octree) : Int := (t.depth : Int) - t.exp

/-- The leaf-unit coordinate of a world coordinate on an axis, none when the difference rounds to an infinity (R273). -/
def Octree.coord (t : Octree) (axis w : Nat) : Option Int :=
  let d := fp (ffF32.round .rd false false (XR.add .rd (fp w) (fp (t.o.getD axis 0)).neg))
  if d.finite then some (fxOf d t.shift) else none

/-- Cells on an axis. -/
def Octree.size (t : Octree) : Int := ((2 ^ t.depth : Nat) : Int)

/-- The index is inside the tree. -/
def Octree.inside (t : Octree) (c : List Int) : Bool := c.all fun i => decide (0 ≤ i) && decide (i < t.size)

/-- The state and the payload of an inside cell, from a node at a level on; b levels remain below it (R272, R277). -/
def descend (w : Who) (c : List Nat) : Nat → Nat → SpM (Nat × Nat)
  | b, node => do
    let i := (bits (c.getD 0 0) b b) + 2 * bits (c.getD 1 0) b b + 4 * bits (c.getD 2 0) b b
    let x := ofBytes (← SpM.access (node + 8 * i) (engineRead w (node + 8 * i) 8))
    if bits x 63 62 ≠ 3 then return (bits x 63 62, bits x 61 0)
    else
      match b with
      | 0 => SpM.fault 6 node
      | n + 1 => descend w c n (bits x 41 0 * 64)
termination_by structural b => b

/-- The state and payload of an inside cell. -/
def Octree.cell (t : Octree) (w : Who) (c : List Int) : SpM (Nat × Nat) :=
  descend w (c.map Int.toNat) (t.depth - 1) t.root

/-! ## Query results (R275) -/

/-- A query's result: KIND, OUTF, the cell, T, the two counts and the payload. -/
structure QRes where
  kind : Nat := 0
  outf : Bool := false
  cell : List Int := [0, 0, 0]
  t    : Nat := 0
  nocc : Nat := 0
  nunk : Nat := 0
  pay  : Nat := 0

/-- The result word. -/
def QRes.word (r : QRes) : Nat :=
  r.kind * 2 ^ 61 + r.outf.toNat * 2 ^ 60 + trunc (r.cell.getD 2 0) 16 * 2 ^ 32 + trunc (r.cell.getD 1 0) 16 * 2 ^ 16
    + trunc (r.cell.getD 0 0) 16

/-- The result record. -/
def QRes.bytes (r : QRes) : List Byte :=
  toBytes 8 r.word ++ toBytes 4 r.t ++ toBytes 4 (min r.nocc 0xFFFFFFFF) ++ toBytes 4 (min r.nunk 0xFFFFFFFF) ++ toBytes 4 0
    ++ toBytes 8 r.pay

/-! ## The four query kinds (R276) -/

/-- The cell of leaf-unit coordinates. -/
def cellOf (a : List Int) : List Int := a.map (· / spUnit)

/-- POINT. -/
def qPoint (w : Who) (t : Octree) (a : List Int) : SpM QRes := do
  let c := cellOf a
  if !t.inside c then return { kind := 3 }
  let (st, pay) ← t.cell w c
  return { kind := st, cell := c, pay := if st = 0 then 0 else pay }

/-- The next step of a ray on an axis: its parameter as a fraction with a positive denominator, and the index after it. -/
def rayStep (a0 a1 c : Int) : Option (Int × Int × Int) :=
  if a0 < a1 then
    if c + 1 ≤ a1 / spUnit then some ((c + 1) * spUnit - a0, a1 - a0, c + 1) else none
  else if a1 < a0 then
    if a1 / spUnit + 1 ≤ c then some (a0 - c * spUnit, a0 - a1, c - 1) else none
  else none

/-- The earliest of the axes' steps, the lowest axis of equals: axis, parameter and the new index. -/
def rayNext (a0 a1 c : List Int) : Option (Nat × Int × Int × Int) :=
  (List.range 3).foldl (fun (best : Option (Nat × Int × Int × Int)) i =>
    match rayStep (a0.getD i 0) (a1.getD i 0) (c.getD i 0), best with
    | none, b => b
    | some (n, d, k), none => some (i, n, d, k)
    | some (n, d, k), some (j, n', d', k') => if n * d' < n' * d then some (i, n, d, k) else some (j, n', d', k')) none

/-- round(n / d, FP32, RD) for 0 ≤ n ≤ d. -/
def ratioRd (n d : Int) : Nat :=
  ffF32.round .rd false false (XR.div (.fin false (n.toNat * 2 ^ 400) (-400)) (.fin false d.toNat 0))

/-- RAY from a cell with its entry parameter on. -/
def rayFrom (w : Who) (t : Octree) (a0 a1 : List Int) : Nat → List Int → Int → Int → SpM QRes
  | 0, _, _, _ => return {}
  | f + 1, c, n, d => do
    if !t.inside c then return { kind := 3, t := ratioRd n d }
    let (st, pay) ← t.cell w c
    if st ≠ 0 then return { kind := st, cell := c, t := ratioRd n d, pay := pay }
    match rayNext a0 a1 c with
    | none => return {}
    | some (i, n, d, k) => rayFrom w t a0 a1 f (modifyAt (fun _ => k) c i) n d

/-- Inside indexes of a range. -/
def Octree.range (t : Octree) (lo hi : Int) : List Int :=
  let lo := max lo 0
  (List.range (min hi (t.size - 1) - lo + 1).toNat).map fun (i : Nat) => lo + (i : Int)

/-- One cell of a scan. -/
def scanCell (w : Who) (t : Octree) (r : QRes) (c : List Int) : SpM QRes := do
  let (st, pay) ← t.cell w c
  let r := { r with nocc := r.nocc + (if st = 1 then 1 else 0), nunk := r.nunk + (if st = 2 then 1 else 0) }
  return if st ≠ 0 ∧ r.kind = 0 then { r with kind := st, cell := c, pay := pay } else r

/-- The inside cells of a query in ascending cz, then cy, then cx. -/
def scan (w : Who) (t : Octree) (lo hi : List Int) (member : List Int → Bool) (outf : Bool) : SpM QRes :=
  let rng (i : Nat) : List Int := t.range (lo.getD i 0) (hi.getD i 0)
  (rng 2).foldlM (fun r z => (rng 1).foldlM (fun r y => (rng 0).foldlM (fun r x =>
    if member [x, y, z] then scanCell w t r [x, y, z] else pure r) r) r) { outf := outf }

/-- BOX. -/
def qBox (w : Who) (t : Octree) (a0 a1 : List Int) : SpM QRes :=
  let lo := cellOf a0
  let hi := cellOf a1
  scan w t lo hi (fun _ => true) (!t.inside lo || !t.inside hi)

/-- g of R276, in units of 2^-200. -/
def sphereGap (i a : Int) : Int := max 0 (max (i * spUnit - a) (a - (i + 1) * spUnit))

/-- SPHERE; some cell of it lies outside when on some axis an index outside is no farther than the radius. -/
def qSphere (w : Who) (t : Octree) (a : List Int) (r : Int) : SpM QRes :=
  let lo := a.map fun x => (x - r) / spUnit - 1
  let hi := a.map fun x => (x + r) / spUnit + 1
  let member (c : List Int) : Bool :=
    decide ((((List.range 3).map fun i => let g := sphereGap (c.getD i 0) (a.getD i 0); g * g).foldl (· + ·) 0) ≤ r * r)
  let outf := a.any fun x => decide (x ≤ r) || decide (t.size * spUnit - x ≤ r)
  scan w t lo hi member outf

/-! ## A query (R274, R450) -/

/-- The record's own fields meet R274. -/
def recordOk (qk : Nat) (q0 : Nat) (p0 p1 : List Nat) : Bool :=
  let fin := fun (l : List Nat) => l.all fun x => (fp x).finite
  decide (qk < 4) && decide (bits q0 59 48 = 0) && fin p0
    && (match qk with
      | 0 => p1.all (· == 0)
      | 3 => fin (p1.take 1) && !((fp (p1.getD 0 0)).lt (.fin false 0 0)) && p1.getD 1 0 == 0 && p1.getD 2 0 == 0
      | _ => fin p1)

/-- The leaf-unit coordinates of a point, or the record's fault (R274). -/
def Octree.coords (t : Octree) (rec_ : Nat) (p : List Nat) : SpM (List Int) :=
  (List.range 3).mapM fun i =>
    match t.coord i (p.getD i 0) with
    | some a => pure a
    | none => SpM.fault 1 rec_

/-- A query from its record to its result word (R274 to R276, R450). -/
def runQuery (w : Who) (rec_ oct : Nat) : SpM Nat := do
  if rec_ % 32 ≠ 0 then SpM.fault 7 rec_
  let bs ← SpM.access rec_ (engineRead w rec_ 32)
  let q0 := fieldAt bs 0 8
  let qk := bits q0 63 60
  let res := bits q0 47 0
  let p0 := (List.range 3).map fun i => fieldAt bs (8 + 4 * i) 4
  let p1 := (List.range 3).map fun i => fieldAt bs (20 + 4 * i) 4
  if !recordOk qk q0 p0 p1 then SpM.fault 1 rec_
  if res % 32 ≠ 0 then SpM.fault 7 res
  let t ← readOctree w oct
  let a0 ← t.coords rec_ p0
  let a1 ← if qk = 1 ∨ qk = 2 then t.coords rec_ p1 else pure a0
  if qk = 2 ∧ ((List.range 3).any fun i => decide (a1.getD i 0 < a0.getD i 0)) then SpM.fault 1 rec_
  let r ← match qk with
    | 0 => qPoint w t a0
    | 1 => rayFrom w t a0 a1 (3 * 2 ^ t.depth + 1) (cellOf a0) 0 1
    | 2 => qBox w t a0 a1
    | _ => qSphere w t a0 (fxOf (fp (p1.getD 0 0)) t.shift)
  if res ≠ 0 then SpM.access res (engineWrite w res r.bytes)
  return r.word

/-! ## Dynamics steps (R279 to R281) -/

/-- FP32 operations of R281, by code. -/
def fadd (a b : Nat) : Nat := ffF32.round .rn false false (XR.add .rn (fp a) (fp b))
def fsub (a b : Nat) : Nat := ffF32.round .rn false false (XR.add .rn (fp a) (fp b).neg)
def fmul (a b : Nat) : Nat := ffF32.round .rn false false ((fp a).mul (fp b))

/-- A vector of three FP32 codes. -/
structure V3 where
  x : Nat
  y : Nat
  z : Nat
deriving DecidableEq, Repr

def V3.map2 (f : Nat → Nat → Nat) (a b : V3) : V3 := ⟨f a.x b.x, f a.y b.y, f a.z b.z⟩

def V3.scale (k : Nat) (a : V3) : V3 := ⟨fmul k a.x, fmul k a.y, fmul k a.z⟩

def V3.neg (a : V3) : V3 := ⟨a.x ^^^ 0x80000000, a.y ^^^ 0x80000000, a.z ^^^ 0x80000000⟩

def V3.dot (a b : V3) : Nat := fadd (fadd (fmul a.x b.x) (fmul a.y b.y)) (fmul a.z b.z)

def V3.cross (a b : V3) : V3 :=
  ⟨fsub (fmul a.y b.z) (fmul a.z b.y), fsub (fmul a.z b.x) (fmul a.x b.z), fsub (fmul a.x b.y) (fmul a.y b.x)⟩

/-- rot((qw, u), v). -/
def rot (qw : Nat) (u v : V3) : V3 :=
  let t := V3.scale 0x40000000 (u.cross v)
  let e := u.cross t
  V3.map2 fadd (V3.map2 fadd v (V3.scale qw t)) e

/-- A body's bytes 0 to 99 as 25 words. -/
def v3At (b : List Nat) (i : Nat) : V3 := ⟨b.getD i 0, b.getD (i + 1) 0, b.getD (i + 2) 0⟩

def V3.words (a : V3) : List Nat := [a.x, a.y, a.z]

def isNan32 (x : Nat) : Bool := (fp x).isNan

/-- One body of a step: its 25 words after the step, from the record's 16 words (R281). -/
def stepBody (r b : List Nat) : List Nat :=
  let dt := r.getD 3 0
  let g := v3At r 4
  let n := v3At r 7
  let p := v3At b 0
  let qw := b.getD 3 0
  let u := v3At b 4
  let v := v3At b 7
  let im := b.getD 13 0
  let ii := v3At b 14
  let f := v3At b 17
  let tq := v3At b 20
  let flags := (b.getD 24 0) / 16 * 16 + (b.getD 24 0) % 2
  let zero : XR := .fin false 0 0
  let pen := fsub (b.getD 23 0) (fsub (n.dot p) (r.getD 10 0))
  let contact := zero.lt (fp pen)
  let fn := fsub (fmul (r.getD 11 0) pen) (fmul (r.getD 12 0) (n.dot v))
  let f := if contact && zero.lt (fp fn) then V3.map2 fadd f (V3.scale fn n) else f
  let v := V3.map2 fadd v (V3.scale dt (V3.map2 fadd (V3.scale im f) g))
  let p := V3.map2 fadd p (V3.scale dt v)
  let tb := rot qw u.neg tq
  let al := rot qw u (V3.map2 fmul ii tb)
  let w := V3.map2 fadd (v3At b 10) (V3.scale dt al)
  let h2 := fmul 0x3F000000 dt
  let nw := fsub qw (fmul h2 (w.dot u))
  let nv := V3.map2 fadd u (V3.scale h2 (V3.map2 fadd (V3.scale qw w) (w.cross u)))
  let m2 := fadd (fadd (fadd (fmul nw nw) (fmul nv.x nv.x)) (fmul nv.y nv.y)) (fmul nv.z nv.z)
  let good := zero.lt (fp m2) && (fp m2).finite
  let k := ffF32.round .rn false false (fp m2).rsqrt
  let (qw, u) : Nat × V3 := if good then (fmul nw k, ⟨fmul nv.x k, fmul nv.y k, fmul nv.z k⟩) else (0x3F800000, ⟨0, 0, 0⟩)
  let nanb := (p.words ++ [qw] ++ u.words ++ v.words ++ w.words).any isNan32
  let flags := flags + 2 * contact.toNat + 4 * nanb.toNat + 8 * (!good).toNat
  p.words ++ [qw] ++ u.words ++ v.words ++ w.words ++ [im] ++ ii.words ++ [0, 0, 0, 0, 0, 0] ++ [b.getD 23 0, flags]

/-- The words of bytes. -/
def words32 (bs : List Byte) (n : Nat) : List Nat := (List.range n).map fun i => fieldAt bs (4 * i) 4

/-- The step record, checked (R279, R450). -/
def readStep (w : Who) (rec_ : Nat) : SpM (List Nat) := do
  if rec_ % 64 ≠ 0 then SpM.fault 7 rec_
  let bs ← SpM.access rec_ (engineRead w rec_ 64)
  let count := fieldAt bs 8 2
  if count < 1 ∨ 256 < count ∨ fieldAt bs 6 2 ≠ 0 ∨ fieldAt bs 10 2 ≠ 0 ∨ fieldAt bs 52 8 ≠ 0 ∨ fieldAt bs 60 4 ≠ 0 then
    SpM.fault 1 rec_
  if fieldAt bs 0 6 % 128 ≠ 0 then SpM.fault 7 (fieldAt bs 0 6)
  return words32 bs 16

/-- The body of index i: read, stepped and written back; whether it is in contact and whether it holds a NaN (R280, R281). -/
def runBody (w : Who) (r : List Nat) (i : Nat) : SpM (Bool × Bool) := do
  let va := r.getD 0 0 + r.getD 1 0 % 65536 * 2 ^ 32 + 128 * i
  let fl := ofBytes (← SpM.access va (engineRead w (va + 96) 4))
  if fl.testBit 0 then return (false, false)
  let bs ← SpM.access va (engineRead w va 100)
  let b := stepBody r (words32 bs 25)
  SpM.access va (engineWrite w va (b.flatMap fun x => toBytes 4 x))
  return ((b.getD 24 0).testBit 1, (b.getD 24 0).testBit 2)

/-! ## The engine (R270, R278, R282, R283) -/

/-- The command that an atoll's engine performs next: the first of a context that runs. -/
def State.nextSp (s : State) (atoll : Nat) : Option SpCmd := (s.spq atoll).find? fun c => s.ctxRuns c.ctx

/-- A command's future reads CANCELLED (R282). -/
def State.spCancelled (s : State) (c : SpCmd) : Bool := c.isOver || ((s.futOf c.handle).map fun f => f.st == .cancelled).getD false

/-- A command leaves the queue. -/
def State.spOver (s : State) (atoll : Nat) (c : SpCmd) : State :=
  (s.setSpq atoll ((s.spq atoll).erase c)).asyncDone c.task c.block c.gi 6

/-- A command ends with a value or a code (R275, R278, R282). -/
def State.spEnd (s : State) (atoll : Nat) (c : SpCmd) (r : Except (Nat × Nat) Nat) : State :=
  let s := match r with
    | .ok x => s.resolve c.handle none .ready (BitVec.ofNat 64 x)
    | .error (code, va) => s.resolve c.handle none .faulted (BitVec.ofNat 64 (code % 256 + bits va 47 0 * 2 ^ 16))
  s.spOver atoll c

/-- A query at the head of the queue (R276). -/
def State.spQuery (s : State) (atoll : Nat) (c : SpCmd) : State :=
  if s.spCancelled c then s.spOver atoll c
  else
    match (runQuery (s.spWho atoll c) c.rec_.toNat c.oct.toNat) s with
    | (.error _, s) => s
    | (.ok r, s) => s.spEnd atoll c r

/-- One body of a step: the record is read when the step starts, and its words stand in the command with the two counts (R279,
R281, R283). -/
def bodyStep (w : Who) (c : SpCmd) : SpM SpCmd := do
  let r ← if c.work.isEmpty then readStep w c.rec_.toNat else pure ((c.work.take 16).map BitVec.toNat)
  let (nc, nn) := ((c.work.getD 16 0).toNat, (c.work.getD 17 0).toNat)
  let (k, n) ← runBody w r c.body
  return { c with body := c.body + 1
                  work := r.map (BitVec.ofNat 32) ++ [BitVec.ofNat 32 (nc + k.toNat), BitVec.ofNat 32 (nn + n.toNat)] }

/-- A step at the head of the queue. -/
def State.spBody (s : State) (atoll : Nat) (c : SpCmd) : State :=
  if s.spCancelled c then s.spOver atoll c
  else
    match (bodyStep (s.spWho atoll c) c) s with
    | (.error _, s) => s
    | (.ok (.error e), s) => s.spEnd atoll c (.error e)
    | (.ok (.ok c'), s) =>
      let count := bits (c'.work.getD 2 0).toNat 15 0
      if count ≤ c'.body then s.spEnd atoll c (.ok ((c'.work.getD 16 0).toNat + (c'.work.getD 17 0).toNat * 2 ^ 9))
      else s.setSpq atoll (mapWhere (· == c) (fun _ => c') (s.spq atoll))

/-- SPATIAL_QUERY (R276). -/
def execSpatialQuery (atoll : Nat) (s : State) : Out :=
  match s.nextSp atoll with
  | some c => if c.step then .next s else .next (s.spQuery atoll c).settle
  | none => .next s

/-- SPATIAL_STEP_BODY (R281). -/
def execSpatialStepBody (atoll : Nat) (s : State) : Out :=
  match s.nextSp atoll with
  | some c => if c.step then .next (s.spBody atoll c).settle else .next s
  | none => .next s

end Sys2Proof.Machine
end

