-- ==== Sys2Proof/Machine/System.lean ====
section
/-! DEFINITION. System registers, quarantine, the handler's instructions, invalidation and binding (R155, R163, R191, R203, R208,
R245, R286 to R290, R303 to R308, R314, R429 to R437). -/
namespace Sys2Proof.Machine

/-! ## Field layouts -/

/-- The bits of x where the mask has a 1 (a write of an RW field, R10). -/
def masked (x mask : Nat) : DWord := BitVec.ofNat 64 (x &&& mask)

/-- Bits 47:lo. -/
def vaMask (lo : Nat) : Nat := (2 ^ 48 - 1) - (2 ^ lo - 1)

/-- A write of FPCTL: E1F is kept, FTZ is kept under E1F, and SAT and NANP clear where the value has a 1 (R245). -/
def fpctlWrite (old x : Word) : Word :=
  let e1f := old.getLsbD 3
  let sticky := old &&& ~~~x &&& 0x30#32
  let rw := if e1f then (x &&& 0x6#32) ||| 0x1#32 else x &&& 0x7#32
  sticky ||| rw ||| (old &&& 0x8#32)

/-- A write of DETC: events clear where the value has a 1, and with each its PC (R308). -/
def Ctx.detcWrite (c : Ctx) (x : DWord) : Ctx :=
  { c with detc := c.detc &&& ~~~(x &&& 0x3FF#64)
           detce := c.detce.mapIdx fun n e => if x.getLsbD n then e &&& 0xFFFF000000000000#64 else e }

/-- A write of DETCEn: COUNT clears where the value has a 1 (R308). -/
def detceWrite (old x : DWord) : DWord := old &&& ~~~(x &&& 0xFFFF000000000000#64)

/-- What a configuration of an event counter keeps (R314). -/
def ecfgMask (x : Word) : Word := x &&& 0x800000FF#32

/-- Needs privilege to be written (R431). -/
def sregPrivW (n : Nat) : Bool :=
  n == 0x003 || n == 0x005 || n == 0x012 || n == 0x020 || n == 0x021 || (decide (0x025 ≤ n) && decide (n ≤ 0x07F))

/-- Needs privilege to be read (R431). -/
def sregPrivR (n : Nat) : Bool := n == 0x020 || n == 0x021 || (decide (0x040 ≤ n) && decide (n ≤ 0x07F))

/-- Read only into q (R306, R431). -/
def sregQ (n : Nat) : Bool := decide (0x080 ≤ n)

/-- Per lane (R431). -/
def sregLane (n : Nat) : Bool := decide (n < 0x010)

/-! ## Binding and invalidation, performed by MOVS (R155, R163, R208, R432) -/

/-- The descriptor read in a context's address space (R432). -/
def readDesc (w : Who) (va : Nat) : Mem (List DWord) := do
  let bs ← engineRead w va 32
  return (List.range 4).map fun i => BitVec.ofNat 64 (fieldAt bs (8 * i) 8)

/-- A gathering queue is bound to a descriptor (R155). -/
def bindQueue (w : Who) (n : Nat) (reg : DWord) : Mem Unit := do
  let ws ← readDesc w (bits reg.toNat 47 5 * 32)
  Mem.mod fun s =>
    let s := s.discardTile n
    s.setGq n { s.gq n with reg := reg, bound := true, desc := ws }

/-- A gathering queue is unbound (R155). -/
def State.unbindQueue (s : State) (n : Nat) (reg : DWord) : State :=
  let s := s.discardTile n
  s.setGq n { s.gq n with reg := reg, bound := false, desc := [0, 0, 0, 0] }

/-- A pool is bound to a descriptor: every node is free (R163). -/
def bindPool (w : Who) (n : Nat) (reg : DWord) : Mem Unit := do
  let ws ← readDesc w (bits reg.toNat 47 5 * 32)
  let s ← get
  Pool.bind { s.pool n with reg := reg, bound := true, desc := ws } n

/-- A pool is unbound. -/
def State.unbindPool (s : State) (n : Nat) (reg : DWord) : State :=
  s.setPool n { s.pool n with reg := reg, bound := false, desc := [0, 0, 0, 0], head := metaNone }

/-- A write of TLBINV (R208). -/
def State.tlbinv (s : State) (x : Nat) : State :=
  match x % 4 with
  | 0 => s.tlbDropPage (bits x 63 48) (bits x 47 12 * 4096)
  | 1 => s.tlbDropAsn (bits x 63 48)
  | 2 => { s with tlb := [] }
  | _ => s

/-- A write of GQDn or PLDn (R432). -/
def writeUnit (w : Who) (pool : Bool) (n x : Nat) : Mem Unit := do
  let reg := masked x (vaMask 5 + 1)
  match pool, x.testBit 0 with
  | false, true => bindQueue w n reg
  | false, false => Mem.mod fun s => s.unbindQueue n reg
  | true, true => bindPool w n reg
  | true, false => Mem.mod fun s => s.unbindPool n reg

/-- An event of binding acts in the context whose MOVS performs it; a fault leaves the binding unchanged (R432). -/
def State.bindEvent (s : State) (ctx : Word) (pool : Bool) (n : Nat) (x : DWord) : State :=
  match (writeUnit (hwWho ctx true [4, n]) pool n x.toNat).on s with
  | (.ok _, s) => s
  | (.error .wait, t) => t.dueRow (if pool then .pldBind ctx n x else .gqdBind ctx n x)
  | (.error (.trap _), s) => s

/-- TLBINV_PAGE (R208). -/
def execTlbinvPage (asn : Half) (vpn : BitVec 36) (s : State) : Out := .next (s.tlbDropPage asn.toNat (vpn.toNat * 4096))

/-- TLBINV_ASN (R208). -/
def execTlbinvAsn (asn : Half) (s : State) : Out := .next (s.tlbDropAsn asn.toNat)

/-- TLBINV_ALL (R208). -/
def execTlbinvAll (s : State) : Out := .next { s with tlb := [] }

/-- GQD_BIND (R155, R432). -/
def execGqdBind (ctx : Word) (n : Nat) (desc : DWord) (s : State) : Out := .next (s.bindEvent ctx false n (desc ||| 1))

/-- GQD_UNBIND (R155). -/
def execGqdUnbind (n : Nat) (s : State) : Out := .next (s.unbindQueue n 0)

/-- PLD_BIND (R163, R432). -/
def execPldBind (ctx : Word) (n : Nat) (desc : DWord) (s : State) : Out := .next (s.bindEvent ctx true n (desc ||| 1))

/-- PLD_UNBIND (R163). -/
def execPldUnbind (n : Nat) (s : State) : Out := .next (s.unbindPool n 0)

/-! ## MOVS (R431 to R433) -/

/-- A register of the group, the context, the core or the device is written. -/
def writeSreg (w : Who) (n x : Nat) : Mem Unit := do
  let cx (f : Ctx → Ctx) : Mem Unit := Mem.mod fun s => s.modCx s.g.ctx f
  let gr (f : Group → Group) : Mem Unit := Mem.mod fun s => { s with g := f s.g }
  let x32 : Word := BitVec.ofNat 32 x
  if n = 0x010 then gr fun g => { g with fpctl := fpctlWrite g.fpctl x32 }
  else if n = 0x011 then gr fun g => { g with stk := masked x (255 * 2 ^ 56 + vaMask 6) }
  else if n = 0x012 then gr fun g => { g with dbg := x32 &&& 3#32 }
  else if n = 0x020 then cx fun c => { c with atb := masked x (0xFFFF * 2 ^ 48 + (2 ^ 41 - 4096)) }
  else if n = 0x021 then cx fun c => { c with tbase := masked x (vaMask 6 + 3) }
  else if n = 0x023 then cx fun c => { c with dlnact := x32 }
  else if n = 0x024 then cx fun c => { c with bpb := masked x (vaMask 7) }
  else if n = 0x025 then cx fun c => c.detcWrite (BitVec.ofNat 64 x)
  else if n ≤ 0x02F then cx fun c => { c with detce := modifyAt (fun e => detceWrite e (BitVec.ofNat 64 x)) c.detce (n - 0x026) }
  else if n = 0x030 then Mem.mod fun s => s.tlbinv x
  else if n ≤ 0x04F then writeUnit w false (n - 0x040) x
  else if n ≤ 0x057 then writeUnit w true (n - 0x050) x
  else if n ≤ 0x067 then Mem.mod fun s => s.modCore s.g.core fun c =>
    { c with ecfg := modifyAt (fun _ => ecfgMask x32) c.ecfg (n - 0x060), ecnt := modifyAt (fun _ => 0) c.ecnt (n - 0x060) }
  else Mem.mod fun s =>
    { s with dcfg := modifyAt (fun _ => ecfgMask x32) s.dcfg (n - 0x070), dcnt := modifyAt (fun _ => 0) s.dcnt (n - 0x070) }

/-- A register of a lane is written (R431). -/
def Lane.writeSreg (a : Lane) (n : Nat) (x : DWord) : Lane :=
  if n = 0x003 then { a with tpc := x } else { a with spdepth := bits x.toNat 7 0 }

/-- MOVS (R433). -/
def execMovs (h : Hdr) (sreg : BitVec 10) (a : Src) (s : State) : Out :=
  let i := Info.sys h (Src.regs a) (len1 a)
  let n := sreg.toNat
  let wide := ((sregInfo n).map (·.wide)).getD false
  let val (g : Group) (l : Nat) : DWord := if wide then g.s64 a l else (g.s32 a l).zeroExtend 64
  Out.then (issue i s fun s act =>
    if sregLane n then
      if sregPrivW n && !s.g.priv then s.raiseAll i.len act (.mk0 cPERM)
      else { s with g := s.g.modLanes act fun l x => x.writeSreg n (val s.g l) }
    else
      s.uniform i.len act (val s.g) fun x =>
        if sregPrivW n && !s.g.priv then s.raiseAll i.len act (.mk0 cPERM)
        else s.memOnce i act (writeSreg (s.who (lowest act)) n x.toNat)) State.settle

/-! ## MOVSR (R306, R431, R434) -/

/-- ASYNCST (R305). -/
def Group.asyncst (g : Group) : Nat := (List.range 8).foldl (fun x i => x + min 255 (g.async.getD i 0) * 2 ^ (8 * i)) 0

/-- The value of a system register, of lane l where it is per lane; LPC is the address of the word in issue (R431). -/
def State.readSreg (s : State) (n l : Nat) : DWord :=
  let a := s.g.lane l
  let cx := s.cx s.g.ctx
  let core := s.core s.g.core
  if n = 0x000 then s.g.iss.pc
  else if n = 0x001 then a.tcause.zeroExtend 64
  else if n = 0x002 then a.taddr
  else if n = 0x003 then a.tpc
  else if n = 0x004 then a.tnpc
  else if n = 0x005 then BitVec.ofNat 64 a.spdepth
  else if n = 0x010 then s.g.fpctl.zeroExtend 64
  else if n = 0x011 then s.g.stk
  else if n = 0x012 then s.g.dbg.zeroExtend 64
  else if n = 0x013 then BitVec.ofNat 64 s.g.asyncst
  else if n = 0x020 then cx.atb
  else if n = 0x021 then cx.tbase
  else if n = 0x022 then cx.dln
  else if n = 0x023 then cx.dlnact.zeroExtend 64
  else if n = 0x024 then cx.bpb
  else if n = 0x025 then cx.detc
  else if n ≤ 0x02F then cx.detce.getD (n - 0x026) 0
  else if n ≤ 0x04F then (s.gq (n - 0x040)).reg
  else if n ≤ 0x057 then (s.pool (n - 0x050)).reg
  else if n ≤ 0x067 then (core.ecfg.getD (n - 0x060) 0).zeroExtend 64
  else if n ≤ 0x07F then (s.dcfg.getD (n - 0x070) 0).zeroExtend 64
  else if n = 0x080 then s.clk
  else if n = 0x081 then s.rtc
  else if n = 0x082 then BitVec.ofNat 64 s.g.core
  else if n = 0x083 then BitVec.ofNat 64 s.g.slot
  else if n ≤ 0x08F then core.ecnt.getD (n - 0x088) 0
  else s.dcnt.getD (n - 0x090) 0

/-- The registers that a MOVSR names. -/
def SrDst.regs : SrDst → List VReg
  | .v d => [d]
  | _ => []

/-- MOVSR (R434). -/
def execMovsr (h : Hdr) (d : SrDst) (sreg : BitVec 10) (s : State) : Out :=
  let i := Info.sys h (SrDst.regs d) 1
  let n := sreg.toNat
  let wide := ((sregInfo n).map (·.wide)).getD false
  let quar := sregQ n && (match d with
    | .q _ => false
    | _ => true)
  issue i s fun s act =>
    if quar then s.raiseAll 1 act (.mk0 cQUAR)
    else if sregPrivR n && !s.g.priv then s.raiseAll 1 act (.mk0 cPERM)
    else
      let x := s.readSreg n (lowest act)
      match d with
      | .q r => { s with g := s.g.wq r x }
      | .k r => { s with g := if wide then s.g.wk64 r x else s.g.wk r (x.truncate 32) }
      | .v r =>
        let put (g : Group) (l : Nat) : Group :=
          let y := s.readSreg n l
          if wide then g.wv64 r l y else g.wv r l (y.truncate 32)
        { s with g := (lanesIn act s.g.width).foldl put s.g }

/-! ## MOVQ (R307, R435) -/

/-- Each page of a MOVQ store that has a translation must have PROF = 1, lowest byte first; QUAR comes before the causes of the access
itself (R285, R435). -/
def checkQuar (w : Who) : Nat → Nat → Nat → Mem Unit
  | 0, _, _ => pure ()
  | f + 1, va, n => do
    if n = 0 then return
    let k ← tryCatch (do
      let l ← walk w va
      if !l.prof then throw (.trap (Cause.at cQUAR 0 (BitVec.ofNat 64 va)))
      return l.left) fun e => match e with
        | .trap c => if c.code = cQUAR then throw e else pure n
        | .wait => throw e
    checkQuar w f (va + k) (n - min n k)

/-- MOVQ (R435). -/
def execMovq (h : Hdr) (d : QReg) (adr : Adr) (s : State) : Out :=
  mop (.sys h (Adr.regs adr) (alen adr)) s fun s l => do
    let a := s.g.ea64 adr 8 l
    if 0 ≤ a ∧ a < (2 ^ 48 : Nat) then withAcc 1 (checkQuar (s.who l) 3 a.toNat 8)
    let e ← vaCheck a 4 1
    storeBytes (s.who l) e 0 (toBytes 8 (s.g.rq d).toNat)
    return {}

/-! ## TRET and LANEEND (R290, R436) -/

/-- TRET marks the active lanes, which leave the handler at the end of their clause (R436). -/
def execTret (h : Hdr) (s : State) : Out :=
  issue (.sys h [] 1) s fun s act =>
    if !s.g.handler then s.raiseAll 1 act (.mk0 cPERM)
    else { s with g := s.g.modLanes act fun _ a => { a with marked := true } }

/-- LANEEND kills the active lanes; a group left with no live lane retires, and its launch completes with STATUS 2 (R290, R436). -/
def execLaneend (h : Hdr) (s : State) : Out :=
  Out.then (issue (.sys h [] 1) s fun s act =>
    if !s.g.handler then s.raiseAll 1 act (.mk0 cPERM)
    else
      let g := (s.g.endLanes act .killed).leaveHandler
      let s := { s with g := g }
      if g.dead then s.modTask g.task fun t => { t with ended := true } else s) State.settle

/-! ## PKRD and PKWR (R437) -/

/-- The checks of R437 on a lane number and a selector. -/
def Group.pkCheck (g : Group) (t sel : Nat) : Option Cause :=
  let num := bits sel 9 0
  let cls := bits sel 11 10
  if cls = 0 ∧ g.beyond (BitVec.ofNat 10 num) then some (.mk0 cREGBOUND)
  else if g.width ≤ t then some (Cause.at cPERM 0 (BitVec.ofNat 64 t))
  else if (cls = 1 ∧ 15 < num) ∨ (cls = 2 ∧ 63 < num) ∨ cls = 3 then some (.mk0 cPERM)
  else none

/-- The program's k register while the handler runs: 48 to 62 lie in the bank set aside (R289). -/
def Group.progK (g : Group) (n : Nat) : Word :=
  if n = 63 then 0 else if 48 ≤ n then Store.get 0 g.kshadow n else Store.get 0 g.k n

/-- The register that a selector names (R437). -/
def Group.pkRead (g : Group) (t sel : Nat) : Word :=
  let num := bits sel 9 0
  match bits sel 11 10 with
  | 0 => g.rv (BitVec.ofNat 10 num) t
  | 1 => if g.rp (BitVec.ofNat 4 num) t then 1 else 0
  | _ => g.progK num

def Group.pkWrite (g : Group) (t sel : Nat) (x : Word) : Group :=
  let num := bits sel 9 0
  match bits sel 11 10 with
  | 0 => g.wv (BitVec.ofNat 10 num) t x
  | 1 => g.wp (BitVec.ofNat 4 num) t (x.getLsbD 0)
  | _ =>
    if num = 63 then g
    else if 48 ≤ num then { g with kshadow := Store.put 0 g.kshadow num x }
    else { g with k := Store.put 0 g.k num x }

/-- PKRD (R437). -/
def execPkrd (h : Hdr) (d : VReg) (a b : Src) (s : State) : Out :=
  vop (.sys h (d :: (Src.regs a ++ Src.regs b)) (len2 a b)) s fun g l =>
    if !g.handler then { trap := some (.mk0 cPERM) }
    else
      let t := (g.s32 a l).toNat
      let sel := (g.s32 b l).toNat
      match g.pkCheck t sel with
      | some c => { trap := some c }
      | none => { v := [(d, g.pkRead t sel)] }

/-- PKWR (R437). -/
def execPkwr (h : Hdr) (a b : Src) (c : VReg) (s : State) : Out :=
  let n := len2 a b
  issue (.sys h (c :: (Src.regs a ++ Src.regs b)) n) s fun s act =>
    if !s.g.handler then s.raiseAll n act (.mk0 cPERM)
    else
      let g0 := s.g
      let t (l : Nat) : Nat := (g0.s32 a l).toNat
      let sel (l : Nat) : Nat := (g0.s32 b l).toNat
      let bad := laneSet g0.width fun l => act.getLsbD l && (g0.pkCheck (t l) (sel l)).isSome
      let g := (lanesIn (act &&& ~~~bad) g0.width).foldl (fun g l => g.pkWrite (t l) (sel l) (g0.rv c l)) g0
      ({ s with g := g }).raise n bad fun l => (g0.pkCheck (t l) (sel l)).getD (.mk0 0)

end Sys2Proof.Machine
end

