-- ==== Sys2Proof/Machine/Timers.lean ====
section
/-! DEFINITION. The flush timer of a gathering queue and the expiry of a deadline (R157, R167 to R169). -/
namespace Sys2Proof.Machine

/-! ## Gathering tiles (R149, R157) -/

/-- FLUSH µs have passed since the first row entered the open tile. -/
def State.flushDue (s : State) (n : Nat) : Bool :=
  let q := s.gq n
  q.bound && q.flush != 0 && !q.rows.isEmpty && decide (q.first + q.flush ≤ s.rtc.toNat)

/-- A tile waits to be posted (R149). -/
def State.tileWaits (s : State) (n : Nat) : Bool := !(s.gq n).posts.isEmpty

/-- TILE_FLUSH_TIMER (R157): the open tile is posted, after any tile that waits. -/
def execTileFlushTimer (queue : Nat) (s : State) : Out :=
  if s.tileWaits queue then .next (s.postTile queue).settle
  else if s.flushDue queue then .next (s.closeTile queue true).settle
  else .next s

/-! ## Deadlines (R167 to R169) -/

/-- The context's deadline has expired, or its expiry is not yet complete. -/
def State.deadlineDue (s : State) (ctx : Word) : Bool :=
  let c := s.cx ctx
  c.expiring || (c.dln.getLsbD 63 && decide (bits c.dln.toNat 62 0 ≤ s.rtc.toNat))

/-- Step 1 of R169: ARMED clears, the slots freeze, and matching cards and rows go; in a DET launch this is an event of DETC (R308). -/
def State.expire (s : State) (ctx : Word) : State :=
  if (s.cx ctx).expiring then s
  else
    let s := s.modCx ctx fun c => { c with dln := c.dln &&& (2 ^ 63 - 1), frozen := true, expiring := true }
    let s := if s.tasks.any fun t => t.ctx == ctx && t.isDet then s.detEvent ctx 1 0 else s
    let set := CSet.of (s.cx ctx).dlnact
    (s.cancelCards ctx set).cancelFuts ctx set

/-- The slots as the record carries them: the keys in four words, then the payloads (R113, R166). -/
def slotWords (bs : List Byte) : List DWord :=
  ((List.range 4).map fun i => BitVec.ofNat 64 (fieldAt bs (32 * i) 4 + fieldAt bs (32 * i + 16) 4 * 2 ^ 32))
    ++ (List.range 8).map fun i => BitVec.ofNat 64 (fieldAt bs (16 * i + 8) 8)

/-- Slots that cannot be read are free values in the record (assumption 2). -/
def State.freeSlotWords (s : State) : List DWord × State :=
  ((List.range 12).map fun i => Config.freeWord (s.freeCtr + 2 * i) ++ Config.freeWord (s.freeCtr + 2 * i + 1),
    { s with freeCtr := s.freeCtr + 24 })

/-- Step 3 of R169, and the slots' contents as step 5 carries them, read while they are frozen. -/
def expireUnits (ctx : Word) (set : CSet) : Mem (Option (List Byte)) := do
  cancelPools ctx set
  let s ← get
  try
    let bs ← engineRead (hwWho ctx true [11]) (s.slotVa ctx 0) 128
    return some bs
  catch e => match e with
    | .wait => throw .wait
    | .trap _ => return none

/-- Step 4 of R169: groups of a saved context receive the event when they resume (R167). -/
def State.expireGroups (s : State) (ctx : Word) (set : CSet) : State :=
  let s := s.cancelGroups ctx set
  if (s.cx ctx).run == .saved then s.modCx ctx fun c => { c with late := c.late ++ [.expiry c.dlnact] } else s

/-- Step 5 of R169: the KIND 3 record, of STATUS 1 (R447), goes to the enabled ring that holds the context, if there is one (R113). -/
def State.deadlineRecord (s : State) (ctx : Word) (ws : List DWord) : State :=
  match (List.range 16).find? fun n => (s.sq n).en && (s.sq n).ctx == ctx with
  | none => s
  | some n => s.complete n (completion ctx 1 3 0 ((s.detv ctx).toNat * 2 ^ 32) ws)

/-- DEADLINE_EXPIRY (R169). -/
def execDeadlineExpiry (ctx : Word) (s : State) : Out :=
  if s.deadlineDue ctx then
    let s := s.expire ctx
    let set := CSet.of (s.cx ctx).dlnact
    match (expireUnits ctx set).on s with
    | (.error _, s) => .next s
    | (.ok bs, s) =>
      let (ws, s) := match bs with
        | some b => (slotWords b, s)
        | none => s.freeSlotWords
      let s := (s.expireGroups ctx set).modCx ctx fun c => { c with expiring := false }
      .next (s.deadlineRecord ctx ws)
  else .next s

end Sys2Proof.Machine
end

