-- ==== Sys2Proof/Machine/Uniform.lean ====
section
/-! DEFINITION. The uniform instructions (R360, R361). -/
namespace Sys2Proof.Machine

/-- The writes of a k result, 32 or 64 bits wide. -/
def kres (w : Bool) (d : KReg) (x : BitVec 64 × Bool) : OnceOut :=
  { k := if w then kwrites64 d x.1 else [(d, x.1.truncate 32)], sat := x.2 }

/-- A k operand's value, 32 or 64 bits wide. -/
def Group.kval (g : Group) (n w : Bool) (a : KSrc) : Int :=
  if w then ival n (g.ks64 a) else ival n (g.ks32 a)

/-- A 32-bit k result. -/
def k32 (d : KReg) (x : Word) : OnceOut := { k := [(d, x)] }

/-- A k result with its clamp. -/
def kSat (d : KReg) (x : Word × Bool) : OnceOut := { k := [(d, x.1)], sat := x.2 }

def kInfo (h : Hdr) (a b : KSrc) : Info := .any h [] (klen2 a b)

/-- KADD and KSUB: exact, then wrapped or clamped at 32 or 64 bits (R361). -/
def kArith (w n sat : Bool) (x : Int) : BitVec 64 × Bool :=
  if w then intRes 64 n sat x else ((intRes 32 n sat x).1.zeroExtend 64, (intRes 32 n sat x).2)

/-- KMOV. -/
def execKmov (h : Hdr) (d : KReg) (a : KSrc) (w : Bool) (s : State) : Out :=
  kop (.any h [] (klen1 a)) s fun g => { k := if w then kwrites64 d (g.ks64 a) else [(d, g.ks32 a)] }

/-- KMOV with an immediate. -/
def execKmovImm (h : Hdr) (d : KReg) (imm : Imm) (s : State) : Out :=
  kop (.any h [] 1) s fun _ => k32 d (imm.signExtend 32)

/-- KADD. -/
def execKadd (h : Hdr) (d : KReg) (a b : KSrc) (n sat w : Bool) (s : State) : Out :=
  kop (kInfo h a b) s fun g => kres w d (kArith w n sat (g.kval n w a + g.kval n w b))

/-- KADD with an immediate. -/
def execKaddImm (h : Hdr) (d a : KReg) (imm : Imm) (s : State) : Out :=
  kop (.any h [] 1) s fun g => k32 d (g.rk a + imm.signExtend 32)

/-- KSUB. -/
def execKsub (h : Hdr) (d : KReg) (a b : KSrc) (n sat w : Bool) (s : State) : Out :=
  kop (kInfo h a b) s fun g => kres w d (kArith w n sat (g.kval n w a - g.kval n w b))

/-- KMUL. -/
def execKmul (h : Hdr) (d : KReg) (a b : KSrc) (n sat : Bool) (s : State) : Out :=
  kop (kInfo h a b) s fun g => kSat d (intRes 32 n sat (ival n (g.ks32 a) * ival n (g.ks32 b)))

/-- KMIN. -/
def execKmin (h : Hdr) (d : KReg) (a b : KSrc) (n : Bool) (s : State) : Out :=
  kop (kInfo h a b) s fun g => k32 d (minInt n (g.ks32 a) (g.ks32 b))

/-- KMAX. -/
def execKmax (h : Hdr) (d : KReg) (a b : KSrc) (n : Bool) (s : State) : Out :=
  kop (kInfo h a b) s fun g => k32 d (maxInt n (g.ks32 a) (g.ks32 b))

/-- KAND. -/
def execKand (h : Hdr) (d : KReg) (a b : KSrc) (s : State) : Out :=
  kop (kInfo h a b) s fun g => k32 d (g.ks32 a &&& g.ks32 b)

/-- KOR. -/
def execKor (h : Hdr) (d : KReg) (a b : KSrc) (s : State) : Out :=
  kop (kInfo h a b) s fun g => k32 d (g.ks32 a ||| g.ks32 b)

/-- KXOR. -/
def execKxor (h : Hdr) (d : KReg) (a b : KSrc) (s : State) : Out :=
  kop (kInfo h a b) s fun g => k32 d (g.ks32 a ^^^ g.ks32 b)

/-- KSHL. -/
def execKshl (h : Hdr) (d : KReg) (a b : KSrc) (n sat : Bool) (s : State) : Out :=
  kop (kInfo h a b) s fun g => kSat d (shl n sat (g.ks32 a) (g.ks32 b))

/-- KSHR. -/
def execKshr (h : Hdr) (d : KReg) (a b : KSrc) (s : State) : Out :=
  kop (kInfo h a b) s fun g => k32 d (shr (g.ks32 a) (g.ks32 b))

/-- KSAR. -/
def execKsar (h : Hdr) (d : KReg) (a b : KSrc) (s : State) : Out :=
  kop (kInfo h a b) s fun g => k32 d (sar (g.ks32 a) (g.ks32 b))

/-- KCMP. -/
def execKcmp (h : Hdr) (d : KReg) (a b : KSrc) (cmp : Cmp) (n : Bool) (s : State) : Out :=
  kop (kInfo h a b) s fun g => k32 d (if cmpInt cmp n (g.ks32 a) (g.ks32 b) then 1 else 0)

/-- KSEL. -/
def execKsel (h : Hdr) (d : KReg) (a b : KSrc) (c : KReg) (s : State) : Out :=
  kop (kInfo h a b) s fun g => k32 d (if g.rk c ≠ 0 then g.ks32 a else g.ks32 b)

end Sys2Proof.Machine
end

