-- ==== Sys2Proof/Machine/Dispatch.lean ====
section
/-! DEFINITION. One arm per constructor of Instr: its meaning. -/
namespace Sys2Proof.Machine

/-- The meaning of an instruction or event. -/
def exec (i : Instr) (s : State) : Host.Outcome State Fault Refusal :=
  match i with
  | .thermalShutdown sensor temp => Sys2Proof.Machine.execThermalShutdown sensor temp s
  | .arbiterWindow temp => Sys2Proof.Machine.execArbiterWindow temp s
  | .hostWindowRead off len => Sys2Proof.Machine.execHostWindowRead off len s
  | .hostWindowWrite off data => Sys2Proof.Machine.execHostWindowWrite off data s
  | .sectorRead sector ctx => Sys2Proof.Machine.execSectorRead sector ctx s
  | .sectorWrite sector mask data ctx => Sys2Proof.Machine.execSectorWrite sector mask data ctx s
  | .scrubSector ch => Sys2Proof.Machine.execScrubSector ch s
  | .memoryRetrain ch bad => Sys2Proof.Machine.execMemoryRetrain ch bad s
  | .mrepCommandComplete ch => Sys2Proof.Machine.execMrepCommandComplete ch s
  | .linkLaneFailure link => Sys2Proof.Machine.execLinkLaneFailure link s
  | .linkTrained link width rate peer plink => Sys2Proof.Machine.execLinkTrained link width rate peer plink s
  | .flitReceive link flit => Sys2Proof.Machine.execFlitReceive link flit s
  | .replayRequest link seq => Sys2Proof.Machine.execReplayRequest link seq s
  | .retryBackoffExpiry txid => Sys2Proof.Machine.execRetryBackoffExpiry txid s
  | .deviceLossTimeout dev => Sys2Proof.Machine.execDeviceLossTimeout dev s
  | .l2Evict dpa => Sys2Proof.Machine.execL2Evict dpa s
  | .l1DirtyTimeout core sector => Sys2Proof.Machine.execL1DirtyTimeout core sector s
  | .ringEntryFetch n => Sys2Proof.Machine.execRingEntryFetch n s
  | .completionRecordWrite n => Sys2Proof.Machine.execCompletionRecordWrite n s
  | .corePull core => Sys2Proof.Machine.execCorePull core s
  | .clauseIssue core quad => Sys2Proof.Machine.execClauseIssue core quad s
  | .blockRetire launch block => Sys2Proof.Machine.execBlockRetire launch block s
  | .launchComplete launch => Sys2Proof.Machine.execLaunchComplete launch s
  | .detCommit launch block => Sys2Proof.Machine.execDetCommit launch block s
  | .nodeLaunch graph => Sys2Proof.Machine.execNodeLaunch graph s
  | .nodeJoin graph => Sys2Proof.Machine.execNodeJoin graph s
  | .nodeCond graph => Sys2Proof.Machine.execNodeCond graph s
  | .nodeWhile graph => Sys2Proof.Machine.execNodeWhile graph s
  | .nodeEndw graph => Sys2Proof.Machine.execNodeEndw graph s
  | .nodeStore graph => Sys2Proof.Machine.execNodeStore graph s
  | .nodeDecr graph => Sys2Proof.Machine.execNodeDecr graph s
  | .nodeWaitd graph => Sys2Proof.Machine.execNodeWaitd graph s
  | .nodeEnd graph => Sys2Proof.Machine.execNodeEnd graph s
  | .nodeInvalid graph => Sys2Proof.Machine.execNodeInvalid graph s
  | .watchdogExpiry core => Sys2Proof.Machine.execWatchdogExpiry core s
  | .tileFlushTimer queue => Sys2Proof.Machine.execTileFlushTimer queue s
  | .deadlineExpiry ctx => Sys2Proof.Machine.execDeadlineExpiry ctx s
  | .mmaKstep core => Sys2Proof.Machine.execMmaKstep core s
  | .drainElement core => Sys2Proof.Machine.execDrainElement core s
  | .copyChunk core ch => Sys2Proof.Machine.execCopyChunk core ch s
  | .spatialQuery atoll => Sys2Proof.Machine.execSpatialQuery atoll s
  | .spatialStepBody atoll => Sys2Proof.Machine.execSpatialStepBody atoll s
  | .engineAcknowledge e => Sys2Proof.Machine.execEngineAcknowledge e s
  | .tlbinvPage asn vpn => Sys2Proof.Machine.execTlbinvPage asn vpn s
  | .tlbinvAsn asn => Sys2Proof.Machine.execTlbinvAsn asn s
  | .gqdBind ctx n desc => Sys2Proof.Machine.execGqdBind ctx n desc s
  | .gqdUnbind n => Sys2Proof.Machine.execGqdUnbind n s
  | .pldBind ctx n desc => Sys2Proof.Machine.execPldBind ctx n desc s
  | .pldUnbind n => Sys2Proof.Machine.execPldUnbind n s
  | .nop h => Sys2Proof.Machine.execNop h s
  | .bra h imm => Sys2Proof.Machine.execBra h imm s
  | .brx h a => Sys2Proof.Machine.execBrx h a s
  | .call h imm => Sys2Proof.Machine.execCall h imm s
  | .callx h a => Sys2Proof.Machine.execCallx h a s
  | .ret h => Sys2Proof.Machine.execRet h s
  | .exit h => Sys2Proof.Machine.execExit h s
  | .yield h => Sys2Proof.Machine.execYield h s
  | .jmark h j => Sys2Proof.Machine.execJmark h j s
  | .jwait h j => Sys2Proof.Machine.execJwait h j s
  | .bar h b => Sys2Proof.Machine.execBar h b s
  | .abar h b => Sys2Proof.Machine.execAbar h b s
  | .chkc h => Sys2Proof.Machine.execChkc h s
  | .bkpt h => Sys2Proof.Machine.execBkpt h s
  | .trap h code => Sys2Proof.Machine.execTrap h code s
  | .trapSvc h n => Sys2Proof.Machine.execTrapSvc h n s
  | .pseti h d a b c cmp n => Sys2Proof.Machine.execPseti h d a b c cmp n s
  | .psetiImm h d a cmp n imm => Sys2Proof.Machine.execPsetiImm h d a cmp n imm s
  | .psetf h d a b c cmp => Sys2Proof.Machine.execPsetf h d a b c cmp s
  | .plop h d a b lut => Sys2Proof.Machine.execPlop h d a b lut s
  | .pmov h op => Sys2Proof.Machine.execPmov h op s
  | .vote h op a => Sys2Proof.Machine.execVote h op a s
  | .kmov h d a w64 => Sys2Proof.Machine.execKmov h d a w64 s
  | .kmovImm h d imm => Sys2Proof.Machine.execKmovImm h d imm s
  | .kadd h d a b n sat w64 => Sys2Proof.Machine.execKadd h d a b n sat w64 s
  | .kaddImm h d a imm => Sys2Proof.Machine.execKaddImm h d a imm s
  | .ksub h d a b n sat w64 => Sys2Proof.Machine.execKsub h d a b n sat w64 s
  | .kmul h d a b n sat => Sys2Proof.Machine.execKmul h d a b n sat s
  | .kmin h d a b n => Sys2Proof.Machine.execKmin h d a b n s
  | .kmax h d a b n => Sys2Proof.Machine.execKmax h d a b n s
  | .kand h d a b => Sys2Proof.Machine.execKand h d a b s
  | .kor h d a b => Sys2Proof.Machine.execKor h d a b s
  | .kxor h d a b => Sys2Proof.Machine.execKxor h d a b s
  | .kshl h d a b n sat => Sys2Proof.Machine.execKshl h d a b n sat s
  | .kshr h d a b => Sys2Proof.Machine.execKshr h d a b s
  | .ksar h d a b => Sys2Proof.Machine.execKsar h d a b s
  | .kcmp h d a b cmp n => Sys2Proof.Machine.execKcmp h d a b cmp n s
  | .ksel h d a b c => Sys2Proof.Machine.execKsel h d a b c s
  | .mov h d a w64 => Sys2Proof.Machine.execMov h d a w64 s
  | .movImm h d imm => Sys2Proof.Machine.execMovImm h d imm s
  | .sel h d a b c => Sys2Proof.Machine.execSel h d a b c s
  | .iadd h d a b n sat => Sys2Proof.Machine.execIadd h d a b n sat s
  | .iaddImm h d a imm => Sys2Proof.Machine.execIaddImm h d a imm s
  | .isub h d a b n sat => Sys2Proof.Machine.execIsub h d a b n sat s
  | .imul h d a b n sat => Sys2Proof.Machine.execImul h d a b n sat s
  | .imulImm h d a imm => Sys2Proof.Machine.execImulImm h d a imm s
  | .imulh h d a b n => Sys2Proof.Machine.execImulh h d a b n s
  | .imad h d a b c n sat => Sys2Proof.Machine.execImad h d a b c n sat s
  | .imadw h d a b c n sat => Sys2Proof.Machine.execImadw h d a b c n sat s
  | .imin h d a b n => Sys2Proof.Machine.execImin h d a b n s
  | .imax h d a b n => Sys2Proof.Machine.execImax h d a b n s
  | .iabs h d a sat => Sys2Proof.Machine.execIabs h d a sat s
  | .ineg h d a sat => Sys2Proof.Machine.execIneg h d a sat s
  | .iand h d a b => Sys2Proof.Machine.execIand h d a b s
  | .iandImm h d a imm => Sys2Proof.Machine.execIandImm h d a imm s
  | .ior h d a b => Sys2Proof.Machine.execIor h d a b s
  | .iorImm h d a imm => Sys2Proof.Machine.execIorImm h d a imm s
  | .ixor h d a b => Sys2Proof.Machine.execIxor h d a b s
  | .ixorImm h d a imm => Sys2Proof.Machine.execIxorImm h d a imm s
  | .inot h d a => Sys2Proof.Machine.execInot h d a s
  | .ishl h d a b n sat => Sys2Proof.Machine.execIshl h d a b n sat s
  | .ishlImm h d a imm => Sys2Proof.Machine.execIshlImm h d a imm s
  | .ishr h d a b => Sys2Proof.Machine.execIshr h d a b s
  | .ishrImm h d a imm => Sys2Proof.Machine.execIshrImm h d a imm s
  | .isar h d a b => Sys2Proof.Machine.execIsar h d a b s
  | .isarImm h d a imm => Sys2Proof.Machine.execIsarImm h d a imm s
  | .irot h d a b => Sys2Proof.Machine.execIrot h d a b s
  | .popc h d a => Sys2Proof.Machine.execPopc h d a s
  | .clz h d a => Sys2Proof.Machine.execClz h d a s
  | .brev h d a => Sys2Proof.Machine.execBrev h d a s
  | .bfe h d a b n => Sys2Proof.Machine.execBfe h d a b n s
  | .bfi h d a b c => Sys2Proof.Machine.execBfi h d a b c s
  | .iadd64 h d a b n sat => Sys2Proof.Machine.execIadd64 h d a b n sat s
  | .isub64 h d a b n sat => Sys2Proof.Machine.execIsub64 h d a b n sat s
  | .iclamp h d a b c n => Sys2Proof.Machine.execIclamp h d a b c n s
  | .padd16 h d a b sat sub => Sys2Proof.Machine.execPadd16 h d a b sat sub s
  | .pmac16 h d a b c => Sys2Proof.Machine.execPmac16 h d a b c s
  | .pshr h d a b hi => Sys2Proof.Machine.execPshr h d a b hi s
  | .hash h d a b => Sys2Proof.Machine.execHash h d a b s
  | .lxch h d a b seg mode => Sys2Proof.Machine.execLxch h d a b seg mode s
  | .slide h d a b c => Sys2Proof.Machine.execSlide h d a b c s
  | .red h d a seg op n sat => Sys2Proof.Machine.execRed h d a seg op n sat s
  | .scan h d a seg excl op n sat => Sys2Proof.Machine.execScan h d a seg excl op n sat s
  | .bcast h d a b => Sys2Proof.Machine.execBcast h d a b s
  | .krdl h d a b => Sys2Proof.Machine.execKrdl h d a b s
  | .fadd h d a b rm sat => Sys2Proof.Machine.execFadd h d a b rm sat s
  | .fsub h d a b rm sat => Sys2Proof.Machine.execFsub h d a b rm sat s
  | .fmul h d a b rm sat => Sys2Proof.Machine.execFmul h d a b rm sat s
  | .ffma h d a b c rm sat => Sys2Proof.Machine.execFfma h d a b c rm sat s
  | .fdiv h d a b rm sat => Sys2Proof.Machine.execFdiv h d a b rm sat s
  | .fmin h d a b => Sys2Proof.Machine.execFmin h d a b s
  | .fmax h d a b => Sys2Proof.Machine.execFmax h d a b s
  | .fabs h d a => Sys2Proof.Machine.execFabs h d a s
  | .fneg h d a => Sys2Proof.Machine.execFneg h d a s
  | .frnd h d a rm => Sys2Proof.Machine.execFrnd h d a rm s
  | .fscale h d a b rm sat => Sys2Proof.Machine.execFscale h d a b rm sat s
  | .fclass h d a => Sys2Proof.Machine.execFclass h d a s
  | .frcp h d a rm sat => Sys2Proof.Machine.execFrcp h d a rm sat s
  | .frsq h d a rm sat => Sys2Proof.Machine.execFrsq h d a rm sat s
  | .fsqrt h d a rm sat => Sys2Proof.Machine.execFsqrt h d a rm sat s
  | .fexp2 h d a rm sat => Sys2Proof.Machine.execFexp2 h d a rm sat s
  | .flog2 h d a rm sat => Sys2Proof.Machine.execFlog2 h d a rm sat s
  | .fsin h d a rm sat => Sys2Proof.Machine.execFsin h d a rm sat s
  | .fcos h d a rm sat => Sys2Proof.Machine.execFcos h d a rm sat s
  | .hadd2 h d a b rm sat f16 => Sys2Proof.Machine.execHadd2 h d a b rm sat f16 s
  | .hsub2 h d a b rm sat f16 => Sys2Proof.Machine.execHsub2 h d a b rm sat f16 s
  | .hmul2 h d a b rm sat f16 => Sys2Proof.Machine.execHmul2 h d a b rm sat f16 s
  | .hfma2 h d a b c rm sat f16 => Sys2Proof.Machine.execHfma2 h d a b c rm sat f16 s
  | .hmin2 h d a b f16 => Sys2Proof.Machine.execHmin2 h d a b f16 s
  | .hmax2 h d a b f16 => Sys2Proof.Machine.execHmax2 h d a b f16 s
  | .hdot2 h d a b c rm sat f16 => Sys2Proof.Machine.execHdot2 h d a b c rm sat f16 s
  | .cvt h d a dfmt sfmt spos rm sat => Sys2Proof.Machine.execCvt h d a dfmt sfmt spos rm sat s
  | .cvt2 h d a b dfmt sfmt dpos rm sat => Sys2Proof.Machine.execCvt2 h d a b dfmt sfmt dpos rm sat s
  | .ld h sz d adr ann pf => Sys2Proof.Machine.execLd h sz d adr ann pf s
  | .st h sz d adr ann => Sys2Proof.Machine.execSt h sz d adr ann s
  | .lds h sz d adr ann => Sys2Proof.Machine.execLds h sz d adr ann s
  | .sts h sz d adr ann => Sys2Proof.Machine.execSts h sz d adr ann s
  | .ldk h w64 d adr ann => Sys2Proof.Machine.execLdk h w64 d adr ann s
  | .pref h l2 adr => Sys2Proof.Machine.execPref h l2 adr s
  | .cctl h op => Sys2Proof.Machine.execCctl h op s
  | .fence h scope => Sys2Proof.Machine.execFence h scope s
  | .qfence h mask scope => Sys2Proof.Machine.execQfence h mask scope s
  | .atom h op ty d a b c ord scope => Sys2Proof.Machine.execAtom h op ty d a b c ord scope s
  | .atomFadd h d a b ord scope => Sys2Proof.Machine.execAtomFadd h d a b ord scope s
  | .atoms h op n d a b c ord => Sys2Proof.Machine.execAtoms h op n d a b c ord s
  | .atomsFadd h d a b ord => Sys2Proof.Machine.execAtomsFadd h d a b ord s
  | .shape h sh a b fmt => Sys2Proof.Machine.execShape h sh a b fmt s
  | .shext h sh a => Sys2Proof.Machine.execShext h sh a s
  | .shq h d sh => Sys2Proof.Machine.execShq h d sh s
  | .wbld h a b slot ch => Sys2Proof.Machine.execWbld h a b slot ch s
  | .mma h f a b sh pk twin z => Sys2Proof.Machine.execMma h f a b sh pk twin z s
  | .accrd h d f b w4 => Sys2Proof.Machine.execAccrd h d f b w4 s
  | .accwr h f a b => Sys2Proof.Machine.execAccwr h f a b s
  | .accclr h f => Sys2Proof.Machine.execAccclr h f s
  | .wmark h d f => Sys2Proof.Machine.execWmark h d f s
  | .drnld h n => Sys2Proof.Machine.execDrnld h n s
  | .copy h d a b ch => Sys2Proof.Machine.execCopy h d a b ch s
  | .rdwpt h d ch => Sys2Proof.Machine.execRdwpt h d ch s
  | .ringp h ring op => Sys2Proof.Machine.execRingp h ring op s
  | .ringc h ring op => Sys2Proof.Machine.execRingc h ring op s
  | .regacq h a => Sys2Proof.Machine.execRegacq h a s
  | .regrel h a => Sys2Proof.Machine.execRegrel h a s
  | .spawn h a b c => Sys2Proof.Machine.execSpawn h a b c s
  | .enq h a mode => Sys2Proof.Machine.execEnq h a mode s
  | .decr h a b => Sys2Proof.Machine.execDecr h a b s
  | .waitd h a => Sys2Proof.Machine.execWaitd h a s
  | .leafq h d a b sp => Sys2Proof.Machine.execLeafq h d a b sp s
  | .fres h a b => Sys2Proof.Machine.execFres h a b s
  | .waitf h d a c => Sys2Proof.Machine.execWaitf h d a c s
  | .testf h d a => Sys2Proof.Machine.execTestf h d a s
  | .cqry h d a b => Sys2Proof.Machine.execCqry h d a b s
  | .dstep h d a => Sys2Proof.Machine.execDstep h d a s
  | .poola h d a c => Sys2Proof.Machine.execPoola h d a c s
  | .poolf h a b => Sys2Proof.Machine.execPoolf h a b s
  | .poolft h a b => Sys2Proof.Machine.execPoolft h a b s
  | .bestupd h a b c => Sys2Proof.Machine.execBestupd h a b c s
  | .dlnset h a => Sys2Proof.Machine.execDlnset h a s
  | .dlnrd h d => Sys2Proof.Machine.execDlnrd h d s
  | .cancel h a => Sys2Proof.Machine.execCancel h a s
  | .movs h sreg a => Sys2Proof.Machine.execMovs h sreg a s
  | .movsr h d sreg => Sys2Proof.Machine.execMovsr h d sreg s
  | .movq h d adr => Sys2Proof.Machine.execMovq h d adr s
  | .tret h => Sys2Proof.Machine.execTret h s
  | .laneend h => Sys2Proof.Machine.execLaneend h s
  | .pkrd h d a b => Sys2Proof.Machine.execPkrd h d a b s
  | .pkwr h a b c => Sys2Proof.Machine.execPkwr h a b c s
  | .copyResume launch block ch => Sys2Proof.Machine.execCopyResume launch block ch s
  | .drainResume core frame => Sys2Proof.Machine.execDrainResume core frame s
  | .powerGoodRelease => Sys2Proof.Machine.execPowerGoodRelease s
  | .powerGoodLoss => Sys2Proof.Machine.execPowerGoodLoss s
  | .railSequenceFault => Sys2Proof.Machine.execRailSequenceFault s
  | .boardReset => Sys2Proof.Machine.execBoardReset s
  | .perstDeassert => Sys2Proof.Machine.execPerstDeassert s
  | .boot => Sys2Proof.Machine.execBoot s
  | .lockstepMismatch => Sys2Proof.Machine.execLockstepMismatch s
  | .docentSafePoint => Sys2Proof.Machine.execDocentSafePoint s
  | .docentQuiesceTimeout => Sys2Proof.Machine.execDocentQuiesceTimeout s
  | .docentReady => Sys2Proof.Machine.execDocentReady s
  | .docentReadyTimeout => Sys2Proof.Machine.execDocentReadyTimeout s
  | .errorRecordWrite => Sys2Proof.Machine.execErrorRecordWrite s
  | .trapRingWrite => Sys2Proof.Machine.execTrapRingWrite s
  | .ctxRestoreLoad => Sys2Proof.Machine.execCtxRestoreLoad s
  | .tlbinvAll => Sys2Proof.Machine.execTlbinvAll s
  | .pwrbudWrite => Sys2Proof.Machine.execPwrbudWrite s
  | .registerWrite => Sys2Proof.Machine.execRegisterWrite s
  | .attest => Sys2Proof.Machine.execAttest s
  | .readIdentityCertificate => Sys2Proof.Machine.execReadIdentityCertificate s
  | .replaceDocent => Sys2Proof.Machine.execReplaceDocent s
  | .replaceDocentAndWriteFlash => Sys2Proof.Machine.execReplaceDocentAndWriteFlash s
  | .installRecoveryBundle => Sys2Proof.Machine.execInstallRecoveryBundle s
  | .fwmbxInvalidCommand => Sys2Proof.Machine.execFwmbxInvalidCommand s
  | .errctlWrite => Sys2Proof.Machine.execErrctlWrite s
  | .errbaseWrite => Sys2Proof.Machine.execErrbaseWrite s
  | .softRowRepair => Sys2Proof.Machine.execSoftRowRepair s
  | .hardRowRepair => Sys2Proof.Machine.execHardRowRepair s
  | .laneRemap => Sys2Proof.Machine.execLaneRemap s
  | .clearPoison => Sys2Proof.Machine.execClearPoison s
  | .retrain => Sys2Proof.Machine.execRetrain s
  | .mrepInvalidCommand => Sys2Proof.Machine.execMrepInvalidCommand s
  | .sdomLeave => Sys2Proof.Machine.execSdomLeave s
  | .sdomJoin => Sys2Proof.Machine.execSdomJoin s
  | .migrationStart => Sys2Proof.Machine.execMigrationStart s
  | .migrationRelease => Sys2Proof.Machine.execMigrationRelease s
  | .sqcfgWrite => Sys2Proof.Machine.execSqcfgWrite s
  | .sqDoorbell => Sys2Proof.Machine.execSqDoorbell s
  | .cqctlWrite => Sys2Proof.Machine.execCqctlWrite s
  | .trctlWrite => Sys2Proof.Machine.execTrctlWrite s
  | .trbaseWrite => Sys2Proof.Machine.execTrbaseWrite s
  | .ctxPreemptSave => Sys2Proof.Machine.execCtxPreemptSave s
  | .ctxRestore => Sys2Proof.Machine.execCtxRestore s
  | .ctxEnd => Sys2Proof.Machine.execCtxEnd s
  | .ctxRelease => Sys2Proof.Machine.execCtxRelease s
  | .ctxcmdInvalid => Sys2Proof.Machine.execCtxcmdInvalid s
  | .svcrelResume => Sys2Proof.Machine.execSvcrelResume s
  | .svcrelKill => Sys2Proof.Machine.execSvcrelKill s
  | .rds => Sys2Proof.Machine.execRds s
  | .rdx => Sys2Proof.Machine.execRdx s
  | .wb => Sys2Proof.Machine.execWb s
  | .cln => Sys2Proof.Machine.execCln s
  | .atomMessage => Sys2Proof.Machine.execAtomMessage s
  | .wrh => Sys2Proof.Machine.execWrh s
  | .leave => Sys2Proof.Machine.execLeave s
  | .join => Sys2Proof.Machine.execJoin s
  | .fwds => Sys2Proof.Machine.execFwds s
  | .fwdx => Sys2Proof.Machine.execFwdx s
  | .inv => Sys2Proof.Machine.execInv s
  | .rcl => Sys2Proof.Machine.execRcl s
  | .dats => Sys2Proof.Machine.execDats s
  | .date => Sys2Proof.Machine.execDate s
  | .datm => Sys2Proof.Machine.execDatm s
  | .rcld => Sys2Proof.Machine.execRcld s
  | .atomr => Sys2Proof.Machine.execAtomr s
  | .invack => Sys2Proof.Machine.execInvack s
  | .fwdack => Sys2Proof.Machine.execFwdack s
  | .fwdmiss => Sys2Proof.Machine.execFwdmiss s
  | .wback => Sys2Proof.Machine.execWback s
  | .retry => Sys2Proof.Machine.execRetry s
  | .poisoned => Sys2Proof.Machine.execPoisoned s
  | .done => Sys2Proof.Machine.execDone s
  | .unknownMessage => Sys2Proof.Machine.execUnknownMessage s

end Sys2Proof.Machine
end

