-- ==== Sys2Proof/Machine/Background.lean ====
section
/-! DEFINITION. What the device does of itself beside every step: the errors of R47 that are met, links that send, a page migration and a
departure that go on (R47, R55, R74, R78). -/
namespace Sys2Proof.Machine

/-! ## Errors in storage (R47; assumption 69) -/

/-- The record SRAM-UE of a unit (R98). -/
def State.sramUe (s : State) (sub engine inst repair : Nat) (ctx : Option Word) (dpa : Option Nat) : State :=
  s.report { ErrRec.mk0 0x08 sub engine inst repair with ctx := ctx, dpa := dpa }

/-- An uncorrectable error in a sector of L2: a clean home sector is dropped, to be read again from memory; a dirty one poisons its
grain; a remote grain is given up, as lost when the sector's data are nowhere else (R47, R73). It is met only once the grain can be
given up. -/
def State.strikeL2 (s : State) (k : Nat) : State :=
  match Store.look s.l2 k with
  | none => s
  | some e =>
    let note (s : State) (repair : Nat) : State := s.sramUe 5 1 (s.sliceOf (32 * k)) repair none (some (32 * k))
    if e.rst = .home then
      let t := { s with l2 := Store.erase s.l2 k }
      if e.dirty then note (t.poison (homeSec k) e.gr) 4 else note t 2
    else
      let g := holder k e.gr
      let lost := e.dirty || e.rst == .o
      let t := s.evictRemote g e.gr lost
      if t.remoteSt g = .home then note t (if lost then 4 else 2) else { t with upsets := t.upsets ++ [.l2 k] }

/-- The lanes that lose the stores of a dirty sector: those of the groups of the context that wrote it, on the cores that use its cache;
which of their lanes is a free choice (assumption 69). -/
def State.storeLosers (s : State) (core : Nat) (ctx : Option Word) : List Upset :=
  (s.allGroups.filter fun g => (s.l1Cores g.core).contains core && ctx == some g.ctx).map fun g =>
    .unit 3 g.core g.slot (BitVec.ofNat 128 ((List.range 4).foldl (fun m i => m * 2 ^ 32 + (Config.freeWord (s.freeCtr + i)).toNat) 0))

/-- A parity error in a sector of a first-level cache: clean, it is dropped; dirty, it is discarded and the lanes lose their stores (R47). -/
def State.strikeL1 (s : State) (key : Nat) : State :=
  match Store.look s.l1 key with
  | none => s
  | some e =>
    let core := key / 2 ^ 36
    let s := { s with l1 := Store.erase s.l1 key }
    if e.dirty = 0 then s.sramUe 3 3 core 2 none (some (32 * (key % 2 ^ 36)))
    else
      { s with upsets := s.upsets ++ s.storeLosers core e.ctx, freeCtr := s.freeCtr + 4 }.sramUe 3 3 core 0 e.ctx
        (some (32 * (key % 2 ^ 36)))

/-- A parity error in a weight-buffer slot: it is refetched from the source recorded (R47). -/
def State.strikeWeight (s : State) (core slot : Nat) : State :=
  let w := (s.core core).wslot slot
  match if w.st = .empty then none else s.task w.task with
  | none => s
  | some t => (s.sramUe 4 4 core 2 (some t.ctx) none).refill core slot t.ctx

/-- An error is met by itself, or stays for the word, the drain or the chunk that meets it; one that nothing can meet any more is
gone. -/
def State.strike (s : State) (u : Upset) : State :=
  match u with
  | .l2 k => s.strikeL2 k
  | .l1 key => s.strikeL1 key
  | .weight core slot => s.strikeWeight core slot
  | .unit _ core slot _ =>
    if s.allGroups.any fun g => g.core == core && g.slot == slot then { s with upsets := s.upsets ++ [u] } else s
  | .drain core _ => if (s.core core).drain.isSome then { s with upsets := s.upsets ++ [u] } else s
  | .copy core ch => if ((s.core core).chan ch).isEmpty then s else { s with upsets := s.upsets ++ [u] }

/-- Every error that has arisen is considered once. -/
def State.strikeAll (s : State) : State := s.upsets.foldl State.strike { s with upsets := [] }

/-- The error that a step's number chooses (assumption 69). -/
def upsetOf (x : Nat × Nat × Nat × Nat) : Upset :=
  let (kind, a, b, m) := x
  match kind % 9 with
  | 0 => .l2 a
  | 1 => .l1 a
  | 2 => .weight a b
  | 3 => .unit 0 a b (BitVec.ofNat 128 m)
  | 4 => .unit 1 a b (BitVec.ofNat 128 m)
  | 5 => .unit 2 a b (BitVec.ofNat 128 m)
  | 6 => .unit 6 a b (BitVec.ofNat 128 m)
  | 7 => .drain a (m.testBit 0)
  | _ => .copy a b

/-- Docent, while it runs, assigns a counter to a context or to none (R152; assumption 28). -/
def State.assignCounter (s : State) : State :=
  match if s.fw.docRun then Config.counterOwner s.tick else none with
  | some (n, o) => s.setCounter (n % 4096) { s.counter (n % 4096) with owner := o }
  | none => s

/-- The error that arises in this step, if one does, and the counter that Docent assigns. -/
def State.arise (s : State) : State :=
  { s with upsets := s.upsets ++ ((Config.upset s.tick).map upsetOf).toList }.assignCounter

/-! ## The whole -/

/-- Nothing of the background is due. -/
def State.calm (s : State) : Bool :=
  s.upsets.isEmpty && !s.coh.smigBusy && s.coh.mst != 1 && s.links.all fun e => e.2.queues.all List.isEmpty

/-- What the background does. -/
def State.backgroundWork (s : State) : State :=
  let s := s.strikeAll.pumpAll
  let s := if s.coh.smigBusy then s.migRun s.migSteps else s
  s.leaveOn

/-- The background of a step, while the device runs: it touches no group. -/
def State.background (s : State) : State :=
  if s.calm || s.pwr.inReset || s.pwr.thermal then s else { s.backgroundWork with g := s.g, groups := s.groups }

/-! ## Errors that a word meets (R47, R285) -/

/-- A word uses the unit in which an error lies: the registers and lost stores concern every word (assumption 69). -/
def usesUnit (sub : Nat) (i : Instr) : Bool :=
  match sub, i with
  | 0, _ | 3, _ => true
  | 1, .lds .. | 1, .sts .. | 1, .atoms .. | 1, .atomsFadd .. => true
  | 2, .accrd .. => true
  | 6, .ld .. | 6, .st .. | 6, .ldk .. | 6, .atom .. | 6, .atomFadd .. => true
  | _, _ => false

/-- The error of a list that the word in issue meets on lanes that act at it; none while the word waits. -/
def State.met (s : State) (us : List Upset) (i : Instr) (act : BitVec 128) : Option Upset :=
  if s.g.iss.wait.isSome || s.g.iss.todo.isSome then none
  else us.find? fun u => match u with
    | .unit sub core slot x => core == s.g.core && slot == s.g.slot && usesUnit sub i && x &&& act != 0
    | _ => false

/-- The lanes that an error concerns. -/
def Upset.lanes : Upset → BitVec 128
  | .unit _ _ _ x => x
  | _ => 0

/-- The acting lanes of an error that report ECC: those that no earlier cause traps at the word, as its outcome t shows, and that are not
held before it (R285). -/
def eccLanes (s t : State) (u : Upset) (act : BitVec 128) : BitVec 128 :=
  laneSet s.g.width fun l => act.getLsbD l && u.lanes.getLsbD l &&
    !(match t.findGroup s.g.task s.g.block s.g.index with
      | none => false
      | some g =>
        (g.lane l).st == .held || ((g.lane l).st == .trapped && (List.elem
          (bits (g.lane l).tcause.toNat 7 0) [cTAG, cNAN, cSAT, cBKPT, cSTEP] == false)))

/-- The record of an error that lanes of the group in issue meet (R47, R95, R98). -/
def State.unitRecord (s : State) (sub : Nat) : State :=
  if sub = 6 then s.report { ErrRec.mk0 0x07 8 2 s.g.core 3 with ctx := some s.g.ctx, info0 := s.g.iss.pc }
  else if sub = 3 then s
  else s.report { ErrRec.mk0 0x08 sub 3 s.g.core 0 with ctx := some s.g.ctx, info0 := s.g.iss.pc }

/-- Lanes take ECC at the word of n words in issue, before any effect, and the error is met (R44, R47, R287). -/
def State.strikeLanes (s : State) (n : Nat) (u : Upset) (x : BitVec 128) : State :=
  match u with
  | .unit sub _ _ _ => ({ s with upsets := s.upsets.erase u }.unitRecord sub).raiseAll n x (.mk0 cECC)
  | _ => s

end Sys2Proof.Machine
end

