-- ==== Sys2Proof/Machine/Poll.lean ====
section
/-! DEFINITION. What a step does next: the word in issue, the events that the device performs of itself, and how an event of the
agenda is handed to its meaning (assumption 1). -/
namespace Sys2Proof.Machine

/-! ## The word in issue -/

/-- What stands at the pc of the clause in issue. -/
inductive Current where
  | ended
  | illegal
  | word (i : Instr)
deriving DecidableEq, Repr

/-- The instruction at the pc: the clause is over when no lane executes it any more or no word is left (R318). -/
def State.current (s : State) : Current :=
  if s.inClause then
    match decode s.g.enc s.g.iss.rest with
    | some (i, _) => .word i
    | none => .illegal
  else .ended

/-- ILLEGAL on the executing lanes (R325). -/
def State.illegalWord (s : State) : State := (s.raiseAll 1 s.g.iss.x (.mk0 cILLEGAL)).settle

/-! ## Events of the agenda -/

/-- The instruction that performs an event. -/
def Event.instr : Event → Instr
  | .row i => i
  | .access a | .posted a => Access.row a
  | .message m => Msg.row m

/-- The register access or the message of an event is presented to its meaning. -/
def State.present (s : State) (e : Event) : State :=
  match e with
  | .row _ => s
  | .access a | .posted a => { s with bus := a }
  | .message m => { s with rx := m }

/-! ## Events that the device performs of itself -/

/-- The device runs: it is not held in reset or shut down (R29 to R31). -/
def State.powered (s : State) : Bool := !s.pwr.inReset && !s.pwr.thermal

/-- The device takes an event: held in reset it takes none but those of the board (R29 to R31). -/
def State.takes (s : State) (e : Event) : Bool :=
  !s.pwr.inReset || match e with
    | .row .powerGoodRelease | .row .powerGoodLoss | .row .railSequenceFault | .row .boardReset | .row .perstDeassert => true
    | _ => false

/-- A register write of the host that comes after accesses of the host which wait (R86). -/
def State.behindHost (s : State) (e : Event) : Bool :=
  match e with
  | .access a => a.who == .host && !s.hostq.isEmpty
  | _ => false

/-- The cores that hold state. -/
def State.liveCores (s : State) : List Nat := List.range s.part.cores

/-- An event for each element at which it is due. -/
def dueOf {α : Type} (l : List α) (p : α → Bool) (i : α → Instr) : List Instr := (l.filter p).map i

/-- The events of the cores and their engines that are due (R137, R144, R146, R200, R247, R264, R276, R281). -/
def State.coreEvents (s : State) : List Instr :=
  (s.liveCores.flatMap fun c =>
    dueOf (List.range 4) (s.issueDue c) (.clauseIssue c)
      ++ dueOf [c] (fun c => !(s.core c).idle) .corePull
      ++ dueOf [c] (fun c => decide (2 ^ 20 ≤ (s.core c).watch)) .watchdogExpiry
      ++ dueOf [c] (fun c => (s.nextOp c).isSome) .mmaKstep
      ++ dueOf [c] (fun c => (s.nextDrain c).isSome) .drainElement
      ++ dueOf (List.range 4) (fun ch => (s.nextCopy c ch).isSome) (.copyChunk c))
  ++ (List.range (s.part.cores / 4)).filterMap fun a =>
      (s.nextSp a).map fun c => if c.step then .spatialStepBody a else .spatialQuery a

/-- The events of launches, graphs and rings that are due (R97, R103, R107, R113, R117, R157, R169, R291, R310). -/
def State.taskEvents (s : State) : List Instr :=
  dueOf s.blocks s.mayRetire (fun b => .blockRetire b.task b.idx)
    ++ dueOf s.blocks s.mayCommit (fun b => .detCommit b.task b.idx)
    ++ dueOf s.tasks s.mayComplete (fun t => .launchComplete t.id)
    ++ dueOf s.graphs s.mayWalk s.nodeOf
    ++ dueOf (List.range 16) (fun n => (s.sq n).fetchDue) .ringEntryFetch
    ++ dueOf (List.range 16) (fun n => (s.sq n).recordDue) .completionRecordWrite
    ++ dueOf (List.range 16) (fun n => s.tileWaits n || s.flushDue n) .tileFlushTimer
    ++ dueOf (s.ctxs.map fun e => BitVec.ofNat 32 e.1) s.deadlineDue .deadlineExpiry
    ++ dueOf [Instr.errorRecordWrite] (fun _ => s.errorDue) id
    ++ dueOf [Instr.trapRingWrite] (fun _ => !s.trap.due.isEmpty) id

/-- The events of memory, coherence and links that are due (R49, R52, R64, R76, R196, R198). -/
def State.memoryEvents (s : State) : List Instr :=
  dueOf s.coh.outs (·.waiting) (fun o => .retryBackoffExpiry o.txid)
    ++ s.late.map (fun d => .deviceLossTimeout (BitVec.ofNat 3 d))
    ++ dueOf s.l1 (fun e => e.2.dirty != 0 && decide (e.2.since + 1024 ≤ s.clk.toNat))
        (fun e => .l1DirtyTimeout (e.1 / 2 ^ 36) (e.1 % 2 ^ 36))
    ++ s.l2.map (fun e => .l2Evict (32 * e.1))
    ++ dueOf (List.range s.part.channels) (fun c => (s.chan c).busy) .mrepCommandComplete
    ++ dueOf (List.range s.part.channels) (fun _ => s.mscrub.getLsbD 31) .scrubSector

/-- The events of Docent in a replacement, and of the collector (R93, R294). -/
def State.controlEvents (s : State) : List Instr :=
  dueOf [Instr.docentSafePoint, .docentQuiesceTimeout] (fun _ => s.fw.docQuiesce) id
    ++ dueOf [Instr.docentReady, .docentReadyTimeout] (fun _ => s.fw.docStart) id
    ++ dueOf s.engines s.mayAck .engineAcknowledge

/-- A mailbox command in progress that waits for its buffer (R92). -/
def State.mailboxRetry (s : State) : Option Instr :=
  if s.fw.busy && !s.fw.docQuiesce && !s.fw.docStart then
    match s.fw.cmd.toNat with
    | 1 => some .attest
    | 2 => some .readIdentityCertificate
    | 3 => some .replaceDocent
    | 4 => some .replaceDocentAndWriteFlash
    | _ => none
  else none

/-- A context command in progress that goes on: once every engine has acknowledged, or when it waits for memory or room (R294, R298
to R300). -/
def State.commandRetry (s : State) : Option Instr :=
  (s.creg.col).bind fun c =>
    match c.cmd.toNat with
    | 1 => if s.collected then some .ctxPreemptSave else none
    | 2 => some .ctxRestore
    | 3 => if s.collected then some .ctxEnd else none
    | 4 => some .ctxRelease
    | 5 => some .ctxRestoreLoad
    | _ => none

/-- What has begun and is tried again (R86, R92, R297). -/
def State.retries (s : State) : List Instr := (s.hostq.head?.map Event.instr).toList ++ s.mailboxRetry.toList ++ s.commandRetry.toList

/-- The events that are due, and whether each is the going on of something begun. -/
def State.dueEvents (s : State) : List (Instr × Bool) :=
  if s.powered then
    (s.coreEvents ++ s.taskEvents ++ s.memoryEvents ++ s.controlEvents).map (·, false) ++ s.retries.map (·, true)
  else []

/-- How often an event that is due has been passed over while it stayed due. -/
def State.overdue (s : State) (i : Instr) : Nat := ((s.passed.find? fun e => e.1 == i).map (·.2)).getD 0

/-- The choices for which an event that stays due may be passed over (R144, R145; assumption 1). -/
def pollBound : Nat := 1024

/-- The next event, chosen freely among those due, but for one that has been passed over too often, which comes first (assumption 1);
and the state after the choice. -/
def State.poll (s : State) : Option (Instr × State) :=
  let es := s.dueEvents
  let e := (es.find? fun e => decide (pollBound ≤ s.overdue e.1)).or es[(Config.freeWord s.freeCtr).toNat % max 1 es.length]?
  e.map fun e =>
    (e.1, { s.draw with again := e.2, passed := (es.filter fun x => x.1 != e.1).map fun x => (x.1, s.overdue x.1 + 1) })

/-! ## Placing an instruction -/

/-- A width-16 group in a SYS clause of its own, with these words. -/
def placedGroup (ws : List DWord) : Group :=
  { Group.idle with
    lanes := List.replicate 16 (Lane.start 8)
    iss := { on := true, hdr := 0, pc := 8, words := ws, cls := 6, x := 0xFFFF, wait := none, todo := none } }

/-- The instruction whose bits are w stands as the only one of the clause in issue. -/
def State.placeWord (s : State) (nbits w : Nat) : State :=
  let x := w % 2 ^ nbits
  let ws : List DWord := [BitVec.ofNat 64 x, BitVec.ofNat 64 (x >>> 64)]
  let n := match decode .e3 ws with
    | some (_, n) => n
    | none => 1
  { s with agenda := [], g := placedGroup (ws.take n) }

end Sys2Proof.Machine
end

