-- ==== Sys2Proof/Machine/Step.lean ====
section
/-! DEFINITION. One step of the device, and the placing of an instruction where the next step executes it. -/
namespace Sys2Proof.Machine

/-- A word has executed: what follows it; but where it meets an error of R47, the lanes concerned take ECC before it has any effect, and
the word is then executed by the others. -/
def State.wordDone (s : State) (us : List Upset) (i : Instr) (t : State) : State :=
  match s.met us i (s.acts i) with
  | some u =>
    let x := eccLanes s t u (s.acts i)
    if x ≠ 0 then (s.strikeLanes (((decode s.g.enc s.g.iss.rest).map (·.2)).getD 1) u x).settle
    else (t.afterWord s.g.core i (s.acts i)).parkWaiting
  | none => (t.afterWord s.g.core i (s.acts i)).parkWaiting

/-- The word in issue executes, and the clause ends after its last word (R180, R185); `us` are the errors of R47 that it may meet. -/
def wordStep (us : List Upset) (s : State) : Host.Outcome State Fault Refusal :=
  match s.current with
  | .ended => .next s.endClause
  | .illegal => .next s.illegalWord
  | .word i =>
    match exec i s with
    | .next t => .next (s.wordDone us i t)
    | r => r

/-- An event that is due happens, unless the device is held in reset; a register write of the host waits behind its earlier accesses. -/
def eventStep (e : Event) (s : State) : Host.Outcome State Fault Refusal :=
  if !s.takes e then .next s
  else if s.behindHost e then .next { s with hostq := s.hostq ++ [e] }
  else exec e.instr (s.present e)

/-- One step: an event of the agenda, the word in issue, or an event that the device performs of itself (assumption 1). -/
def step (s0 : State) : Host.Outcome State Fault Refusal :=
  let b := s0.background
  let s := b.advance.arise
  match s.agenda with
  | e :: rest => eventStep e { s with agenda := rest, again := false }
  | [] =>
    if s.issuing then wordStep b.upsets s
    else
      match s.poll with
      | some (i, t) => exec i t
      | none => if s.powered then .next s else .fault .heldInReset

/-- The state with one instruction alone in the clause in issue, of a width-16 group (assumption 1). -/
def State.withFetchWord (s : State) (nbits w : Nat) : State := s.placeWord nbits w

end Sys2Proof.Machine
end

