-- ==== Sys2Proof/Safety.lean ====
section
/-! DEFINITION. The terms in which claims are stated: a step that goes on, when an instruction executes normally, what it leaves as it
was, and the canonical form of the memories. -/
namespace Sys2Proof.Machine

/-- The canonical form of every memory: data bytes, side bytes, host memory and scratchpads. -/
def State.memOk (s : State) : Bool :=
  Memory.wf s.mem && Store.wf sideDefault s.side && Memory.wf s.hostmem && Memory.wf s.sp

/-- A safe outcome: the machine goes on. -/
def Goes (o : Out) : Prop := ∃ t, o = .next t

/-- Two states agree on everything but the group in issue and the cores' event counters. -/
def SameOutside (s t : State) : Prop :=
  { t with g := s.g, cores := s.cores } = s ∧ ∀ c, { t.core c with ecnt := (s.core c).ecnt } = s.core c

/-- Two groups agree on everything but v registers, k registers, predicates, FPCTL, the lanes and the clause in issue. -/
def SameGroup (g h : Group) : Prop :=
  { h with v := g.v, k := g.k, p := g.p, fpctl := g.fpctl, lanes := g.lanes, iss := g.iss } = g

/-! ## When an instruction executes normally -/

/-- Every CLASS of a clause (R317). -/
def anyClass : List Nat := [0, 1, 2, 3, 4, 5, 6]

/-- Every role of a group (R140). -/
def anyRole : List Role := [.general, .copy, .matrix, .vector]

/-- The VECTOR and GENERAL roles. -/
def vecRole : List Role := [.vector, .general]

/-- The MATRIX and GENERAL roles. -/
def matRole : List Role := [.matrix, .general]

/-- The word in issue executes normally: the clause's CLASS admits it (R317), the group's role may issue it (R140), a lane is
active (R185, R321), the registers it names lie within the grant (R177), it does not wait and STEP is not armed (R304). -/
structure Normal (s : State) (h : Hdr) (cls : List Nat) (roles : List Role) (regs : List VReg) : Prop where
  cls   : s.g.iss.cls ∈ cls
  role  : s.g.role ∈ roles
  act   : s.g.active h ≠ 0
  grant : ∀ r ∈ regs, r.toNat = 1023 ∨ r.toNat / 64 ≤ s.g.grant
  wait  : s.g.iss.wait = none
  step  : s.g.stepping = false

/-- The instruction of n words is the last of its clause (R181). -/
def Ends (s : State) (n : Nat) : Prop := s.g.iss.rest.length = n

/-- A point that needs the trapped lanes goes on: none is trapped, or the handler runs (R287). -/
def NotHeld (s : State) : Prop := s.g.anyTrapped = false ∨ s.g.handler = true

/-! ## What an instruction leaves -/

/-- The v registers with f written to register d of the active lanes, v1023 discarding it. -/
def setV (s : State) (h : Hdr) (d : VReg) (f : Nat → Word) (r : VReg) (l : Nat) : Word :=
  if r = d ∧ r.toNat ≠ 1023 ∧ (s.g.active h).getLsbD l then f l else s.g.rv r l

/-- The v registers with f written to the pair at d of the active lanes, v1023 discarding its half. -/
def setV64 (s : State) (h : Hdr) (d : VReg) (f : Nat → DWord) (r : VReg) (l : Nat) : Word :=
  if r.toNat ≠ 1023 ∧ (s.g.active h).getLsbD l then
    if r = d then (f l).truncate 32 else if r = d + 1 then (f l).extractLsb' 32 32 else s.g.rv r l
  else s.g.rv r l

/-- The k registers with x written to d, k63 discarding it. -/
def setK (s : State) (d : KReg) (x : Word) (r : KReg) : Word := if r = d ∧ r.toNat ≠ 63 then x else s.g.rk r

/-- The k registers with x written to the pair at d, k63 discarding its half. -/
def setK64 (s : State) (d : KReg) (x : DWord) (r : KReg) : Word :=
  if r.toNat = 63 then s.g.rk r
  else if r = d then x.truncate 32 else if r = d + 1 then x.extractLsb' 32 32 else s.g.rk r

/-- The predicates with f written to d of the active lanes, p15 discarding it. -/
def setP (s : State) (h : Hdr) (d : PReg) (f : Nat → Bool) (r : PReg) (l : Nat) : Bool :=
  if r = d ∧ r.toNat ≠ 15 ∧ (s.g.active h).getLsbD l then f l else s.g.rp r l

/-- Some active lane satisfies p. -/
def someLane (s : State) (h : Hdr) (p : Nat → Bool) : Bool :=
  (List.range 128).any fun l => (s.g.active h).getLsbD l && p l

/-- FPCTL with its sticky bits: SAT is bit 4 and NANP bit 5 (R242, R243, R245). -/
def stickyFp (fp : Word) (sat nan : Bool) : Word := fp ||| (if sat then 0x10 else 0) ||| (if nan then 0x20 else 0)

/-- The executing lanes stand after an instruction of n words, and otherwise the lanes are as they were (R180). -/
def movedLanes (s : State) (n : Nat) : List Lane :=
  s.g.lanes.mapIdx fun l a =>
    if s.g.iss.x.getLsbD l then
      { a with lpc := s.g.iss.after n, inside := if s.g.iss.last n then none else some s.g.iss.bounds }
    else a

/-- t follows s by one instruction of n words that leaves these v, k and p registers and this FPCTL: the pc and the executing lanes
stand after it, and nothing else has changed but the counters of events. -/
structure Follows (s t : State) (n : Nat) (v : VReg → Nat → Word) (k : KReg → Word) (p : PReg → Nat → Bool) (fp : Word) : Prop where
  outside : SameOutside s t
  group   : SameGroup s.g t.g
  v       : ∀ r l, l < 128 → t.g.rv r l = v r l
  k       : ∀ r, t.g.rk r = k r
  p       : ∀ r l, l < 128 → t.g.rp r l = p r l
  fpctl   : t.g.fpctl = fp
  iss     : { t.g.iss with todo := s.g.iss.todo } = { s.g.iss with pc := s.g.iss.after n }
  lanes   : t.g.lanes = movedLanes s n

/-- The instruction writes f to v register d of its active lanes, and nothing else changes. -/
def WritesV (s t : State) (h : Hdr) (n : Nat) (d : VReg) (f : Nat → Word) : Prop :=
  Follows s t n (setV s h d f) s.g.rk s.g.rp s.g.fpctl

/-- The instruction writes f to the v pair at d of its active lanes, and nothing else changes. -/
def WritesV64 (s t : State) (h : Hdr) (n : Nat) (d : VReg) (f : Nat → DWord) : Prop :=
  Follows s t n (setV64 s h d f) s.g.rk s.g.rp s.g.fpctl

/-- The instruction writes x to k register d, and nothing else changes. -/
def WritesK (s t : State) (n : Nat) (d : KReg) (x : Word) : Prop :=
  Follows s t n s.g.rv (setK s d x) s.g.rp s.g.fpctl

/-- The instruction writes x to the k pair at d, and nothing else changes. -/
def WritesK64 (s t : State) (n : Nat) (d : KReg) (x : DWord) : Prop :=
  Follows s t n s.g.rv (setK64 s d x) s.g.rp s.g.fpctl

/-- The instruction writes f to predicate d of its active lanes, and nothing else changes. -/
def WritesP (s t : State) (h : Hdr) (n : Nat) (d : PReg) (f : Nat → Bool) : Prop :=
  Follows s t n s.g.rv s.g.rk (setP s h d f) s.g.fpctl

/-- Where a vector instruction leaves the words w in register d, clamped and with a NaN produced where the two say so, and no lane
traps for it (R242, R243). -/
def Results (i : Instr) (s : State) (h : Hdr) (n : Nat) (d : VReg) (w : Nat → Word) (sat nan : Nat → Bool) : Prop :=
  (someLane s h sat = true → s.g.satt = false) → (someLane s h nan = true → s.g.nant = false) →
    ∃ t, exec i s = .next t ∧
      Follows s t n (setV s h d w) s.g.rk s.g.rp (stickyFp s.g.fpctl (someLane s h sat) (someLane s h nan))

/-- t follows s by an instruction of n words that leaves G of the group's own fields and the lanes by f: nothing outside the group
changes but the counters of events, and of the clause in issue only the pc. -/
structure Turns (s t : State) (n : Nat) (G : Group) (f : Nat → Lane → Lane) : Prop where
  outside : SameOutside s t
  group   : { t.g with lanes := s.g.lanes, iss := s.g.iss } = G
  iss     : { t.g.iss with todo := s.g.iss.todo } = { s.g.iss with pc := s.g.iss.after n }
  lanes   : t.g.lanes = (movedLanes s n).mapIdx f

/-- A lane that has gone to address t: at or below the clause header it yields, with a stamp (R186). -/
def Lane.gone (a : Lane) (hdr : DWord) (stamp t : Nat) : Lane :=
  if t ≤ hdr.toNat then { a with lpc := BitVec.ofNat 64 t, inside := none, yld := true, stamp := stamp }
  else { a with lpc := BitVec.ofNat 64 t, inside := none }

/-- The group with the stamp that a yield to an address of the list takes (R186). -/
def stamped (g : Group) (ts : List Nat) : Group :=
  { g with stamps := if ts.any (fun t => decide (t ≤ g.iss.hdr.toNat)) then g.stamps + 1 else g.stamps }

/-! ## An instruction that changes more than registers -/

/-- The state in which the own effect of an instruction of n words takes place: it is counted, and the executing lanes stand after
it (R180, R315). -/
def State.entered (s : State) (n : Nat) : State :=
  { s.countCore s.g.core 3 1 with g := { s.g with lanes := movedLanes s n } }

/-- The state after the own effect: the clause goes on behind the instruction. -/
def State.left (s : State) (n : Nat) : State :=
  { s with g := { s.g with iss := { s.g.iss with pc := s.g.iss.after n, todo := none } } }

/-- The instruction waits at its word, to be tried again for the lanes of a set (R404). -/
def State.stays (s u : State) (n : Nat) (w : Wait) (todo : Option (BitVec 128)) : State :=
  { u with g := { u.g.modLanes u.g.iss.x (fun _ a => { a with lpc := s.g.iss.pc, inside := some s.g.iss.bounds }) with
    iss := { u.g.iss with wait := some w, todo := todo } } }

/-- The active lanes of an instruction, ascending. -/
def State.activeLanes (s : State) (h : Hdr) : List Nat := lanesIn (s.g.active h) s.g.width

/-- The lanes of a list in turn perform accesses that all complete, each writing its result to the group: from s to t. -/
def Completes {α : Type} (acc : Nat → Mem α) (res : Nat → α) (wr : Nat → α → Group → Group) : List Nat → State → State → Prop
  | [], s, t => t = s
  | l :: ls, s, t => ∃ u, (acc l).on s = (.ok (res l), u) ∧ Completes acc res wr ls { u with g := wr l (res l) u.g } t

/-- The words of bytes written to consecutive v registers of a lane. -/
def putWords (d : VReg) (bs : List Byte) (l : Nat) (g : Group) : Group := (vwrites d bs).foldl (fun g w => g.wv w.1 l w.2) g

/-- The access on the bus is one of 4 or 8 aligned bytes to register r, which the part has and which admits its writer (R83). -/
def State.busTakes (s : State) (r : Reg) : Prop :=
  s.bus.ok = true ∧ regAt s.bus.off = r ∧ s.assigned r = true ∧ r.writers s.bus.who = true

/-- A field of the register on the bus as the access leaves it, from its old value. -/
def State.busField (s : State) (old hi lo : Nat) : Nat := s.bus.fieldOf old hi lo

/-! ## Messages of the coherence protocol -/

/-- The message on hand is taken: the device is in the domain and the sender present (R62, R75). -/
def State.takesMsg (s : State) : Prop := s.coh.en = true ∧ s.isPresent (mSrc s.rx) = true

/-- A sector of this home reads d with the coherence byte c: its L2 copy, or memory without an error (R42, R63). -/
def State.cleanAt (s : State) (k : Nat) (d : List Byte) (c : Byte) : Prop :=
  (∃ e, Store.look s.l2 k = some e ∧ e.data = d ∧ e.coh = c) ∨
    (Store.look s.l2 k = none ∧ readOutcome (homeSec k) (s.sector (homeSec k)) = .ok (d, c, none))

/-- The request on hand is one that this home performs now: its grain lies in this device's memory, is not redirected, no transaction
is open on it and nothing waits; its sectors read ds, and its coherence byte is b, that of no reserved state (R39, R64). -/
structure Serves (s : State) (ds : List (List Byte)) (b : Byte) : Prop where
  takes   : s.takesMsg
  home    : homeDev (mGrain s.rx) = s.own
  range   : s.outOfRange (32 * mGrain s.rx) = false
  direct  : s.redirected (mAddr s.rx) = none
  free    : s.txOpen (mGrain s.rx) = false
  waiting : s.coh.waiting = []
  length  : ds.length = mSize s.rx / 32
  data    : ∀ i (h : i < ds.length), ∃ c, s.cleanAt (mGrain s.rx + i) ds[i] c ∧ (i = 0 → c = b)
  legal   : b.getLsbD 6 = false ∧ (b.toNat % 8 ≤ 4 ∨ b.toNat % 8 = 6)
  owner   : 1 ≤ b.toNat % 8 → b.toNat % 8 ≤ 4 → s.isPresent (bits b.toNat 5 3) = true

/-- The forward or invalidation on hand is one that this device takes as an owner: it comes from the home of its grain. -/
def State.ownerTakes (s : State) : Prop :=
  s.takesMsg ∧ homeDev (mGrain s.rx) ≠ s.own ∧ homeDev (mGrain s.rx) = mSrc s.rx

/-- The answer on hand belongs to the request o, and the device is not leaving the domain. -/
def State.answers (s : State) (types : List Nat) (o : OutReq) : Prop :=
  s.takesMsg ∧ s.outFor s.rx types = some o ∧ s.coh.mst ≠ 1

/-- The answer on hand belongs to the open transaction t of this home. -/
def State.answersTx (s : State) (t : HomeTx) : Prop := s.takesMsg ∧ s.txFor s.rx = some t

/-! ## The graph walker -/

/-- The walker visits the current node of a graph: it may walk, the node lies in the graph and is read, and it is of the row given (R117). -/
structure Visits (s : State) (id : Nat) (row : Instr) (g : Graph) (ws : List DWord) (u : State) : Prop where
  graph : s.graph id = some g
  may   : s.mayWalk g = true
  node  : g.node < g.count
  read  : g.read.on s = (.ok ws, u)
  row   : nodeRow ws id = row
  after : u.graph id = some g

end Sys2Proof.Machine
end

