-- ==== Sys2Proof/Certificates/Slice0/Obligations.lean ====
section
/-! DEFINITION. The statements for the provers, by family of the opcode table. -/
open Sys2Proof Sys2Proof.Machine

/-! ## Integer vector -/

/-- R362 to R367, R370: the instructions whose result is a 32-bit word of their operands; the immediate forms take the sign-extended
immediate as their second operand and wrap. -/
def Obligations.IntegerResults : Prop :=
  (∀ (s : State) (h : Hdr) (d : VReg) (a b : Src) (n : Bool),
     Normal s h anyClass anyRole (d :: (Src.regs a ++ Src.regs b)) →
     ∀ e ∈ ([ (.iadd h d a b n false, fun x y => x + y),
              (.isub h d a b n false, fun x y => x - y),
              (.imul h d a b n false, fun x y => x * y),
              (.imulh h d a b true, fun x y => (x.zeroExtend 64 * y.zeroExtend 64).extractLsb' 32 32),
              (.imulh h d a b false, fun x y => (x.signExtend 64 * y.signExtend 64).extractLsb' 32 32),
              (.imin h d a b n, fun x y => if (if n then y.ult x else y.slt x) then y else x),
              (.imax h d a b n, fun x y => if (if n then x.ult y else x.slt y) then y else x),
              (.iand h d a b, fun x y => x &&& y),
              (.ior h d a b, fun x y => x ||| y),
              (.ixor h d a b, fun x y => x ^^^ y),
              (.ishl h d a b n false, fun x y => if y.toNat < 32 then x <<< y.toNat else 0),
              (.ishr h d a b, fun x y => if y.toNat < 32 then x >>> y.toNat else 0),
              (.isar h d a b, fun x y => if y.toNat < 32 then x.sshiftRight y.toNat else if x.toInt < 0 then 0xFFFFFFFF else 0),
              (.irot h d a b, fun x y => x.rotateLeft (y.toNat % 32)),
              (.bfe h d a b n, bfe n),
              (.hash h d a b, hash) ] : List (Instr × (Word → Word → Word))),
       ∃ t, exec e.1 s = .next t ∧ WritesV s t h (len2 a b) d fun l => e.2 (s.g.s32 a l) (s.g.s32 b l)) ∧
  (∀ (s : State) (h : Hdr) (d : VReg) (a b : Src) (c : VReg) (q : PReg) (n : Bool),
     (Normal s h anyClass anyRole (d :: Src.regs a) →
       ∀ e ∈ ([ (.mov h d a false, fun x => x),
                (.inot h d a, fun x => ~~~x),
                (.popc h d a, fun x => BitVec.ofNat 32 (((List.range 32).filter fun i => x.getLsbD i).length)),
                (.clz h d a, fun x => BitVec.ofNat 32 (((List.range 32).takeWhile fun i => !x.getLsbD (31 - i)).length)),
                (.brev h d a, fun x => x.reverse) ] : List (Instr × (Word → Word))),
         ∃ t, exec e.1 s = .next t ∧ WritesV s t h (len1 a) d fun l => e.2 (s.g.s32 a l)) ∧
     (Normal s h anyClass anyRole (d :: (Src.regs a ++ Src.regs b)) →
       ∃ t, exec (.sel h d a b q) s = .next t ∧
         WritesV s t h (len2 a b) d fun l => if s.g.rp q l then s.g.s32 a l else s.g.s32 b l) ∧
     (Normal s h anyClass anyRole (d :: c :: (Src.regs a ++ Src.regs b)) →
       ∀ e ∈ ([ (.imad h d a b c n false, fun x y z => x * y + z),
                (.bfi h d a b c, bfi),
                (.iclamp h d a b c n, fun x y z =>
                  let m := if (if n then x.ult y else x.slt y) then y else x
                  if (if n then z.ult m else z.slt m) then z else m) ] : List (Instr × (Word → Word → Word → Word))),
         ∃ t, exec e.1 s = .next t ∧
           WritesV s t h (len2 a b) d fun l => e.2 (s.g.s32 a l) (s.g.s32 b l) (s.g.rv c l))) ∧
  (∀ (s : State) (h : Hdr) (d a : VReg) (imm : Imm),
     (Normal s h anyClass anyRole [d, a] →
       ∀ e ∈ ([ (.iaddImm h d a imm, fun x y => x + y),
                (.imulImm h d a imm, fun x y => x * y),
                (.iandImm h d a imm, fun x y => x &&& y),
                (.iorImm h d a imm, fun x y => x ||| y),
                (.ixorImm h d a imm, fun x y => x ^^^ y),
                (.ishlImm h d a imm, fun x y => if y.toNat < 32 then x <<< y.toNat else 0),
                (.ishrImm h d a imm, fun x y => if y.toNat < 32 then x >>> y.toNat else 0),
                (.isarImm h d a imm, fun x y =>
                  if y.toNat < 32 then x.sshiftRight y.toNat else if x.toInt < 0 then 0xFFFFFFFF else 0) ]
                : List (Instr × (Word → Word → Word))),
         ∃ t, exec e.1 s = .next t ∧ WritesV s t h 1 d fun l => e.2 (s.g.rv a l) (imm.signExtend 32)) ∧
     (Normal s h anyClass anyRole [d] →
       ∃ t, exec (.movImm h d imm) s = .next t ∧ WritesV s t h 1 d fun _ => imm.signExtend 32))

/-- R243, R362 to R364, R366: the instructions that wrap their exact result, or clamp it under .sat and set FPCTL.SAT, with 32 and 64
bits; and what wrapping and clamping are. -/
def Obligations.IntegerExactResults : Prop :=
  (∀ (s : State) (h : Hdr) (d : VReg) (a b : Src) (c : VReg) (n sat : Bool),
     (Normal s h anyClass anyRole (d :: (Src.regs a ++ Src.regs b)) →
       ∀ e ∈ ([ (.iadd h d a b n sat, sat, fun x y => ival n x + ival n y),
                (.isub h d a b n sat, sat, fun x y => ival n x - ival n y),
                (.imul h d a b n sat, sat, fun x y => ival n x * ival n y),
                (.ishl h d a b n true, true, fun x y => ival n x * 2 ^ y.toNat) ] : List (Instr × Bool × (Word → Word → Int))),
         let r (l : Nat) := intRes 32 n e.2.1 (e.2.2 (s.g.s32 a l) (s.g.s32 b l))
         (someLane s h (fun l => (r l).2) = true → s.g.satt = false) →
         ∃ t, exec e.1 s = .next t ∧
           Follows s t (len2 a b) (setV s h d fun l => (r l).1) s.g.rk s.g.rp
             (stickyFp s.g.fpctl (someLane s h fun l => (r l).2) false)) ∧
     (Normal s h anyClass anyRole (d :: c :: (Src.regs a ++ Src.regs b)) →
       let r (l : Nat) := intRes 32 n sat (ival n (s.g.s32 a l) * ival n (s.g.s32 b l) + ival n (s.g.rv c l))
       (someLane s h (fun l => (r l).2) = true → s.g.satt = false) →
       ∃ t, exec (.imad h d a b c n sat) s = .next t ∧
         Follows s t (len2 a b) (setV s h d fun l => (r l).1) s.g.rk s.g.rp
           (stickyFp s.g.fpctl (someLane s h fun l => (r l).2) false)) ∧
     (Normal s h anyClass anyRole (d :: Src.regs a) →
       ∀ e ∈ ([ (.iabs h d a sat, fun x => (x.toInt.natAbs : Int)), (.ineg h d a sat, fun x => -x.toInt) ] : List (Instr × (Word → Int))),
         let r (l : Nat) := intRes 32 false sat (e.2 (s.g.s32 a l))
         (someLane s h (fun l => (r l).2) = true → s.g.satt = false) →
         ∃ t, exec e.1 s = .next t ∧
           Follows s t (len1 a) (setV s h d fun l => (r l).1) s.g.rk s.g.rp
             (stickyFp s.g.fpctl (someLane s h fun l => (r l).2) false))) ∧
  (∀ (s : State) (h : Hdr) (d : VReg) (a b : Src) (c : VReg) (n sat : Bool),
     (Normal s h anyClass anyRole (d :: Src.regs a) →
       ∃ t, exec (.mov h d a true) s = .next t ∧ WritesV64 s t h (len1 a) d fun l => s.g.s64 a l) ∧
     (Normal s h anyClass anyRole (d :: c :: (Src.regs a ++ Src.regs b)) →
       let r (l : Nat) := intRes 64 n sat (ival n (s.g.s32 a l) * ival n (s.g.s32 b l) + ival n (s.g.rv64 c l))
       (someLane s h (fun l => (r l).2) = true → s.g.satt = false) →
       ∃ t, exec (.imadw h d a b c n sat) s = .next t ∧
         Follows s t (len2 a b) (setV64 s h d fun l => (r l).1) s.g.rk s.g.rp
           (stickyFp s.g.fpctl (someLane s h fun l => (r l).2) false)) ∧
     (Normal s h anyClass anyRole (d :: (Src.regs a ++ Src.regs b)) →
       ∀ e ∈ ([ (.iadd64 h d a b n sat, fun x y => ival n x + ival n y),
                (.isub64 h d a b n sat, fun x y => ival n x - ival n y) ] : List (Instr × (DWord → DWord → Int))),
         let r (l : Nat) := intRes 64 n sat (e.2 (s.g.s64 a l) (s.g.s64 b l))
         (someLane s h (fun l => (r l).2) = true → s.g.satt = false) →
         ∃ t, exec e.1 s = .next t ∧
           Follows s t (len2 a b) (setV64 s h d fun l => (r l).1) s.g.rk s.g.rp
             (stickyFp s.g.fpctl (someLane s h fun l => (r l).2) false))) ∧
  (∀ (w : Nat) (n : Bool) (x : Int), 0 < w →
     ((intRes w n false x).2 = false ∧ (intRes w n false x).1.toNat = (x % (2 ^ w : Nat)).toNat) ∧
     (let lo : Int := if n then 0 else -(2 ^ (w - 1) : Nat)
      let hi : Int := if n then ((2 ^ w : Nat) : Int) - 1 else ((2 ^ (w - 1) : Nat) : Int) - 1
      ((intRes w n true x).2 = true ↔ x < lo ∨ hi < x) ∧
      ival n (intRes w n true x).1 = if x < lo then lo else if hi < x then hi else x))

/-- R234, R244, R368, R369: the packed 16-bit instructions. -/
def Obligations.PackedResults : Prop :=
  ∀ (s : State) (h : Hdr) (d : VReg) (a b : Src) (c : VReg) (sat f : Bool),
    (Normal s h anyClass vecRole (d :: (Src.regs a ++ Src.regs b)) →
      let lane (x : Word) (i : Nat) : Int := (x.extractLsb' (16 * i) 16).toInt
      let e (l i : Nat) : Int :=
        if f then lane (s.g.s32 a l) i - lane (s.g.s32 b l) i else lane (s.g.s32 a l) i + lane (s.g.s32 b l) i
      let r (l i : Nat) := intRes 16 false sat (e l i)
      (someLane s h (fun l => (r l 0).2 || (r l 1).2) = true → s.g.satt = false) →
      ∃ t, exec (.padd16 h d a b sat f) s = .next t ∧
        Follows s t (len2 a b) (setV s h d fun l => (r l 1).1 ++ (r l 0).1) s.g.rk s.g.rp
          (stickyFp s.g.fpctl (someLane s h fun l => (r l 0).2 || (r l 1).2) false)) ∧
    (Normal s h anyClass vecRole (d :: c :: (Src.regs a ++ Src.regs b)) →
      let lane (x : Word) (i : Nat) : Int := (x.extractLsb' (16 * i) 16).toInt
      let r (l : Nat) := intRes 32 false true
        ((s.g.rv c l).toInt + lane (s.g.s32 a l) 0 * lane (s.g.s32 b l) 0 + lane (s.g.s32 a l) 1 * lane (s.g.s32 b l) 1)
      (someLane s h (fun l => (r l).2) = true → s.g.satt = false) →
      ∃ t, exec (.pmac16 h d a b c) s = .next t ∧
        Follows s t (len2 a b) (setV s h d fun l => (r l).1) s.g.rk s.g.rp
          (stickyFp s.g.fpctl (someLane s h fun l => (r l).2) false)) ∧
    (Normal s h anyClass vecRole (d :: (Src.regs a ++ Src.regs b)) →
      let r (l : Nat) := pshr (s.g.s32 a l) (s.g.s32 b l)
      (someLane s h (fun l => (r l).2) = true → s.g.satt = false) →
      ∃ t, exec (.pshr h d a b f) s = .next t ∧
        Follows s t (len2 a b)
          (setV s h d fun l =>
            if f then (r l).1 ++ (s.g.rv d l).extractLsb' 0 16 else (s.g.rv d l).extractLsb' 16 16 ++ (r l).1)
          s.g.rk s.g.rp (stickyFp s.g.fpctl (someLane s h fun l => (r l).2) false))

/-! ## Uniform and predicates -/

/-- R243, R360, R361: the uniform instructions act once, on k registers; sums, differences, products and shifts wrap, or clamp under
.sat and set FPCTL.SAT. -/
def Obligations.UniformResults : Prop :=
  (∀ (s : State) (h : Hdr) (d a' c : KReg) (a b : KSrc) (imm : Imm) (cmp : Cmp) (n : Bool), Normal s h anyClass anyRole [] →
     (∀ e ∈ ([ (.kmul h d a b n false, fun x y => x * y),
               (.kmin h d a b n, fun x y => if (if n then y.ult x else y.slt x) then y else x),
               (.kmax h d a b n, fun x y => if (if n then x.ult y else x.slt y) then y else x),
               (.kand h d a b, fun x y => x &&& y),
               (.kor h d a b, fun x y => x ||| y),
               (.kxor h d a b, fun x y => x ^^^ y),
               (.kshl h d a b n false, fun x y => if y.toNat < 32 then x <<< y.toNat else 0),
               (.kshr h d a b, fun x y => if y.toNat < 32 then x >>> y.toNat else 0),
               (.ksar h d a b, fun x y => if y.toNat < 32 then x.sshiftRight y.toNat else if x.toInt < 0 then 0xFFFFFFFF else 0),
               (.kcmp h d a b cmp n, fun x y => if cmpInt cmp n x y then 1 else 0),
               (.ksel h d a b c, fun x y => if s.g.rk c ≠ 0 then x else y) ] : List (Instr × (Word → Word → Word))),
         ∃ t, exec e.1 s = .next t ∧ WritesK s t (klen2 a b) d (e.2 (s.g.ks32 a) (s.g.ks32 b))) ∧
     (∃ t, exec (.kmov h d a false) s = .next t ∧ WritesK s t (klen1 a) d (s.g.ks32 a)) ∧
     (∃ t, exec (.kmov h d a true) s = .next t ∧ WritesK64 s t (klen1 a) d (s.g.ks64 a)) ∧
     (∃ t, exec (.kmovImm h d imm) s = .next t ∧ WritesK s t 1 d (imm.signExtend 32)) ∧
     (∃ t, exec (.kaddImm h d a' imm) s = .next t ∧ WritesK s t 1 d (s.g.rk a' + imm.signExtend 32))) ∧
  (∀ (s : State) (h : Hdr) (d : KReg) (a b : KSrc) (n sat : Bool), Normal s h anyClass anyRole [] →
     (∀ e ∈ ([ (.kadd h d a b n sat false, sat, fun x y => ival n x + ival n y),
               (.ksub h d a b n sat false, sat, fun x y => ival n x - ival n y),
               (.kmul h d a b n sat, sat, fun x y => ival n x * ival n y),
               (.kshl h d a b n true, true, fun x y => ival n x * 2 ^ y.toNat) ] : List (Instr × Bool × (Word → Word → Int))),
         let r := intRes 32 n e.2.1 (e.2.2 (s.g.ks32 a) (s.g.ks32 b))
         (r.2 = true → s.g.satt = false) →
         ∃ t, exec e.1 s = .next t ∧
           Follows s t (klen2 a b) s.g.rv (setK s d r.1) s.g.rp (stickyFp s.g.fpctl r.2 false)) ∧
     (∀ e ∈ ([ (.kadd h d a b n sat true, fun x y => ival n x + ival n y),
               (.ksub h d a b n sat true, fun x y => ival n x - ival n y) ] : List (Instr × (DWord → DWord → Int))),
         let r := intRes 64 n sat (e.2 (s.g.ks64 a) (s.g.ks64 b))
         (r.2 = true → s.g.satt = false) →
         ∃ t, exec e.1 s = .next t ∧
           Follows s t (klen2 a b) s.g.rv (setK64 s d r.1) s.g.rp (stickyFp s.g.fpctl r.2 false)))

/-- R355 to R359: the compares, PLOP and PMOV write their predicates, PMOV to a v register reads them, and VOTE combines them over the
active lanes. -/
def Obligations.PredicateResults : Prop :=
  (∀ (n : Bool) (x y : Word),
     cmpInt .eq n x y = decide (x = y) ∧ cmpInt .ne n x y = decide (x ≠ y) ∧
     cmpInt .lt n x y = (if n then x.ult y else x.slt y) ∧ cmpInt .le n x y = (if n then x.ule y else x.sle y) ∧
     cmpInt .gt n x y = (if n then y.ult x else y.slt x) ∧ cmpInt .ge n x y = (if n then y.ule x else y.sle x)) ∧
  (∀ (s : State) (h : Hdr) (d p q : PReg) (v : VReg) (a b : Src) (imm : Imm) (cmp : Cmp) (n : Bool) (lut : BitVec 4),
     (Normal s h anyClass anyRole (Src.regs a ++ Src.regs b) →
       (∃ t, exec (.pseti h d a b q cmp n) s = .next t ∧
         WritesP s t h (len2 a b) d fun l => cmpInt cmp n (s.g.s32 a l) (s.g.s32 b l) && s.g.rp q l) ∧
       (∃ t, exec (.psetf h d a b q cmp) s = .next t ∧
         WritesP s t h (len2 a b) d fun l =>
           XR.cmp cmp (ffF32.value s.g.ftz (s.g.s32 a l).toNat) (ffF32.value s.g.ftz (s.g.s32 b l).toNat) && s.g.rp q l) ∧
       (∃ t, exec (.pmov h (.fromV a b)) s = .next t ∧
         Follows s t (len2 a b) s.g.rv s.g.rk
           (fun r l =>
             if r.toNat < 15 ∧ (s.g.active h).getLsbD l ∧ (s.g.s32 b l).getLsbD r.toNat then (s.g.s32 a l).getLsbD r.toNat
             else s.g.rp r l)
           s.g.fpctl)) ∧
     (Normal s h anyClass anyRole [v] →
       (∃ t, exec (.psetiImm h d v cmp n imm) s = .next t ∧
         WritesP s t h 1 d fun l => cmpInt cmp n (s.g.rv v l) (imm.signExtend 32)) ∧
       (∃ t, exec (.pmov h (.toV v)) s = .next t ∧
         ∃ f : Nat → Word, WritesV s t h 1 v f ∧
           ∀ l i, (f l).getLsbD i = (decide (i < 16) && s.g.rp (BitVec.ofNat 4 i) l))) ∧
     (Normal s h anyClass anyRole [] →
       ∃ t, exec (.plop h d p q lut) s = .next t ∧
         WritesP s t h 1 d fun l => lut.getLsbD (2 * (s.g.rp p l).toNat + (s.g.rp q l).toNat))) ∧
  (∀ (s : State) (h : Hdr) (d a : PReg) (k : KReg), Normal s h anyClass anyRole [] →
     let on (l : Nat) : Prop := (s.g.active h).getLsbD l
     (∃ t x, exec (.vote h (.all d) a) s = .next t ∧ WritesP s t h 1 d (fun _ => x) ∧
       (x = true ↔ ∀ l, on l → s.g.rp a l = true)) ∧
     (∃ t x, exec (.vote h (.any d) a) s = .next t ∧ WritesP s t h 1 d (fun _ => x) ∧
       (x = true ↔ ∃ l, on l ∧ s.g.rp a l = true)) ∧
     (∃ t x, exec (.vote h (.eq d) a) s = .next t ∧ WritesP s t h 1 d (fun _ => x) ∧
       (x = true ↔ ∀ l m, on l → on m → s.g.rp a l = s.g.rp a m)) ∧
     (k.toNat % 4 = 0 → k.toNat ≤ 60 → s.g.width ∈ [16, 32, 64, 128] →
       ∃ t, exec (.vote h (.ballot k) a) s = .next t ∧
         (∀ m i, m < max 1 (s.g.width / 32) → i < 32 → k.toNat + m ≠ 63 →
           (t.g.rk (k + BitVec.ofNat 6 m)).getLsbD i = ((s.g.active h).getLsbD (32 * m + i) && s.g.rp a (32 * m + i))) ∧
         Follows s t 1 s.g.rv
           (fun r => if k.toNat ≤ r.toNat ∧ r.toNat < k.toNat + max 1 (s.g.width / 32) then t.g.rk r else s.g.rk r)
           s.g.rp s.g.fpctl))

/-! ## Floating point -/

/-- R238, R380, R382: the rounding FP32 instructions round the exact result of their operands once; the four functions by enclosure
write their rounded code; a NaN from operands that are none sets NANP. -/
def Obligations.FloatResults : Prop :=
  (∀ (s : State) (h : Hdr) (d : VReg) (a b : Src) (c : VReg) (rm : Rm) (sat : Bool),
     let x (l : Nat) := ffF32.value s.g.ftz (s.g.s32 a l).toNat
     let y (l : Nat) := ffF32.value s.g.ftz (s.g.s32 b l).toNat
     let z (l : Nat) := ffF32.value s.g.ftz (s.g.rv c l).toNat
     let w (sat : Bool) (r : XR) : Word := BitVec.ofNat 32 (ffF32.round rm sat s.g.ftz r)
     (Normal s h [0, 6] vecRole (d :: (Src.regs a ++ Src.regs b)) →
       (∀ e ∈ ([ (.fadd h d a b rm sat, XR.add rm),
                 (.fsub h d a b rm sat, fun x y => x.add rm y.neg),
                 (.fmul h d a b rm sat, XR.mul),
                 (.fdiv h d a b rm sat, XR.div) ] : List (Instr × (XR → XR → XR))),
         Results e.1 s h (len2 a b) d (fun l => w sat (e.2 (x l) (y l))) (fun _ => false)
           fun l => (e.2 (x l) (y l)).isNan && !((x l).isNan || (y l).isNan)) ∧
       Results (.fscale h d a b rm sat) s h (len2 a b) d (fun l => w sat ((x l).scale (s.g.s32 b l).toInt)) (fun _ => false)
         fun l => ((x l).scale (s.g.s32 b l).toInt).isNan && !(x l).isNan) ∧
     (Normal s h [0, 6] vecRole (d :: c :: (Src.regs a ++ Src.regs b)) →
       Results (.ffma h d a b c rm sat) s h (len2 a b) d (fun l => w sat (((x l).mul (y l)).add rm (z l))) (fun _ => false)
         fun l => (((x l).mul (y l)).add rm (z l)).isNan && !((x l).isNan || (y l).isNan || (z l).isNan)) ∧
     (Normal s h [0, 6] vecRole (d :: Src.regs a) →
       ∀ e ∈ ([ (.frnd h d a rm, false, XR.rint rm),
                (.frcp h d a rm sat, sat, XR.rcp),
                (.frsq h d a rm sat, sat, XR.rsqrt),
                (.fsqrt h d a rm sat, sat, XR.sqrt) ] : List (Instr × Bool × (XR → XR))),
         Results e.1 s h (len1 a) d (fun l => w e.2.1 (e.2.2 (x l))) (fun _ => false)
           fun l => (e.2.2 (x l)).isNan && !(x l).isNan)) ∧
  (∀ (s : State) (h : Hdr) (d : VReg) (a : Src) (rm : Rm) (sat : Bool), Normal s h [0, 6] vecRole (d :: Src.regs a) →
     ∀ e ∈ ([ (.fexp2 h d a rm sat, fexp2), (.flog2 h d a rm sat, flog2), (.fsin h d a rm sat, fsin), (.fcos h d a rm sat, fcos) ]
              : List (Instr × (Rm → Bool → Bool → Nat → Nat))),
       let r (l : Nat) := e.2 rm sat s.g.ftz (s.g.s32 a l).toNat
       Results e.1 s h (len1 a) d (fun l => BitVec.ofNat 32 (r l)) (fun _ => false)
         fun l => r l == 0x7FC00000 && !(ffF32.value s.g.ftz (s.g.s32 a l).toNat).isNan)

/-- R241, R381, R382: FABS and FNEG change bit 31 only, FCLASS is one-hot, and FMIN and FMAX return the operand that compares so; a NaN
gives way, and two give the canonical NaN. -/
def Obligations.FloatSignClassChoice : Prop :=
  (∀ (s : State) (h : Hdr) (d : VReg) (a b : Src),
     let x (l : Nat) := ffF32.value s.g.ftz (s.g.s32 a l).toNat
     (Normal s h [0, 6] vecRole (d :: Src.regs a) →
       (∃ t, exec (.fabs h d a) s = .next t ∧ WritesV s t h (len1 a) d fun l => s.g.s32 a l &&& 0x7FFFFFFF) ∧
       (∃ t, exec (.fneg h d a) s = .next t ∧ WritesV s t h (len1 a) d fun l => s.g.s32 a l ^^^ 0x80000000) ∧
       (∃ t, exec (.fclass h d a) s = .next t ∧ WritesV s t h (len1 a) d fun l =>
         match x l with
         | .nan => 1 <<< 8
         | .inf neg => if neg then 1 <<< 0 else 1 <<< 7
         | .fin neg m _ =>
           if m = 0 then (if neg then 1 <<< 3 else 1 <<< 4)
           else if m < 2 ^ 23 then (if neg then 1 <<< 2 else 1 <<< 5)
           else (if neg then 1 <<< 1 else 1 <<< 6))) ∧
     (Normal s h [0, 6] vecRole (d :: (Src.regs a ++ Src.regs b)) →
       ∀ e ∈ ([ (.fmin h d a b, false), (.fmax h d a b, true) ] : List (Instr × Bool)),
         ∃ t, exec e.1 s = .next t ∧ WritesV s t h (len2 a b) d fun l =>
           BitVec.ofNat 32 (fpick ffF32 e.2 s.g.ftz (s.g.s32 a l).toNat (s.g.s32 b l).toNat))) ∧
  (∀ (mx ftz : Bool) (x y : Word),
     let a := ffF32.value ftz x.toNat
     let b := ffF32.value ftz y.toNat
     let r := fpick ffF32 mx ftz x.toNat y.toNat
     (a = .nan → b = .nan → r = 0x7FC00000) ∧
     (a = .nan → b ≠ .nan → ffF32.value ftz r = b) ∧
     (a ≠ .nan → b = .nan → ffF32.value ftz r = a) ∧
     (a.lt b = true → ffF32.value ftz r = if mx then b else a) ∧
     (b.lt a = true → ffF32.value ftz r = if mx then a else b))

/-- R383, R384: the packed pairs round each element once to its own format; HDOT2 rounds its exact sum once to FP32. -/
def Obligations.PackedFloatResults : Prop :=
  ∀ (s : State) (h : Hdr) (d : VReg) (a b : Src) (c : VReg) (rm : Rm) (sat f16 : Bool),
    let f := if f16 then ffF16 else ffBF16
    let code (x : Word) (i : Nat) : Nat := (x.extractLsb' (16 * i) 16).toNat
    let x (l i : Nat) := f.value s.g.ftz (code (s.g.s32 a l) i)
    let y (l i : Nat) := f.value s.g.ftz (code (s.g.s32 b l) i)
    let z (l i : Nat) := f.value s.g.ftz (code (s.g.rv c l) i)
    let two (w : Nat → Nat) : Word := BitVec.ofNat 16 (w 1) ++ BitVec.ofNat 16 (w 0)
    let w (r : XR) : Nat := f.round rm sat s.g.ftz r
    (Normal s h [0, 6] vecRole (d :: (Src.regs a ++ Src.regs b)) →
      (∀ e ∈ ([ (.hadd2 h d a b rm sat f16, XR.add rm),
                (.hsub2 h d a b rm sat f16, fun x y => x.add rm y.neg),
                (.hmul2 h d a b rm sat f16, XR.mul) ] : List (Instr × (XR → XR → XR))),
        let nan (l i : Nat) : Bool := (e.2 (x l i) (y l i)).isNan && !((x l i).isNan || (y l i).isNan)
        Results e.1 s h (len2 a b) d (fun l => two fun i => w (e.2 (x l i) (y l i))) (fun _ => false)
          fun l => nan l 0 || nan l 1) ∧
      (∀ e ∈ ([ (.hmin2 h d a b f16, false), (.hmax2 h d a b f16, true) ] : List (Instr × Bool)),
        Results e.1 s h (len2 a b) d
          (fun l => two fun i => fpick f e.2 s.g.ftz (code (s.g.s32 a l) i) (code (s.g.s32 b l) i)) (fun _ => false) fun _ => false)) ∧
    (Normal s h [0, 6] vecRole (d :: c :: (Src.regs a ++ Src.regs b)) →
      (let r (l i : Nat) := ((x l i).mul (y l i)).add rm (z l i)
       let nan (l i : Nat) : Bool := (r l i).isNan && !((x l i).isNan || (y l i).isNan || (z l i).isNan)
       Results (.hfma2 h d a b c rm sat f16) s h (len2 a b) d (fun l => two fun i => w (r l i)) (fun _ => false)
         fun l => nan l 0 || nan l 1) ∧
      (let q (l : Nat) := ffF32.value s.g.ftz (s.g.rv c l).toNat
       let r (l : Nat) := XR.sum rm [(x l 0).mul (y l 0), (x l 1).mul (y l 1), q l]
       Results (.hdot2 h d a b c rm sat f16) s h (len2 a b) d
         (fun l => BitVec.ofNat 32 (ffF32.round rm sat s.g.ftz (r l))) (fun _ => false)
         fun l => (r l).isNan && !([x l 0, x l 1, y l 0, y l 1, q l].any XR.isNan)))

/-- R386, R387: CVT and CVT2 write the converted value of their source elements. -/
def Obligations.ConversionResults : Prop :=
  ∀ (s : State) (h : Hdr) (d : VReg) (a b : Src) (df sf : Fmt) (spos : BitVec 3) (dpos : BitVec 2) (rm : Rm) (sat : Bool),
    let cv (x : Nat) := convert df rm sat s.g.ftz (fmtValue sf s.g.ftz x)
    (Normal s h [0, 6] vecRole (d :: Src.regs a) →
      let src (l : Nat) : Nat := if sf.width = 64 then (s.g.s64 a l).toNat else (s.g.s32 a l).toNat >>> (spos.toNat * sf.width)
      let r (l : Nat) := cv (src l)
      (df.width ≠ 64 → Results (.cvt h d a df sf spos rm sat) s h (len1 a) d (fun l => BitVec.ofNat 32 (r l).code)
        (fun l => (r l).sat) fun l => (r l).nan) ∧
      (df.width = 64 → (someLane s h (fun l => (r l).sat) = true → s.g.satt = false) →
        (someLane s h (fun l => (r l).nan) = true → s.g.nant = false) →
        ∃ t, exec (.cvt h d a df sf spos rm sat) s = .next t ∧
          Follows s t (len1 a) (setV64 s h d fun l => BitVec.ofNat 64 (r l).code) s.g.rk s.g.rp
            (stickyFp s.g.fpctl (someLane s h fun l => (r l).sat) (someLane s h fun l => (r l).nan)))) ∧
    (Normal s h [0, 6] vecRole (d :: (Src.regs a ++ Src.regs b)) →
      let r0 (l : Nat) := cv (s.g.s32 a l).toNat
      let r1 (l : Nat) := cv (s.g.s32 b l).toNat
      let w := df.width
      Results (.cvt2 h d a b df sf dpos rm sat) s h (len2 a b) d
        (fun l => BitVec.ofNat 32 (setBits (s.g.rv d l).toNat (2 * w * dpos.toNat) (2 * w) ((r0 l).code + (r1 l).code * 2 ^ w)))
        (fun l => (r0 l).sat || (r1 l).sat) fun l => (r0 l).nan || (r1 l).nan)

/-! ## Cross-lane -/

/-- R372 to R377: the exchanges read the registers as they were before the instruction; RED and SCAN combine the active lanes of a
segment in ascending lane order, and an integer sum is exact before its one wrap or clamp. -/
def Obligations.CrossLaneResults : Prop :=
  (∀ (s : State) (h : Hdr) (d : VReg) (a b : Src) (c : KReg) (k : KReg) (v : VReg) (seg : BitVec 3) (mode : LxMode),
     (Normal s h [0, 6] vecRole (d :: (Src.regs a ++ Src.regs b)) →
       (∃ t, exec (.lxch h d a b seg mode) s = .next t ∧ WritesV s t h (len2 a b) d fun l =>
         let n := if seg = 0 ∨ s.g.width ≤ 2 ^ seg.toNat then s.g.width else 2 ^ seg.toNat
         let q := l % n
         let x := (s.g.s32 b l).toNat
         let from_ : Int := match mode with
           | .at => x
           | .below => (q : Int) - x
           | .above => (q : Int) + x
           | .flip => ((q ^^^ x : Nat) : Int)
         if 0 ≤ from_ ∧ from_ < n then s.g.s32 a (l - q + from_.toNat) else s.g.s32 a l) ∧
       (∀ x : Word, (∀ l, (s.g.active h).getLsbD l = true → s.g.s32 b l = x) →
         (∃ t, exec (.slide h d a b c) s = .next t ∧ WritesV s t h (len2 a b) d fun l =>
           let p : Int := (l : Int) - x.toInt
           if 0 ≤ p ∧ p < s.g.width then s.g.s32 a p.toNat else s.g.rk c) ∧
         (∃ t, exec (.bcast h d a b) s = .next t ∧ WritesV s t h (len2 a b) d fun _ =>
           if x.toNat < s.g.width then s.g.s32 a x.toNat else 0))) ∧
     (Normal s h [0, 6] vecRole (v :: Src.regs b) →
       ∀ x : Word, (∀ l, (s.g.active h).getLsbD l = true → s.g.s32 b l = x) →
         ∃ t, exec (.krdl h k v b) s = .next t ∧ WritesK s t (len1 b) k (if x.toNat < s.g.width then s.g.rv v x.toNat else 0))) ∧
  (∀ (s : State) (h : Hdr) (d : VReg) (a : Src) (seg : BitVec 3) (op : RedOp) (n sat excl : Bool),
     Normal s h [0, 6] vecRole (d :: Src.regs a) →
     let size := if seg = 0 ∨ s.g.width ≤ 2 ^ seg.toNat then s.g.width else 2 ^ seg.toNat
     let words (l upto : Nat) : List Word :=
       ((List.range size).map fun i => l - l % size + i).filterMap fun m =>
         if (s.g.active h).getLsbD m && decide (m < upto) then some (s.g.s32 a m) else none
     let out (ws : List Word) : Word × Bool × Bool :=
       match reduce op n s.g.ftz ws with
       | none => (redIdentity op n, false, false)
       | some x => ((x.result op n sat).1, (x.result op n sat).2, x.nan)
     Results (.red h d a seg op n sat) s h (len1 a) d (fun l => (out (words l s.g.width)).1)
       (fun l => (out (words l s.g.width)).2.1) (fun l => (out (words l s.g.width)).2.2) ∧
     (let upto (l : Nat) := if excl then l else l + 1
      Results (.scan h d a seg excl op n sat) s h (len1 a) d (fun l => (out (words l (upto l))).1)
        (fun l => (out (words l (upto l))).2.1) fun l => (out (words l (upto l))).2.2)) ∧
  (∀ (n sat ftz : Bool) (w : Word) (ws : List Word),
     ∃ x, reduce .add n ftz (w :: ws) = some x ∧ x.nan = false ∧
       x.result .add n sat = intRes 32 n sat (((w :: ws).map (ival n)).foldl (· + ·) 0))

/-! ## Control -/

/-- R342: NOP has no effect, whatever its guard. -/
def Obligations.NopHasNoEffect : Prop :=
  ∀ (s : State) (h : Hdr), s.g.iss.cls ∈ anyClass → s.g.iss.wait = none → s.g.stepping = false →
    ∃ t, exec (.nop h) s = .next t ∧ Turns s t 1 s.g fun _ a => a

/-- R186, R342, R343, R346: NOP only moves on; BRA and BRX take the active lanes to their targets and YIELD marks them, and a lane whose
target is at or below the clause's header yields. -/
def Obligations.TransferResults : Prop :=
  ∀ (s : State) (h : Hdr) (imm : Imm) (a : Src),
    let on (l : Nat) : Bool := (s.g.active h).getLsbD l
    let hdr := s.g.iss.hdr
    let new := s.g.stamps + 1
    (Normal s h anyClass anyRole [] →
      (∃ t, exec (.nop h) s = .next t ∧ Turns s t 1 s.g fun _ a => a) ∧
      (Ends s 1 → ∀ T : Nat, (T : Int) = s.g.iss.pc.toNat + 8 * imm.toInt → T < 2 ^ 48 → T % 8 = 0 →
        ∃ t, exec (.bra h imm) s = .next t ∧
          Turns s t 1 (stamped s.g [T]) fun l a => if on l then a.gone hdr new T else a) ∧
      (Ends s 1 → ∃ t, exec (.yield h) s = .next t ∧
        Turns s t 1 { s.g with stamps := new, passed := s.g.det } fun l a => if on l then { a with yld := true, stamp := new } else a)) ∧
    (Normal s h anyClass anyRole (Src.regs a) → Ends s (len1 a) →
      (∀ l, on l = true → (s.g.s64 a l).toNat < 2 ^ 48 ∧ (s.g.s64 a l).toNat % 8 = 0) →
      ∃ t, exec (.brx h a) s = .next t ∧
        Turns s t (len1 a) (stamped s.g ((s.activeLanes h).map fun l => (s.g.s64 a l).toNat))
          fun l x => if on l then x.gone hdr new (s.g.s64 a l).toNat else x)

/-- R190, R344: a call pushes the address behind itself and goes to its target; a return pops its target. The stacks here hold room and
an address; the others spill, fill or trap. -/
def Obligations.CallReturnResults : Prop :=
  ∀ (s : State) (h : Hdr) (imm : Imm) (a : Src), s.g.iss.todo = none → s.g.lanes.length = s.g.width →
    let on (l : Nat) : Bool := (s.g.active h).getLsbD l
    let hdr := s.g.iss.hdr
    let new := s.g.stamps + 1
    ((∀ l, on l = true → (s.g.lane l).stack.length < 8) →
      (Normal s h anyClass anyRole [] → Ends s 1 →
        ∀ T : Nat, (T : Int) = s.g.iss.pc.toNat + 8 * imm.toInt → T < 2 ^ 48 → T % 8 = 0 →
          ∃ t, exec (.call h imm) s = .next t ∧
            Turns s t 1 (stamped s.g [T])
              fun l a => if on l then { (a.gone hdr new T) with stack := s.g.iss.after 1 :: a.stack } else a) ∧
      (Normal s h anyClass anyRole (Src.regs a) → Ends s (len1 a) →
        (∀ l, on l = true → (s.g.s64 a l).toNat < 2 ^ 48 ∧ (s.g.s64 a l).toNat % 8 = 0) →
        ∃ t, exec (.callx h a) s = .next t ∧
          Turns s t (len1 a) (stamped s.g ((s.activeLanes h).map fun l => (s.g.s64 a l).toNat))
            fun l x => if on l then { (x.gone hdr new (s.g.s64 a l).toNat) with stack := s.g.iss.after (len1 a) :: x.stack } else x)) ∧
    (Normal s h anyClass anyRole [] → Ends s 1 →
      (∀ l, on l = true → ∃ x r, (s.g.lane l).stack = x :: r ∧ x.toNat % 8 = 0) →
      ∃ t, exec (.ret h) s = .next t ∧
        Turns s t 1 (stamped s.g ((s.activeLanes h).map fun l => ((s.g.lane l).stack.headD 0).toNat))
          fun l a => if on l then { (a.gone hdr new (a.stack.headD 0).toNat) with stack := a.stack.tail } else a)

/-- R191, R192, R286, R287, R343, R353: bad targets, full and empty stacks, and the software traps: what they raise on which lanes. -/
def Obligations.BranchAndCallTraps : Prop :=
  (∀ (s : State) (h : Hdr) (a : Src) (l : Nat), Normal s h anyClass anyRole (Src.regs a) → Ends s (len1 a) → s.g.handler = false →
     s.g.lanes.length = s.g.width → (s.g.active h).getLsbD l = true →
     let T := (s.g.s64 a l).toNat
     2 ^ 48 ≤ T ∨ T % 8 ≠ 0 →
     ∃ t, exec (.brx h a) s = .next t ∧ (t.g.lane l).st = .trapped ∧ (t.g.lane l).lpc = s.g.iss.pc ∧ (t.g.lane l).tpc = s.g.iss.pc ∧
       (t.g.lane l).taddr = s.g.s64 a l ∧ t.g.iss.x.getLsbD l = false ∧
       bits (t.g.lane l).tcause.toNat 7 0 = (if 2 ^ 48 ≤ T then cXLATE else cALIGN) ∧
       bits (t.g.lane l).tcause.toNat 15 8 = (if 2 ^ 48 ≤ T then 3 else 0) ∧
       bits (t.g.lane l).tcause.toNat 21 20 = 3 ∧ (t.g.lane l).tcause.getLsbD 31 = true) ∧
  (∀ (s : State) (h : Hdr) (imm : Imm) (l : Nat), Normal s h anyClass anyRole [] → Ends s 1 → s.g.handler = false →
     s.g.iss.todo = none → s.g.lanes.length = s.g.width → s.g.active h = 1#128 <<< l →
     ((s.g.lane l).stack.length = 8 → (s.g.lane l).spdepth = s.g.stk.toNat / 2 ^ 56 →
       0 ≤ s.immTarget imm → s.immTarget imm < 2 ^ 48 → s.immTarget imm % 8 = 0 →
       ∃ t, exec (.call h imm) s = .next t ∧ (t.g.lane l).st = .trapped ∧ (t.g.lane l).tpc = s.g.iss.pc ∧
         bits (t.g.lane l).tcause.toNat 7 0 = cSTACK ∧ bits (t.g.lane l).tcause.toNat 21 20 = 1 ∧
         (t.g.lane l).taddr = BitVec.ofNat 64
           (s.g.stk.toNat % 2 ^ 48 / 64 * 64 + ((s.g.lane l).spdepth * s.g.width + l) * 64) ∧
         (t.g.lane l).stack = (s.g.lane l).stack) ∧
     ((s.g.lane l).stack = [] → (s.g.lane l).spdepth = 0 →
       ∃ t, exec (.ret h) s = .next t ∧ (t.g.lane l).st = .trapped ∧ (t.g.lane l).tpc = s.g.iss.pc ∧
         bits (t.g.lane l).tcause.toNat 7 0 = cSTACK)) ∧
  (∀ (s : State) (h : Hdr) (code : BitVec 26), Normal s h anyClass anyRole [] → Ends s 1 → s.g.handler = false →
     ∀ i ∈ [Instr.bkpt h, .trap h code], ∃ t, exec i s = .next t ∧ SameOutside s t ∧
       { t.g with lanes := s.g.lanes, iss := s.g.iss } = s.g ∧
       t.g.iss.x = s.g.iss.x &&& ~~~s.g.active h ∧ t.g.iss.pc = s.g.iss.after 1 ∧
       t.g.lanes = (movedLanes s 1).mapIdx fun l a =>
         if (s.g.active h).getLsbD l then
           { a with st := .trapped, lpc := s.g.iss.pc, tcause := 0x8000000F, taddr := 0, tpc := s.g.iss.pc, tnpc := s.g.iss.after 1
                    inside := some s.g.iss.bounds, tclause := s.g.iss.bounds, marked := false, stepDue := false }
         else a)

/-- R188, R189, R347, R348: JMARK stores the active lanes in its mask; JWAIT parks the active lanes that are in it; the arrived lanes go
on when every lane of the mask that is not finished or killed has arrived; then what the lanes' states bring about follows. -/
def Obligations.RejoinResults : Prop :=
  ∀ (s : State) (h : Hdr) (j : JReg), Normal s h anyClass anyRole [] →
    let act := s.g.active h
    let arr (arrived : BitVec 128) (mask : BitVec 128) : Bool := decide (arrived ≠ 0 ∧ mask &&& ~~~s.g.goneSet &&& ~~~arrived = 0)
    let go (arrived : BitVec 128) (l : Nat) (a : Lane) : Lane := if arrived.getLsbD l ∧ a.st.gone = false then a.wake else a
    (let was := Store.get 0 s.g.arrived j.toNat
     let done := arr was act
     ∃ t, exec (.jmark h j) s = .next t.settle ∧
      Turns s t 1 { s.g with j := Store.put 0 s.g.j j.toNat act
                             arrived := if done then Store.put 0 s.g.arrived j.toNat 0 else s.g.arrived }
        fun l a => if done then go was l a else a) ∧
    (Ends s 1 →
      let inn := act &&& s.g.rj j
      let now := Store.get 0 s.g.arrived j.toNat ||| inn
      let done := arr now (s.g.rj j)
      s.g.lanes.length = s.g.width → (∀ l, inn.getLsbD l = true → (s.g.lane l).st.gone = false) →
      ∃ t, exec (.jwait h j) s = .next t.settle ∧
        (done = false → Turns s t 1 { s.g with arrived := Store.put 0 s.g.arrived j.toNat now }
          fun l a => if inn.getLsbD l then { a with st := .joinPark j } else a) ∧
        (done = true → Turns s t 1 { s.g with arrived := Store.put 0 (Store.put 0 s.g.arrived j.toNat now) j.toNat 0 }
          fun l a => go now l (if inn.getLsbD l then { a with st := .joinPark j } else a)))

/-- R102, R171, R189, R302, R345, R349 to R353: EXIT, the barriers, CHKC and the service trap have their effect on the active lanes,
after which groups that have ended retire, barriers complete and events are delivered; a CANCEL event that may be delivered is taken at
BAR, ABAR and CHKC instead of their effect (the model's reading, assumption 65); lanes that finish leave the clause, the masks and the
arrival sets; when a barrier completes. -/
def Obligations.EndingAndWaitingResults : Prop :=
  (∀ (s : State) (h : Hdr) (b : BarReg) (n : BitVec 24), Normal s h anyClass anyRole [] → Ends s 1 →
     let e := s.entered 1
     let act := s.g.active h
     let parked (st : LaneSt) : State := { e with g := e.g.modLanes act fun _ a => { a with st := st } }
     (NotHeld s → exec (.exit h) s = .next (({ e with g := e.g.endLanes act .finished }).left 1).settle) ∧
     (NotHeld s → s.g.mayCancel = false → exec (.bar h b) s =
       .next (((parked (.barPark b)).barrier false b fun g => g.inBlock s.g.task s.g.block).left 1).settle) ∧
     (NotHeld s → s.g.mayCancel = false → ∀ (k : Task) (u : State), s.task s.g.task = some k → k.cohort ≠ 0 →
       (release (e.who (lowest act)) 2).on e = (.ok (), u) →
       exec (.abar h b) s =
         .next ((({ u with g := u.g.modLanes act fun _ a => { a with st := .abarPark b } }).barrier true b
           fun g => g.inCohort s.g.task s.g.block k.cohort).left 1).settle) ∧
     (NotHeld s → s.g.mayCancel = false → (∀ k, s.task s.g.task = some k → k.cohort = 0) → s.g.handler = false →
       exec (.abar h b) s = .next ((e.raiseAll 1 act (.mk0 cROLE)).left 1).settle) ∧
     (NotHeld s → s.g.mayCancel = true → ∀ i ∈ [Instr.bar h b, .abar h b], exec i s = .next ((e.deliver e.g).left 1).settle) ∧
     exec (.chkc h) s = .next ((if s.g.mayCancel then e.deliver e.g else e).left 1).settle ∧
     (let u : State := { e with g := { e.g.modLanes act fun _ a =>
         { a with st := .service, lpc := s.g.iss.pc, inside := some s.g.iss.bounds } with iss := { e.g.iss with x := e.g.iss.x &&& ~~~act } } }
      exec (.trapSvc h n) s =
       .next ((u.trapDue (.service s.g.task s.g.block s.g.index s.g.iss.pc)
         { groupEntry u u.g (.mk0 0) s.g.iss.pc act false with src := 8, info := n.toNat }).left 1).settle)) ∧
  (∀ (g : Group) (x : BitVec 128) (l : Nat), l < g.lanes.length →
     let h := g.endLanes x .finished
     h.iss.x = g.iss.x &&& ~~~x ∧ (∀ i, h.rj i = g.rj i &&& ~~~x) ∧
     (x.getLsbD l = true → (g.lane l).st.gone = false → (h.lane l).st = .finished) ∧
     (x.getLsbD l = false → (∀ i, i < 8 → (Store.get 0 g.arrived i).getLsbD l = false) → h.lane l = g.lane l)) ∧
  (∀ (s : State) (b : BarReg) (task block : Nat),
     let live := s.allGroups.filter fun g => g.inBlock task block && !g.dead
     let full (g : Group) : Prop :=
       (∃ a ∈ g.lanes, a.st = .barPark b) ∧ ∀ a ∈ g.lanes, a.st = .finished ∨ a.st = .killed ∨ a.st = .barPark b
     let t := s.barrier false b fun g => g.inBlock task block
     (live ≠ [] ∧ (∀ g ∈ live, full g) →
       t = s.mapGroups fun g =>
         if g.inBlock task block then { g with lanes := g.lanes.map fun a => if a.st = .barPark b then a.wake else a } else g) ∧
     (¬(live ≠ [] ∧ ∀ g ∈ live, full g) → t = s))

/-- R171, R296: a delivered CANCEL event sends every live lane to CENTRY, or ends it when CENTRY is 0, and clears the event and the
masks; with CLOG = 1 it writes an entry; no lane traps. -/
def Obligations.CancelDelivery : Prop :=
  ∀ (g : Group) (centry l : Nat), l < g.lanes.length →
    let a := g.lane l
    let h := g.deliver centry
    h.cancel = false ∧ h.owed = false ∧ (∀ i, h.rj i = 0) ∧ h.iss.x = 0 ∧
    (a.st.gone = true → h.lane l = a) ∧
    (a.st.gone = false → centry = 0 → (h.lane l).st = .finished) ∧
    (a.st.gone = false → centry ≠ 0 → (h.lane l).st = .eligible ∧ (h.lane l).lpc = BitVec.ofNat 64 centry) ∧
    (h.lane l).st ≠ .trapped ∧ (h.lane l).stack = a.stack ∧ (∀ r, h.rv r l = g.rv r l) ∧
    ∀ s : State,
      let t := s.deliver g
      let centry := ((s.task g.task).map Task.centry).getD 0
      ((s.cx g.ctx).tbase.getLsbD 1 = true → ∃ e, t.trap.due = s.trap.due ++ [(.cancelLog g.core g.slot, e)] ∧ e.src = 6 ∧ e.cause = 13 ∧
        e.core = g.core ∧ e.slot = g.slot ∧ e.ctx = g.ctx ∧ e.pc = BitVec.ofNat 64 centry) ∧
      ((s.cx g.ctx).tbase.getLsbD 1 = false → t.trap.due = s.trap.due)

/-! ## The step, decoding and the words -/

/-- R47, R180, R185, R318: with no event due, the step decodes the words at the pc and executes that instruction, once the background
has run and time has passed; a word that is no instruction raises ILLEGAL, and behind the last word the clause ends. A word that meets an
error in its storage raises ECC on the lanes concerned, without its effect (the model's choice, assumption 69). With nothing pending
the background changes nothing, and nothing of it touches the group. -/
def Obligations.StepExecutesTheWord : Prop :=
  ∀ (s0 : State),
    let s := s0.background.advance.arise
    let us := s0.background.upsets
    s.g = s0.g ∧ (s0.calm = true → s0.background = s0) ∧
    (s.agenda = [] → s.g.iss.on = true →
      (s.g.iss.x ≠ 0 → s.g.iss.rest ≠ [] →
        (∀ i n, decode s.g.enc s.g.iss.rest = some (i, n) →
          (∀ t, exec i s = .next t →
            (s.met us i (s.acts i) = none → step s0 = .next ((t.afterWord s.g.core i (s.acts i)).parkWaiting)) ∧
            (∀ u, s.met us i (s.acts i) = some u →
              (eccLanes s t u (s.acts i) ≠ 0 → step s0 = .next (s.strikeLanes n u (eccLanes s t u (s.acts i))).settle) ∧
              (eccLanes s t u (s.acts i) = 0 → step s0 = .next ((t.afterWord s.g.core i (s.acts i)).parkWaiting)))) ∧
          (∀ f, exec i s = .fault f → step s0 = .fault f) ∧
          (∀ f, exec i s = .refused f → step s0 = .refused f)) ∧
        (decode s.g.enc s.g.iss.rest = none → step s0 = .next (s.raiseAll 1 s.g.iss.x (.mk0 cILLEGAL)).settle)) ∧
      (s.g.iss.x = 0 ∨ s.g.iss.rest = [] → step s0 = .next s.endClause))

/-- R320 to R326: for every instruction of every family with every admitted operand, its encoded words decode to it and to nothing more,
whatever words follow. -/
def Obligations.DecodeInvertsEncode : Prop :=
  ∀ (i : Instr) (rest : List DWord), i.wf = true → encode i ≠ [] →
    decode .e3 (encode i ++ rest) = some (i, (encode i).length)

/-- R320, R323, R324, R326, R334: words that the spec's own examples spell out decode to the instructions they stand for, one of each
family among them. -/
def Obligations.DecodeWords : Prop :=
  let h : Hdr := ⟨false, 15, false⟩
  decode .e3 [0x002F000007FFFFFC] = some (.bra h (-4), 1) ∧
  decode .e3 [0x080F002018080788] = some (.pseti h 1 (.v 3) (.v 4) 15 .lt false, 1) ∧
  decode .e3 [0x11DF0300B03C0C20] = some (.pmac16 h 24 (.v 22) (.k 30) 24, 1) ∧
  decode .e3 [0x182F00A008000000] = some (.red h 5 (.v 1) 0 .add false false, 1) ∧
  decode .e3 [0x2033808008040181] = some (.ffma ⟨false, 3, true⟩ 4 (.v 1) (.v 2) 3 .rz false, 1) ∧
  decode .e3 [0xA02F00C027FE0020, 0x3FC00000] = some (.fmul ⟨true, 15, false⟩ 6 (.v 4) (.lit 0x3FC00000) .rn false, 2) ∧
  decode .e3 [0x304F010020050840] = some (.ld h .w32 8 ⟨.k 4, .v 2, 2, .scaled 16⟩ none false, 1) ∧
  decode .e3 [0x341F012030060053] = some (.atom h .add .n32 9 (.k 6) (.v 3) 0 .rel .d, 1) ∧
  decode .e3 [0x384F00A040123060] = some (.mma h 5 (.k 8) (.k 9) 0 12 false false, 1) ∧
  decode .e3 [0x400F0280400A0060] = some (.copy h 20 8 (.k 5) 0, 1) ∧
  decode .e3 [0x484F018018280040] = some (.leafq h 12 (.k 3) (.v 20) false, 1) ∧
  decode .e3 [0x488F0180A0140020] = some (.cqry h 12 (.v 20) (.k 10), 1) ∧
  decode .e1 [0x202F040010000000] = some (.fmul h 4 (.v 0) (.v 4) .rn false, 1) ∧
  decode .e3 [0] = none

/-! ## Registers, lanes and traps -/

/-- R175, R176, R185, R321: a register reads what was last written to it; v1023 and k63 read zero, p15 reads true, and writes to them
are discarded; the active lanes are the executing ones whose guard is true. -/
def Obligations.RegistersAndLanes : Prop :=
  (∀ (g : Group) (d r : VReg) (k i : KReg) (p q : PReg) (l m : Nat) (x : Word) (y : DWord) (b : Bool), l < 128 → m < 128 →
     (g.wv d m x).rv r l = (if r.toNat = 1023 then 0 else if r = d ∧ l = m then x else g.rv r l) ∧
     (g.wk k x).rk i = (if i.toNat = 63 then 0 else if i = k then x else g.rk i) ∧
     (g.wp p m b).rp q l = (if q.toNat = 15 then true else if q = p ∧ l = m then b else g.rp q l) ∧
     (d.toNat % 2 = 0 → d.toNat < 1022 → (g.wv64 d m y).rv64 d m = y ∧ (g.wv64 d m y).rv d m = y.truncate 32) ∧
     (k.toNat % 2 = 0 → k.toNat < 62 → (g.wk64 k y).rk64 k = y ∧ (g.wk64 k y).rk k = y.truncate 32)) ∧
  (∀ (g : Group) (h : Hdr) (l : Nat), l < g.width → l < 128 →
     ((g.active h).getLsbD l = true ↔ g.iss.x.getLsbD l = true ∧ (g.rp h.g l = true ↔ h.gn = false)))

/-- R140, R177, R285, R317, R321: an instruction whose CLASS does not allow it raises ILLEGAL on every executing lane; with no active
lane only the pc moves; a role that may not issue it raises ROLE on the active lanes, and a register beyond the grant then REGBOUND. -/
def Obligations.IssueChecks : Prop :=
  ∀ (s : State) (h : Hdr) (d a b : VReg) (k : KReg) (f : FrameReg) (ch : BitVec 2) (ring : BitVec 3) (sh : ShReg),
    s.g.iss.wait = none → s.g.stepping = false → s.g.handler = false →
    let all : List (Instr × List Nat × List Role × List VReg) :=
      [ (.iadd h d (.v a) (.v b) false false, anyClass, anyRole, [d, a, b]),
        (.fadd h d (.v a) (.v b) .rn false, [0, 6], vecRole, [d, a, b]),
        (.lxch h d (.v a) (.v b) 0 .at, [0, 6], vecRole, [d, a, b]),
        (.padd16 h d (.v a) (.v b) false false, anyClass, vecRole, [d, a, b]),
        (.accclr h f, [1, 6], matRole, []),
        (.shq h k sh, [1, 6], matRole, []),
        (.rdwpt h (.v d) ch, [2, 6], anyRole, [d]),
        (.copy h k k (.k k) ch, [2, 6], [.copy, .general], []),
        (.testf h d (.v a), [4, 6], anyRole, [d, a]),
        (.regrel h (.k k), [5, 6], anyRole, []),
        (.movsr h (.v d) 0x000, [6], anyRole, [d]) ]
    ∀ e ∈ all,
      (s.g.iss.cls ∉ e.2.1 → exec e.1 s = .next ((s.countCore s.g.core 3 1).raiseAll 1 s.g.iss.x (.mk0 cILLEGAL))) ∧
      (s.g.iss.cls ∈ e.2.1 →
        (s.g.active h = 0 → exec e.1 s = .next ((s.entered 1).left 1)) ∧
        (s.g.active h ≠ 0 → s.g.role ∉ e.2.2.1 →
          exec e.1 s = .next (((s.entered 1).raiseAll 1 (s.g.active h) (.mk0 cROLE)).left 1)) ∧
        (s.g.active h ≠ 0 → s.g.role ∈ e.2.2.1 → (∃ r ∈ e.2.2.2, r.toNat ≠ 1023 ∧ s.g.grant < r.toNat / 64) →
          exec e.1 s = .next (((s.entered 1).raiseAll 1 (s.g.active h) (.mk0 cREGBOUND)).left 1)))

/-- R114, R286, R287, R290: a lane that traps stays at the instruction, out of the clause, and its trap registers hold the cause, the
address, the place and what follows; a trap in handler mode ends the group with an entry of NEST 1. -/
def Obligations.TrapTaking : Prop :=
  (∀ (s : State) (n : Nat) (x : BitVec 128) (c : Nat → Cause), s.g.handler = false →
     let t := s.raise n x c
     { t with g := s.g } = s ∧ { t.g with lanes := s.g.lanes, iss := s.g.iss } = s.g ∧
     t.g.iss = { s.g.iss with x := s.g.iss.x &&& ~~~x } ∧ t.g.lanes.length = s.g.lanes.length ∧
     ∀ l, l < s.g.lanes.length →
       (x.getLsbD l = false → t.g.lane l = s.g.lane l) ∧
       (x.getLsbD l = true →
         let a := t.g.lane l
         a.st = .trapped ∧ a.lpc = s.g.iss.pc ∧ a.tpc = s.g.iss.pc ∧ a.tnpc = s.g.iss.after n ∧ a.taddr = (c l).addr ∧
         a.stack = (s.g.lane l).stack ∧ a.spdepth = (s.g.lane l).spdepth ∧
         a.tcause.getLsbD 31 = true ∧ a.tcause.getLsbD 19 = (c l).dis ∧
         bits a.tcause.toNat 7 0 = (c l).code % 256 ∧ bits a.tcause.toNat 15 8 = (c l).sub % 256 ∧
         bits a.tcause.toNat 18 17 = (c l).lvl % 4 ∧ bits a.tcause.toNat 21 20 = (c l).acc % 4 ∧
         bits a.tcause.toNat 30 22 = 0 ∧ a.tcause.getLsbD 16 = false)) ∧
  (∀ (s : State) (n : Nat) (x : BitVec 128) (c : Nat → Cause), s.g.handler = true → x ≠ 0 → s.g.lanes.length = s.g.width →
     s.g.width ≤ 128 →
     let t := s.raise n x c
     (∀ a ∈ t.g.lanes, a.st.gone = true) ∧ t.g.handler = false ∧ t.g.iss.x = s.g.iss.x &&& ~~~laneSet s.g.width (fun _ => true) ∧
     (∀ k ∈ t.tasks, k.id = s.g.task → k.ended = true) ∧
     ∃ e, t.trap.due = s.trap.due ++ [(.group s.g.task s.g.block s.g.index, e)] ∧ e.src = 0 ∧ e.nest = true ∧
       e.cause = (c (lowest x)).code ∧ e.pc = s.g.iss.pc ∧ e.mask = x ∧ e.ctx = s.g.ctx ∧ e.core = s.g.core ∧ e.slot = s.g.slot)

/-- R289, R290: at handler entry every trapped lane goes to the entry, and the program's k48 to k63 are set aside; when no handler lane
remains they return and the held lanes become eligible. -/
def Obligations.HandlerEntryAndExit : Prop :=
  (∀ (g : Group) (entry : DWord) (l : Nat), g.lanes.length = g.width → g.width ≤ 128 → l < g.width →
     (∀ e ∈ g.kshadow, 48 ≤ e.1) →
     let h := g.enterHandler entry
     let trapped (l : Nat) : Prop := (g.lane l).st = .trapped
     h.handler = true ∧
     (trapped l → (h.lane l).st = .eligible ∧ (h.lane l).handler = true ∧ (h.lane l).lpc = entry ∧ (h.lane l).tpc = (g.lane l).tpc) ∧
     (¬trapped l → h.lane l = g.lane l) ∧
     (∀ r : KReg, r.toNat < 48 → h.rk r = g.rk r) ∧
     (∀ i, i < 4 → ∀ b, b < 32 →
       ((h.rk (48 + BitVec.ofNat 6 i)).getLsbD b = true ↔ 32 * i + b < g.width ∧ trapped (32 * i + b))) ∧
     h.rk 52 = g.ctx ∧
     (∀ c, c < 32 → ((h.rk 53).getLsbD c = true ↔ ∃ m, m < g.width ∧ trapped m ∧ (g.lane m).tcause.toNat % 256 = c)) ∧
     (∀ r : KReg, 54 ≤ r.toNat → r.toNat < 63 → h.rk r = Store.get 0 g.kshadow r.toNat) ∧
     (∀ r : KReg, 48 ≤ r.toNat → r.toNat < 63 → Store.get 0 h.kshadow r.toNat = g.rk r) ∧
     (∀ r m, h.rv r m = g.rv r m) ∧ (∀ p m, h.rp p m = g.rp p m)) ∧
  (∀ (g : Group), g.handler = true → (∀ e ∈ g.kshadow, 48 ≤ e.1) →
     let h := g.leaveHandler
     ((∃ a ∈ g.lanes, a.handler = true) → h = g) ∧
     ((∀ a ∈ g.lanes, a.handler = false) →
       h.handler = false ∧ h.owed = g.cancel ∧ (∀ r : KReg, r.toNat < 48 → h.rk r = g.rk r) ∧
       (∀ r : KReg, 48 ≤ r.toNat → r.toNat < 63 → h.rk r = Store.get 0 g.kshadow r.toNat) ∧
       h.lanes = g.lanes.map (fun a => if a.st = .held then { a with st := .eligible } else a) ∧
       (∀ r m, h.rv r m = g.rv r m) ∧ (∀ p m, h.rp p m = g.rp p m)))

/-- R290, R436: at the end of a clause each lane that executed TRET leaves handler mode with LPC := TPC and V := 0, and goes on at once
when no handler lane remains; a misaligned TPC is a trap in handler mode. -/
def Obligations.TrapReturn : Prop :=
  ∀ (s : State) (l : Nat), s.g.handler = true → s.g.lanes.length = s.g.width → s.g.width ≤ 128 → l < s.g.width →
    let m (l : Nat) : Prop := (s.g.lane l).marked = true ∧ (s.g.lane l).st = .eligible
    let allMarked : Prop := ∀ k, k < s.g.width → (s.g.lane k).handler = true → m k
    let t := s.finishTret
    m l →
    ((∀ k, k < s.g.width → m k → (s.g.lane k).tpc.toNat % 8 = 0) →
      (t.g.lane l).lpc = (s.g.lane l).tpc ∧ (t.g.lane l).tcause = (s.g.lane l).tcause &&& 0x7FFFFFFF ∧
      (t.g.lane l).handler = false ∧ (allMarked → (t.g.lane l).st = .eligible ∧ t.g.handler = false) ∧
      (¬allMarked → (t.g.lane l).st = .held ∧ t.g.handler = true) ∧ { t with g := s.g } = s) ∧
    ((s.g.lane l).tpc.toNat % 8 ≠ 0 → ∀ a ∈ t.g.lanes, a.st.gone = true)

/-! ## System -/

/-- R290, R436, R437: in the handler TRET marks the active lanes, LANEEND kills them, PKRD reads and PKWR writes the register that B
selects of lane A's program state; outside it they raise PERM. -/
def Obligations.HandlerInstructionResults : Prop :=
  ∀ (s : State) (h : Hdr) (d c : VReg) (a b : Src),
    let act := s.g.active h
    let e (n : Nat) := s.entered n
    (Normal s h [6] anyRole [] →
      (s.g.handler = true →
        (∃ t, exec (.tret h) s = .next t ∧ Turns s t 1 s.g fun l x => if act.getLsbD l then { x with marked := true } else x) ∧
        (let g := (((e 1).g.endLanes act .killed).leaveHandler)
         g.stepping = false →
         exec (.laneend h) s = .next ((if g.dead then ({ e 1 with g := g }).modTask g.task fun t => { t with ended := true }
                                       else { e 1 with g := g }).left 1).settle)) ∧
      (s.g.handler = false → exec (.tret h) s = .next (((e 1).raiseAll 1 act (.mk0 cPERM)).left 1))) ∧
    (Normal s h [6] anyRole (d :: (Src.regs a ++ Src.regs b)) → s.g.handler = true →
      (∀ l, act.getLsbD l = true →
        let sel := (s.g.s32 b l).toNat
        (s.g.s32 a l).toNat < s.g.width ∧ bits sel 11 10 ≠ 3 ∧ (bits sel 11 10 = 0 → s.g.beyond (BitVec.ofNat 10 sel) = false) ∧
        (bits sel 11 10 = 1 → bits sel 9 0 < 16) ∧ (bits sel 11 10 = 2 → bits sel 9 0 < 64)) →
      ∃ t, exec (.pkrd h d a b) s = .next t ∧ WritesV s t h (len2 a b) d fun l =>
        let t := (s.g.s32 a l).toNat
        let n := bits (s.g.s32 b l).toNat 9 0
        match bits (s.g.s32 b l).toNat 11 10 with
        | 0 => s.g.rv (BitVec.ofNat 10 n) t
        | 1 => if s.g.rp (BitVec.ofNat 4 n) t then 1 else 0
        | _ => if n = 63 then 0 else if n < 48 then Store.get 0 s.g.k n else Store.get 0 s.g.kshadow n) ∧
    (Normal s h [6] anyRole (c :: (Src.regs a ++ Src.regs b)) → s.g.handler = true →
      (∀ l, act.getLsbD l = true → s.g.pkCheck (s.g.s32 a l).toNat (s.g.s32 b l).toNat = none) →
      exec (.pkwr h a b c) s = .next (({ e (len2 a b) with
        g := (s.activeLanes h).foldl (fun g l => g.pkWrite (s.g.s32 a l).toNat (s.g.s32 b l).toNat (s.g.rv c l)) (e (len2 a b)).g }).left
          (len2 a b)))

/-! ## Memory -/

/-- R209, R285, R388 to R391, R393: a load accesses its active lanes' addresses in ascending lane order, each checked for alignment and
range first, and writes what each access returns, extended or filling a pair or quad; LDK does so once; LD.pf writes zero where its
access faults. -/
def Obligations.LoadResults : Prop :=
  (∀ (s : State) (h : Hdr) (sz : Sz) (d : VReg) (k : KReg) (adr : Adr) (ann : Option Scope) (pf w64 : Bool), s.g.iss.todo = none →
     let n := alen adr
     let load (l m : Nat) : Mem (List Byte) := do
       let a ← vaCheck (s.g.ea64 adr m l) (min m 4) 0
       loadBytes (s.who l) a m (annOf ann)
     (Normal s h anyClass anyRole (d :: Adr.regs adr) →
       (∀ (bs : Nat → List Byte) (u : State),
         Completes (fun l => load l sz.bytes) bs (fun l b g => putWords d (extendSz sz b) l g) (s.activeLanes h) (s.entered n) u →
         exec (.ld h sz d adr ann pf) s = .next (u.left n)) ∧
       (∀ (l : Nat) (c : Cause) (u : State), s.activeLanes h = [l] → (load l sz.bytes).on (s.entered n) = (.error (.trap c), u) →
         exec (.ld h sz d adr ann true) s =
           .next (({ u with g := putWords d (List.replicate (4 * sz.regs) 0) l u.g }).left n))) ∧
     (Normal s h anyClass anyRole [] → ∀ (bs : List Byte) (u : State),
       let m := if w64 then 8 else 4
       (do let a ← vaCheck (s.g.ea64 adr m 0) 4 0
           loadBytes (s.who (lowest (s.g.active h))) a m (annOf ann)).on (s.entered n) = (.ok bs, u) →
       let x := BitVec.ofNat 64 (ofBytes bs)
       exec (.ldk h w64 k adr ann) s = .next (({ u with g := if w64 then u.g.wk64 k x else u.g.wk k (x.truncate 32) }).left n))) ∧
  (∀ (g : Group) (d : VReg) (sz : Sz) (bs : List Byte) (l : Nat), bs.length = sz.bytes → d.toNat + sz.regs ≤ 1023 → l < 128 →
     let h := putWords d (extendSz sz bs) l g
     let b (i : Nat) : Byte := bs.getD i 0
     let w (i : Nat) : Word := b (4 * i + 3) ++ b (4 * i + 2) ++ b (4 * i + 1) ++ b (4 * i)
     (sz = .n8 → h.rv d l = (b 0).zeroExtend 32) ∧ (sz = .s8 → h.rv d l = (b 0).signExtend 32) ∧
     (sz = .n16 → h.rv d l = (b 1 ++ b 0).zeroExtend 32) ∧ (sz = .s16 → h.rv d l = (b 1 ++ b 0).signExtend 32) ∧
     (sz.bytes ≥ 4 → ∀ i, i < sz.regs → h.rv (d + BitVec.ofNat 10 i) l = w i) ∧
     (∀ r m, m < 128 → m ≠ l ∨ r.toNat < d.toNat ∨ d.toNat + sz.regs ≤ r.toNat → h.rv r m = g.rv r m) ∧
     (∀ k, h.rk k = g.rk k) ∧ (∀ p m, h.rp p m = g.rp p m))

/-- R209, R324, R389, R390, R435: a store writes the low bytes of its registers, v1023 being zeros, at its active lanes' addresses in
ascending lane order, each checked first; MOVQ stores its quarantined register, every page being a PROF page. -/
def Obligations.StoreResults : Prop :=
  ∀ (s : State) (h : Hdr) (sz : Sz) (d : VReg) (q : QReg) (adr : Adr) (ann : Option Scope) (u : State), s.g.iss.todo = none →
    let n := alen adr
    let data (l : Nat) : List Byte := (List.range sz.bytes).map fun i =>
      if d.toNat = 1023 then 0 else (s.g.rv (d + BitVec.ofNat 10 (i / 4)) l).extractLsb' (8 * (i % 4)) 8
    (Normal s h anyClass anyRole (d :: Adr.regs adr) →
      Completes (fun l => do
          let a ← vaCheck (s.g.ea64 adr sz.bytes l) (min sz.bytes 4) 1
          storeBytes (s.who l) a (annOf ann) (data l))
        (fun _ => ()) (fun _ _ g => g) (s.activeLanes h) (s.entered n) u →
      exec (.st h sz d adr ann) s = .next (u.left n)) ∧
    (Normal s h [6] anyRole (Adr.regs adr) →
      Completes (fun l => do
          let e := s.g.ea64 adr 8 l
          if 0 ≤ e ∧ e < (2 ^ 48 : Nat) then withAcc 1 (checkQuar (s.who l) 3 e.toNat 8)
          let a ← vaCheck e 4 1
          storeBytes (s.who l) a 0 (toBytes 8 (s.g.rq q).toNat))
        (fun _ => ()) (fun _ _ g => g) (s.activeLanes h) (s.entered n) u →
      exec (.movq h q adr) s = .next (u.left n))

/-- R287, R390: an access that faults traps its lane with the cause of the access, and the lane's destination keeps its value. -/
def Obligations.FaultingAccessTraps : Prop :=
  ∀ (s : State) (h : Hdr) (sz : Sz) (d : VReg) (adr : Adr) (ann : Option Scope) (l : Nat) (c : Cause) (u : State),
    s.g.iss.todo = none → Normal s h anyClass anyRole (d :: Adr.regs adr) → s.activeLanes h = [l] → s.g.handler = false →
    (do let a ← vaCheck (s.g.ea64 adr sz.bytes l) (min sz.bytes 4) 0
        loadBytes (s.who l) a sz.bytes (annOf ann)).on (s.entered (alen adr)) = (.error (.trap c), u) →
    ∃ t, exec (.ld h sz d adr ann false) s = .next t ∧ t = (u.raise (alen adr) (1#128 <<< l) fun _ => c).left (alen adr) ∧
      (∀ r m, t.g.rv r m = s.g.rv r m) ∧
      (l < s.g.lanes.length → (t.g.lane l).st = .trapped ∧ (t.g.lane l).tcause = c.tcause ∧ (t.g.lane l).taddr = c.addr)

/-- R389, R392: a misaligned address raises ALIGN with the address, then one outside 48 bits raises XLATE with sub-cause 3; on the
scratchpad one outside the block's range raises PERM; nothing else changes. -/
def Obligations.AddressChecks : Prop :=
  (∀ (s : State) (e : Int) (m acc : Nat), 0 < m →
     (e % (m : Int) ≠ 0 → ∃ c, (vaCheck e m acc).on s = (.error (.trap c), s) ∧ c.code = cALIGN ∧ c.acc = acc ∧
       c.addr = BitVec.ofInt 64 e) ∧
     (e % (m : Int) = 0 → e < 0 ∨ 2 ^ 48 ≤ e → ∃ c, (vaCheck e m acc).on s = (.error (.trap c), s) ∧ c.code = cXLATE ∧ c.sub = 3 ∧
       c.acc = acc ∧ c.addr = BitVec.ofInt 64 e) ∧
     (e % (m : Int) = 0 → 0 ≤ e → e < 2 ^ 48 → (vaCheck e m acc).on s = (.ok e.toNat, s))) ∧
  (∀ (s : State) (e : Int) (m n acc : Nat), 0 < m →
     (e % (m : Int) ≠ 0 → ∃ c, (spCheck s e m n acc).on s = (.error (.trap c), s) ∧ c.code = cALIGN ∧ c.acc = acc) ∧
     (e % (m : Int) = 0 → e < 0 ∨ (s.g.scratch : Int) < e + n →
       ∃ c, (spCheck s e m n acc).on s = (.error (.trap c), s) ∧ c.code = cPERM ∧ c.acc = acc) ∧
     (e % (m : Int) = 0 → 0 ≤ e → e + n ≤ s.g.scratch → (spCheck s e m n acc).on s = (.ok e.toNat, s)))

/-- R204, R206: what an entry of the translation tables says of its page; an access that the page's rights or its PRIV bit refuse raises
PERM, and one that they grant goes to the page's address. -/
def Obligations.PageChecks : Prop :=
  (∀ (w : Who) (need : Need) (va : Nat) (s u : State) (l : Leaf), (walk w va).on s = (.ok l, u) →
     let ok : Prop := (need.rd = true → l.rd = true) ∧ (need.wr = true → l.wr = true) ∧ (need.ex = true → l.ex = true) ∧
       (l.prv = true → w.priv = true)
     (¬ok → ∃ c, (translate w need va).on s = (.error (.trap c), u) ∧ c.code = cPERM ∧ c.sub = 0 ∧ c.addr = BitVec.ofNat 64 va) ∧
     (ok → ∃ t, (translate w need va).on s = (.ok l, t) ∧ (l.ord ≠ 2 → t = u) ∧ t.mem = u.mem ∧ t.l1 = u.l1 ∧ t.l2 = u.l2)) ∧
  (∀ (lvl va e : Nat), lvl ≤ 2 → va < 2 ^ 48 → malformed lvl va e = false → e.testBit 51 = true →
     let l := mkLeaf lvl va e
     let size := if lvl = 2 then 2 ^ 30 else if lvl = 1 then 2 ^ 21 else if e.testBit 50 then 2 ^ 16 else 2 ^ 12
     l.dpa % size = va % size ∧ l.dpa / size = e % 2 ^ 41 / size ∧ l.left = size - va % size ∧ 0 < l.left ∧
     l.ord = e / 2 ^ 61 % 4 ∧ l.ord ≠ 3 ∧ (l.gr = 32 ∨ l.gr = 128 ∨ l.gr = 512) ∧
     (l.det = e.testBit 58 ∧ l.prof = e.testBit 57 ∧ l.c = e.testBit 56 ∧ l.rd = e.testBit 55 ∧ l.wr = e.testBit 54 ∧
       l.ex = e.testBit 53 ∧ l.prv = e.testBit 52))

/-- R195: bytes that a core stores in its first-level cache, once there is room, read back from it with no access beyond it, and no
other sector changes. -/
def Obligations.CacheForwardsStores : Prop :=
  ∀ (s u : State) (w : Who) (dpa gr va : Nat) (bytes : List Byte), bytes ≠ [] → dpa % 32 + bytes.length ≤ 32 →
    (l1Room w (l1Key (s.l1Core w.core dpa) (dpa / 32))).on s = (.ok (), u) →
    (∀ e, Store.look u.l1 (l1Key (u.l1Core w.core dpa) (dpa / 32)) = some e → e.data.length = 32) →
    ∃ t, (l1Write w dpa gr bytes).on s = (.ok (), t) ∧ { t with l1 := u.l1 } = u ∧
      (l1Read w dpa bytes.length gr va).on t = (.ok bytes, t) ∧
      (∀ k, k ≠ l1Key (u.l1Core w.core dpa) (dpa / 32) → Store.look t.l1 k = Store.look u.l1 k)

/-- R193, R285, R392: LDS reads and STS writes the bytes of the block's scratchpad; no other byte and no other memory changes. -/
def Obligations.ScratchpadResults : Prop :=
  ∀ (s : State) (h : Hdr) (sz : Sz) (d : VReg) (adr : Adr) (ann : Option Scope), s.g.iss.todo = none →
    Normal s h anyClass anyRole (d :: Adr.regs adr) →
    let n := alen adr
    let e (l : Nat) : Int := s.g.ea32 adr sz.bytes l
    let at_ (l : Nat) : Nat := 2 ^ 23 * s.g.core + s.spBase + (e l).toNat
    (∀ l, (s.g.active h).getLsbD l = true → e l % sz.bytes = 0 ∧ 0 ≤ e l ∧ e l + sz.bytes ≤ s.g.scratch) →
    exec (.lds h sz d adr ann) s = .next (({ s.entered n with
      g := (s.activeLanes h).foldl (fun g l => putWords d (extendSz sz (Memory.read s.sp (at_ l) sz.bytes)) l g) (s.entered n).g }).left n) ∧
    ∃ t, exec (.sts h sz d adr ann) s = .next t ∧ { t with sp := s.sp } = (s.entered n).left n ∧
      (∀ a, (∀ l, (s.g.active h).getLsbD l = true → a < at_ l ∨ at_ l + sz.bytes ≤ a) → Memory.byte t.sp a = Memory.byte s.sp a) ∧
      (∀ l i, (s.g.active h).getLsbD l = true → i < sz.bytes →
        (∀ m, l < m → (s.g.active h).getLsbD m = true → at_ l + i < at_ m ∨ at_ m + sz.bytes ≤ at_ l + i) →
        Memory.byte t.sp (at_ l + i) =
          if d.toNat = 1023 then 0 else (s.g.rv (d + BitVec.ofNat 10 (i / 4)) l).extractLsb' (8 * (i % 4)) 8)

/-- R397, R399: the new value of an atomic, by operation, width and signedness; an atomic on an aligned word of the block's scratchpad
returns the word and leaves the new one, and no other byte changes. -/
def Obligations.AtomicNewValues : Prop :=
  (∀ (w : Nat) (old b c : BitVec w),
     let f (op : AtomOp) (n : Bool) : BitVec w := BitVec.ofNat w (atomNew op w n old.toNat b.toNat c.toNat)
     0 < w → ∀ n : Bool,
       f .add n = old + b ∧ f .and n = old &&& b ∧ f .or n = old ||| b ∧ f .xor n = old ^^^ b ∧ f .exch n = b ∧
       f .cas n = (if old = c then b else old) ∧
       f .min n = (if (if n then b.ult old else b.slt old) then b else old) ∧
       f .max n = (if (if n then old.ult b else old.slt b) then b else old)) ∧
  (∀ (s : State) (l : Nat) (e : Word) (f : Nat → Nat), e.toNat % 4 = 0 → e.toNat + 4 ≤ s.g.scratch → (∀ o, f o < 2 ^ 32) →
     let at_ := 2 ^ 23 * s.g.core + s.spBase + e.toNat
     let word (m : List Host.Cell) : Nat := ofBytes (Memory.read m at_ 4)
     ∃ t, (laneAtoms s l e f).on s = (.ok (word s.sp), t) ∧ word t.sp = f (word s.sp) ∧ { t with sp := s.sp } = s ∧
       ∀ a, a < at_ ∨ at_ + 4 ≤ a → Memory.byte t.sp a = Memory.byte s.sp a)

/-- R209, R396 to R399: an atomic acts in its active lanes in ascending order, each returning the old value to D; on the scratchpad the
word becomes the new value. -/
def Obligations.AtomicResults : Prop :=
  ∀ (s : State) (h : Hdr) (op : AtomOp) (ty : AtomTy) (n : Bool) (d : VReg) (a b : Src) (c : VReg) (ord : Order) (scope : Scope)
    (old : Nat → Nat) (u : State), s.g.iss.todo = none →
    let k := len2 a b
    let m := AtomTy.bytes ty
    let x (l : Nat) : Nat := if m = 8 then (s.g.s64 b l).toNat else (s.g.s32 b l).toNat
    let y (l : Nat) : Nat := if op = .cas then (if m = 8 then (s.g.rv64 c l).toNat else (s.g.rv c l).toNat) else 0
    let z (l : Nat) : Nat := if op = .cas then (s.g.rv c l).toNat else 0
    let put (m l o : Nat) (g : Group) : Group := putWords d (toBytes m o) l g
    let nan (g : Group) (l o : Nat) : Group := if faddNan o (s.g.s32 b l).toNat then g.setNanp else g
    (Normal s h anyClass anyRole (d :: c :: (Src.regs a ++ Src.regs b)) →
      (Completes (fun l => laneAtomic (s.entered k) l m (s.g.s64 a l) ord (Scope.code scope) (Machine.AtomOp.code op) (Machine.AtomTy.code ty) (x l) (y l)
          fun o => atomNew op (8 * m) (AtomTy.unsigned ty) o (x l) (y l)) old (put m) (s.activeLanes h) (s.entered k) u →
        exec (.atom h op ty d a b c ord scope) s = .next (u.left k)) ∧
      (Completes (fun l => laneAtoms (s.entered k) l (s.g.s32 a l) fun o => atomNew op 32 n o (s.g.s32 b l).toNat (z l)) old (put 4)
          (s.activeLanes h) (s.entered k) u →
        exec (.atoms h op n d a b c ord) s = .next (u.left k))) ∧
    (Normal s h anyClass anyRole (d :: (Src.regs a ++ Src.regs b)) →
      (Completes (fun l => laneAtomic (s.entered k) l 4 (s.g.s64 a l) ord (Scope.code scope) 8 0 (s.g.s32 b l).toNat 0
          fun o => faddNew o (s.g.s32 b l).toNat) old (fun l o g => put 4 l o (nan g l o)) (s.activeLanes h) (s.entered k) u →
        exec (.atomFadd h d a b ord scope) s = .next (u.left k)) ∧
      (Completes (fun l => laneAtoms (s.entered k) l (s.g.s32 a l) fun o => faddNew o (s.g.s32 b l).toNat) old
          (fun l o g => put 4 l o (nan g l o)) (s.activeLanes h) (s.entered k) u →
        exec (.atomsFadd h d a b ord) s = .next (u.left k)))

/-- R220, R228, R394, R395, R400, R401: PREF never faults and changes no register; CCTL acts on its active lanes' lines in ascending
order or on the caches; FENCE acts at its scope, and QFENCE does so once the group's commands on the queues of its mask are complete and
waits until then. -/
def Obligations.CacheAndFenceResults : Prop :=
  ∀ (s : State) (h : Hdr) (l2 : Bool) (adr : Adr) (scope : Scope) (mask : Byte) (u : State), s.g.iss.todo = none →
    let n := alen adr
    let e := s.entered n
    let line (l : Nat) : Mem Leaf := cctlLine e adr l
    let flush (l : Nat) (p : Leaf) : Mem Unit := (s.lineKeys s.g.core p.dpa).forM fun k => flushKey (s.who l) p.gr k
    let drop (p : Leaf) : Mem Unit := Mem.mod fun t => t.dropSectors (s.lineKeys s.g.core p.dpa) fun x => x.dirty == 0
    let each (n : Nat) (acc : Nat → Mem Unit) (op : CctlOp) : Prop :=
      Completes acc (fun _ => ()) (fun _ _ g => g) (s.activeLanes h) (s.entered n) u → exec (.cctl h op) s = .next (u.left n)
    (Normal s h anyClass anyRole (Adr.regs adr) →
      (∃ t, exec (.pref h l2 adr) s = .next t ∧ t.g = (e.left n).g ∧ t.sp = s.sp ∧ t.hostmem = s.hostmem ∧ t.groups = s.groups ∧
        t.tasks = s.tasks ∧ t.blocks = s.blocks) ∧
      each n (fun l => do let p ← line l; flush l p) (.wb adr) ∧
      each n (fun l => do let p ← line l; drop p) (.inv adr) ∧
      each n (fun l => do let p ← line l; flush l p; drop p) (.wbinv adr) ∧
      each n (fun l => do let p ← line l; Mem.mod fun t => t.dropCode s.g.core (p.dpa / 128 * 128) 128) (.iinv adr)) ∧
    (Normal s h anyClass anyRole [] →
      each 1 (fun l => writeBackAll (s.who l) s.g.core) .wball ∧
      each 1 (fun _ => Mem.mod fun t => t.modCore s.g.core fun c => { c with icache := [] }) .iinvall ∧
      ((fenceAt (s.who (lowest (s.g.active h))) (Scope.code scope)).on (s.entered 1) = (.ok (), u) →
        exec (.fence h scope) s = .next (u.left 1)) ∧
      ((∀ i, i < 8 → mask.getLsbD i = true → s.g.async.getD i 0 = 0) →
        (fenceAt (s.who (lowest (s.g.active h))) (max 1 (Scope.code scope))).on (s.entered 1) = (.ok (), u) →
        exec (.qfence h mask scope) s = .next ((if mask = 0 then u else u.dropClean s.g.core).left 1)) ∧
      ((∃ i, i < 8 ∧ mask.getLsbD i = true ∧ s.g.async.getD i 0 ≠ 0) →
        exec (.qfence h mask scope) s = .next (s.stays (s.entered 1) 1 .engine none)))

/-! ## Matrix, async, tasks, search -/

/-- R249 to R253, R406: SHAPE grants the request as far as the part goes and writes the register's fields, SHEXT changes the extents of
a held grant, and SHQ returns the 128 bits to four k registers, or zeros from an empty register; a bad request raises SHAPE with its
sub-cause. -/
def Obligations.ShapeResults : Prop :=
  ∀ (s : State) (h : Hdr) (sh : ShReg) (d : KReg) (a b : KSrc) (fmt : BitVec 5),
    Normal s h [1, 6] matRole [] →
    let n := klen2 a b
    let r := (s.g.ks32 a).toNat
    let astr := (s.g.ks32 b).toNat
    let rqm := bits r 7 0
    let rqn := bits r 15 8
    let rqk := bits r 28 16
    let sc := r.testBit 29
    let old := (s.g.rsh sh).toNat
    let act := s.g.active h
    let bad : Prop := 15 ≤ fmt.toNat ∨ (sc = true ∧ noScales fmt.toNat = true) ∨ astr % 64 ≠ 0
    let small : Prop := rqm < 8 ∨ rqn < 8 ∨ rqk = 0
    let leader : Prop := s.twinLeader = true
    let leaves (y : BitVec 128) (m : Nat) (i : Instr) : Prop :=
      exec i s = .next (({ s.entered m with g := (s.entered m).g.wsh sh y }).left m)
    (¬bad → ¬small → ∃ y : BitVec 128, leaves y n (.shape h sh a b fmt) ∧
      (let x := y.toNat
       x.testBit 127 = true ∧ x.testBit 126 = false ∧ x.testBit 125 = sc ∧ bits x 124 120 = fmt.toNat ∧ bits x 119 112 = rqm ∧
       bits x 111 104 = rqn ∧ bits x 103 91 = rqk ∧ bits x 73 64 = 0 ∧ bits x 63 32 = astr ∧ bits x 31 12 = 0 ∧
       bits x 11 0 = min rqk 4096 - 1 ∧
       (let gm := 8 * 2 ^ bits x 90 89
        gm ≤ min rqm s.part.maxM ∧ gm ≤ 32 ∧ (∀ c ∈ [8, 16, 32], c ≤ min rqm s.part.maxM → c ≤ gm) ∧ bits x 86 81 = gm) ∧
       (let gn := 8 * 2 ^ bits x 88 87
        gn ≤ rqn ∧ (∀ c ∈ [8, 16, 32], c ≤ rqn → c ≤ gn) ∧ (gn = 64 ↔ 64 ≤ rqn ∧ leader) ∧ bits x 80 74 = gn))) ∧
    (s.g.handler = false →
      (bad → exec (.shape h sh a b fmt) s = .next (((s.entered n).raiseAll n act (shapeTrap 1)).left n)) ∧
      (¬bad → small → exec (.shape h sh a b fmt) s = .next (((s.entered n).raiseAll n act (shapeTrap 0)).left n)) ∧
      (old.testBit 127 = false →
        exec (.shext h sh a) s = .next (((s.entered (klen1 a)).raiseAll (klen1 a) act (shapeTrap 3)).left (klen1 a)))) ∧
    (let em := bits r 7 0
     let en := bits r 15 8
     old.testBit 127 = true → old.testBit 126 = false → 0 < em → em ≤ 8 * 2 ^ bits old 90 89 → 0 < en → en ≤ 8 * 2 ^ bits old 88 87 →
     bits old 90 89 < 3 → bits old 73 64 = 0 → bits old 31 12 = 0 →
     ∃ y : BitVec 128, leaves y (klen1 a) (.shext h sh a) ∧ bits y.toNat 86 81 = em ∧ bits y.toNat 80 74 = en ∧
       ∀ i, i < 128 → i < 74 ∨ 86 < i → y.toNat.testBit i = old.testBit i) ∧
    (d.toNat % 4 = 0 → ∃ t, exec (.shq h d sh) s = .next t ∧
      Follows s t 1 s.g.rv
        (fun k => if d.toNat ≤ k.toNat ∧ k.toNat < d.toNat + 4 ∧ k.toNat ≠ 63 then
            (if old.testBit 127 then BitVec.ofNat 32 (bits old (32 * (k.toNat - d.toNat) + 31) (32 * (k.toNat - d.toNat))) else 0)
          else s.g.rk k) s.g.rp s.g.fpctl)

/-- R180, R254 to R263, R407 to R412: WBLD fills slots by a command on a channel, MMA queues an operation with the frame's watermark
cleared, ACCRD reads rows that are ready and parks the other lanes, each of them waiting while its counter stands at 63; ACCWR and ACCCLR write a quiet frame, WMARK reads its status and DRNLD gives
the block its program. -/
def Obligations.MatrixResults : Prop :=
  ∀ (s : State) (h : Hdr) (d : VReg) (k : KReg) (f : FrameReg) (a b : KSrc) (x y : Src) (sh : ShReg) (pk : KReg) (slot : BitVec 6)
    (ch : BitVec 2) (dn : BitVec 5) (twin z w4 : Bool),
    let cid := s.g.core
    let me := s.g.owner
    let act := s.g.active h
    let e (n : Nat) : State := s.entered n
    let core (n : Nat) : Core := (e n).core cid
    let mine : Prop := ((s.core cid).frame f.toNat).owner = none ∨ ((s.core cid).frame f.toNat).owner = some me
    let claimed (n : Nat) : Core := (core n).claim f.toNat me
    let quiet : Prop := ((s.core cid).frame f.toNat).owner = none ∨
      ((s.core cid).framePending f.toNat = false ∧ ((s.core cid).frame f.toNat).wm = 32)
    (Normal s h [1, 6] matRole [] → ∀ u : State,
      (let n := klen2 a b
       let va := (s.g.ks64 a).toNat
       let len := (s.g.ks32 b).toNat
       let last := slot.toNat + (len - 1) / 16384
       va % 64 = 0 → len % 64 = 0 → 0 < len → last < s.part.slots →
       (∀ i, slot.toNat ≤ i → i ≤ last →
         ((s.core cid).wslot i).st = .empty ∨ ((s.core cid).wslot i).heldBy (s.slotOwner s.g.task s.g.block) = true) →
       (s.g.counterFull ch.toNat = true → exec (.wbld h a b slot ch) s = .next (s.stays (e n) n .engine none)) ∧
       (s.g.counterFull ch.toNat = false → (release (s.who (lowest act)) 3).on (e n) = (.ok (), u) →
       ∃ t c, exec (.wbld h a b slot ch) s = .next t ∧
         (∀ i, slot.toNat ≤ i → i ≤ last → ((t.core cid).wslot i).st = .filling) ∧
         (∀ i, i < slot.toNat ∨ last < i → (t.core cid).wslot i = (u.core cid).wslot i) ∧
         (t.core cid).chans = modifyAt (fun q => q ++ [c]) (u.core cid).chans ch.toNat ∧
         c.saddr = va ∧ c.len = len ∧ c.rows = 1 ∧ c.dkind = 2 ∧ c.daddr = 16384 * slot.toNat ∧ c.task = s.g.task ∧ c.block = s.g.block ∧
         (∀ bk, s.gblock = some bk → c.ticket = (bk.issued.getD ch.toNat 0 + len) % 2 ^ 64) ∧
         t.g = { (u.left n).g with async := modifyAt (· + 1) s.g.async ch.toNat } ∧ t.mem = u.mem ∧ t.sp = s.sp)) ∧
      (let n := klen2 a b
       let p := Shape.of (s.g.rsh sh)
       let ctl := (s.g.ks32 b).toNat
       p.chg = false → (e n).mmaCheck f.toNat (s.g.ks32 a).toNat ctl p twin = none →
       let full : Prop := s.g.counterFull 4 = true ∨ (ctl.testBit 11 = true ∧ s.g.counterFull 5 = true)
       (full → exec (.mma h f a b sh pk twin z) s = .next (s.stays (e n) n .engine none)) ∧
       (¬full → ∃ t, exec (.mma h f a b sh pk twin z) s = .next t ∧
         (∀ c ∈ s.twinCores twin, ∃ o : MOp, (t.core c.1).mq = (s.core c.1).mq ++ [o] ∧ ((t.core c.1).frame f.toNat).wm = 0 ∧
           ((t.core c.1).frame f.toNat).owner = some (((s.core c.1).frame f.toNat).owner.getD c.2) ∧
           ((t.core c.1).frame f.toNat).s32 = p.s32 ∧ o.id = s.nextId ∧ o.frame = f.toNat ∧ o.sh = s.g.rsh sh ∧
           o.aoff = (s.g.ks32 a).toNat ∧ o.slot = bits ctl 5 0 ∧ o.drn = bits ctl 10 6 ∧ o.den = ctl.testBit 11 ∧
           o.dv = ctl.testBit 12 ∧ o.dc = bits ctl 24 13 ∧ o.z = z ∧ o.twin = twin ∧ o.next = 0 ∧ o.half = decide (c.1 ≠ cid) ∧
           (∀ i, i < 4 → o.pk.getD i 0 = if pk.toNat + i = 63 then 0 else s.g.rk (pk + BitVec.ofNat 6 i))) ∧
         t.nextId = s.nextId + 1 ∧
         t.g = { ((e n).left n).g with
           async := (let q := modifyAt (· + 1) s.g.async 4; if ctl.testBit 11 then modifyAt (· + 1) q 5 else q) })) ∧
      (mine → quiet → ∃ t, exec (.accclr h f) s = .next t ∧ (∀ i, i < 1024 → (t.core cid).elem f.toNat i = 0) ∧
        (∀ g i, g < 192 → g ≠ f.toNat → i < 1024 → (t.core cid).elem g i = (s.core cid).elem g i) ∧
        ((t.core cid).frame f.toNat).satf = false ∧ ((t.core cid).frame f.toNat).nanf = false ∧
        ((t.core cid).frame f.toNat).owner = some me ∧ t.g = ((e 1).left 1).g) ∧
      (mine → ∃ t, exec (.wmark h k f) s = .next t ∧ WritesK s t 1 k (
        let fr := (s.core cid).frame f.toNat
        BitVec.ofNat 32 (fr.wm + (if fr.satf then 256 else 0) + (if fr.nanf then 512 else 0) + (if fr.s32 then 1024 else 0) +
          (if (s.core cid).framePending f.toNat then 2048 else 0)))) ∧
      (∀ (k : Task) (ws : List Byte), s.task s.g.task = some k → dn.toNat < bits (k.h 6) 39 32 → s.twinLeader = false →
        (s.core cid).program (s.asnOf s.g.ctx) k.khdr dn.toNat = none → (s.core cid).dslots.length < 32 →
        (withAcc 3 (readParts (s.who (lowest act)) .fetch false 3 (k.khdr + bits (k.h 6) 31 0 + 64 * dn.toNat) 64)).on (e 1) = (.ok ws, u) →
        let prog := (List.range 16).map fun i => BitVec.ofNat 32 (fieldAt ws (4 * i) 4)
        (prog.all microOk = true → (u.core cid).program (s.asnOf s.g.ctx) k.khdr dn.toNat = none →
          ∃ t, exec (.drnld h dn) s = .next t ∧ t.g = (u.left 1).g ∧
            (t.core cid).program (s.asnOf s.g.ctx) k.khdr dn.toNat =
              some ⟨s.asnOf s.g.ctx, k.khdr, dn.toNat, [me], prog⟩) ∧
        (prog.all microOk = false → s.g.handler = false → exec (.drnld h dn) s = .next ((u.raiseAll 1 act (.mk0 cILLEGAL)).left 1)))) ∧
    (let n := len1 y
     let w := if w4 then 4 else 1
     let at_ (l : Nat) : Nat := (s.g.s32 y l).toNat
     let row (l : Nat) : RowSt := ((claimed n).frame f.toNat).row (at_ l / 32)
     Normal s h [1, 6] matRole (d :: Src.regs y) → mine →
     (63 ≤ s.g.loads → exec (.accrd h d f y w4) s = .next (s.stays (e n) n .engine none)) ∧
     (s.g.loads < 63 → (∀ l, act.getLsbD l = true → at_ l % w = 0 ∧ at_ l + w ≤ 1024 ∧ row l ≠ .frozen) →
     ∃ t, exec (.accrd h d f y w4) s = .next t ∧
       (∀ r l, l < 128 → t.g.rv r l =
         if act.getLsbD l = true ∧ row l = .ready ∧ r.toNat ≠ 1023 ∧ d.toNat ≠ 1023 ∧ r - d < BitVec.ofNat 10 w then
           (claimed n).elem f.toNat (at_ l + (r - d).toNat)
         else s.g.rv r l) ∧
       (∀ l, act.getLsbD l = true → l < s.g.lanes.length →
         (row l = .wait → (t.g.lane l).st = .accPark d f (s.g.s32 y l) w4 s.g.iss.pc (s.g.waitingLoads.foldl max 0 + 1) ∧ t.g.iss.x.getLsbD l = false) ∧
         (row l = .ready → (t.g.lane l).st = (s.g.lane l).st ∧ t.g.iss.x.getLsbD l = s.g.iss.x.getLsbD l)) ∧
       (∀ r, t.g.rk r = s.g.rk r) ∧ (∀ p l, t.g.rp p l = s.g.rp p l) ∧ t.mem = s.mem ∧ t.sp = s.sp)) ∧
    (let n := len2 x y
     let at_ (l : Nat) : Nat := (s.g.s32 x l).toNat
     Normal s h [1, 6] matRole (Src.regs x ++ Src.regs y) → mine → quiet → (∀ l, act.getLsbD l = true → at_ l < 1024) →
     ∃ t, exec (.accwr h f x y) s = .next t ∧ t.g = ((e n).left n).g ∧ t.mem = s.mem ∧ t.sp = s.sp ∧
       (∀ l, act.getLsbD l = true → (∀ m, l < m → act.getLsbD m = true → at_ m ≠ at_ l) →
         (t.core cid).elem f.toNat (at_ l) = s.g.s32 y l) ∧
       (∀ i, i < 1024 → (∀ l, act.getLsbD l = true → at_ l ≠ i) → (t.core cid).elem f.toNat i = (claimed n).elem f.toNat i))

/-- R141 to R143, R171, R178, R180, R199 to R201, R404, R413 to R417: COPY places a command and returns its ticket, or waits while its
counter stands at 63; a ring form takes a pending CANCEL event before it acts (the model's reading, assumption 65); RDWPT reads DONE, a ring acquire takes
the slot at the head and a publish or release gives it back, and REGACQ and REGREL change the grant. -/
def Obligations.AsyncResults : Prop :=
  ∀ (s : State) (h : Hdr) (d a : KReg) (v : VReg) (b : KSrc) (ch : BitVec 2) (ring : BitVec 3) (bk : Block) (u : State),
    s.gblock = some bk →
    let cid := s.g.core
    let k (i : Nat) : Nat := (s.g.rk (a + BitVec.ofNat 6 i)).toNat
    (Normal s h [2, 6] [.copy, .general] [] →
      let n := klen1 b
      let ctl := (s.g.ks32 b).toNat
      let len := k 4
      let rows := bits (k 5) 12 0
      0 < len → len ≤ 2 ^ 20 → 0 < rows → rows ≤ 4096 → bits (k 5) 31 23 = 0 → (k 5).testBit 19 = false → bits (k 5) 15 13 = 0 →
      ((k 5).testBit 16 = true → bits (k 5) 18 17 < s.ranks) → ((k 5).testBit 20 = true → bits (k 5) 22 21 < s.ranks) →
      (ctl.testBit 12 = true → s.ownsCounter s.g.ctx (bits ctl 11 0) = true) → d.toNat % 2 = 0 → d.toNat < 62 →
      (s.g.counterFull ch.toNat = true → exec (.copy h d a b ch) s = .next (s.stays (s.entered n) n .engine none)) ∧
      (s.g.counterFull ch.toNat = false → (release (s.who (lowest (s.g.active h))) 3).on (s.entered n) = (.ok (), u) →
      let t0 := (bk.issued.getD ch.toNat 0 + len * rows) % 2 ^ 64
      ∃ t c, exec (.copy h d a b ch) s = .next t ∧ (t.core cid).chans = modifyAt (fun q => q ++ [c]) (u.core cid).chans ch.toNat ∧
        c.len = len ∧ c.rows = rows ∧ c.sstr = k 6 ∧ c.dstr = k 7 ∧ c.ticket = t0 ∧ c.pos = 0 ∧
        c.dc = (if ctl.testBit 12 then some (bits ctl 11 0) else none) ∧
        (if (k 5).testBit 16 then c.skind = 1 ∧ c.saddr = k 0 ∧ c.srank = bits (k 5) 18 17
         else c.skind = 0 ∧ c.saddr = k 0 + 2 ^ 32 * k 1) ∧
        (if (k 5).testBit 20 then c.dkind = 1 ∧ c.daddr = k 2 ∧ c.drank = bits (k 5) 22 21
         else c.dkind = 0 ∧ c.daddr = k 2 + 2 ^ 32 * k 3) ∧
        t.g.rk64 d = BitVec.ofNat 64 t0 ∧ (∀ r, r ≠ d → r ≠ d + 1 → t.g.rk r = s.g.rk r) ∧ t.g.v = s.g.v ∧ t.g.p = s.g.p ∧
        t.g.async = modifyAt (· + 1) s.g.async ch.toNat ∧ t.mem = u.mem ∧ t.sp = s.sp)) ∧
    (Normal s h [2, 6] anyRole [] → d.toNat % 2 = 0 →
      ∃ t, exec (.rdwpt h (.k d) ch) s = .next t ∧ (∀ r, t.g.rk r = setK64 s d (BitVec.ofNat 64 (bk.done.getD ch.toNat 0)) r) ∧
        t.g.v = s.g.v ∧ t.g.p = s.g.p ∧ t.mem = s.mem ∧ t.sp = s.sp) ∧
    (Normal s h [2, 6] anyRole [v] → v.toNat % 2 = 0 →
      ∃ t, exec (.rdwpt h (.v v) ch) s = .next t ∧ (∀ r l, l < 128 →
          t.g.rv r l = setV64 s h v (fun _ => BitVec.ofNat 64 (bk.done.getD ch.toNat 0)) r l) ∧
        t.g.k = s.g.k ∧ t.g.p = s.g.p ∧ t.mem = s.mem ∧ t.sp = s.sp) ∧
    (Normal s h [2, 6] anyRole [] → Ends s 1 → ∀ prod : Bool,
      let i := ring.toNat
      let r := bk.ring i
      let gi := s.g.index
      let op (o : RingOp) : Instr := if prod then .ringp h ring o else .ringc h ring o
      let head := if prod then r.phead else r.chead
      let phase := if prod then r.pphase else r.cphase
      let set (u : State) (x : Ring) : State := u.modBlock s.g.task s.g.block fun b => b.setRing i x
      (s.g.mayCancel = true → ∀ o, exec (op o) s = .next (((s.entered 1).deliver (s.entered 1).g).left 1).settle) ∧
      (s.g.mayCancel = false → s.ringRole i prod true = false → r.slot head = (if prod then .free else .full) →
        (∀ x xs, (if prod then r.pwait else r.cwait) = x :: xs → x = gi) → head < 16 →
        ∃ x, ∃ r' : Ring, exec (op (.acq d)) s =
            .next (({ set (s.entered 1) r' with g := (set (s.entered 1) r').g.wk d x }).left 1).settle ∧
          x.toNat = head + (if phase then 16 else 0) + 32 * i ∧
          r'.slots = modifyAt (fun _ => if prod then .reserved gi else .taken gi) r.slots head ∧
          (if prod then r'.phead else r'.chead) = (if head + 1 = r.depth then 0 else head + 1) ∧
          (if prod then r'.pphase else r'.cphase) = (if head + 1 = r.depth then !phase else phase)) ∧
      (s.g.mayCancel = false → s.ringRole i prod false = false →
        ∃ r' : Ring, exec (op .done) s = .next ((set (s.entered 1) r').left 1).settle ∧
          r'.slots = r.slots.map (fun x => if x = (if prod then .reserved gi else .taken gi) then (if prod then .full else .free) else x) ∧
          { r' with slots := r.slots } = r)) ∧
    (Normal s h [5, 6] anyRole [] →
      let n := (s.g.ks32 b).toNat
      let m := klen1 b
      (Ends s m → n ≤ s.g.grant → exec (.regacq h b) s = .next ((s.entered m).left m)) ∧
      (s.g.grant ≤ n → exec (.regrel h b) s = .next ((s.entered m).left m)) ∧
      (Ends s m → s.g.grant < n → n ≤ s.g.regext → n * (s.g.width / 16) ≤ 32 →
        (∀ q ∈ (s.core cid).regq, q.1 ≠ s.g.quad) → s.g.iss.on = true →
        s.unitsUsed cid s.g.quad + n * (s.g.width / 16) ≤ 32 + s.g.grant * (s.g.width / 16) →
        ∃ t, exec (.regacq h b) s = .next t ∧ t.g.grant = n ∧
          (∀ r l, l < 128 → t.g.rv r l = if r.toNat / 64 ≤ s.g.grant then s.g.rv r l else 0) ∧
          (∀ r, t.g.rk r = s.g.rk r) ∧ (∀ p l, t.g.rp p l = s.g.rp p l)) ∧
      (n < s.g.grant → (∀ q ∈ (s.core cid).regq, q.1 ≠ s.g.quad) →
        ∃ t, exec (.regrel h b) s = .next t ∧ t.g.grant = n ∧
          (∀ r l, l < 128 → r.toNat / 64 ≤ n → t.g.rv r l = s.g.rv r l) ∧
          (∀ r, t.g.rk r = s.g.rk r) ∧ (∀ p l, t.g.rp p l = s.g.rp p l)))

/-- R150, R151, R156, R159 to R162, R164 to R172, R404, R418 to R428: the active lanes post, push, adjust, resolve and query in
ascending order, each by its own access; SPAWN and WAITD take a pending CANCEL event before they act (the model's reading, assumption
65); what acts once for the group does so on the lanes' common operand. -/
def Obligations.TaskResults : Prop :=
  ∀ (s : State) (h : Hdr) (d c : VReg) (k : KReg) (p : PReg) (a b : Src) (mode : EnqMode) (sp : Bool) (x : Word) (out : Nat → LaneOut)
    (u : State), s.g.iss.todo = none →
    let act := s.g.active h
    let lanes := s.activeLanes h
    let same : Prop := ∀ l, act.getLsbD l = true → s.g.s32 a l = x
    let each (n : Nat) (from_ : State) (acc : Nat → Mem LaneOut) : Prop :=
      Completes acc out (fun l o g => o.apply l g) lanes from_ u
    (Normal s h [4, 6] anyRole (c :: (Src.regs a ++ Src.regs b)) →
      let n := len2 a b
      let e := s.entered n
      (Ends s n → s.g.mayCancel = true → exec (.spawn h a b c) s = .next ((e.deliver e.g).left n).settle) ∧
      (Ends s n → s.g.mayCancel = false →
        each n e (fun l => do
          let ws ← readCard e l (s.g.s64 a l)
          postLane e l (spawnCard e ws (s.g.s64 b l) (s.g.rv c l)) (segOf s.part.slices (bits (s.g.rv c l).toNat 15 0))) →
        exec (.spawn h a b c) s = .next (u.left n).settle) ∧
      (each n e (fun l => do
          let i := (s.g.s32 a l).toNat
          if 8 ≤ i then permAt i
          withAcc 2 do
            let q ← translate (s.who l) .atomic (s.slotVa s.g.ctx i)
            release (s.who l) 3
            let t ← get
            if (t.cx s.g.ctx).frozen then return {}
            let new := toBytes 4 (s.g.s32 b l).toNat ++ List.replicate 4 0 ++ toBytes 8 (s.g.rv64 c l).toNat
            let _ ← atomicAt (s.who l) 3 q 16 (s.slotVa s.g.ctx i) [] fun old => if fieldAt old 0 4 < (s.g.s32 b l).toNat then new else old
            return {}) →
        exec (.bestupd h a b c) s = .next (u.left n))) ∧
    (let bs := EnqMode.src? mode
     let n := 1 + (a.lits ++ bs.flatMap Src.lits).length
     let e := s.entered n
     let ns := s.part.slices
     Normal s h [4, 6] anyRole (Src.regs a ++ bs.flatMap Src.regs) → Ends s n →
     (∀ l, act.getLsbD l = true → ∀ y, mode = .core y → (s.g.s32 y l).toNat / 4 = s.g.core / 4 ∧ (s.g.s32 y l).toNat < s.part.cores) →
     each n e (fun l => do
       let ws ← readCard e l (s.g.s64 a l)
       postLane e l ws (match mode with
         | .own => 2 * s.g.core % ns
         | .core y => 2 * (s.g.s32 y l).toNat % ns
         | .hash => segOf ns (bits (ws.getD 1 0).toNat 63 48))) →
     exec (.enq h a mode) s = .next (u.left n).settle) ∧
    (Normal s h [4, 6] anyRole (Src.regs a ++ Src.regs b) →
      let n := len2 a b
      let e := s.entered n
      (each n e (fun l => do
          if !s.ownsCounter s.g.ctx (s.g.s32 a l).toNat then permAt 0
          release (s.who l) 3
          Mem.mod fun t => t.adjust (s.g.s32 a l).toNat (sext (s.g.s32 b l).toNat 24)
          return {}) →
        u.g.iss.wait = none → u.g.stepping = false → exec (.decr h a b) s = .next (u.left n).settle) ∧
      (each n e (fun l => do
          release (s.who l) 3
          Mem.mod fun t => t.resolve (s.g.s32 a l) (some s.g.ctx) .ready (s.g.s64 b l)
          return {}) →
        u.g.iss.wait = none → u.g.stepping = false → exec (.fres h a b) s = .next (u.left n)) ∧
      (same → x.toNat < 8 → (s.pool x.toNat).bound = true → (s.pool x.toNat).ctx = s.g.ctx →
        (each n e (fun l => do
            let t ← get
            let q := t.pool x.toNat
            let va := (s.g.s64 b l).toNat
            let i := (va - q.base) / q.size
            if va < q.base ∨ (va - q.base) % q.size ≠ 0 ∨ q.count ≤ i then permAt va
            release (s.who l) 3
            let m ← q.readMeta x.toNat i
            if !m.testBit 63 || bits m 15 0 != (s.tagOf s.g.task).1.toNat then
              Mem.mod fun t => (t.setPool x.toNat { t.pool x.toNat with dfree := (t.pool x.toNat).dfree + 1 }).countDev 17 1
            else q.push x.toNat i
            return {}) →
          exec (.poolf h a b) s = .next (u.left n)) ∧
        (each n e (fun l => do
            let t ← get
            (t.pool x.toNat).sweep x.toNat (CSet.of (s.g.s32 b l)) false
            return {}) →
          exec (.poolft h a b) s = .next (u.left n)))) ∧
    (Normal s h [4, 6] anyRole (Src.regs a) →
      let n := len1 a
      let e := s.entered n
      let holds : Prop := ∃ bk, s.gblock = some bk ∧ bk.rings.any (fun r => r.holds s.g.index) = true
      same →
      (Ends s n → s.g.mayCancel = true → exec (.waitd h a) s = .next ((e.deliver e.g).left n).settle) ∧
      (Ends s n → s.g.mayCancel = false → ¬holds → s.ownsCounter s.g.ctx x.toNat = true →
        ((s.counter x.toNat).value = 0 → exec (.waitd h a) s = .next ((e.dropClean s.g.core).left n).settle) ∧
        ((s.counter x.toNat).value ≠ 0 → exec (.waitd h a) s = .next (s.stays e n (.waitd x.toNat) none).settle)) ∧
      (let v := min x.toNat (2 ^ 24 - 1)
       ∃ t, exec (.dlnset h a) s = .next t ∧ t = ({ e with ctxs := t.ctxs }).left n ∧ (t.cx s.g.ctx).frozen = false ∧
        (v ≠ 0 → (t.cx s.g.ctx).dln.getLsbD 63 = true ∧ (t.cx s.g.ctx).dln.toNat % 2 ^ 63 = (s.rtc.toNat + v) % 2 ^ 63) ∧
        (v = 0 → (t.cx s.g.ctx).dln.getLsbD 63 = false) ∧ (∀ y, y ≠ s.g.ctx → t.cx y = s.cx y)) ∧
      ((cancelAll s.g.ctx (CSet.of x)).on e = (.ok (), u) → u.g.iss.wait = none → u.g.stepping = false →
        exec (.cancel h a) s = .next ((if u.g.det then u.detEvent u.g.ctx 9 u.g.iss.pc else u).left n).settle)) ∧
    (Normal s h [4, 6] anyRole [] → ∃ t, exec (.dlnrd h k) s = .next t ∧ WritesK s t 1 k (
      let dl := (s.cx s.g.ctx).dln
      if dl.getLsbD 63 = false then 0
      else if s.g.det then 0xFFFFFF
      else BitVec.ofNat 32 (dl.toNat % 2 ^ 63 - s.rtc.toNat))) ∧
    (Normal s h [4, 6] anyRole (d :: Src.regs a) →
      let n := len1 a
      (same → x.toNat < 8 → (s.pool x.toNat).bound = true → (s.pool x.toNat).ctx = s.g.ctx →
        each n (s.entered n) (fun l => do
          let t0 ← get
          let q := t0.pool x.toNat
          let t ← get
          let r ← if t.refuses s.g.ctx (s.tagOf s.g.task).1 (s.tagOf s.g.task).2 then pure none
                  else q.take x.toNat (s.tagOf s.g.task).1 (s.tagOf s.g.task).2
          (s.who l).det! 7
          acquire (s.who l) 3
          match r with
          | none => return { p := [(p, false)] }
          | some i => return { v := vwrites64 d (BitVec.ofNat 64 (q.base + i * q.size)), p := [(p, true)] }) →
        exec (.poola h d a p) s = .next (u.left n)) ∧
      ((∀ l, act.getLsbD l = true → (s.ownFut (s.g.s32 a l)).isSome = true) →
        ∃ t, exec (.testf h d a) s = .next t ∧ WritesV s t h n d fun l => ((s.ownFut (s.g.s32 a l)).map fun f => f.st.code).getD 0))

/-- R156, R161, R162, R171, R270, R404, R422 to R424: LEAFQ and WAITF take a pending CANCEL event before they act (the model's reading,
assumption 65); LEAFQ pushes a row and CQRY and DSTEP a command for each active lane and return its future;
WAITF returns a final future's value and code and frees its entry, and parks the lanes whose future is pending. -/
def Obligations.SearchResults : Prop :=
  ∀ (s : State) (h : Hdr) (d c : VReg) (a b : Src) (sp : Bool) (x : Word) (out : Nat → LaneOut) (u0 u : State), s.g.iss.todo = none →
    let act := s.g.active h
    let each (from_ : State) (acc : Nat → Mem LaneOut) : Prop :=
      Completes acc out (fun l o g => o.apply l g) (s.activeLanes h) from_ u
    let taken (n : Nat) : State := (((s.entered n).deliver (s.entered n).g).left n).settle
    (Normal s h [4, 6] anyRole (d :: (Src.regs a ++ Src.regs b)) → Ends s (len2 a b) →
      (s.g.mayCancel = true → exec (.leafq h d a b sp) s = .next (taken (len2 a b))) ∧
      (s.g.mayCancel = false → (∀ l, act.getLsbD l = true → s.g.s32 a l = x) →
       (release (s.who (lowest act)) 3).on (s.entered (len2 a b)) = (.ok (), u0) →
       each u0 (fun l => leafLane u0 d x.toNat b sp l) → u.g.iss.wait = none → u.g.stepping = false →
       exec (.leafq h d a b sp) s = .next (u.left (len2 a b)).settle)) ∧
    (Normal s h [3, 6] anyRole (d :: (Src.regs a ++ Src.regs b)) → Ends s (len2 a b) →
      each (s.entered (len2 a b)) (fun l => spatialLane (s.entered (len2 a b)) false d (s.g.s64 a l) (s.g.s64 b l) l) →
      exec (.cqry h d a b) s = .next (u.left (len2 a b)).settle) ∧
    (Normal s h [3, 6] anyRole (d :: Src.regs a) → Ends s (len1 a) →
      each (s.entered (len1 a)) (fun l => spatialLane (s.entered (len1 a)) true d (s.g.s64 a l) 0 l) →
      exec (.dstep h d a) s = .next (u.left (len1 a)).settle) ∧
    (Normal s h [4, 6] anyRole (d :: c :: Src.regs a) → Ends s (len1 a) → s.g.mayCancel = true →
      exec (.waitf h d a c) s = .next (taken (len1 a))) ∧
    (Normal s h [4, 6] anyRole (d :: c :: Src.regs a) → Ends s (len1 a) → s.g.mayCancel = false → s.g.lanes.length = s.g.width →
      (∀ l m, act.getLsbD l = true → act.getLsbD m = true → s.g.s32 a l = s.g.s32 a m → l = m) →
      (∀ l, act.getLsbD l = true → (s.ownFut (s.g.s32 a l)).isSome = true) →
      let fut (l : Nat) : Fut := (s.ownFut (s.g.s32 a l)).getD .reset
      ∃ v : State, exec (.waitf h d a c) s = .next (v.left (len1 a)).settle ∧
        (∀ r l, l < 128 → v.g.rv r l =
          if act.getLsbD l = true ∧ (fut l).st.final = true ∧ r.toNat ≠ 1023 then
            (if r = c then (fut l).st.code else if r = d + 1 then (fut l).value.extractLsb' 32 32
             else if r = d then (fut l).value.truncate 32 else s.g.rv r l)
          else s.g.rv r l) ∧
        (∀ l, act.getLsbD l = true → (fut l).st.final = false → (v.g.lane l).st = .futPark (s.g.s32 a l) d c) ∧
        (∀ l, act.getLsbD l = true → (fut l).st.final = true →
          (v.g.lane l).st = (s.g.lane l).st ∧ ((v.core s.g.core).fut (hEntry (s.g.s32 a l))).st = .free) ∧
        (∀ r, v.g.rk r = s.g.rk r) ∧ (∀ q l, v.g.rp q l = s.g.rp q l) ∧ v.mem = s.mem ∧ v.sp = s.sp)

/-- R152 to R154, R159, R160, R162: a future is allocated PENDING in the lowest free entry with a new generation, and resolved once by
its own context; an adjustment of a counter clamps, and at zero releases the cards held on it and wakes the groups that wait on it. -/
def Obligations.FuturesAndCounters : Prop :=
  (∀ (s : State) (i : Nat) (x y : DWord), s.g.core < s.part.cores → i < 4096 →
     ((s.core s.g.core).fut i).st = .free → (∀ m, m < i → ((s.core s.g.core).fut m).st ≠ .free) →
     (∀ e, ((s.core s.g.core).fut e).gen < 2 ^ 15) → s.g.core < 32 →
     s.refuses s.g.ctx (s.tagOf s.g.task).1 (s.tagOf s.g.task).2 = false →
     (∀ g ∈ s.allGroups, ∀ a ∈ g.lanes, ∀ w r q, a.st ≠ .futPark w r q) →
     ∃ h t, s.allocFut none = (some h, t) ∧
       hCore h = s.g.core ∧ hEntry h = i ∧ hGen h ≠ 0 ∧ hGen h ≠ ((s.core s.g.core).fut i).gen ∧
       (∃ f, t.futOf h = some f ∧ f.st = .pending ∧ f.ctx = s.g.ctx ∧ f.task = s.g.task ∧ f.block = s.g.block ∧ f.gi = s.g.index) ∧
       (∃ f, (t.resolve h (some s.g.ctx) .ready x).futOf h = some f ∧ f.st = .ready ∧ f.value = x) ∧
       (∃ f, ((t.resolve h (some s.g.ctx) .ready x).resolve h (some s.g.ctx) .ready y).futOf h = some f ∧ f.value = x) ∧
       (∀ c, c ≠ s.g.ctx → ∃ f, (t.resolve h (some c) .ready x).futOf h = some f ∧ f.st = .pending) ∧
       (∀ w, hCore w = hCore h → hEntry w = hEntry h → hGen w ≠ hGen h →
         ∃ f, (t.resolve w (some s.g.ctx) .ready x).futOf h = some f ∧ f.st = .pending)) ∧
  (∀ (s : State) (n : Nat) (a : Int), n < 4096 →
     let v : Int := (s.counter n).value - a
     let t := s.adjust n a
     let c := t.counter n
     (v < 0 → c.value = 0 ∧ c.under = true) ∧ ((0xFFFFFF : Int) < v → c.value = 0xFFFFFF ∧ c.under = true) ∧
     (0 ≤ v → v ≤ 0xFFFFFF → (c.value : Int) = v ∧ c.under = (s.counter n).under) ∧
     c.owner = (s.counter n).owner ∧ (∀ m, m ≠ n → t.counter m = s.counter m) ∧ t.mem = s.mem ∧ t.sp = s.sp ∧
     (c.value = 0 →
       (∀ k ∈ t.tasks, k.held = true → k.waitc ≠ n) ∧ (∀ k ∈ s.tasks, k.held = true → k.waitc = n → { k with held := false } ∈ t.tasks) ∧
       (∀ g ∈ t.groups, g.iss.wait ≠ some (.waitd n))) ∧
     (c.value ≠ 0 → t.tasks = s.tasks ∧ t.groups = s.groups ∧ t.g = s.g))

/-! ## System registers -/

/-- R10, R191, R203, R245, R288, R303 to R308, R314, R431 to R434: MOVS writes the value common to its active lanes, or each lane's own,
and MOVSR reads a register; a register that needs privilege raises PERM without it, a quarantined one goes to q registers only; a
register reads back what was written in its read-write fields and zero elsewhere. -/
def Obligations.SystemRegisterResults : Prop :=
  (∀ (s : State) (h : Hdr) (sreg : BitVec 10) (a : Src) (r : VReg) (k : KReg) (q : QReg) (x : DWord) (u : State) (inf : SregInfo),
     let n := sreg.toNat
     let e (m : Nat) := s.entered m
     let act := s.g.active h
     let val (l : Nat) : DWord := if inf.wide then s.g.s64 a l else (s.g.s32 a l).zeroExtend 64
     let read (l : Nat) : DWord := (e 1).readSreg n l
     sregInfo n = some inf →
     (Normal s h [6] anyRole (Src.regs a) →
       let m := len1 a
       (sregLane n = false → (∀ l, act.getLsbD l = true → val l = x) →
         (sregPrivW n = false ∨ s.g.priv = true) → (writeSreg (s.who (lowest act)) n x.toNat).on (e m) = (.ok (), u) →
         u.g.iss.wait = none → u.g.stepping = false → exec (.movs h sreg a) s = .next (u.left m).settle) ∧
       (sregLane n = true → (sregPrivW n = false ∨ s.g.priv = true) →
         exec (.movs h sreg a) s =
           .next (({ e m with g := (e m).g.modLanes act fun l y => y.writeSreg n (val l) }).left m).settle) ∧
       ((∀ l, act.getLsbD l = true → val l = x) → sregPrivW n = true → s.g.priv = false →
         exec (.movs h sreg a) s = .next (((e m).raiseAll m act (.mk0 cPERM)).left m).settle)) ∧
     (Normal s h [6] anyRole [] → sregPrivR n = false ∨ s.g.priv = true →
       (∃ t, exec (.movsr h (.q q) sreg) s = .next t ∧ t.g.rq q = read (lowest act) ∧ (∀ p, p ≠ q → t.g.rq p = s.g.rq p) ∧
         (∀ r l, t.g.rv r l = s.g.rv r l) ∧ (∀ r, t.g.rk r = s.g.rk r) ∧ t.mem = s.mem ∧ t.sp = s.sp) ∧
       (n < 0x080 → ∃ t, exec (.movsr h (.k k) sreg) s = .next t ∧
         if inf.wide then WritesK64 s t 1 k (read (lowest act)) else WritesK s t 1 k ((read (lowest act)).truncate 32))) ∧
     (Normal s h [6] anyRole [r] → sregPrivR n = false ∨ s.g.priv = true → n < 0x080 →
       ∃ t, exec (.movsr h (.v r) sreg) s = .next t ∧
         if inf.wide then WritesV64 s t h 1 r read else WritesV s t h 1 r fun l => (read l).truncate 32) ∧
     (Normal s h [6] anyRole [r] → 0x080 ≤ n → s.g.handler = false →
       exec (.movsr h (.v r) sreg) s = .next (((e 1).raiseAll 1 act (.mk0 cQUAR)).left 1))) ∧
  (∀ (s : State) (w : Who) (x l : Nat),
     (∀ e ∈ ([ (0x011, 0xFF00FFFFFFFFFFC0), (0x012, 0x3), (0x020, 0xFFFF01FFFFFFF000), (0x021, 0xFFFFFFFFFFC3), (0x023, 0xFFFFFFFF),
               (0x024, 0xFFFFFFFFFF80) ] : List (Nat × Nat)),
       ∃ t, (writeSreg w e.1 x).on s = (.ok (), t) ∧ t.readSreg e.1 l = BitVec.ofNat 64 (x &&& e.2) ∧
         (∀ n, (sregInfo n).isSome = true → n ≠ e.1 → t.readSreg n l = s.readSreg n l) ∧ t.mem = s.mem ∧ t.sp = s.sp) ∧
     (∀ i, i < 8 → (s.core s.g.core).ecfg.length = 8 → (s.core s.g.core).ecnt.length = 8 →
       ∃ t, (writeSreg w (0x060 + i) x).on s = (.ok (), t) ∧ t.readSreg (0x060 + i) l = BitVec.ofNat 64 (x &&& 0x800000FF) ∧
         t.readSreg (0x088 + i) l = 0 ∧
         (∀ n, (sregInfo n).isSome = true → n ≠ 0x060 + i → n ≠ 0x088 + i → t.readSreg n l = s.readSreg n l)) ∧
     (∃ t, (writeSreg w 0x010 x).on s = (.ok (), t) ∧
       (∀ i, i < 64 → (t.readSreg 0x010 l).getLsbD i =
         if i = 0 then (x.testBit 0 || s.g.fpctl.getLsbD 3) else if i = 1 ∨ i = 2 then x.testBit i
         else if i = 3 then s.g.fpctl.getLsbD 3 else if i = 4 ∨ i = 5 then (s.g.fpctl.getLsbD i && !x.testBit i) else false)))

/-! ## Power, resets and firmware -/

/-- R10, R29 to R32, R34, R54, R59, R62, R81, R84, R89, R92, R96, R105, R291, R297: what the registers of the device space read right
after reset (the part, step, budget, domain and MSCRUB come from the configuration record of assumption 5; that memory reads zero is
assumption 9, and that nothing resides on the device assumption 10); the supply and reset events; the thermal cap, the budget and the
grants of a window. -/
def Obligations.ResetAndPowerResults : Prop :=
  (let s := State.reset
   (∀ off, (match regAt off with
     | .devstat => s.regRead off = 0x0960010000000000
     | .pwrbud => s.regRead off = 350 * 2 ^ 17 + 350
     | .pwrshr _ => s.regRead off = 0x88888888
     | .pwrlim n => n < 32 → s.regRead off = 0x4008
     | .mscrub => s.regRead off = 0x81880000
     | .sdom => s.regRead off = 0x80010000
     | _ => s.regRead off = 0)) ∧
   s.allGroups = [] ∧ s.tasks = [] ∧ s.blocks = [] ∧ s.graphs = [] ∧ s.outbox = [] ∧ s.err.queue = [] ∧ s.trap.due = [] ∧
   (∀ a, Memory.byte s.mem a = 0 ∧ Memory.byte s.hostmem a = 0 ∧ Memory.byte s.sp a = 0) ∧
   (∀ n, (s.counter n).value = 0 ∧ (s.counter n).owner = none ∧ (s.pool n).bound = false ∧ (s.gq n).bound = false) ∧
   (∀ c, (s.cx c).run = .running ∧ (s.cx c).atb = 0 ∧ (s.cx c).tbase = 0 ∧ (s.cx c).dln = 0 ∧ (s.cx c).detc = 0) ∧
   s.agenda = [.row .boot] ∧ s.pwr.inReset = false ∧ s.fw.ready = false) ∧
  (∀ (s : State) (sensor : Nat) (temp : Int),
     (s.pwr.railFault = false → exec .powerGoodRelease s =
       .next { s with pwr := { s.pwr with rails := List.replicate 5 true, inReset := false }, agenda := s.agenda ++ [.row .boot] }) ∧
     (s.pwr.railFault = true → exec .powerGoodRelease s = .next s) ∧
     exec .railSequenceFault s = .next { s with pwr := { s.pwr with railFault := true, inReset := true } } ∧
     exec .perstDeassert s = .next { s with pwr := { s.pwr with port := true } } ∧
     (∀ i ∈ [Instr.powerGoodLoss, .boardReset], ∃ t, exec i s = .next t ∧
       t.g.lanes = [] ∧ t.g.iss.on = false ∧ t.groups = [] ∧ t.tasks = [] ∧ t.blocks = [] ∧ t.cores = [] ∧ t.ctxs = [] ∧ t.counters = [] ∧
       t.graphs = [] ∧ t.sqs = [] ∧ t.l1 = [] ∧ t.l2 = [] ∧ t.links = [] ∧ t.win = List.replicate 8 0 ∧ t.fw.key = none ∧ t.fw.ready = false ∧
       t.fw.record = s.fw.record ∧ t.fw.curator = s.fw.curator ∧ t.fw.docent = s.fw.docent ∧ t.fw.active = s.fw.active ∧
       t.hostmem = s.hostmem ∧ t.pwr.budget = s.cfg.budget ∧ t.pwr.eff = s.cfg.budget ∧
       if i = .powerGoodLoss then t.pwr.inReset = true ∧ t.agenda = [] ∧ t.pwr.thermal = s.pwr.thermal ∧
         t.pwr.railFault = (s.pwr.railFault && t.pwr.rails.any id) ∧ ∀ k, t.pwr.rails.getD k false = true → s.pwr.rails.getD k false = true
       else t.pwr.thermal = false ∧ t.fw.lsrst = s.fw.lsrst ∧
         t.agenda = if s.pwr.inReset || s.pwr.railFault then [] else [.row .boot]) ∧
     (115 ≤ temp → s.err.queue.length < 64 → ∃ t, exec (.thermalShutdown sensor temp) s = .next t ∧
       t.pwr.thermal = true ∧ t.pwr.alert = true ∧ t.g.lanes = [] ∧ t.groups = [] ∧ t.tasks = [] ∧ t.cores = [] ∧ t.fw = s.fw ∧ t.mem = s.mem ∧
       ∃ r, t.err.queue = s.err.queue ++ [r] ∧ r.cause = 0x20 ∧ r.engine = 14 ∧ r.inst = sensor)) ∧
  (∀ (s : State) (temp : Int),
     (∃ t, exec (.arbiterWindow temp) s = .next t ∧
       t.pwr.temp = temp ∧ (t.pwr.alert = true ↔ 100 ≤ temp) ∧ t.pwr.budget = s.pwr.budget ∧
       (t.pwr.eff.toNat = min s.pwr.budget.toNat
         (if temp ≤ 100 then 350 else if temp ≤ 105 then (350 - 40 * (temp - 100)).toNat else 150)) ∧
       (t.pwr.grant.map (·.2)).sum ≤ ((1000 * t.pwr.eff.toNat : Nat) : Rat) ∧
       (temp < 115 → t.agenda = s.agenda) ∧
       (115 ≤ temp → ∃ k, k < 16 ∧ t.pwr.sensors.getD k 0 = temp ∧ t.agenda = s.agenda ++ [.row (.thermalShutdown k temp)]) ∧
       t.mem = s.mem ∧ t.groups = s.groups ∧ t.g = s.g ∧ t.cores = s.cores) ∧
     (s.busTakes .pwrbud →
       let b := s.busField s.pwr.bud 8 0
       ∃ t, exec .pwrbudWrite s = .next t ∧
         (s.pwr.lock = true → t.pwr.budget = s.pwr.budget ∧ t.pwr.lock = true) ∧
         (s.pwr.lock = false → t.pwr.lock = (s.busField s.pwr.bud 31 31 == 1) ∧
           (s.bus.mask &&& 0x1FF = 0 → t.pwr.budget = s.pwr.budget) ∧
           (s.bus.mask &&& 0x1FF ≠ 0 → t.pwr.budget.toNat = (if b < 150 then 150 else if 350 < b then 350 else b) ∧
             (b < 150 ∨ 350 < b → t.pwr.clamp = true))) ∧
         t.pwr.eff = s.pwr.eff ∧ { t with pwr := s.pwr } = s))

/-- R88, R91, R93: boot ends at the code of the first stage that fails, and at 6 only with a record, a Curator and a Docent image that
verify and are not below their floors; a lockstep mismatch restarts the firmware while compute state stays, but for a failed memory
start, and its record follows those of the images; the events of a replacement of Docent. -/
def Obligations.BootResults : Prop :=
  (∀ s : State, s.pwr.inReset = false → s.pwr.thermal = false →
     let bad (kind : Nat) := ∀ slot, slot < 2 → (s.fw.imageFault kind ((s.fw.slots kind).getD slot [])).isSome = true
     ∃ t, exec .boot s = .next t ∧
       (t.fw.boot = 6 ∨ t.fw.boot = 8 ∨ t.fw.boot = 9 ∨ t.fw.boot = 10 ∨ t.fw.boot = 11) ∧
       (t.fw.boot = 8 ↔ bad 0) ∧
       (t.fw.ready = true ↔ t.fw.boot = 6) ∧ t.fw.docRun = t.fw.ready ∧
       (t.fw.boot ≠ 8 → t.fw.imageFault 0 (t.fw.inUse 0) = none) ∧
       (t.fw.boot ≠ 8 → t.fw.boot ≠ 9 → t.fw.imageFault 1 (t.fw.inUse 1) = none) ∧
       (t.fw.boot = 6 → t.fw.imageFault 2 (t.fw.inUse 2) = none) ∧
       (t.fw.boot = 6 ∨ t.fw.boot = 11 → t.mem = [] ∧ t.side = [] ∧ t.l2 = []) ∧
       t.fw.record = s.fw.record ∧ t.fw.curator = s.fw.curator ∧ t.fw.docent = s.fw.docent ∧ t.fw.active = s.fw.active) ∧
  (∀ s : State,
     let same (t : State) := t.g = s.g ∧ t.groups = s.groups ∧ t.tasks = s.tasks ∧ t.blocks = s.blocks ∧ t.cores = s.cores ∧ t.mem = s.mem ∧
       t.l2 = s.l2 ∧ t.l1 = s.l1 ∧ t.sqs = s.sqs ∧ t.trap = s.trap ∧ t.fw.key = s.fw.key ∧ t.fw.idok = s.fw.idok
     let stop (h : Bool) (t : State) := same t ∧ t.fw.docRun = false ∧ t.fw.docStart = true ∧ t.fw.docQuiesce = false ∧ t.fw.forced = !h ∧
       t.fw.handover = h ∧ t.fw.busy = s.fw.busy
     (∃ t, exec .lockstepMismatch s = .next t ∧ same t ∧ t.fw.lsrst.toNat = min 0xFFFF (s.fw.lsrst.toNat + 1) ∧
       (s.err.queue.length < 58 → ∃ r, t.err.queue.getLast? = some r ∧ r.cause = 0x40 ∧ r.engine = 12) ∧
       (s.fw.boot = 10 → t.fw.boot = 10 ∧ t.fw.ready = false) ∧
       (s.fw.boot ≠ 10 → t.fw.boot = 8 ∨ t.fw.boot = 9 ∨ t.fw.boot = 11 ∨
         t.fw.boot = 6 ∧ t.fw.ready = true ∧ ∀ k, k < 3 → t.fw.imageFault k (t.fw.inUse k) = none)) ∧
     (s.fw.docQuiesce = true →
       (∃ t, exec .docentSafePoint s = .next t ∧ stop true t) ∧ (∃ t, exec .docentQuiesceTimeout s = .next t ∧ stop false t)) ∧
     (s.fw.docStart = true →
       (∃ t, exec .docentReady s = .next t ∧ same t ∧ t.fw.docRun = true ∧ t.fw.ready = true ∧ t.fw.busy = false ∧
         t.fw.status = (if s.fw.forced then 7 else 1) ∧ t.fw.inUse 2 = s.fw.incoming ∧ t.outbox = s.outbox ++ [.msix 1] ∧
         (s.fw.cmd ≠ 4 → t.fw.docent = s.fw.docent ∧ t.fw.active = s.fw.active) ∧
         (s.fw.cmd = 4 → (t.fw.slots 2).getD (1 - s.fw.mark 2) [] = s.fw.incoming ∧ t.fw.mark 2 = 1 - s.fw.mark 2 ∧
           (t.fw.slots 2).getD (s.fw.mark 2) [] = (s.fw.slots 2).getD (s.fw.mark 2) [])) ∧
       (∃ t, exec .docentReadyTimeout s = .next t ∧ same t ∧ t.fw.docRun = true ∧ t.fw.ready = true ∧ t.fw.busy = false ∧ t.fw.status = 5 ∧
         t.fw.inUse 2 = s.fw.inUse 2 ∧ t.fw.docent = s.fw.docent ∧ t.fw.active = s.fw.active ∧ t.outbox = s.outbox ++ [.msix 1])))

/-- R92 to R94: the commands of the firmware mailbox with their buffer in host memory that a route reaches; a write while one runs sets STATUS 2, and a
command that the boot state does not accept STATUS 6. -/
def Obligations.MailboxResults : Prop :=
  ∀ s : State, s.busTakes .fwmbx → s.again = false →
    let f := s.fw
    let buf := s.busField f.mbx 47 12 * 4096
    let cmds : List (Nat × Instr) := [(1, .attest), (2, .readIdentityCertificate), (3, .replaceDocent), (4, .replaceDocentAndWriteFlash),
      (5, .installRecoveryBundle)]
    let rest (t : State) := t.mem = s.mem ∧ t.groups = s.groups ∧ t.g = s.g ∧ t.tasks = s.tasks ∧ t.cores = s.cores ∧ t.l2 = s.l2
    let ended (t : State) (st : Nat) := t.fw.busy = false ∧ t.fw.status.toNat = st ∧ t.outbox = s.outbox ++ [.msix 1] ∧ rest t
    let flash (t : State) := t.fw.record = f.record ∧ t.fw.curator = f.curator ∧ t.fw.docent = f.docent ∧ t.fw.active = f.active
    (f.busy = true → ∀ e ∈ (0, Instr.fwmbxInvalidCommand) :: cmds, exec e.2 s = .next { s with fw := { f with status := 2 } }) ∧
    (f.busy = false → (s.busField f.mbx 0 0 = 1 ∨ f.boot = 8 ∨ f.boot = 9) →
      (∃ t, exec .fwmbxInvalidCommand s = .next t ∧ ended t 6 ∧ flash t) ∧
      (∀ e ∈ cmds,
        (match f.boot.toNat with
         | 8 | 9 => e.1 = 5 ∧ s.busField f.mbx 0 0 = 1
         | 10 => e.1 = 1 ∨ e.1 = 2
         | 6 | 11 => e.1 ≠ 5
         | _ => False) →
        match e.1 with
        | 1 =>
          (f.idok = false → ∃ t, exec .attest s = .next t ∧ ended t 8 ∧ t.hostmem = s.hostmem ∧ flash t) ∧
          (f.idok = true → (∀ k, k < 3 → f.inUse k ≠ []) →
            let ds := sha384 (f.inUse 0) ++ sha384 (f.inUse 1) ++ sha384 (f.inUse 2)
            let out := ds ++ sliceBytes (Config.signature (f.key.getD []) (Memory.read s.hostmem buf 48 ++ ds)) 0 96
            s.hostHole buf 48 = false → s.hostHole (buf + 64) out.length = false →
            ∃ t, exec .attest s = .next t ∧ ended t 1 ∧ flash t ∧ t.hostmem = Memory.write s.hostmem (buf + 64) out)
        | 2 => s.hostHole buf (Config.certificate f.helper).length = false → ∃ t, exec .readIdentityCertificate s = .next t ∧ ended t 1 ∧ flash t ∧
            t.hostmem = Memory.write s.hostmem buf (Config.certificate f.helper)
        | 3 | 4 =>
          let len := Config.imageLength (Memory.read s.hostmem buf 4096)
          let img := Memory.read s.hostmem buf len
          s.hostHole buf 4096 = false → s.hostHole buf len = false →
          (∀ st, f.imageFault 2 img = some st → ∃ t, exec e.2 s = .next t ∧ ended t st ∧ t.fw.running = f.running ∧ t.fw.boot = f.boot ∧ flash t) ∧
          (f.imageFault 2 img = none → f.boot = 6 → ∃ t, exec e.2 s = .next t ∧ t.fw.busy = true ∧ t.fw.docQuiesce = true ∧ t.fw.docRun = f.docRun ∧
            t.fw.incoming = img ∧ t.outbox = s.outbox ∧ rest t ∧ flash t) ∧
          (f.imageFault 2 img = none → f.boot = 11 → ∃ t, exec e.2 s = .next t ∧ ended t 1 ∧ t.fw.boot = 6 ∧ t.fw.ready = true ∧
            t.fw.inUse 2 = img ∧ (e.1 = 4 → (t.fw.slots 2).getD (1 - f.mark 2) [] = img))
        | _ =>
          let f' := { f with mbaddr := BitVec.ofNat 36 (s.busField f.mbx 47 12) }
          s.hostHole buf (f'.bundleBytes s.hostmem) = false →
          (∀ st, f'.bundle s.hostmem = .error st → ∃ t, exec .installRecoveryBundle s = .next t ∧ ended t st ∧ flash t ∧ t.agenda = s.agenda) ∧
          (∀ kind img, f'.bundle s.hostmem = .ok (kind, img) → ∃ t, exec .installRecoveryBundle s = .next t ∧ ended t 1 ∧
            (t.fw.slots (kind - 1)).getD (1 - f.mark (kind - 1)) [] = img ∧ t.fw.mark (kind - 1) = 1 - f.mark (kind - 1) ∧
            t.agenda = s.agenda ++ [.row .boot]))) ∧
    (f.busy = false → ∀ e ∈ cmds, (f.boot.toNat < 6 ∨ f.boot.toNat = 7 ∨ 11 < f.boot.toNat ∨
        (f.boot.toNat = 10 ∧ 2 < e.1) ∨ ((f.boot.toNat = 8 ∨ f.boot.toNat = 9) ∧ e.1 ≠ 5) ∨ ((f.boot.toNat = 6 ∨ f.boot.toNat = 11) ∧ e.1 = 5)) →
      ∃ t, exec e.2 s = .next t ∧ ended t 6 ∧ flash t ∧ t.hostmem = s.hostmem)

/-! ## Device registers and rings -/

/-- R10, R83: a register write that its register admits stores its read-write fields and changes no other register, and clears the bits of
a write-one-to-clear count where it has ones; one that is no aligned access of 4 or 8 bytes changes nothing and completes with
Unsupported Request for the host, one that names an unassigned offset changes nothing, and one from an agent that the register does not name as a
writer only sets DENY. -/
def Obligations.RegisterWriteResults : Prop :=
  (∀ (s : State) (r : Reg) (rw : Nat), s.busTakes r →
     (match r with
      | .sroute => rw = 0xBBBBBBBB
      | .smigc => rw = 0x3000000
      | .smigs | .smigd => rw = 0x1FFFFFFF000
      | .svcpc | .svctgt => rw = 0xFFFFFFFFFFF8
      | .pwrshr n => n < s.pwr.shares.length ∧ rw = 0xFFFFFFFF
      | .ctxst => rw = 0xFFFF0000
      | .ctxcmd => s.creg.busy = false ∧ rw = 0x1FFFFFFFFFFFFFFF
      | .fwmbx => s.fw.busy = false ∧ rw = 0xFFFFFFFFF001
      | .mrep c => (s.chan c).busy = false ∧ rw = 0x107C3FFFFFF
      | .mscrub => rw = 0x80000000
      | .win n => n < s.win.length ∧ rw = 0xFC000000000C0000
      | .sqbase n | .cqbase n => (s.sq n).en = false ∧ rw = 0x8000FFFFFFFFF000
      | _ => False) →
     ∃ t, exec .registerWrite s = .next t ∧
       (∀ i, rw.testBit i = true → (t.regRead s.bus.off).testBit i =
         if s.bus.mask.testBit i then s.bus.value.testBit i else (s.regRead s.bus.off).testBit i) ∧
       (∀ o, regAt o ≠ r → t.regRead o = s.regRead o) ∧ t.pwr.shares.length = s.pwr.shares.length ∧ t.win.length = s.win.length ∧
       t.mem = s.mem ∧ t.groups = s.groups ∧ t.g = s.g ∧ t.cores = s.cores ∧ t.tasks = s.tasks ∧ t.l2 = s.l2) ∧
  (∀ s : State,
     let rows : List Instr := [.registerWrite, .pwrbudWrite, .softRowRepair, .hardRowRepair, .laneRemap, .clearPoison, .retrain, .mrepInvalidCommand,
       .sdomLeave, .sdomJoin, .migrationStart, .migrationRelease, .sqcfgWrite, .sqDoorbell, .cqctlWrite, .errctlWrite, .errbaseWrite, .trctlWrite,
       .trbaseWrite, .attest, .readIdentityCertificate, .replaceDocent, .replaceDocentAndWriteFlash, .installRecoveryBundle, .fwmbxInvalidCommand,
       .ctxPreemptSave, .ctxRestore, .ctxEnd, .ctxRelease, .ctxcmdInvalid, .svcrelResume, .svcrelKill]
     s.again = false →
     (s.bus.ok = false → ∀ i ∈ rows, exec i s =
       .next { s with outbox := s.outbox ++ if s.bus.who = .host then [.unsupported] else [] }) ∧
     (s.bus.ok = true → s.assigned (regAt s.bus.off) = false → ∀ i ∈ rows, exec i s = .next s) ∧
     (s.bus.ok = true → s.assigned (regAt s.bus.off) = true → (regAt s.bus.off).writers s.bus.who = false → s.bus.row ∈ rows →
       exec s.bus.row s = .next { s with fw := { s.fw with deny := true } })) ∧
  (∀ (s : State) (c i : Nat),
     let ones : Bool := s.bus.mask.testBit i && s.bus.value.testBit i
     (s.busTakes (.mlane c) → ∃ t, exec .registerWrite s = .next t ∧
       ((t.chan c).ce.getLsbD i = ((s.chan c).ce.getLsbD i && !ones)) ∧ { t with chans := s.chans } = s) ∧
     (s.busTakes (.slnk c) → ∃ t, exec .registerWrite s = .next t ∧
       ((t.link c).replay.getLsbD i = ((s.link c).replay.getLsbD i && !ones)) ∧ { t with links := s.links } = s))

/-- R96, R97, R105 to R107, R291: the registers of the submission, completion, error and trap rings. -/
def Obligations.RingRegisterResults : Prop :=
  ∀ (s : State) (n : Nat),
    let q := s.sq n
    let e := s.err
    let r := s.trap
    let ctx : Word := BitVec.ofNat 32 (s.busField q.cfg 31 0)
    ((s.busTakes (.sqbase n) ∨ s.busTakes (.cqbase n)) → q.en = true → exec .registerWrite s = .next s) ∧
    (s.busTakes (.sqbase n) → q.en = false → ∃ t, exec .registerWrite s = .next t ∧ { t.sq n with sqbase := q.sqbase } = q ∧
      (t.sq n).sqbase = BitVec.ofNat 64 (s.busField q.sqbase.toNat 63 63 * 2 ^ 63 + min 12 (s.busField q.sqbase.toNat 55 52) * 2 ^ 52 +
        s.busField q.sqbase.toNat 47 12 * 2 ^ 12)) ∧
    (s.busTakes (.cqbase n) → q.en = false → ∃ t, exec .registerWrite s = .next t ∧ { t.sq n with cqbase := q.cqbase } = q ∧
      (t.sq n).cqbase = BitVec.ofNat 64 (s.busField q.cqbase.toNat 63 63 * 2 ^ 63 + min 12 (s.busField q.cqbase.toNat 55 52) * 2 ^ 52 +
        s.busField q.cqbase.toNat 47 12 * 2 ^ 12)) ∧
    (s.busTakes (.sqcfg n) →
      (q.en = true → exec .sqcfgWrite s = .next (s.setSq n { q with en := s.busField q.cfg 63 63 == 1 })) ∧
      (q.en = false → s.busField q.cfg 63 63 = 0 →
        exec .sqcfgWrite s = .next (s.setSq n { q with asn := BitVec.ofNat 16 (s.busField q.cfg 47 32), ctx := ctx })) ∧
      (q.en = false → s.busField q.cfg 63 63 = 1 → (∃ m, m < 16 ∧ m ≠ n ∧ (s.sq m).en = true ∧ (s.sq m).ctx = ctx) →
        exec .sqcfgWrite s = .next (s.setSq n { q with asn := BitVec.ofNat 16 (s.busField q.cfg 47 32), ctx := ctx, err := 1 })) ∧
      (q.en = false → s.busField q.cfg 63 63 = 1 → (∀ m, m < 16 → m ≠ n → (s.sq m).en = true → (s.sq m).ctx ≠ ctx) →
        ∃ t, exec .sqcfgWrite s = .next t ∧ t.sq n = { q with
          en := true, err := 0, faulted := false, head := 0, tail := 0, widx := 0, ridx := 0, phase := true, ctx := ctx
          asn := BitVec.ofNat 16 (s.busField q.cfg 47 32) } ∧ ∀ m, m ≠ n → t.sq m = s.sq m)) ∧
    (s.busTakes (.sqdb n) → s.bus.covers 15 0 = true →
      exec .sqDoorbell s = .next (s.setSq n { q with tail := bits s.bus.value 15 0 % 2 ^ (bits q.sqbase.toNat 55 52 + 4) })) ∧
    (s.busTakes (.cqctl n) → ∃ t, exec .cqctlWrite s = .next t ∧
      t.sq n = { q with ie := s.busField q.cqctl 62 62 == 1, ridx := s.busField q.cqctl 15 0 } ∧ ∀ m, m ≠ n → t.sq m = s.sq m) ∧
    (s.busTakes .errctl → ∃ t, exec .errctlWrite s = .next t ∧
      let size := min 10 (s.busField e.ctl 55 52)
      t.err.ie = (s.busField e.ctl 62 62 == 1) ∧ t.err.ovf = (e.ovf && !s.bus.clears 61) ∧ t.err.queue = e.queue ∧ t.err.lost = e.lost ∧
      (s.bus.who = .host → t.err.en = e.en ∧ t.err.size = e.size ∧ t.err.widx = e.widx ∧ t.err.ridx = s.busField e.ctl 15 0) ∧
      (s.bus.who ≠ .host → t.err.en = (s.busField e.ctl 63 63 == 1) ∧ t.err.size = size ∧
        if size = e.size then t.err.widx = e.widx ∧ t.err.ridx = s.busField e.ctl 15 0
        else t.err.widx = 0 ∧ t.err.ridx = 0 ∧ t.err.phase = true)) ∧
    (s.busTakes .errbase → ∃ t, exec .errbaseWrite s = .next t ∧ t.err.host = (s.busField e.baseReg 63 63 == 1) ∧
      t.err.base = BitVec.ofNat 64 (s.busField e.baseReg 47 12 * 4096) ∧ t.err.widx = 0 ∧ t.err.ridx = 0 ∧ t.err.phase = true ∧
      t.err.queue = e.queue ∧ t.err.en = e.en) ∧
    (s.busTakes .trctl → r.pend = [] → ∃ t, exec .trctlWrite s = .next t ∧
      let size := min 10 (s.busField r.ctl 55 52)
      t.trap.ie = (s.busField r.ctl 62 62 == 1) ∧ t.trap.ovf = (r.ovf && !s.bus.clears 61) ∧ t.trap.due = r.due ∧
      (s.bus.who = .host → t.trap.en = r.en ∧ t.trap.size = r.size ∧ t.trap.widx = r.widx ∧ t.trap.ridx = s.busField r.ctl 15 0) ∧
      (s.bus.who ≠ .host → t.trap.en = (s.busField r.ctl 63 63 == 1) ∧ t.trap.size = size)) ∧
    (s.busTakes .trbase → ∃ t, exec .trbaseWrite s = .next t ∧ t.trap.host = (s.busField r.baseReg 63 63 == 1) ∧
      t.trap.base = BitVec.ofNat 64 (s.busField r.baseReg 47 12 * 4096) ∧ t.trap.widx = 0 ∧ t.trap.ridx = 0 ∧ t.trap.phase = true ∧
      t.trap.pend = r.pend ∧ t.trap.en = r.en)

/-- R95 to R97, R107, R108, R113, R291, R293: the entries that the device reads from and writes to rings in host memory, and what a
submission ring does at an address that no memory answers. -/
def Obligations.RingEntryResults : Prop :=
  ∀ (s : State) (n : Nat) (x : TrapSrc × TrapEntry) (rest : List (TrapSrc × TrapEntry)) (r : ErrRec) (more : List ErrRec),
    let q := s.sq n
    let next (t : State) := t.groups = s.groups ∧ t.g = s.g ∧ t.mem = s.mem ∧ t.blocks = s.blocks
    let others (t : State) := ∀ m, m ≠ n → t.sq m = s.sq m
    (q.en = true → q.head ≠ q.tail →
      let ws := words64 (Memory.read s.hostmem (baseAddr q.sqbase + 64 * q.head) 64) 8
      let taken := { q with head := (q.head + 1) % 2 ^ (bits q.sqbase.toNat 55 52 + 4) }
      let at_ := baseAddr q.sqbase + 64 * q.head
      let routed : Prop := baseHost q.sqbase = true ∧ s.hostHole at_ 64 = false
      (routed → bits (ws.getD 3 0).toNat 63 60 ≠ 2 →
        let card := fillCard ws q.asn.toNat q.ctx
        let t0 := Task.card s.nextId card (.ring n) (segOf s.part.slices (bits (card.getD 1 0).toNat 63 48)) false
        t0.wv = false → t0.dv = false → s.segCount t0.seg < 1024 →
        ∃ t, exec (.ringEntryFetch n) s = .next t ∧ next t ∧ others t ∧ t.tasks = s.tasks ++ [t0] ∧ t.sq n = taken ∧ t.nextId = s.nextId + 1) ∧
      (routed → bits (ws.getD 3 0).toNat 63 60 = 2 → startOk ws = true → s.graphs.length < 64 →
        ∃ t, exec (.ringEntryFetch n) s = .next t ∧ next t ∧ others t ∧ t.graphs = s.graphs ++ [s.startGraph n ws] ∧ t.sq n = taken ∧
          t.tasks = s.tasks) ∧
      ((if baseHost q.sqbase then s.hostHole at_ 64 else s.refused (ringWho n) at_) = true →
        ∃ t, exec (.ringEntryFetch n) s = .next t ∧ next t ∧ others t ∧ t.sq n = { q with en := false, err := 2 } ∧ t.tasks = s.tasks ∧
          (s.err.queue.length < 64 → ∃ e, t.err.queue = s.err.queue ++ [e] ∧ e.cause = 5 ∧ e.engine = 9 ∧ e.inst = n))) ∧
    (q.recordDue = true → baseHost q.cqbase = true →
      let bs := recordBytes (q.held.headD []) s.rtc q.phase
      let a := baseAddr q.cqbase + 128 * q.widx
      let w := (q.widx + 1) % 2 ^ (bits q.cqbase.toNat 55 52 + 4)
      (s.hostHole a 128 = false → exec (.completionRecordWrite n) s = .next { s with
        hostmem := Memory.write (Memory.write s.hostmem (a + 8) (sliceBytes bs 8 120)) a (sliceBytes bs 0 8)
        sqs := Store.put SQ.reset s.sqs n { q with held := q.held.tail, widx := w, phase := q.phase ^^ (w == 0) }
        outbox := if q.ie then s.outbox ++ [.msix (2 + n)] else s.outbox }) ∧
      (s.hostHole (a + 8) 120 = true → ∃ t, exec (.completionRecordWrite n) s = .next t ∧ next t ∧ others t ∧ t.hostmem = s.hostmem ∧
        t.sq n = { q with en := false, err := 3, faulted := true } ∧ (t.sq n).recordDue = false ∧
        (s.err.queue.length < 64 → ∃ e, t.err.queue = s.err.queue ++ [e] ∧ e.cause = 5 ∧ e.engine = 9 ∧ e.inst = n))) ∧
    (s.err.queue = r :: more → s.err.en = true → s.err.full = false → s.err.host = true →
      let e := s.err
      let bs := sealed (r.words e.seq s.own) e.phase
      let a := e.base.toNat + 64 * e.widx
      let w := (e.widx + 1) % 2 ^ (e.size + 6)
      (s.hostHole a 64 = false → exec .errorRecordWrite s = .next { s with
        hostmem := Memory.write (Memory.write s.hostmem (a + 8) (sliceBytes bs 8 56)) a (sliceBytes bs 0 8)
        err := { e with queue := more, widx := w, phase := e.phase ^^ (w == 0), seq := (e.seq + 1) % 2 ^ 32 }
        outbox := if e.ie then s.outbox ++ [.msix 0] else s.outbox }) ∧
      (s.hostHole (a + 8) 56 = true → exec .errorRecordWrite s = .next { s with err := { e with en := false, ovf := true } })) ∧
    ((s.err.en = false ∨ s.err.full = true ∨ s.err.queue = []) → exec .errorRecordWrite s = .next s) ∧
    (s.trap.due = x :: rest → s.trap.pending x.1 = false →
      let e := s.trap
      (e.en = true → e.full = false → e.host = true →
        let bs := sealed (x.2.words e.seq) e.phase
        let a := e.base.toNat + 64 * e.widx
        let w := (e.widx + 1) % 2 ^ (e.size + 6)
        (s.hostHole (a + 8) 56 = true → ∃ t, exec .trapRingWrite s = .next t ∧ next t ∧ t.hostmem = s.hostmem ∧
          t.trap = { e with due := rest, en := false, ovf := true, pend := e.pend ++ [x] } ∧
          (s.err.queue.length < 64 → ∃ r, t.err.queue = s.err.queue ++ [r] ∧ r.cause = 5 ∧ r.engine = 9 ∧ r.inst = 16)) ∧
        (s.hostHole a 64 = false → ∃ t, exec .trapRingWrite s = .next t ∧ next t ∧
          t.hostmem = Memory.write (Memory.write s.hostmem (a + 8) (sliceBytes bs 8 56)) a (sliceBytes bs 0 8) ∧
          t.trap = { e with due := rest, widx := w, phase := e.phase ^^ (w == 0), seq := (e.seq + 1) % 2 ^ 32 } ∧
          t.outbox = if e.ie then s.outbox ++ [.msix 18] else s.outbox)) ∧
      (e.en = false ∨ e.full = true → ∃ t, exec .trapRingWrite s = .next t ∧ next t ∧ t.hostmem = s.hostmem ∧
        t.trap = { e with due := rest, ovf := true, pend := e.pend ++ [x] }))

/-! ## Memory controllers, host and links -/

/-- R39, R42 to R45, R49, R51 to R54, R98: the commands of a memory channel; what a controller's read of a sector comes to, a write of a
sector whole or in part, a scrub read and a retraining; the grain size of an access that names none is a free choice (assumption 17). -/
def Obligations.RepairAndSectorResults : Prop :=
  (∀ (s : State) (ch : Nat),
     let m := s.chan ch
     let cmds : List (Nat × Instr) := [(1, .softRowRepair), (2, .hardRowRepair), (3, .laneRemap), (4, .clearPoison), (5, .retrain)]
     let rest (t : State) := (∀ c, c ≠ ch → t.chan c = s.chan c) ∧ t.groups = s.groups ∧ t.g = s.g ∧ t.tasks = s.tasks
     let record (t : State) (status cmd : Nat) := s.err.queue.length < 63 →
       ∃ r ∈ t.err.queue, r.cause = 6 ∧ r.sub = status + 16 * cmd ∧ r.engine = 0 ∧ r.inst = ch
     (s.busTakes (.mrep ch) →
       (m.busy = true → ∀ e ∈ cmds, exec e.2 s = .next s) ∧
       (m.busy = false → s.busField m.rep 34 30 ≤ 11 → ∀ e ∈ cmds, (e.1 = 2 → s.contextsRun = false) →
         ∃ t, exec e.2 s = .next t ∧ rest t ∧ t.mem = s.mem ∧ t.chan ch = { m with
           busy := true, status := 0, cmd := BitVec.ofNat 4 e.1, sub := s.busField m.rep 40 40 == 1
           lane := BitVec.ofNat 5 (s.busField m.rep 34 30), line := BitVec.ofNat 26 (s.busField m.rep 25 0) }) ∧
       (m.busy = false → s.busField m.rep 34 30 ≤ 11 → s.contextsRun = true →
         ∃ t, exec .hardRowRepair s = .next t ∧ rest t ∧ (t.chan ch).busy = false ∧ (t.chan ch).status = 3 ∧ (t.chan ch).hard = m.hard ∧
           t.mem = s.mem ∧ record t 3 2) ∧
       (m.busy = false → ∃ t, exec .mrepInvalidCommand s = .next t ∧ rest t ∧ t.mem = s.mem ∧
         t.chan ch = { m with busy := false, status := 6, cmd := 0 })) ∧
     (m.busy = true →
       let ended (t : State) (st : Nat) := (t.chan ch).busy = false ∧ (t.chan ch).status.toNat = st ∧ t.groups = s.groups ∧ t.g = s.g ∧
         t.tasks = s.tasks
       let done (t : State) (st : Nat) := (t.chan ch).busy = false ∧ (t.chan ch).status.toNat = st ∧ rest t ∧ record t st m.cmd.toNat
       (m.cmd = 3 → (if m.sub then m.brem else m.arem) = true → ∃ t, exec (.mrepCommandComplete ch) s = .next t ∧ done t 2 ∧
         (t.chan ch).alane = m.alane ∧ (t.chan ch).blane = m.blane) ∧
       (m.cmd = 3 → (if m.sub then m.brem else m.arem) = false → ∃ t, exec (.mrepCommandComplete ch) s = .next t ∧ done t 1 ∧
         if m.sub then (t.chan ch).brem = true ∧ (t.chan ch).blane = m.lane ∧ (t.chan ch).arem = m.arem ∧ (t.chan ch).alane = m.alane
         else (t.chan ch).arem = true ∧ (t.chan ch).alane = m.lane ∧ (t.chan ch).brem = m.brem ∧ (t.chan ch).blane = m.blane) ∧
       (m.cmd = 4 → s.lineBusy ch = false → ∃ t, exec (.mrepCommandComplete ch) s = .next t ∧ done t 1 ∧
         let a := s.lineAddr ch m.line.toNat
         ∀ i, i < 4 → s.sectorHere (a / 32 + i) = true → Store.look t.l2 (s.dpaOf (a / 32 + i) / 32) = none ∧
           ∀ j, j < 32 → Memory.byte t.mem (32 * (a / 32 + i) + j) = 0) ∧
       (m.cmd = 1 → ∃ t, exec (.mrepCommandComplete ch) s = .next t ∧
         (done t 2 ∧ (t.chan ch).soft = m.soft ∨
           (ended t 1 ∨ ended t 4) ∧ (t.chan ch).soft = (2 * (m.line.toNat / 32) + m.sub.toNat) :: m.soft)) ∧
       (m.cmd = 2 → ∃ t, exec (.mrepCommandComplete ch) s = .next t ∧
         (done t 2 ∧ (t.chan ch).hard = m.hard ∨
           (ended t 1 ∨ ended t 4) ∧ (t.chan ch).hard = (2 * (m.line.toNat / 32) + m.sub.toNat) :: m.hard)) ∧
       (m.cmd = 5 → ∃ t st, exec (.mrepCommandComplete ch) s = .next t ∧ (st = 1 ∨ st = 2 ∧ (m.arem = true ∨ m.brem = true)) ∧
         (t.chan ch).busy = false ∧ (t.chan ch).status.toNat = st ∧ rest t ∧
         (s.err.queue.length < 62 → ∃ r ∈ t.err.queue, r.cause = 6 ∧ r.sub = st + 16 * 5 ∧ r.engine = 0 ∧ r.inst = ch) ∧
         (t.chan ch).laneCe = []))) ∧
  (∀ (s : State) (sec : Nat) (ctx : Option Word) (mask : Word) (data : List Byte) (ch : Nat) (bad : Option (Bool × Nat)),
     let w := s.sector sec
     let rest (t : State) := t.groups = s.groups ∧ t.g = s.g ∧ t.tasks = s.tasks ∧ t.sp = s.sp
     (s.sectorHere sec = true →
       (∀ d c, readOutcome sec w = .ok (d, c, none) → badCoh c = false → exec (.sectorRead sec ctx) s = .next s.draw) ∧
       (∀ d c, readOutcome sec w = .ok (d, c, none) → badCoh c = true → sec % 16 = 0 → ∃ t, exec (.sectorRead sec ctx) s = .next t ∧ rest t ∧
         t.mem = s.mem ∧ t.side = s.side ∧ t.l2 = s.l2 ∧ (s.err.queue.length < 64 → ∃ r, t.err.queue = s.err.queue ++ [r] ∧ r.cause = 4 ∧
           r.engine = 0 ∧ r.inst = s.chanOf (32 * sec) ∧ r.ctx = ctx ∧ r.dpa = some (s.dpaOf sec))) ∧
       (∀ d c p, readOutcome sec w = .ok (d, c, some p) → ∃ t, exec (.sectorRead sec ctx) s = .next t ∧ rest t ∧
         t.mem = (s.writeSector sec d c).mem ∧ t.side = (s.writeSector sec d c).side ∧
         (t.chan (s.chanOf (32 * sec))).ce = (let n := (s.chan (s.chanOf (32 * sec))).ce; if n = 0xFFFF then n else n + 1)) ∧
       (∀ e, readOutcome sec w = .error e → ∃ n ∈ [32, 128, 512], ∃ t, exec (.sectorRead sec ctx) s = .next t ∧ rest t ∧
         t.mem = (s.poison sec n).mem ∧ t.side = (s.poison sec n).side ∧ t.l2 = (s.poison sec n).l2 ∧
         (s.err.queue.length < 64 → ∃ r, t.err.queue = s.err.queue ++ [r] ∧ r.cause = e ∧ r.engine = 0 ∧ r.inst = s.chanOf (32 * sec) ∧
           r.sub = subOf (32 * sec) ∧ r.repair = 4 ∧ r.ctx = ctx ∧ r.dpa = some (s.dpaOf sec))) ∧
       (∃ n ∈ [32, 128, 512], ∃ t, exec (.sectorWrite sec mask data ctx) s = .next t ∧ rest t ∧
         let g := s.dpaOf (holder sec n) / 32
         let r := if mask = 0xFFFFFFFF then s.draw.gstateFull g n ctx else s.draw.gstate g n ctx
         let c := cohFor sec n (r.2.storedCoh sec)
         (r.1.st = stPOISON → t.mem = r.2.mem ∧ t.side = r.2.side ∧ t.l2 = r.2.l2 ∧
           (r.2.err.queue.length < 64 → ∃ x, t.err.queue = r.2.err.queue ++ [x] ∧ x.cause = 2 ∧ x.repair = 0 ∧ x.ctx = ctx ∧
             x.dpa = some (s.dpaOf sec))) ∧
         (r.1.st ≠ stPOISON → mask = 0xFFFFFFFF → t.mem = (r.2.writeSector sec data c).mem ∧ t.side = (r.2.writeSector sec data c).side) ∧
         (r.1.st ≠ stPOISON → mask ≠ 0xFFFFFFFF → ∀ d b, readOutcome sec (r.2.sector sec) = .ok (d, b, none) →
           t.mem = (r.2.writeSector sec (mergeBytes mask.toNat d data) (cohFor sec n b)).mem ∧
           t.side = (r.2.writeSector sec (mergeBytes mask.toNat d data) (cohFor sec n b)).side))) ∧
     (ch < s.part.channels →
       let m := s.chan ch
       let next := s.lineAddr ch (m.scrub % s.chanSectors / 4) / 32 + m.scrub % s.chanSectors % 4
       (s.mscrub.getLsbD 31 = false → exec (.scrubSector ch) s = .next s) ∧
       (s.mscrub.getLsbD 31 = true → ∃ t, exec (.scrubSector ch) s = .next t ∧ rest t ∧ (t.chan ch).scrub = m.scrub + 1 ∧
         ∀ d c, readOutcome next (s.sector next) = .ok (d, c, none) → badCoh c = false → t.mem = s.mem ∧ t.side = s.side ∧ t.l2 = s.l2 ∧ t.err = s.err) ∧
       ∃ t, exec (.memoryRetrain ch bad) s = .next t ∧ rest t ∧ t.mem = s.mem ∧ (t.chan ch).laneCe = [] ∧ (∀ c, c ≠ ch → t.chan c = s.chan c) ∧
         match bad with
         | none => t.chan ch = { m with laneCe := [] }
         | some (b, lane) =>
           if lane < 12 ∧ (if b then m.brem else m.arem) = false then
             t.chan ch = (if b then { m with laneCe := [], brem := true, blane := BitVec.ofNat 5 lane }
               else { m with laneCe := [], arem := true, alane := BitVec.ofNat 5 lane })
           else t.chan ch = { m with laneCe := [] }))

/-- R55 to R58, R61, R76, R85, R86: host accesses through windows; training, lane failure, flits received and flits sent again; a link
that is not up sends nothing, and one that is spends the credits of a message's channel and keeps its flits in the buffer of 64. -/
def Obligations.HostAndLinkResults : Prop :=
  (∀ (s : State) (o n w : Nat) (data : List Byte) (e : L2Sec),
     s.hostq = [] → s.again = false → 0 < n → data.length = n →
     ((∀ x ∈ s.windows, o + n ≤ winStart x ∨ winEnd x ≤ o) →
       exec (.hostWindowRead o n) s = .next { s with outbox := s.outbox ++ [.unsupported] } ∧ exec (.hostWindowWrite o data) s = .next s) ∧
     (let a := winTarget w o
      let k := a / 32
      let gr := grainBytes (bits w 19 18)
      let g := holder k gr
      s.winAt o = some w → (∀ x ∈ s.windows, x ≠ w → o + n ≤ winStart x ∨ winEnd x ≤ o) → o + n ≤ winEnd w → a % 32 + n ≤ 32 →
      s.outOfRange a = false → homeDev k = s.own → homeDev g = s.own → s.redirected k = none → s.txOpen g = false → s.coh.served = [] →
      (∃ d b, s.cleanAt g d b ∧ b.getLsbD 6 = false ∧ (b.toNat % 8 = 0 ∨ b.toNat % 8 = 1 ∧ s.isPresent (bits b.toNat 5 3) = true)) →
      Store.look s.l2 k = some e → e.data.length = 32 →
       (∃ t, exec (.hostWindowRead o n) s = .next t ∧
         { t with counted := s.counted } = { s with outbox := s.outbox ++ [.readCompletion (sliceBytes e.data (a % 32) n) false] }) ∧
       ((∃ d b, s.cleanAt g d b ∧ b.toNat % 8 = 0) → ∃ t, exec (.hostWindowWrite o data) s = .next t ∧ t.hostq = [] ∧
         (∃ e', Store.look t.l2 k = some e' ∧ e'.data = patchBytes e.data (a % 32) data ∧ e'.dirty = true ∧ e'.coh = cohFor k gr e.coh) ∧
         (∀ i, i ≠ k → Store.look t.l2 i = Store.look s.l2 i) ∧ t.mem = s.mem ∧ t.outbox = s.outbox ∧ t.groups = s.groups ∧ t.g = s.g))) ∧
  (∀ (s : State) (n : Nat) (width : BitVec 2) (rate : Bool) (peer : BitVec 3) (plink : BitVec 2) (flit : List Byte) (q : BitVec 12) (i : Nat),
     n < 4 →
     let l := s.link n
     let h := fieldAt flit 0 4
     let typ := bits h 7 4
     let others (t : State) := (∀ m, m ≠ n → t.link m = s.link m) ∧ t.mem = s.mem ∧ t.groups = s.groups ∧ t.g = s.g ∧ t.tasks = s.tasks
     (width ≠ 0 → exec (.linkTrained n width rate peer plink) s =
       .next (s.setLink n { l with up := true, width := width, rate := rate, peer := peer, plink := plink })) ∧
     (s.behind n = [] → (width = 0 ∨ l.up = true ∧ l.width.toNat ≤ 1) →
       ∃ t, exec (if width = 0 then .linkTrained n width rate peer plink else .linkLaneFailure n) s = .next t ∧ others t ∧
         (t.link n).up = false ∧ (t.link n).width = 0 ∧
         (s.err.queue.length < 64 → ∃ r, t.err.queue = s.err.queue ++ [r] ∧ r.cause = 0x10 ∧ r.engine = 10 ∧ r.inst = n)) ∧
     (l.up = true → 2 ≤ l.width.toNat → (l.times.filter fun t => decide (s.rtc.toNat < t + 1000000)).length < 2 →
       ∃ t, exec (.linkLaneFailure n) s = .next t ∧ others t ∧ (t.link n).up = false ∧ (t.link n).width = l.width - 1 ∧
         (t.link n).retrain = (if l.retrain = 0xFF then l.retrain else l.retrain + 1) ∧ (t.link n).bad = 0) ∧
     (l.up = true →
       let good := (crc32c (sliceBytes flit 0 252)).toNat = fieldAt flit 252 4
       (good → typ ≤ 1 → bits h 31 20 = l.expect → ∃ t, exec (.flitReceive n flit) s = .next t ∧
         (t.link n).expect = (l.expect + 1) % 4096 ∧ (t.link n).bad = 0 ∧ (t.link n).up = true ∧
         (typ = 0 → others t ∧ (t.link n).stream = l.stream ∧ t.agenda = s.agenda ∧
           (∀ c, c < 4 → (t.link n).credits.getD c 0 = l.credits.getD c 0 + (if (bits h 3 0).testBit c then 8 else 0))) ∧
         (typ = 1 → s.coh.en = true →
           let r := splitMessages ((l.stream ++ sliceBytes flit 4 248).length / 8 + 1) (l.stream ++ sliceBytes flit 4 248)
           (∀ m ∈ r.1, mDst m = s.own) → t.agenda = s.agenda ++ r.1.map .message ∧ others t ∧ (t.link n).stream = r.2)) ∧
       (¬ good ∨ 3 < typ → l.bad < 7 → ∃ t, exec (.flitReceive n flit) s = .next t ∧ others t ∧
         t.outbox = s.outbox ++ [.replay n l.expect] ∧ (t.link n).expect = l.expect ∧ (t.link n).stream = l.stream ∧
         (t.link n).bad = l.bad + 1 ∧ t.agenda = s.agenda) ∧
       (good → typ = 2 → exec (.flitReceive n flit) s =
         .next { s with agenda := s.agenda ++ [.row (.replayRequest n (BitVec.ofNat 12 (bits h 19 8 + 1)))] })) ∧
     (l.buf.findIdx? (fun e => e.1 == q.toNat) = some i → ∃ t, exec (.replayRequest n q) s = .next t ∧ others t ∧
       t.outbox = s.outbox ++ [.resend n ((l.buf.drop i).map (·.2))] ∧
       (t.link n).replay = (if l.replay = 0xFF then l.replay else l.replay + 1) ∧ (t.link n).buf = l.buf.drop i) ∧
     (l.up = false → ∀ f, State.pump f n s = s) ∧
     (∀ k m rest, l.up = true → l.ready = some k → l.queues.getD k [] = m :: rest →
       let t := State.pump 1 n s
       others t ∧ (t.link n).queues = modifyAt (fun _ => rest) l.queues k ∧ msgUnits m ≤ l.credits.getD (k % 4) 0 ∧
         (t.link n).credits = modifyAt (· - msgUnits m) l.credits (k % 4) ∧ l.buf <+: (t.link n).buf ∧ (t.link n).buf.length ≤ 64))

/-! ## Coherence -/

/-- R64, R68, R70, R71, R73, R78: the requests that a home performs on a grain that is free, and those it turns away. -/
def Obligations.HomeRequestResults : Prop :=
  ∀ (s : State) (ds : List (List Byte)) (b : Byte), Serves s ds b →
    let m := s.rx
    let g := mGrain m
    let n := mSize m
    let r := mReq m
    let st := b.toNat % 8
    let own := bits b.toNat 5 3
    let rsh := b.getLsbD 7
    let u := s.admitReq m
    let w := (s.dropServed g).admitReq m
    let answer (op a : Nat) (data : List Byte) (s : State) := s.sendTo op r n (mTx m) 0 false a data
    let others := s.peers.filter (· != r)
    let tx (acks : Byte) (owner : Option Nat) : HomeTx := ⟨g, n, .remote m, mTx m, acks, owner, false, own, rsh, st == stO && owner.isSome, 0, false⟩
    let x : GState := ⟨st, own, rsh, 0⟩
    (st = stPOISON → exec .rds s = .next (answer mtPOISONED (mAddr m) [] u) ∧ exec .rdx s = .next (answer mtPOISONED (mAddr m) [] w)) ∧
    -- RDS
    (st = stI → s.holdsCopy g n = true → exec .rds s = .next ((answer mtDATS g ds.flatten u).setCoh g (cohByte stS r false))) ∧
    (st = stI → s.holdsCopy g n = false → exec .rds s = .next ((answer mtDATE g ds.flatten u).setCoh g (cohByte stE r false))) ∧
    (st = stS → own = r → exec .rds s = .next (answer mtDATS g ds.flatten u)) ∧
    (st = stS → own ≠ r → exec .rds s = .next ((answer mtDATS g ds.flatten u).setCoh g (cohByte stS own true))) ∧
    (2 ≤ st → st ≤ 4 → own ≠ r → exec .rds s = .next ((u.sendTo mtFWDS own n (mTx m) r false g []).pushTx (tx 0 (some own)))) ∧
    -- RDX
    (st = stI → rsh = false → exec .rdx s =
      .next ((((answer mtDATM g ds.flatten w).dropOwn g n).setCoh g (cohByte Machine.stM r false)).sendTo mtDONE r n (mTx m) 0 false g [])) ∧
    (st = stS → rsh = true → others ≠ [] → exec .rdx s =
      .next ((((answer mtDATM g ds.flatten w).dropOwn g n).sendInvs others n (mTx m) r g).pushTx (tx (devMask others) none))) ∧
    (st = stO → own = r → rsh = true → others ≠ [] → exec .rdx s =
      .next (((w.dropOwn g n).sendInvs others n (mTx m) r g).pushTx (tx (devMask others) none))) ∧
    (2 ≤ st → st ≤ 4 → own ≠ r → rsh = false → exec .rdx s =
      .next ((w.sendTo mtFWDX own n (mTx m) r false g []).pushTx (tx 0 (some own)))) ∧
    -- WB and CLN
    (2 ≤ st → st ≤ 4 → own = r → mDirty m = false → exec .wb s =
      .next (answer mtWBACK (mAddr m) [] (w.putGrain g n m.data (if rsh then cohByte stS own true else 0)))) ∧
    (¬ (2 ≤ st ∧ st ≤ 4 ∧ own = r) → ∀ i ∈ [Instr.wb, .cln], exec i s = .next (answer mtWBACK (mAddr m) [] w)) ∧
    ((st = stE ∨ st = Machine.stM) → own = r → exec .cln s = .next (answer mtWBACK (mAddr m) [] (w.setCoh g 0))) ∧
    -- ATOM and WRH
    (st = stI → atomOk m.data = true → s.coh.served = [] → ∀ e, Store.look s.l2 (mAddr m) = some e → e.data.length = 32 →
      let nb := if fieldAt m.data 17 1 = 2 ∨ fieldAt m.data 17 1 = 3 then 8 else 4
      let off := fieldAt m.data 18 1
      let old := ofBytes (sliceBytes e.data off nb)
      ∃ t, exec .atomMessage s = .next t ∧
        t.outbox = s.outbox ++ [.msg ⟨mHdr mtATOMR s.own r (grainCode n) (mTx m) 0 false 0 (mAddr m), toBytes 32 old⟩] ∧
        (∃ e', Store.look t.l2 (mAddr m) = some e' ∧ e'.data = patchBytes e.data off (toBytes nb (atomOfPayload m.data old))) ∧
        (∀ k, k ≠ mAddr m → Store.look t.l2 k = Store.look s.l2 k) ∧ t.mem = s.mem) ∧
    (atomOk m.data = false → ∃ t, exec .atomMessage s = .next t ∧ t.mem = s.mem ∧ t.l2 = s.l2 ∧
      t.outbox = s.outbox ++ [.msg ⟨mHdr mtPOISONED s.own r (grainCode n) (mTx m) 0 false 0 (mAddr m), []⟩] ∧
      (s.err.queue.length < 64 → ∃ e ∈ t.err.queue, e.cause = 0x11 ∧ e.sub = m.op)) ∧
    (st = stI → mDirty m = false → exec .wrh s = .next (answer mtDONE g [] (w.putGrain g n m.data 0))) ∧
    (st = stI → mDirty m = true → exec .wrh s = .next (answer mtDONE g [] (w.setCoh g 6))) ∧
    -- a home write of a grain that a remote device owns recalls it first
    (2 ≤ st → st ≤ 4 → rsh = false → exec .wrh s = .next ((w.sendTo mtRCL own n (mTx m) s.own false g []).pushTx
      ⟨g, n, .remote m, mTx m, 0, some own, true, own, rsh, false, 0, false⟩)) ∧
    (s.invTargets x r = [] ∨ s.invTargets x r = others ∨ s.invTargets x r = [own])

/-- R64, R68, R70 to R73, R78: what a device answers to a forward, an invalidation or a recall; what an answer does at the requester;
what an acknowledgement does at the home. -/
def Obligations.CoherenceMessageResults : Prop :=
  (∀ s : State, s.ownerTakes →
     let m := s.rx
     let g := mGrain m
     let n := mSize m
     let fwdack (dirty : Bool) (t : State) := t.sendTo mtFWDACK (mSrc m) n (mTx m) 0 dirty g []
     let gone (t : State) := (∀ k, Store.look t.l2 k = if g ≤ k ∧ k < g + n / 32 then none else Store.look s.l2 k) ∧ t.mem = s.mem ∧
       t.groups = s.groups ∧ t.g = s.g
     (exec .inv s = .next ((s.forget g n).sendTo mtINVACK (mSrc m) n (mTx m) 0 false g [])) ∧
     (∃ t, exec .inv s = .next t ∧ gone t) ∧
     (s.ownerCopy g n = none → ∀ i ∈ [Instr.fwds, .fwdx, .rcl], exec i s = .next (s.sendTo mtFWDMISS (mSrc m) n (mTx m) 0 false g [])) ∧
     (∀ d dirty buffered, s.ownerCopy g n = some (d, dirty, buffered) →
       (buffered = false → exec .fwds s = .next (fwdack dirty ((s.sendTo mtDATS (mReqField m) n (mTx m) 0 false g d).shareCopy g n dirty))) ∧
       (buffered = true → exec .fwds s = .next (fwdack dirty ((s.sendTo mtDATS (mReqField m) n (mTx m) 0 false g d).giveUp g n))) ∧
       exec .fwdx s = .next (fwdack dirty ((s.sendTo mtDATM (mReqField m) n (mTx m) 0 false g d).giveUp g n)) ∧
       exec .rcl s = .next ((s.giveUp g n).sendTo mtRCLD (mSrc m) n (mTx m) 0 false g d) ∧
       (∀ i ∈ [Instr.fwdx, .rcl], ∃ t, exec i s = .next t ∧ gone t) ∧
       (buffered = false → dirty = false → ∃ t, exec .fwds s = .next t ∧
         ∀ k e, Store.look s.l2 k = some e → Store.look t.l2 k = some (if g ≤ k ∧ k < g + n / 32 then { e with rst := .s } else e)))) ∧
  (∀ (s : State) (o : OutReq),
     let m := s.rx
     let g := holder (mAddr m) o.gsize
     let idle (t : State) := t.mem = s.mem ∧ t.groups = s.groups ∧ t.g = s.g ∧ t.tasks = s.tasks
     let grants (i : Instr) (r : RSt) (data : List Byte) := ∃ t, exec i s = .next t ∧ idle t ∧ t.coh.outs = s.coh.outs.erase o ∧
       ∀ k, g ≤ k → k < g + o.gsize / 32 → ∃ e, Store.look t.l2 k = some e ∧ e.rst = r ∧ e.gr = o.gsize ∧
         e.data = sliceBytes data (32 * (k - g)) 32
     (s.answers [mtRDS] o → grants .dats .s m.data ∧ grants .date .e m.data) ∧
     (s.answers [mtRDX] o →
       (o.gotDone = false → ∃ t, exec .datm s = .next t ∧ idle t ∧ t.l2 = s.l2 ∧
         { o with gotData := some m.data, into := g, dirty := mSrc m != homeDev g } ∈ t.coh.outs) ∧
       (o.gotDone = false → o.gotData = none → s.remoteSt o.grain ≠ .o → ∃ t, exec .done s = .next t ∧ idle t ∧ t.l2 = s.l2 ∧
         { o with gotDone := true } ∈ t.coh.outs) ∧
       (∀ d, o.gotData = some d → ∃ t, exec .done s = .next t ∧ idle t ∧
         ∀ k, o.into ≤ k → k < o.into + o.gsize / 32 → ∃ e, Store.look t.l2 k = some e ∧ e.rst = .m ∧ e.gr = o.gsize ∧
           e.data = sliceBytes d (32 * (k - o.into)) 32 ∧ e.dirty = o.dirty)) ∧
     (s.answers [mtATOM] o → ∃ t, exec .atomr s = .next t ∧ idle t ∧ t.l2 = s.l2 ∧ t.coh.outs = s.coh.outs.erase o ∧
       t.coh.answers = s.coh.answers ++ [⟨o.tag, o.grain, some (BitVec.ofNat 64 (fieldAt m.data 0 8))⟩]) ∧
     (s.answers [mtWB, mtCLN] o → ∃ t, exec .wback s = .next t ∧ idle t ∧ t.l2 = s.l2 ∧ t.coh.outs = s.coh.outs.erase o) ∧
     (s.answers [mtRDS, mtRDX, mtATOM, mtWRH] o → o.mtype = mtWRH → exec .poisoned s = .next (s.failRequest o)) ∧
     (s.answers [mtRDS, mtRDX, mtATOM, mtWRH] o → o.mtype ≠ mtWRH → ∃ t, exec .poisoned s = .next t ∧ idle t ∧ t.coh.outs = s.coh.outs.erase o ∧
       t.coh.answers = s.coh.answers ++ [⟨o.tag, o.grain, none⟩] ∧
       (∀ k, holder o.grain o.gsize ≤ k → k < holder o.grain o.gsize + o.gsize / 32 → Store.look t.l2 k = none) ∧
       (s.err.queue.length < 64 → ∃ r, t.err.queue = s.err.queue ++ [r] ∧ r.cause = 2 ∧ r.dpa = some (32 * o.grain))) ∧
     (s.takesMsg → s.coh.outs.find? (fun o => o.matches m) = some o → ∃ t, exec .retry s = .next t ∧ idle t ∧ t.l2 = s.l2 ∧
       { o with retries := o.retries + 1, ticket := mTicket m, waiting := true } ∈ t.coh.outs) ∧
     (∀ txid, s.coh.outs.find? (fun o => o.txid == txid && o.waiting) = some o →
       ∃ t, exec (.retryBackoffExpiry txid) s = .next t ∧ idle t ∧ t.l2 = s.l2 ∧ { o with waiting := false } ∈ t.coh.outs ∧
         t.outbox = s.outbox ++ [.msg ⟨mHdr o.mtype s.own (homeDev o.grain) (grainCode o.gsize) o.txid s.own o.bad
           o.ticket o.grain, if o.mtype = mtCLN then [] else o.data⟩]) ∧
     (s.takesMsg → s.coh.outs = [] → s.coh.txs = [] → s.coh.awaiting = 0 →
       ∀ i ∈ [Instr.dats, .date, .datm, .done, .atomr, .wback, .poisoned, .retry, .invack, .fwdack, .fwdmiss, .rcld, .unknownMessage],
         exec i s = .next (s.cohProto m)) ∧
     (s.coh.en = false → ∀ i ∈ [Instr.rds, .rdx, .wb, .cln, .atomMessage, .wrh, .leave, .join, .fwds, .fwdx, .inv, .rcl, .dats, .date, .datm, .done,
         .atomr, .wback, .poisoned, .retry, .invack, .fwdack, .fwdmiss, .rcld, .unknownMessage], exec i s = .next s)) ∧
  (∀ (s : State) (t : HomeTx), s.answersTx t →
     let d := mSrc s.rx
     let left := t.acks &&& ~~~(1#8 <<< d)
     let step (u : State) (t' : HomeTx) : State :=
       let v := { u with coh := { u.coh with txs := u.coh.txs.map fun x => if x == t then t' else x } }
       if t'.acks = 0 ∧ t'.owner = none ∧ t'.data = false then v.closeTx t' t'.after else v
     (t.acks.toNat.testBit d = true → exec .invack s = .next (step s { t with acks := left })) ∧
     (t.acks.toNat.testBit d = false → exec .invack s = .next (s.cohProto s.rx)) ∧
     (t.owner = some d → exec .fwdack s = .next (step s { t with owner := none, dirty := t.dirty || mDirty s.rx })) ∧
     (t.owner = some d → t.data = true → exec .rcld s =
       .next (step (s.putGrain t.grain t.gsize s.rx.data (cohByte Machine.stM t.own false)) { t with owner := none, data := false })) ∧
     (t.owner = some d → exec .fwdmiss s = .next (step (s.protoPoison s.rx t.grain) { t with owner := none, data := false, bad := true }) ∧
       (s.err.queue.length < 64 → ∃ r, (s.protoPoison s.rx t.grain).err.queue = s.err.queue ++ [r] ∧ r.cause = 0x11 ∧ r.repair = 4)) ∧
     (t.bad = true → t.after = 6) ∧
     (t.owner ≠ some d → ∀ i ∈ [Instr.fwdack, .rcld, .fwdmiss], exec i s = .next (s.cohProto s.rx)) ∧
     (∀ m, t.bad = false → t.req = .remote m → m.op = mtRDX → t.after = cohByte Machine.stM (mReq m) false) ∧
     (∀ m, t.bad = false → t.req = .remote m → m.op = mtRDS → t.after = cohByte (if t.dirty then stO else stS) t.own true) ∧
     (∀ m, t.req = .remote m → t.bad = true ∨ m.op = mtRDX → ∀ (u : State) (b : Byte), u.coh.waiting = [] →
       ∃ v, u.closeTx t b = v ∧ v.coh.txs = u.coh.txs.erase t ∧
         v.outbox = u.outbox ++ [.msg ⟨mHdr (if t.bad then mtPOISONED else mtDONE) u.own (mReq m) (grainCode t.gsize) (mTx m) 0 false 0 t.grain, []⟩]))

/-- R61, R62, R65, R70, R74, R76 to R80, R196: leaving and joining the domain, the loss of a device, page migration, and the eviction of
L2 and first-level sectors. -/
def Obligations.DomainAndEvictionResults : Prop :=
  (∀ (s : State) (d : BitVec 3),
     let m := s.rx
     let same (t : State) := t.mem = s.mem ∧ t.groups = s.groups ∧ t.g = s.g ∧ t.tasks = s.tasks ∧ t.l2 = s.l2
     let tell (op : Nat) (t : State) := ∀ d ∈ s.peers, ∃ x, Sent.msg x ∈ t.outbox ∧ x.op = op ∧ mSrc x = s.own ∧ mDst x = d
     (s.takesMsg → s.busyWith (mSrc m) = false → ∃ t, exec .leave s = .next t ∧ same t ∧
       t.coh.present = s.coh.present &&& ~~~(1#8 <<< mSrc m) ∧
       t.outbox = s.outbox ++ [.msg ⟨mHdr mtDONE s.own (mSrc m) (grainCode (mSize m)) (mTx m) 0 false 0 (mAddr m), []⟩]) ∧
     (s.coh.en = true → m.op = mtJOIN → s.coh.lost.toNat.testBit (mSrc m) = false → ∃ t, exec .join s = .next t ∧ same t ∧
       t.coh.present = s.coh.present ||| (1#8 <<< mSrc m) ∧
       t.outbox = s.outbox ++ [.msg ⟨mHdr mtDONE s.own (mSrc m) (grainCode (mSize m)) (mTx m) 0 false 0 (mAddr m), []⟩]) ∧
     (s.coh.en = true → m.op = mtJOIN → s.coh.lost.toNat.testBit (mSrc m) = true → exec .join s = .next (s.cohProto m)) ∧
     (s.busTakes .sdom → s.coh.mst = 0 → s.coh.awaiting = 0 → s.remoteGrains = [] → s.coh.outs = [] →
       ∃ t, exec .sdomLeave s = .next t ∧ same t ∧ tell mtLEAVE t ∧
         t.coh.awaiting = devMask s.peers ∧ t.coh.mst = (if devMask s.peers = 0 then 2 else 1)) ∧
     (s.busTakes .sdom → s.coh.mst ≠ 0 → exec .sdomLeave s = .next s) ∧
     (s.busTakes .sdom → s.coh.mst = 2 → ∃ t, exec .sdomJoin s = .next t ∧ same t ∧ tell mtJOIN t ∧
       t.coh.awaiting = devMask s.peers ∧ t.coh.mst = (if devMask s.peers = 0 then 0 else 3)) ∧
     (s.busTakes .sdom → s.coh.mst ≠ 2 → exec .sdomJoin s = .next s) ∧
     (s.late.contains d.toNat = true → s.coh.smigBusy = false → ∃ t, exec (.deviceLossTimeout d) s = .next t ∧ t.groups = s.groups ∧
       t.coh.lost = s.coh.lost ||| (1#8 <<< d.toNat) ∧ t.coh.present = s.coh.present &&& ~~~(1#8 <<< d.toNat) ∧
       (s.err.queue.length < 64 → ∃ r ∈ t.err.queue, r.cause = 0x12 ∧ r.sub = d.toNat)) ∧
     (s.late.contains d.toNat = false → exec (.deviceLossTimeout d) s = .next s)) ∧
  (∀ s : State,
     let c := s.coh
     let size := s.busField c.smigc 25 24
     let src := 4096 * bits c.smigs.toNat 40 12
     let dst := 4096 * bits c.smigd.toNat 40 12
     let page := if size = 0 then 4096 else if size = 1 then 65536 else 2097152
     s.busTakes .smigc →
     ((c.smigBusy = true ∨ c.migOn = true ∨ size = 3 ∨ src % page ≠ 0 ∨ dst % page ≠ 0 ∨ src / 2 ^ 38 ≠ s.own ∨
         s.isPresent (dst / 2 ^ 38) = false ∨ (src < dst + page ∧ dst < src + page)) →
       ∃ t, exec .migrationStart s = .next t ∧ t.coh.smigSt = 4 ∧ t.coh.smigSize = BitVec.ofNat 2 size ∧ t.coh.smigBusy = c.smigBusy ∧
         t.coh.migOn = c.migOn ∧ t.mem = s.mem ∧ t.l2 = s.l2 ∧ t.outbox = s.outbox) ∧
     (s.migRefused size = false → s.outOfRange src = false → s.outOfRange dst = false → ∃ t, exec .migrationStart s = .next t ∧
       t.coh.migOn = true ∧ t.coh.migFrom = src / 32 ∧ t.coh.migTo = dst / 32 ∧ t.coh.migPage = page ∧
       (t.coh.smigBusy = true ∧ t.coh.smigSt = 1 ∨ t.coh.smigBusy = false ∧ (t.coh.smigSt = 2 ∨ t.coh.smigSt = 5)) ∧
       t.groups = s.groups ∧ t.g = s.g) ∧
     ((c.smigSt = 2 ∨ c.smigSt = 5) → ∃ t, exec .migrationRelease s = .next t ∧ t.coh.smigSt = 3 ∧ t.coh.migOn = false ∧
       ∀ i, i < c.migPage / 32 → Store.look t.l2 (c.migFrom + i) = none ∧
         ∀ j, j < 32 → Memory.byte t.mem (32 * homeSec (c.migFrom + i) + j) = 0) ∧
     (c.smigSt ≠ 2 → c.smigSt ≠ 5 → ∃ t, exec .migrationRelease s = .next t ∧ t.coh.smigSt = c.smigSt ∧ t.coh.migOn = c.migOn ∧ t.mem = s.mem ∧
       t.l2 = s.l2)) ∧
  (∀ (s : State) (dpa core sec : Nat) (e : L2Sec) (x : L1Sec),
     let k := dpa / 32
     (Store.look s.l2 k = some e →
       (e.rst = .home → e.dirty = false → exec (.l2Evict dpa) s = .next { s with l2 := Store.erase s.l2 k }) ∧
       (e.rst = .home → e.dirty = true → exec (.l2Evict dpa) s =
         .next { s.writeSector (homeSec k) e.data e.coh with l2 := Store.erase s.l2 k }) ∧
       (e.rst = .s → s.remoteSt (holder k e.gr) = .s → exec (.l2Evict dpa) s = .next (s.forget (holder k e.gr) e.gr))) ∧
     (Store.look s.l2 k = none → exec (.l2Evict dpa) s = .next s) ∧
     (Store.look s.l1 (l1Key core sec) = some x → (x.dirty = 0 ∨ s.clk.toNat < x.since + 1024) →
       exec (.l1DirtyTimeout core sec) s = .next s) ∧
     (sec < 2 ^ 36 → Store.look s.l1 (l1Key core sec) = some x → x.dirty ≠ 0 → x.since + 1024 ≤ s.clk.toNat →
       homeDev sec = s.own → s.redirected sec = none → s.txOpen (holder sec x.gr) = false → s.coh.served = [] →
       (∃ d b, s.cleanAt (holder sec x.gr) d b ∧ b.toNat % 8 = 0 ∧ b.getLsbD 6 = false) →
       Store.look s.l2 sec = some e →
       ∃ t, exec (.l1DirtyTimeout core sec) s = .next t ∧ Store.look t.l1 (l1Key core sec) = some { x with dirty := 0 } ∧
         (∃ e', Store.look t.l2 sec = some e' ∧ e'.data = mergeBytes x.dirty e.data x.data ∧ e'.dirty = true ∧ e'.coh = cohFor sec x.gr e.coh) ∧
         (∀ j, j ≠ sec → Store.look t.l2 j = Store.look s.l2 j) ∧
         (∀ j, j ≠ l1Key core sec → Store.look t.l1 j = Store.look s.l1 j) ∧ t.mem = s.mem ∧ t.groups = s.groups ∧ t.g = s.g))

/-! ## Dispatch, graphs and timers -/

/-- R100 to R104, R114, R134 to R137, R144, R180, R182, R185, R256, R258, R310 to R313: a quadrant takes up the group that it chooses
and its lanes begin a clause; a core takes the next block of the launch at the head of a list, and the first state of a group; the
retirement of a block, the commit of a DET block and the completion of a launch. -/
def Obligations.DispatchResults : Prop :=
  (∀ (s : State) (core quad : Nat),
     let i := Instr.clauseIssue core quad
     let v := s.settle.enterHandlers core quad
     (s.issuing = true → exec i s = .next s) ∧
     (s.issuing = false → v.chosen core quad = none → exec i s = .next v) ∧
     ∀ g, v.chosen core quad = some g →
       let t := v.takeUp core quad g
       let x := g.norm
       g ∈ v.readyOn core quad ∧
       (∀ y ∈ v.readyOn core quad, v.promoted y = true → v.promoted g = true ∧ g.ready.getD 0 ≤ y.ready.getD 0) ∧
       ((∀ y ∈ v.readyOn core quad, v.promoted y = false) → (∃ y ∈ v.readyOn core quad, v.flowing y = true) →
         g.det = true ∨ v.flowing g = true) ∧
       t.g = { x with ready := none, passed := false, iss := { x.iss with on := true } } ∧
       (∀ y ∈ t.groups, y.is g.task g.block g.index = false) ∧ t.mem = s.mem ∧ t.sp = s.sp ∧
       (s.issuing = false → x.iss.wait ≠ none → exec i s = .next t) ∧
       (∀ a m, s.issuing = false → x.iss.wait = none → x.choose = some (a, m, none) →
         ∀ h ws u, (fetchClause (t.g.fetchWho a) x.enc a.toNat).on t = (.ok (h, some ws), u) → ws ≠ [] →
         (hClass h = 6 → x.anyTrapped = false ∨ x.handler = true) →
         ∃ w, exec i s = .next w ∧ w.issuing = true ∧ w.g.iss.hdr = a ∧ w.g.iss.pc = a + 8 ∧ w.g.iss.x = m ∧ w.g.iss.words = ws ∧
           w.g.iss.cls = hClass h ∧ w.g.is g.task g.block g.index = true ∧ w.groups = u.groups ∧ w.mem = u.mem ∧ w.sp = s.sp ∧
           (∀ l, m.getLsbD l = true → (w.g.lane l).lpc = (x.lane l).lpc ∧ (w.g.lane l).yld = false) ∧
           (∀ r l, w.g.rv r l = x.rv r l) ∧ (∀ r, w.g.rk r = x.rk r))) ∧
  (∀ (s : State) (core seg p : Nat) (ls : List (Nat × Nat)) (k : Task) (slots : List (List Nat)) (base : Nat),
     (s.core core).reserve = none →
     (s.pullLists core = ((seg, p) :: ls, false) → s.head seg p = some k → s.task k.id = some k →
       (k.launched = true → k.cohort = 0 → k.lagoon = false → s.fits k core = some (slots, base) →
         ∃ t, exec (.corePull core) s = .next t ∧
           t.blocks = s.blocks ++ [{
             task := k.id, idx := k.handed, core := core, rank := 0, ctx := k.ctx, base := base, scratch := k.scratch, ngroups := k.ngroups
             slots := slots.flatten, rings := (List.range 8).map k.ringStart, issued := [0, 0, 0, 0], done := [0, 0, 0, 0], canc := false
             retired := false }] ∧
           t.groups = s.groups ++ slots.mapIdx (fun gi sl => k.group k.handed core 0 gi (sl.headD 0)) ∧
           t.task k.id = some { k with handed := k.handed + 1 } ∧ t.mem = s.mem ∧ t.sp = s.sp ∧ t.g = s.g) ∧
       (k.launched = false → k.formOk = false → k.dv = false → ∀ n, k.src = .ring n → ∃ t, exec (.corePull core) s = .next t ∧
         t.tasks = s.tasks.filter (fun x => x.id != k.id) ∧ t.blocks = s.blocks ∧ t.mem = s.mem ∧
         (t.sq n).held = (s.sq n).held ++
           [completion k.ctx 3 1 (BitVec.ofNat 64 (k.w 5)) ((s.detv k.ctx).toNat * 2 ^ 32) []])) ∧
     (s.pullLists core = ([], true) → exec (.corePull core) s = .next (s.modCore core fun c => { c with idle := true })) ∧
     (∀ (block rank gi slot : Nat) (l : Nat), l < 128 →
       let g := k.group block core rank gi slot
       g.task = k.id ∧ g.block = block ∧ g.index = gi ∧ g.core = core ∧ g.slot = slot ∧ g.ctx = k.ctx ∧ g.width = k.width ∧
       (k.width = 16 ∨ k.width = 32 ∨ k.width = 64 ∨ k.width = 128) ∧ g.lanes.length = k.width ∧
       (∀ r, g.rv r l = if r = 0 ∧ l < k.width then BitVec.ofNat 32 l else 0) ∧
       (∀ r, g.rk r = match r.toNat with
         | 0 => BitVec.ofNat 32 block
         | 1 => BitVec.ofNat 32 gi
         | 2 => (k.words.getD 1 0).extractLsb' 0 32
         | 3 => ((k.words.getD 1 0).extractLsb' 32 16).zeroExtend 32
         | 4 => (k.words.getD 7 0).extractLsb' 0 32
         | 5 => (k.words.getD 7 0).extractLsb' 32 32
         | 6 => BitVec.ofNat 32 rank
         | 7 => BitVec.ofNat 32 k.nblocks
         | _ => 0) ∧
       (∀ r, g.rp r l = (r == 15)) ∧ (∀ r, g.rj r = 0 ∧ g.rsh r = 0) ∧ (∀ r, g.rq r = 0) ∧ g.handler = false ∧
       (∀ a ∈ g.lanes, a.st = .eligible ∧ a.spdepth = 0 ∧ a.stack = [] ∧ a.yld = false ∧ a.tcause = 0 ∧
         a.lpc = BitVec.ofNat 64 (k.khdr + bits (k.h 5) 31 0)))) ∧
  (∀ (s : State) (b : Block) (k : Task),
     let core (t : State) := t.groups = s.groups ∧ t.g = s.g ∧ t.sp = s.sp
     (s.findBlock b.task b.idx = some b → s.task b.task = some k → k.id = b.task → s.mayRetire b = true → s.lagoon.contains (b.core / 4) = false →
       (∀ e ∈ s.l1, e.1 / 2 ^ 36 = b.core → e.2.dirty = 0) →
       ∃ t, exec (.blockRetire b.task b.idx) s = .next t ∧ core t ∧ t.mem = s.mem ∧
         t.task b.task = some { k with retired := k.retired + 1, done := if b.canc then k.done else k.done + 1, canc := k.canc || b.canc } ∧
         (k.isDet = false → t.blocks = s.blocks.filter fun x => !(x.task == b.task && x.idx == b.idx)) ∧
         (k.isDet = true → ∃ x ∈ t.blocks, x.task = b.task ∧ x.idx = b.idx ∧ x.retired = true) ∧
         (∀ f, f < 192 → ((t.core b.core).frame f).owner ≠ some (b.task, b.idx))) ∧
     (∀ n, k.src = .ring n → k.dv = false → s.task k.id = some k → s.mayComplete k = true →
       let status := if k.ended then 2 else if k.canc then 1 else 0
       let record (d : Option (List Byte)) := completion k.ctx status 1 (BitVec.ofNat 64 (k.w 5))
         (k.canc.toNat * 2 ^ 34 + d.isSome.toNat * 2 ^ 33 + (s.detv k.ctx).toNat * 2 ^ 32 + k.done) ((d.map fun x => words64 x 6).getD [])
       ((k.isDet = false ∨ bits (k.h 7) 47 32 = 0) → ∃ t, exec (.launchComplete k.id) s = .next t ∧ core t ∧ t.mem = s.mem ∧
         t.tasks = s.tasks.filter (fun x => x.id != k.id) ∧ (t.sq n).held = (s.sq n).held ++ [record none] ∧
         (∀ m, m ≠ n → t.sq m = s.sq m) ∧ t.blocks = s.blocks) ∧
       (∀ m u, k.isDet = true → bits (k.h 7) 47 32 ≠ 0 → (digestMessage k).on s = (.ok m, u) → s.detv k.ctx = u.detv k.ctx →
         ∃ t, exec (.launchComplete k.id) s = .next t ∧ t.tasks = u.tasks.filter (fun x => x.id != k.id) ∧
           (t.sq n).held = (u.sq n).held ++ [record (some (sha384 m))])) ∧
     (∀ u, s.findBlock b.task b.idx = some b → s.mayCommit b = true →
       ((s.detBytes b.task b.idx).forM fun x => l2Write (hwWho b.ctx true [8, b.task, b.idx]) x.1 x.2.1 [x.2.2] : Mem Unit).on s = (.ok (), u) →
       ∃ t, exec (.detCommit b.task b.idx) s = .next t ∧ t.mem = u.mem ∧ t.l2 = u.l2 ∧ t.groups = u.groups ∧
         t.blocks = u.blocks.filter (fun x => !(x.task == b.task && x.idx == b.idx)) ∧
         (∀ x, u.task b.task = some x → t.task b.task = some { x with commits := x.commits + 1 }) ∧
         ∀ e ∈ t.det, e.1 / 2 ^ 40 = b.task → ∀ y ∈ e.2.bufs, y.1 ≠ b.idx))

/-- R115 to R117: what the walker does at a node of each kind. -/
def Obligations.GraphNodeResults : Prop :=
  ∀ (s u : State) (id : Nat) (g : Graph) (ws : List DWord),
    let adr := bits (ws.getD 1 0).toNat 47 0
    let value := bits (ws.getD 2 0).toNat 31 0
    let dc := bits (ws.getD 2 0).toNat 43 32
    let nxt := bits (ws.getD 0 0).toNat 31 16
    let alt := bits (ws.getD 0 0).toNat 47 32
    let at_ (i : Instr) := Visits s id i g ws u
    -- the walk goes on at a graph h in a state that is v but for its graphs
    let goes (i : Instr) (v : State) (h : Graph) := ∃ t, exec i s = .next t ∧ t.graph id = some h ∧ { t with graphs := v.graphs } = v
    let ends (i : Instr) (v : State) (status : Nat) := exec i s = .next (v.endGraph g status)
    let word (v : State) (x : Nat) := adr % 4 = 0 ∧ (engineRead g.who adr 4).on u = (.ok (toBytes 4 x), v) ∧ x < 2 ^ 32 ∧ v.graph id = some g
    (at_ (.nodeJoin id) → goes (.nodeJoin id) u (if g.out = [] then { g with node := nxt } else g)) ∧
    (at_ (.nodeCond id) → ∀ v x, word v x → goes (.nodeCond id) v { g with node := if x = 0 then alt else nxt }) ∧
    (at_ (.nodeWhile id) →
      let loops := if (g.loops.head?.map (·.1)) = some g.node then g.loops else (g.node, 0) :: g.loops
      let count := (loops.headD (0, 0)).2
      (8 < loops.length → ends (.nodeWhile id) u 11) ∧
      (loops.length ≤ 8 → ∀ v x, word v x →
        (x = 0 → goes (.nodeWhile id) v { g with loops := loops.tail, node := alt }) ∧
        (x ≠ 0 → value ≠ 0 → count = value → ends (.nodeWhile id) v 10) ∧
        (x ≠ 0 → value = 0 ∨ count ≠ value → goes (.nodeWhile id) v { g with loops := (g.node, count + 1) :: loops.tail, node := nxt }))) ∧
    (at_ (.nodeEndw id) →
      ((g.loops.head?.map (·.1)) = some alt → goes (.nodeEndw id) u { g with node := alt }) ∧
      ((g.loops.head?.map (·.1)) ≠ some alt → ends (.nodeEndw id) u 9)) ∧
    (at_ (.nodeStore id) → adr % 4 = 0 → ∀ v, (nodeStore g adr value).on u = (.ok (), v) → v.graph id = some g →
      goes (.nodeStore id) v { g with node := nxt }) ∧
    (at_ (.nodeDecr id) → u.ownsCounter g.ctx dc = true → goes (.nodeDecr id) (u.adjust dc 1) { g with node := nxt }) ∧
    (at_ (.nodeWaitd id) → u.ownsCounter g.ctx dc = true →
      goes (.nodeWaitd id) u (if (u.counter dc).value = 0 then { g with node := nxt } else g)) ∧
    (u.ownsCounter g.ctx dc = false → ∀ i ∈ [Instr.nodeDecr id, .nodeWaitd id], at_ i → ends i u 8) ∧
    (at_ (.nodeEnd id) → g.out = [] → ends (.nodeEnd id) u 0) ∧
    (at_ (.nodeInvalid id) → ends (.nodeInvalid id) u 9) ∧
    (s.graph id = some g → s.mayWalk g = true → g.count ≤ g.node → exec (.nodeInvalid id) s = .next (s.endGraph g 9)) ∧
    (at_ (.nodeLaunch id) → adr % 64 = 0 → (ws.getD 0 0).getLsbD 4 = false ∨ g.out.length < 16 →
      ∀ v bs, (engineRead g.who adr 64).on u = (.ok bs, v) → v.graph id = some g →
      let card := fillCard (words64 bs 8) g.asn.toNat g.ctx
      let t0 := Task.card v.nextId card (.graph id g.node) (segOf v.part.slices (bits (card.getD 1 0).toNat 63 48)) false
      t0.wv = false → t0.dv = false → v.segCount t0.seg < 1024 →
      ∃ t, exec (.nodeLaunch id) s = .next t ∧ t.tasks = v.tasks ++ [t0] ∧ t.mem = v.mem ∧ t.groups = v.groups ∧
        t.graph id = some (if (ws.getD 0 0).getLsbD 4 then { g with out := g.out ++ [(v.nextId, g.node)], node := nxt }
          else { g with await := some (v.nextId, nxt) }))

/-- R146, R155, R157, R163, R167 to R169, R208, R432, R447: the watchdog, the flush timer, an expiring deadline; dropping translations,
and the binding and unbinding of gathering queues and pools. -/
def Obligations.TimerAndBindingResults : Prop :=
  (∀ (s : State) (core queue : Nat) (ctx : Word),
     (2 ^ 20 ≤ (s.core core).watch → ∃ t, exec (.watchdogExpiry core) s = .next t ∧ (t.core core).watch = 0 ∧ t.mem = s.mem ∧
       t.groups = s.groups ∧ t.g = s.g ∧
       ∃ es, t.trap.due = s.trap.due ++ es ∧ (∀ e ∈ es, e.1 = .watchdog core ∧ e.2.cause = cWATCH ∧ e.2.src = 4 ∧ e.2.core = core) ∧
         ∀ g ∈ s.allGroups, g.core = core → ∃ e ∈ es, e.2.ctx = g.ctx) ∧
     ((s.core core).watch < 2 ^ 20 → exec (.watchdogExpiry core) s = .next s) ∧
     (s.tileWaits queue = false → s.flushDue queue = true → exec (.tileFlushTimer queue) s = .next (s.closeTile queue true).settle) ∧
     (s.tileWaits queue = false → s.flushDue queue = false → exec (.tileFlushTimer queue) s = .next s) ∧
     (s.deadlineDue ctx = false → exec (.deadlineExpiry ctx) s = .next s) ∧
     (s.deadlineDue ctx = true → (s.cx ctx).expiring = false →
       let u := s.expire ctx
       let set := CSet.of (u.cx ctx).dlnact
       (u.cx ctx).dln.getLsbD 63 = false ∧ (u.cx ctx).frozen = true ∧
       (∀ c e, (((u.core c).fut e).st = .pending → ((u.core c).fut e).ctx = ctx →
         set.hits ((u.core c).fut e).tag ((u.core c).fut e).canc = false)) ∧
       ∀ v bs, (expireUnits ctx set).on u = (.ok (some bs), v) → ∀ n, n < 16 → (v.sq n).en = true → (v.sq n).ctx = ctx →
         (∀ m, m < n → (v.sq m).en = true → (v.sq m).ctx ≠ ctx) →
         ∃ t, exec (.deadlineExpiry ctx) s = .next t ∧ (t.cx ctx).expiring = false ∧
           (t.sq n).held = (v.sq n).held ++ [completion ctx 1 3 0 ((v.detv ctx).toNat * 2 ^ 32) (slotWords bs)])) ∧
  (∀ (s u : State) (asn : Half) (vpn : BitVec 36) (ctx : Word) (n : Nat) (desc : DWord) (ws : List DWord),
     let va := bits desc.toNat 47 5 * 32
     let who := hwWho ctx true [4, n]
     let reg : DWord := BitVec.ofNat 64 (va + 1)
     let queue (t : State) := (t.gq n).rows = [] ∧ (t.gq n).cur = none ∧ (∀ m, m ≠ n → t.gq m = u.gq m) ∧ t.mem = u.mem ∧ t.pools = u.pools ∧
       if (u.cx (u.gq n).ctx).run = .saved then
         (t.cx (u.gq n).ctx).late = (u.cx (u.gq n).ctx).late ++ [.futures ((u.gq n).rows.map (·.handle)) .cancelled 0 none]
       else ∀ r ∈ (u.gq n).rows, ∀ f, t.futOf r.handle = some f → f.st ≠ .pending
     exec (.tlbinvPage asn vpn) s =
       .next { s with tlb := s.tlb.filter fun e => !(e.asn == asn.toNat && e.covers (vpn.toNat * 4096)) } ∧
     exec (.tlbinvAsn asn) s = .next { s with tlb := s.tlb.filter fun e => e.asn != asn.toNat } ∧
     exec .tlbinvAll s = .next { s with tlb := [] } ∧
     ((readDesc who va).on s = (.ok ws, u) →
       (∃ t, exec (.gqdBind ctx n desc) s = .next t ∧ (t.gq n).bound = true ∧ (t.gq n).reg = reg ∧ (t.gq n).desc = ws ∧ queue t) ∧
       ∀ v, (Pool.bind { u.pool n with reg := reg, bound := true, desc := ws } n).on u = (.ok (), v) →
         exec (.pldBind ctx n desc) s = .next v ∧ (v.pool n).bound = true ∧ (v.pool n).reg = reg ∧ (v.pool n).desc = ws ∧
           (v.pool n).head = 0 ∧ ∀ m, m ≠ n → v.pool m = u.pool m) ∧
     (∀ e, (readDesc who va).on s = (.error (.trap e), u) → exec (.gqdBind ctx n desc) s = .next u ∧ exec (.pldBind ctx n desc) s = .next u) ∧
     (u = s → ∃ t, exec (.gqdUnbind n) s = .next t ∧ (t.gq n).bound = false ∧ (t.gq n).reg = 0 ∧ queue t) ∧
     (∃ t, exec (.pldUnbind n) s = .next t ∧ (t.pool n).bound = false ∧ (t.pool n).reg = 0 ∧ (∀ m, m ≠ n → t.pool m = s.pool m) ∧
       t.mem = s.mem ∧ t.groups = s.groups ∧ t.g = s.g))

/-! ## Engines and context commands -/

/-- R153, R199 to R202, R247, R254 to R267, R275 to R283, R294, R409: a K-step, a drain element and its micro-instructions, a chunk of a
copy and its resumption, the acknowledgement of an engine that stops, and the command at the head of a spatial engine. -/
def Obligations.EngineResults : Prop :=
  (∀ (s : State) (core frame : Nat) (op : MOp) (d : Drain),
     (s.nextOp core = some op → op.nant = true →
       let p := Shape.of op.sh
       let col := Memory.read (s.core core).wbytes (op.slot * slotBytes + op.next * p.bk) p.bk
       let place := match s.findBlock op.task op.block with
         | some b => (b.core, b.base)
         | none => (core, 0)
       let row (i : Nat) := s.spLoad place.1 place.2 (op.aoff + i * p.astr + 64 * op.next) 64
       let old (x : Nat) : Word := if op.next = 0 ∧ op.z = true then 0 else (s.core core).elem op.frame x
       ∃ t, exec (.mmaKstep core) s = .next t ∧ t.mem = s.mem ∧ t.sp = s.sp ∧ t.groups = s.groups ∧ t.g = s.g ∧
         (∀ i j, i < p.em → j < op.ncols → (t.core core).elem op.frame (32 * i + j) = (p.chunk op.ftz (old (32 * i + j)) (row i) col j).bits) ∧
         (∀ x, x < 1024 → ¬ (x / 32 < p.em ∧ x % 32 < op.ncols) → (t.core core).elem op.frame x = (s.core core).elem op.frame x) ∧
         (op.next + 1 ≤ p.kst → (t.core core).drain = (s.core core).drain) ∧
         (p.kst < op.next + 1 → ∃ e, (t.core core).drain = some e ∧ e.op.id = op.id ∧ e.elem = 0)) ∧
     (s.nextOp core = none → exec (.mmaKstep core) s = .next s) ∧
     (s.nextDrain core = some d → d.op.den = false → d.op.nan = none → d.op.twin = false → d.op.dv = false → d.t ≠ [] →
       d.elem % 32 + 1 < d.op.ncols → ∃ t, exec (.drainElement core) s = .next t ∧ t.mem = s.mem ∧ t.sp = s.sp ∧
         ((t.core core).drain.map (·.elem) = some (d.elem + 1) ∨ 32 * (Shape.of d.op.sh).em ≤ d.elem + 1)) ∧
     (s.nextDrain core = none → exec (.drainElement core) s = .next s) ∧
     ((s.core core).aside.any (fun d => d.op.frame == frame && d.stop.isSome) = true → ∃ t, exec (.drainResume core frame) s = .next t ∧
       ((t.core core).frame frame).nanf = false ∧ (∀ d ∈ (t.core core).aside, d.op.frame = frame → d.stop = none) ∧ t.mem = s.mem ∧ t.sp = s.sp ∧
       t.groups = s.groups ∧ t.g = s.g)) ∧
  (∀ (s : State) (core : Nat) (b : Block) (d : Drain) (w : Word),
     let op := d.op
     let i := d.elem / 32
     let j := d.elem % 32 + 32 * op.half.toNat
     let imm := bits w.toNat 19 0
     let pk (k : Nat) : Word := op.pk.getD k 0
     let src (k : Nat) : Word := match k with
       | 4 => (s.core core).elem op.frame d.elem
       | 5 => BitVec.ofNat 32 i
       | 6 => BitVec.ofNat 32 j
       | 7 => 0
       | k => d.t.getD k 0
     let a := src (bits w.toNat 25 23)
     let c := src (bits w.toNat 22 20)
     let f (x : Word) : XR := ffF32.value op.ftz x.toNat
     let put (x : Word) (nan : Bool) : MicroOut := .ok s { d with t := modifyAt (fun _ => x) d.t (bits w.toNat 27 26) } nan
     let round (x : XR) : Word := BitVec.ofNat 32 (ffF32.round .rn false op.ftz x)
     let code := bits w.toNat 31 28
     let reads4 := bits w.toNat 25 23 = 4 ∨ bits w.toNat 22 20 = 4
     (s.upsets.contains (.drain core true) = true → reads4 → micro s core b d w = .fault cECC 0) ∧
     ((s.upsets.contains (.drain core true) = true → ¬ reads4) →
     (code = 1 → micro s core b d w = put a false) ∧
     (code = 4 → (f a).isNan = false → (f c).isNan = false → (XR.add .rn (f a) (f c)).isNan = false →
       micro s core b d w = put (round (XR.add .rn (f a) (f c))) false) ∧
     (code = 5 → (f a).isNan = false → (f c).isNan = false → ((f a).mul (f c)).isNan = false → micro s core b d w = put (round ((f a).mul (f c))) false) ∧
     (code = 7 → (f a).isNan = false → micro s core b d w = put (if (XR.fin false 0 0).lt (f a) then a else 0) false) ∧
     (code = 15 → micro s core b d w = put (a + c) false) ∧
     (code = 12 →
       let size := 2 ^ bits imm 3 2
       let x := (pk (imm % 4)).toNat + i * (pk (imm % 4 + 1)).toNat + j * size
       (x % size ≠ 0 → micro s core b d w = .fault cALIGN x) ∧
       (x % size = 0 → b.scratch < x + size → micro s core b d w = .fault cPERM x) ∧
       (x % size = 0 → x + size ≤ b.scratch → micro s core b d w = .ok (s.drainStore b x (toBytes size a.toNat)) d false)) ∧
     (code = 14 → ¬ (d.rowEnd = true ∧ i + 1 = (Shape.of op.sh).em) → micro s core b d w = .ok s d false) ∧
     (code = 14 → d.rowEnd = true → i + 1 = (Shape.of op.sh).em → s.ownsCounter op.ctx (bits imm 11 0) = true →
       micro s core b d w = .ok (s.adjust (bits imm 11 0) (sext (bits imm 19 12) 8)) d false))) ∧
  (∀ (s u : State) (core ch launch block : Nat) (c : CopyCmd) (b : Block) (e : Engine) (col : Collect),
     (s.nextCopy core ch = some c → c.refill = false → c.dc = none → ch < 4 →
       let row := c.pos / c.len
       let off := c.pos % c.len
       let src := c.saddr + row * c.sstr + off
       let dst := c.daddr + row * c.dstr + off
       let n := min (c.len - off) (4096 - dst % 4096)
       (s.upsets.contains (.copy core ch) = true → ∃ t, exec (.copyChunk core ch) s = .next t ∧ t.mem = s.mem ∧ t.sp = s.sp ∧
         ∃ c' ∈ (t.core core).chan ch, ∃ x, c' = { c with stop := some (cECC, 0, x) }) ∧
       (s.upsets.contains (.copy core ch) = false → u.findBlock c.task c.block = some b → b.done.length = 4 → (moveChunk (s.copyWho core ch c) core c row off n).on s = (.ok (), u) →
         ∃ t, exec (.copyChunk core ch) s = .next t ∧ t.mem = u.mem ∧ t.l2 = u.l2 ∧ t.sp = u.sp ∧
           (∃ b', t.findBlock c.task c.block = some b' ∧ b'.done.getD ch 0 = (b.done.getD ch 0 + n) % 2 ^ 64)) ∧
       (c.skind = 1 → c.dkind = 1 → c.srank = c.drank → s.rankBlock c c.srank = some b → src + n ≤ b.scratch → dst + n ≤ b.scratch →
         (moveChunk (s.copyWho core ch c) core c row off n).on s = (.ok (), s.spStore b.core b.base dst (s.spLoad b.core b.base src n)))) ∧
     (s.nextCopy core ch = none → exec (.copyChunk core ch) s = .next s) ∧
     (s.findBlock launch block = some b → (s.core b.core).chans.length = 4 → ch < 4 → ∃ t, exec (.copyResume launch block ch) s = .next t ∧
       (∀ x ∈ (t.core b.core).chan ch, x.task = launch → x.block = block → x.stop = none) ∧
       (∀ n, n ≠ ch → (t.core b.core).chan n = (s.core b.core).chan n) ∧ t.mem = s.mem ∧ t.groups = s.groups ∧ t.g = s.g) ∧
     (s.creg.col = some col → s.mayAck e = true → e ≠ .gather →
       exec (.engineAcknowledge e) s = .next { s with creg := { s.creg with col := some { col with acks := col.acks ++ [e] } } }) ∧
     (s.mayAck e = false → exec (.engineAcknowledge e) s = .next s)) ∧
  (∀ (s u : State) (atoll : Nat) (c : SpCmd),
     let served (t : State) := (t.setSpq atoll ((t.spq atoll).erase c)).asyncDone c.task c.block c.gi 6
     (s.nextSp atoll = some c →
       (c.isOver = true → s.spCancelled c = true) ∧
       (s.spCancelled c = true → exec (if c.step then .spatialStepBody atoll else .spatialQuery atoll) s = .next (served s).settle) ∧
       (c.step = false → s.spCancelled c = false →
         (∀ x, (runQuery (s.spWho atoll c) c.rec_.toNat c.oct.toNat) s = (.ok (.ok x), u) →
           exec (.spatialQuery atoll) s = .next (served (u.resolve c.handle none .ready (BitVec.ofNat 64 x))).settle) ∧
         (∀ code va, (runQuery (s.spWho atoll c) c.rec_.toNat c.oct.toNat) s = (.ok (.error (code, va)), u) →
           exec (.spatialQuery atoll) s =
             .next (served (u.resolve c.handle none .faulted (BitVec.ofNat 64 (code % 256 + bits va 47 0 * 2 ^ 16)))).settle)) ∧
       (c.step = true → s.spCancelled c = false → ∀ c', (bodyStep (s.spWho atoll c) c) s = (.ok (.ok c'), u) →
         c'.body = c.body + 1 ∧
         (c'.body < bits (c'.work.getD 2 0).toNat 15 0 →
           exec (.spatialStepBody atoll) s = .next (u.setSpq atoll (mapWhere (· == c) (fun _ => c') (u.spq atoll))).settle) ∧
         (bits (c'.work.getD 2 0).toNat 15 0 ≤ c'.body → exec (.spatialStepBody atoll) s =
           .next (served (u.resolve c.handle none .ready
             (BitVec.ofNat 64 ((c'.work.getD 16 0).toNat + (c'.work.getD 17 0).toNat * 2 ^ 9)))).settle))) ∧
     (s.nextSp atoll = none → ∀ i ∈ [Instr.spatialQuery atoll, .spatialStepBody atoll], exec i s = .next s))

/-- R21, R294, R297 to R302: the commands of CTXCMD start while none is in progress; those that stop a context act once every engine has
acknowledged; the checking and loading phases of a restore; a release; the lanes that a write of SVCREL acts on. -/
def Obligations.ContextCommandResults : Prop :=
  (∀ (s v : State),
     let r := s.creg
     let area := BitVec.ofNat 64 (s.busField r.cmdReg 60 32 * 4096)
     let ctx : Word := BitVec.ofNat 32 (s.busField r.cmdReg 31 0)
     let run := (s.cx ctx).run
     let done (n : BitVec 3) : Host.Outcome State Fault Refusal :=
       .next { s with creg := { r with area := area, ctx := ctx, busy := false, status := n, col := none } }
     let stops (cmd : BitVec 3) : Host.Outcome State Fault Refusal :=
       .next (({ s with creg := { r with area := area, ctx := ctx, busy := true, col := some ⟨ctx, cmd, area, []⟩ } }).modCx ctx
         fun c => { c with run := .stopping })
     let rows : List Instr := [.ctxPreemptSave, .ctxRestore, .ctxEnd, .ctxRelease, .ctxcmdInvalid]
     (s.busTakes .ctxcmd → s.again = false →
       (r.busy = true → ∀ i ∈ rows, exec i s = .next s) ∧
       (r.busy = false → exec .ctxcmdInvalid s = done 6 ∧ exec .ctxEnd s = stops 3 ∧
         (run = .running ∨ run = .stopped → exec .ctxPreemptSave s = stops 1) ∧
         (run ≠ .running → run ≠ .stopped → exec .ctxPreemptSave s = done 2) ∧
         (s.ctxLive ctx = true → exec .ctxRestore s = done 2))) ∧
     (s.again = true → ∀ c, c = s.creg.ctx →
       let u := { s with again := false }
       (s.collected = false → exec .ctxEnd s = .next u ∧ exec .ctxPreemptSave s = .next u) ∧
       (s.collected = true →
         (∀ z, (ctxFlush u c).on u = (z, v) →
           (z = .error .wait → exec .ctxEnd s = .next v) ∧
           (z ≠ .error .wait → ∃ t, exec .ctxEnd s = .next t ∧ t.creg.status = 7 ∧ t.creg.busy = false ∧
             (t.cx v.creg.ctx).run = .ended ∧ t.mem = v.mem ∧ (∀ b ∈ t.blocks, b.ctx ≠ v.creg.ctx) ∧
             (∀ g ∈ t.groups, g.ctx ≠ v.creg.ctx) ∧ (∀ g ∈ t.graphs, g.ctx = v.creg.ctx → g.worst = 2))) ∧
         (∀ gs, (do ctxFlush u c; u.groups.mapM fun g => if g.ctx == c then savedGroup g else pure g : Mem (List Group)).on u = (.ok gs, v) →
           let ss := { v with groups := gs }.ctxSections c
           let need : Half := BitVec.ofNat 16 (mib (areaTotal ss))
           (r.alen.toNat * 2 ^ 20 < areaTotal ss → ∃ t, exec .ctxPreemptSave s = .next t ∧ (t.cx c).run = .stopped ∧
             t.creg = { r with busy := false, status := 3, aflt := false, need := need, col := none } ∧
             t.mem = v.mem ∧ t.blocks = v.blocks ∧ t.groups = v.groups) ∧
           (areaTotal ss ≤ r.alen.toNat * 2 ^ 20 → ∀ w,
             ((areaWrite (ctxWho c) r.area.toNat (v.areaHeader c ss 1) (areaBody ss)).on v = (.ok (), w) →
               ∃ t, exec .ctxPreemptSave s = .next t ∧ (t.cx c).run = .saved ∧
                 t.creg = { r with busy := false, status := 1, need := need, col := none } ∧ t.mem = w.mem ∧ t.tasks = w.tasks ∧
                 t.counters = w.counters ∧ t.graphs = w.graphs ∧ (∀ b ∈ t.blocks, b.ctx ≠ c) ∧ (∀ g ∈ t.groups, g.ctx ≠ c)) ∧
             (∀ e, (areaWrite (ctxWho c) r.area.toNat (v.areaHeader c ss 1) (areaBody ss)).on v = (.error (.trap e), w) →
               ∃ t, exec .ctxPreemptSave s = .next t ∧ (t.cx c).run = .stopped ∧ t.creg.status = 3 ∧ t.creg.aflt = true ∧
                 t.creg.busy = false ∧ t.mem = w.mem ∧ t.blocks = w.blocks ∧ t.groups = w.groups)))))) ∧
  (∀ (s v : State), s.again = true →
     let u := { s with again := false }
     let c := s.creg.ctx
     let ends (i : Instr) (status : BitVec 3) (w : State) := ∃ t, exec i s = .next t ∧ t.creg.status = status ∧ t.creg.busy = false ∧
       t.creg.col = none ∧ t.mem = w.mem ∧ t.groups = w.groups ∧ t.g = w.g ∧ t.blocks = w.blocks ∧ t.tasks = w.tasks ∧ t.ctxs = w.ctxs
     (s.ctxLive c = true → ends .ctxRestore 2 s) ∧
     (s.ctxLive c = false →
       (∀ ws, u.readArea.on u = (.ok (ws, false), v) → ends .ctxRestore 2 v) ∧
       (∀ ws, u.readArea.on u = (.ok (ws, true), v) → parseArea ws = none → ends .ctxRestore 2 v) ∧
       (∀ ws a, u.readArea.on u = (.ok (ws, true), v) → parseArea ws = some a →
         (∀ n, v.limitOf a = some n → ends .ctxRestore 5 v ∧ (v.err.queue.length < 64 → ∀ t, exec .ctxRestore s = .next t →
           ∃ r, t.err.queue = v.err.queue ++ [r] ∧ r.cause = 0x31 ∧ r.sub = n ∧ r.ctx = some v.creg.ctx)) ∧
         (v.limitOf a = none → ∃ t, exec .ctxRestore s = .next t ∧ t.creg.busy = v.creg.busy ∧ (t.creg.col.map (·.cmd)) = some 5 ∧
           t.mem = v.mem ∧ t.groups = v.groups ∧ t.g = v.g ∧ t.blocks = v.blocks ∧ t.tasks = v.tasks)) ∧
       (∀ e, u.readArea.on u = (.error (.trap e), v) →
         (e.code = cXLATE → ends .ctxRestore 2 v) ∧
         (e.code ≠ cXLATE → ∀ z w, (setAreaState v 3).on v = (z, w) → z ≠ .error .wait → ∃ t, exec .ctxRestore s = .next t ∧ t.creg.status = 4 ∧
           t.creg.busy = false ∧ t.mem = w.mem ∧ (∀ b ∈ t.blocks, b.ctx ≠ v.creg.ctx) ∧ (∀ g ∈ t.groups, g.ctx ≠ v.creg.ctx) ∧
           (w.err.queue.length < 64 → ∃ r q, t.err.queue = w.err.queue ++ [r] ++ q ∧ r.cause = 0x30 ∧ r.repair = 9)))) ∧
     ((s.creg.col.map (·.cmd)) ≠ some 5 → exec .ctxRestoreLoad s = .next s) ∧
     ((s.creg.col.map (·.cmd)) = some 5 → ∀ a, s.loadItems.on s = (.ok (some a), v) →
       let x := v.loadRegs a
       (v.loadArea a [] = none → exec .ctxRestoreLoad s = .next v) ∧
       (a.state = 4 → a.saved.ctx.dln.getLsbD 63 = true →
         (x.cx v.creg.ctx).dln = BitVec.ofNat 64 (2 ^ 63 + (v.rtc.toNat + a.saved.rem) % 2 ^ 63)) ∧
       (∀ progs ns w t, v.loadArea a [] ≠ none → (x.loadReads a).on x = (.ok (progs, ns), w) → w.loadArea a progs = some t →
         ∃ y, exec .ctxRestoreLoad s = .next y ∧ y.creg.status = 1 ∧ y.creg.busy = false ∧ (y.cx t.creg.ctx).run = .running ∧
           (y.cx t.creg.ctx).late = [] ∧ y.mem = w.mem)) ∧
     (∀ e, (areaGet (ctxWho c) s.creg.area.toNat 64).on u = (.error (.trap e), v) → ends .ctxRelease 2 v) ∧
     (∀ h, (areaGet (ctxWho c) s.creg.area.toNat 64).on u = (.ok h, v) →
       let d := v.creg.ctx
       (v.releasable h = false ∨ (v.cx d).run ≠ .saved → ends .ctxRelease 2 v) ∧
       (v.releasable h = true → (v.cx d).run = .saved → ∀ rest w,
         (areaRest (ctxWho d) v.creg.area.toNat (roundup (h.getD 2 0) 64)).on v = (.ok rest, w) →
         let sections := bits (h.getD 1 0) 63 32
         ((∃ o ∈ rest.2, o < dirEnd sections) → ends .ctxRelease 2 w) ∧
         ((∀ o ∈ rest.2, dirEnd sections ≤ o) →
           let r := w.creg
           let ss := w.releaseSections r.ctx (areaSections (h ++ rest.1))
           (r.alen.toNat * 2 ^ 20 < areaTotal ss → ends .ctxRelease 3 w) ∧
           (areaTotal ss ≤ r.alen.toNat * 2 ^ 20 → ∀ x,
             (areaWrite (ctxWho r.ctx) r.area.toNat (modifyAt (fun _ => h.getD 3 0) (w.areaHeader r.ctx ss 4) 3) (areaBody ss)).on w =
               (.ok (), x) →
             ∃ t, exec .ctxRelease s = .next t ∧ t.creg.status = 1 ∧ t.creg.busy = false ∧ (t.cx r.ctx).run = .saved ∧
               t.mem = (rest.2.foldl (fun s o => s.loseSector (r.area.toNat + o + (dirEnd ss.length - dirEnd sections))) x).mem ∧
               (t.cx r.ctx).dln = 0 ∧ (∀ k ∈ t.tasks, k.ctx ≠ r.ctx) ∧ (∀ g ∈ t.graphs, g.ctx ≠ r.ctx)))))) ∧
  (∀ s : State, s.busTakes .svcrel →
     let v := bits s.bus.value 63 0
     (s.svcLanes s.bus = none → exec .svcrelResume s = .next s ∧ exec .svcrelKill s = .next s) ∧
     ∀ g m, s.svcLanes s.bus = some (g, m) →
       g ∈ s.allGroups ∧ m ≠ 0 ∧
       (∀ l, m.getLsbD l = true ↔ l < g.width ∧ l < 128 ∧ (g.lane l).st = .service ∧ (g.lane l).lpc = s.creg.svcpc) ∧
       (s.bus.mask = 2 ^ 64 - 1 → s.bus.value < 2 ^ 64 → g.core = bits v 62 58 ∧ g.slot = bits v 57 52 ∧ g.ctx.toNat = bits v 31 0) ∧
       (let x := g.modLanes m fun _ a => a.resume s.creg.svctgt
        (∀ l, m.getLsbD l = true → (g.lane l).stepDue = false → l < g.lanes.length → (x.lane l).st = .eligible ∧ (x.lane l).lpc = s.creg.svctgt ∧
          (x.lane l).yld = false) ∧
        (∀ l, m.getLsbD l = false → x.lane l = g.lane l) ∧
        exec .svcrelResume s = .next (s.mapGroup g.task g.block g.index fun y => y.modLanes m fun _ a => a.resume s.creg.svctgt).settle) ∧
       exec .svcrelKill s = .next ((((s.mapGroup g.task g.block g.index fun y => y.endLanes m .killed).modTask g.task
         fun t => { t with ended := true }).barriers g.task g.block).settle))

/-! ## Memory stays in its canonical form -/

/-- Every step keeps device memory, host memory and the scratchpads in canonical form: addresses rising, and no zero byte listed. -/
def Obligations.StepsKeepMemoryCanonical : Prop :=
  ∀ s t : State, Memory.wf s.mem = true → Memory.wf s.hostmem = true → Memory.wf s.sp = true → step s = .next t →
    Memory.wf t.mem = true ∧ Memory.wf t.hostmem = true ∧ Memory.wf t.sp = true
end

