-- ==== Sys2Proof/Laws/Exec.lean ====
section
/-! SUPPORT. The equations of exec, one for each instruction. -/
namespace Sys2Proof.Machine

@[simp] theorem exec_thermalShutdown {sensor temp} {s : State} : exec (.thermalShutdown sensor temp) s = execThermalShutdown sensor temp s := rfl
@[simp] theorem exec_arbiterWindow {temp} {s : State} : exec (.arbiterWindow temp) s = execArbiterWindow temp s := rfl
@[simp] theorem exec_hostWindowRead {off len} {s : State} : exec (.hostWindowRead off len) s = execHostWindowRead off len s := rfl
@[simp] theorem exec_hostWindowWrite {off data} {s : State} : exec (.hostWindowWrite off data) s = execHostWindowWrite off data s := rfl
@[simp] theorem exec_sectorRead {sector ctx} {s : State} : exec (.sectorRead sector ctx) s = execSectorRead sector ctx s := rfl
@[simp] theorem exec_sectorWrite {sector mask data ctx} {s : State} : exec (.sectorWrite sector mask data ctx) s = execSectorWrite sector mask data ctx s := rfl
@[simp] theorem exec_scrubSector {ch} {s : State} : exec (.scrubSector ch) s = execScrubSector ch s := rfl
@[simp] theorem exec_memoryRetrain {ch bad} {s : State} : exec (.memoryRetrain ch bad) s = execMemoryRetrain ch bad s := rfl
@[simp] theorem exec_mrepCommandComplete {ch} {s : State} : exec (.mrepCommandComplete ch) s = execMrepCommandComplete ch s := rfl
@[simp] theorem exec_linkLaneFailure {link} {s : State} : exec (.linkLaneFailure link) s = execLinkLaneFailure link s := rfl
@[simp] theorem exec_linkTrained {link width rate peer plink} {s : State} : exec (.linkTrained link width rate peer plink) s = execLinkTrained link width rate peer plink s := rfl
@[simp] theorem exec_flitReceive {link flit} {s : State} : exec (.flitReceive link flit) s = execFlitReceive link flit s := rfl
@[simp] theorem exec_replayRequest {link seq} {s : State} : exec (.replayRequest link seq) s = execReplayRequest link seq s := rfl
@[simp] theorem exec_retryBackoffExpiry {txid} {s : State} : exec (.retryBackoffExpiry txid) s = execRetryBackoffExpiry txid s := rfl
@[simp] theorem exec_deviceLossTimeout {dev} {s : State} : exec (.deviceLossTimeout dev) s = execDeviceLossTimeout dev s := rfl
@[simp] theorem exec_l2Evict {dpa} {s : State} : exec (.l2Evict dpa) s = execL2Evict dpa s := rfl
@[simp] theorem exec_l1DirtyTimeout {core sector} {s : State} : exec (.l1DirtyTimeout core sector) s = execL1DirtyTimeout core sector s := rfl
@[simp] theorem exec_ringEntryFetch {n} {s : State} : exec (.ringEntryFetch n) s = execRingEntryFetch n s := rfl
@[simp] theorem exec_completionRecordWrite {n} {s : State} : exec (.completionRecordWrite n) s = execCompletionRecordWrite n s := rfl
@[simp] theorem exec_corePull {core} {s : State} : exec (.corePull core) s = execCorePull core s := rfl
@[simp] theorem exec_clauseIssue {core quad} {s : State} : exec (.clauseIssue core quad) s = execClauseIssue core quad s := rfl
@[simp] theorem exec_blockRetire {launch block} {s : State} : exec (.blockRetire launch block) s = execBlockRetire launch block s := rfl
@[simp] theorem exec_launchComplete {launch} {s : State} : exec (.launchComplete launch) s = execLaunchComplete launch s := rfl
@[simp] theorem exec_detCommit {launch block} {s : State} : exec (.detCommit launch block) s = execDetCommit launch block s := rfl
@[simp] theorem exec_nodeLaunch {graph} {s : State} : exec (.nodeLaunch graph) s = execNodeLaunch graph s := rfl
@[simp] theorem exec_nodeJoin {graph} {s : State} : exec (.nodeJoin graph) s = execNodeJoin graph s := rfl
@[simp] theorem exec_nodeCond {graph} {s : State} : exec (.nodeCond graph) s = execNodeCond graph s := rfl
@[simp] theorem exec_nodeWhile {graph} {s : State} : exec (.nodeWhile graph) s = execNodeWhile graph s := rfl
@[simp] theorem exec_nodeEndw {graph} {s : State} : exec (.nodeEndw graph) s = execNodeEndw graph s := rfl
@[simp] theorem exec_nodeStore {graph} {s : State} : exec (.nodeStore graph) s = execNodeStore graph s := rfl
@[simp] theorem exec_nodeDecr {graph} {s : State} : exec (.nodeDecr graph) s = execNodeDecr graph s := rfl
@[simp] theorem exec_nodeWaitd {graph} {s : State} : exec (.nodeWaitd graph) s = execNodeWaitd graph s := rfl
@[simp] theorem exec_nodeEnd {graph} {s : State} : exec (.nodeEnd graph) s = execNodeEnd graph s := rfl
@[simp] theorem exec_nodeInvalid {graph} {s : State} : exec (.nodeInvalid graph) s = execNodeInvalid graph s := rfl
@[simp] theorem exec_watchdogExpiry {core} {s : State} : exec (.watchdogExpiry core) s = execWatchdogExpiry core s := rfl
@[simp] theorem exec_tileFlushTimer {queue} {s : State} : exec (.tileFlushTimer queue) s = execTileFlushTimer queue s := rfl
@[simp] theorem exec_deadlineExpiry {ctx} {s : State} : exec (.deadlineExpiry ctx) s = execDeadlineExpiry ctx s := rfl
@[simp] theorem exec_mmaKstep {core} {s : State} : exec (.mmaKstep core) s = execMmaKstep core s := rfl
@[simp] theorem exec_drainElement {core} {s : State} : exec (.drainElement core) s = execDrainElement core s := rfl
@[simp] theorem exec_copyChunk {core ch} {s : State} : exec (.copyChunk core ch) s = execCopyChunk core ch s := rfl
@[simp] theorem exec_spatialQuery {atoll} {s : State} : exec (.spatialQuery atoll) s = execSpatialQuery atoll s := rfl
@[simp] theorem exec_spatialStepBody {atoll} {s : State} : exec (.spatialStepBody atoll) s = execSpatialStepBody atoll s := rfl
@[simp] theorem exec_engineAcknowledge {e} {s : State} : exec (.engineAcknowledge e) s = execEngineAcknowledge e s := rfl
@[simp] theorem exec_tlbinvPage {asn vpn} {s : State} : exec (.tlbinvPage asn vpn) s = execTlbinvPage asn vpn s := rfl
@[simp] theorem exec_tlbinvAsn {asn} {s : State} : exec (.tlbinvAsn asn) s = execTlbinvAsn asn s := rfl
@[simp] theorem exec_gqdBind {ctx n desc} {s : State} : exec (.gqdBind ctx n desc) s = execGqdBind ctx n desc s := rfl
@[simp] theorem exec_gqdUnbind {n} {s : State} : exec (.gqdUnbind n) s = execGqdUnbind n s := rfl
@[simp] theorem exec_pldBind {ctx n desc} {s : State} : exec (.pldBind ctx n desc) s = execPldBind ctx n desc s := rfl
@[simp] theorem exec_pldUnbind {n} {s : State} : exec (.pldUnbind n) s = execPldUnbind n s := rfl
@[simp] theorem exec_nop {h} {s : State} : exec (.nop h) s = execNop h s := rfl
@[simp] theorem exec_bra {h imm} {s : State} : exec (.bra h imm) s = execBra h imm s := rfl
@[simp] theorem exec_brx {h a} {s : State} : exec (.brx h a) s = execBrx h a s := rfl
@[simp] theorem exec_call {h imm} {s : State} : exec (.call h imm) s = execCall h imm s := rfl
@[simp] theorem exec_callx {h a} {s : State} : exec (.callx h a) s = execCallx h a s := rfl
@[simp] theorem exec_ret {h} {s : State} : exec (.ret h) s = execRet h s := rfl
@[simp] theorem exec_exit {h} {s : State} : exec (.exit h) s = execExit h s := rfl
@[simp] theorem exec_yield {h} {s : State} : exec (.yield h) s = execYield h s := rfl
@[simp] theorem exec_jmark {h j} {s : State} : exec (.jmark h j) s = execJmark h j s := rfl
@[simp] theorem exec_jwait {h j} {s : State} : exec (.jwait h j) s = execJwait h j s := rfl
@[simp] theorem exec_bar {h b} {s : State} : exec (.bar h b) s = execBar h b s := rfl
@[simp] theorem exec_abar {h b} {s : State} : exec (.abar h b) s = execAbar h b s := rfl
@[simp] theorem exec_chkc {h} {s : State} : exec (.chkc h) s = execChkc h s := rfl
@[simp] theorem exec_bkpt {h} {s : State} : exec (.bkpt h) s = execBkpt h s := rfl
@[simp] theorem exec_trap {h code} {s : State} : exec (.trap h code) s = execTrap h code s := rfl
@[simp] theorem exec_trapSvc {h n} {s : State} : exec (.trapSvc h n) s = execTrapSvc h n s := rfl
@[simp] theorem exec_pseti {h d a b c cmp n} {s : State} : exec (.pseti h d a b c cmp n) s = execPseti h d a b c cmp n s := rfl
@[simp] theorem exec_psetiImm {h d a cmp n imm} {s : State} : exec (.psetiImm h d a cmp n imm) s = execPsetiImm h d a cmp n imm s := rfl
@[simp] theorem exec_psetf {h d a b c cmp} {s : State} : exec (.psetf h d a b c cmp) s = execPsetf h d a b c cmp s := rfl
@[simp] theorem exec_plop {h d a b lut} {s : State} : exec (.plop h d a b lut) s = execPlop h d a b lut s := rfl
@[simp] theorem exec_pmov {h op} {s : State} : exec (.pmov h op) s = execPmov h op s := rfl
@[simp] theorem exec_vote {h op a} {s : State} : exec (.vote h op a) s = execVote h op a s := rfl
@[simp] theorem exec_kmov {h d a w64} {s : State} : exec (.kmov h d a w64) s = execKmov h d a w64 s := rfl
@[simp] theorem exec_kmovImm {h d imm} {s : State} : exec (.kmovImm h d imm) s = execKmovImm h d imm s := rfl
@[simp] theorem exec_kadd {h d a b n sat w64} {s : State} : exec (.kadd h d a b n sat w64) s = execKadd h d a b n sat w64 s := rfl
@[simp] theorem exec_kaddImm {h d a imm} {s : State} : exec (.kaddImm h d a imm) s = execKaddImm h d a imm s := rfl
@[simp] theorem exec_ksub {h d a b n sat w64} {s : State} : exec (.ksub h d a b n sat w64) s = execKsub h d a b n sat w64 s := rfl
@[simp] theorem exec_kmul {h d a b n sat} {s : State} : exec (.kmul h d a b n sat) s = execKmul h d a b n sat s := rfl
@[simp] theorem exec_kmin {h d a b n} {s : State} : exec (.kmin h d a b n) s = execKmin h d a b n s := rfl
@[simp] theorem exec_kmax {h d a b n} {s : State} : exec (.kmax h d a b n) s = execKmax h d a b n s := rfl
@[simp] theorem exec_kand {h d a b} {s : State} : exec (.kand h d a b) s = execKand h d a b s := rfl
@[simp] theorem exec_kor {h d a b} {s : State} : exec (.kor h d a b) s = execKor h d a b s := rfl
@[simp] theorem exec_kxor {h d a b} {s : State} : exec (.kxor h d a b) s = execKxor h d a b s := rfl
@[simp] theorem exec_kshl {h d a b n sat} {s : State} : exec (.kshl h d a b n sat) s = execKshl h d a b n sat s := rfl
@[simp] theorem exec_kshr {h d a b} {s : State} : exec (.kshr h d a b) s = execKshr h d a b s := rfl
@[simp] theorem exec_ksar {h d a b} {s : State} : exec (.ksar h d a b) s = execKsar h d a b s := rfl
@[simp] theorem exec_kcmp {h d a b cmp n} {s : State} : exec (.kcmp h d a b cmp n) s = execKcmp h d a b cmp n s := rfl
@[simp] theorem exec_ksel {h d a b c} {s : State} : exec (.ksel h d a b c) s = execKsel h d a b c s := rfl
@[simp] theorem exec_mov {h d a w64} {s : State} : exec (.mov h d a w64) s = execMov h d a w64 s := rfl
@[simp] theorem exec_movImm {h d imm} {s : State} : exec (.movImm h d imm) s = execMovImm h d imm s := rfl
@[simp] theorem exec_sel {h d a b c} {s : State} : exec (.sel h d a b c) s = execSel h d a b c s := rfl
@[simp] theorem exec_iadd {h d a b n sat} {s : State} : exec (.iadd h d a b n sat) s = execIadd h d a b n sat s := rfl
@[simp] theorem exec_iaddImm {h d a imm} {s : State} : exec (.iaddImm h d a imm) s = execIaddImm h d a imm s := rfl
@[simp] theorem exec_isub {h d a b n sat} {s : State} : exec (.isub h d a b n sat) s = execIsub h d a b n sat s := rfl
@[simp] theorem exec_imul {h d a b n sat} {s : State} : exec (.imul h d a b n sat) s = execImul h d a b n sat s := rfl
@[simp] theorem exec_imulImm {h d a imm} {s : State} : exec (.imulImm h d a imm) s = execImulImm h d a imm s := rfl
@[simp] theorem exec_imulh {h d a b n} {s : State} : exec (.imulh h d a b n) s = execImulh h d a b n s := rfl
@[simp] theorem exec_imad {h d a b c n sat} {s : State} : exec (.imad h d a b c n sat) s = execImad h d a b c n sat s := rfl
@[simp] theorem exec_imadw {h d a b c n sat} {s : State} : exec (.imadw h d a b c n sat) s = execImadw h d a b c n sat s := rfl
@[simp] theorem exec_imin {h d a b n} {s : State} : exec (.imin h d a b n) s = execImin h d a b n s := rfl
@[simp] theorem exec_imax {h d a b n} {s : State} : exec (.imax h d a b n) s = execImax h d a b n s := rfl
@[simp] theorem exec_iabs {h d a sat} {s : State} : exec (.iabs h d a sat) s = execIabs h d a sat s := rfl
@[simp] theorem exec_ineg {h d a sat} {s : State} : exec (.ineg h d a sat) s = execIneg h d a sat s := rfl
@[simp] theorem exec_iand {h d a b} {s : State} : exec (.iand h d a b) s = execIand h d a b s := rfl
@[simp] theorem exec_iandImm {h d a imm} {s : State} : exec (.iandImm h d a imm) s = execIandImm h d a imm s := rfl
@[simp] theorem exec_ior {h d a b} {s : State} : exec (.ior h d a b) s = execIor h d a b s := rfl
@[simp] theorem exec_iorImm {h d a imm} {s : State} : exec (.iorImm h d a imm) s = execIorImm h d a imm s := rfl
@[simp] theorem exec_ixor {h d a b} {s : State} : exec (.ixor h d a b) s = execIxor h d a b s := rfl
@[simp] theorem exec_ixorImm {h d a imm} {s : State} : exec (.ixorImm h d a imm) s = execIxorImm h d a imm s := rfl
@[simp] theorem exec_inot {h d a} {s : State} : exec (.inot h d a) s = execInot h d a s := rfl
@[simp] theorem exec_ishl {h d a b n sat} {s : State} : exec (.ishl h d a b n sat) s = execIshl h d a b n sat s := rfl
@[simp] theorem exec_ishlImm {h d a imm} {s : State} : exec (.ishlImm h d a imm) s = execIshlImm h d a imm s := rfl
@[simp] theorem exec_ishr {h d a b} {s : State} : exec (.ishr h d a b) s = execIshr h d a b s := rfl
@[simp] theorem exec_ishrImm {h d a imm} {s : State} : exec (.ishrImm h d a imm) s = execIshrImm h d a imm s := rfl
@[simp] theorem exec_isar {h d a b} {s : State} : exec (.isar h d a b) s = execIsar h d a b s := rfl
@[simp] theorem exec_isarImm {h d a imm} {s : State} : exec (.isarImm h d a imm) s = execIsarImm h d a imm s := rfl
@[simp] theorem exec_irot {h d a b} {s : State} : exec (.irot h d a b) s = execIrot h d a b s := rfl
@[simp] theorem exec_popc {h d a} {s : State} : exec (.popc h d a) s = execPopc h d a s := rfl
@[simp] theorem exec_clz {h d a} {s : State} : exec (.clz h d a) s = execClz h d a s := rfl
@[simp] theorem exec_brev {h d a} {s : State} : exec (.brev h d a) s = execBrev h d a s := rfl
@[simp] theorem exec_bfe {h d a b n} {s : State} : exec (.bfe h d a b n) s = execBfe h d a b n s := rfl
@[simp] theorem exec_bfi {h d a b c} {s : State} : exec (.bfi h d a b c) s = execBfi h d a b c s := rfl
@[simp] theorem exec_iadd64 {h d a b n sat} {s : State} : exec (.iadd64 h d a b n sat) s = execIadd64 h d a b n sat s := rfl
@[simp] theorem exec_isub64 {h d a b n sat} {s : State} : exec (.isub64 h d a b n sat) s = execIsub64 h d a b n sat s := rfl
@[simp] theorem exec_iclamp {h d a b c n} {s : State} : exec (.iclamp h d a b c n) s = execIclamp h d a b c n s := rfl
@[simp] theorem exec_padd16 {h d a b sat sub} {s : State} : exec (.padd16 h d a b sat sub) s = execPadd16 h d a b sat sub s := rfl
@[simp] theorem exec_pmac16 {h d a b c} {s : State} : exec (.pmac16 h d a b c) s = execPmac16 h d a b c s := rfl
@[simp] theorem exec_pshr {h d a b hi} {s : State} : exec (.pshr h d a b hi) s = execPshr h d a b hi s := rfl
@[simp] theorem exec_hash {h d a b} {s : State} : exec (.hash h d a b) s = execHash h d a b s := rfl
@[simp] theorem exec_lxch {h d a b seg mode} {s : State} : exec (.lxch h d a b seg mode) s = execLxch h d a b seg mode s := rfl
@[simp] theorem exec_slide {h d a b c} {s : State} : exec (.slide h d a b c) s = execSlide h d a b c s := rfl
@[simp] theorem exec_red {h d a seg op n sat} {s : State} : exec (.red h d a seg op n sat) s = execRed h d a seg op n sat s := rfl
@[simp] theorem exec_scan {h d a seg excl op n sat} {s : State} : exec (.scan h d a seg excl op n sat) s = execScan h d a seg excl op n sat s := rfl
@[simp] theorem exec_bcast {h d a b} {s : State} : exec (.bcast h d a b) s = execBcast h d a b s := rfl
@[simp] theorem exec_krdl {h d a b} {s : State} : exec (.krdl h d a b) s = execKrdl h d a b s := rfl
@[simp] theorem exec_fadd {h d a b rm sat} {s : State} : exec (.fadd h d a b rm sat) s = execFadd h d a b rm sat s := rfl
@[simp] theorem exec_fsub {h d a b rm sat} {s : State} : exec (.fsub h d a b rm sat) s = execFsub h d a b rm sat s := rfl
@[simp] theorem exec_fmul {h d a b rm sat} {s : State} : exec (.fmul h d a b rm sat) s = execFmul h d a b rm sat s := rfl
@[simp] theorem exec_ffma {h d a b c rm sat} {s : State} : exec (.ffma h d a b c rm sat) s = execFfma h d a b c rm sat s := rfl
@[simp] theorem exec_fdiv {h d a b rm sat} {s : State} : exec (.fdiv h d a b rm sat) s = execFdiv h d a b rm sat s := rfl
@[simp] theorem exec_fmin {h d a b} {s : State} : exec (.fmin h d a b) s = execFmin h d a b s := rfl
@[simp] theorem exec_fmax {h d a b} {s : State} : exec (.fmax h d a b) s = execFmax h d a b s := rfl
@[simp] theorem exec_fabs {h d a} {s : State} : exec (.fabs h d a) s = execFabs h d a s := rfl
@[simp] theorem exec_fneg {h d a} {s : State} : exec (.fneg h d a) s = execFneg h d a s := rfl
@[simp] theorem exec_frnd {h d a rm} {s : State} : exec (.frnd h d a rm) s = execFrnd h d a rm s := rfl
@[simp] theorem exec_fscale {h d a b rm sat} {s : State} : exec (.fscale h d a b rm sat) s = execFscale h d a b rm sat s := rfl
@[simp] theorem exec_fclass {h d a} {s : State} : exec (.fclass h d a) s = execFclass h d a s := rfl
@[simp] theorem exec_frcp {h d a rm sat} {s : State} : exec (.frcp h d a rm sat) s = execFrcp h d a rm sat s := rfl
@[simp] theorem exec_frsq {h d a rm sat} {s : State} : exec (.frsq h d a rm sat) s = execFrsq h d a rm sat s := rfl
@[simp] theorem exec_fsqrt {h d a rm sat} {s : State} : exec (.fsqrt h d a rm sat) s = execFsqrt h d a rm sat s := rfl
@[simp] theorem exec_fexp2 {h d a rm sat} {s : State} : exec (.fexp2 h d a rm sat) s = execFexp2 h d a rm sat s := rfl
@[simp] theorem exec_flog2 {h d a rm sat} {s : State} : exec (.flog2 h d a rm sat) s = execFlog2 h d a rm sat s := rfl
@[simp] theorem exec_fsin {h d a rm sat} {s : State} : exec (.fsin h d a rm sat) s = execFsin h d a rm sat s := rfl
@[simp] theorem exec_fcos {h d a rm sat} {s : State} : exec (.fcos h d a rm sat) s = execFcos h d a rm sat s := rfl
@[simp] theorem exec_hadd2 {h d a b rm sat f16} {s : State} : exec (.hadd2 h d a b rm sat f16) s = execHadd2 h d a b rm sat f16 s := rfl
@[simp] theorem exec_hsub2 {h d a b rm sat f16} {s : State} : exec (.hsub2 h d a b rm sat f16) s = execHsub2 h d a b rm sat f16 s := rfl
@[simp] theorem exec_hmul2 {h d a b rm sat f16} {s : State} : exec (.hmul2 h d a b rm sat f16) s = execHmul2 h d a b rm sat f16 s := rfl
@[simp] theorem exec_hfma2 {h d a b c rm sat f16} {s : State} : exec (.hfma2 h d a b c rm sat f16) s = execHfma2 h d a b c rm sat f16 s := rfl
@[simp] theorem exec_hmin2 {h d a b f16} {s : State} : exec (.hmin2 h d a b f16) s = execHmin2 h d a b f16 s := rfl
@[simp] theorem exec_hmax2 {h d a b f16} {s : State} : exec (.hmax2 h d a b f16) s = execHmax2 h d a b f16 s := rfl
@[simp] theorem exec_hdot2 {h d a b c rm sat f16} {s : State} : exec (.hdot2 h d a b c rm sat f16) s = execHdot2 h d a b c rm sat f16 s := rfl
@[simp] theorem exec_cvt {h d a dfmt sfmt spos rm sat} {s : State} : exec (.cvt h d a dfmt sfmt spos rm sat) s = execCvt h d a dfmt sfmt spos rm sat s := rfl
@[simp] theorem exec_cvt2 {h d a b dfmt sfmt dpos rm sat} {s : State} : exec (.cvt2 h d a b dfmt sfmt dpos rm sat) s = execCvt2 h d a b dfmt sfmt dpos rm sat s := rfl
@[simp] theorem exec_ld {h sz d adr ann pf} {s : State} : exec (.ld h sz d adr ann pf) s = execLd h sz d adr ann pf s := rfl
@[simp] theorem exec_st {h sz d adr ann} {s : State} : exec (.st h sz d adr ann) s = execSt h sz d adr ann s := rfl
@[simp] theorem exec_lds {h sz d adr ann} {s : State} : exec (.lds h sz d adr ann) s = execLds h sz d adr ann s := rfl
@[simp] theorem exec_sts {h sz d adr ann} {s : State} : exec (.sts h sz d adr ann) s = execSts h sz d adr ann s := rfl
@[simp] theorem exec_ldk {h w64 d adr ann} {s : State} : exec (.ldk h w64 d adr ann) s = execLdk h w64 d adr ann s := rfl
@[simp] theorem exec_pref {h l2 adr} {s : State} : exec (.pref h l2 adr) s = execPref h l2 adr s := rfl
@[simp] theorem exec_cctl {h op} {s : State} : exec (.cctl h op) s = execCctl h op s := rfl
@[simp] theorem exec_fence {h scope} {s : State} : exec (.fence h scope) s = execFence h scope s := rfl
@[simp] theorem exec_qfence {h mask scope} {s : State} : exec (.qfence h mask scope) s = execQfence h mask scope s := rfl
@[simp] theorem exec_atom {h op ty d a b c ord scope} {s : State} : exec (.atom h op ty d a b c ord scope) s = execAtom h op ty d a b c ord scope s := rfl
@[simp] theorem exec_atomFadd {h d a b ord scope} {s : State} : exec (.atomFadd h d a b ord scope) s = execAtomFadd h d a b ord scope s := rfl
@[simp] theorem exec_atoms {h op n d a b c ord} {s : State} : exec (.atoms h op n d a b c ord) s = execAtoms h op n d a b c ord s := rfl
@[simp] theorem exec_atomsFadd {h d a b ord} {s : State} : exec (.atomsFadd h d a b ord) s = execAtomsFadd h d a b ord s := rfl
@[simp] theorem exec_shape {h sh a b fmt} {s : State} : exec (.shape h sh a b fmt) s = execShape h sh a b fmt s := rfl
@[simp] theorem exec_shext {h sh a} {s : State} : exec (.shext h sh a) s = execShext h sh a s := rfl
@[simp] theorem exec_shq {h d sh} {s : State} : exec (.shq h d sh) s = execShq h d sh s := rfl
@[simp] theorem exec_wbld {h a b slot ch} {s : State} : exec (.wbld h a b slot ch) s = execWbld h a b slot ch s := rfl
@[simp] theorem exec_mma {h f a b sh pk twin z} {s : State} : exec (.mma h f a b sh pk twin z) s = execMma h f a b sh pk twin z s := rfl
@[simp] theorem exec_accrd {h d f b w4} {s : State} : exec (.accrd h d f b w4) s = execAccrd h d f b w4 s := rfl
@[simp] theorem exec_accwr {h f a b} {s : State} : exec (.accwr h f a b) s = execAccwr h f a b s := rfl
@[simp] theorem exec_accclr {h f} {s : State} : exec (.accclr h f) s = execAccclr h f s := rfl
@[simp] theorem exec_wmark {h d f} {s : State} : exec (.wmark h d f) s = execWmark h d f s := rfl
@[simp] theorem exec_drnld {h n} {s : State} : exec (.drnld h n) s = execDrnld h n s := rfl
@[simp] theorem exec_copy {h d a b ch} {s : State} : exec (.copy h d a b ch) s = execCopy h d a b ch s := rfl
@[simp] theorem exec_rdwpt {h d ch} {s : State} : exec (.rdwpt h d ch) s = execRdwpt h d ch s := rfl
@[simp] theorem exec_ringp {h ring op} {s : State} : exec (.ringp h ring op) s = execRingp h ring op s := rfl
@[simp] theorem exec_ringc {h ring op} {s : State} : exec (.ringc h ring op) s = execRingc h ring op s := rfl
@[simp] theorem exec_regacq {h a} {s : State} : exec (.regacq h a) s = execRegacq h a s := rfl
@[simp] theorem exec_regrel {h a} {s : State} : exec (.regrel h a) s = execRegrel h a s := rfl
@[simp] theorem exec_spawn {h a b c} {s : State} : exec (.spawn h a b c) s = execSpawn h a b c s := rfl
@[simp] theorem exec_enq {h a mode} {s : State} : exec (.enq h a mode) s = execEnq h a mode s := rfl
@[simp] theorem exec_decr {h a b} {s : State} : exec (.decr h a b) s = execDecr h a b s := rfl
@[simp] theorem exec_waitd {h a} {s : State} : exec (.waitd h a) s = execWaitd h a s := rfl
@[simp] theorem exec_leafq {h d a b sp} {s : State} : exec (.leafq h d a b sp) s = execLeafq h d a b sp s := rfl
@[simp] theorem exec_fres {h a b} {s : State} : exec (.fres h a b) s = execFres h a b s := rfl
@[simp] theorem exec_waitf {h d a c} {s : State} : exec (.waitf h d a c) s = execWaitf h d a c s := rfl
@[simp] theorem exec_testf {h d a} {s : State} : exec (.testf h d a) s = execTestf h d a s := rfl
@[simp] theorem exec_cqry {h d a b} {s : State} : exec (.cqry h d a b) s = execCqry h d a b s := rfl
@[simp] theorem exec_dstep {h d a} {s : State} : exec (.dstep h d a) s = execDstep h d a s := rfl
@[simp] theorem exec_poola {h d a c} {s : State} : exec (.poola h d a c) s = execPoola h d a c s := rfl
@[simp] theorem exec_poolf {h a b} {s : State} : exec (.poolf h a b) s = execPoolf h a b s := rfl
@[simp] theorem exec_poolft {h a b} {s : State} : exec (.poolft h a b) s = execPoolft h a b s := rfl
@[simp] theorem exec_bestupd {h a b c} {s : State} : exec (.bestupd h a b c) s = execBestupd h a b c s := rfl
@[simp] theorem exec_dlnset {h a} {s : State} : exec (.dlnset h a) s = execDlnset h a s := rfl
@[simp] theorem exec_dlnrd {h d} {s : State} : exec (.dlnrd h d) s = execDlnrd h d s := rfl
@[simp] theorem exec_cancel {h a} {s : State} : exec (.cancel h a) s = execCancel h a s := rfl
@[simp] theorem exec_movs {h sreg a} {s : State} : exec (.movs h sreg a) s = execMovs h sreg a s := rfl
@[simp] theorem exec_movsr {h d sreg} {s : State} : exec (.movsr h d sreg) s = execMovsr h d sreg s := rfl
@[simp] theorem exec_movq {h d adr} {s : State} : exec (.movq h d adr) s = execMovq h d adr s := rfl
@[simp] theorem exec_tret {h} {s : State} : exec (.tret h) s = execTret h s := rfl
@[simp] theorem exec_laneend {h} {s : State} : exec (.laneend h) s = execLaneend h s := rfl
@[simp] theorem exec_pkrd {h d a b} {s : State} : exec (.pkrd h d a b) s = execPkrd h d a b s := rfl
@[simp] theorem exec_pkwr {h a b c} {s : State} : exec (.pkwr h a b c) s = execPkwr h a b c s := rfl
@[simp] theorem exec_copyResume {launch block ch} {s : State} : exec (.copyResume launch block ch) s = execCopyResume launch block ch s := rfl
@[simp] theorem exec_drainResume {core frame} {s : State} : exec (.drainResume core frame) s = execDrainResume core frame s := rfl
@[simp] theorem exec_powerGoodRelease {s : State} : exec (.powerGoodRelease) s = execPowerGoodRelease s := rfl
@[simp] theorem exec_powerGoodLoss {s : State} : exec (.powerGoodLoss) s = execPowerGoodLoss s := rfl
@[simp] theorem exec_railSequenceFault {s : State} : exec (.railSequenceFault) s = execRailSequenceFault s := rfl
@[simp] theorem exec_boardReset {s : State} : exec (.boardReset) s = execBoardReset s := rfl
@[simp] theorem exec_perstDeassert {s : State} : exec (.perstDeassert) s = execPerstDeassert s := rfl
@[simp] theorem exec_boot {s : State} : exec (.boot) s = execBoot s := rfl
@[simp] theorem exec_lockstepMismatch {s : State} : exec (.lockstepMismatch) s = execLockstepMismatch s := rfl
@[simp] theorem exec_docentSafePoint {s : State} : exec (.docentSafePoint) s = execDocentSafePoint s := rfl
@[simp] theorem exec_docentQuiesceTimeout {s : State} : exec (.docentQuiesceTimeout) s = execDocentQuiesceTimeout s := rfl
@[simp] theorem exec_docentReady {s : State} : exec (.docentReady) s = execDocentReady s := rfl
@[simp] theorem exec_docentReadyTimeout {s : State} : exec (.docentReadyTimeout) s = execDocentReadyTimeout s := rfl
@[simp] theorem exec_errorRecordWrite {s : State} : exec (.errorRecordWrite) s = execErrorRecordWrite s := rfl
@[simp] theorem exec_trapRingWrite {s : State} : exec (.trapRingWrite) s = execTrapRingWrite s := rfl
@[simp] theorem exec_ctxRestoreLoad {s : State} : exec (.ctxRestoreLoad) s = execCtxRestoreLoad s := rfl
@[simp] theorem exec_tlbinvAll {s : State} : exec (.tlbinvAll) s = execTlbinvAll s := rfl
@[simp] theorem exec_pwrbudWrite {s : State} : exec (.pwrbudWrite) s = execPwrbudWrite s := rfl
@[simp] theorem exec_registerWrite {s : State} : exec (.registerWrite) s = execRegisterWrite s := rfl
@[simp] theorem exec_attest {s : State} : exec (.attest) s = execAttest s := rfl
@[simp] theorem exec_readIdentityCertificate {s : State} : exec (.readIdentityCertificate) s = execReadIdentityCertificate s := rfl
@[simp] theorem exec_replaceDocent {s : State} : exec (.replaceDocent) s = execReplaceDocent s := rfl
@[simp] theorem exec_replaceDocentAndWriteFlash {s : State} : exec (.replaceDocentAndWriteFlash) s = execReplaceDocentAndWriteFlash s := rfl
@[simp] theorem exec_installRecoveryBundle {s : State} : exec (.installRecoveryBundle) s = execInstallRecoveryBundle s := rfl
@[simp] theorem exec_fwmbxInvalidCommand {s : State} : exec (.fwmbxInvalidCommand) s = execFwmbxInvalidCommand s := rfl
@[simp] theorem exec_errctlWrite {s : State} : exec (.errctlWrite) s = execErrctlWrite s := rfl
@[simp] theorem exec_errbaseWrite {s : State} : exec (.errbaseWrite) s = execErrbaseWrite s := rfl
@[simp] theorem exec_softRowRepair {s : State} : exec (.softRowRepair) s = execSoftRowRepair s := rfl
@[simp] theorem exec_hardRowRepair {s : State} : exec (.hardRowRepair) s = execHardRowRepair s := rfl
@[simp] theorem exec_laneRemap {s : State} : exec (.laneRemap) s = execLaneRemap s := rfl
@[simp] theorem exec_clearPoison {s : State} : exec (.clearPoison) s = execClearPoison s := rfl
@[simp] theorem exec_retrain {s : State} : exec (.retrain) s = execRetrain s := rfl
@[simp] theorem exec_mrepInvalidCommand {s : State} : exec (.mrepInvalidCommand) s = execMrepInvalidCommand s := rfl
@[simp] theorem exec_sdomLeave {s : State} : exec (.sdomLeave) s = execSdomLeave s := rfl
@[simp] theorem exec_sdomJoin {s : State} : exec (.sdomJoin) s = execSdomJoin s := rfl
@[simp] theorem exec_migrationStart {s : State} : exec (.migrationStart) s = execMigrationStart s := rfl
@[simp] theorem exec_migrationRelease {s : State} : exec (.migrationRelease) s = execMigrationRelease s := rfl
@[simp] theorem exec_sqcfgWrite {s : State} : exec (.sqcfgWrite) s = execSqcfgWrite s := rfl
@[simp] theorem exec_sqDoorbell {s : State} : exec (.sqDoorbell) s = execSqDoorbell s := rfl
@[simp] theorem exec_cqctlWrite {s : State} : exec (.cqctlWrite) s = execCqctlWrite s := rfl
@[simp] theorem exec_trctlWrite {s : State} : exec (.trctlWrite) s = execTrctlWrite s := rfl
@[simp] theorem exec_trbaseWrite {s : State} : exec (.trbaseWrite) s = execTrbaseWrite s := rfl
@[simp] theorem exec_ctxPreemptSave {s : State} : exec (.ctxPreemptSave) s = execCtxPreemptSave s := rfl
@[simp] theorem exec_ctxRestore {s : State} : exec (.ctxRestore) s = execCtxRestore s := rfl
@[simp] theorem exec_ctxEnd {s : State} : exec (.ctxEnd) s = execCtxEnd s := rfl
@[simp] theorem exec_ctxRelease {s : State} : exec (.ctxRelease) s = execCtxRelease s := rfl
@[simp] theorem exec_ctxcmdInvalid {s : State} : exec (.ctxcmdInvalid) s = execCtxcmdInvalid s := rfl
@[simp] theorem exec_svcrelResume {s : State} : exec (.svcrelResume) s = execSvcrelResume s := rfl
@[simp] theorem exec_svcrelKill {s : State} : exec (.svcrelKill) s = execSvcrelKill s := rfl
@[simp] theorem exec_rds {s : State} : exec (.rds) s = execRds s := rfl
@[simp] theorem exec_rdx {s : State} : exec (.rdx) s = execRdx s := rfl
@[simp] theorem exec_wb {s : State} : exec (.wb) s = execWb s := rfl
@[simp] theorem exec_cln {s : State} : exec (.cln) s = execCln s := rfl
@[simp] theorem exec_atomMessage {s : State} : exec (.atomMessage) s = execAtomMessage s := rfl
@[simp] theorem exec_wrh {s : State} : exec (.wrh) s = execWrh s := rfl
@[simp] theorem exec_leave {s : State} : exec (.leave) s = execLeave s := rfl
@[simp] theorem exec_join {s : State} : exec (.join) s = execJoin s := rfl
@[simp] theorem exec_fwds {s : State} : exec (.fwds) s = execFwds s := rfl
@[simp] theorem exec_fwdx {s : State} : exec (.fwdx) s = execFwdx s := rfl
@[simp] theorem exec_inv {s : State} : exec (.inv) s = execInv s := rfl
@[simp] theorem exec_rcl {s : State} : exec (.rcl) s = execRcl s := rfl
@[simp] theorem exec_dats {s : State} : exec (.dats) s = execDats s := rfl
@[simp] theorem exec_date {s : State} : exec (.date) s = execDate s := rfl
@[simp] theorem exec_datm {s : State} : exec (.datm) s = execDatm s := rfl
@[simp] theorem exec_rcld {s : State} : exec (.rcld) s = execRcld s := rfl
@[simp] theorem exec_atomr {s : State} : exec (.atomr) s = execAtomr s := rfl
@[simp] theorem exec_invack {s : State} : exec (.invack) s = execInvack s := rfl
@[simp] theorem exec_fwdack {s : State} : exec (.fwdack) s = execFwdack s := rfl
@[simp] theorem exec_fwdmiss {s : State} : exec (.fwdmiss) s = execFwdmiss s := rfl
@[simp] theorem exec_wback {s : State} : exec (.wback) s = execWback s := rfl
@[simp] theorem exec_retry {s : State} : exec (.retry) s = execRetry s := rfl
@[simp] theorem exec_poisoned {s : State} : exec (.poisoned) s = execPoisoned s := rfl
@[simp] theorem exec_done {s : State} : exec (.done) s = execDone s := rfl
@[simp] theorem exec_unknownMessage {s : State} : exec (.unknownMessage) s = execUnknownMessage s := rfl

end Sys2Proof.Machine
end

