-- ==== Sys2Proof/Laws/State.lean ====
section
/-! SUPPORT. What each named update of the state leaves as it was: one lemma for each field and update. -/
namespace Sys2Proof.Machine

@[simp] theorem setCore_agenda (s : State) (c : Nat) (k : Core) : (s.setCore c k).agenda = s.agenda := rfl
@[simp] theorem setCore_tick (s : State) (c : Nat) (k : Core) : (s.setCore c k).tick = s.tick := rfl
@[simp] theorem setCore_freeCtr (s : State) (c : Nat) (k : Core) : (s.setCore c k).freeCtr = s.freeCtr := rfl
@[simp] theorem setCore_outbox (s : State) (c : Nat) (k : Core) : (s.setCore c k).outbox = s.outbox := rfl
@[simp] theorem setCore_bus (s : State) (c : Nat) (k : Core) : (s.setCore c k).bus = s.bus := rfl
@[simp] theorem setCore_rx (s : State) (c : Nat) (k : Core) : (s.setCore c k).rx = s.rx := rfl
@[simp] theorem setCore_g (s : State) (c : Nat) (k : Core) : (s.setCore c k).g = s.g := rfl
@[simp] theorem setCore_groups (s : State) (c : Nat) (k : Core) : (s.setCore c k).groups = s.groups := rfl
@[simp] theorem setCore_mem (s : State) (c : Nat) (k : Core) : (s.setCore c k).mem = s.mem := rfl
@[simp] theorem setCore_side (s : State) (c : Nat) (k : Core) : (s.setCore c k).side = s.side := rfl
@[simp] theorem setCore_hostmem (s : State) (c : Nat) (k : Core) : (s.setCore c k).hostmem = s.hostmem := rfl
@[simp] theorem setCore_sp (s : State) (c : Nat) (k : Core) : (s.setCore c k).sp = s.sp := rfl
@[simp] theorem setCore_l2 (s : State) (c : Nat) (k : Core) : (s.setCore c k).l2 = s.l2 := rfl
@[simp] theorem setCore_l1 (s : State) (c : Nat) (k : Core) : (s.setCore c k).l1 = s.l1 := rfl
@[simp] theorem setCore_tlb (s : State) (c : Nat) (k : Core) : (s.setCore c k).tlb = s.tlb := rfl
@[simp] theorem setCore_lagoon (s : State) (c : Nat) (k : Core) : (s.setCore c k).lagoon = s.lagoon := rfl
@[simp] theorem setCore_det (s : State) (c : Nat) (k : Core) : (s.setCore c k).det = s.det := rfl
@[simp] theorem setCore_ctxs (s : State) (c : Nat) (k : Core) : (s.setCore c k).ctxs = s.ctxs := rfl
@[simp] theorem setCore_tasks (s : State) (c : Nat) (k : Core) : (s.setCore c k).tasks = s.tasks := rfl
@[simp] theorem setCore_nextId (s : State) (c : Nat) (k : Core) : (s.setCore c k).nextId = s.nextId := rfl
@[simp] theorem setCore_blocks (s : State) (c : Nat) (k : Core) : (s.setCore c k).blocks = s.blocks := rfl
@[simp] theorem setCore_counters (s : State) (c : Nat) (k : Core) : (s.setCore c k).counters = s.counters := rfl
@[simp] theorem setCore_graphs (s : State) (c : Nat) (k : Core) : (s.setCore c k).graphs = s.graphs := rfl
@[simp] theorem setCore_sqs (s : State) (c : Nat) (k : Core) : (s.setCore c k).sqs = s.sqs := rfl
@[simp] theorem setCore_gqs (s : State) (c : Nat) (k : Core) : (s.setCore c k).gqs = s.gqs := rfl
@[simp] theorem setCore_pools (s : State) (c : Nat) (k : Core) : (s.setCore c k).pools = s.pools := rfl
@[simp] theorem setCore_spatial (s : State) (c : Nat) (k : Core) : (s.setCore c k).spatial = s.spatial := rfl
@[simp] theorem setCore_trap (s : State) (c : Nat) (k : Core) : (s.setCore c k).trap = s.trap := rfl
@[simp] theorem setCore_err (s : State) (c : Nat) (k : Core) : (s.setCore c k).err = s.err := rfl
@[simp] theorem setCore_rtc (s : State) (c : Nat) (k : Core) : (s.setCore c k).rtc = s.rtc := rfl
@[simp] theorem setCore_clk (s : State) (c : Nat) (k : Core) : (s.setCore c k).clk = s.clk := rfl
@[simp] theorem setCore_dcfg (s : State) (c : Nat) (k : Core) : (s.setCore c k).dcfg = s.dcfg := rfl
@[simp] theorem setCore_dcnt (s : State) (c : Nat) (k : Core) : (s.setCore c k).dcnt = s.dcnt := rfl
@[simp] theorem setCore_win (s : State) (c : Nat) (k : Core) : (s.setCore c k).win = s.win := rfl
@[simp] theorem setCore_hostq (s : State) (c : Nat) (k : Core) : (s.setCore c k).hostq = s.hostq := rfl
@[simp] theorem setCore_again (s : State) (c : Nat) (k : Core) : (s.setCore c k).again = s.again := rfl
@[simp] theorem setCore_links (s : State) (c : Nat) (k : Core) : (s.setCore c k).links = s.links := rfl
@[simp] theorem setCore_coh (s : State) (c : Nat) (k : Core) : (s.setCore c k).coh = s.coh := rfl
@[simp] theorem setCore_mscrub (s : State) (c : Nat) (k : Core) : (s.setCore c k).mscrub = s.mscrub := rfl
@[simp] theorem setCore_chans (s : State) (c : Nat) (k : Core) : (s.setCore c k).chans = s.chans := rfl
@[simp] theorem setCore_pwr (s : State) (c : Nat) (k : Core) : (s.setCore c k).pwr = s.pwr := rfl
@[simp] theorem setCore_cfg (s : State) (c : Nat) (k : Core) : (s.setCore c k).cfg = s.cfg := rfl
@[simp] theorem setCore_fw (s : State) (c : Nat) (k : Core) : (s.setCore c k).fw = s.fw := rfl
@[simp] theorem setCore_creg (s : State) (c : Nat) (k : Core) : (s.setCore c k).creg = s.creg := rfl
@[simp] theorem setCore_passed (s : State) (c : Nat) (k : Core) : (s.setCore c k).passed = s.passed := rfl
@[simp] theorem setCore_unrouted (s : State) (c : Nat) (k : Core) : (s.setCore c k).unrouted = s.unrouted := rfl
@[simp] theorem setCore_counted (s : State) (c : Nat) (k : Core) : (s.setCore c k).counted = s.counted := rfl
@[simp] theorem setCore_upsets (s : State) (c : Nat) (k : Core) : (s.setCore c k).upsets = s.upsets := rfl
@[simp] theorem setCore_kept (s : State) (c : Nat) (k : Core) : (s.setCore c k).kept = s.kept := rfl

@[simp] theorem modCore_agenda (s : State) (c : Nat) (f : Core → Core) : (s.modCore c f).agenda = s.agenda := rfl
@[simp] theorem modCore_tick (s : State) (c : Nat) (f : Core → Core) : (s.modCore c f).tick = s.tick := rfl
@[simp] theorem modCore_freeCtr (s : State) (c : Nat) (f : Core → Core) : (s.modCore c f).freeCtr = s.freeCtr := rfl
@[simp] theorem modCore_outbox (s : State) (c : Nat) (f : Core → Core) : (s.modCore c f).outbox = s.outbox := rfl
@[simp] theorem modCore_bus (s : State) (c : Nat) (f : Core → Core) : (s.modCore c f).bus = s.bus := rfl
@[simp] theorem modCore_rx (s : State) (c : Nat) (f : Core → Core) : (s.modCore c f).rx = s.rx := rfl
@[simp] theorem modCore_g (s : State) (c : Nat) (f : Core → Core) : (s.modCore c f).g = s.g := rfl
@[simp] theorem modCore_groups (s : State) (c : Nat) (f : Core → Core) : (s.modCore c f).groups = s.groups := rfl
@[simp] theorem modCore_mem (s : State) (c : Nat) (f : Core → Core) : (s.modCore c f).mem = s.mem := rfl
@[simp] theorem modCore_side (s : State) (c : Nat) (f : Core → Core) : (s.modCore c f).side = s.side := rfl
@[simp] theorem modCore_hostmem (s : State) (c : Nat) (f : Core → Core) : (s.modCore c f).hostmem = s.hostmem := rfl
@[simp] theorem modCore_sp (s : State) (c : Nat) (f : Core → Core) : (s.modCore c f).sp = s.sp := rfl
@[simp] theorem modCore_l2 (s : State) (c : Nat) (f : Core → Core) : (s.modCore c f).l2 = s.l2 := rfl
@[simp] theorem modCore_l1 (s : State) (c : Nat) (f : Core → Core) : (s.modCore c f).l1 = s.l1 := rfl
@[simp] theorem modCore_tlb (s : State) (c : Nat) (f : Core → Core) : (s.modCore c f).tlb = s.tlb := rfl
@[simp] theorem modCore_lagoon (s : State) (c : Nat) (f : Core → Core) : (s.modCore c f).lagoon = s.lagoon := rfl
@[simp] theorem modCore_det (s : State) (c : Nat) (f : Core → Core) : (s.modCore c f).det = s.det := rfl
@[simp] theorem modCore_ctxs (s : State) (c : Nat) (f : Core → Core) : (s.modCore c f).ctxs = s.ctxs := rfl
@[simp] theorem modCore_tasks (s : State) (c : Nat) (f : Core → Core) : (s.modCore c f).tasks = s.tasks := rfl
@[simp] theorem modCore_nextId (s : State) (c : Nat) (f : Core → Core) : (s.modCore c f).nextId = s.nextId := rfl
@[simp] theorem modCore_blocks (s : State) (c : Nat) (f : Core → Core) : (s.modCore c f).blocks = s.blocks := rfl
@[simp] theorem modCore_counters (s : State) (c : Nat) (f : Core → Core) : (s.modCore c f).counters = s.counters := rfl
@[simp] theorem modCore_graphs (s : State) (c : Nat) (f : Core → Core) : (s.modCore c f).graphs = s.graphs := rfl
@[simp] theorem modCore_sqs (s : State) (c : Nat) (f : Core → Core) : (s.modCore c f).sqs = s.sqs := rfl
@[simp] theorem modCore_gqs (s : State) (c : Nat) (f : Core → Core) : (s.modCore c f).gqs = s.gqs := rfl
@[simp] theorem modCore_pools (s : State) (c : Nat) (f : Core → Core) : (s.modCore c f).pools = s.pools := rfl
@[simp] theorem modCore_spatial (s : State) (c : Nat) (f : Core → Core) : (s.modCore c f).spatial = s.spatial := rfl
@[simp] theorem modCore_trap (s : State) (c : Nat) (f : Core → Core) : (s.modCore c f).trap = s.trap := rfl
@[simp] theorem modCore_err (s : State) (c : Nat) (f : Core → Core) : (s.modCore c f).err = s.err := rfl
@[simp] theorem modCore_rtc (s : State) (c : Nat) (f : Core → Core) : (s.modCore c f).rtc = s.rtc := rfl
@[simp] theorem modCore_clk (s : State) (c : Nat) (f : Core → Core) : (s.modCore c f).clk = s.clk := rfl
@[simp] theorem modCore_dcfg (s : State) (c : Nat) (f : Core → Core) : (s.modCore c f).dcfg = s.dcfg := rfl
@[simp] theorem modCore_dcnt (s : State) (c : Nat) (f : Core → Core) : (s.modCore c f).dcnt = s.dcnt := rfl
@[simp] theorem modCore_win (s : State) (c : Nat) (f : Core → Core) : (s.modCore c f).win = s.win := rfl
@[simp] theorem modCore_hostq (s : State) (c : Nat) (f : Core → Core) : (s.modCore c f).hostq = s.hostq := rfl
@[simp] theorem modCore_again (s : State) (c : Nat) (f : Core → Core) : (s.modCore c f).again = s.again := rfl
@[simp] theorem modCore_links (s : State) (c : Nat) (f : Core → Core) : (s.modCore c f).links = s.links := rfl
@[simp] theorem modCore_coh (s : State) (c : Nat) (f : Core → Core) : (s.modCore c f).coh = s.coh := rfl
@[simp] theorem modCore_mscrub (s : State) (c : Nat) (f : Core → Core) : (s.modCore c f).mscrub = s.mscrub := rfl
@[simp] theorem modCore_chans (s : State) (c : Nat) (f : Core → Core) : (s.modCore c f).chans = s.chans := rfl
@[simp] theorem modCore_pwr (s : State) (c : Nat) (f : Core → Core) : (s.modCore c f).pwr = s.pwr := rfl
@[simp] theorem modCore_cfg (s : State) (c : Nat) (f : Core → Core) : (s.modCore c f).cfg = s.cfg := rfl
@[simp] theorem modCore_fw (s : State) (c : Nat) (f : Core → Core) : (s.modCore c f).fw = s.fw := rfl
@[simp] theorem modCore_creg (s : State) (c : Nat) (f : Core → Core) : (s.modCore c f).creg = s.creg := rfl
@[simp] theorem modCore_passed (s : State) (c : Nat) (f : Core → Core) : (s.modCore c f).passed = s.passed := rfl
@[simp] theorem modCore_unrouted (s : State) (c : Nat) (f : Core → Core) : (s.modCore c f).unrouted = s.unrouted := rfl
@[simp] theorem modCore_counted (s : State) (c : Nat) (f : Core → Core) : (s.modCore c f).counted = s.counted := rfl
@[simp] theorem modCore_upsets (s : State) (c : Nat) (f : Core → Core) : (s.modCore c f).upsets = s.upsets := rfl
@[simp] theorem modCore_kept (s : State) (c : Nat) (f : Core → Core) : (s.modCore c f).kept = s.kept := rfl

@[simp] theorem setCx_agenda (s : State) (c : Word) (x : Ctx) : (s.setCx c x).agenda = s.agenda := rfl
@[simp] theorem setCx_tick (s : State) (c : Word) (x : Ctx) : (s.setCx c x).tick = s.tick := rfl
@[simp] theorem setCx_freeCtr (s : State) (c : Word) (x : Ctx) : (s.setCx c x).freeCtr = s.freeCtr := rfl
@[simp] theorem setCx_outbox (s : State) (c : Word) (x : Ctx) : (s.setCx c x).outbox = s.outbox := rfl
@[simp] theorem setCx_bus (s : State) (c : Word) (x : Ctx) : (s.setCx c x).bus = s.bus := rfl
@[simp] theorem setCx_rx (s : State) (c : Word) (x : Ctx) : (s.setCx c x).rx = s.rx := rfl
@[simp] theorem setCx_g (s : State) (c : Word) (x : Ctx) : (s.setCx c x).g = s.g := rfl
@[simp] theorem setCx_groups (s : State) (c : Word) (x : Ctx) : (s.setCx c x).groups = s.groups := rfl
@[simp] theorem setCx_mem (s : State) (c : Word) (x : Ctx) : (s.setCx c x).mem = s.mem := rfl
@[simp] theorem setCx_side (s : State) (c : Word) (x : Ctx) : (s.setCx c x).side = s.side := rfl
@[simp] theorem setCx_hostmem (s : State) (c : Word) (x : Ctx) : (s.setCx c x).hostmem = s.hostmem := rfl
@[simp] theorem setCx_sp (s : State) (c : Word) (x : Ctx) : (s.setCx c x).sp = s.sp := rfl
@[simp] theorem setCx_l2 (s : State) (c : Word) (x : Ctx) : (s.setCx c x).l2 = s.l2 := rfl
@[simp] theorem setCx_l1 (s : State) (c : Word) (x : Ctx) : (s.setCx c x).l1 = s.l1 := rfl
@[simp] theorem setCx_tlb (s : State) (c : Word) (x : Ctx) : (s.setCx c x).tlb = s.tlb := rfl
@[simp] theorem setCx_lagoon (s : State) (c : Word) (x : Ctx) : (s.setCx c x).lagoon = s.lagoon := rfl
@[simp] theorem setCx_det (s : State) (c : Word) (x : Ctx) : (s.setCx c x).det = s.det := rfl
@[simp] theorem setCx_cores (s : State) (c : Word) (x : Ctx) : (s.setCx c x).cores = s.cores := rfl
@[simp] theorem setCx_tasks (s : State) (c : Word) (x : Ctx) : (s.setCx c x).tasks = s.tasks := rfl
@[simp] theorem setCx_nextId (s : State) (c : Word) (x : Ctx) : (s.setCx c x).nextId = s.nextId := rfl
@[simp] theorem setCx_blocks (s : State) (c : Word) (x : Ctx) : (s.setCx c x).blocks = s.blocks := rfl
@[simp] theorem setCx_counters (s : State) (c : Word) (x : Ctx) : (s.setCx c x).counters = s.counters := rfl
@[simp] theorem setCx_graphs (s : State) (c : Word) (x : Ctx) : (s.setCx c x).graphs = s.graphs := rfl
@[simp] theorem setCx_sqs (s : State) (c : Word) (x : Ctx) : (s.setCx c x).sqs = s.sqs := rfl
@[simp] theorem setCx_gqs (s : State) (c : Word) (x : Ctx) : (s.setCx c x).gqs = s.gqs := rfl
@[simp] theorem setCx_pools (s : State) (c : Word) (x : Ctx) : (s.setCx c x).pools = s.pools := rfl
@[simp] theorem setCx_spatial (s : State) (c : Word) (x : Ctx) : (s.setCx c x).spatial = s.spatial := rfl
@[simp] theorem setCx_trap (s : State) (c : Word) (x : Ctx) : (s.setCx c x).trap = s.trap := rfl
@[simp] theorem setCx_err (s : State) (c : Word) (x : Ctx) : (s.setCx c x).err = s.err := rfl
@[simp] theorem setCx_rtc (s : State) (c : Word) (x : Ctx) : (s.setCx c x).rtc = s.rtc := rfl
@[simp] theorem setCx_clk (s : State) (c : Word) (x : Ctx) : (s.setCx c x).clk = s.clk := rfl
@[simp] theorem setCx_dcfg (s : State) (c : Word) (x : Ctx) : (s.setCx c x).dcfg = s.dcfg := rfl
@[simp] theorem setCx_dcnt (s : State) (c : Word) (x : Ctx) : (s.setCx c x).dcnt = s.dcnt := rfl
@[simp] theorem setCx_win (s : State) (c : Word) (x : Ctx) : (s.setCx c x).win = s.win := rfl
@[simp] theorem setCx_hostq (s : State) (c : Word) (x : Ctx) : (s.setCx c x).hostq = s.hostq := rfl
@[simp] theorem setCx_again (s : State) (c : Word) (x : Ctx) : (s.setCx c x).again = s.again := rfl
@[simp] theorem setCx_links (s : State) (c : Word) (x : Ctx) : (s.setCx c x).links = s.links := rfl
@[simp] theorem setCx_coh (s : State) (c : Word) (x : Ctx) : (s.setCx c x).coh = s.coh := rfl
@[simp] theorem setCx_mscrub (s : State) (c : Word) (x : Ctx) : (s.setCx c x).mscrub = s.mscrub := rfl
@[simp] theorem setCx_chans (s : State) (c : Word) (x : Ctx) : (s.setCx c x).chans = s.chans := rfl
@[simp] theorem setCx_pwr (s : State) (c : Word) (x : Ctx) : (s.setCx c x).pwr = s.pwr := rfl
@[simp] theorem setCx_cfg (s : State) (c : Word) (x : Ctx) : (s.setCx c x).cfg = s.cfg := rfl
@[simp] theorem setCx_fw (s : State) (c : Word) (x : Ctx) : (s.setCx c x).fw = s.fw := rfl
@[simp] theorem setCx_creg (s : State) (c : Word) (x : Ctx) : (s.setCx c x).creg = s.creg := rfl
@[simp] theorem setCx_passed (s : State) (c : Word) (x : Ctx) : (s.setCx c x).passed = s.passed := rfl
@[simp] theorem setCx_unrouted (s : State) (c : Word) (x : Ctx) : (s.setCx c x).unrouted = s.unrouted := rfl
@[simp] theorem setCx_counted (s : State) (c : Word) (x : Ctx) : (s.setCx c x).counted = s.counted := rfl
@[simp] theorem setCx_upsets (s : State) (c : Word) (x : Ctx) : (s.setCx c x).upsets = s.upsets := rfl
@[simp] theorem setCx_kept (s : State) (c : Word) (x : Ctx) : (s.setCx c x).kept = s.kept := rfl

@[simp] theorem modCx_agenda (s : State) (c : Word) (f : Ctx → Ctx) : (s.modCx c f).agenda = s.agenda := rfl
@[simp] theorem modCx_tick (s : State) (c : Word) (f : Ctx → Ctx) : (s.modCx c f).tick = s.tick := rfl
@[simp] theorem modCx_freeCtr (s : State) (c : Word) (f : Ctx → Ctx) : (s.modCx c f).freeCtr = s.freeCtr := rfl
@[simp] theorem modCx_outbox (s : State) (c : Word) (f : Ctx → Ctx) : (s.modCx c f).outbox = s.outbox := rfl
@[simp] theorem modCx_bus (s : State) (c : Word) (f : Ctx → Ctx) : (s.modCx c f).bus = s.bus := rfl
@[simp] theorem modCx_rx (s : State) (c : Word) (f : Ctx → Ctx) : (s.modCx c f).rx = s.rx := rfl
@[simp] theorem modCx_g (s : State) (c : Word) (f : Ctx → Ctx) : (s.modCx c f).g = s.g := rfl
@[simp] theorem modCx_groups (s : State) (c : Word) (f : Ctx → Ctx) : (s.modCx c f).groups = s.groups := rfl
@[simp] theorem modCx_mem (s : State) (c : Word) (f : Ctx → Ctx) : (s.modCx c f).mem = s.mem := rfl
@[simp] theorem modCx_side (s : State) (c : Word) (f : Ctx → Ctx) : (s.modCx c f).side = s.side := rfl
@[simp] theorem modCx_hostmem (s : State) (c : Word) (f : Ctx → Ctx) : (s.modCx c f).hostmem = s.hostmem := rfl
@[simp] theorem modCx_sp (s : State) (c : Word) (f : Ctx → Ctx) : (s.modCx c f).sp = s.sp := rfl
@[simp] theorem modCx_l2 (s : State) (c : Word) (f : Ctx → Ctx) : (s.modCx c f).l2 = s.l2 := rfl
@[simp] theorem modCx_l1 (s : State) (c : Word) (f : Ctx → Ctx) : (s.modCx c f).l1 = s.l1 := rfl
@[simp] theorem modCx_tlb (s : State) (c : Word) (f : Ctx → Ctx) : (s.modCx c f).tlb = s.tlb := rfl
@[simp] theorem modCx_lagoon (s : State) (c : Word) (f : Ctx → Ctx) : (s.modCx c f).lagoon = s.lagoon := rfl
@[simp] theorem modCx_det (s : State) (c : Word) (f : Ctx → Ctx) : (s.modCx c f).det = s.det := rfl
@[simp] theorem modCx_cores (s : State) (c : Word) (f : Ctx → Ctx) : (s.modCx c f).cores = s.cores := rfl
@[simp] theorem modCx_tasks (s : State) (c : Word) (f : Ctx → Ctx) : (s.modCx c f).tasks = s.tasks := rfl
@[simp] theorem modCx_nextId (s : State) (c : Word) (f : Ctx → Ctx) : (s.modCx c f).nextId = s.nextId := rfl
@[simp] theorem modCx_blocks (s : State) (c : Word) (f : Ctx → Ctx) : (s.modCx c f).blocks = s.blocks := rfl
@[simp] theorem modCx_counters (s : State) (c : Word) (f : Ctx → Ctx) : (s.modCx c f).counters = s.counters := rfl
@[simp] theorem modCx_graphs (s : State) (c : Word) (f : Ctx → Ctx) : (s.modCx c f).graphs = s.graphs := rfl
@[simp] theorem modCx_sqs (s : State) (c : Word) (f : Ctx → Ctx) : (s.modCx c f).sqs = s.sqs := rfl
@[simp] theorem modCx_gqs (s : State) (c : Word) (f : Ctx → Ctx) : (s.modCx c f).gqs = s.gqs := rfl
@[simp] theorem modCx_pools (s : State) (c : Word) (f : Ctx → Ctx) : (s.modCx c f).pools = s.pools := rfl
@[simp] theorem modCx_spatial (s : State) (c : Word) (f : Ctx → Ctx) : (s.modCx c f).spatial = s.spatial := rfl
@[simp] theorem modCx_trap (s : State) (c : Word) (f : Ctx → Ctx) : (s.modCx c f).trap = s.trap := rfl
@[simp] theorem modCx_err (s : State) (c : Word) (f : Ctx → Ctx) : (s.modCx c f).err = s.err := rfl
@[simp] theorem modCx_rtc (s : State) (c : Word) (f : Ctx → Ctx) : (s.modCx c f).rtc = s.rtc := rfl
@[simp] theorem modCx_clk (s : State) (c : Word) (f : Ctx → Ctx) : (s.modCx c f).clk = s.clk := rfl
@[simp] theorem modCx_dcfg (s : State) (c : Word) (f : Ctx → Ctx) : (s.modCx c f).dcfg = s.dcfg := rfl
@[simp] theorem modCx_dcnt (s : State) (c : Word) (f : Ctx → Ctx) : (s.modCx c f).dcnt = s.dcnt := rfl
@[simp] theorem modCx_win (s : State) (c : Word) (f : Ctx → Ctx) : (s.modCx c f).win = s.win := rfl
@[simp] theorem modCx_hostq (s : State) (c : Word) (f : Ctx → Ctx) : (s.modCx c f).hostq = s.hostq := rfl
@[simp] theorem modCx_again (s : State) (c : Word) (f : Ctx → Ctx) : (s.modCx c f).again = s.again := rfl
@[simp] theorem modCx_links (s : State) (c : Word) (f : Ctx → Ctx) : (s.modCx c f).links = s.links := rfl
@[simp] theorem modCx_coh (s : State) (c : Word) (f : Ctx → Ctx) : (s.modCx c f).coh = s.coh := rfl
@[simp] theorem modCx_mscrub (s : State) (c : Word) (f : Ctx → Ctx) : (s.modCx c f).mscrub = s.mscrub := rfl
@[simp] theorem modCx_chans (s : State) (c : Word) (f : Ctx → Ctx) : (s.modCx c f).chans = s.chans := rfl
@[simp] theorem modCx_pwr (s : State) (c : Word) (f : Ctx → Ctx) : (s.modCx c f).pwr = s.pwr := rfl
@[simp] theorem modCx_cfg (s : State) (c : Word) (f : Ctx → Ctx) : (s.modCx c f).cfg = s.cfg := rfl
@[simp] theorem modCx_fw (s : State) (c : Word) (f : Ctx → Ctx) : (s.modCx c f).fw = s.fw := rfl
@[simp] theorem modCx_creg (s : State) (c : Word) (f : Ctx → Ctx) : (s.modCx c f).creg = s.creg := rfl
@[simp] theorem modCx_passed (s : State) (c : Word) (f : Ctx → Ctx) : (s.modCx c f).passed = s.passed := rfl
@[simp] theorem modCx_unrouted (s : State) (c : Word) (f : Ctx → Ctx) : (s.modCx c f).unrouted = s.unrouted := rfl
@[simp] theorem modCx_counted (s : State) (c : Word) (f : Ctx → Ctx) : (s.modCx c f).counted = s.counted := rfl
@[simp] theorem modCx_upsets (s : State) (c : Word) (f : Ctx → Ctx) : (s.modCx c f).upsets = s.upsets := rfl
@[simp] theorem modCx_kept (s : State) (c : Word) (f : Ctx → Ctx) : (s.modCx c f).kept = s.kept := rfl

@[simp] theorem setPool_agenda (s : State) (n : Nat) (p : Pool) : (s.setPool n p).agenda = s.agenda := rfl
@[simp] theorem setPool_tick (s : State) (n : Nat) (p : Pool) : (s.setPool n p).tick = s.tick := rfl
@[simp] theorem setPool_freeCtr (s : State) (n : Nat) (p : Pool) : (s.setPool n p).freeCtr = s.freeCtr := rfl
@[simp] theorem setPool_outbox (s : State) (n : Nat) (p : Pool) : (s.setPool n p).outbox = s.outbox := rfl
@[simp] theorem setPool_bus (s : State) (n : Nat) (p : Pool) : (s.setPool n p).bus = s.bus := rfl
@[simp] theorem setPool_rx (s : State) (n : Nat) (p : Pool) : (s.setPool n p).rx = s.rx := rfl
@[simp] theorem setPool_g (s : State) (n : Nat) (p : Pool) : (s.setPool n p).g = s.g := rfl
@[simp] theorem setPool_groups (s : State) (n : Nat) (p : Pool) : (s.setPool n p).groups = s.groups := rfl
@[simp] theorem setPool_mem (s : State) (n : Nat) (p : Pool) : (s.setPool n p).mem = s.mem := rfl
@[simp] theorem setPool_side (s : State) (n : Nat) (p : Pool) : (s.setPool n p).side = s.side := rfl
@[simp] theorem setPool_hostmem (s : State) (n : Nat) (p : Pool) : (s.setPool n p).hostmem = s.hostmem := rfl
@[simp] theorem setPool_sp (s : State) (n : Nat) (p : Pool) : (s.setPool n p).sp = s.sp := rfl
@[simp] theorem setPool_l2 (s : State) (n : Nat) (p : Pool) : (s.setPool n p).l2 = s.l2 := rfl
@[simp] theorem setPool_l1 (s : State) (n : Nat) (p : Pool) : (s.setPool n p).l1 = s.l1 := rfl
@[simp] theorem setPool_tlb (s : State) (n : Nat) (p : Pool) : (s.setPool n p).tlb = s.tlb := rfl
@[simp] theorem setPool_lagoon (s : State) (n : Nat) (p : Pool) : (s.setPool n p).lagoon = s.lagoon := rfl
@[simp] theorem setPool_det (s : State) (n : Nat) (p : Pool) : (s.setPool n p).det = s.det := rfl
@[simp] theorem setPool_cores (s : State) (n : Nat) (p : Pool) : (s.setPool n p).cores = s.cores := rfl
@[simp] theorem setPool_ctxs (s : State) (n : Nat) (p : Pool) : (s.setPool n p).ctxs = s.ctxs := rfl
@[simp] theorem setPool_tasks (s : State) (n : Nat) (p : Pool) : (s.setPool n p).tasks = s.tasks := rfl
@[simp] theorem setPool_nextId (s : State) (n : Nat) (p : Pool) : (s.setPool n p).nextId = s.nextId := rfl
@[simp] theorem setPool_blocks (s : State) (n : Nat) (p : Pool) : (s.setPool n p).blocks = s.blocks := rfl
@[simp] theorem setPool_counters (s : State) (n : Nat) (p : Pool) : (s.setPool n p).counters = s.counters := rfl
@[simp] theorem setPool_graphs (s : State) (n : Nat) (p : Pool) : (s.setPool n p).graphs = s.graphs := rfl
@[simp] theorem setPool_sqs (s : State) (n : Nat) (p : Pool) : (s.setPool n p).sqs = s.sqs := rfl
@[simp] theorem setPool_gqs (s : State) (n : Nat) (p : Pool) : (s.setPool n p).gqs = s.gqs := rfl
@[simp] theorem setPool_spatial (s : State) (n : Nat) (p : Pool) : (s.setPool n p).spatial = s.spatial := rfl
@[simp] theorem setPool_trap (s : State) (n : Nat) (p : Pool) : (s.setPool n p).trap = s.trap := rfl
@[simp] theorem setPool_err (s : State) (n : Nat) (p : Pool) : (s.setPool n p).err = s.err := rfl
@[simp] theorem setPool_rtc (s : State) (n : Nat) (p : Pool) : (s.setPool n p).rtc = s.rtc := rfl
@[simp] theorem setPool_clk (s : State) (n : Nat) (p : Pool) : (s.setPool n p).clk = s.clk := rfl
@[simp] theorem setPool_dcfg (s : State) (n : Nat) (p : Pool) : (s.setPool n p).dcfg = s.dcfg := rfl
@[simp] theorem setPool_dcnt (s : State) (n : Nat) (p : Pool) : (s.setPool n p).dcnt = s.dcnt := rfl
@[simp] theorem setPool_win (s : State) (n : Nat) (p : Pool) : (s.setPool n p).win = s.win := rfl
@[simp] theorem setPool_hostq (s : State) (n : Nat) (p : Pool) : (s.setPool n p).hostq = s.hostq := rfl
@[simp] theorem setPool_again (s : State) (n : Nat) (p : Pool) : (s.setPool n p).again = s.again := rfl
@[simp] theorem setPool_links (s : State) (n : Nat) (p : Pool) : (s.setPool n p).links = s.links := rfl
@[simp] theorem setPool_coh (s : State) (n : Nat) (p : Pool) : (s.setPool n p).coh = s.coh := rfl
@[simp] theorem setPool_mscrub (s : State) (n : Nat) (p : Pool) : (s.setPool n p).mscrub = s.mscrub := rfl
@[simp] theorem setPool_chans (s : State) (n : Nat) (p : Pool) : (s.setPool n p).chans = s.chans := rfl
@[simp] theorem setPool_pwr (s : State) (n : Nat) (p : Pool) : (s.setPool n p).pwr = s.pwr := rfl
@[simp] theorem setPool_cfg (s : State) (n : Nat) (p : Pool) : (s.setPool n p).cfg = s.cfg := rfl
@[simp] theorem setPool_fw (s : State) (n : Nat) (p : Pool) : (s.setPool n p).fw = s.fw := rfl
@[simp] theorem setPool_creg (s : State) (n : Nat) (p : Pool) : (s.setPool n p).creg = s.creg := rfl
@[simp] theorem setPool_passed (s : State) (n : Nat) (p : Pool) : (s.setPool n p).passed = s.passed := rfl
@[simp] theorem setPool_unrouted (s : State) (n : Nat) (p : Pool) : (s.setPool n p).unrouted = s.unrouted := rfl
@[simp] theorem setPool_counted (s : State) (n : Nat) (p : Pool) : (s.setPool n p).counted = s.counted := rfl
@[simp] theorem setPool_upsets (s : State) (n : Nat) (p : Pool) : (s.setPool n p).upsets = s.upsets := rfl
@[simp] theorem setPool_kept (s : State) (n : Nat) (p : Pool) : (s.setPool n p).kept = s.kept := rfl

@[simp] theorem setGq_agenda (s : State) (n : Nat) (q : GQueue) : (s.setGq n q).agenda = s.agenda := rfl
@[simp] theorem setGq_tick (s : State) (n : Nat) (q : GQueue) : (s.setGq n q).tick = s.tick := rfl
@[simp] theorem setGq_freeCtr (s : State) (n : Nat) (q : GQueue) : (s.setGq n q).freeCtr = s.freeCtr := rfl
@[simp] theorem setGq_outbox (s : State) (n : Nat) (q : GQueue) : (s.setGq n q).outbox = s.outbox := rfl
@[simp] theorem setGq_bus (s : State) (n : Nat) (q : GQueue) : (s.setGq n q).bus = s.bus := rfl
@[simp] theorem setGq_rx (s : State) (n : Nat) (q : GQueue) : (s.setGq n q).rx = s.rx := rfl
@[simp] theorem setGq_g (s : State) (n : Nat) (q : GQueue) : (s.setGq n q).g = s.g := rfl
@[simp] theorem setGq_groups (s : State) (n : Nat) (q : GQueue) : (s.setGq n q).groups = s.groups := rfl
@[simp] theorem setGq_mem (s : State) (n : Nat) (q : GQueue) : (s.setGq n q).mem = s.mem := rfl
@[simp] theorem setGq_side (s : State) (n : Nat) (q : GQueue) : (s.setGq n q).side = s.side := rfl
@[simp] theorem setGq_hostmem (s : State) (n : Nat) (q : GQueue) : (s.setGq n q).hostmem = s.hostmem := rfl
@[simp] theorem setGq_sp (s : State) (n : Nat) (q : GQueue) : (s.setGq n q).sp = s.sp := rfl
@[simp] theorem setGq_l2 (s : State) (n : Nat) (q : GQueue) : (s.setGq n q).l2 = s.l2 := rfl
@[simp] theorem setGq_l1 (s : State) (n : Nat) (q : GQueue) : (s.setGq n q).l1 = s.l1 := rfl
@[simp] theorem setGq_tlb (s : State) (n : Nat) (q : GQueue) : (s.setGq n q).tlb = s.tlb := rfl
@[simp] theorem setGq_lagoon (s : State) (n : Nat) (q : GQueue) : (s.setGq n q).lagoon = s.lagoon := rfl
@[simp] theorem setGq_det (s : State) (n : Nat) (q : GQueue) : (s.setGq n q).det = s.det := rfl
@[simp] theorem setGq_cores (s : State) (n : Nat) (q : GQueue) : (s.setGq n q).cores = s.cores := rfl
@[simp] theorem setGq_ctxs (s : State) (n : Nat) (q : GQueue) : (s.setGq n q).ctxs = s.ctxs := rfl
@[simp] theorem setGq_tasks (s : State) (n : Nat) (q : GQueue) : (s.setGq n q).tasks = s.tasks := rfl
@[simp] theorem setGq_nextId (s : State) (n : Nat) (q : GQueue) : (s.setGq n q).nextId = s.nextId := rfl
@[simp] theorem setGq_blocks (s : State) (n : Nat) (q : GQueue) : (s.setGq n q).blocks = s.blocks := rfl
@[simp] theorem setGq_counters (s : State) (n : Nat) (q : GQueue) : (s.setGq n q).counters = s.counters := rfl
@[simp] theorem setGq_graphs (s : State) (n : Nat) (q : GQueue) : (s.setGq n q).graphs = s.graphs := rfl
@[simp] theorem setGq_sqs (s : State) (n : Nat) (q : GQueue) : (s.setGq n q).sqs = s.sqs := rfl
@[simp] theorem setGq_pools (s : State) (n : Nat) (q : GQueue) : (s.setGq n q).pools = s.pools := rfl
@[simp] theorem setGq_spatial (s : State) (n : Nat) (q : GQueue) : (s.setGq n q).spatial = s.spatial := rfl
@[simp] theorem setGq_trap (s : State) (n : Nat) (q : GQueue) : (s.setGq n q).trap = s.trap := rfl
@[simp] theorem setGq_err (s : State) (n : Nat) (q : GQueue) : (s.setGq n q).err = s.err := rfl
@[simp] theorem setGq_rtc (s : State) (n : Nat) (q : GQueue) : (s.setGq n q).rtc = s.rtc := rfl
@[simp] theorem setGq_clk (s : State) (n : Nat) (q : GQueue) : (s.setGq n q).clk = s.clk := rfl
@[simp] theorem setGq_dcfg (s : State) (n : Nat) (q : GQueue) : (s.setGq n q).dcfg = s.dcfg := rfl
@[simp] theorem setGq_dcnt (s : State) (n : Nat) (q : GQueue) : (s.setGq n q).dcnt = s.dcnt := rfl
@[simp] theorem setGq_win (s : State) (n : Nat) (q : GQueue) : (s.setGq n q).win = s.win := rfl
@[simp] theorem setGq_hostq (s : State) (n : Nat) (q : GQueue) : (s.setGq n q).hostq = s.hostq := rfl
@[simp] theorem setGq_again (s : State) (n : Nat) (q : GQueue) : (s.setGq n q).again = s.again := rfl
@[simp] theorem setGq_links (s : State) (n : Nat) (q : GQueue) : (s.setGq n q).links = s.links := rfl
@[simp] theorem setGq_coh (s : State) (n : Nat) (q : GQueue) : (s.setGq n q).coh = s.coh := rfl
@[simp] theorem setGq_mscrub (s : State) (n : Nat) (q : GQueue) : (s.setGq n q).mscrub = s.mscrub := rfl
@[simp] theorem setGq_chans (s : State) (n : Nat) (q : GQueue) : (s.setGq n q).chans = s.chans := rfl
@[simp] theorem setGq_pwr (s : State) (n : Nat) (q : GQueue) : (s.setGq n q).pwr = s.pwr := rfl
@[simp] theorem setGq_cfg (s : State) (n : Nat) (q : GQueue) : (s.setGq n q).cfg = s.cfg := rfl
@[simp] theorem setGq_fw (s : State) (n : Nat) (q : GQueue) : (s.setGq n q).fw = s.fw := rfl
@[simp] theorem setGq_creg (s : State) (n : Nat) (q : GQueue) : (s.setGq n q).creg = s.creg := rfl
@[simp] theorem setGq_passed (s : State) (n : Nat) (q : GQueue) : (s.setGq n q).passed = s.passed := rfl
@[simp] theorem setGq_unrouted (s : State) (n : Nat) (q : GQueue) : (s.setGq n q).unrouted = s.unrouted := rfl
@[simp] theorem setGq_counted (s : State) (n : Nat) (q : GQueue) : (s.setGq n q).counted = s.counted := rfl
@[simp] theorem setGq_upsets (s : State) (n : Nat) (q : GQueue) : (s.setGq n q).upsets = s.upsets := rfl
@[simp] theorem setGq_kept (s : State) (n : Nat) (q : GQueue) : (s.setGq n q).kept = s.kept := rfl

@[simp] theorem setCounter_agenda (s : State) (n : Nat) (c : Counter) : (s.setCounter n c).agenda = s.agenda := rfl
@[simp] theorem setCounter_tick (s : State) (n : Nat) (c : Counter) : (s.setCounter n c).tick = s.tick := rfl
@[simp] theorem setCounter_freeCtr (s : State) (n : Nat) (c : Counter) : (s.setCounter n c).freeCtr = s.freeCtr := rfl
@[simp] theorem setCounter_outbox (s : State) (n : Nat) (c : Counter) : (s.setCounter n c).outbox = s.outbox := rfl
@[simp] theorem setCounter_bus (s : State) (n : Nat) (c : Counter) : (s.setCounter n c).bus = s.bus := rfl
@[simp] theorem setCounter_rx (s : State) (n : Nat) (c : Counter) : (s.setCounter n c).rx = s.rx := rfl
@[simp] theorem setCounter_g (s : State) (n : Nat) (c : Counter) : (s.setCounter n c).g = s.g := rfl
@[simp] theorem setCounter_groups (s : State) (n : Nat) (c : Counter) : (s.setCounter n c).groups = s.groups := rfl
@[simp] theorem setCounter_mem (s : State) (n : Nat) (c : Counter) : (s.setCounter n c).mem = s.mem := rfl
@[simp] theorem setCounter_side (s : State) (n : Nat) (c : Counter) : (s.setCounter n c).side = s.side := rfl
@[simp] theorem setCounter_hostmem (s : State) (n : Nat) (c : Counter) : (s.setCounter n c).hostmem = s.hostmem := rfl
@[simp] theorem setCounter_sp (s : State) (n : Nat) (c : Counter) : (s.setCounter n c).sp = s.sp := rfl
@[simp] theorem setCounter_l2 (s : State) (n : Nat) (c : Counter) : (s.setCounter n c).l2 = s.l2 := rfl
@[simp] theorem setCounter_l1 (s : State) (n : Nat) (c : Counter) : (s.setCounter n c).l1 = s.l1 := rfl
@[simp] theorem setCounter_tlb (s : State) (n : Nat) (c : Counter) : (s.setCounter n c).tlb = s.tlb := rfl
@[simp] theorem setCounter_lagoon (s : State) (n : Nat) (c : Counter) : (s.setCounter n c).lagoon = s.lagoon := rfl
@[simp] theorem setCounter_det (s : State) (n : Nat) (c : Counter) : (s.setCounter n c).det = s.det := rfl
@[simp] theorem setCounter_cores (s : State) (n : Nat) (c : Counter) : (s.setCounter n c).cores = s.cores := rfl
@[simp] theorem setCounter_ctxs (s : State) (n : Nat) (c : Counter) : (s.setCounter n c).ctxs = s.ctxs := rfl
@[simp] theorem setCounter_tasks (s : State) (n : Nat) (c : Counter) : (s.setCounter n c).tasks = s.tasks := rfl
@[simp] theorem setCounter_nextId (s : State) (n : Nat) (c : Counter) : (s.setCounter n c).nextId = s.nextId := rfl
@[simp] theorem setCounter_blocks (s : State) (n : Nat) (c : Counter) : (s.setCounter n c).blocks = s.blocks := rfl
@[simp] theorem setCounter_graphs (s : State) (n : Nat) (c : Counter) : (s.setCounter n c).graphs = s.graphs := rfl
@[simp] theorem setCounter_sqs (s : State) (n : Nat) (c : Counter) : (s.setCounter n c).sqs = s.sqs := rfl
@[simp] theorem setCounter_gqs (s : State) (n : Nat) (c : Counter) : (s.setCounter n c).gqs = s.gqs := rfl
@[simp] theorem setCounter_pools (s : State) (n : Nat) (c : Counter) : (s.setCounter n c).pools = s.pools := rfl
@[simp] theorem setCounter_spatial (s : State) (n : Nat) (c : Counter) : (s.setCounter n c).spatial = s.spatial := rfl
@[simp] theorem setCounter_trap (s : State) (n : Nat) (c : Counter) : (s.setCounter n c).trap = s.trap := rfl
@[simp] theorem setCounter_err (s : State) (n : Nat) (c : Counter) : (s.setCounter n c).err = s.err := rfl
@[simp] theorem setCounter_rtc (s : State) (n : Nat) (c : Counter) : (s.setCounter n c).rtc = s.rtc := rfl
@[simp] theorem setCounter_clk (s : State) (n : Nat) (c : Counter) : (s.setCounter n c).clk = s.clk := rfl
@[simp] theorem setCounter_dcfg (s : State) (n : Nat) (c : Counter) : (s.setCounter n c).dcfg = s.dcfg := rfl
@[simp] theorem setCounter_dcnt (s : State) (n : Nat) (c : Counter) : (s.setCounter n c).dcnt = s.dcnt := rfl
@[simp] theorem setCounter_win (s : State) (n : Nat) (c : Counter) : (s.setCounter n c).win = s.win := rfl
@[simp] theorem setCounter_hostq (s : State) (n : Nat) (c : Counter) : (s.setCounter n c).hostq = s.hostq := rfl
@[simp] theorem setCounter_again (s : State) (n : Nat) (c : Counter) : (s.setCounter n c).again = s.again := rfl
@[simp] theorem setCounter_links (s : State) (n : Nat) (c : Counter) : (s.setCounter n c).links = s.links := rfl
@[simp] theorem setCounter_coh (s : State) (n : Nat) (c : Counter) : (s.setCounter n c).coh = s.coh := rfl
@[simp] theorem setCounter_mscrub (s : State) (n : Nat) (c : Counter) : (s.setCounter n c).mscrub = s.mscrub := rfl
@[simp] theorem setCounter_chans (s : State) (n : Nat) (c : Counter) : (s.setCounter n c).chans = s.chans := rfl
@[simp] theorem setCounter_pwr (s : State) (n : Nat) (c : Counter) : (s.setCounter n c).pwr = s.pwr := rfl
@[simp] theorem setCounter_cfg (s : State) (n : Nat) (c : Counter) : (s.setCounter n c).cfg = s.cfg := rfl
@[simp] theorem setCounter_fw (s : State) (n : Nat) (c : Counter) : (s.setCounter n c).fw = s.fw := rfl
@[simp] theorem setCounter_creg (s : State) (n : Nat) (c : Counter) : (s.setCounter n c).creg = s.creg := rfl
@[simp] theorem setCounter_passed (s : State) (n : Nat) (c : Counter) : (s.setCounter n c).passed = s.passed := rfl
@[simp] theorem setCounter_unrouted (s : State) (n : Nat) (c : Counter) : (s.setCounter n c).unrouted = s.unrouted := rfl
@[simp] theorem setCounter_counted (s : State) (n : Nat) (c : Counter) : (s.setCounter n c).counted = s.counted := rfl
@[simp] theorem setCounter_upsets (s : State) (n : Nat) (c : Counter) : (s.setCounter n c).upsets = s.upsets := rfl
@[simp] theorem setCounter_kept (s : State) (n : Nat) (c : Counter) : (s.setCounter n c).kept = s.kept := rfl

@[simp] theorem setSq_agenda (s : State) (n : Nat) (q : SQ) : (s.setSq n q).agenda = s.agenda := rfl
@[simp] theorem setSq_tick (s : State) (n : Nat) (q : SQ) : (s.setSq n q).tick = s.tick := rfl
@[simp] theorem setSq_freeCtr (s : State) (n : Nat) (q : SQ) : (s.setSq n q).freeCtr = s.freeCtr := rfl
@[simp] theorem setSq_outbox (s : State) (n : Nat) (q : SQ) : (s.setSq n q).outbox = s.outbox := rfl
@[simp] theorem setSq_bus (s : State) (n : Nat) (q : SQ) : (s.setSq n q).bus = s.bus := rfl
@[simp] theorem setSq_rx (s : State) (n : Nat) (q : SQ) : (s.setSq n q).rx = s.rx := rfl
@[simp] theorem setSq_g (s : State) (n : Nat) (q : SQ) : (s.setSq n q).g = s.g := rfl
@[simp] theorem setSq_groups (s : State) (n : Nat) (q : SQ) : (s.setSq n q).groups = s.groups := rfl
@[simp] theorem setSq_mem (s : State) (n : Nat) (q : SQ) : (s.setSq n q).mem = s.mem := rfl
@[simp] theorem setSq_side (s : State) (n : Nat) (q : SQ) : (s.setSq n q).side = s.side := rfl
@[simp] theorem setSq_hostmem (s : State) (n : Nat) (q : SQ) : (s.setSq n q).hostmem = s.hostmem := rfl
@[simp] theorem setSq_sp (s : State) (n : Nat) (q : SQ) : (s.setSq n q).sp = s.sp := rfl
@[simp] theorem setSq_l2 (s : State) (n : Nat) (q : SQ) : (s.setSq n q).l2 = s.l2 := rfl
@[simp] theorem setSq_l1 (s : State) (n : Nat) (q : SQ) : (s.setSq n q).l1 = s.l1 := rfl
@[simp] theorem setSq_tlb (s : State) (n : Nat) (q : SQ) : (s.setSq n q).tlb = s.tlb := rfl
@[simp] theorem setSq_lagoon (s : State) (n : Nat) (q : SQ) : (s.setSq n q).lagoon = s.lagoon := rfl
@[simp] theorem setSq_det (s : State) (n : Nat) (q : SQ) : (s.setSq n q).det = s.det := rfl
@[simp] theorem setSq_cores (s : State) (n : Nat) (q : SQ) : (s.setSq n q).cores = s.cores := rfl
@[simp] theorem setSq_ctxs (s : State) (n : Nat) (q : SQ) : (s.setSq n q).ctxs = s.ctxs := rfl
@[simp] theorem setSq_tasks (s : State) (n : Nat) (q : SQ) : (s.setSq n q).tasks = s.tasks := rfl
@[simp] theorem setSq_nextId (s : State) (n : Nat) (q : SQ) : (s.setSq n q).nextId = s.nextId := rfl
@[simp] theorem setSq_blocks (s : State) (n : Nat) (q : SQ) : (s.setSq n q).blocks = s.blocks := rfl
@[simp] theorem setSq_counters (s : State) (n : Nat) (q : SQ) : (s.setSq n q).counters = s.counters := rfl
@[simp] theorem setSq_graphs (s : State) (n : Nat) (q : SQ) : (s.setSq n q).graphs = s.graphs := rfl
@[simp] theorem setSq_gqs (s : State) (n : Nat) (q : SQ) : (s.setSq n q).gqs = s.gqs := rfl
@[simp] theorem setSq_pools (s : State) (n : Nat) (q : SQ) : (s.setSq n q).pools = s.pools := rfl
@[simp] theorem setSq_spatial (s : State) (n : Nat) (q : SQ) : (s.setSq n q).spatial = s.spatial := rfl
@[simp] theorem setSq_trap (s : State) (n : Nat) (q : SQ) : (s.setSq n q).trap = s.trap := rfl
@[simp] theorem setSq_err (s : State) (n : Nat) (q : SQ) : (s.setSq n q).err = s.err := rfl
@[simp] theorem setSq_rtc (s : State) (n : Nat) (q : SQ) : (s.setSq n q).rtc = s.rtc := rfl
@[simp] theorem setSq_clk (s : State) (n : Nat) (q : SQ) : (s.setSq n q).clk = s.clk := rfl
@[simp] theorem setSq_dcfg (s : State) (n : Nat) (q : SQ) : (s.setSq n q).dcfg = s.dcfg := rfl
@[simp] theorem setSq_dcnt (s : State) (n : Nat) (q : SQ) : (s.setSq n q).dcnt = s.dcnt := rfl
@[simp] theorem setSq_win (s : State) (n : Nat) (q : SQ) : (s.setSq n q).win = s.win := rfl
@[simp] theorem setSq_hostq (s : State) (n : Nat) (q : SQ) : (s.setSq n q).hostq = s.hostq := rfl
@[simp] theorem setSq_again (s : State) (n : Nat) (q : SQ) : (s.setSq n q).again = s.again := rfl
@[simp] theorem setSq_links (s : State) (n : Nat) (q : SQ) : (s.setSq n q).links = s.links := rfl
@[simp] theorem setSq_coh (s : State) (n : Nat) (q : SQ) : (s.setSq n q).coh = s.coh := rfl
@[simp] theorem setSq_mscrub (s : State) (n : Nat) (q : SQ) : (s.setSq n q).mscrub = s.mscrub := rfl
@[simp] theorem setSq_chans (s : State) (n : Nat) (q : SQ) : (s.setSq n q).chans = s.chans := rfl
@[simp] theorem setSq_pwr (s : State) (n : Nat) (q : SQ) : (s.setSq n q).pwr = s.pwr := rfl
@[simp] theorem setSq_cfg (s : State) (n : Nat) (q : SQ) : (s.setSq n q).cfg = s.cfg := rfl
@[simp] theorem setSq_fw (s : State) (n : Nat) (q : SQ) : (s.setSq n q).fw = s.fw := rfl
@[simp] theorem setSq_creg (s : State) (n : Nat) (q : SQ) : (s.setSq n q).creg = s.creg := rfl
@[simp] theorem setSq_passed (s : State) (n : Nat) (q : SQ) : (s.setSq n q).passed = s.passed := rfl
@[simp] theorem setSq_unrouted (s : State) (n : Nat) (q : SQ) : (s.setSq n q).unrouted = s.unrouted := rfl
@[simp] theorem setSq_counted (s : State) (n : Nat) (q : SQ) : (s.setSq n q).counted = s.counted := rfl
@[simp] theorem setSq_upsets (s : State) (n : Nat) (q : SQ) : (s.setSq n q).upsets = s.upsets := rfl
@[simp] theorem setSq_kept (s : State) (n : Nat) (q : SQ) : (s.setSq n q).kept = s.kept := rfl

@[simp] theorem setLink_agenda (s : State) (n : Nat) (l : Link) : (s.setLink n l).agenda = s.agenda := rfl
@[simp] theorem setLink_tick (s : State) (n : Nat) (l : Link) : (s.setLink n l).tick = s.tick := rfl
@[simp] theorem setLink_freeCtr (s : State) (n : Nat) (l : Link) : (s.setLink n l).freeCtr = s.freeCtr := rfl
@[simp] theorem setLink_outbox (s : State) (n : Nat) (l : Link) : (s.setLink n l).outbox = s.outbox := rfl
@[simp] theorem setLink_bus (s : State) (n : Nat) (l : Link) : (s.setLink n l).bus = s.bus := rfl
@[simp] theorem setLink_rx (s : State) (n : Nat) (l : Link) : (s.setLink n l).rx = s.rx := rfl
@[simp] theorem setLink_g (s : State) (n : Nat) (l : Link) : (s.setLink n l).g = s.g := rfl
@[simp] theorem setLink_groups (s : State) (n : Nat) (l : Link) : (s.setLink n l).groups = s.groups := rfl
@[simp] theorem setLink_mem (s : State) (n : Nat) (l : Link) : (s.setLink n l).mem = s.mem := rfl
@[simp] theorem setLink_side (s : State) (n : Nat) (l : Link) : (s.setLink n l).side = s.side := rfl
@[simp] theorem setLink_hostmem (s : State) (n : Nat) (l : Link) : (s.setLink n l).hostmem = s.hostmem := rfl
@[simp] theorem setLink_sp (s : State) (n : Nat) (l : Link) : (s.setLink n l).sp = s.sp := rfl
@[simp] theorem setLink_l2 (s : State) (n : Nat) (l : Link) : (s.setLink n l).l2 = s.l2 := rfl
@[simp] theorem setLink_l1 (s : State) (n : Nat) (l : Link) : (s.setLink n l).l1 = s.l1 := rfl
@[simp] theorem setLink_tlb (s : State) (n : Nat) (l : Link) : (s.setLink n l).tlb = s.tlb := rfl
@[simp] theorem setLink_lagoon (s : State) (n : Nat) (l : Link) : (s.setLink n l).lagoon = s.lagoon := rfl
@[simp] theorem setLink_det (s : State) (n : Nat) (l : Link) : (s.setLink n l).det = s.det := rfl
@[simp] theorem setLink_cores (s : State) (n : Nat) (l : Link) : (s.setLink n l).cores = s.cores := rfl
@[simp] theorem setLink_ctxs (s : State) (n : Nat) (l : Link) : (s.setLink n l).ctxs = s.ctxs := rfl
@[simp] theorem setLink_tasks (s : State) (n : Nat) (l : Link) : (s.setLink n l).tasks = s.tasks := rfl
@[simp] theorem setLink_nextId (s : State) (n : Nat) (l : Link) : (s.setLink n l).nextId = s.nextId := rfl
@[simp] theorem setLink_blocks (s : State) (n : Nat) (l : Link) : (s.setLink n l).blocks = s.blocks := rfl
@[simp] theorem setLink_counters (s : State) (n : Nat) (l : Link) : (s.setLink n l).counters = s.counters := rfl
@[simp] theorem setLink_graphs (s : State) (n : Nat) (l : Link) : (s.setLink n l).graphs = s.graphs := rfl
@[simp] theorem setLink_sqs (s : State) (n : Nat) (l : Link) : (s.setLink n l).sqs = s.sqs := rfl
@[simp] theorem setLink_gqs (s : State) (n : Nat) (l : Link) : (s.setLink n l).gqs = s.gqs := rfl
@[simp] theorem setLink_pools (s : State) (n : Nat) (l : Link) : (s.setLink n l).pools = s.pools := rfl
@[simp] theorem setLink_spatial (s : State) (n : Nat) (l : Link) : (s.setLink n l).spatial = s.spatial := rfl
@[simp] theorem setLink_trap (s : State) (n : Nat) (l : Link) : (s.setLink n l).trap = s.trap := rfl
@[simp] theorem setLink_err (s : State) (n : Nat) (l : Link) : (s.setLink n l).err = s.err := rfl
@[simp] theorem setLink_rtc (s : State) (n : Nat) (l : Link) : (s.setLink n l).rtc = s.rtc := rfl
@[simp] theorem setLink_clk (s : State) (n : Nat) (l : Link) : (s.setLink n l).clk = s.clk := rfl
@[simp] theorem setLink_dcfg (s : State) (n : Nat) (l : Link) : (s.setLink n l).dcfg = s.dcfg := rfl
@[simp] theorem setLink_dcnt (s : State) (n : Nat) (l : Link) : (s.setLink n l).dcnt = s.dcnt := rfl
@[simp] theorem setLink_win (s : State) (n : Nat) (l : Link) : (s.setLink n l).win = s.win := rfl
@[simp] theorem setLink_hostq (s : State) (n : Nat) (l : Link) : (s.setLink n l).hostq = s.hostq := rfl
@[simp] theorem setLink_again (s : State) (n : Nat) (l : Link) : (s.setLink n l).again = s.again := rfl
@[simp] theorem setLink_coh (s : State) (n : Nat) (l : Link) : (s.setLink n l).coh = s.coh := rfl
@[simp] theorem setLink_mscrub (s : State) (n : Nat) (l : Link) : (s.setLink n l).mscrub = s.mscrub := rfl
@[simp] theorem setLink_chans (s : State) (n : Nat) (l : Link) : (s.setLink n l).chans = s.chans := rfl
@[simp] theorem setLink_pwr (s : State) (n : Nat) (l : Link) : (s.setLink n l).pwr = s.pwr := rfl
@[simp] theorem setLink_cfg (s : State) (n : Nat) (l : Link) : (s.setLink n l).cfg = s.cfg := rfl
@[simp] theorem setLink_fw (s : State) (n : Nat) (l : Link) : (s.setLink n l).fw = s.fw := rfl
@[simp] theorem setLink_creg (s : State) (n : Nat) (l : Link) : (s.setLink n l).creg = s.creg := rfl
@[simp] theorem setLink_passed (s : State) (n : Nat) (l : Link) : (s.setLink n l).passed = s.passed := rfl
@[simp] theorem setLink_unrouted (s : State) (n : Nat) (l : Link) : (s.setLink n l).unrouted = s.unrouted := rfl
@[simp] theorem setLink_counted (s : State) (n : Nat) (l : Link) : (s.setLink n l).counted = s.counted := rfl
@[simp] theorem setLink_upsets (s : State) (n : Nat) (l : Link) : (s.setLink n l).upsets = s.upsets := rfl
@[simp] theorem setLink_kept (s : State) (n : Nat) (l : Link) : (s.setLink n l).kept = s.kept := rfl

@[simp] theorem setChan_agenda (s : State) (n : Nat) (c : MChan) : (s.setChan n c).agenda = s.agenda := rfl
@[simp] theorem setChan_tick (s : State) (n : Nat) (c : MChan) : (s.setChan n c).tick = s.tick := rfl
@[simp] theorem setChan_freeCtr (s : State) (n : Nat) (c : MChan) : (s.setChan n c).freeCtr = s.freeCtr := rfl
@[simp] theorem setChan_outbox (s : State) (n : Nat) (c : MChan) : (s.setChan n c).outbox = s.outbox := rfl
@[simp] theorem setChan_bus (s : State) (n : Nat) (c : MChan) : (s.setChan n c).bus = s.bus := rfl
@[simp] theorem setChan_rx (s : State) (n : Nat) (c : MChan) : (s.setChan n c).rx = s.rx := rfl
@[simp] theorem setChan_g (s : State) (n : Nat) (c : MChan) : (s.setChan n c).g = s.g := rfl
@[simp] theorem setChan_groups (s : State) (n : Nat) (c : MChan) : (s.setChan n c).groups = s.groups := rfl
@[simp] theorem setChan_mem (s : State) (n : Nat) (c : MChan) : (s.setChan n c).mem = s.mem := rfl
@[simp] theorem setChan_side (s : State) (n : Nat) (c : MChan) : (s.setChan n c).side = s.side := rfl
@[simp] theorem setChan_hostmem (s : State) (n : Nat) (c : MChan) : (s.setChan n c).hostmem = s.hostmem := rfl
@[simp] theorem setChan_sp (s : State) (n : Nat) (c : MChan) : (s.setChan n c).sp = s.sp := rfl
@[simp] theorem setChan_l2 (s : State) (n : Nat) (c : MChan) : (s.setChan n c).l2 = s.l2 := rfl
@[simp] theorem setChan_l1 (s : State) (n : Nat) (c : MChan) : (s.setChan n c).l1 = s.l1 := rfl
@[simp] theorem setChan_tlb (s : State) (n : Nat) (c : MChan) : (s.setChan n c).tlb = s.tlb := rfl
@[simp] theorem setChan_lagoon (s : State) (n : Nat) (c : MChan) : (s.setChan n c).lagoon = s.lagoon := rfl
@[simp] theorem setChan_det (s : State) (n : Nat) (c : MChan) : (s.setChan n c).det = s.det := rfl
@[simp] theorem setChan_cores (s : State) (n : Nat) (c : MChan) : (s.setChan n c).cores = s.cores := rfl
@[simp] theorem setChan_ctxs (s : State) (n : Nat) (c : MChan) : (s.setChan n c).ctxs = s.ctxs := rfl
@[simp] theorem setChan_tasks (s : State) (n : Nat) (c : MChan) : (s.setChan n c).tasks = s.tasks := rfl
@[simp] theorem setChan_nextId (s : State) (n : Nat) (c : MChan) : (s.setChan n c).nextId = s.nextId := rfl
@[simp] theorem setChan_blocks (s : State) (n : Nat) (c : MChan) : (s.setChan n c).blocks = s.blocks := rfl
@[simp] theorem setChan_counters (s : State) (n : Nat) (c : MChan) : (s.setChan n c).counters = s.counters := rfl
@[simp] theorem setChan_graphs (s : State) (n : Nat) (c : MChan) : (s.setChan n c).graphs = s.graphs := rfl
@[simp] theorem setChan_sqs (s : State) (n : Nat) (c : MChan) : (s.setChan n c).sqs = s.sqs := rfl
@[simp] theorem setChan_gqs (s : State) (n : Nat) (c : MChan) : (s.setChan n c).gqs = s.gqs := rfl
@[simp] theorem setChan_pools (s : State) (n : Nat) (c : MChan) : (s.setChan n c).pools = s.pools := rfl
@[simp] theorem setChan_spatial (s : State) (n : Nat) (c : MChan) : (s.setChan n c).spatial = s.spatial := rfl
@[simp] theorem setChan_trap (s : State) (n : Nat) (c : MChan) : (s.setChan n c).trap = s.trap := rfl
@[simp] theorem setChan_err (s : State) (n : Nat) (c : MChan) : (s.setChan n c).err = s.err := rfl
@[simp] theorem setChan_rtc (s : State) (n : Nat) (c : MChan) : (s.setChan n c).rtc = s.rtc := rfl
@[simp] theorem setChan_clk (s : State) (n : Nat) (c : MChan) : (s.setChan n c).clk = s.clk := rfl
@[simp] theorem setChan_dcfg (s : State) (n : Nat) (c : MChan) : (s.setChan n c).dcfg = s.dcfg := rfl
@[simp] theorem setChan_dcnt (s : State) (n : Nat) (c : MChan) : (s.setChan n c).dcnt = s.dcnt := rfl
@[simp] theorem setChan_win (s : State) (n : Nat) (c : MChan) : (s.setChan n c).win = s.win := rfl
@[simp] theorem setChan_hostq (s : State) (n : Nat) (c : MChan) : (s.setChan n c).hostq = s.hostq := rfl
@[simp] theorem setChan_again (s : State) (n : Nat) (c : MChan) : (s.setChan n c).again = s.again := rfl
@[simp] theorem setChan_links (s : State) (n : Nat) (c : MChan) : (s.setChan n c).links = s.links := rfl
@[simp] theorem setChan_coh (s : State) (n : Nat) (c : MChan) : (s.setChan n c).coh = s.coh := rfl
@[simp] theorem setChan_mscrub (s : State) (n : Nat) (c : MChan) : (s.setChan n c).mscrub = s.mscrub := rfl
@[simp] theorem setChan_pwr (s : State) (n : Nat) (c : MChan) : (s.setChan n c).pwr = s.pwr := rfl
@[simp] theorem setChan_cfg (s : State) (n : Nat) (c : MChan) : (s.setChan n c).cfg = s.cfg := rfl
@[simp] theorem setChan_fw (s : State) (n : Nat) (c : MChan) : (s.setChan n c).fw = s.fw := rfl
@[simp] theorem setChan_creg (s : State) (n : Nat) (c : MChan) : (s.setChan n c).creg = s.creg := rfl
@[simp] theorem setChan_passed (s : State) (n : Nat) (c : MChan) : (s.setChan n c).passed = s.passed := rfl
@[simp] theorem setChan_unrouted (s : State) (n : Nat) (c : MChan) : (s.setChan n c).unrouted = s.unrouted := rfl
@[simp] theorem setChan_counted (s : State) (n : Nat) (c : MChan) : (s.setChan n c).counted = s.counted := rfl
@[simp] theorem setChan_upsets (s : State) (n : Nat) (c : MChan) : (s.setChan n c).upsets = s.upsets := rfl
@[simp] theorem setChan_kept (s : State) (n : Nat) (c : MChan) : (s.setChan n c).kept = s.kept := rfl

@[simp] theorem due_tick (s : State) (e : Event) : (s.due e).tick = s.tick := rfl
@[simp] theorem due_freeCtr (s : State) (e : Event) : (s.due e).freeCtr = s.freeCtr := rfl
@[simp] theorem due_outbox (s : State) (e : Event) : (s.due e).outbox = s.outbox := rfl
@[simp] theorem due_bus (s : State) (e : Event) : (s.due e).bus = s.bus := rfl
@[simp] theorem due_rx (s : State) (e : Event) : (s.due e).rx = s.rx := rfl
@[simp] theorem due_g (s : State) (e : Event) : (s.due e).g = s.g := rfl
@[simp] theorem due_groups (s : State) (e : Event) : (s.due e).groups = s.groups := rfl
@[simp] theorem due_mem (s : State) (e : Event) : (s.due e).mem = s.mem := rfl
@[simp] theorem due_side (s : State) (e : Event) : (s.due e).side = s.side := rfl
@[simp] theorem due_hostmem (s : State) (e : Event) : (s.due e).hostmem = s.hostmem := rfl
@[simp] theorem due_sp (s : State) (e : Event) : (s.due e).sp = s.sp := rfl
@[simp] theorem due_l2 (s : State) (e : Event) : (s.due e).l2 = s.l2 := rfl
@[simp] theorem due_l1 (s : State) (e : Event) : (s.due e).l1 = s.l1 := rfl
@[simp] theorem due_tlb (s : State) (e : Event) : (s.due e).tlb = s.tlb := rfl
@[simp] theorem due_lagoon (s : State) (e : Event) : (s.due e).lagoon = s.lagoon := rfl
@[simp] theorem due_det (s : State) (e : Event) : (s.due e).det = s.det := rfl
@[simp] theorem due_cores (s : State) (e : Event) : (s.due e).cores = s.cores := rfl
@[simp] theorem due_ctxs (s : State) (e : Event) : (s.due e).ctxs = s.ctxs := rfl
@[simp] theorem due_tasks (s : State) (e : Event) : (s.due e).tasks = s.tasks := rfl
@[simp] theorem due_nextId (s : State) (e : Event) : (s.due e).nextId = s.nextId := rfl
@[simp] theorem due_blocks (s : State) (e : Event) : (s.due e).blocks = s.blocks := rfl
@[simp] theorem due_counters (s : State) (e : Event) : (s.due e).counters = s.counters := rfl
@[simp] theorem due_graphs (s : State) (e : Event) : (s.due e).graphs = s.graphs := rfl
@[simp] theorem due_sqs (s : State) (e : Event) : (s.due e).sqs = s.sqs := rfl
@[simp] theorem due_gqs (s : State) (e : Event) : (s.due e).gqs = s.gqs := rfl
@[simp] theorem due_pools (s : State) (e : Event) : (s.due e).pools = s.pools := rfl
@[simp] theorem due_spatial (s : State) (e : Event) : (s.due e).spatial = s.spatial := rfl
@[simp] theorem due_trap (s : State) (e : Event) : (s.due e).trap = s.trap := rfl
@[simp] theorem due_err (s : State) (e : Event) : (s.due e).err = s.err := rfl
@[simp] theorem due_rtc (s : State) (e : Event) : (s.due e).rtc = s.rtc := rfl
@[simp] theorem due_clk (s : State) (e : Event) : (s.due e).clk = s.clk := rfl
@[simp] theorem due_dcfg (s : State) (e : Event) : (s.due e).dcfg = s.dcfg := rfl
@[simp] theorem due_dcnt (s : State) (e : Event) : (s.due e).dcnt = s.dcnt := rfl
@[simp] theorem due_win (s : State) (e : Event) : (s.due e).win = s.win := rfl
@[simp] theorem due_hostq (s : State) (e : Event) : (s.due e).hostq = s.hostq := rfl
@[simp] theorem due_again (s : State) (e : Event) : (s.due e).again = s.again := rfl
@[simp] theorem due_links (s : State) (e : Event) : (s.due e).links = s.links := rfl
@[simp] theorem due_coh (s : State) (e : Event) : (s.due e).coh = s.coh := rfl
@[simp] theorem due_mscrub (s : State) (e : Event) : (s.due e).mscrub = s.mscrub := rfl
@[simp] theorem due_chans (s : State) (e : Event) : (s.due e).chans = s.chans := rfl
@[simp] theorem due_pwr (s : State) (e : Event) : (s.due e).pwr = s.pwr := rfl
@[simp] theorem due_cfg (s : State) (e : Event) : (s.due e).cfg = s.cfg := rfl
@[simp] theorem due_fw (s : State) (e : Event) : (s.due e).fw = s.fw := rfl
@[simp] theorem due_creg (s : State) (e : Event) : (s.due e).creg = s.creg := rfl
@[simp] theorem due_passed (s : State) (e : Event) : (s.due e).passed = s.passed := rfl
@[simp] theorem due_unrouted (s : State) (e : Event) : (s.due e).unrouted = s.unrouted := rfl
@[simp] theorem due_counted (s : State) (e : Event) : (s.due e).counted = s.counted := rfl
@[simp] theorem due_upsets (s : State) (e : Event) : (s.due e).upsets = s.upsets := rfl
@[simp] theorem due_kept (s : State) (e : Event) : (s.due e).kept = s.kept := rfl

@[simp] theorem dueRow_tick (s : State) (i : Instr) : (s.dueRow i).tick = s.tick := rfl
@[simp] theorem dueRow_freeCtr (s : State) (i : Instr) : (s.dueRow i).freeCtr = s.freeCtr := rfl
@[simp] theorem dueRow_outbox (s : State) (i : Instr) : (s.dueRow i).outbox = s.outbox := rfl
@[simp] theorem dueRow_bus (s : State) (i : Instr) : (s.dueRow i).bus = s.bus := rfl
@[simp] theorem dueRow_rx (s : State) (i : Instr) : (s.dueRow i).rx = s.rx := rfl
@[simp] theorem dueRow_g (s : State) (i : Instr) : (s.dueRow i).g = s.g := rfl
@[simp] theorem dueRow_groups (s : State) (i : Instr) : (s.dueRow i).groups = s.groups := rfl
@[simp] theorem dueRow_mem (s : State) (i : Instr) : (s.dueRow i).mem = s.mem := rfl
@[simp] theorem dueRow_side (s : State) (i : Instr) : (s.dueRow i).side = s.side := rfl
@[simp] theorem dueRow_hostmem (s : State) (i : Instr) : (s.dueRow i).hostmem = s.hostmem := rfl
@[simp] theorem dueRow_sp (s : State) (i : Instr) : (s.dueRow i).sp = s.sp := rfl
@[simp] theorem dueRow_l2 (s : State) (i : Instr) : (s.dueRow i).l2 = s.l2 := rfl
@[simp] theorem dueRow_l1 (s : State) (i : Instr) : (s.dueRow i).l1 = s.l1 := rfl
@[simp] theorem dueRow_tlb (s : State) (i : Instr) : (s.dueRow i).tlb = s.tlb := rfl
@[simp] theorem dueRow_lagoon (s : State) (i : Instr) : (s.dueRow i).lagoon = s.lagoon := rfl
@[simp] theorem dueRow_det (s : State) (i : Instr) : (s.dueRow i).det = s.det := rfl
@[simp] theorem dueRow_cores (s : State) (i : Instr) : (s.dueRow i).cores = s.cores := rfl
@[simp] theorem dueRow_ctxs (s : State) (i : Instr) : (s.dueRow i).ctxs = s.ctxs := rfl
@[simp] theorem dueRow_tasks (s : State) (i : Instr) : (s.dueRow i).tasks = s.tasks := rfl
@[simp] theorem dueRow_nextId (s : State) (i : Instr) : (s.dueRow i).nextId = s.nextId := rfl
@[simp] theorem dueRow_blocks (s : State) (i : Instr) : (s.dueRow i).blocks = s.blocks := rfl
@[simp] theorem dueRow_counters (s : State) (i : Instr) : (s.dueRow i).counters = s.counters := rfl
@[simp] theorem dueRow_graphs (s : State) (i : Instr) : (s.dueRow i).graphs = s.graphs := rfl
@[simp] theorem dueRow_sqs (s : State) (i : Instr) : (s.dueRow i).sqs = s.sqs := rfl
@[simp] theorem dueRow_gqs (s : State) (i : Instr) : (s.dueRow i).gqs = s.gqs := rfl
@[simp] theorem dueRow_pools (s : State) (i : Instr) : (s.dueRow i).pools = s.pools := rfl
@[simp] theorem dueRow_spatial (s : State) (i : Instr) : (s.dueRow i).spatial = s.spatial := rfl
@[simp] theorem dueRow_trap (s : State) (i : Instr) : (s.dueRow i).trap = s.trap := rfl
@[simp] theorem dueRow_err (s : State) (i : Instr) : (s.dueRow i).err = s.err := rfl
@[simp] theorem dueRow_rtc (s : State) (i : Instr) : (s.dueRow i).rtc = s.rtc := rfl
@[simp] theorem dueRow_clk (s : State) (i : Instr) : (s.dueRow i).clk = s.clk := rfl
@[simp] theorem dueRow_dcfg (s : State) (i : Instr) : (s.dueRow i).dcfg = s.dcfg := rfl
@[simp] theorem dueRow_dcnt (s : State) (i : Instr) : (s.dueRow i).dcnt = s.dcnt := rfl
@[simp] theorem dueRow_win (s : State) (i : Instr) : (s.dueRow i).win = s.win := rfl
@[simp] theorem dueRow_hostq (s : State) (i : Instr) : (s.dueRow i).hostq = s.hostq := rfl
@[simp] theorem dueRow_again (s : State) (i : Instr) : (s.dueRow i).again = s.again := rfl
@[simp] theorem dueRow_links (s : State) (i : Instr) : (s.dueRow i).links = s.links := rfl
@[simp] theorem dueRow_coh (s : State) (i : Instr) : (s.dueRow i).coh = s.coh := rfl
@[simp] theorem dueRow_mscrub (s : State) (i : Instr) : (s.dueRow i).mscrub = s.mscrub := rfl
@[simp] theorem dueRow_chans (s : State) (i : Instr) : (s.dueRow i).chans = s.chans := rfl
@[simp] theorem dueRow_pwr (s : State) (i : Instr) : (s.dueRow i).pwr = s.pwr := rfl
@[simp] theorem dueRow_cfg (s : State) (i : Instr) : (s.dueRow i).cfg = s.cfg := rfl
@[simp] theorem dueRow_fw (s : State) (i : Instr) : (s.dueRow i).fw = s.fw := rfl
@[simp] theorem dueRow_creg (s : State) (i : Instr) : (s.dueRow i).creg = s.creg := rfl
@[simp] theorem dueRow_passed (s : State) (i : Instr) : (s.dueRow i).passed = s.passed := rfl
@[simp] theorem dueRow_unrouted (s : State) (i : Instr) : (s.dueRow i).unrouted = s.unrouted := rfl
@[simp] theorem dueRow_counted (s : State) (i : Instr) : (s.dueRow i).counted = s.counted := rfl
@[simp] theorem dueRow_upsets (s : State) (i : Instr) : (s.dueRow i).upsets = s.upsets := rfl
@[simp] theorem dueRow_kept (s : State) (i : Instr) : (s.dueRow i).kept = s.kept := rfl

@[simp] theorem draw_agenda (s : State) : (s.draw ).agenda = s.agenda := rfl
@[simp] theorem draw_tick (s : State) : (s.draw ).tick = s.tick := rfl
@[simp] theorem draw_outbox (s : State) : (s.draw ).outbox = s.outbox := rfl
@[simp] theorem draw_bus (s : State) : (s.draw ).bus = s.bus := rfl
@[simp] theorem draw_rx (s : State) : (s.draw ).rx = s.rx := rfl
@[simp] theorem draw_g (s : State) : (s.draw ).g = s.g := rfl
@[simp] theorem draw_groups (s : State) : (s.draw ).groups = s.groups := rfl
@[simp] theorem draw_mem (s : State) : (s.draw ).mem = s.mem := rfl
@[simp] theorem draw_side (s : State) : (s.draw ).side = s.side := rfl
@[simp] theorem draw_hostmem (s : State) : (s.draw ).hostmem = s.hostmem := rfl
@[simp] theorem draw_sp (s : State) : (s.draw ).sp = s.sp := rfl
@[simp] theorem draw_l2 (s : State) : (s.draw ).l2 = s.l2 := rfl
@[simp] theorem draw_l1 (s : State) : (s.draw ).l1 = s.l1 := rfl
@[simp] theorem draw_tlb (s : State) : (s.draw ).tlb = s.tlb := rfl
@[simp] theorem draw_lagoon (s : State) : (s.draw ).lagoon = s.lagoon := rfl
@[simp] theorem draw_det (s : State) : (s.draw ).det = s.det := rfl
@[simp] theorem draw_cores (s : State) : (s.draw ).cores = s.cores := rfl
@[simp] theorem draw_ctxs (s : State) : (s.draw ).ctxs = s.ctxs := rfl
@[simp] theorem draw_tasks (s : State) : (s.draw ).tasks = s.tasks := rfl
@[simp] theorem draw_nextId (s : State) : (s.draw ).nextId = s.nextId := rfl
@[simp] theorem draw_blocks (s : State) : (s.draw ).blocks = s.blocks := rfl
@[simp] theorem draw_counters (s : State) : (s.draw ).counters = s.counters := rfl
@[simp] theorem draw_graphs (s : State) : (s.draw ).graphs = s.graphs := rfl
@[simp] theorem draw_sqs (s : State) : (s.draw ).sqs = s.sqs := rfl
@[simp] theorem draw_gqs (s : State) : (s.draw ).gqs = s.gqs := rfl
@[simp] theorem draw_pools (s : State) : (s.draw ).pools = s.pools := rfl
@[simp] theorem draw_spatial (s : State) : (s.draw ).spatial = s.spatial := rfl
@[simp] theorem draw_trap (s : State) : (s.draw ).trap = s.trap := rfl
@[simp] theorem draw_err (s : State) : (s.draw ).err = s.err := rfl
@[simp] theorem draw_rtc (s : State) : (s.draw ).rtc = s.rtc := rfl
@[simp] theorem draw_clk (s : State) : (s.draw ).clk = s.clk := rfl
@[simp] theorem draw_dcfg (s : State) : (s.draw ).dcfg = s.dcfg := rfl
@[simp] theorem draw_dcnt (s : State) : (s.draw ).dcnt = s.dcnt := rfl
@[simp] theorem draw_win (s : State) : (s.draw ).win = s.win := rfl
@[simp] theorem draw_hostq (s : State) : (s.draw ).hostq = s.hostq := rfl
@[simp] theorem draw_again (s : State) : (s.draw ).again = s.again := rfl
@[simp] theorem draw_links (s : State) : (s.draw ).links = s.links := rfl
@[simp] theorem draw_coh (s : State) : (s.draw ).coh = s.coh := rfl
@[simp] theorem draw_mscrub (s : State) : (s.draw ).mscrub = s.mscrub := rfl
@[simp] theorem draw_chans (s : State) : (s.draw ).chans = s.chans := rfl
@[simp] theorem draw_pwr (s : State) : (s.draw ).pwr = s.pwr := rfl
@[simp] theorem draw_cfg (s : State) : (s.draw ).cfg = s.cfg := rfl
@[simp] theorem draw_fw (s : State) : (s.draw ).fw = s.fw := rfl
@[simp] theorem draw_creg (s : State) : (s.draw ).creg = s.creg := rfl
@[simp] theorem draw_passed (s : State) : (s.draw ).passed = s.passed := rfl
@[simp] theorem draw_unrouted (s : State) : (s.draw ).unrouted = s.unrouted := rfl
@[simp] theorem draw_counted (s : State) : (s.draw ).counted = s.counted := rfl
@[simp] theorem draw_upsets (s : State) : (s.draw ).upsets = s.upsets := rfl
@[simp] theorem draw_kept (s : State) : (s.draw ).kept = s.kept := rfl

@[simp] theorem mapGroups_agenda (s : State) (f : Group → Group) : (s.mapGroups f).agenda = s.agenda := rfl
@[simp] theorem mapGroups_tick (s : State) (f : Group → Group) : (s.mapGroups f).tick = s.tick := rfl
@[simp] theorem mapGroups_freeCtr (s : State) (f : Group → Group) : (s.mapGroups f).freeCtr = s.freeCtr := rfl
@[simp] theorem mapGroups_outbox (s : State) (f : Group → Group) : (s.mapGroups f).outbox = s.outbox := rfl
@[simp] theorem mapGroups_bus (s : State) (f : Group → Group) : (s.mapGroups f).bus = s.bus := rfl
@[simp] theorem mapGroups_rx (s : State) (f : Group → Group) : (s.mapGroups f).rx = s.rx := rfl
@[simp] theorem mapGroups_mem (s : State) (f : Group → Group) : (s.mapGroups f).mem = s.mem := rfl
@[simp] theorem mapGroups_side (s : State) (f : Group → Group) : (s.mapGroups f).side = s.side := rfl
@[simp] theorem mapGroups_hostmem (s : State) (f : Group → Group) : (s.mapGroups f).hostmem = s.hostmem := rfl
@[simp] theorem mapGroups_sp (s : State) (f : Group → Group) : (s.mapGroups f).sp = s.sp := rfl
@[simp] theorem mapGroups_l2 (s : State) (f : Group → Group) : (s.mapGroups f).l2 = s.l2 := rfl
@[simp] theorem mapGroups_l1 (s : State) (f : Group → Group) : (s.mapGroups f).l1 = s.l1 := rfl
@[simp] theorem mapGroups_tlb (s : State) (f : Group → Group) : (s.mapGroups f).tlb = s.tlb := rfl
@[simp] theorem mapGroups_lagoon (s : State) (f : Group → Group) : (s.mapGroups f).lagoon = s.lagoon := rfl
@[simp] theorem mapGroups_det (s : State) (f : Group → Group) : (s.mapGroups f).det = s.det := rfl
@[simp] theorem mapGroups_cores (s : State) (f : Group → Group) : (s.mapGroups f).cores = s.cores := rfl
@[simp] theorem mapGroups_ctxs (s : State) (f : Group → Group) : (s.mapGroups f).ctxs = s.ctxs := rfl
@[simp] theorem mapGroups_tasks (s : State) (f : Group → Group) : (s.mapGroups f).tasks = s.tasks := rfl
@[simp] theorem mapGroups_nextId (s : State) (f : Group → Group) : (s.mapGroups f).nextId = s.nextId := rfl
@[simp] theorem mapGroups_blocks (s : State) (f : Group → Group) : (s.mapGroups f).blocks = s.blocks := rfl
@[simp] theorem mapGroups_counters (s : State) (f : Group → Group) : (s.mapGroups f).counters = s.counters := rfl
@[simp] theorem mapGroups_graphs (s : State) (f : Group → Group) : (s.mapGroups f).graphs = s.graphs := rfl
@[simp] theorem mapGroups_sqs (s : State) (f : Group → Group) : (s.mapGroups f).sqs = s.sqs := rfl
@[simp] theorem mapGroups_gqs (s : State) (f : Group → Group) : (s.mapGroups f).gqs = s.gqs := rfl
@[simp] theorem mapGroups_pools (s : State) (f : Group → Group) : (s.mapGroups f).pools = s.pools := rfl
@[simp] theorem mapGroups_spatial (s : State) (f : Group → Group) : (s.mapGroups f).spatial = s.spatial := rfl
@[simp] theorem mapGroups_trap (s : State) (f : Group → Group) : (s.mapGroups f).trap = s.trap := rfl
@[simp] theorem mapGroups_err (s : State) (f : Group → Group) : (s.mapGroups f).err = s.err := rfl
@[simp] theorem mapGroups_rtc (s : State) (f : Group → Group) : (s.mapGroups f).rtc = s.rtc := rfl
@[simp] theorem mapGroups_clk (s : State) (f : Group → Group) : (s.mapGroups f).clk = s.clk := rfl
@[simp] theorem mapGroups_dcfg (s : State) (f : Group → Group) : (s.mapGroups f).dcfg = s.dcfg := rfl
@[simp] theorem mapGroups_dcnt (s : State) (f : Group → Group) : (s.mapGroups f).dcnt = s.dcnt := rfl
@[simp] theorem mapGroups_win (s : State) (f : Group → Group) : (s.mapGroups f).win = s.win := rfl
@[simp] theorem mapGroups_hostq (s : State) (f : Group → Group) : (s.mapGroups f).hostq = s.hostq := rfl
@[simp] theorem mapGroups_again (s : State) (f : Group → Group) : (s.mapGroups f).again = s.again := rfl
@[simp] theorem mapGroups_links (s : State) (f : Group → Group) : (s.mapGroups f).links = s.links := rfl
@[simp] theorem mapGroups_coh (s : State) (f : Group → Group) : (s.mapGroups f).coh = s.coh := rfl
@[simp] theorem mapGroups_mscrub (s : State) (f : Group → Group) : (s.mapGroups f).mscrub = s.mscrub := rfl
@[simp] theorem mapGroups_chans (s : State) (f : Group → Group) : (s.mapGroups f).chans = s.chans := rfl
@[simp] theorem mapGroups_pwr (s : State) (f : Group → Group) : (s.mapGroups f).pwr = s.pwr := rfl
@[simp] theorem mapGroups_cfg (s : State) (f : Group → Group) : (s.mapGroups f).cfg = s.cfg := rfl
@[simp] theorem mapGroups_fw (s : State) (f : Group → Group) : (s.mapGroups f).fw = s.fw := rfl
@[simp] theorem mapGroups_creg (s : State) (f : Group → Group) : (s.mapGroups f).creg = s.creg := rfl
@[simp] theorem mapGroups_passed (s : State) (f : Group → Group) : (s.mapGroups f).passed = s.passed := rfl
@[simp] theorem mapGroups_unrouted (s : State) (f : Group → Group) : (s.mapGroups f).unrouted = s.unrouted := rfl
@[simp] theorem mapGroups_counted (s : State) (f : Group → Group) : (s.mapGroups f).counted = s.counted := rfl
@[simp] theorem mapGroups_upsets (s : State) (f : Group → Group) : (s.mapGroups f).upsets = s.upsets := rfl
@[simp] theorem mapGroups_kept (s : State) (f : Group → Group) : (s.mapGroups f).kept = s.kept := rfl

@[simp] theorem modBlock_agenda (s : State) (t b : Nat) (f : Block → Block) : (s.modBlock t b f).agenda = s.agenda := rfl
@[simp] theorem modBlock_tick (s : State) (t b : Nat) (f : Block → Block) : (s.modBlock t b f).tick = s.tick := rfl
@[simp] theorem modBlock_freeCtr (s : State) (t b : Nat) (f : Block → Block) : (s.modBlock t b f).freeCtr = s.freeCtr := rfl
@[simp] theorem modBlock_outbox (s : State) (t b : Nat) (f : Block → Block) : (s.modBlock t b f).outbox = s.outbox := rfl
@[simp] theorem modBlock_bus (s : State) (t b : Nat) (f : Block → Block) : (s.modBlock t b f).bus = s.bus := rfl
@[simp] theorem modBlock_rx (s : State) (t b : Nat) (f : Block → Block) : (s.modBlock t b f).rx = s.rx := rfl
@[simp] theorem modBlock_g (s : State) (t b : Nat) (f : Block → Block) : (s.modBlock t b f).g = s.g := rfl
@[simp] theorem modBlock_groups (s : State) (t b : Nat) (f : Block → Block) : (s.modBlock t b f).groups = s.groups := rfl
@[simp] theorem modBlock_mem (s : State) (t b : Nat) (f : Block → Block) : (s.modBlock t b f).mem = s.mem := rfl
@[simp] theorem modBlock_side (s : State) (t b : Nat) (f : Block → Block) : (s.modBlock t b f).side = s.side := rfl
@[simp] theorem modBlock_hostmem (s : State) (t b : Nat) (f : Block → Block) : (s.modBlock t b f).hostmem = s.hostmem := rfl
@[simp] theorem modBlock_sp (s : State) (t b : Nat) (f : Block → Block) : (s.modBlock t b f).sp = s.sp := rfl
@[simp] theorem modBlock_l2 (s : State) (t b : Nat) (f : Block → Block) : (s.modBlock t b f).l2 = s.l2 := rfl
@[simp] theorem modBlock_l1 (s : State) (t b : Nat) (f : Block → Block) : (s.modBlock t b f).l1 = s.l1 := rfl
@[simp] theorem modBlock_tlb (s : State) (t b : Nat) (f : Block → Block) : (s.modBlock t b f).tlb = s.tlb := rfl
@[simp] theorem modBlock_lagoon (s : State) (t b : Nat) (f : Block → Block) : (s.modBlock t b f).lagoon = s.lagoon := rfl
@[simp] theorem modBlock_det (s : State) (t b : Nat) (f : Block → Block) : (s.modBlock t b f).det = s.det := rfl
@[simp] theorem modBlock_cores (s : State) (t b : Nat) (f : Block → Block) : (s.modBlock t b f).cores = s.cores := rfl
@[simp] theorem modBlock_ctxs (s : State) (t b : Nat) (f : Block → Block) : (s.modBlock t b f).ctxs = s.ctxs := rfl
@[simp] theorem modBlock_tasks (s : State) (t b : Nat) (f : Block → Block) : (s.modBlock t b f).tasks = s.tasks := rfl
@[simp] theorem modBlock_nextId (s : State) (t b : Nat) (f : Block → Block) : (s.modBlock t b f).nextId = s.nextId := rfl
@[simp] theorem modBlock_counters (s : State) (t b : Nat) (f : Block → Block) : (s.modBlock t b f).counters = s.counters := rfl
@[simp] theorem modBlock_graphs (s : State) (t b : Nat) (f : Block → Block) : (s.modBlock t b f).graphs = s.graphs := rfl
@[simp] theorem modBlock_sqs (s : State) (t b : Nat) (f : Block → Block) : (s.modBlock t b f).sqs = s.sqs := rfl
@[simp] theorem modBlock_gqs (s : State) (t b : Nat) (f : Block → Block) : (s.modBlock t b f).gqs = s.gqs := rfl
@[simp] theorem modBlock_pools (s : State) (t b : Nat) (f : Block → Block) : (s.modBlock t b f).pools = s.pools := rfl
@[simp] theorem modBlock_spatial (s : State) (t b : Nat) (f : Block → Block) : (s.modBlock t b f).spatial = s.spatial := rfl
@[simp] theorem modBlock_trap (s : State) (t b : Nat) (f : Block → Block) : (s.modBlock t b f).trap = s.trap := rfl
@[simp] theorem modBlock_err (s : State) (t b : Nat) (f : Block → Block) : (s.modBlock t b f).err = s.err := rfl
@[simp] theorem modBlock_rtc (s : State) (t b : Nat) (f : Block → Block) : (s.modBlock t b f).rtc = s.rtc := rfl
@[simp] theorem modBlock_clk (s : State) (t b : Nat) (f : Block → Block) : (s.modBlock t b f).clk = s.clk := rfl
@[simp] theorem modBlock_dcfg (s : State) (t b : Nat) (f : Block → Block) : (s.modBlock t b f).dcfg = s.dcfg := rfl
@[simp] theorem modBlock_dcnt (s : State) (t b : Nat) (f : Block → Block) : (s.modBlock t b f).dcnt = s.dcnt := rfl
@[simp] theorem modBlock_win (s : State) (t b : Nat) (f : Block → Block) : (s.modBlock t b f).win = s.win := rfl
@[simp] theorem modBlock_hostq (s : State) (t b : Nat) (f : Block → Block) : (s.modBlock t b f).hostq = s.hostq := rfl
@[simp] theorem modBlock_again (s : State) (t b : Nat) (f : Block → Block) : (s.modBlock t b f).again = s.again := rfl
@[simp] theorem modBlock_links (s : State) (t b : Nat) (f : Block → Block) : (s.modBlock t b f).links = s.links := rfl
@[simp] theorem modBlock_coh (s : State) (t b : Nat) (f : Block → Block) : (s.modBlock t b f).coh = s.coh := rfl
@[simp] theorem modBlock_mscrub (s : State) (t b : Nat) (f : Block → Block) : (s.modBlock t b f).mscrub = s.mscrub := rfl
@[simp] theorem modBlock_chans (s : State) (t b : Nat) (f : Block → Block) : (s.modBlock t b f).chans = s.chans := rfl
@[simp] theorem modBlock_pwr (s : State) (t b : Nat) (f : Block → Block) : (s.modBlock t b f).pwr = s.pwr := rfl
@[simp] theorem modBlock_cfg (s : State) (t b : Nat) (f : Block → Block) : (s.modBlock t b f).cfg = s.cfg := rfl
@[simp] theorem modBlock_fw (s : State) (t b : Nat) (f : Block → Block) : (s.modBlock t b f).fw = s.fw := rfl
@[simp] theorem modBlock_creg (s : State) (t b : Nat) (f : Block → Block) : (s.modBlock t b f).creg = s.creg := rfl
@[simp] theorem modBlock_passed (s : State) (t b : Nat) (f : Block → Block) : (s.modBlock t b f).passed = s.passed := rfl
@[simp] theorem modBlock_unrouted (s : State) (t b : Nat) (f : Block → Block) : (s.modBlock t b f).unrouted = s.unrouted := rfl
@[simp] theorem modBlock_counted (s : State) (t b : Nat) (f : Block → Block) : (s.modBlock t b f).counted = s.counted := rfl
@[simp] theorem modBlock_upsets (s : State) (t b : Nat) (f : Block → Block) : (s.modBlock t b f).upsets = s.upsets := rfl
@[simp] theorem modBlock_kept (s : State) (t b : Nat) (f : Block → Block) : (s.modBlock t b f).kept = s.kept := rfl

@[simp] theorem modTask_agenda (s : State) (id : Nat) (f : Task → Task) : (s.modTask id f).agenda = s.agenda := rfl
@[simp] theorem modTask_tick (s : State) (id : Nat) (f : Task → Task) : (s.modTask id f).tick = s.tick := rfl
@[simp] theorem modTask_freeCtr (s : State) (id : Nat) (f : Task → Task) : (s.modTask id f).freeCtr = s.freeCtr := rfl
@[simp] theorem modTask_outbox (s : State) (id : Nat) (f : Task → Task) : (s.modTask id f).outbox = s.outbox := rfl
@[simp] theorem modTask_bus (s : State) (id : Nat) (f : Task → Task) : (s.modTask id f).bus = s.bus := rfl
@[simp] theorem modTask_rx (s : State) (id : Nat) (f : Task → Task) : (s.modTask id f).rx = s.rx := rfl
@[simp] theorem modTask_g (s : State) (id : Nat) (f : Task → Task) : (s.modTask id f).g = s.g := rfl
@[simp] theorem modTask_groups (s : State) (id : Nat) (f : Task → Task) : (s.modTask id f).groups = s.groups := rfl
@[simp] theorem modTask_mem (s : State) (id : Nat) (f : Task → Task) : (s.modTask id f).mem = s.mem := rfl
@[simp] theorem modTask_side (s : State) (id : Nat) (f : Task → Task) : (s.modTask id f).side = s.side := rfl
@[simp] theorem modTask_hostmem (s : State) (id : Nat) (f : Task → Task) : (s.modTask id f).hostmem = s.hostmem := rfl
@[simp] theorem modTask_sp (s : State) (id : Nat) (f : Task → Task) : (s.modTask id f).sp = s.sp := rfl
@[simp] theorem modTask_l2 (s : State) (id : Nat) (f : Task → Task) : (s.modTask id f).l2 = s.l2 := rfl
@[simp] theorem modTask_l1 (s : State) (id : Nat) (f : Task → Task) : (s.modTask id f).l1 = s.l1 := rfl
@[simp] theorem modTask_tlb (s : State) (id : Nat) (f : Task → Task) : (s.modTask id f).tlb = s.tlb := rfl
@[simp] theorem modTask_lagoon (s : State) (id : Nat) (f : Task → Task) : (s.modTask id f).lagoon = s.lagoon := rfl
@[simp] theorem modTask_det (s : State) (id : Nat) (f : Task → Task) : (s.modTask id f).det = s.det := rfl
@[simp] theorem modTask_cores (s : State) (id : Nat) (f : Task → Task) : (s.modTask id f).cores = s.cores := rfl
@[simp] theorem modTask_ctxs (s : State) (id : Nat) (f : Task → Task) : (s.modTask id f).ctxs = s.ctxs := rfl
@[simp] theorem modTask_nextId (s : State) (id : Nat) (f : Task → Task) : (s.modTask id f).nextId = s.nextId := rfl
@[simp] theorem modTask_blocks (s : State) (id : Nat) (f : Task → Task) : (s.modTask id f).blocks = s.blocks := rfl
@[simp] theorem modTask_counters (s : State) (id : Nat) (f : Task → Task) : (s.modTask id f).counters = s.counters := rfl
@[simp] theorem modTask_graphs (s : State) (id : Nat) (f : Task → Task) : (s.modTask id f).graphs = s.graphs := rfl
@[simp] theorem modTask_sqs (s : State) (id : Nat) (f : Task → Task) : (s.modTask id f).sqs = s.sqs := rfl
@[simp] theorem modTask_gqs (s : State) (id : Nat) (f : Task → Task) : (s.modTask id f).gqs = s.gqs := rfl
@[simp] theorem modTask_pools (s : State) (id : Nat) (f : Task → Task) : (s.modTask id f).pools = s.pools := rfl
@[simp] theorem modTask_spatial (s : State) (id : Nat) (f : Task → Task) : (s.modTask id f).spatial = s.spatial := rfl
@[simp] theorem modTask_trap (s : State) (id : Nat) (f : Task → Task) : (s.modTask id f).trap = s.trap := rfl
@[simp] theorem modTask_err (s : State) (id : Nat) (f : Task → Task) : (s.modTask id f).err = s.err := rfl
@[simp] theorem modTask_rtc (s : State) (id : Nat) (f : Task → Task) : (s.modTask id f).rtc = s.rtc := rfl
@[simp] theorem modTask_clk (s : State) (id : Nat) (f : Task → Task) : (s.modTask id f).clk = s.clk := rfl
@[simp] theorem modTask_dcfg (s : State) (id : Nat) (f : Task → Task) : (s.modTask id f).dcfg = s.dcfg := rfl
@[simp] theorem modTask_dcnt (s : State) (id : Nat) (f : Task → Task) : (s.modTask id f).dcnt = s.dcnt := rfl
@[simp] theorem modTask_win (s : State) (id : Nat) (f : Task → Task) : (s.modTask id f).win = s.win := rfl
@[simp] theorem modTask_hostq (s : State) (id : Nat) (f : Task → Task) : (s.modTask id f).hostq = s.hostq := rfl
@[simp] theorem modTask_again (s : State) (id : Nat) (f : Task → Task) : (s.modTask id f).again = s.again := rfl
@[simp] theorem modTask_links (s : State) (id : Nat) (f : Task → Task) : (s.modTask id f).links = s.links := rfl
@[simp] theorem modTask_coh (s : State) (id : Nat) (f : Task → Task) : (s.modTask id f).coh = s.coh := rfl
@[simp] theorem modTask_mscrub (s : State) (id : Nat) (f : Task → Task) : (s.modTask id f).mscrub = s.mscrub := rfl
@[simp] theorem modTask_chans (s : State) (id : Nat) (f : Task → Task) : (s.modTask id f).chans = s.chans := rfl
@[simp] theorem modTask_pwr (s : State) (id : Nat) (f : Task → Task) : (s.modTask id f).pwr = s.pwr := rfl
@[simp] theorem modTask_cfg (s : State) (id : Nat) (f : Task → Task) : (s.modTask id f).cfg = s.cfg := rfl
@[simp] theorem modTask_fw (s : State) (id : Nat) (f : Task → Task) : (s.modTask id f).fw = s.fw := rfl
@[simp] theorem modTask_creg (s : State) (id : Nat) (f : Task → Task) : (s.modTask id f).creg = s.creg := rfl
@[simp] theorem modTask_passed (s : State) (id : Nat) (f : Task → Task) : (s.modTask id f).passed = s.passed := rfl
@[simp] theorem modTask_unrouted (s : State) (id : Nat) (f : Task → Task) : (s.modTask id f).unrouted = s.unrouted := rfl
@[simp] theorem modTask_counted (s : State) (id : Nat) (f : Task → Task) : (s.modTask id f).counted = s.counted := rfl
@[simp] theorem modTask_upsets (s : State) (id : Nat) (f : Task → Task) : (s.modTask id f).upsets = s.upsets := rfl
@[simp] theorem modTask_kept (s : State) (id : Nat) (f : Task → Task) : (s.modTask id f).kept = s.kept := rfl

@[simp] theorem countCore_agenda (s : State) (c src n : Nat) : (s.countCore c src n).agenda = s.agenda := rfl
@[simp] theorem countCore_tick (s : State) (c src n : Nat) : (s.countCore c src n).tick = s.tick := rfl
@[simp] theorem countCore_freeCtr (s : State) (c src n : Nat) : (s.countCore c src n).freeCtr = s.freeCtr := rfl
@[simp] theorem countCore_outbox (s : State) (c src n : Nat) : (s.countCore c src n).outbox = s.outbox := rfl
@[simp] theorem countCore_bus (s : State) (c src n : Nat) : (s.countCore c src n).bus = s.bus := rfl
@[simp] theorem countCore_rx (s : State) (c src n : Nat) : (s.countCore c src n).rx = s.rx := rfl
@[simp] theorem countCore_g (s : State) (c src n : Nat) : (s.countCore c src n).g = s.g := rfl
@[simp] theorem countCore_groups (s : State) (c src n : Nat) : (s.countCore c src n).groups = s.groups := rfl
@[simp] theorem countCore_mem (s : State) (c src n : Nat) : (s.countCore c src n).mem = s.mem := rfl
@[simp] theorem countCore_side (s : State) (c src n : Nat) : (s.countCore c src n).side = s.side := rfl
@[simp] theorem countCore_hostmem (s : State) (c src n : Nat) : (s.countCore c src n).hostmem = s.hostmem := rfl
@[simp] theorem countCore_sp (s : State) (c src n : Nat) : (s.countCore c src n).sp = s.sp := rfl
@[simp] theorem countCore_l2 (s : State) (c src n : Nat) : (s.countCore c src n).l2 = s.l2 := rfl
@[simp] theorem countCore_l1 (s : State) (c src n : Nat) : (s.countCore c src n).l1 = s.l1 := rfl
@[simp] theorem countCore_tlb (s : State) (c src n : Nat) : (s.countCore c src n).tlb = s.tlb := rfl
@[simp] theorem countCore_lagoon (s : State) (c src n : Nat) : (s.countCore c src n).lagoon = s.lagoon := rfl
@[simp] theorem countCore_det (s : State) (c src n : Nat) : (s.countCore c src n).det = s.det := rfl
@[simp] theorem countCore_ctxs (s : State) (c src n : Nat) : (s.countCore c src n).ctxs = s.ctxs := rfl
@[simp] theorem countCore_tasks (s : State) (c src n : Nat) : (s.countCore c src n).tasks = s.tasks := rfl
@[simp] theorem countCore_nextId (s : State) (c src n : Nat) : (s.countCore c src n).nextId = s.nextId := rfl
@[simp] theorem countCore_blocks (s : State) (c src n : Nat) : (s.countCore c src n).blocks = s.blocks := rfl
@[simp] theorem countCore_counters (s : State) (c src n : Nat) : (s.countCore c src n).counters = s.counters := rfl
@[simp] theorem countCore_graphs (s : State) (c src n : Nat) : (s.countCore c src n).graphs = s.graphs := rfl
@[simp] theorem countCore_sqs (s : State) (c src n : Nat) : (s.countCore c src n).sqs = s.sqs := rfl
@[simp] theorem countCore_gqs (s : State) (c src n : Nat) : (s.countCore c src n).gqs = s.gqs := rfl
@[simp] theorem countCore_pools (s : State) (c src n : Nat) : (s.countCore c src n).pools = s.pools := rfl
@[simp] theorem countCore_spatial (s : State) (c src n : Nat) : (s.countCore c src n).spatial = s.spatial := rfl
@[simp] theorem countCore_trap (s : State) (c src n : Nat) : (s.countCore c src n).trap = s.trap := rfl
@[simp] theorem countCore_err (s : State) (c src n : Nat) : (s.countCore c src n).err = s.err := rfl
@[simp] theorem countCore_rtc (s : State) (c src n : Nat) : (s.countCore c src n).rtc = s.rtc := rfl
@[simp] theorem countCore_clk (s : State) (c src n : Nat) : (s.countCore c src n).clk = s.clk := rfl
@[simp] theorem countCore_dcfg (s : State) (c src n : Nat) : (s.countCore c src n).dcfg = s.dcfg := rfl
@[simp] theorem countCore_dcnt (s : State) (c src n : Nat) : (s.countCore c src n).dcnt = s.dcnt := rfl
@[simp] theorem countCore_win (s : State) (c src n : Nat) : (s.countCore c src n).win = s.win := rfl
@[simp] theorem countCore_hostq (s : State) (c src n : Nat) : (s.countCore c src n).hostq = s.hostq := rfl
@[simp] theorem countCore_again (s : State) (c src n : Nat) : (s.countCore c src n).again = s.again := rfl
@[simp] theorem countCore_links (s : State) (c src n : Nat) : (s.countCore c src n).links = s.links := rfl
@[simp] theorem countCore_coh (s : State) (c src n : Nat) : (s.countCore c src n).coh = s.coh := rfl
@[simp] theorem countCore_mscrub (s : State) (c src n : Nat) : (s.countCore c src n).mscrub = s.mscrub := rfl
@[simp] theorem countCore_chans (s : State) (c src n : Nat) : (s.countCore c src n).chans = s.chans := rfl
@[simp] theorem countCore_pwr (s : State) (c src n : Nat) : (s.countCore c src n).pwr = s.pwr := rfl
@[simp] theorem countCore_cfg (s : State) (c src n : Nat) : (s.countCore c src n).cfg = s.cfg := rfl
@[simp] theorem countCore_fw (s : State) (c src n : Nat) : (s.countCore c src n).fw = s.fw := rfl
@[simp] theorem countCore_creg (s : State) (c src n : Nat) : (s.countCore c src n).creg = s.creg := rfl
@[simp] theorem countCore_passed (s : State) (c src n : Nat) : (s.countCore c src n).passed = s.passed := rfl
@[simp] theorem countCore_unrouted (s : State) (c src n : Nat) : (s.countCore c src n).unrouted = s.unrouted := rfl
@[simp] theorem countCore_counted (s : State) (c src n : Nat) : (s.countCore c src n).counted = s.counted := rfl
@[simp] theorem countCore_upsets (s : State) (c src n : Nat) : (s.countCore c src n).upsets = s.upsets := rfl
@[simp] theorem countCore_kept (s : State) (c src n : Nat) : (s.countCore c src n).kept = s.kept := rfl

@[simp] theorem countDev_agenda (s : State) (src n : Nat) : (s.countDev src n).agenda = s.agenda := rfl
@[simp] theorem countDev_tick (s : State) (src n : Nat) : (s.countDev src n).tick = s.tick := rfl
@[simp] theorem countDev_freeCtr (s : State) (src n : Nat) : (s.countDev src n).freeCtr = s.freeCtr := rfl
@[simp] theorem countDev_outbox (s : State) (src n : Nat) : (s.countDev src n).outbox = s.outbox := rfl
@[simp] theorem countDev_bus (s : State) (src n : Nat) : (s.countDev src n).bus = s.bus := rfl
@[simp] theorem countDev_rx (s : State) (src n : Nat) : (s.countDev src n).rx = s.rx := rfl
@[simp] theorem countDev_g (s : State) (src n : Nat) : (s.countDev src n).g = s.g := rfl
@[simp] theorem countDev_groups (s : State) (src n : Nat) : (s.countDev src n).groups = s.groups := rfl
@[simp] theorem countDev_mem (s : State) (src n : Nat) : (s.countDev src n).mem = s.mem := rfl
@[simp] theorem countDev_side (s : State) (src n : Nat) : (s.countDev src n).side = s.side := rfl
@[simp] theorem countDev_hostmem (s : State) (src n : Nat) : (s.countDev src n).hostmem = s.hostmem := rfl
@[simp] theorem countDev_sp (s : State) (src n : Nat) : (s.countDev src n).sp = s.sp := rfl
@[simp] theorem countDev_l2 (s : State) (src n : Nat) : (s.countDev src n).l2 = s.l2 := rfl
@[simp] theorem countDev_l1 (s : State) (src n : Nat) : (s.countDev src n).l1 = s.l1 := rfl
@[simp] theorem countDev_tlb (s : State) (src n : Nat) : (s.countDev src n).tlb = s.tlb := rfl
@[simp] theorem countDev_lagoon (s : State) (src n : Nat) : (s.countDev src n).lagoon = s.lagoon := rfl
@[simp] theorem countDev_det (s : State) (src n : Nat) : (s.countDev src n).det = s.det := rfl
@[simp] theorem countDev_cores (s : State) (src n : Nat) : (s.countDev src n).cores = s.cores := rfl
@[simp] theorem countDev_ctxs (s : State) (src n : Nat) : (s.countDev src n).ctxs = s.ctxs := rfl
@[simp] theorem countDev_tasks (s : State) (src n : Nat) : (s.countDev src n).tasks = s.tasks := rfl
@[simp] theorem countDev_nextId (s : State) (src n : Nat) : (s.countDev src n).nextId = s.nextId := rfl
@[simp] theorem countDev_blocks (s : State) (src n : Nat) : (s.countDev src n).blocks = s.blocks := rfl
@[simp] theorem countDev_counters (s : State) (src n : Nat) : (s.countDev src n).counters = s.counters := rfl
@[simp] theorem countDev_graphs (s : State) (src n : Nat) : (s.countDev src n).graphs = s.graphs := rfl
@[simp] theorem countDev_sqs (s : State) (src n : Nat) : (s.countDev src n).sqs = s.sqs := rfl
@[simp] theorem countDev_gqs (s : State) (src n : Nat) : (s.countDev src n).gqs = s.gqs := rfl
@[simp] theorem countDev_pools (s : State) (src n : Nat) : (s.countDev src n).pools = s.pools := rfl
@[simp] theorem countDev_spatial (s : State) (src n : Nat) : (s.countDev src n).spatial = s.spatial := rfl
@[simp] theorem countDev_trap (s : State) (src n : Nat) : (s.countDev src n).trap = s.trap := rfl
@[simp] theorem countDev_err (s : State) (src n : Nat) : (s.countDev src n).err = s.err := rfl
@[simp] theorem countDev_rtc (s : State) (src n : Nat) : (s.countDev src n).rtc = s.rtc := rfl
@[simp] theorem countDev_clk (s : State) (src n : Nat) : (s.countDev src n).clk = s.clk := rfl
@[simp] theorem countDev_dcfg (s : State) (src n : Nat) : (s.countDev src n).dcfg = s.dcfg := rfl
@[simp] theorem countDev_win (s : State) (src n : Nat) : (s.countDev src n).win = s.win := rfl
@[simp] theorem countDev_hostq (s : State) (src n : Nat) : (s.countDev src n).hostq = s.hostq := rfl
@[simp] theorem countDev_again (s : State) (src n : Nat) : (s.countDev src n).again = s.again := rfl
@[simp] theorem countDev_links (s : State) (src n : Nat) : (s.countDev src n).links = s.links := rfl
@[simp] theorem countDev_coh (s : State) (src n : Nat) : (s.countDev src n).coh = s.coh := rfl
@[simp] theorem countDev_mscrub (s : State) (src n : Nat) : (s.countDev src n).mscrub = s.mscrub := rfl
@[simp] theorem countDev_chans (s : State) (src n : Nat) : (s.countDev src n).chans = s.chans := rfl
@[simp] theorem countDev_pwr (s : State) (src n : Nat) : (s.countDev src n).pwr = s.pwr := rfl
@[simp] theorem countDev_cfg (s : State) (src n : Nat) : (s.countDev src n).cfg = s.cfg := rfl
@[simp] theorem countDev_fw (s : State) (src n : Nat) : (s.countDev src n).fw = s.fw := rfl
@[simp] theorem countDev_creg (s : State) (src n : Nat) : (s.countDev src n).creg = s.creg := rfl
@[simp] theorem countDev_passed (s : State) (src n : Nat) : (s.countDev src n).passed = s.passed := rfl
@[simp] theorem countDev_unrouted (s : State) (src n : Nat) : (s.countDev src n).unrouted = s.unrouted := rfl
@[simp] theorem countDev_counted (s : State) (src n : Nat) : (s.countDev src n).counted = s.counted := rfl
@[simp] theorem countDev_upsets (s : State) (src n : Nat) : (s.countDev src n).upsets = s.upsets := rfl
@[simp] theorem countDev_kept (s : State) (src n : Nat) : (s.countDev src n).kept = s.kept := rfl

@[simp] theorem trapDue_tick (s : State) (x : TrapSrc) (e : TrapEntry) : (s.trapDue x e).tick = s.tick := rfl
@[simp] theorem trapDue_freeCtr (s : State) (x : TrapSrc) (e : TrapEntry) : (s.trapDue x e).freeCtr = s.freeCtr := rfl
@[simp] theorem trapDue_outbox (s : State) (x : TrapSrc) (e : TrapEntry) : (s.trapDue x e).outbox = s.outbox := rfl
@[simp] theorem trapDue_bus (s : State) (x : TrapSrc) (e : TrapEntry) : (s.trapDue x e).bus = s.bus := rfl
@[simp] theorem trapDue_rx (s : State) (x : TrapSrc) (e : TrapEntry) : (s.trapDue x e).rx = s.rx := rfl
@[simp] theorem trapDue_g (s : State) (x : TrapSrc) (e : TrapEntry) : (s.trapDue x e).g = s.g := rfl
@[simp] theorem trapDue_groups (s : State) (x : TrapSrc) (e : TrapEntry) : (s.trapDue x e).groups = s.groups := rfl
@[simp] theorem trapDue_mem (s : State) (x : TrapSrc) (e : TrapEntry) : (s.trapDue x e).mem = s.mem := rfl
@[simp] theorem trapDue_side (s : State) (x : TrapSrc) (e : TrapEntry) : (s.trapDue x e).side = s.side := rfl
@[simp] theorem trapDue_hostmem (s : State) (x : TrapSrc) (e : TrapEntry) : (s.trapDue x e).hostmem = s.hostmem := rfl
@[simp] theorem trapDue_sp (s : State) (x : TrapSrc) (e : TrapEntry) : (s.trapDue x e).sp = s.sp := rfl
@[simp] theorem trapDue_l2 (s : State) (x : TrapSrc) (e : TrapEntry) : (s.trapDue x e).l2 = s.l2 := rfl
@[simp] theorem trapDue_l1 (s : State) (x : TrapSrc) (e : TrapEntry) : (s.trapDue x e).l1 = s.l1 := rfl
@[simp] theorem trapDue_tlb (s : State) (x : TrapSrc) (e : TrapEntry) : (s.trapDue x e).tlb = s.tlb := rfl
@[simp] theorem trapDue_lagoon (s : State) (x : TrapSrc) (e : TrapEntry) : (s.trapDue x e).lagoon = s.lagoon := rfl
@[simp] theorem trapDue_det (s : State) (x : TrapSrc) (e : TrapEntry) : (s.trapDue x e).det = s.det := rfl
@[simp] theorem trapDue_cores (s : State) (x : TrapSrc) (e : TrapEntry) : (s.trapDue x e).cores = s.cores := rfl
@[simp] theorem trapDue_ctxs (s : State) (x : TrapSrc) (e : TrapEntry) : (s.trapDue x e).ctxs = s.ctxs := rfl
@[simp] theorem trapDue_tasks (s : State) (x : TrapSrc) (e : TrapEntry) : (s.trapDue x e).tasks = s.tasks := rfl
@[simp] theorem trapDue_nextId (s : State) (x : TrapSrc) (e : TrapEntry) : (s.trapDue x e).nextId = s.nextId := rfl
@[simp] theorem trapDue_blocks (s : State) (x : TrapSrc) (e : TrapEntry) : (s.trapDue x e).blocks = s.blocks := rfl
@[simp] theorem trapDue_counters (s : State) (x : TrapSrc) (e : TrapEntry) : (s.trapDue x e).counters = s.counters := rfl
@[simp] theorem trapDue_graphs (s : State) (x : TrapSrc) (e : TrapEntry) : (s.trapDue x e).graphs = s.graphs := rfl
@[simp] theorem trapDue_sqs (s : State) (x : TrapSrc) (e : TrapEntry) : (s.trapDue x e).sqs = s.sqs := rfl
@[simp] theorem trapDue_gqs (s : State) (x : TrapSrc) (e : TrapEntry) : (s.trapDue x e).gqs = s.gqs := rfl
@[simp] theorem trapDue_pools (s : State) (x : TrapSrc) (e : TrapEntry) : (s.trapDue x e).pools = s.pools := rfl
@[simp] theorem trapDue_spatial (s : State) (x : TrapSrc) (e : TrapEntry) : (s.trapDue x e).spatial = s.spatial := rfl
@[simp] theorem trapDue_err (s : State) (x : TrapSrc) (e : TrapEntry) : (s.trapDue x e).err = s.err := rfl
@[simp] theorem trapDue_rtc (s : State) (x : TrapSrc) (e : TrapEntry) : (s.trapDue x e).rtc = s.rtc := rfl
@[simp] theorem trapDue_clk (s : State) (x : TrapSrc) (e : TrapEntry) : (s.trapDue x e).clk = s.clk := rfl
@[simp] theorem trapDue_dcfg (s : State) (x : TrapSrc) (e : TrapEntry) : (s.trapDue x e).dcfg = s.dcfg := rfl
@[simp] theorem trapDue_dcnt (s : State) (x : TrapSrc) (e : TrapEntry) : (s.trapDue x e).dcnt = s.dcnt := rfl
@[simp] theorem trapDue_win (s : State) (x : TrapSrc) (e : TrapEntry) : (s.trapDue x e).win = s.win := rfl
@[simp] theorem trapDue_hostq (s : State) (x : TrapSrc) (e : TrapEntry) : (s.trapDue x e).hostq = s.hostq := rfl
@[simp] theorem trapDue_again (s : State) (x : TrapSrc) (e : TrapEntry) : (s.trapDue x e).again = s.again := rfl
@[simp] theorem trapDue_links (s : State) (x : TrapSrc) (e : TrapEntry) : (s.trapDue x e).links = s.links := rfl
@[simp] theorem trapDue_coh (s : State) (x : TrapSrc) (e : TrapEntry) : (s.trapDue x e).coh = s.coh := rfl
@[simp] theorem trapDue_mscrub (s : State) (x : TrapSrc) (e : TrapEntry) : (s.trapDue x e).mscrub = s.mscrub := rfl
@[simp] theorem trapDue_chans (s : State) (x : TrapSrc) (e : TrapEntry) : (s.trapDue x e).chans = s.chans := rfl
@[simp] theorem trapDue_pwr (s : State) (x : TrapSrc) (e : TrapEntry) : (s.trapDue x e).pwr = s.pwr := rfl
@[simp] theorem trapDue_cfg (s : State) (x : TrapSrc) (e : TrapEntry) : (s.trapDue x e).cfg = s.cfg := rfl
@[simp] theorem trapDue_fw (s : State) (x : TrapSrc) (e : TrapEntry) : (s.trapDue x e).fw = s.fw := rfl
@[simp] theorem trapDue_creg (s : State) (x : TrapSrc) (e : TrapEntry) : (s.trapDue x e).creg = s.creg := rfl
@[simp] theorem trapDue_passed (s : State) (x : TrapSrc) (e : TrapEntry) : (s.trapDue x e).passed = s.passed := rfl
@[simp] theorem trapDue_unrouted (s : State) (x : TrapSrc) (e : TrapEntry) : (s.trapDue x e).unrouted = s.unrouted := rfl
@[simp] theorem trapDue_counted (s : State) (x : TrapSrc) (e : TrapEntry) : (s.trapDue x e).counted = s.counted := rfl
@[simp] theorem trapDue_upsets (s : State) (x : TrapSrc) (e : TrapEntry) : (s.trapDue x e).upsets = s.upsets := rfl
@[simp] theorem trapDue_kept (s : State) (x : TrapSrc) (e : TrapEntry) : (s.trapDue x e).kept = s.kept := rfl

@[simp] theorem moveOn_agenda (s : State) (i : Info) : (s.moveOn i).agenda = s.agenda := rfl
@[simp] theorem moveOn_tick (s : State) (i : Info) : (s.moveOn i).tick = s.tick := rfl
@[simp] theorem moveOn_freeCtr (s : State) (i : Info) : (s.moveOn i).freeCtr = s.freeCtr := rfl
@[simp] theorem moveOn_outbox (s : State) (i : Info) : (s.moveOn i).outbox = s.outbox := rfl
@[simp] theorem moveOn_bus (s : State) (i : Info) : (s.moveOn i).bus = s.bus := rfl
@[simp] theorem moveOn_rx (s : State) (i : Info) : (s.moveOn i).rx = s.rx := rfl
@[simp] theorem moveOn_groups (s : State) (i : Info) : (s.moveOn i).groups = s.groups := rfl
@[simp] theorem moveOn_mem (s : State) (i : Info) : (s.moveOn i).mem = s.mem := rfl
@[simp] theorem moveOn_side (s : State) (i : Info) : (s.moveOn i).side = s.side := rfl
@[simp] theorem moveOn_hostmem (s : State) (i : Info) : (s.moveOn i).hostmem = s.hostmem := rfl
@[simp] theorem moveOn_sp (s : State) (i : Info) : (s.moveOn i).sp = s.sp := rfl
@[simp] theorem moveOn_l2 (s : State) (i : Info) : (s.moveOn i).l2 = s.l2 := rfl
@[simp] theorem moveOn_l1 (s : State) (i : Info) : (s.moveOn i).l1 = s.l1 := rfl
@[simp] theorem moveOn_tlb (s : State) (i : Info) : (s.moveOn i).tlb = s.tlb := rfl
@[simp] theorem moveOn_lagoon (s : State) (i : Info) : (s.moveOn i).lagoon = s.lagoon := rfl
@[simp] theorem moveOn_det (s : State) (i : Info) : (s.moveOn i).det = s.det := rfl
@[simp] theorem moveOn_cores (s : State) (i : Info) : (s.moveOn i).cores = s.cores := rfl
@[simp] theorem moveOn_ctxs (s : State) (i : Info) : (s.moveOn i).ctxs = s.ctxs := rfl
@[simp] theorem moveOn_tasks (s : State) (i : Info) : (s.moveOn i).tasks = s.tasks := rfl
@[simp] theorem moveOn_nextId (s : State) (i : Info) : (s.moveOn i).nextId = s.nextId := rfl
@[simp] theorem moveOn_blocks (s : State) (i : Info) : (s.moveOn i).blocks = s.blocks := rfl
@[simp] theorem moveOn_counters (s : State) (i : Info) : (s.moveOn i).counters = s.counters := rfl
@[simp] theorem moveOn_graphs (s : State) (i : Info) : (s.moveOn i).graphs = s.graphs := rfl
@[simp] theorem moveOn_sqs (s : State) (i : Info) : (s.moveOn i).sqs = s.sqs := rfl
@[simp] theorem moveOn_gqs (s : State) (i : Info) : (s.moveOn i).gqs = s.gqs := rfl
@[simp] theorem moveOn_pools (s : State) (i : Info) : (s.moveOn i).pools = s.pools := rfl
@[simp] theorem moveOn_spatial (s : State) (i : Info) : (s.moveOn i).spatial = s.spatial := rfl
@[simp] theorem moveOn_trap (s : State) (i : Info) : (s.moveOn i).trap = s.trap := rfl
@[simp] theorem moveOn_err (s : State) (i : Info) : (s.moveOn i).err = s.err := rfl
@[simp] theorem moveOn_rtc (s : State) (i : Info) : (s.moveOn i).rtc = s.rtc := rfl
@[simp] theorem moveOn_clk (s : State) (i : Info) : (s.moveOn i).clk = s.clk := rfl
@[simp] theorem moveOn_dcfg (s : State) (i : Info) : (s.moveOn i).dcfg = s.dcfg := rfl
@[simp] theorem moveOn_dcnt (s : State) (i : Info) : (s.moveOn i).dcnt = s.dcnt := rfl
@[simp] theorem moveOn_win (s : State) (i : Info) : (s.moveOn i).win = s.win := rfl
@[simp] theorem moveOn_hostq (s : State) (i : Info) : (s.moveOn i).hostq = s.hostq := rfl
@[simp] theorem moveOn_again (s : State) (i : Info) : (s.moveOn i).again = s.again := rfl
@[simp] theorem moveOn_links (s : State) (i : Info) : (s.moveOn i).links = s.links := rfl
@[simp] theorem moveOn_coh (s : State) (i : Info) : (s.moveOn i).coh = s.coh := rfl
@[simp] theorem moveOn_mscrub (s : State) (i : Info) : (s.moveOn i).mscrub = s.mscrub := rfl
@[simp] theorem moveOn_chans (s : State) (i : Info) : (s.moveOn i).chans = s.chans := rfl
@[simp] theorem moveOn_pwr (s : State) (i : Info) : (s.moveOn i).pwr = s.pwr := rfl
@[simp] theorem moveOn_cfg (s : State) (i : Info) : (s.moveOn i).cfg = s.cfg := rfl
@[simp] theorem moveOn_fw (s : State) (i : Info) : (s.moveOn i).fw = s.fw := rfl
@[simp] theorem moveOn_creg (s : State) (i : Info) : (s.moveOn i).creg = s.creg := rfl
@[simp] theorem moveOn_passed (s : State) (i : Info) : (s.moveOn i).passed = s.passed := rfl
@[simp] theorem moveOn_unrouted (s : State) (i : Info) : (s.moveOn i).unrouted = s.unrouted := rfl
@[simp] theorem moveOn_counted (s : State) (i : Info) : (s.moveOn i).counted = s.counted := rfl
@[simp] theorem moveOn_upsets (s : State) (i : Info) : (s.moveOn i).upsets = s.upsets := rfl
@[simp] theorem moveOn_kept (s : State) (i : Info) : (s.moveOn i).kept = s.kept := rfl

@[simp] theorem waitFor_agenda (s : State) (w : Wait) (x : Option (BitVec 128)) : (s.waitFor w x).agenda = s.agenda := rfl
@[simp] theorem waitFor_tick (s : State) (w : Wait) (x : Option (BitVec 128)) : (s.waitFor w x).tick = s.tick := rfl
@[simp] theorem waitFor_freeCtr (s : State) (w : Wait) (x : Option (BitVec 128)) : (s.waitFor w x).freeCtr = s.freeCtr := rfl
@[simp] theorem waitFor_outbox (s : State) (w : Wait) (x : Option (BitVec 128)) : (s.waitFor w x).outbox = s.outbox := rfl
@[simp] theorem waitFor_bus (s : State) (w : Wait) (x : Option (BitVec 128)) : (s.waitFor w x).bus = s.bus := rfl
@[simp] theorem waitFor_rx (s : State) (w : Wait) (x : Option (BitVec 128)) : (s.waitFor w x).rx = s.rx := rfl
@[simp] theorem waitFor_groups (s : State) (w : Wait) (x : Option (BitVec 128)) : (s.waitFor w x).groups = s.groups := rfl
@[simp] theorem waitFor_mem (s : State) (w : Wait) (x : Option (BitVec 128)) : (s.waitFor w x).mem = s.mem := rfl
@[simp] theorem waitFor_side (s : State) (w : Wait) (x : Option (BitVec 128)) : (s.waitFor w x).side = s.side := rfl
@[simp] theorem waitFor_hostmem (s : State) (w : Wait) (x : Option (BitVec 128)) : (s.waitFor w x).hostmem = s.hostmem := rfl
@[simp] theorem waitFor_sp (s : State) (w : Wait) (x : Option (BitVec 128)) : (s.waitFor w x).sp = s.sp := rfl
@[simp] theorem waitFor_l2 (s : State) (w : Wait) (x : Option (BitVec 128)) : (s.waitFor w x).l2 = s.l2 := rfl
@[simp] theorem waitFor_l1 (s : State) (w : Wait) (x : Option (BitVec 128)) : (s.waitFor w x).l1 = s.l1 := rfl
@[simp] theorem waitFor_tlb (s : State) (w : Wait) (x : Option (BitVec 128)) : (s.waitFor w x).tlb = s.tlb := rfl
@[simp] theorem waitFor_lagoon (s : State) (w : Wait) (x : Option (BitVec 128)) : (s.waitFor w x).lagoon = s.lagoon := rfl
@[simp] theorem waitFor_det (s : State) (w : Wait) (x : Option (BitVec 128)) : (s.waitFor w x).det = s.det := rfl
@[simp] theorem waitFor_cores (s : State) (w : Wait) (x : Option (BitVec 128)) : (s.waitFor w x).cores = s.cores := rfl
@[simp] theorem waitFor_ctxs (s : State) (w : Wait) (x : Option (BitVec 128)) : (s.waitFor w x).ctxs = s.ctxs := rfl
@[simp] theorem waitFor_tasks (s : State) (w : Wait) (x : Option (BitVec 128)) : (s.waitFor w x).tasks = s.tasks := rfl
@[simp] theorem waitFor_nextId (s : State) (w : Wait) (x : Option (BitVec 128)) : (s.waitFor w x).nextId = s.nextId := rfl
@[simp] theorem waitFor_blocks (s : State) (w : Wait) (x : Option (BitVec 128)) : (s.waitFor w x).blocks = s.blocks := rfl
@[simp] theorem waitFor_counters (s : State) (w : Wait) (x : Option (BitVec 128)) : (s.waitFor w x).counters = s.counters := rfl
@[simp] theorem waitFor_graphs (s : State) (w : Wait) (x : Option (BitVec 128)) : (s.waitFor w x).graphs = s.graphs := rfl
@[simp] theorem waitFor_sqs (s : State) (w : Wait) (x : Option (BitVec 128)) : (s.waitFor w x).sqs = s.sqs := rfl
@[simp] theorem waitFor_gqs (s : State) (w : Wait) (x : Option (BitVec 128)) : (s.waitFor w x).gqs = s.gqs := rfl
@[simp] theorem waitFor_pools (s : State) (w : Wait) (x : Option (BitVec 128)) : (s.waitFor w x).pools = s.pools := rfl
@[simp] theorem waitFor_spatial (s : State) (w : Wait) (x : Option (BitVec 128)) : (s.waitFor w x).spatial = s.spatial := rfl
@[simp] theorem waitFor_trap (s : State) (w : Wait) (x : Option (BitVec 128)) : (s.waitFor w x).trap = s.trap := rfl
@[simp] theorem waitFor_err (s : State) (w : Wait) (x : Option (BitVec 128)) : (s.waitFor w x).err = s.err := rfl
@[simp] theorem waitFor_rtc (s : State) (w : Wait) (x : Option (BitVec 128)) : (s.waitFor w x).rtc = s.rtc := rfl
@[simp] theorem waitFor_clk (s : State) (w : Wait) (x : Option (BitVec 128)) : (s.waitFor w x).clk = s.clk := rfl
@[simp] theorem waitFor_dcfg (s : State) (w : Wait) (x : Option (BitVec 128)) : (s.waitFor w x).dcfg = s.dcfg := rfl
@[simp] theorem waitFor_dcnt (s : State) (w : Wait) (x : Option (BitVec 128)) : (s.waitFor w x).dcnt = s.dcnt := rfl
@[simp] theorem waitFor_win (s : State) (w : Wait) (x : Option (BitVec 128)) : (s.waitFor w x).win = s.win := rfl
@[simp] theorem waitFor_hostq (s : State) (w : Wait) (x : Option (BitVec 128)) : (s.waitFor w x).hostq = s.hostq := rfl
@[simp] theorem waitFor_again (s : State) (w : Wait) (x : Option (BitVec 128)) : (s.waitFor w x).again = s.again := rfl
@[simp] theorem waitFor_links (s : State) (w : Wait) (x : Option (BitVec 128)) : (s.waitFor w x).links = s.links := rfl
@[simp] theorem waitFor_coh (s : State) (w : Wait) (x : Option (BitVec 128)) : (s.waitFor w x).coh = s.coh := rfl
@[simp] theorem waitFor_mscrub (s : State) (w : Wait) (x : Option (BitVec 128)) : (s.waitFor w x).mscrub = s.mscrub := rfl
@[simp] theorem waitFor_chans (s : State) (w : Wait) (x : Option (BitVec 128)) : (s.waitFor w x).chans = s.chans := rfl
@[simp] theorem waitFor_pwr (s : State) (w : Wait) (x : Option (BitVec 128)) : (s.waitFor w x).pwr = s.pwr := rfl
@[simp] theorem waitFor_cfg (s : State) (w : Wait) (x : Option (BitVec 128)) : (s.waitFor w x).cfg = s.cfg := rfl
@[simp] theorem waitFor_fw (s : State) (w : Wait) (x : Option (BitVec 128)) : (s.waitFor w x).fw = s.fw := rfl
@[simp] theorem waitFor_creg (s : State) (w : Wait) (x : Option (BitVec 128)) : (s.waitFor w x).creg = s.creg := rfl
@[simp] theorem waitFor_passed (s : State) (w : Wait) (x : Option (BitVec 128)) : (s.waitFor w x).passed = s.passed := rfl
@[simp] theorem waitFor_unrouted (s : State) (w : Wait) (x : Option (BitVec 128)) : (s.waitFor w x).unrouted = s.unrouted := rfl
@[simp] theorem waitFor_counted (s : State) (w : Wait) (x : Option (BitVec 128)) : (s.waitFor w x).counted = s.counted := rfl
@[simp] theorem waitFor_upsets (s : State) (w : Wait) (x : Option (BitVec 128)) : (s.waitFor w x).upsets = s.upsets := rfl
@[simp] theorem waitFor_kept (s : State) (w : Wait) (x : Option (BitVec 128)) : (s.waitFor w x).kept = s.kept := rfl

@[simp] theorem wv_task (g : Group) (r : VReg) (l : Nat) (x : Word) : (g.wv r l x).task = g.task := by
  unfold Group.wv; split <;> rfl
@[simp] theorem wv_block (g : Group) (r : VReg) (l : Nat) (x : Word) : (g.wv r l x).block = g.block := by
  unfold Group.wv; split <;> rfl
@[simp] theorem wv_index (g : Group) (r : VReg) (l : Nat) (x : Word) : (g.wv r l x).index = g.index := by
  unfold Group.wv; split <;> rfl
@[simp] theorem wv_ctx (g : Group) (r : VReg) (l : Nat) (x : Word) : (g.wv r l x).ctx = g.ctx := by
  unfold Group.wv; split <;> rfl
@[simp] theorem wv_core (g : Group) (r : VReg) (l : Nat) (x : Word) : (g.wv r l x).core = g.core := by
  unfold Group.wv; split <;> rfl
@[simp] theorem wv_slot (g : Group) (r : VReg) (l : Nat) (x : Word) : (g.wv r l x).slot = g.slot := by
  unfold Group.wv; split <;> rfl
@[simp] theorem wv_width (g : Group) (r : VReg) (l : Nat) (x : Word) : (g.wv r l x).width = g.width := by
  unfold Group.wv; split <;> rfl
@[simp] theorem wv_role (g : Group) (r : VReg) (l : Nat) (x : Word) : (g.wv r l x).role = g.role := by
  unfold Group.wv; split <;> rfl
@[simp] theorem wv_enc (g : Group) (r : VReg) (l : Nat) (x : Word) : (g.wv r l x).enc = g.enc := by
  unfold Group.wv; split <;> rfl
@[simp] theorem wv_det (g : Group) (r : VReg) (l : Nat) (x : Word) : (g.wv r l x).det = g.det := by
  unfold Group.wv; split <;> rfl
@[simp] theorem wv_regext (g : Group) (r : VReg) (l : Nat) (x : Word) : (g.wv r l x).regext = g.regext := by
  unfold Group.wv; split <;> rfl
@[simp] theorem wv_scratch (g : Group) (r : VReg) (l : Nat) (x : Word) : (g.wv r l x).scratch = g.scratch := by
  unfold Group.wv; split <;> rfl
@[simp] theorem wv_k (g : Group) (r : VReg) (l : Nat) (x : Word) : (g.wv r l x).k = g.k := by
  unfold Group.wv; split <;> rfl
@[simp] theorem wv_kshadow (g : Group) (r : VReg) (l : Nat) (x : Word) : (g.wv r l x).kshadow = g.kshadow := by
  unfold Group.wv; split <;> rfl
@[simp] theorem wv_p (g : Group) (r : VReg) (l : Nat) (x : Word) : (g.wv r l x).p = g.p := by
  unfold Group.wv; split <;> rfl
@[simp] theorem wv_j (g : Group) (r : VReg) (l : Nat) (x : Word) : (g.wv r l x).j = g.j := by
  unfold Group.wv; split <;> rfl
@[simp] theorem wv_arrived (g : Group) (r : VReg) (l : Nat) (x : Word) : (g.wv r l x).arrived = g.arrived := by
  unfold Group.wv; split <;> rfl
@[simp] theorem wv_sh (g : Group) (r : VReg) (l : Nat) (x : Word) : (g.wv r l x).sh = g.sh := by
  unfold Group.wv; split <;> rfl
@[simp] theorem wv_q (g : Group) (r : VReg) (l : Nat) (x : Word) : (g.wv r l x).q = g.q := by
  unfold Group.wv; split <;> rfl
@[simp] theorem wv_fpctl (g : Group) (r : VReg) (l : Nat) (x : Word) : (g.wv r l x).fpctl = g.fpctl := by
  unfold Group.wv; split <;> rfl
@[simp] theorem wv_stk (g : Group) (r : VReg) (l : Nat) (x : Word) : (g.wv r l x).stk = g.stk := by
  unfold Group.wv; split <;> rfl
@[simp] theorem wv_dbg (g : Group) (r : VReg) (l : Nat) (x : Word) : (g.wv r l x).dbg = g.dbg := by
  unfold Group.wv; split <;> rfl
@[simp] theorem wv_grant (g : Group) (r : VReg) (l : Nat) (x : Word) : (g.wv r l x).grant = g.grant := by
  unfold Group.wv; split <;> rfl
@[simp] theorem wv_handler (g : Group) (r : VReg) (l : Nat) (x : Word) : (g.wv r l x).handler = g.handler := by
  unfold Group.wv; split <;> rfl
@[simp] theorem wv_cancel (g : Group) (r : VReg) (l : Nat) (x : Word) : (g.wv r l x).cancel = g.cancel := by
  unfold Group.wv; split <;> rfl
@[simp] theorem wv_owed (g : Group) (r : VReg) (l : Nat) (x : Word) : (g.wv r l x).owed = g.owed := by
  unfold Group.wv; split <;> rfl
@[simp] theorem wv_stopped (g : Group) (r : VReg) (l : Nat) (x : Word) : (g.wv r l x).stopped = g.stopped := by
  unfold Group.wv; split <;> rfl
@[simp] theorem wv_async (g : Group) (r : VReg) (l : Nat) (x : Word) : (g.wv r l x).async = g.async := by
  unfold Group.wv; split <;> rfl
@[simp] theorem wv_stamps (g : Group) (r : VReg) (l : Nat) (x : Word) : (g.wv r l x).stamps = g.stamps := by
  unfold Group.wv; split <;> rfl
@[simp] theorem wv_passed (g : Group) (r : VReg) (l : Nat) (x : Word) : (g.wv r l x).passed = g.passed := by
  unfold Group.wv; split <;> rfl
@[simp] theorem wv_ready (g : Group) (r : VReg) (l : Nat) (x : Word) : (g.wv r l x).ready = g.ready := by
  unfold Group.wv; split <;> rfl
@[simp] theorem wv_lanes (g : Group) (r : VReg) (l : Nat) (x : Word) : (g.wv r l x).lanes = g.lanes := by
  unfold Group.wv; split <;> rfl
@[simp] theorem wv_iss (g : Group) (r : VReg) (l : Nat) (x : Word) : (g.wv r l x).iss = g.iss := by
  unfold Group.wv; split <;> rfl

@[simp] theorem wk_task (g : Group) (r : KReg) (x : Word) : (g.wk r x).task = g.task := by
  unfold Group.wk; split <;> rfl
@[simp] theorem wk_block (g : Group) (r : KReg) (x : Word) : (g.wk r x).block = g.block := by
  unfold Group.wk; split <;> rfl
@[simp] theorem wk_index (g : Group) (r : KReg) (x : Word) : (g.wk r x).index = g.index := by
  unfold Group.wk; split <;> rfl
@[simp] theorem wk_ctx (g : Group) (r : KReg) (x : Word) : (g.wk r x).ctx = g.ctx := by
  unfold Group.wk; split <;> rfl
@[simp] theorem wk_core (g : Group) (r : KReg) (x : Word) : (g.wk r x).core = g.core := by
  unfold Group.wk; split <;> rfl
@[simp] theorem wk_slot (g : Group) (r : KReg) (x : Word) : (g.wk r x).slot = g.slot := by
  unfold Group.wk; split <;> rfl
@[simp] theorem wk_width (g : Group) (r : KReg) (x : Word) : (g.wk r x).width = g.width := by
  unfold Group.wk; split <;> rfl
@[simp] theorem wk_role (g : Group) (r : KReg) (x : Word) : (g.wk r x).role = g.role := by
  unfold Group.wk; split <;> rfl
@[simp] theorem wk_enc (g : Group) (r : KReg) (x : Word) : (g.wk r x).enc = g.enc := by
  unfold Group.wk; split <;> rfl
@[simp] theorem wk_det (g : Group) (r : KReg) (x : Word) : (g.wk r x).det = g.det := by
  unfold Group.wk; split <;> rfl
@[simp] theorem wk_regext (g : Group) (r : KReg) (x : Word) : (g.wk r x).regext = g.regext := by
  unfold Group.wk; split <;> rfl
@[simp] theorem wk_scratch (g : Group) (r : KReg) (x : Word) : (g.wk r x).scratch = g.scratch := by
  unfold Group.wk; split <;> rfl
@[simp] theorem wk_v (g : Group) (r : KReg) (x : Word) : (g.wk r x).v = g.v := by
  unfold Group.wk; split <;> rfl
@[simp] theorem wk_kshadow (g : Group) (r : KReg) (x : Word) : (g.wk r x).kshadow = g.kshadow := by
  unfold Group.wk; split <;> rfl
@[simp] theorem wk_p (g : Group) (r : KReg) (x : Word) : (g.wk r x).p = g.p := by
  unfold Group.wk; split <;> rfl
@[simp] theorem wk_j (g : Group) (r : KReg) (x : Word) : (g.wk r x).j = g.j := by
  unfold Group.wk; split <;> rfl
@[simp] theorem wk_arrived (g : Group) (r : KReg) (x : Word) : (g.wk r x).arrived = g.arrived := by
  unfold Group.wk; split <;> rfl
@[simp] theorem wk_sh (g : Group) (r : KReg) (x : Word) : (g.wk r x).sh = g.sh := by
  unfold Group.wk; split <;> rfl
@[simp] theorem wk_q (g : Group) (r : KReg) (x : Word) : (g.wk r x).q = g.q := by
  unfold Group.wk; split <;> rfl
@[simp] theorem wk_fpctl (g : Group) (r : KReg) (x : Word) : (g.wk r x).fpctl = g.fpctl := by
  unfold Group.wk; split <;> rfl
@[simp] theorem wk_stk (g : Group) (r : KReg) (x : Word) : (g.wk r x).stk = g.stk := by
  unfold Group.wk; split <;> rfl
@[simp] theorem wk_dbg (g : Group) (r : KReg) (x : Word) : (g.wk r x).dbg = g.dbg := by
  unfold Group.wk; split <;> rfl
@[simp] theorem wk_grant (g : Group) (r : KReg) (x : Word) : (g.wk r x).grant = g.grant := by
  unfold Group.wk; split <;> rfl
@[simp] theorem wk_handler (g : Group) (r : KReg) (x : Word) : (g.wk r x).handler = g.handler := by
  unfold Group.wk; split <;> rfl
@[simp] theorem wk_cancel (g : Group) (r : KReg) (x : Word) : (g.wk r x).cancel = g.cancel := by
  unfold Group.wk; split <;> rfl
@[simp] theorem wk_owed (g : Group) (r : KReg) (x : Word) : (g.wk r x).owed = g.owed := by
  unfold Group.wk; split <;> rfl
@[simp] theorem wk_stopped (g : Group) (r : KReg) (x : Word) : (g.wk r x).stopped = g.stopped := by
  unfold Group.wk; split <;> rfl
@[simp] theorem wk_async (g : Group) (r : KReg) (x : Word) : (g.wk r x).async = g.async := by
  unfold Group.wk; split <;> rfl
@[simp] theorem wk_stamps (g : Group) (r : KReg) (x : Word) : (g.wk r x).stamps = g.stamps := by
  unfold Group.wk; split <;> rfl
@[simp] theorem wk_passed (g : Group) (r : KReg) (x : Word) : (g.wk r x).passed = g.passed := by
  unfold Group.wk; split <;> rfl
@[simp] theorem wk_ready (g : Group) (r : KReg) (x : Word) : (g.wk r x).ready = g.ready := by
  unfold Group.wk; split <;> rfl
@[simp] theorem wk_lanes (g : Group) (r : KReg) (x : Word) : (g.wk r x).lanes = g.lanes := by
  unfold Group.wk; split <;> rfl
@[simp] theorem wk_iss (g : Group) (r : KReg) (x : Word) : (g.wk r x).iss = g.iss := by
  unfold Group.wk; split <;> rfl

@[simp] theorem wp_task (g : Group) (r : PReg) (l : Nat) (x : Bool) : (g.wp r l x).task = g.task := by
  unfold Group.wp; split <;> rfl
@[simp] theorem wp_block (g : Group) (r : PReg) (l : Nat) (x : Bool) : (g.wp r l x).block = g.block := by
  unfold Group.wp; split <;> rfl
@[simp] theorem wp_index (g : Group) (r : PReg) (l : Nat) (x : Bool) : (g.wp r l x).index = g.index := by
  unfold Group.wp; split <;> rfl
@[simp] theorem wp_ctx (g : Group) (r : PReg) (l : Nat) (x : Bool) : (g.wp r l x).ctx = g.ctx := by
  unfold Group.wp; split <;> rfl
@[simp] theorem wp_core (g : Group) (r : PReg) (l : Nat) (x : Bool) : (g.wp r l x).core = g.core := by
  unfold Group.wp; split <;> rfl
@[simp] theorem wp_slot (g : Group) (r : PReg) (l : Nat) (x : Bool) : (g.wp r l x).slot = g.slot := by
  unfold Group.wp; split <;> rfl
@[simp] theorem wp_width (g : Group) (r : PReg) (l : Nat) (x : Bool) : (g.wp r l x).width = g.width := by
  unfold Group.wp; split <;> rfl
@[simp] theorem wp_role (g : Group) (r : PReg) (l : Nat) (x : Bool) : (g.wp r l x).role = g.role := by
  unfold Group.wp; split <;> rfl
@[simp] theorem wp_enc (g : Group) (r : PReg) (l : Nat) (x : Bool) : (g.wp r l x).enc = g.enc := by
  unfold Group.wp; split <;> rfl
@[simp] theorem wp_det (g : Group) (r : PReg) (l : Nat) (x : Bool) : (g.wp r l x).det = g.det := by
  unfold Group.wp; split <;> rfl
@[simp] theorem wp_regext (g : Group) (r : PReg) (l : Nat) (x : Bool) : (g.wp r l x).regext = g.regext := by
  unfold Group.wp; split <;> rfl
@[simp] theorem wp_scratch (g : Group) (r : PReg) (l : Nat) (x : Bool) : (g.wp r l x).scratch = g.scratch := by
  unfold Group.wp; split <;> rfl
@[simp] theorem wp_v (g : Group) (r : PReg) (l : Nat) (x : Bool) : (g.wp r l x).v = g.v := by
  unfold Group.wp; split <;> rfl
@[simp] theorem wp_k (g : Group) (r : PReg) (l : Nat) (x : Bool) : (g.wp r l x).k = g.k := by
  unfold Group.wp; split <;> rfl
@[simp] theorem wp_kshadow (g : Group) (r : PReg) (l : Nat) (x : Bool) : (g.wp r l x).kshadow = g.kshadow := by
  unfold Group.wp; split <;> rfl
@[simp] theorem wp_j (g : Group) (r : PReg) (l : Nat) (x : Bool) : (g.wp r l x).j = g.j := by
  unfold Group.wp; split <;> rfl
@[simp] theorem wp_arrived (g : Group) (r : PReg) (l : Nat) (x : Bool) : (g.wp r l x).arrived = g.arrived := by
  unfold Group.wp; split <;> rfl
@[simp] theorem wp_sh (g : Group) (r : PReg) (l : Nat) (x : Bool) : (g.wp r l x).sh = g.sh := by
  unfold Group.wp; split <;> rfl
@[simp] theorem wp_q (g : Group) (r : PReg) (l : Nat) (x : Bool) : (g.wp r l x).q = g.q := by
  unfold Group.wp; split <;> rfl
@[simp] theorem wp_fpctl (g : Group) (r : PReg) (l : Nat) (x : Bool) : (g.wp r l x).fpctl = g.fpctl := by
  unfold Group.wp; split <;> rfl
@[simp] theorem wp_stk (g : Group) (r : PReg) (l : Nat) (x : Bool) : (g.wp r l x).stk = g.stk := by
  unfold Group.wp; split <;> rfl
@[simp] theorem wp_dbg (g : Group) (r : PReg) (l : Nat) (x : Bool) : (g.wp r l x).dbg = g.dbg := by
  unfold Group.wp; split <;> rfl
@[simp] theorem wp_grant (g : Group) (r : PReg) (l : Nat) (x : Bool) : (g.wp r l x).grant = g.grant := by
  unfold Group.wp; split <;> rfl
@[simp] theorem wp_handler (g : Group) (r : PReg) (l : Nat) (x : Bool) : (g.wp r l x).handler = g.handler := by
  unfold Group.wp; split <;> rfl
@[simp] theorem wp_cancel (g : Group) (r : PReg) (l : Nat) (x : Bool) : (g.wp r l x).cancel = g.cancel := by
  unfold Group.wp; split <;> rfl
@[simp] theorem wp_owed (g : Group) (r : PReg) (l : Nat) (x : Bool) : (g.wp r l x).owed = g.owed := by
  unfold Group.wp; split <;> rfl
@[simp] theorem wp_stopped (g : Group) (r : PReg) (l : Nat) (x : Bool) : (g.wp r l x).stopped = g.stopped := by
  unfold Group.wp; split <;> rfl
@[simp] theorem wp_async (g : Group) (r : PReg) (l : Nat) (x : Bool) : (g.wp r l x).async = g.async := by
  unfold Group.wp; split <;> rfl
@[simp] theorem wp_stamps (g : Group) (r : PReg) (l : Nat) (x : Bool) : (g.wp r l x).stamps = g.stamps := by
  unfold Group.wp; split <;> rfl
@[simp] theorem wp_passed (g : Group) (r : PReg) (l : Nat) (x : Bool) : (g.wp r l x).passed = g.passed := by
  unfold Group.wp; split <;> rfl
@[simp] theorem wp_ready (g : Group) (r : PReg) (l : Nat) (x : Bool) : (g.wp r l x).ready = g.ready := by
  unfold Group.wp; split <;> rfl
@[simp] theorem wp_lanes (g : Group) (r : PReg) (l : Nat) (x : Bool) : (g.wp r l x).lanes = g.lanes := by
  unfold Group.wp; split <;> rfl
@[simp] theorem wp_iss (g : Group) (r : PReg) (l : Nat) (x : Bool) : (g.wp r l x).iss = g.iss := by
  unfold Group.wp; split <;> rfl

@[simp] theorem wsh_task (g : Group) (r : ShReg) (x : BitVec 128) : (g.wsh r x).task = g.task := rfl
@[simp] theorem wsh_block (g : Group) (r : ShReg) (x : BitVec 128) : (g.wsh r x).block = g.block := rfl
@[simp] theorem wsh_index (g : Group) (r : ShReg) (x : BitVec 128) : (g.wsh r x).index = g.index := rfl
@[simp] theorem wsh_ctx (g : Group) (r : ShReg) (x : BitVec 128) : (g.wsh r x).ctx = g.ctx := rfl
@[simp] theorem wsh_core (g : Group) (r : ShReg) (x : BitVec 128) : (g.wsh r x).core = g.core := rfl
@[simp] theorem wsh_slot (g : Group) (r : ShReg) (x : BitVec 128) : (g.wsh r x).slot = g.slot := rfl
@[simp] theorem wsh_width (g : Group) (r : ShReg) (x : BitVec 128) : (g.wsh r x).width = g.width := rfl
@[simp] theorem wsh_role (g : Group) (r : ShReg) (x : BitVec 128) : (g.wsh r x).role = g.role := rfl
@[simp] theorem wsh_enc (g : Group) (r : ShReg) (x : BitVec 128) : (g.wsh r x).enc = g.enc := rfl
@[simp] theorem wsh_det (g : Group) (r : ShReg) (x : BitVec 128) : (g.wsh r x).det = g.det := rfl
@[simp] theorem wsh_regext (g : Group) (r : ShReg) (x : BitVec 128) : (g.wsh r x).regext = g.regext := rfl
@[simp] theorem wsh_scratch (g : Group) (r : ShReg) (x : BitVec 128) : (g.wsh r x).scratch = g.scratch := rfl
@[simp] theorem wsh_v (g : Group) (r : ShReg) (x : BitVec 128) : (g.wsh r x).v = g.v := rfl
@[simp] theorem wsh_k (g : Group) (r : ShReg) (x : BitVec 128) : (g.wsh r x).k = g.k := rfl
@[simp] theorem wsh_kshadow (g : Group) (r : ShReg) (x : BitVec 128) : (g.wsh r x).kshadow = g.kshadow := rfl
@[simp] theorem wsh_p (g : Group) (r : ShReg) (x : BitVec 128) : (g.wsh r x).p = g.p := rfl
@[simp] theorem wsh_j (g : Group) (r : ShReg) (x : BitVec 128) : (g.wsh r x).j = g.j := rfl
@[simp] theorem wsh_arrived (g : Group) (r : ShReg) (x : BitVec 128) : (g.wsh r x).arrived = g.arrived := rfl
@[simp] theorem wsh_q (g : Group) (r : ShReg) (x : BitVec 128) : (g.wsh r x).q = g.q := rfl
@[simp] theorem wsh_fpctl (g : Group) (r : ShReg) (x : BitVec 128) : (g.wsh r x).fpctl = g.fpctl := rfl
@[simp] theorem wsh_stk (g : Group) (r : ShReg) (x : BitVec 128) : (g.wsh r x).stk = g.stk := rfl
@[simp] theorem wsh_dbg (g : Group) (r : ShReg) (x : BitVec 128) : (g.wsh r x).dbg = g.dbg := rfl
@[simp] theorem wsh_grant (g : Group) (r : ShReg) (x : BitVec 128) : (g.wsh r x).grant = g.grant := rfl
@[simp] theorem wsh_handler (g : Group) (r : ShReg) (x : BitVec 128) : (g.wsh r x).handler = g.handler := rfl
@[simp] theorem wsh_cancel (g : Group) (r : ShReg) (x : BitVec 128) : (g.wsh r x).cancel = g.cancel := rfl
@[simp] theorem wsh_owed (g : Group) (r : ShReg) (x : BitVec 128) : (g.wsh r x).owed = g.owed := rfl
@[simp] theorem wsh_stopped (g : Group) (r : ShReg) (x : BitVec 128) : (g.wsh r x).stopped = g.stopped := rfl
@[simp] theorem wsh_async (g : Group) (r : ShReg) (x : BitVec 128) : (g.wsh r x).async = g.async := rfl
@[simp] theorem wsh_stamps (g : Group) (r : ShReg) (x : BitVec 128) : (g.wsh r x).stamps = g.stamps := rfl
@[simp] theorem wsh_passed (g : Group) (r : ShReg) (x : BitVec 128) : (g.wsh r x).passed = g.passed := rfl
@[simp] theorem wsh_ready (g : Group) (r : ShReg) (x : BitVec 128) : (g.wsh r x).ready = g.ready := rfl
@[simp] theorem wsh_lanes (g : Group) (r : ShReg) (x : BitVec 128) : (g.wsh r x).lanes = g.lanes := rfl
@[simp] theorem wsh_iss (g : Group) (r : ShReg) (x : BitVec 128) : (g.wsh r x).iss = g.iss := rfl

@[simp] theorem wq_task (g : Group) (r : QReg) (x : DWord) : (g.wq r x).task = g.task := rfl
@[simp] theorem wq_block (g : Group) (r : QReg) (x : DWord) : (g.wq r x).block = g.block := rfl
@[simp] theorem wq_index (g : Group) (r : QReg) (x : DWord) : (g.wq r x).index = g.index := rfl
@[simp] theorem wq_ctx (g : Group) (r : QReg) (x : DWord) : (g.wq r x).ctx = g.ctx := rfl
@[simp] theorem wq_core (g : Group) (r : QReg) (x : DWord) : (g.wq r x).core = g.core := rfl
@[simp] theorem wq_slot (g : Group) (r : QReg) (x : DWord) : (g.wq r x).slot = g.slot := rfl
@[simp] theorem wq_width (g : Group) (r : QReg) (x : DWord) : (g.wq r x).width = g.width := rfl
@[simp] theorem wq_role (g : Group) (r : QReg) (x : DWord) : (g.wq r x).role = g.role := rfl
@[simp] theorem wq_enc (g : Group) (r : QReg) (x : DWord) : (g.wq r x).enc = g.enc := rfl
@[simp] theorem wq_det (g : Group) (r : QReg) (x : DWord) : (g.wq r x).det = g.det := rfl
@[simp] theorem wq_regext (g : Group) (r : QReg) (x : DWord) : (g.wq r x).regext = g.regext := rfl
@[simp] theorem wq_scratch (g : Group) (r : QReg) (x : DWord) : (g.wq r x).scratch = g.scratch := rfl
@[simp] theorem wq_v (g : Group) (r : QReg) (x : DWord) : (g.wq r x).v = g.v := rfl
@[simp] theorem wq_k (g : Group) (r : QReg) (x : DWord) : (g.wq r x).k = g.k := rfl
@[simp] theorem wq_kshadow (g : Group) (r : QReg) (x : DWord) : (g.wq r x).kshadow = g.kshadow := rfl
@[simp] theorem wq_p (g : Group) (r : QReg) (x : DWord) : (g.wq r x).p = g.p := rfl
@[simp] theorem wq_j (g : Group) (r : QReg) (x : DWord) : (g.wq r x).j = g.j := rfl
@[simp] theorem wq_arrived (g : Group) (r : QReg) (x : DWord) : (g.wq r x).arrived = g.arrived := rfl
@[simp] theorem wq_sh (g : Group) (r : QReg) (x : DWord) : (g.wq r x).sh = g.sh := rfl
@[simp] theorem wq_fpctl (g : Group) (r : QReg) (x : DWord) : (g.wq r x).fpctl = g.fpctl := rfl
@[simp] theorem wq_stk (g : Group) (r : QReg) (x : DWord) : (g.wq r x).stk = g.stk := rfl
@[simp] theorem wq_dbg (g : Group) (r : QReg) (x : DWord) : (g.wq r x).dbg = g.dbg := rfl
@[simp] theorem wq_grant (g : Group) (r : QReg) (x : DWord) : (g.wq r x).grant = g.grant := rfl
@[simp] theorem wq_handler (g : Group) (r : QReg) (x : DWord) : (g.wq r x).handler = g.handler := rfl
@[simp] theorem wq_cancel (g : Group) (r : QReg) (x : DWord) : (g.wq r x).cancel = g.cancel := rfl
@[simp] theorem wq_owed (g : Group) (r : QReg) (x : DWord) : (g.wq r x).owed = g.owed := rfl
@[simp] theorem wq_stopped (g : Group) (r : QReg) (x : DWord) : (g.wq r x).stopped = g.stopped := rfl
@[simp] theorem wq_async (g : Group) (r : QReg) (x : DWord) : (g.wq r x).async = g.async := rfl
@[simp] theorem wq_stamps (g : Group) (r : QReg) (x : DWord) : (g.wq r x).stamps = g.stamps := rfl
@[simp] theorem wq_passed (g : Group) (r : QReg) (x : DWord) : (g.wq r x).passed = g.passed := rfl
@[simp] theorem wq_ready (g : Group) (r : QReg) (x : DWord) : (g.wq r x).ready = g.ready := rfl
@[simp] theorem wq_lanes (g : Group) (r : QReg) (x : DWord) : (g.wq r x).lanes = g.lanes := rfl
@[simp] theorem wq_iss (g : Group) (r : QReg) (x : DWord) : (g.wq r x).iss = g.iss := rfl

@[simp] theorem modLane_task (g : Group) (l : Nat) (f : Lane → Lane) : (g.modLane l f).task = g.task := rfl
@[simp] theorem modLane_block (g : Group) (l : Nat) (f : Lane → Lane) : (g.modLane l f).block = g.block := rfl
@[simp] theorem modLane_index (g : Group) (l : Nat) (f : Lane → Lane) : (g.modLane l f).index = g.index := rfl
@[simp] theorem modLane_ctx (g : Group) (l : Nat) (f : Lane → Lane) : (g.modLane l f).ctx = g.ctx := rfl
@[simp] theorem modLane_core (g : Group) (l : Nat) (f : Lane → Lane) : (g.modLane l f).core = g.core := rfl
@[simp] theorem modLane_slot (g : Group) (l : Nat) (f : Lane → Lane) : (g.modLane l f).slot = g.slot := rfl
@[simp] theorem modLane_width (g : Group) (l : Nat) (f : Lane → Lane) : (g.modLane l f).width = g.width := rfl
@[simp] theorem modLane_role (g : Group) (l : Nat) (f : Lane → Lane) : (g.modLane l f).role = g.role := rfl
@[simp] theorem modLane_enc (g : Group) (l : Nat) (f : Lane → Lane) : (g.modLane l f).enc = g.enc := rfl
@[simp] theorem modLane_det (g : Group) (l : Nat) (f : Lane → Lane) : (g.modLane l f).det = g.det := rfl
@[simp] theorem modLane_regext (g : Group) (l : Nat) (f : Lane → Lane) : (g.modLane l f).regext = g.regext := rfl
@[simp] theorem modLane_scratch (g : Group) (l : Nat) (f : Lane → Lane) : (g.modLane l f).scratch = g.scratch := rfl
@[simp] theorem modLane_v (g : Group) (l : Nat) (f : Lane → Lane) : (g.modLane l f).v = g.v := rfl
@[simp] theorem modLane_k (g : Group) (l : Nat) (f : Lane → Lane) : (g.modLane l f).k = g.k := rfl
@[simp] theorem modLane_kshadow (g : Group) (l : Nat) (f : Lane → Lane) : (g.modLane l f).kshadow = g.kshadow := rfl
@[simp] theorem modLane_p (g : Group) (l : Nat) (f : Lane → Lane) : (g.modLane l f).p = g.p := rfl
@[simp] theorem modLane_j (g : Group) (l : Nat) (f : Lane → Lane) : (g.modLane l f).j = g.j := rfl
@[simp] theorem modLane_arrived (g : Group) (l : Nat) (f : Lane → Lane) : (g.modLane l f).arrived = g.arrived := rfl
@[simp] theorem modLane_sh (g : Group) (l : Nat) (f : Lane → Lane) : (g.modLane l f).sh = g.sh := rfl
@[simp] theorem modLane_q (g : Group) (l : Nat) (f : Lane → Lane) : (g.modLane l f).q = g.q := rfl
@[simp] theorem modLane_fpctl (g : Group) (l : Nat) (f : Lane → Lane) : (g.modLane l f).fpctl = g.fpctl := rfl
@[simp] theorem modLane_stk (g : Group) (l : Nat) (f : Lane → Lane) : (g.modLane l f).stk = g.stk := rfl
@[simp] theorem modLane_dbg (g : Group) (l : Nat) (f : Lane → Lane) : (g.modLane l f).dbg = g.dbg := rfl
@[simp] theorem modLane_grant (g : Group) (l : Nat) (f : Lane → Lane) : (g.modLane l f).grant = g.grant := rfl
@[simp] theorem modLane_handler (g : Group) (l : Nat) (f : Lane → Lane) : (g.modLane l f).handler = g.handler := rfl
@[simp] theorem modLane_cancel (g : Group) (l : Nat) (f : Lane → Lane) : (g.modLane l f).cancel = g.cancel := rfl
@[simp] theorem modLane_owed (g : Group) (l : Nat) (f : Lane → Lane) : (g.modLane l f).owed = g.owed := rfl
@[simp] theorem modLane_stopped (g : Group) (l : Nat) (f : Lane → Lane) : (g.modLane l f).stopped = g.stopped := rfl
@[simp] theorem modLane_async (g : Group) (l : Nat) (f : Lane → Lane) : (g.modLane l f).async = g.async := rfl
@[simp] theorem modLane_stamps (g : Group) (l : Nat) (f : Lane → Lane) : (g.modLane l f).stamps = g.stamps := rfl
@[simp] theorem modLane_passed (g : Group) (l : Nat) (f : Lane → Lane) : (g.modLane l f).passed = g.passed := rfl
@[simp] theorem modLane_ready (g : Group) (l : Nat) (f : Lane → Lane) : (g.modLane l f).ready = g.ready := rfl
@[simp] theorem modLane_iss (g : Group) (l : Nat) (f : Lane → Lane) : (g.modLane l f).iss = g.iss := rfl

@[simp] theorem modLanes_task (g : Group) (x : BitVec 128) (f : Nat → Lane → Lane) : (g.modLanes x f).task = g.task := rfl
@[simp] theorem modLanes_block (g : Group) (x : BitVec 128) (f : Nat → Lane → Lane) : (g.modLanes x f).block = g.block := rfl
@[simp] theorem modLanes_index (g : Group) (x : BitVec 128) (f : Nat → Lane → Lane) : (g.modLanes x f).index = g.index := rfl
@[simp] theorem modLanes_ctx (g : Group) (x : BitVec 128) (f : Nat → Lane → Lane) : (g.modLanes x f).ctx = g.ctx := rfl
@[simp] theorem modLanes_core (g : Group) (x : BitVec 128) (f : Nat → Lane → Lane) : (g.modLanes x f).core = g.core := rfl
@[simp] theorem modLanes_slot (g : Group) (x : BitVec 128) (f : Nat → Lane → Lane) : (g.modLanes x f).slot = g.slot := rfl
@[simp] theorem modLanes_width (g : Group) (x : BitVec 128) (f : Nat → Lane → Lane) : (g.modLanes x f).width = g.width := rfl
@[simp] theorem modLanes_role (g : Group) (x : BitVec 128) (f : Nat → Lane → Lane) : (g.modLanes x f).role = g.role := rfl
@[simp] theorem modLanes_enc (g : Group) (x : BitVec 128) (f : Nat → Lane → Lane) : (g.modLanes x f).enc = g.enc := rfl
@[simp] theorem modLanes_det (g : Group) (x : BitVec 128) (f : Nat → Lane → Lane) : (g.modLanes x f).det = g.det := rfl
@[simp] theorem modLanes_regext (g : Group) (x : BitVec 128) (f : Nat → Lane → Lane) : (g.modLanes x f).regext = g.regext := rfl
@[simp] theorem modLanes_scratch (g : Group) (x : BitVec 128) (f : Nat → Lane → Lane) : (g.modLanes x f).scratch = g.scratch := rfl
@[simp] theorem modLanes_v (g : Group) (x : BitVec 128) (f : Nat → Lane → Lane) : (g.modLanes x f).v = g.v := rfl
@[simp] theorem modLanes_k (g : Group) (x : BitVec 128) (f : Nat → Lane → Lane) : (g.modLanes x f).k = g.k := rfl
@[simp] theorem modLanes_kshadow (g : Group) (x : BitVec 128) (f : Nat → Lane → Lane) : (g.modLanes x f).kshadow = g.kshadow := rfl
@[simp] theorem modLanes_p (g : Group) (x : BitVec 128) (f : Nat → Lane → Lane) : (g.modLanes x f).p = g.p := rfl
@[simp] theorem modLanes_j (g : Group) (x : BitVec 128) (f : Nat → Lane → Lane) : (g.modLanes x f).j = g.j := rfl
@[simp] theorem modLanes_arrived (g : Group) (x : BitVec 128) (f : Nat → Lane → Lane) : (g.modLanes x f).arrived = g.arrived := rfl
@[simp] theorem modLanes_sh (g : Group) (x : BitVec 128) (f : Nat → Lane → Lane) : (g.modLanes x f).sh = g.sh := rfl
@[simp] theorem modLanes_q (g : Group) (x : BitVec 128) (f : Nat → Lane → Lane) : (g.modLanes x f).q = g.q := rfl
@[simp] theorem modLanes_fpctl (g : Group) (x : BitVec 128) (f : Nat → Lane → Lane) : (g.modLanes x f).fpctl = g.fpctl := rfl
@[simp] theorem modLanes_stk (g : Group) (x : BitVec 128) (f : Nat → Lane → Lane) : (g.modLanes x f).stk = g.stk := rfl
@[simp] theorem modLanes_dbg (g : Group) (x : BitVec 128) (f : Nat → Lane → Lane) : (g.modLanes x f).dbg = g.dbg := rfl
@[simp] theorem modLanes_grant (g : Group) (x : BitVec 128) (f : Nat → Lane → Lane) : (g.modLanes x f).grant = g.grant := rfl
@[simp] theorem modLanes_handler (g : Group) (x : BitVec 128) (f : Nat → Lane → Lane) : (g.modLanes x f).handler = g.handler := rfl
@[simp] theorem modLanes_cancel (g : Group) (x : BitVec 128) (f : Nat → Lane → Lane) : (g.modLanes x f).cancel = g.cancel := rfl
@[simp] theorem modLanes_owed (g : Group) (x : BitVec 128) (f : Nat → Lane → Lane) : (g.modLanes x f).owed = g.owed := rfl
@[simp] theorem modLanes_stopped (g : Group) (x : BitVec 128) (f : Nat → Lane → Lane) : (g.modLanes x f).stopped = g.stopped := rfl
@[simp] theorem modLanes_async (g : Group) (x : BitVec 128) (f : Nat → Lane → Lane) : (g.modLanes x f).async = g.async := rfl
@[simp] theorem modLanes_stamps (g : Group) (x : BitVec 128) (f : Nat → Lane → Lane) : (g.modLanes x f).stamps = g.stamps := rfl
@[simp] theorem modLanes_passed (g : Group) (x : BitVec 128) (f : Nat → Lane → Lane) : (g.modLanes x f).passed = g.passed := rfl
@[simp] theorem modLanes_ready (g : Group) (x : BitVec 128) (f : Nat → Lane → Lane) : (g.modLanes x f).ready = g.ready := rfl
@[simp] theorem modLanes_iss (g : Group) (x : BitVec 128) (f : Nat → Lane → Lane) : (g.modLanes x f).iss = g.iss := rfl

@[simp] theorem dropLanes_task (g : Group) (x : BitVec 128) : (g.dropLanes x).task = g.task := rfl
@[simp] theorem dropLanes_block (g : Group) (x : BitVec 128) : (g.dropLanes x).block = g.block := rfl
@[simp] theorem dropLanes_index (g : Group) (x : BitVec 128) : (g.dropLanes x).index = g.index := rfl
@[simp] theorem dropLanes_ctx (g : Group) (x : BitVec 128) : (g.dropLanes x).ctx = g.ctx := rfl
@[simp] theorem dropLanes_core (g : Group) (x : BitVec 128) : (g.dropLanes x).core = g.core := rfl
@[simp] theorem dropLanes_slot (g : Group) (x : BitVec 128) : (g.dropLanes x).slot = g.slot := rfl
@[simp] theorem dropLanes_width (g : Group) (x : BitVec 128) : (g.dropLanes x).width = g.width := rfl
@[simp] theorem dropLanes_role (g : Group) (x : BitVec 128) : (g.dropLanes x).role = g.role := rfl
@[simp] theorem dropLanes_enc (g : Group) (x : BitVec 128) : (g.dropLanes x).enc = g.enc := rfl
@[simp] theorem dropLanes_det (g : Group) (x : BitVec 128) : (g.dropLanes x).det = g.det := rfl
@[simp] theorem dropLanes_regext (g : Group) (x : BitVec 128) : (g.dropLanes x).regext = g.regext := rfl
@[simp] theorem dropLanes_scratch (g : Group) (x : BitVec 128) : (g.dropLanes x).scratch = g.scratch := rfl
@[simp] theorem dropLanes_v (g : Group) (x : BitVec 128) : (g.dropLanes x).v = g.v := rfl
@[simp] theorem dropLanes_k (g : Group) (x : BitVec 128) : (g.dropLanes x).k = g.k := rfl
@[simp] theorem dropLanes_kshadow (g : Group) (x : BitVec 128) : (g.dropLanes x).kshadow = g.kshadow := rfl
@[simp] theorem dropLanes_p (g : Group) (x : BitVec 128) : (g.dropLanes x).p = g.p := rfl
@[simp] theorem dropLanes_sh (g : Group) (x : BitVec 128) : (g.dropLanes x).sh = g.sh := rfl
@[simp] theorem dropLanes_q (g : Group) (x : BitVec 128) : (g.dropLanes x).q = g.q := rfl
@[simp] theorem dropLanes_fpctl (g : Group) (x : BitVec 128) : (g.dropLanes x).fpctl = g.fpctl := rfl
@[simp] theorem dropLanes_stk (g : Group) (x : BitVec 128) : (g.dropLanes x).stk = g.stk := rfl
@[simp] theorem dropLanes_dbg (g : Group) (x : BitVec 128) : (g.dropLanes x).dbg = g.dbg := rfl
@[simp] theorem dropLanes_grant (g : Group) (x : BitVec 128) : (g.dropLanes x).grant = g.grant := rfl
@[simp] theorem dropLanes_handler (g : Group) (x : BitVec 128) : (g.dropLanes x).handler = g.handler := rfl
@[simp] theorem dropLanes_cancel (g : Group) (x : BitVec 128) : (g.dropLanes x).cancel = g.cancel := rfl
@[simp] theorem dropLanes_owed (g : Group) (x : BitVec 128) : (g.dropLanes x).owed = g.owed := rfl
@[simp] theorem dropLanes_stopped (g : Group) (x : BitVec 128) : (g.dropLanes x).stopped = g.stopped := rfl
@[simp] theorem dropLanes_async (g : Group) (x : BitVec 128) : (g.dropLanes x).async = g.async := rfl
@[simp] theorem dropLanes_stamps (g : Group) (x : BitVec 128) : (g.dropLanes x).stamps = g.stamps := rfl
@[simp] theorem dropLanes_passed (g : Group) (x : BitVec 128) : (g.dropLanes x).passed = g.passed := rfl
@[simp] theorem dropLanes_ready (g : Group) (x : BitVec 128) : (g.dropLanes x).ready = g.ready := rfl
@[simp] theorem dropLanes_lanes (g : Group) (x : BitVec 128) : (g.dropLanes x).lanes = g.lanes := rfl
@[simp] theorem dropLanes_iss (g : Group) (x : BitVec 128) : (g.dropLanes x).iss = g.iss := rfl

@[simp] theorem setSat_task (g : Group)  : (g.setSat ).task = g.task := rfl
@[simp] theorem setSat_block (g : Group)  : (g.setSat ).block = g.block := rfl
@[simp] theorem setSat_index (g : Group)  : (g.setSat ).index = g.index := rfl
@[simp] theorem setSat_ctx (g : Group)  : (g.setSat ).ctx = g.ctx := rfl
@[simp] theorem setSat_core (g : Group)  : (g.setSat ).core = g.core := rfl
@[simp] theorem setSat_slot (g : Group)  : (g.setSat ).slot = g.slot := rfl
@[simp] theorem setSat_width (g : Group)  : (g.setSat ).width = g.width := rfl
@[simp] theorem setSat_role (g : Group)  : (g.setSat ).role = g.role := rfl
@[simp] theorem setSat_enc (g : Group)  : (g.setSat ).enc = g.enc := rfl
@[simp] theorem setSat_det (g : Group)  : (g.setSat ).det = g.det := rfl
@[simp] theorem setSat_regext (g : Group)  : (g.setSat ).regext = g.regext := rfl
@[simp] theorem setSat_scratch (g : Group)  : (g.setSat ).scratch = g.scratch := rfl
@[simp] theorem setSat_v (g : Group)  : (g.setSat ).v = g.v := rfl
@[simp] theorem setSat_k (g : Group)  : (g.setSat ).k = g.k := rfl
@[simp] theorem setSat_kshadow (g : Group)  : (g.setSat ).kshadow = g.kshadow := rfl
@[simp] theorem setSat_p (g : Group)  : (g.setSat ).p = g.p := rfl
@[simp] theorem setSat_j (g : Group)  : (g.setSat ).j = g.j := rfl
@[simp] theorem setSat_arrived (g : Group)  : (g.setSat ).arrived = g.arrived := rfl
@[simp] theorem setSat_sh (g : Group)  : (g.setSat ).sh = g.sh := rfl
@[simp] theorem setSat_q (g : Group)  : (g.setSat ).q = g.q := rfl
@[simp] theorem setSat_stk (g : Group)  : (g.setSat ).stk = g.stk := rfl
@[simp] theorem setSat_dbg (g : Group)  : (g.setSat ).dbg = g.dbg := rfl
@[simp] theorem setSat_grant (g : Group)  : (g.setSat ).grant = g.grant := rfl
@[simp] theorem setSat_handler (g : Group)  : (g.setSat ).handler = g.handler := rfl
@[simp] theorem setSat_cancel (g : Group)  : (g.setSat ).cancel = g.cancel := rfl
@[simp] theorem setSat_owed (g : Group)  : (g.setSat ).owed = g.owed := rfl
@[simp] theorem setSat_stopped (g : Group)  : (g.setSat ).stopped = g.stopped := rfl
@[simp] theorem setSat_async (g : Group)  : (g.setSat ).async = g.async := rfl
@[simp] theorem setSat_stamps (g : Group)  : (g.setSat ).stamps = g.stamps := rfl
@[simp] theorem setSat_passed (g : Group)  : (g.setSat ).passed = g.passed := rfl
@[simp] theorem setSat_ready (g : Group)  : (g.setSat ).ready = g.ready := rfl
@[simp] theorem setSat_lanes (g : Group)  : (g.setSat ).lanes = g.lanes := rfl
@[simp] theorem setSat_iss (g : Group)  : (g.setSat ).iss = g.iss := rfl

@[simp] theorem setNanp_task (g : Group)  : (g.setNanp ).task = g.task := rfl
@[simp] theorem setNanp_block (g : Group)  : (g.setNanp ).block = g.block := rfl
@[simp] theorem setNanp_index (g : Group)  : (g.setNanp ).index = g.index := rfl
@[simp] theorem setNanp_ctx (g : Group)  : (g.setNanp ).ctx = g.ctx := rfl
@[simp] theorem setNanp_core (g : Group)  : (g.setNanp ).core = g.core := rfl
@[simp] theorem setNanp_slot (g : Group)  : (g.setNanp ).slot = g.slot := rfl
@[simp] theorem setNanp_width (g : Group)  : (g.setNanp ).width = g.width := rfl
@[simp] theorem setNanp_role (g : Group)  : (g.setNanp ).role = g.role := rfl
@[simp] theorem setNanp_enc (g : Group)  : (g.setNanp ).enc = g.enc := rfl
@[simp] theorem setNanp_det (g : Group)  : (g.setNanp ).det = g.det := rfl
@[simp] theorem setNanp_regext (g : Group)  : (g.setNanp ).regext = g.regext := rfl
@[simp] theorem setNanp_scratch (g : Group)  : (g.setNanp ).scratch = g.scratch := rfl
@[simp] theorem setNanp_v (g : Group)  : (g.setNanp ).v = g.v := rfl
@[simp] theorem setNanp_k (g : Group)  : (g.setNanp ).k = g.k := rfl
@[simp] theorem setNanp_kshadow (g : Group)  : (g.setNanp ).kshadow = g.kshadow := rfl
@[simp] theorem setNanp_p (g : Group)  : (g.setNanp ).p = g.p := rfl
@[simp] theorem setNanp_j (g : Group)  : (g.setNanp ).j = g.j := rfl
@[simp] theorem setNanp_arrived (g : Group)  : (g.setNanp ).arrived = g.arrived := rfl
@[simp] theorem setNanp_sh (g : Group)  : (g.setNanp ).sh = g.sh := rfl
@[simp] theorem setNanp_q (g : Group)  : (g.setNanp ).q = g.q := rfl
@[simp] theorem setNanp_stk (g : Group)  : (g.setNanp ).stk = g.stk := rfl
@[simp] theorem setNanp_dbg (g : Group)  : (g.setNanp ).dbg = g.dbg := rfl
@[simp] theorem setNanp_grant (g : Group)  : (g.setNanp ).grant = g.grant := rfl
@[simp] theorem setNanp_handler (g : Group)  : (g.setNanp ).handler = g.handler := rfl
@[simp] theorem setNanp_cancel (g : Group)  : (g.setNanp ).cancel = g.cancel := rfl
@[simp] theorem setNanp_owed (g : Group)  : (g.setNanp ).owed = g.owed := rfl
@[simp] theorem setNanp_stopped (g : Group)  : (g.setNanp ).stopped = g.stopped := rfl
@[simp] theorem setNanp_async (g : Group)  : (g.setNanp ).async = g.async := rfl
@[simp] theorem setNanp_stamps (g : Group)  : (g.setNanp ).stamps = g.stamps := rfl
@[simp] theorem setNanp_passed (g : Group)  : (g.setNanp ).passed = g.passed := rfl
@[simp] theorem setNanp_ready (g : Group)  : (g.setNanp ).ready = g.ready := rfl
@[simp] theorem setNanp_lanes (g : Group)  : (g.setNanp ).lanes = g.lanes := rfl
@[simp] theorem setNanp_iss (g : Group)  : (g.setNanp ).iss = g.iss := rfl

end Sys2Proof.Machine
end

