-- ==== Sys2Proof/Laws/Store.lean ====
section
/-! SUPPORT. Sparse maps and memories: a read after a write, and that every write keeps the canonical form. -/
namespace Sys2Proof

variable {α : Type}

theorem Store.sortedAbove_mono {a b : Option Nat} {s : Store α} (h : s.sortedAbove b = true)
    (hab : ∀ x, a = some x → ∃ y, b = some y ∧ x ≤ y) : s.sortedAbove a = true := by
  cases s with
  | nil => rfl
  | cons e r =>
    obtain ⟨i, v⟩ := e
    cases a with
    | none => simp only [Store.sortedAbove, Bool.and_eq_true] at h ⊢; exact ⟨trivial, h.2⟩
    | some x =>
      obtain ⟨y, rfl, hxy⟩ := hab x rfl
      simp only [Store.sortedAbove, Bool.and_eq_true, decide_eq_true_eq] at h ⊢
      exact ⟨by omega, h.2⟩

theorem Store.sortedAbove_insert {lo : Option Nat} {s : Store α} {k : Nat} {a : α} (h : s.sortedAbove lo = true)
    (hk : ∀ l, lo = some l → l < k) : (s.insert k a).sortedAbove lo = true := by
  induction s generalizing lo with
  | nil =>
    cases lo with
    | none => rfl
    | some l => simpa [Store.insert, Store.sortedAbove] using hk l rfl
  | cons e r ih =>
    obtain ⟨i, v⟩ := e
    simp only [Store.sortedAbove, Bool.and_eq_true] at h
    simp only [Store.insert]
    split
    · subst i; simp only [Store.sortedAbove, Bool.and_eq_true]; exact h
    · split
      · rename_i hi
        simp only [Store.sortedAbove, Bool.and_eq_true, decide_eq_true_eq]
        refine ⟨?_, hi, h.2⟩
        cases lo with
        | none => rfl
        | some l => simpa using hk l rfl
      · simp only [Store.sortedAbove, Bool.and_eq_true]
        exact ⟨h.1, ih h.2 fun l hl => by cases hl; omega⟩

theorem Store.sortedAbove_erase {lo : Option Nat} {s : Store α} {k : Nat} (h : s.sortedAbove lo = true) :
    (s.erase k).sortedAbove lo = true := by
  induction s generalizing lo with
  | nil => exact h
  | cons e r ih =>
    obtain ⟨i, v⟩ := e
    simp only [Store.sortedAbove, Bool.and_eq_true] at h
    simp only [Store.erase]
    split
    · refine Store.sortedAbove_mono (ih h.2) fun x hx => ?_
      subst hx
      exact ⟨i, rfl, by simpa using Nat.le_of_lt (by simpa using h.1)⟩
    · simp only [Store.sortedAbove, Bool.and_eq_true]
      exact ⟨h.1, ih h.2⟩

theorem Store.all_insert {p : Nat × α → Bool} {s : Store α} {k : Nat} {a : α} (h : s.all p = true) (hk : p (k, a) = true) :
    (s.insert k a).all p = true := by
  induction s with
  | nil => simpa [Store.insert] using hk
  | cons e r ih =>
    obtain ⟨i, v⟩ := e
    simp only [List.all_cons, Bool.and_eq_true] at h
    simp only [Store.insert]
    split
    · simp only [List.all_cons, Bool.and_eq_true]; exact ⟨hk, h.2⟩
    · split <;> simp only [List.all_cons, Bool.and_eq_true]
      · exact ⟨hk, h⟩
      · exact ⟨h.1, ih h.2⟩

theorem Store.all_erase {p : Nat × α → Bool} {s : Store α} {k : Nat} (h : s.all p = true) : (s.erase k).all p = true := by
  induction s with
  | nil => exact h
  | cons e r ih =>
    obtain ⟨i, v⟩ := e
    simp only [List.all_cons, Bool.and_eq_true] at h
    simp only [Store.erase]
    split
    · exact ih h.2
    · simp only [List.all_cons, Bool.and_eq_true]
      exact ⟨h.1, ih h.2⟩

/-- A write keeps the canonical form of a map whose unlisted keys read as d. -/
theorem Store.wf_put [DecidableEq α] {d : α} {s : Store α} {k : Nat} {a : α} (h : s.wf (fun _ => d) = true) :
    (s.put d k a).wf (fun _ => d) = true := by
  simp only [Store.wf, Bool.and_eq_true] at h ⊢
  unfold Store.put
  split
  · exact ⟨Store.sortedAbove_erase h.1, Store.all_erase h.2⟩
  · rename_i ha
    exact ⟨Store.sortedAbove_insert h.1 (by simp), Store.all_insert h.2 (by simpa using ha)⟩

theorem Store.get_insert_self (d : α) (s : Store α) (k : Nat) (a : α) : (s.insert k a).get d k = a := by
  induction s with
  | nil => simp [Store.insert, Store.get]
  | cons e r ih =>
    obtain ⟨i, v⟩ := e
    simp only [Store.insert]
    split
    · simp [Store.get]
    · split
      · simp [Store.get]
      · rename_i h1 h2; simp [Store.get, h1, h2, ih]

theorem Store.get_insert_ne (d : α) (s : Store α) {k j : Nat} (a : α) (h : j ≠ k) : (s.insert k a).get d j = s.get d j := by
  induction s with
  | nil => simp [Store.insert, Store.get, Ne.symm h]
  | cons e r ih =>
    obtain ⟨i, v⟩ := e
    simp only [Store.insert]
    split
    · subst i; simp [Store.get, Ne.symm h]
    · split
      · simp [Store.get, Ne.symm h]
      · simp only [Store.get, ih]

theorem Store.get_erase_self (d : α) (s : Store α) (k : Nat) : (s.erase k).get d k = d := by
  induction s with
  | nil => rfl
  | cons e r ih =>
    obtain ⟨i, v⟩ := e
    simp only [Store.erase]
    split
    · exact ih
    · rename_i h1; simp [Store.get, h1, ih]

theorem Store.get_erase_ne (d : α) (s : Store α) {k j : Nat} (hj : j ≠ k) : (s.erase k).get d j = s.get d j := by
  induction s with
  | nil => rfl
  | cons e r ih =>
    obtain ⟨i, v⟩ := e
    simp only [Store.erase]
    split
    · subst i; simp [Store.get, Ne.symm hj, ih]
    · simp only [Store.get, ih]

/-- A read of the key just written gives the value written. -/
theorem Store.get_put_self [DecidableEq α] (d : α) (s : Store α) (k : Nat) (a : α) : (s.put d k a).get d k = a := by
  unfold Store.put
  split
  · rename_i ha; rw [ha]; exact Store.get_erase_self d s k
  · exact Store.get_insert_self d s k a

/-- A write leaves every other key as it was. -/
theorem Store.get_put_ne [DecidableEq α] (d : α) (s : Store α) {k j : Nat} (a : α) (hj : j ≠ k) :
    (s.put d k a).get d j = s.get d j := by
  unfold Store.put
  split
  · exact Store.get_erase_ne d s hj
  · exact Store.get_insert_ne d s a hj

/-- What a map holds after a write. -/
theorem Store.get_put [DecidableEq α] (d : α) (s : Store α) (k j : Nat) (a : α) :
    (s.put d k a).get d j = if j = k then a else s.get d j := by
  split
  · rename_i h; rw [h]; exact Store.get_put_self d s k a
  · rename_i h; exact Store.get_put_ne d s a h

/-- A write of bytes keeps the canonical form. -/
theorem Memory.wf_write {m : List Host.Cell} (a : Nat) (bs : List Byte) (h : Memory.wf m = true) : Memory.wf (Memory.write m a bs) = true := by
  induction bs generalizing m a with
  | nil => exact h
  | cons b r ih => exact ih (a + 1) (Store.wf_put h)

/-- A write of bytes leaves every byte outside as it was. -/
theorem Memory.byte_write_out {m : List Host.Cell} {a j : Nat} {bs : List Byte}
    (hj : j < a ∨ a + bs.length ≤ j) : Memory.byte (Memory.write m a bs) j = Memory.byte m j := by
  induction bs generalizing m a with
  | nil => rfl
  | cons b r ih =>
    simp only [List.length_cons] at hj
    have h2 := ih (m := Store.put 0 m a b) (a := a + 1) (by omega)
    exact h2.trans (Store.get_put_ne 0 m b (by omega))

/-- A byte just written reads as it was written. -/
theorem Memory.byte_write_in {m : List Host.Cell} {a i : Nat} {bs : List Byte} (hi : i < bs.length) :
    Memory.byte (Memory.write m a bs) (a + i) = bs[i] := by
  induction bs generalizing m a i with
  | nil => simp at hi
  | cons b r ih =>
    cases i with
    | zero =>
      have h2 := Memory.byte_write_out (m := Store.put 0 m a b) (j := a) (a := a + 1) (bs := r) (by omega)
      exact h2.trans (Store.get_put_self 0 m a b)
    | succ n =>
      have h2 := ih (m := Store.put 0 m a b) (a := a + 1) (i := n) (by simpa using hi)
      rw [show a + (n + 1) = a + 1 + n by omega]; simpa [Memory.write] using h2

/-- The bytes read are those written. -/
theorem Memory.read_write (m : List Host.Cell) (a : Nat) (bs : List Byte) :
    Memory.read (Memory.write m a bs) a bs.length = bs := by
  apply List.ext_getElem
  · simp [Memory.read]
  · intro i h1 h2
    simp only [Memory.read, List.getElem_map, List.getElem_range]
    exact Memory.byte_write_in h2

end Sys2Proof
end

