-- ==== Sys2Proof/Laws/Ops.lean ====
section
/-! SUPPORT. What the shared operations do, said once: registers read after writes, the issue of an instruction, the results of the
vector and the uniform instructions. -/
namespace Sys2Proof.Machine

/-! ## Registers -/

theorem Group.rv_wv (g : Group) (d r : VReg) (m l : Nat) (x : Word) (hm : m < 128) (hl : l < 128) :
    (g.wv d m x).rv r l = if r = d ∧ r.toNat ≠ 1023 ∧ l = m then x else g.rv r l := by
  unfold Group.wv Group.rv
  by_cases hd : d.toNat = 1023
  · by_cases h : r = d
    · subst h; simp [hd]
    · simp [hd, h]
  · by_cases hr : r.toNat = 1023
    · simp [hd, hr]
    · simp only [hd, hr, if_false, Store.get_put]
      by_cases h : r = d
      · subst h; simp [hr]
      · have : r.toNat ≠ d.toNat := fun e => h (BitVec.eq_of_toNat_eq e)
        simp only [h, false_and, if_false]
        rw [if_neg]; omega

theorem Group.rk_wk (g : Group) (d r : KReg) (x : Word) :
    (g.wk d x).rk r = if r = d ∧ r.toNat ≠ 63 then x else g.rk r := by
  unfold Group.wk Group.rk
  by_cases hd : d.toNat = 63
  · by_cases h : r = d
    · subst h; simp [hd]
    · simp [hd, h]
  · by_cases hr : r.toNat = 63
    · simp [hd, hr]
    · simp only [hd, hr, if_false, Store.get_put]
      by_cases h : r = d
      · subst h; simp [hr]
      · have : r.toNat ≠ d.toNat := fun e => h (BitVec.eq_of_toNat_eq e)
        simp [h, this]

theorem Group.rp_wp (g : Group) (d r : PReg) (m l : Nat) (x : Bool) (hm : m < 128) (hl : l < 128) :
    (g.wp d m x).rp r l = if r = d ∧ r.toNat ≠ 15 ∧ l = m then x else g.rp r l := by
  unfold Group.wp Group.rp
  by_cases hd : d.toNat = 15
  · by_cases h : r = d
    · subst h; simp [hd]
    · simp [hd, h]
  · by_cases hr : r.toNat = 15
    · simp [hd, hr]
    · simp only [hd, hr, if_false, Store.get_put]
      by_cases h : r = d
      · subst h; simp [hr]
      · have : r.toNat ≠ d.toNat := fun e => h (BitVec.eq_of_toNat_eq e)
        simp only [h, false_and, if_false]
        rw [if_neg]; omega

@[simp] theorem Group.rk_wv (g : Group) (d : VReg) (m : Nat) (x : Word) (r : KReg) : (g.wv d m x).rk r = g.rk r := by
  unfold Group.wv; split <;> rfl

@[simp] theorem Group.rp_wv (g : Group) (d : VReg) (m : Nat) (x : Word) (r : PReg) (l : Nat) : (g.wv d m x).rp r l = g.rp r l := by
  unfold Group.wv; split <;> rfl

@[simp] theorem Group.rv_wp (g : Group) (d : PReg) (m : Nat) (x : Bool) (r : VReg) (l : Nat) : (g.wp d m x).rv r l = g.rv r l := by
  unfold Group.wp; split <;> rfl

@[simp] theorem Group.rk_wp (g : Group) (d : PReg) (m : Nat) (x : Bool) (r : KReg) : (g.wp d m x).rk r = g.rk r := by
  unfold Group.wp; split <;> rfl

@[simp] theorem Group.rv_wk (g : Group) (d : KReg) (x : Word) (r : VReg) (l : Nat) : (g.wk d x).rv r l = g.rv r l := by
  unfold Group.wk; split <;> rfl

@[simp] theorem Group.rp_wk (g : Group) (d : KReg) (x : Word) (r : PReg) (l : Nat) : (g.wk d x).rp r l = g.rp r l := by
  unfold Group.wk; split <;> rfl

/-! ## Lane sets -/

/-- The lanes of a set built from a predicate. -/
theorem laneSet_getLsbD (w : Nat) (p : Nat → Bool) (l : Nat) : (laneSet w p).getLsbD l = (decide (l < w) && decide (l < 128) && p l) := by
  unfold laneSet
  induction w with
  | zero => simp
  | succ n ih =>
    rw [List.range_succ, List.foldl_append]
    simp only [List.foldl_cons, List.foldl_nil]
    split
    · rename_i hp
      rw [BitVec.getLsbD_or, ih]
      by_cases h : l = n
      · subst h
        by_cases h2 : l < 128
        · simp [h2, hp]
        · simp [h2]
      · have h3 : (1#128 <<< n).getLsbD l = false := by
          rw [BitVec.getLsbD_shiftLeft]
          by_cases h4 : l < n
          · simp [h4]
          · have : l - n ≠ 0 := by omega
            simp [this]
        rw [h3]
        have h5 : (l < n + 1) = (l < n) := by simp only [eq_iff_iff]; omega
        simp [h5]
    · rename_i hp
      rw [ih]
      by_cases h : l = n
      · subst h; simp [hp]
      · have h5 : (l < n + 1) = (l < n) := by simp only [eq_iff_iff]; omega
        simp [h5]

theorem mem_lanesIn (x : BitVec 128) (w l : Nat) : l ∈ lanesIn x w ↔ l < w ∧ x.getLsbD l = true := by
  simp [lanesIn]

theorem lanesIn_nodup (x : BitVec 128) (w : Nat) : (lanesIn x w).Nodup := List.Pairwise.filter _ List.nodup_range

theorem lanesIn_lt (x : BitVec 128) (w l : Nat) (h : l ∈ lanesIn x w) : l < 128 := by
  by_cases hl : l < 128
  · exact hl
  · rw [mem_lanesIn] at h; simp [BitVec.getLsbD_of_ge x l (by omega)] at h

/-- The active lanes: those of X whose guard is true. -/
theorem active_getLsbD (g : Group) (h : Hdr) (l : Nat) :
    (g.active h).getLsbD l = (decide (l < g.width) && decide (l < 128) && (g.iss.x.getLsbD l && g.guard h l)) := laneSet_getLsbD ..

/-! ## What a lane writes -/

/-- The word that the last of a list of writes leaves in a v register, if any. -/
def lastV (r : VReg) : List (VReg × Word) → Option Word
  | [] => none
  | w :: ws => (lastV r ws).or (if r = w.1 ∧ r.toNat ≠ 1023 then some w.2 else none)

/-- The truth that the last of a list of writes leaves in a predicate, if any. -/
def lastP (r : PReg) : List (PReg × Bool) → Option Bool
  | [] => none
  | w :: ws => (lastP r ws).or (if r = w.1 ∧ r.toNat ≠ 15 then some w.2 else none)

/-- The word that the last of a list of writes leaves in a k register, if any. -/
def lastK (r : KReg) : List (KReg × Word) → Option Word
  | [] => none
  | w :: ws => (lastK r ws).or (if r = w.1 ∧ r.toNat ≠ 63 then some w.2 else none)

theorem foldl_wv_rv (ws : List (VReg × Word)) (g : Group) (m : Nat) (r : VReg) (l : Nat) (hm : m < 128) (hl : l < 128) :
    (ws.foldl (fun g w => g.wv w.1 m w.2) g).rv r l = if l = m then (lastV r ws).getD (g.rv r l) else g.rv r l := by
  induction ws generalizing g with
  | nil => simp [lastV]
  | cons w ws ih =>
    simp only [List.foldl_cons, ih, Group.rv_wv _ _ _ _ _ _ hm hl, lastV]
    by_cases h : l = m
    · by_cases h2 : r = w.1 ∧ r.toNat ≠ 1023
      · cases hw : lastV r ws <;> simp_all <;> split <;> rfl
      · have h3 : ¬ (r = w.1 ∧ r.toNat ≠ 1023 ∧ l = m) := fun e => h2 ⟨e.1, e.2.1⟩
        simp only [h2, h3, if_false, Option.or_none]
    · have h3 : ¬ (r = w.1 ∧ r.toNat ≠ 1023 ∧ l = m) := fun e => h e.2.2
      simp [h, h3]

theorem foldl_wp_rp (ws : List (PReg × Bool)) (g : Group) (m : Nat) (r : PReg) (l : Nat) (hm : m < 128) (hl : l < 128) :
    (ws.foldl (fun g w => g.wp w.1 m w.2) g).rp r l = if l = m then (lastP r ws).getD (g.rp r l) else g.rp r l := by
  induction ws generalizing g with
  | nil => simp [lastP]
  | cons w ws ih =>
    simp only [List.foldl_cons, ih, Group.rp_wp _ _ _ _ _ _ hm hl, lastP]
    by_cases h : l = m
    · by_cases h2 : r = w.1 ∧ r.toNat ≠ 15
      · cases hw : lastP r ws <;> simp_all <;> split <;> rfl
      · have h3 : ¬ (r = w.1 ∧ r.toNat ≠ 15 ∧ l = m) := fun e => h2 ⟨e.1, e.2.1⟩
        simp only [h2, h3, if_false, Option.or_none]
    · have h3 : ¬ (r = w.1 ∧ r.toNat ≠ 15 ∧ l = m) := fun e => h e.2.2
      simp [h, h3]

theorem foldl_wk_rk (ws : List (KReg × Word)) (g : Group) (r : KReg) :
    (ws.foldl (fun g w => g.wk w.1 w.2) g).rk r = (lastK r ws).getD (g.rk r) := by
  induction ws generalizing g with
  | nil => simp [lastK]
  | cons w ws ih =>
    simp only [List.foldl_cons, ih, Group.rk_wk, lastK]
    by_cases h2 : r = w.1 ∧ r.toNat ≠ 63
    · cases hw : lastK r ws <;> simp_all <;> split <;> rfl
    · simp only [h2, if_false, Option.or_none]

/-- Everything of a group but v and p registers and FPCTL is as before. -/
def VPOnly (g h : Group) : Prop := { h with v := g.v, p := g.p, fpctl := g.fpctl } = g

theorem VPOnly.refl (g : Group) : VPOnly g g := rfl

theorem VPOnly.trans {a b c : Group} (h : VPOnly a b) (k : VPOnly b c) : VPOnly a c := by
  unfold VPOnly at *; rw [← h, ← k]

theorem VPOnly.wv (g : Group) (d : VReg) (m : Nat) (x : Word) : VPOnly g (g.wv d m x) := by
  unfold Group.wv; split <;> rfl

theorem VPOnly.wp (g : Group) (d : PReg) (m : Nat) (x : Bool) : VPOnly g (g.wp d m x) := by
  unfold Group.wp; split <;> rfl

theorem VPOnly.setSat (g : Group) : VPOnly g g.setSat := rfl

theorem VPOnly.setNanp (g : Group) : VPOnly g g.setNanp := rfl

theorem VPOnly.foldl {α : Type} (ws : List α) (f : Group → α → Group) (h : ∀ g w, VPOnly g (f g w)) (g : Group) :
    VPOnly g (ws.foldl f g) := by
  induction ws generalizing g with
  | nil => exact .refl g
  | cons w ws ih => exact (h g w).trans (ih (f g w))

@[simp] theorem rv_setSat (g : Group) (r : VReg) (l : Nat) : g.setSat.rv r l = g.rv r l := rfl
@[simp] theorem rp_setSat (g : Group) (r : PReg) (l : Nat) : g.setSat.rp r l = g.rp r l := rfl
@[simp] theorem rk_setSat (g : Group) (r : KReg) : g.setSat.rk r = g.rk r := rfl
@[simp] theorem rv_setNanp (g : Group) (r : VReg) (l : Nat) : g.setNanp.rv r l = g.rv r l := rfl
@[simp] theorem rp_setNanp (g : Group) (r : PReg) (l : Nat) : g.setNanp.rp r l = g.rp r l := rfl

theorem foldl_wv_rp (ws : List (VReg × Word)) (g : Group) (m : Nat) (r : PReg) (l : Nat) :
    (ws.foldl (fun g w => g.wv w.1 m w.2) g).rp r l = g.rp r l := by
  induction ws generalizing g with
  | nil => rfl
  | cons w ws ih => simp [List.foldl_cons, ih]

theorem foldl_wp_rv (ws : List (PReg × Bool)) (g : Group) (m : Nat) (r : VReg) (l : Nat) :
    (ws.foldl (fun g w => g.wp w.1 m w.2) g).rv r l = g.rv r l := by
  induction ws generalizing g with
  | nil => rfl
  | cons w ws ih => simp [List.foldl_cons, ih]

theorem foldl_wv_fpctl (ws : List (VReg × Word)) (g : Group) (m : Nat) : (ws.foldl (fun g w => g.wv w.1 m w.2) g).fpctl = g.fpctl := by
  induction ws generalizing g with
  | nil => rfl
  | cons w ws ih => simp only [List.foldl_cons, ih]; unfold Group.wv; split <;> rfl

theorem foldl_wp_fpctl (ws : List (PReg × Bool)) (g : Group) (m : Nat) : (ws.foldl (fun g w => g.wp w.1 m w.2) g).fpctl = g.fpctl := by
  induction ws generalizing g with
  | nil => rfl
  | cons w ws ih => simp only [List.foldl_cons, ih]; unfold Group.wp; split <;> rfl

/-- A lane's writes reach its own v registers only. -/
theorem LaneOut.apply_rv (o : LaneOut) (g : Group) (m : Nat) (r : VReg) (l : Nat) (hm : m < 128) (hl : l < 128) :
    (o.apply m g).rv r l = if l = m then (lastV r o.v).getD (g.rv r l) else g.rv r l := by
  rw [← foldl_wv_rv o.v g m r l hm hl]
  unfold LaneOut.apply
  cases o.sat <;> cases o.nan <;> simp [foldl_wp_rv]

/-- A lane's writes reach its own predicates only. -/
theorem LaneOut.apply_rp (o : LaneOut) (g : Group) (m : Nat) (r : PReg) (l : Nat) (hm : m < 128) (hl : l < 128) :
    (o.apply m g).rp r l = if l = m then (lastP r o.p).getD (g.rp r l) else g.rp r l := by
  have h := foldl_wp_rp o.p (o.v.foldl (fun g w => g.wv w.1 m w.2) g) m r l hm hl
  rw [foldl_wv_rp] at h
  rw [← h]
  unfold LaneOut.apply
  cases o.sat <;> cases o.nan <;> simp

/-- A lane sets the sticky bits it owes. -/
theorem LaneOut.apply_fpctl (o : LaneOut) (g : Group) (m : Nat) : (o.apply m g).fpctl = stickyFp g.fpctl o.sat o.nan := by
  unfold LaneOut.apply stickyFp
  cases o.sat <;> cases o.nan <;> simp [foldl_wv_fpctl, foldl_wp_fpctl, Group.setSat, Group.setNanp]

theorem LaneOut.apply_only (o : LaneOut) (g : Group) (m : Nat) : VPOnly g (o.apply m g) := by
  unfold LaneOut.apply
  have h1 := VPOnly.foldl o.v (fun g w => g.wv w.1 m w.2) (fun g w => VPOnly.wv g w.1 m w.2) g
  have h2 := VPOnly.foldl o.p (fun g w => g.wp w.1 m w.2) (fun g w => VPOnly.wp g w.1 m w.2) (o.v.foldl (fun g w => g.wv w.1 m w.2) g)
  have h := h1.trans h2
  cases o.sat <;> cases o.nan
  · exact h
  · exact h.trans (VPOnly.setNanp _)
  · exact h.trans (VPOnly.setSat _)
  · exact (h.trans (VPOnly.setSat _)).trans (VPOnly.setNanp _)

/-! ## The lanes of a set act -/

/-- The group after the lanes of a list have acted. -/
def actAll (f : Nat → LaneOut) (ls : List Nat) (g : Group) : Group := ls.foldl (fun g l => (f l).apply l g) g

theorem actAll_only (f : Nat → LaneOut) (ls : List Nat) (g : Group) : VPOnly g (actAll f ls g) :=
  VPOnly.foldl ls _ (fun g l => LaneOut.apply_only (f l) g l) g

theorem actAll_rv (f : Nat → LaneOut) (ls : List Nat) (g : Group) (hn : ls.Nodup) (hb : ∀ m ∈ ls, m < 128) (r : VReg) (l : Nat)
    (hl : l < 128) : (actAll f ls g).rv r l = if l ∈ ls then (lastV r (f l).v).getD (g.rv r l) else g.rv r l := by
  induction ls generalizing g with
  | nil => simp [actAll]
  | cons m ms ih =>
    have hm : m < 128 := hb m (by simp)
    have h := ih ((f m).apply m g) (List.nodup_cons.mp hn).2 fun x hx => hb x (by simp [hx])
    simp only [actAll, List.foldl_cons] at h ⊢
    rw [h, LaneOut.apply_rv _ _ _ _ _ hm hl]
    have hnm := (List.nodup_cons.mp hn).1
    by_cases e : l = m
    · subst e; simp [hnm]
    · simp [e]

theorem actAll_rp (f : Nat → LaneOut) (ls : List Nat) (g : Group) (hn : ls.Nodup) (hb : ∀ m ∈ ls, m < 128) (r : PReg) (l : Nat)
    (hl : l < 128) : (actAll f ls g).rp r l = if l ∈ ls then (lastP r (f l).p).getD (g.rp r l) else g.rp r l := by
  induction ls generalizing g with
  | nil => simp [actAll]
  | cons m ms ih =>
    have hm : m < 128 := hb m (by simp)
    have h := ih ((f m).apply m g) (List.nodup_cons.mp hn).2 fun x hx => hb x (by simp [hx])
    simp only [actAll, List.foldl_cons] at h ⊢
    rw [h, LaneOut.apply_rp _ _ _ _ _ hm hl]
    have hnm := (List.nodup_cons.mp hn).1
    by_cases e : l = m
    · subst e; simp [hnm]
    · simp [e]

theorem stickyFp_or (fp : Word) (a b c d : Bool) : stickyFp (stickyFp fp a b) c d = stickyFp fp (a || c) (b || d) := by
  have h1 : ∀ x y : Word, x ||| y ||| y = x ||| y := fun x y => by rw [BitVec.or_assoc, BitVec.or_self]
  cases a <;> cases b <;> cases c <;> cases d <;> simp [stickyFp, BitVec.or_assoc] <;>
    (try simp [BitVec.or_comm, ← BitVec.or_assoc, h1]) <;> rfl

theorem actAll_fpctl (f : Nat → LaneOut) (ls : List Nat) (g : Group) :
    (actAll f ls g).fpctl = stickyFp g.fpctl (ls.any fun l => (f l).sat) (ls.any fun l => (f l).nan) := by
  induction ls generalizing g with
  | nil => simp [actAll, stickyFp]
  | cons m ms ih =>
    have h := ih ((f m).apply m g)
    simp only [actAll, List.foldl_cons] at h ⊢
    rw [h, LaneOut.apply_fpctl, stickyFp_or]; simp

theorem laneSet_eq_zero {w : Nat} {p : Nat → Bool} (h : ∀ l, l < w → p l = false) : laneSet w p = 0 := by
  apply BitVec.eq_of_getLsbD_eq
  intro l hl
  rw [laneSet_getLsbD]
  by_cases hw : l < w
  · simp [h l hw]
  · simp [hw]

/-- When no lane of the set traps, its lanes all act. -/
theorem lanesOut_ok (s : State) (n : Nat) (act : BitVec 128) (f : Nat → LaneOut)
    (h : ∀ l, act.getLsbD l = true → (f l).cause s.g = none) :
    s.lanesOut n act f = { s with g := actAll f (lanesIn act s.g.width) s.g } := by
  have hb : (laneSet s.g.width fun l => act.getLsbD l && ((f l).cause s.g).isSome) = 0 := by
    apply laneSet_eq_zero
    intro l _
    cases ha : act.getLsbD l with
    | false => rfl
    | true => simp [h l ha]
  unfold State.lanesOut
  have ha : act &&& ~~~(0 : BitVec 128) = act := by
    apply BitVec.eq_of_getLsbD_eq
    intro l hl
    simp only [BitVec.getLsbD_and, BitVec.getLsbD_not, hl]
    simp
  simp only [hb, ha]
  simp [State.raise, actAll]

/-! ## Issue -/

/-- An instruction answers a next state whenever it is issued. -/
theorem issue_goes (i : Info) (s : State) (body : State → BitVec 128 → State) : Goes (issue i s body) := by
  unfold issue Goes
  dsimp only
  repeat' split
  all_goals exact ⟨_, rfl⟩

theorem issue_next (i : Info) (s : State) (body : State → BitVec 128 → State) : ∃ t, issue i s body = .next t := issue_goes i s body

/-- The state at which the own effect of an instruction begins. -/
def State.begun (s : State) (i : Info) : State := (s.countCore s.g.core 3 1).moveOn i

/-- An instruction that executes normally performs its own effect on its active lanes. -/
theorem issue_normal (i : Info) (s : State) (body : State → BitVec 128 → State) (hcls : i.cls s.g.iss.cls = true)
    (hends : i.ends = true → s.g.iss.rest.length = i.len) (hholds : i.holds = true → NotHeld s)
    (hact : s.g.active i.h ≠ 0) (hrole : i.role s.g.role = true)
    (hregs : ∀ r ∈ i.regs, r.toNat = 1023 ∨ r.toNat / 64 ≤ s.g.grant) (hwait : s.g.iss.wait = none) :
    issue i s body = .next ((body (s.begun i) (s.g.active i.h)).finish i) := by
  have hw : s.g.iss.wait.isSome = false := by rw [hwait]; rfl
  have hl : (i.ends && !s.g.iss.last i.len) = false := by
    cases he : i.ends with
    | false => rfl
    | true => simp [Issue.last, hends he]
  have hh : (i.holds && s.g.anyTrapped && !s.g.handler) = false := by
    cases he : i.holds with
    | false => rfl
    | true => rcases hholds he with h | h <;> simp [h]
  have hg : (i.regs.any s.g.beyond) = false := by
    rw [List.any_eq_false]
    intro r hr
    rcases hregs r hr with h | h
    · simp [Group.beyond, h]
    · simp [Group.beyond]; intro _; exact h
  unfold issue State.begun
  have e : (s.countCore s.g.core 3 1).g = s.g := rfl
  simp only [hw, Bool.false_eq_true, if_false, e, hcls, hl, hh, hg, hact, hrole, Bool.not_true, Bool.or_false]

/-- Everything of a group but v, k and p registers and FPCTL is as before. -/
def RegsOnly (g h : Group) : Prop := { h with v := g.v, k := g.k, p := g.p, fpctl := g.fpctl } = g

theorem VPOnly.k {g h : Group} (e : VPOnly g h) : h.k = g.k := by
  have := congrArg Group.k (show { h with v := g.v, p := g.p, fpctl := g.fpctl } = g from e)
  exact this

theorem VPOnly.regs {g h : Group} (e : VPOnly g h) : RegsOnly g h := by
  unfold VPOnly RegsOnly at *
  have hk : h.k = g.k := by rw [← e]
  rw [← hk]; exact e

theorem countCore_core (s : State) (c src n d : Nat) :
    { (s.countCore c src n).core d with ecnt := (s.core d).ecnt } = s.core d := by
  unfold State.countCore State.modCore State.setCore State.core
  dsimp only
  rw [Store.get_put]
  split
  · rename_i h; subst h; rfl
  · rfl

theorem sameOutside_mk (s : State) (cs : Store Core) (g : Group)
    (h : ∀ c, { Store.get Core.reset cs c with ecnt := (s.core c).ecnt } = s.core c) : SameOutside s { s with cores := cs, g := g } :=
  ⟨rfl, h⟩

theorem begun_eq (s : State) (i : Info) :
    s.begun i = { s with cores := (s.countCore s.g.core 3 1).cores, g := (s.begun i).g } := by
  unfold State.begun State.moveOn State.countCore State.modCore State.setCore
  rfl

/-- The lanes of a group at which the own effect of an instruction begins. -/
theorem begun_g (s : State) (i : Info) :
    (s.begun i).g = { s.g with lanes := (s.begun i).g.lanes, iss := (s.begun i).g.iss } := by
  unfold State.begun State.moveOn State.countCore State.modCore State.setCore Group.modLanes
  rfl

/-- Without a wait every executing lane stands behind the instruction. -/
theorem begun_lanes {s : State} (i : Info) (hw : s.g.iss.wait = none) : (s.begun i).g.lanes = movedLanes s i.len := by
  show (s.g.modLanes s.g.iss.due _).lanes = _
  unfold Issue.due
  rw [hw]; rfl

theorem begun_outside (s : State) (i : Info) (g : Group) : SameOutside s { s.begun i with g := g } := by
  rw [begun_eq s i]
  exact sameOutside_mk s _ g fun c => countCore_core s s.g.core 3 1 c

theorem sameGroup_of {a b g : Group} (h : RegsOnly b g) (hl : g.lanes = b.lanes) (hi : g.iss = b.iss)
    (hb : b = { a with lanes := b.lanes, iss := b.iss }) {x : Issue} : SameGroup a { g with iss := x } := by
  unfold SameGroup
  unfold RegsOnly at h
  have h3 : ({ b with lanes := a.lanes, iss := a.iss, v := a.v, k := a.k, p := a.p, fpctl := a.fpctl } : Group) = a := by rw [hb]
  rw [← h] at h3
  exact h3

/-- After an instruction that changed nothing but registers and did not wait, the pc and the executing lanes stand after it. -/
theorem follows_regs (i : Info) (s : State) (g : Group) (h : RegsOnly (s.begun i).g g) (hwait : s.g.iss.wait = none)
    (hstep : s.g.stepping = false) :
    Follows s ({ s.begun i with g := g }.finish i) i.len g.rv g.rk g.rp g.fpctl := by
  have hi : g.iss = (s.begun i).g.iss := by rw [← h]
  have hl : g.lanes = (s.begun i).g.lanes := by rw [← h]
  have hd : g.dbg = s.g.dbg := by have : g.dbg = (s.begun i).g.dbg := by rw [← h]
                                  exact this
  have hh : g.handler = s.g.handler := by have : g.handler = (s.begun i).g.handler := by rw [← h]
                                          exact this
  have hs : g.stepping = false := by unfold Group.stepping at hstep ⊢; rw [hd, hh]; exact hstep
  have hw : g.iss.wait.isSome = false := by rw [hi]; rfl
  have hf : { s.begun i with g := g }.finish i =
      { s.begun i with g := { g with iss := { g.iss with pc := g.iss.after i.len, todo := none } } } := by
    unfold State.finish
    have hs2 : ({ g with iss := { g.iss with pc := g.iss.after i.len, todo := none } } : Group).stepping = false := hs
    simp only [hw, Bool.false_eq_true, if_false, hs2]
  rw [hf]
  constructor
  · exact begun_outside s i _
  · exact sameGroup_of h hl hi (begun_g s i)
  · intros; rfl
  · intros; rfl
  · intros; rfl
  · rfl
  · rw [hi]
    show ({ s.g.iss with pc := _, wait := none } : Issue) = _
    rw [← hwait]; rfl
  · rw [hl]; exact begun_lanes i hwait

/-- The facts under which an instruction with this issue data executes normally. -/
structure Runs (i : Info) (s : State) : Prop where
  cls   : i.cls s.g.iss.cls = true
  ends  : i.ends = true → s.g.iss.rest.length = i.len
  holds : i.holds = true → NotHeld s
  act   : s.g.active i.h ≠ 0
  role  : i.role s.g.role = true
  regs  : ∀ r ∈ i.regs, r.toNat = 1023 ∨ r.toNat / 64 ≤ s.g.grant
  wait  : s.g.iss.wait = none
  step  : s.g.stepping = false

/-- A normal execution of an instruction that neither ends its clause nor is held. -/
theorem Normal.runs {s : State} {h : Hdr} {cls : List Nat} {roles : List Role} {regs : List VReg} (n : Normal s h cls roles regs)
    (i : Info) (hh : i.h = h) (hc : ∀ c ∈ cls, i.cls c = true) (hr : ∀ r ∈ roles, i.role r = true) (hg : i.regs = regs)
    (he : i.ends = true → s.g.iss.rest.length = i.len) (ho : i.holds = true → NotHeld s) : Runs i s :=
  { cls := hc _ n.cls, ends := he, holds := ho, act := hh ▸ n.act, role := hr _ n.role, regs := hg ▸ n.grant
    wait := n.wait, step := n.step }

theorem Runs.issue {i : Info} {s : State} (r : Runs i s) (body : State → BitVec 128 → State) :
    Machine.issue i s body = .next ((body (s.begun i) (s.g.active i.h)).finish i) :=
  issue_normal i s body r.cls r.ends r.holds r.act r.role r.regs r.wait

/-- An instruction whose own effect changes registers of its group only. -/
theorem Runs.regs_next {i : Info} {s : State} (r : Runs i s) (body : State → BitVec 128 → State) (g : Group)
    (hb : body (s.begun i) (s.g.active i.h) = { s.begun i with g := g }) (hg : RegsOnly (s.begun i).g g) :
    ∃ t, Machine.issue i s body = .next t ∧ Follows s t i.len g.rv g.rk g.rp g.fpctl := by
  refine ⟨_, r.issue body, ?_⟩
  rw [hb]
  exact follows_regs i s g hg r.wait r.step

theorem Follows.congr {s t : State} {n : Nat} {v v' : VReg → Nat → Word} {k k' : KReg → Word} {p p' : PReg → Nat → Bool} {fp fp' : Word}
    (f : Follows s t n v k p fp) (hv : ∀ r l, l < 128 → v r l = v' r l) (hk : ∀ r, k r = k' r) (hp : ∀ r l, l < 128 → p r l = p' r l)
    (hf : fp = fp') : Follows s t n v' k' p' fp' :=
  { f with v := fun r l h => (f.v r l h).trans (hv r l h), k := fun r => (f.k r).trans (hk r)
           p := fun r l h => (f.p r l h).trans (hp r l h), fpctl := f.fpctl.trans hf }

theorem someLane_eq (s : State) (h : Hdr) (p : Nat → Bool) :
    ((lanesIn (s.g.active h) s.g.width).any fun l => p l) = someLane s h p := by
  rw [Bool.eq_iff_iff]
  simp only [someLane, List.any_eq_true, Bool.and_eq_true, List.mem_range]
  constructor
  · rintro ⟨l, hl, hp⟩
    exact ⟨l, lanesIn_lt _ _ _ hl, ((mem_lanesIn _ _ _).mp hl).2, hp⟩
  · rintro ⟨l, _, ha, hp⟩
    refine ⟨l, (mem_lanesIn _ _ _).mpr ⟨?_, ha⟩, hp⟩
    rw [active_getLsbD] at ha
    simp only [Bool.and_eq_true, decide_eq_true_eq] at ha
    exact ha.1.1

theorem active_lt {s : State} {h : Hdr} {l : Nat} (ha : (s.g.active h).getLsbD l = true) : l < s.g.width := by
  rw [active_getLsbD] at ha
  simp only [Bool.and_eq_true, decide_eq_true_eq] at ha
  exact ha.1.1

/-- Lanes act with outcomes of which none traps: what the registers hold then. -/
theorem Runs.lanes {i : Info} {s : State} (r : Runs i s) (body : State → BitVec 128 → State) (f : Nat → LaneOut)
    (hb : body (s.begun i) (s.g.active i.h) = (s.begun i).lanesOut i.len (s.g.active i.h) f)
    (hc : ∀ l, (s.g.active i.h).getLsbD l = true → (f l).cause s.g = none) :
    ∃ t, Machine.issue i s body = .next t ∧
      Follows s t i.len (fun r l => if (s.g.active i.h).getLsbD l then (lastV r (f l).v).getD (s.g.rv r l) else s.g.rv r l) s.g.rk
        (fun r l => if (s.g.active i.h).getLsbD l then (lastP r (f l).p).getD (s.g.rp r l) else s.g.rp r l)
        (stickyFp s.g.fpctl (someLane s i.h fun l => (f l).sat) (someLane s i.h fun l => (f l).nan)) := by
  have hc' : ∀ l, (s.g.active i.h).getLsbD l = true → (f l).cause (s.begun i).g = none := hc
  have hok := lanesOut_ok (s.begun i) i.len (s.g.active i.h) f hc'
  have ho := actAll_only f (lanesIn (s.g.active i.h) s.g.width) (s.begun i).g
  obtain ⟨t, ht, hf⟩ := r.regs_next body (actAll f (lanesIn (s.g.active i.h) s.g.width) (s.begun i).g) (hb.trans hok) ho.regs
  have hk0 : (actAll f (lanesIn (s.g.active i.h) s.g.width) (s.begun i).g).k = (s.begun i).g.k := ho.k
  have hmem : ∀ l, l ∈ lanesIn (s.g.active i.h) s.g.width ↔ (s.g.active i.h).getLsbD l = true :=
    fun l => ⟨fun h => ((mem_lanesIn _ _ _).mp h).2, fun h => (mem_lanesIn _ _ _).mpr ⟨active_lt h, h⟩⟩
  refine ⟨t, ht, hf.congr ?_ ?_ ?_ ?_⟩
  · intro r l hl
    rw [actAll_rv _ _ _ (lanesIn_nodup _ _) (fun m hm => lanesIn_lt _ _ m hm) r l hl]
    simp only [hmem]; rfl
  · intro r; unfold Group.rk; rw [hk0]; rfl
  · intro r l hl
    rw [actAll_rp _ _ _ (lanesIn_nodup _ _) (fun m hm => lanesIn_lt _ _ m hm) r l hl]
    simp only [hmem]; rfl
  · rw [actAll_fpctl, someLane_eq s i.h, someLane_eq s i.h]; rfl

/-! ## Vector instructions with one result -/

theorem stickyFp_none (fp : Word) : stickyFp fp false false = fp := by simp [stickyFp]

theorem someLane_false (s : State) (h : Hdr) : (someLane s h fun _ => false) = false := by
  simp [someLane, List.any_eq_false]

theorem cause_plain {o : LaneOut} {g : Group} (ht : o.trap = none) (hs : o.sat = true → g.satt = false)
    (hn : o.nan = true → g.nant = false) : o.cause g = none := by
  unfold LaneOut.cause
  rw [ht]
  cases hns : o.nan <;> cases hss : o.sat <;> simp_all

/-- A vector instruction with a 32-bit result, a clamp and a produced NaN, of which none traps. -/
theorem Runs.vop1 {i : Info} {s : State} (r : Runs i s) (f : Group → Nat → LaneOut) (d : VReg) (w : Nat → Word) (sa na : Nat → Bool)
    (h : ∀ l, f (s.begun i).g l = { v := [(d, w l)], sat := sa l, nan := na l })
    (hs : someLane s i.h sa = true → s.g.satt = false) (hn : someLane s i.h na = true → s.g.nant = false) :
    ∃ t, vop i s f = .next t ∧
      Follows s t i.len (setV s i.h d w) s.g.rk s.g.rp (stickyFp s.g.fpctl (someLane s i.h sa) (someLane s i.h na)) := by
  have hsome : ∀ (p : Nat → Bool) l, (s.g.active i.h).getLsbD l = true → p l = true → someLane s i.h p = true := by
    intro p l ha hp
    simp only [someLane, List.any_eq_true, List.mem_range, Bool.and_eq_true]
    refine ⟨l, ?_, ha, hp⟩
    rw [active_getLsbD] at ha
    simp only [Bool.and_eq_true, decide_eq_true_eq] at ha
    exact ha.1.2
  obtain ⟨t, ht, hf⟩ := r.lanes (fun s act => s.lanesOut i.len act (f s.g)) (fun l => f (s.begun i).g l) rfl (by
    intro l ha
    rw [h l]
    exact cause_plain rfl (fun e => hs (hsome sa l ha e)) (fun e => hn (hsome na l ha e)))
  refine ⟨t, ht, hf.congr ?_ (fun _ => rfl) ?_ ?_⟩
  · intro x l _
    simp only [h, lastV, Option.none_or, setV]
    by_cases ha : (s.g.active i.h).getLsbD l = true
    · by_cases hx : x = d ∧ x.toNat ≠ 1023
      · simp [ha, hx.1, hx.1 ▸ hx.2]
      · simp only [ha, if_true, hx, if_false, Option.getD_none]
        rw [if_neg]; intro e; exact hx ⟨e.1, e.2.1⟩
    · simp [ha]
  · intro x l _
    simp [h, lastP]
  · simp only [h]

/-- A vector instruction with a 32-bit result. -/
theorem Runs.vopV {i : Info} {s : State} (r : Runs i s) (f : Group → Nat → LaneOut) (d : VReg) (w : Nat → Word)
    (h : ∀ l, f (s.begun i).g l = v32 d (w l)) : ∃ t, vop i s f = .next t ∧ WritesV s t i.h i.len d w := by
  obtain ⟨t, ht, hf⟩ := r.vop1 f d w (fun _ => false) (fun _ => false) h (by simp [someLane_false]) (by simp [someLane_false])
  rw [someLane_false, stickyFp_none] at hf
  exact ⟨t, ht, hf⟩

theorem pairRead {ι : Type} [DecidableEq ι] {x d e : ι} (he : e ≠ d) (q : Prop) [Decidable q] (hq : q) (a b c : Word) :
    ((if x = e ∧ q then some b else none).or (if x = d ∧ q then some a else none)).getD c =
      if x = d then a else if x = e then b else c := by
  by_cases h1 : x = d
  · subst h1; simp [hq, Ne.symm he]
  · by_cases h2 : x = e
    · subst h2; simp [hq, he]
    · simp [h1, h2]

/-- A vector instruction with a 64-bit result, a clamp and a produced NaN, of which none traps. -/
theorem Runs.vop2 {i : Info} {s : State} (r : Runs i s) (f : Group → Nat → LaneOut) (d : VReg) (w : Nat → DWord) (sa na : Nat → Bool)
    (h : ∀ l, f (s.begun i).g l = { v := vwrites64 d (w l), sat := sa l, nan := na l })
    (hs : someLane s i.h sa = true → s.g.satt = false) (hn : someLane s i.h na = true → s.g.nant = false) :
    ∃ t, vop i s f = .next t ∧
      Follows s t i.len (setV64 s i.h d w) s.g.rk s.g.rp (stickyFp s.g.fpctl (someLane s i.h sa) (someLane s i.h na)) := by
  have hsome : ∀ (p : Nat → Bool) l, (s.g.active i.h).getLsbD l = true → p l = true → someLane s i.h p = true := by
    intro p l ha hp
    simp only [someLane, List.any_eq_true, List.mem_range, Bool.and_eq_true]
    refine ⟨l, ?_, ha, hp⟩
    rw [active_getLsbD] at ha
    simp only [Bool.and_eq_true, decide_eq_true_eq] at ha
    exact ha.1.2
  obtain ⟨t, ht, hf⟩ := r.lanes (fun s act => s.lanesOut i.len act (f s.g)) (fun l => f (s.begun i).g l) rfl (by
    intro l ha
    rw [h l]
    exact cause_plain rfl (fun e => hs (hsome sa l ha e)) (fun e => hn (hsome na l ha e)))
  have hd : d + 1 ≠ d := by
    intro e
    have h2 := congrArg BitVec.toNat e
    simp only [BitVec.toNat_add] at h2
    have := d.isLt
    simp at h2; omega
  refine ⟨t, ht, hf.congr ?_ (fun _ => rfl) ?_ ?_⟩
  · intro x l _
    simp only [h, vwrites64, lastV, Option.none_or, setV64]
    by_cases ha : (s.g.active i.h).getLsbD l = true
    · by_cases hx : x.toNat = 1023
      · simp [hx]
      · rw [if_pos ha, pairRead hd (x.toNat ≠ 1023) hx, if_pos (show x.toNat ≠ 1023 ∧ _ from ⟨hx, ha⟩)]
    · simp [ha]
  · intro x l _
    simp [h, lastP]
  · simp only [h]

/-- A vector instruction with a predicate result. -/
theorem Runs.vopP {i : Info} {s : State} (r : Runs i s) (f : Group → Nat → LaneOut) (d : PReg) (w : Nat → Bool)
    (h : ∀ l, f (s.begun i).g l = { p := [(d, w l)] }) : ∃ t, vop i s f = .next t ∧ WritesP s t i.h i.len d w := by
  obtain ⟨t, ht, hf⟩ := r.lanes (fun s act => s.lanesOut i.len act (f s.g)) (fun l => f (s.begun i).g l) rfl (by
    intro l _
    rw [h l]
    exact cause_plain rfl (fun e => by cases e) (fun e => by cases e))
  refine ⟨t, ht, hf.congr ?_ (fun _ => rfl) ?_ ?_⟩
  · intro x l _
    simp [h, lastV]
  · intro x l _
    simp only [h, lastP, Option.none_or, setP]
    by_cases ha : (s.g.active i.h).getLsbD l = true
    · by_cases hx : x = d ∧ x.toNat ≠ 15
      · simp [ha, hx.1, hx.1 ▸ hx.2]
      · simp only [ha, if_true, hx, if_false, Option.getD_none]
        rw [if_neg]; intro e; exact hx ⟨e.1, e.2.1⟩
    · simp [ha]
  · simp only [h, someLane_false, stickyFp_none]

/-! ## Uniform instructions -/

theorem RegsOnly.wk (g : Group) (d : KReg) (x : Word) : RegsOnly g (g.wk d x) := by
  unfold Group.wk; split <;> rfl

theorem RegsOnly.trans {a b c : Group} (h : RegsOnly a b) (k : RegsOnly b c) : RegsOnly a c := by
  unfold RegsOnly at *; rw [← h, ← k]

theorem RegsOnly.setSat (g : Group) : RegsOnly g g.setSat := rfl

theorem RegsOnly.foldl {α : Type} (ws : List α) (f : Group → α → Group) (h : ∀ g w, RegsOnly g (f g w)) (g : Group) :
    RegsOnly g (ws.foldl f g) := by
  induction ws generalizing g with
  | nil => rfl
  | cons w ws ih => exact (h g w).trans (ih (f g w))

theorem foldl_wk_other (ws : List (KReg × Word)) (g : Group) :
    (ws.foldl (fun g w => g.wk w.1 w.2) g).fpctl = g.fpctl ∧
      (∀ r l, (ws.foldl (fun g w => g.wk w.1 w.2) g).rv r l = g.rv r l) ∧
      ∀ r l, (ws.foldl (fun g w => g.wk w.1 w.2) g).rp r l = g.rp r l := by
  induction ws generalizing g with
  | nil => simp
  | cons w ws ih =>
    obtain ⟨h1, h2, h3⟩ := ih (g.wk w.1 w.2)
    simp only [List.foldl_cons]
    exact ⟨h1.trans (wk_fpctl ..), fun r l => (h2 r l).trans (Group.rv_wk ..), fun r l => (h3 r l).trans (Group.rp_wk ..)⟩

/-- A uniform instruction that does not trap: what the k registers hold then. -/
theorem Runs.kops {i : Info} {s : State} (r : Runs i s) (body : State → BitVec 128 → State) (o : OnceOut)
    (hb : body (s.begun i) (s.g.active i.h) = (s.begun i).onceOut i.len (s.g.active i.h) o)
    (ht : o.trap = none) (hs : o.sat = true → s.g.satt = false) :
    ∃ t, Machine.issue i s body = .next t ∧
      Follows s t i.len s.g.rv (fun r => (lastK r o.k).getD (s.g.rk r)) s.g.rp (stickyFp s.g.fpctl o.sat false) := by
  have hg : (o.sat && (s.begun i).g.satt) = false := by
    cases ho : o.sat with
    | false => rfl
    | true => exact hs ho
  have e : (s.begun i).onceOut i.len (s.g.active i.h) o =
      { s.begun i with
        g := if o.sat then (o.k.foldl (fun g w => g.wk w.1 w.2) (s.begun i).g).setSat
             else o.k.foldl (fun g w => g.wk w.1 w.2) (s.begun i).g } := by
    unfold State.onceOut
    simp only [ht, hg, Bool.false_eq_true, if_false]
  have hr := RegsOnly.foldl o.k (fun g w => g.wk w.1 w.2) (fun g w => RegsOnly.wk g w.1 w.2) (s.begun i).g
  obtain ⟨h1, h2, h3⟩ := foldl_wk_other o.k (s.begun i).g
  obtain ⟨t, ht, hf⟩ := r.regs_next body _ (hb.trans e) (by cases o.sat <;> first | exact hr | exact hr.trans (.setSat _))
  refine ⟨t, ht, hf.congr ?_ ?_ ?_ ?_⟩
  · intro x l _
    cases o.sat
    · exact h2 x l
    · exact h2 x l
  · intro x
    have := foldl_wk_rk o.k (s.begun i).g x
    cases o.sat
    · exact this
    · exact this
  · intro x l _
    cases o.sat
    · exact h3 x l
    · exact h3 x l
  · cases o.sat
    · rw [stickyFp_none]; exact h1
    · simp only [if_true, Group.setSat, h1, stickyFp]
      simp; rfl

theorem Runs.kop1 {i : Info} {s : State} (r : Runs i s) (f : Group → OnceOut) (d : KReg) (x : Word) (sa : Bool)
    (h : f (s.begun i).g = { k := [(d, x)], sat := sa }) (hs : sa = true → s.g.satt = false) :
    ∃ t, kop i s f = .next t ∧ Follows s t i.len s.g.rv (setK s d x) s.g.rp (stickyFp s.g.fpctl sa false) := by
  obtain ⟨t, ht, hf⟩ := r.kops (fun s act => s.onceOut i.len act (f s.g)) (f (s.begun i).g) rfl (by rw [h]) (by rw [h]; exact hs)
  refine ⟨t, ht, hf.congr (fun _ _ _ => rfl) ?_ (fun _ _ _ => rfl) (by rw [h])⟩
  intro y
  simp only [h, lastK, Option.none_or, setK]
  split <;> simp

theorem Runs.kopK {i : Info} {s : State} (r : Runs i s) (f : Group → OnceOut) (d : KReg) (x : Word)
    (h : f (s.begun i).g = k32 d x) : ∃ t, kop i s f = .next t ∧ WritesK s t i.len d x := by
  obtain ⟨t, ht, hf⟩ := r.kop1 f d x false h (by simp)
  rw [stickyFp_none] at hf
  exact ⟨t, ht, hf⟩

theorem Runs.kop2 {i : Info} {s : State} (r : Runs i s) (f : Group → OnceOut) (d : KReg) (x : DWord) (sa : Bool)
    (h : f (s.begun i).g = { k := kwrites64 d x, sat := sa }) (hs : sa = true → s.g.satt = false) :
    ∃ t, kop i s f = .next t ∧ Follows s t i.len s.g.rv (setK64 s d x) s.g.rp (stickyFp s.g.fpctl sa false) := by
  obtain ⟨t, ht, hf⟩ := r.kops (fun s act => s.onceOut i.len act (f s.g)) (f (s.begun i).g) rfl (by rw [h]) (by rw [h]; exact hs)
  refine ⟨t, ht, hf.congr (fun _ _ _ => rfl) ?_ (fun _ _ _ => rfl) (by rw [h])⟩
  have hd : d + 1 ≠ d := by
    intro e
    have h2 := congrArg BitVec.toNat e
    simp only [BitVec.toNat_add] at h2
    have := d.isLt
    simp at h2; omega
  intro y
  simp only [h, kwrites64, lastK, Option.none_or, setK64]
  by_cases hx : y.toNat = 63
  · simp [hx]
  · rw [pairRead hd (y.toNat ≠ 63) hx, if_neg hx]

/-- The own effect of an instruction takes place with the instruction counted and its lanes behind it. -/
theorem begun_entered {s : State} (i : Info) (hw : s.g.iss.wait = none) : s.begun i = s.entered i.len := by
  have hi : (s.begun i).g.iss = s.g.iss := by
    show ({ s.g.iss with wait := none } : Issue) = s.g.iss
    rw [← hw]
  have hg : (s.begun i).g = { s.g with lanes := movedLanes s i.len } := by
    rw [begun_g s i, hi, begun_lanes i hw]
  rw [begun_eq, hg]; rfl

/-- After an own effect that does not wait the clause goes on behind the instruction. -/
theorem finish_left {u : State} (i : Info) (hw : u.g.iss.wait = none) (hs : u.g.stepping = false) : u.finish i = u.left i.len := by
  unfold State.finish State.left
  have h1 : u.g.iss.wait.isSome = false := by rw [hw]; rfl
  have h2 : ({ u.g with iss := { u.g.iss with pc := u.g.iss.after i.len, todo := none } } : Group).stepping = false := hs
  simp only [h1, Bool.false_eq_true, if_false, h2]

/-- A normal execution whose own effect does not wait. -/
theorem Runs.exact {i : Info} {s : State} (r : Runs i s) (body : State → BitVec 128 → State) (u : State)
    (hb : body (s.entered i.len) (s.g.active i.h) = u) (hw : u.g.iss.wait = none) (hs : u.g.stepping = false) :
    Machine.issue i s body = .next (u.left i.len) := by
  rw [r.issue body, begun_entered i r.wait, hb, finish_left i hw hs]

/-- An own effect that changes the lanes and the group's other fields only. -/
theorem Runs.turns {i : Info} {s : State} (r : Runs i s) (body : State → BitVec 128 → State) (G : Group) (f : Nat → Lane → Lane)
    (hb : body (s.entered i.len) (s.g.active i.h) =
      { s.entered i.len with g := { G with lanes := (movedLanes s i.len).mapIdx f, iss := s.g.iss } })
    (hl : G.lanes = s.g.lanes) (hi : G.iss = s.g.iss) (hd : G.dbg = s.g.dbg) (hh : G.handler = s.g.handler) :
    ∃ t, Machine.issue i s body = .next t ∧ Turns s t i.len G f := by
  have hs : G.stepping = false := by have := r.step; unfold Group.stepping at this ⊢; rw [hd, hh]; exact this
  refine ⟨_, r.exact body _ hb r.wait hs, ?_⟩
  constructor
  · exact sameOutside_mk s _ _ fun c => countCore_core s s.g.core 3 1 c
  · show ({ G with lanes := s.g.lanes, iss := s.g.iss } : Group) = G
    rw [← hl, ← hi]
  · show ({ s.g.iss with pc := _ } : Issue) = _
    rfl
  · rfl
end Sys2Proof.Machine
end

