-- ==== Sys2Proof/Laws/Access.lean ====
section
/-! SUPPORT. What a memory access can change: memory, the caches, translation caches, coherence, error records, counters, what has been
counted and DETC; never a group, a task, a block or the scratchpads. -/
namespace Sys2Proof.Machine

/-- Everything but what a memory access may change is as before. -/
def MemOnly (s t : State) : Prop :=
  { t with agenda := s.agenda, freeCtr := s.freeCtr, outbox := s.outbox, mem := s.mem, side := s.side, l2 := s.l2, l1 := s.l1
           counted := s.counted, tlb := s.tlb, det := s.det, cores := s.cores, ctxs := s.ctxs, err := s.err, dcnt := s.dcnt, links := s.links
           coh := s.coh, chans := s.chans } = s

theorem MemOnly.refl (s : State) : MemOnly s s := rfl

theorem MemOnly.trans {a b c : State} (h : MemOnly a b) (k : MemOnly b c) : MemOnly a c := by
  unfold MemOnly at *; rw [← h, ← k]

theorem MemOnly.g {s t : State} (h : MemOnly s t) : t.g = s.g := by
  have h2 := congrArg State.g (show { t with
    agenda := s.agenda, freeCtr := s.freeCtr, outbox := s.outbox, mem := s.mem, side := s.side, l2 := s.l2, l1 := s.l1
    counted := s.counted, tlb := s.tlb, det := s.det, cores := s.cores, ctxs := s.ctxs, err := s.err, dcnt := s.dcnt, links := s.links
    coh := s.coh, chans := s.chans } = s from h)
  exact h2

theorem MemOnly.l2 (s : State) (x : Store L2Sec) : MemOnly s { s with l2 := x } := rfl

theorem MemOnly.outbox (s : State) (x : List Sent) : MemOnly s { s with outbox := x } := rfl

theorem MemOnly.coh (s : State) (x : Coh) : MemOnly s { s with coh := x } := rfl

theorem MemOnly.det (s : State) (x : Store DetLine) : MemOnly s { s with det := x } := rfl

theorem MemOnly.l1 (s : State) (x : Store L1Sec) : MemOnly s { s with l1 := x } := rfl

theorem MemOnly.counted (s : State) (x : List (List Nat × Nat × Nat)) : MemOnly s { s with counted := x } := rfl

theorem MemOnly.foldl {α : Type} (l : List α) (f : State → α → State) (h : ∀ s a, MemOnly s (f s a)) (s : State) :
    MemOnly s (l.foldl f s) := by
  induction l generalizing s with
  | nil => rfl
  | cons a l ih => exact (h s a).trans (ih _)

theorem MemOnly.report (s : State) (r : ErrRec) : MemOnly s (s.report r) := by
  unfold State.report; split <;> rfl

theorem MemOnly.addrRange (s : State) (a b c : Nat) (x : Option Word) (v : Option (Nat × Nat)) : MemOnly s (s.addrRange a b c x v) :=
  .report ..

theorem MemOnly.setChan (s : State) (n : Nat) (c : MChan) : MemOnly s (s.setChan n c) := rfl

theorem MemOnly.draw (s : State) : MemOnly s s.draw := rfl

theorem MemOnly.putSector (s : State) (k : Nat) (w : List Byte) : MemOnly s (s.putSector k w) := rfl

theorem MemOnly.writeSector (s : State) (k : Nat) (d : List Byte) (c : Byte) : MemOnly s (s.writeSector k d c) := rfl

theorem MemOnly.poison (s : State) (k n : Nat) : MemOnly s (s.poison k n) := by
  unfold State.poison
  dsimp only
  split
  · exact (MemOnly.writeSector s _ _ _).trans (.l2 ..)
  · exact MemOnly.writeSector s _ _ _

theorem MemOnly.unless {s t : State} {p : Prop} [Decidable p] (h : MemOnly s t) : MemOnly s (if p then s else t) := by
  split
  · exact .refl s
  · exact h

theorem MemOnly.reportIf {s t : State} (p : Bool) (r : ErrRec) (h : MemOnly s t) : MemOnly s (if p then t.report r else t) := by
  split
  · exact h.trans (.report ..)
  · exact h

theorem MemOnly.countCe (s : State) (k p : Nat) (x : Option Word) : MemOnly s (s.countCe k p x) := by
  unfold State.countCe
  exact .reportIf _ _ (.reportIf _ _ (.setChan ..))

theorem MemOnly.readSector (s : State) (k n : Nat) (x : Option Word) : MemOnly s (s.readSector k n x).2 := by
  unfold State.readSector
  split
  · exact .refl s
  · exact (MemOnly.writeSector ..).trans (.countCe ..)
  · exact (MemOnly.poison ..).trans (.report ..)

theorem MemOnly.peek (s : State) (k n : Nat) (x : Option Word) : MemOnly s (s.peek k n x).2 := by
  unfold State.peek; split
  · exact .refl s
  · exact .readSector ..

theorem MemOnly.setCoh (s : State) (g : Nat) (b : Byte) : MemOnly s (s.setCoh g b) := by
  unfold State.setCoh; split
  · rfl
  · exact .writeSector ..

theorem MemOnly.fixOwner (s : State) (g : Nat) (x : GState) : MemOnly s (s.fixOwner g x).2 := by
  unfold State.fixOwner
  split
  · exact .refl s
  · split
    · split
      · exact .refl s
      · exact .setCoh ..
    · exact (MemOnly.setCoh ..).trans (.report ..)

theorem MemOnly.gstate (s : State) (g n : Nat) (x : Option Word) : MemOnly s (s.gstate g n x).2 := by
  have h := MemOnly.peek s g n x
  unfold State.gstate
  split
  · rename_i e; rw [e] at h; exact h
  · rename_i e; rw [e] at h
    dsimp only
    split
    · exact h.trans (.report ..)
    · split
      · exact h
      · exact h.trans (.fixOwner ..)

theorem MemOnly.gstateFull (s : State) (g n : Nat) (x : Option Word) : MemOnly s (s.gstateFull g n x).2 := by
  unfold State.gstateFull
  split
  · exact .refl s
  · exact .gstate ..

theorem MemOnly.gstateIf (s : State) (g n : Nat) (x : Option Word) (full : Bool) :
    MemOnly s (if full then s.gstateFull g n x else s.gstate g n x).2 := by
  split
  · exact .gstateFull ..
  · exact .gstate ..

theorem MemOnly.setLink (s : State) (n : Nat) (l : Link) : MemOnly s (s.setLink n l) := rfl

theorem MemOnly.send (s : State) (m : Msg) (r : Bool) : MemOnly s (s.send m r) := by
  unfold State.send
  dsimp only
  split
  · exact (MemOnly.outbox ..).trans (.setLink ..)
  · exact .outbox ..

theorem MemOnly.sendTo (s : State) (op dst n tx req : Nat) (d : Bool) (g : Nat) (data : List Byte) :
    MemOnly s (s.sendTo op dst n tx req d g data) := .send ..

theorem MemOnly.sendInvs (s : State) (l : List Nat) (n tx req g : Nat) : MemOnly s (s.sendInvs l n tx req g) :=
  MemOnly.foldl l _ (fun s d => MemOnly.sendTo s mtINV d n tx req false g []) s

theorem MemOnly.pushTx (s : State) (t : HomeTx) : MemOnly s (s.pushTx t) := rfl

theorem MemOnly.openWrite (s : State) (g n : Nat) (x : GState) (r : Requester) (tx : Nat) : MemOnly s (s.openWrite g n x r tx).2 := by
  unfold State.openWrite
  dsimp only
  split
  · exact .refl s
  · split
    · split
      · exact .setCoh ..
      · exact (MemOnly.sendInvs ..).trans (.pushTx ..)
    · exact ((MemOnly.sendTo ..).trans (.sendInvs ..)).trans (.pushTx ..)

theorem MemOnly.openRead (s : State) (g n : Nat) (x : GState) (tx : Nat) : MemOnly s (s.openRead g n x tx) :=
  (MemOnly.sendTo ..).trans (.pushTx ..)

theorem MemOnly.freshTx (s : State) : MemOnly s s.freshTx.2 := rfl

theorem MemOnly.request (s : State) (op g n : Nat) (tag : List Nat) (data : List Byte) (bad : Bool) :
    MemOnly s (s.request op g n tag data bad) := by
  unfold State.request
  dsimp only
  split
  · exact .refl s
  · refine MemOnly.trans (b := s.freshTx.2) (.freshTx s) ?_
    exact (MemOnly.coh ..).trans (.send ..)

theorem MemOnly.forget (s : State) (g n : Nat) : MemOnly s (s.forget g n) := .l2 ..

theorem MemOnly.giveBack (s : State) (op g n : Nat) (d lost : Bool) : MemOnly s (s.giveBack op g n d lost) := by
  unfold State.giveBack
  exact .unless (((MemOnly.request ..).trans (.coh ..)).trans (.forget ..))

theorem MemOnly.evictRemote (s : State) (g n : Nat) (lost : Bool) : MemOnly s (s.evictRemote g n lost) := by
  unfold State.evictRemote
  dsimp only
  split
  · exact .refl s
  · exact .forget ..
  · exact .giveBack ..
  · exact .giveBack ..

theorem MemOnly.modCore (s : State) (c : Nat) (f : Core → Core) : MemOnly s (s.modCore c f) := rfl

theorem MemOnly.countCore (s : State) (c a b : Nat) : MemOnly s (s.countCore c a b) := rfl

theorem MemOnly.countDev (s : State) (a b : Nat) : MemOnly s (s.countDev a b) := rfl

theorem MemOnly.modCx (s : State) (c : Word) (f : Ctx → Ctx) : MemOnly s (s.modCx c f) := rfl

theorem MemOnly.detEvent (s : State) (c : Word) (n : Nat) (pc : DWord) : MemOnly s (s.detEvent c n pc) := rfl

theorem MemOnly.detWrite (s : State) (w : Who) (t b d g : Nat) (bs : List Byte) : MemOnly s (s.detWrite w t b d g bs) := by
  unfold State.detWrite
  dsimp only
  split
  · exact (MemOnly.det ..).trans (.detEvent ..)
  · exact .det ..

theorem MemOnly.detDrop (s : State) (t b : Nat) : MemOnly s (s.detDrop t b) := .det ..

theorem MemOnly.detRead (s : State) (t b d : Nat) : MemOnly s (s.detRead t b d).2 := by
  unfold State.detRead
  dsimp only
  split <;> rfl

theorem MemOnly.discarded (s : State) (d : Nat) (x : Option Word) : MemOnly s (s.discarded d x) := .report ..

theorem MemOnly.discardedIf (s : State) (p : Prop) [Decidable p] (d : Nat) (x : Option Word) :
    MemOnly s (if p then s.discarded d x else s) := by
  split
  · exact .discarded ..
  · exact .refl s

theorem MemOnly.overwritten (s : State) (k g m : Nat) (d : List Byte) : MemOnly s (s.overwritten k g m d) := by
  unfold State.overwritten
  dsimp only
  split
  · split
    · exact .refl s
    · split
      · exact .refl s
      · exact .writeSector ..
  · exact .refl s

theorem MemOnly.dropServed (s : State) (g : Nat) : MemOnly s (s.dropServed g) := .coh ..

theorem MemOnly.dropClean (s : State) (c : Nat) : MemOnly s (s.dropClean c) := rfl

theorem MemOnly.dropBytes (s : State) (c d n : Nat) : MemOnly s (s.dropBytes c d n) := by
  unfold State.dropBytes
  dsimp only
  split
  · exact .refl s
  · split <;> rfl

theorem MemOnly.l1Put (s : State) (w : Who) (d g : Nat) (bs : List Byte) : MemOnly s (s.l1Put w d g bs) := rfl

theorem MemOnly.cacheEntries (s : State) (p : List TlbE) : MemOnly s (s.cacheEntries p) := rfl

/-! ## Accesses -/

/-- An access changes only what a memory access may change. -/
def Keeps {α : Type} (m : Mem α) : Prop := ∀ s, MemOnly s (m.on s).2

theorem Keeps.pure {α : Type} (a : α) : Keeps (pure a : Mem α) := fun _ => rfl

theorem Keeps.throw {α : Type} (e : Stop) : Keeps (throw e : Mem α) := fun _ => rfl

theorem Keeps.get : Keeps (get : Mem State) := fun _ => rfl

theorem Keeps.mod {f : State → State} (h : ∀ s, MemOnly s (f s)) : Keeps (Mem.mod f) := h

theorem Keeps.of {α : Type} {f : State → α × State} (h : ∀ s, MemOnly s (f s).2) : Keeps (Mem.of f) := h

theorem Keeps.bind {α β : Type} {m : Mem α} {f : α → Mem β} (h : Keeps m) (k : ∀ a, Keeps (f a)) : Keeps (m >>= f) := by
  intro s
  have hm := h s
  show MemOnly s ((m >>= f) s).2
  have e : (m >>= f) s = match m s with
    | (.ok a, t) => f a t
    | (.error x, t) => (.error x, t) := by
    show (ExceptT.bind m f) s = _
    unfold ExceptT.bind ExceptT.mk
    show (match m s with | (a, t) => ExceptT.bindCont f a t) = _
    cases h2 : m s with
    | mk a t => cases a <;> rfl
  rw [e]
  unfold Mem.on at hm
  cases h2 : m s with
  | mk a t =>
    rw [h2] at hm
    cases a with
    | ok a => exact hm.trans (k a t)
    | error x => exact hm

theorem Keeps.bind' {α β : Type} {m : Mem α} {f : α → Mem β} (h : Keeps m) (k : ∀ a, Keeps (f a)) : Keeps (Bind.bind m f) := .bind h k

theorem Keeps.map {α β : Type} {m : Mem α} {f : α → β} (h : Keeps m) : Keeps (f <$> m) := by
  have e : f <$> m = (m >>= fun a => Pure.pure (f a)) := by rfl
  rw [e]
  exact .bind h fun a => .pure (f a)

theorem Keeps.ite {α : Type} {p : Prop} [Decidable p] {a b : Mem α} (ha : Keeps a) (hb : Keeps b) : Keeps (if p then a else b) := by
  split
  · exact ha
  · exact hb

theorem Keeps.mapM {α β : Type} (f : α → Mem β) (h : ∀ a, Keeps (f a)) (l : List α) : Keeps (l.mapM f) := by
  have e : ∀ (l : List α) (acc : List β), Keeps (List.mapM.loop f l acc) := by
    intro l
    induction l with
    | nil => intro acc; exact .pure _
    | cons a l ih => intro acc; exact .bind (h a) fun b => ih _
  exact e l []

theorem Keeps.forM {α : Type} (f : α → Mem Unit) (h : ∀ a, Keeps (f a)) (l : List α) : Keeps (l.forM f) := by
  induction l with
  | nil => exact .pure _
  | cons a l ih => exact .bind (h a) fun _ => ih

theorem Keeps.withAcc {α : Type} (n : Nat) {m : Mem α} (h : Keeps m) : Keeps (withAcc n m) := by
  intro s
  have hm := h s
  unfold Mem.on at hm ⊢
  unfold Machine.withAcc
  cases h2 : m s with
  | mk a t =>
    rw [h2] at hm
    rcases a with (_ | _) | _ <;> exact hm

theorem Keeps.trap {α : Type} (a b c d : Nat) : Keeps (Mem.trap a b c d : Mem α) := .throw _

theorem Keeps.det (w : Who) (n : Nat) : Keeps (w.det! n) := by
  refine .mod fun s => ?_
  split
  · exact .detEvent ..
  · exact .refl s

/-- An event counted with an access that may wait. -/
theorem Keeps.counting {α : Type} (w : Who) (kind at_ : Nat) (due : Bool) {f : State → State} (hf : ∀ s, MemOnly s (f s)) {m : Mem α}
    (h : Keeps m) : Keeps (Mem.counting w kind at_ due f m) := by
  intro s
  unfold Mem.on Mem.counting
  dsimp only
  have h0 : MemOnly s (if !due || s.counted.contains (w.tag, kind, at_) then s
      else { f s with counted := (w.tag, kind, at_) :: s.counted }) := by
    split
    · exact .refl s
    · exact (hf s).trans (.counted ..)
  generalize (if !due || s.counted.contains (w.tag, kind, at_) then s
      else { f s with counted := (w.tag, kind, at_) :: s.counted }) = u at h0 ⊢
  have hm := h u
  unfold Mem.on at hm
  split
  · rename_i e; rw [e] at hm; exact h0.trans hm
  · rename_i e; rw [e] at hm; exact (h0.trans hm).trans (.counted ..)

/-! ## L2, translation and the first-level cache -/

theorem MemOnly.rstM (s : State) (f : Store L2Sec → Store L2Sec) : MemOnly s { s with l2 := f s.l2 } := rfl

theorem Keeps.modCoh (f : State → Coh) : Keeps (Mem.mod fun s => { s with coh := f s }) := fun _ => rfl

theorem Keeps.modL2 (f : State → Store L2Sec) : Keeps (Mem.mod fun s => { s with l2 := f s }) := fun _ => rfl

theorem Keeps.modL1 (f : State → Store L1Sec) : Keeps (Mem.mod fun s => { s with l1 := f s }) := fun _ => rfl

theorem Keeps.reachHome (w : Who) (k n : Nat) (wr full : Bool) : Keeps (reachHome w k n wr full) := by
  unfold Machine.reachHome
  dsimp only
  repeat' with_reducible first
    | exact Keeps.of fun s => MemOnly.gstateIf ..
    | exact Keeps.of fun s => MemOnly.freshTx s
    | exact Keeps.of fun s => MemOnly.openWrite ..
    | exact Keeps.mod fun s => MemOnly.openRead ..
    | exact Keeps.mod fun s => MemOnly.dropServed ..
    | exact Keeps.modCoh _
    | refine Keeps.bind ?_ fun _ => ?_
    | refine Keeps.ite ?_ ?_
    | exact Keeps.pure _
    | exact Keeps.throw _
    | exact Keeps.get
    | split

theorem Keeps.reachCopy (w : Who) (k g g' n : Nat) (wr : Bool) : Keeps (reachCopy w k g g' n wr) := by
  unfold Machine.reachCopy
  dsimp only
  repeat' with_reducible first
    | exact Keeps.mod fun s => MemOnly.request ..
    | exact Keeps.modL2 _
    | refine Keeps.bind ?_ fun _ => ?_
    | exact Keeps.pure _
    | exact Keeps.throw _
    | exact Keeps.get
    | split

theorem Keeps.reachRemote (w : Who) (k n : Nat) (wr : Bool) : Keeps (reachRemote w k n wr) := by
  unfold Machine.reachRemote
  dsimp only
  repeat' with_reducible first
    | exact Keeps.reachCopy _ _ _ _ _ _
    | exact Keeps.mod fun s => MemOnly.evictRemote ..
    | exact Keeps.modCoh _
    | refine Keeps.bind ?_ fun _ => ?_
    | refine Keeps.ite ?_ ?_
    | exact Keeps.pure _
    | exact Keeps.throw _
    | exact Keeps.get
    | split

theorem Keeps.reachAt (w : Who) (k n : Nat) (wr full : Bool) : Keeps (reachAt w k n wr full) := by
  unfold Machine.reachAt
  refine .bind .get fun s => ?_
  dsimp only
  exact .ite (.reachHome _ _ _ _ _) (.reachRemote _ _ _ _)

theorem Keeps.reach (w : Who) (k n : Nat) (wr note full : Bool) : Keeps (reach w k n wr note full) := by
  unfold Machine.reach
  exact .bind .get fun s => .counting _ _ _ _ (fun s => MemOnly.detEvent ..) (.reachAt _ _ _ _ _)

theorem Keeps.l2Sector (w : Who) (k n : Nat) (note : Bool) : Keeps (l2Sector w k n note) := by
  unfold Machine.l2Sector
  try dsimp only
  repeat' with_reducible first
    | refine Keeps.bind ?_ fun _ => ?_
    | refine Keeps.ite ?_ ?_
    | exact Keeps.pure _
    | exact Keeps.throw _
    | exact Keeps.get
    | exact Keeps.reach _ _ _ _ _ _
    | exact Keeps.of fun s => MemOnly.readSector ..
    | exact Keeps.det _ _
    | exact Keeps.trap _ _ _ _
    | exact Keeps.modCoh _
    | exact Keeps.modL2 _
    | exact Keeps.modL1 _
    | split

theorem Keeps.l2Read (w : Who) (d n g va : Nat) (note : Bool) : Keeps (l2Read w d n g va note) := by
  unfold Machine.l2Read
  try dsimp only
  repeat' with_reducible first
    | refine Keeps.bind ?_ fun _ => ?_
    | refine Keeps.ite ?_ ?_
    | exact Keeps.pure _
    | exact Keeps.throw _
    | exact Keeps.get
    | exact Keeps.l2Sector _ _ _ _
    | exact Keeps.det _ _
    | exact Keeps.trap _ _ _ _
    | exact Keeps.modCoh _
    | exact Keeps.modL2 _
    | exact Keeps.modL1 _
    | split

theorem Keeps.l2Put (w : Who) (d g m : Nat) (bs : List Byte) : Keeps (l2Put w d g m bs) := by
  unfold Machine.l2Put
  try dsimp only
  repeat' with_reducible first
    | refine Keeps.bind ?_ fun _ => ?_
    | refine Keeps.ite ?_ ?_
    | exact Keeps.pure _
    | exact Keeps.throw _
    | exact Keeps.get
    | exact Keeps.reach _ _ _ _ _ _
    | exact Keeps.of fun s => MemOnly.readSector ..
    | exact Keeps.mod fun s => MemOnly.overwritten ..
    | exact Keeps.mod fun s => MemOnly.discardedIf ..
    | exact Keeps.det _ _
    | exact Keeps.trap _ _ _ _
    | exact Keeps.modCoh _
    | exact Keeps.modL2 _
    | exact Keeps.modL1 _
    | split

theorem Keeps.l2Write (w : Who) (d g : Nat) (bs : List Byte) : Keeps (l2Write w d g bs) := Keeps.l2Put _ _ _ _ _

theorem Keeps.rangeTrap {α : Type} (w : Who) (d l va : Nat) : Keeps ((rangeTrap w d l va : Mem α)) := by
  unfold Machine.rangeTrap
  try dsimp only
  repeat' with_reducible first
    | refine Keeps.bind ?_ fun _ => ?_
    | refine Keeps.ite ?_ ?_
    | exact Keeps.pure _
    | exact Keeps.throw _
    | exact Keeps.get
    | exact Keeps.mod fun s => (MemOnly.draw s).trans (.addrRange ..)
    | exact Keeps.det _ _
    | exact Keeps.trap _ _ _ _
    | exact Keeps.modCoh _
    | exact Keeps.modL2 _
    | exact Keeps.modL1 _
    | split

theorem Keeps.pickEntry (asn lvl va : Nat) {m : Mem Nat} (h : Keeps m) : Keeps (pickEntry asn lvl va m) := by
  intro s
  have hm := h s
  unfold Mem.on at hm ⊢
  unfold Machine.pickEntry
  cases h2 : m s with
  | mk a t =>
    rw [h2] at hm
    dsimp only at hm ⊢
    split
    · exact hm
    · exact hm
    · refine hm.trans ?_
      split <;> split <;> exact MemOnly.draw t

theorem Keeps.walkFrom (w : Who) (asn va lvl table : Nat) (path : List TlbE) : Keeps (walkFrom w asn va lvl table path) := by
  induction lvl generalizing table path with
  | zero =>
    unfold Machine.walkFrom
    refine .bind (.pickEntry _ _ _ ?_) fun e => ?_
    · repeat' with_reducible first
        | refine Keeps.bind ?_ fun _ => ?_
        | refine Keeps.ite ?_ ?_
        | exact Keeps.pure _
        | exact Keeps.get
        | exact Keeps.trap _ _ _ _
        | exact Keeps.rangeTrap _ _ _ _
        | exact Keeps.l2Read _ _ _ _ _ _
    · repeat' with_reducible first
        | refine Keeps.bind ?_ fun _ => ?_
        | refine Keeps.ite ?_ ?_
        | exact Keeps.pure _
        | exact Keeps.get
        | exact Keeps.trap _ _ _ _
        | exact Keeps.rangeTrap _ _ _ _
  | succ n ih =>
    unfold Machine.walkFrom
    refine .bind (.pickEntry _ _ _ ?_) fun e => ?_
    · repeat' with_reducible first
        | refine Keeps.bind ?_ fun _ => ?_
        | refine Keeps.ite ?_ ?_
        | exact Keeps.pure _
        | exact Keeps.get
        | exact Keeps.trap _ _ _ _
        | exact Keeps.rangeTrap _ _ _ _
        | exact Keeps.l2Read _ _ _ _ _ _
    · repeat' with_reducible first
        | exact ih _ _
        | refine Keeps.bind ?_ fun _ => ?_
        | refine Keeps.ite ?_ ?_
        | exact Keeps.pure _
        | exact Keeps.get
        | exact Keeps.trap _ _ _ _
        | exact Keeps.rangeTrap _ _ _ _

theorem Keeps.walk (w : Who) (va : Nat) : Keeps (walk w va) := by
  unfold Machine.walk
  try dsimp only
  repeat' with_reducible first
    | refine Keeps.bind ?_ fun _ => ?_
    | refine Keeps.ite ?_ ?_
    | exact Keeps.pure _
    | exact Keeps.throw _
    | exact Keeps.get
    | exact Keeps.counting _ _ _ _ (fun s => MemOnly.countDev ..) (.walkFrom _ _ _ _ _ _)
    | exact Keeps.mod fun s => MemOnly.cacheEntries ..
    | exact Keeps.det _ _
    | exact Keeps.trap _ _ _ _
    | exact Keeps.modCoh _
    | exact Keeps.modL2 _
    | exact Keeps.modL1 _
    | split

theorem Keeps.translate (w : Who) (n : Need) (va : Nat) : Keeps (translate w n va) := by
  unfold Machine.translate
  try dsimp only
  repeat' with_reducible first
    | refine Keeps.bind ?_ fun _ => ?_
    | refine Keeps.ite ?_ ?_
    | exact Keeps.pure _
    | exact Keeps.throw _
    | exact Keeps.get
    | exact Keeps.walk _ _
    | exact Keeps.det _ _
    | exact Keeps.trap _ _ _ _
    | exact Keeps.modCoh _
    | exact Keeps.modL2 _
    | exact Keeps.modL1 _
    | split

theorem Keeps.pieces (w : Who) (need : Need) (f va n : Nat) : Keeps (pieces w need f va n) := by
  induction f generalizing va n with
  | zero => exact .pure _
  | succ f ih =>
    unfold Machine.pieces
    dsimp only
    repeat' with_reducible first
      | exact ih _ _
      | exact Keeps.translate _ _ _
      | refine Keeps.bind ?_ fun _ => ?_
      | refine Keeps.ite ?_ ?_
      | exact Keeps.pure _

theorem Keeps.flushKey (w : Who) (g k : Nat) : Keeps (flushKey w g k) := by
  unfold Machine.flushKey
  try dsimp only
  repeat' with_reducible first
    | refine Keeps.bind ?_ fun _ => ?_
    | refine Keeps.ite ?_ ?_
    | exact Keeps.pure _
    | exact Keeps.throw _
    | exact Keeps.get
    | exact Keeps.l2Put _ _ _ _ _
    | exact Keeps.det _ _
    | exact Keeps.trap _ _ _ _
    | exact Keeps.modCoh _
    | exact Keeps.modL2 _
    | exact Keeps.modL1 _
    | split

theorem Keeps.writeBackAll (w : Who) (c : Nat) : Keeps (writeBackAll w c) := by
  unfold Machine.writeBackAll
  exact .bind .get fun s => Keeps.forM _ (fun e => Keeps.flushKey _ _ _) _

theorem Keeps.release (w : Who) (c : Nat) : Keeps (release w c) := by
  unfold Machine.release
  try dsimp only
  repeat' with_reducible first
    | refine Keeps.bind ?_ fun _ => ?_
    | refine Keeps.ite ?_ ?_
    | exact Keeps.pure _
    | exact Keeps.throw _
    | exact Keeps.get
    | exact Keeps.writeBackAll _ _
    | exact Keeps.det _ _
    | exact Keeps.trap _ _ _ _
    | exact Keeps.modCoh _
    | exact Keeps.modL2 _
    | exact Keeps.modL1 _
    | split

theorem Keeps.acquire (w : Who) (c : Nat) : Keeps (acquire w c) := by
  refine .mod fun s => ?_
  split
  · exact .dropClean ..
  · exact .refl s

theorem Keeps.l1Room (w : Who) (key : Nat) : Keeps (l1Room w key) := by
  unfold Machine.l1Room
  dsimp only
  repeat' with_reducible first
    | exact Keeps.forM _ (fun k => Keeps.flushKey _ _ _) _
    | exact Keeps.mod fun s => MemOnly.draw s
    | exact Keeps.modL1 _
    | refine Keeps.bind ?_ fun _ => ?_
    | refine Keeps.ite ?_ ?_
    | exact Keeps.pure _
    | exact Keeps.get

theorem Keeps.l1Read (w : Who) (d n g va : Nat) : Keeps (l1Read w d n g va) := by
  unfold Machine.l1Read
  dsimp only
  repeat' with_reducible first
    | exact Keeps.counting _ _ _ _ (fun s => MemOnly.countCore ..) (.l2Sector _ _ _ _)
    | exact Keeps.l1Room _ _
    | exact Keeps.modL1 _
    | exact Keeps.trap _ _ _ _
    | refine Keeps.bind ?_ fun _ => ?_
    | refine Keeps.ite ?_ ?_
    | exact Keeps.pure _
    | exact Keeps.get
    | split

theorem Keeps.l1Write (w : Who) (d g : Nat) (bs : List Byte) : Keeps (l1Write w d g bs) := by
  unfold Machine.l1Write
  exact .bind .get fun s => .bind (.l1Room _ _) fun _ => .mod fun s => .l1Put ..

theorem Keeps.flushAt (w : Who) (d g : Nat) : Keeps (flushAt w d g) := by
  unfold Machine.flushAt
  exact .bind .get fun s => Keeps.flushKey _ _ _

theorem Keeps.detRoom (w : Who) (t b : Nat) : Keeps (detRoom w t b) := by
  unfold Machine.detRoom
  try dsimp only
  repeat' with_reducible first
    | exact Keeps.mod fun s => MemOnly.draw ..
    | exact Keeps.mod fun s => MemOnly.detDrop ..
    | refine Keeps.forM _ (fun x => ?_) _
    | exact Keeps.l2Write _ _ _ _
    | refine Keeps.bind ?_ fun _ => ?_
    | refine Keeps.ite ?_ ?_
    | exact Keeps.pure _
    | exact Keeps.throw _
    | exact Keeps.get

theorem Keeps.readPart (w : Who) (c : Bool) (l : Leaf) (d n va : Nat) : Keeps (readPart w c l d n va) := by
  unfold Machine.readPart
  try dsimp only
  repeat' with_reducible first
    | refine Keeps.bind ?_ fun _ => ?_
    | refine Keeps.ite ?_ ?_
    | exact Keeps.pure _
    | exact Keeps.throw _
    | exact Keeps.get
    | exact Keeps.l1Read _ _ _ _ _
    | exact Keeps.l2Read _ _ _ _ _ _
    | exact Keeps.flushAt _ _ _
    | exact Keeps.of fun s => MemOnly.detRead ..
    | exact Keeps.det _ _
    | exact Keeps.trap _ _ _ _
    | exact Keeps.modCoh _
    | exact Keeps.modL2 _
    | exact Keeps.modL1 _
    | split

theorem Keeps.writePart (w : Who) (c h : Bool) (l : Leaf) (d : Nat) (bs : List Byte) : Keeps (writePart w c h l d bs) := by
  unfold Machine.writePart
  try dsimp only
  repeat' with_reducible first
    | refine Keeps.bind ?_ fun _ => ?_
    | refine Keeps.ite ?_ ?_
    | exact Keeps.pure _
    | exact Keeps.throw _
    | exact Keeps.get
    | exact Keeps.detRoom _ _ _
    | exact Keeps.l2Write _ _ _ _
    | exact Keeps.flushAt _ _ _
    | exact Keeps.mod fun s => MemOnly.detWrite ..
    | exact Keeps.l1Write _ _ _ _
    | exact Keeps.mod fun s => MemOnly.dropBytes ..
    | exact Keeps.mod fun s => (MemOnly.coh ..).trans (.dropBytes ..)
    | exact Keeps.det _ _
    | exact Keeps.trap _ _ _ _
    | exact Keeps.modCoh _
    | exact Keeps.modL2 _
    | exact Keeps.modL1 _
    | split

theorem Keeps.readPiece (w : Who) (c : Bool) (p : Piece) : Keeps (readPiece w c p) := by
  unfold Machine.readPiece
  exact .bind (.mapM _ (fun e => Keeps.readPart _ _ _ _ _ _) _) fun _ => .pure _

theorem Keeps.writePiece (w : Who) (c h : Bool) (p : Piece) (bs : List Byte) : Keeps (writePiece w c h p bs) := by
  unfold Machine.writePiece
  exact Keeps.forM _ (fun e => Keeps.writePart _ _ _ _ _ _) _

theorem Keeps.reachPiece (w : Who) (c h : Bool) (p : Piece) (bs : List Byte) : Keeps (reachPiece w c h p bs) := by
  unfold Machine.reachPiece
  split
  · exact .detRoom _ _ _
  · refine .ite (.pure _) (Keeps.forM _ (fun e => ?_) _)
    dsimp only
    repeat' with_reducible first
      | exact Keeps.mod fun s => MemOnly.overwritten ..
      | exact Keeps.reach _ _ _ _ _ _
      | exact Keeps.trap _ _ _ _
      | refine Keeps.bind ?_ fun _ => ?_
      | refine Keeps.ite ?_ ?_
      | exact Keeps.pure _
      | exact Keeps.get
      | split

theorem Keeps.readParts (w : Who) (need : Need) (c : Bool) (f va n : Nat) : Keeps (readParts w need c f va n) := by
  induction f generalizing va n with
  | zero => exact .pure _
  | succ f ih =>
    unfold Machine.readParts
    dsimp only
    repeat' with_reducible first
      | exact ih _ _
      | exact Keeps.translate _ _ _
      | exact Keeps.readPiece _ _ _
      | refine Keeps.bind ?_ fun _ => ?_
      | refine Keeps.ite ?_ ?_
      | exact Keeps.pure _

/-- A load by a lane. -/
theorem Keeps.loadBytes (w : Who) (va n ann : Nat) : Keeps (loadBytes w va n ann) := by
  unfold Machine.loadBytes
  refine .withAcc _ (.bind .get fun s => ?_)
  dsimp only
  repeat' with_reducible first
    | exact Keeps.readParts _ _ _ _ _ _
    | exact Keeps.acquire _ _
    | refine Keeps.bind ?_ fun _ => ?_
    | refine Keeps.ite ?_ ?_
    | exact Keeps.pure _
    | split

/-- A store by a lane. -/
theorem Keeps.storeBytes (w : Who) (va ann : Nat) (bs : List Byte) : Keeps (storeBytes w va ann bs) := by
  unfold Machine.storeBytes
  refine .withAcc _ (.bind (.pieces _ _ _ _ _) fun ps => ?_)
  dsimp only
  repeat' with_reducible first
    | exact Keeps.forM _ (fun p => Keeps.reachPiece _ _ _ _ _) _
    | exact Keeps.forM _ (fun p => Keeps.writePiece _ _ _ _ _) _
    | exact Keeps.release _ _
    | refine Keeps.bind ?_ fun _ => ?_
    | refine Keeps.ite ?_ ?_
    | exact Keeps.pure _
    | exact Keeps.get
    | split

theorem Keeps.atomicAt (w : Who) (sc : Nat) (l : Leaf) (n va : Nat) (pay : List Byte) (f : List Byte → List Byte) : Keeps (atomicAt w sc l n va pay f) := by
  unfold Machine.atomicAt
  try dsimp only
  repeat' with_reducible first
    | refine Keeps.bind ?_ fun _ => ?_
    | refine Keeps.ite ?_ ?_
    | exact Keeps.pure _
    | exact Keeps.throw _
    | exact Keeps.get
    | exact Keeps.detRoom _ _ _
    | exact Keeps.l1Read _ _ _ _ _
    | exact Keeps.l2Read _ _ _ _ _ _
    | exact Keeps.flushAt _ _ _
    | exact Keeps.reach _ _ _ _ _ _
    | exact Keeps.l2Write _ _ _ _
    | exact Keeps.of fun s => MemOnly.detRead ..
    | exact Keeps.mod fun s => MemOnly.detWrite ..
    | exact Keeps.l1Write _ _ _ _
    | exact Keeps.mod fun s => MemOnly.dropBytes ..
    | exact Keeps.mod fun s => (MemOnly.coh ..).trans (.dropBytes ..)
    | exact Keeps.mod fun s => MemOnly.request ..
    | exact Keeps.det _ _
    | exact Keeps.trap _ _ _ _
    | exact Keeps.modCoh _
    | exact Keeps.modL2 _
    | exact Keeps.modL1 _
    | split

theorem Keeps.engineRead (w : Who) (va n : Nat) : Keeps (engineRead w va n) := .withAcc _ (.readParts _ _ _ _ _ _)

theorem Keeps.engineWrite (w : Who) (va : Nat) (bs : List Byte) : Keeps (engineWrite w va bs) := by
  unfold Machine.engineWrite
  refine .withAcc _ (.bind (.pieces _ _ _ _ _) fun ps => ?_)
  exact .bind (Keeps.forM _ (fun p => Keeps.reachPiece _ _ _ _ _) _) fun _ => Keeps.forM _ (fun p => Keeps.writePiece _ _ _ _ _) _

theorem Keeps.physRead (w : Who) (d n : Nat) : Keeps (physRead w d n) := by
  unfold Machine.physRead
  refine .bind (.mapM _ (fun c => ?_) _) fun _ => .pure _
  repeat' with_reducible first
    | exact Keeps.l2Read _ _ _ _ _ _
    | refine Keeps.bind ?_ fun _ => ?_
    | refine Keeps.ite ?_ ?_
    | exact Keeps.pure _
    | exact Keeps.get
    | exact Keeps.trap _ _ _ _

theorem Keeps.physWrite (w : Who) (d : Nat) (bs : List Byte) : Keeps (physWrite w d bs) := by
  unfold Machine.physWrite
  refine Keeps.forM _ (fun c => ?_) _
  repeat' with_reducible first
    | exact Keeps.l2Write _ _ _ _
    | refine Keeps.bind ?_ fun _ => ?_
    | refine Keeps.ite ?_ ?_
    | exact Keeps.pure _
    | exact Keeps.get
    | exact Keeps.trap _ _ _ _

/-- The fence at a scope. -/
theorem Keeps.fenceAt (w : Who) (sc : Nat) : Keeps (fenceAt w sc) := .bind (.release _ _) fun _ => .acquire _ _

theorem Keeps.alignTrap {α : Type} (e : Int) (w acc : Nat) : Keeps (alignTrap e w acc : Mem α) := .throw _

theorem Keeps.vaCheck (e : Int) (m acc : Nat) : Keeps (vaCheck e m acc) := by
  unfold Machine.vaCheck
  repeat' with_reducible first
    | refine Keeps.bind ?_ fun _ => ?_
    | refine Keeps.ite ?_ ?_
    | exact Keeps.pure _
    | exact Keeps.throw _
    | exact Keeps.alignTrap _ _ _

theorem Keeps.spCheck (s : State) (e : Int) (m n acc : Nat) : Keeps (spCheck s e m n acc) := by
  unfold Machine.spCheck
  repeat' with_reducible first
    | refine Keeps.bind ?_ fun _ => ?_
    | refine Keeps.ite ?_ ?_
    | exact Keeps.pure _
    | exact Keeps.throw _
    | exact Keeps.alignTrap _ _ _

end Sys2Proof.Machine
end

