-- ==== Sys2Proof/Laws/Encode.lean ====
section
/-! SUPPORT. The equations of the encoder and of the field checks, one for each form. -/
namespace Sys2Proof

@[simp] theorem raw_nop {h} : Instr.raw (.nop h) = some (mk0 h 0x001 0 0 0 0 0) := rfl
@[simp] theorem raw_bra {h i} : Instr.raw (.bra h i) = some (mkI h 0x002 0 0 i) := rfl
@[simp] theorem raw_brx {h a} : Instr.raw (.brx h a) = some (mk1 h 0x003 0 a 0 0 0) := rfl
@[simp] theorem raw_call {h i} : Instr.raw (.call h i) = some (mkI h 0x004 0 0 i) := rfl
@[simp] theorem raw_callx {h a} : Instr.raw (.callx h a) = some (mk1 h 0x005 0 a 0 0 0) := rfl
@[simp] theorem raw_ret {h} : Instr.raw (.ret h) = some (mk0 h 0x006 0 0 0 0 0) := rfl
@[simp] theorem raw_exit {h} : Instr.raw (.exit h) = some (mk0 h 0x007 0 0 0 0 0) := rfl
@[simp] theorem raw_yield {h} : Instr.raw (.yield h) = some (mk0 h 0x008 0 0 0 0 0) := rfl
@[simp] theorem raw_jmark {h j} : Instr.raw (.jmark h j) = some (mk0 h 0x009 (j.zeroExtend 10) 0 0 0 0) := rfl
@[simp] theorem raw_jwait {h j} : Instr.raw (.jwait h j) = some (mk0 h 0x00A (j.zeroExtend 10) 0 0 0 0) := rfl
@[simp] theorem raw_bar {h b} : Instr.raw (.bar h b) = some (mk0 h 0x00B (b.zeroExtend 10) 0 0 0 0) := rfl
@[simp] theorem raw_abar {h b} : Instr.raw (.abar h b) = some (mk0 h 0x00C (b.zeroExtend 10) 0 0 0 0) := rfl
@[simp] theorem raw_chkc {h} : Instr.raw (.chkc h) = some (mk0 h 0x00D 0 0 0 0 0) := rfl
@[simp] theorem raw_bkpt {h} : Instr.raw (.bkpt h) = some (mk0 h 0x00E 0 0 0 0 0) := rfl
@[simp] theorem raw_trap {h c} : Instr.raw (.trap h c) = some (mkI h 0x00F 0 0 (0#1 ++ c)) := rfl
@[simp] theorem raw_trapSvc {h n} : Instr.raw (.trapSvc h n) = some (mkI h 0x00F 0 0 (4#3 ++ n)) := rfl
@[simp] theorem raw_pseti {h d a b c cmp n} : Instr.raw (.pseti h d a b c cmp n) = some (mk3 h 0x080 (d.zeroExtend 10) a b (c.zeroExtend 10) (mCmp cmp n)) := rfl
@[simp] theorem raw_psetf {h d a b c cmp} : Instr.raw (.psetf h d a b c cmp) = some (mk3 h 0x081 (d.zeroExtend 10) a b (c.zeroExtend 10) (mCmp cmp false)) := rfl
@[simp] theorem raw_plop {h d a b lut} : Instr.raw (.plop h d a b lut) = some (mk0 h 0x082 (d.zeroExtend 10) (a.zeroExtend 10) (b.zeroExtend 10) 0 (lut.zeroExtend 7)) := rfl
@[simp] theorem raw_pmov_toV {h d} : Instr.raw (.pmov h (.toV d)) = some (mk0 h 0x083 d 0 0 0 0) := rfl
@[simp] theorem raw_pmov_fromV {h a b} : Instr.raw (.pmov h (.fromV a b)) = some (mk3 h 0x083 0 a b 0 1) := rfl
@[simp] theorem raw_vote_all {h d a} : Instr.raw (.vote h (.all d) a) = some (mk0 h 0x084 (d.zeroExtend 10) (a.zeroExtend 10) 0 0 0) := rfl
@[simp] theorem raw_vote_any {h d a} : Instr.raw (.vote h (.any d) a) = some (mk0 h 0x084 (d.zeroExtend 10) (a.zeroExtend 10) 0 0 1) := rfl
@[simp] theorem raw_vote_ballot {h d a} : Instr.raw (.vote h (.ballot d) a) = some (mk0 h 0x084 (d.zeroExtend 10) (a.zeroExtend 10) 0 0 2) := rfl
@[simp] theorem raw_vote_eq {h d a} : Instr.raw (.vote h (.eq d) a) = some (mk0 h 0x084 (d.zeroExtend 10) (a.zeroExtend 10) 0 0 3) := rfl
@[simp] theorem raw_psetiImm {h d a cmp n i} : Instr.raw (.psetiImm h d a cmp n i) = some (mkI h 0x085 (0#2 ++ BitVec.ofBool n ++ cmp.code ++ d) a i) := rfl
@[simp] theorem raw_kmov {h d a w} : Instr.raw (.kmov h d a w) = some (mkK1 h 0x090 (d.zeroExtend 10) a (mInt false false w)) := rfl
@[simp] theorem raw_kadd {h d a b n sat w} : Instr.raw (.kadd h d a b n sat w) = some (mkK2 h 0x091 (d.zeroExtend 10) a b 0 (mInt n sat w)) := rfl
@[simp] theorem raw_ksub {h d a b n sat w} : Instr.raw (.ksub h d a b n sat w) = some (mkK2 h 0x092 (d.zeroExtend 10) a b 0 (mInt n sat w)) := rfl
@[simp] theorem raw_kmul {h d a b n sat} : Instr.raw (.kmul h d a b n sat) = some (mkK2 h 0x093 (d.zeroExtend 10) a b 0 (mInt n sat false)) := rfl
@[simp] theorem raw_kmin {h d a b n} : Instr.raw (.kmin h d a b n) = some (mkK2 h 0x094 (d.zeroExtend 10) a b 0 (mInt n false false)) := rfl
@[simp] theorem raw_kmax {h d a b n} : Instr.raw (.kmax h d a b n) = some (mkK2 h 0x095 (d.zeroExtend 10) a b 0 (mInt n false false)) := rfl
@[simp] theorem raw_kand {h d a b} : Instr.raw (.kand h d a b) = some (mkK2 h 0x096 (d.zeroExtend 10) a b 0 0) := rfl
@[simp] theorem raw_kor {h d a b} : Instr.raw (.kor h d a b) = some (mkK2 h 0x097 (d.zeroExtend 10) a b 0 0) := rfl
@[simp] theorem raw_kxor {h d a b} : Instr.raw (.kxor h d a b) = some (mkK2 h 0x098 (d.zeroExtend 10) a b 0 0) := rfl
@[simp] theorem raw_kshl {h d a b n sat} : Instr.raw (.kshl h d a b n sat) = some (mkK2 h 0x099 (d.zeroExtend 10) a b 0 (mInt n sat false)) := rfl
@[simp] theorem raw_kshr {h d a b} : Instr.raw (.kshr h d a b) = some (mkK2 h 0x09A (d.zeroExtend 10) a b 0 0) := rfl
@[simp] theorem raw_ksar {h d a b} : Instr.raw (.ksar h d a b) = some (mkK2 h 0x09B (d.zeroExtend 10) a b 0 0) := rfl
@[simp] theorem raw_kcmp {h d a b cmp n} : Instr.raw (.kcmp h d a b cmp n) = some (mkK2 h 0x09C (d.zeroExtend 10) a b 0 (mCmp cmp n)) := rfl
@[simp] theorem raw_ksel {h d a b c} : Instr.raw (.ksel h d a b c) = some (mkK2 h 0x09D (d.zeroExtend 10) a b (c.zeroExtend 10) 0) := rfl
@[simp] theorem raw_kmovImm {h d i} : Instr.raw (.kmovImm h d i) = some (mkI h 0x09E (d.zeroExtend 10) 0 i) := rfl
@[simp] theorem raw_kaddImm {h d a i} : Instr.raw (.kaddImm h d a i) = some (mkI h 0x09F (d.zeroExtend 10) (a.zeroExtend 10) i) := rfl
@[simp] theorem raw_mov {h d a w} : Instr.raw (.mov h d a w) = some (mk1 h 0x100 d a 0 0 (mInt false false w)) := rfl
@[simp] theorem raw_sel {h d a b c} : Instr.raw (.sel h d a b c) = some (mk3 h 0x101 d a b (c.zeroExtend 10) 0) := rfl
@[simp] theorem raw_iadd {h d a b n sat} : Instr.raw (.iadd h d a b n sat) = some (mk3 h 0x102 d a b 0 (mInt n sat false)) := rfl
@[simp] theorem raw_isub {h d a b n sat} : Instr.raw (.isub h d a b n sat) = some (mk3 h 0x103 d a b 0 (mInt n sat false)) := rfl
@[simp] theorem raw_imul {h d a b n sat} : Instr.raw (.imul h d a b n sat) = some (mk3 h 0x104 d a b 0 (mInt n sat false)) := rfl
@[simp] theorem raw_imulh {h d a b n} : Instr.raw (.imulh h d a b n) = some (mk3 h 0x105 d a b 0 (mInt n false false)) := rfl
@[simp] theorem raw_imad {h d a b c n sat} : Instr.raw (.imad h d a b c n sat) = some (mk3 h 0x106 d a b c (mInt n sat false)) := rfl
@[simp] theorem raw_imadw {h d a b c n sat} : Instr.raw (.imadw h d a b c n sat) = some (mk3 h 0x107 d a b c (mInt n sat false)) := rfl
@[simp] theorem raw_imin {h d a b n} : Instr.raw (.imin h d a b n) = some (mk3 h 0x108 d a b 0 (mInt n false false)) := rfl
@[simp] theorem raw_imax {h d a b n} : Instr.raw (.imax h d a b n) = some (mk3 h 0x109 d a b 0 (mInt n false false)) := rfl
@[simp] theorem raw_iabs {h d a sat} : Instr.raw (.iabs h d a sat) = some (mk1 h 0x10A d a 0 0 (mInt false sat false)) := rfl
@[simp] theorem raw_ineg {h d a sat} : Instr.raw (.ineg h d a sat) = some (mk1 h 0x10B d a 0 0 (mInt false sat false)) := rfl
@[simp] theorem raw_iand {h d a b} : Instr.raw (.iand h d a b) = some (mk3 h 0x10C d a b 0 0) := rfl
@[simp] theorem raw_ior {h d a b} : Instr.raw (.ior h d a b) = some (mk3 h 0x10D d a b 0 0) := rfl
@[simp] theorem raw_ixor {h d a b} : Instr.raw (.ixor h d a b) = some (mk3 h 0x10E d a b 0 0) := rfl
@[simp] theorem raw_inot {h d a} : Instr.raw (.inot h d a) = some (mk1 h 0x10F d a 0 0 0) := rfl
@[simp] theorem raw_ishl {h d a b n sat} : Instr.raw (.ishl h d a b n sat) = some (mk3 h 0x110 d a b 0 (mInt n sat false)) := rfl
@[simp] theorem raw_ishr {h d a b} : Instr.raw (.ishr h d a b) = some (mk3 h 0x111 d a b 0 0) := rfl
@[simp] theorem raw_isar {h d a b} : Instr.raw (.isar h d a b) = some (mk3 h 0x112 d a b 0 0) := rfl
@[simp] theorem raw_irot {h d a b} : Instr.raw (.irot h d a b) = some (mk3 h 0x113 d a b 0 0) := rfl
@[simp] theorem raw_popc {h d a} : Instr.raw (.popc h d a) = some (mk1 h 0x114 d a 0 0 0) := rfl
@[simp] theorem raw_clz {h d a} : Instr.raw (.clz h d a) = some (mk1 h 0x115 d a 0 0 0) := rfl
@[simp] theorem raw_brev {h d a} : Instr.raw (.brev h d a) = some (mk1 h 0x116 d a 0 0 0) := rfl
@[simp] theorem raw_bfe {h d a b n} : Instr.raw (.bfe h d a b n) = some (mk3 h 0x117 d a b 0 (mInt n false false)) := rfl
@[simp] theorem raw_bfi {h d a b c} : Instr.raw (.bfi h d a b c) = some (mk3 h 0x118 d a b c 0) := rfl
@[simp] theorem raw_iadd64 {h d a b n sat} : Instr.raw (.iadd64 h d a b n sat) = some (mk3 h 0x119 d a b 0 (mInt n sat false)) := rfl
@[simp] theorem raw_isub64 {h d a b n sat} : Instr.raw (.isub64 h d a b n sat) = some (mk3 h 0x11A d a b 0 (mInt n sat false)) := rfl
@[simp] theorem raw_iclamp {h d a b c n} : Instr.raw (.iclamp h d a b c n) = some (mk3 h 0x11B d a b c (mInt n false false)) := rfl
@[simp] theorem raw_padd16 {h d a b sat sub} : Instr.raw (.padd16 h d a b sat sub) = some (mk3 h 0x11C d a b 0 (mInt false sat sub)) := rfl
@[simp] theorem raw_pmac16 {h d a b c} : Instr.raw (.pmac16 h d a b c) = some (mk3 h 0x11D d a b c 0) := rfl
@[simp] theorem raw_pshr {h d a b hi} : Instr.raw (.pshr h d a b hi) = some (mk3 h 0x11E d a b 0 (mInt false false hi)) := rfl
@[simp] theorem raw_hash {h d a b} : Instr.raw (.hash h d a b) = some (mk3 h 0x11F d a b 0 0) := rfl
@[simp] theorem raw_movImm {h d i} : Instr.raw (.movImm h d i) = some (mkI h 0x140 d 0 i) := rfl
@[simp] theorem raw_iaddImm {h d a i} : Instr.raw (.iaddImm h d a i) = some (mkI h 0x141 d a i) := rfl
@[simp] theorem raw_imulImm {h d a i} : Instr.raw (.imulImm h d a i) = some (mkI h 0x142 d a i) := rfl
@[simp] theorem raw_iandImm {h d a i} : Instr.raw (.iandImm h d a i) = some (mkI h 0x143 d a i) := rfl
@[simp] theorem raw_iorImm {h d a i} : Instr.raw (.iorImm h d a i) = some (mkI h 0x144 d a i) := rfl
@[simp] theorem raw_ixorImm {h d a i} : Instr.raw (.ixorImm h d a i) = some (mkI h 0x145 d a i) := rfl
@[simp] theorem raw_ishlImm {h d a i} : Instr.raw (.ishlImm h d a i) = some (mkI h 0x146 d a i) := rfl
@[simp] theorem raw_ishrImm {h d a i} : Instr.raw (.ishrImm h d a i) = some (mkI h 0x147 d a i) := rfl
@[simp] theorem raw_isarImm {h d a i} : Instr.raw (.isarImm h d a i) = some (mkI h 0x148 d a i) := rfl
@[simp] theorem raw_lxch {h d a b seg mode} : Instr.raw (.lxch h d a b seg mode) = some (mk3 h 0x180 d a b (seg.zeroExtend 10) (mode.code.zeroExtend 5)) := rfl
@[simp] theorem raw_slide {h d a b c} : Instr.raw (.slide h d a b c) = some (mk3 h 0x181 d a b (c.zeroExtend 10) 0) := rfl
@[simp] theorem raw_red {h d a seg op n sat} : Instr.raw (.red h d a seg op n sat) = some (mk1 h 0x182 d a 0 (seg.zeroExtend 10) (mRed op n sat)) := rfl
@[simp] theorem raw_scan {h d a seg ex op n sat} : Instr.raw (.scan h d a seg ex op n sat) = some (mk1 h 0x183 d a 0 (0#6 ++ BitVec.ofBool ex ++ seg) (mRed op n sat)) := rfl
@[simp] theorem raw_bcast {h d a b} : Instr.raw (.bcast h d a b) = some (mk3 h 0x184 d a b 0 0) := rfl
@[simp] theorem raw_krdl {h d a b} : Instr.raw (.krdl h d a b) = some (mkB h 0x185 (d.zeroExtend 10) a b 0 0) := rfl
@[simp] theorem raw_fadd {h d a b rm sat} : Instr.raw (.fadd h d a b rm sat) = some (mk3 h 0x200 d a b 0 (mF rm sat false)) := rfl
@[simp] theorem raw_fsub {h d a b rm sat} : Instr.raw (.fsub h d a b rm sat) = some (mk3 h 0x201 d a b 0 (mF rm sat false)) := rfl
@[simp] theorem raw_fmul {h d a b rm sat} : Instr.raw (.fmul h d a b rm sat) = some (mk3 h 0x202 d a b 0 (mF rm sat false)) := rfl
@[simp] theorem raw_ffma {h d a b c rm sat} : Instr.raw (.ffma h d a b c rm sat) = some (mk3 h 0x203 d a b c (mF rm sat false)) := rfl
@[simp] theorem raw_fdiv {h d a b rm sat} : Instr.raw (.fdiv h d a b rm sat) = some (mk3 h 0x204 d a b 0 (mF rm sat false)) := rfl
@[simp] theorem raw_fmin {h d a b} : Instr.raw (.fmin h d a b) = some (mk3 h 0x205 d a b 0 0) := rfl
@[simp] theorem raw_fmax {h d a b} : Instr.raw (.fmax h d a b) = some (mk3 h 0x206 d a b 0 0) := rfl
@[simp] theorem raw_fabs {h d a} : Instr.raw (.fabs h d a) = some (mk1 h 0x207 d a 0 0 0) := rfl
@[simp] theorem raw_fneg {h d a} : Instr.raw (.fneg h d a) = some (mk1 h 0x208 d a 0 0 0) := rfl
@[simp] theorem raw_frnd {h d a rm} : Instr.raw (.frnd h d a rm) = some (mk1 h 0x209 d a 0 0 (mF rm false false)) := rfl
@[simp] theorem raw_fscale {h d a b rm sat} : Instr.raw (.fscale h d a b rm sat) = some (mk3 h 0x20A d a b 0 (mF rm sat false)) := rfl
@[simp] theorem raw_fclass {h d a} : Instr.raw (.fclass h d a) = some (mk1 h 0x20B d a 0 0 0) := rfl
@[simp] theorem raw_frcp {h d a rm sat} : Instr.raw (.frcp h d a rm sat) = some (mk1 h 0x20C d a 0 0 (mF rm sat false)) := rfl
@[simp] theorem raw_frsq {h d a rm sat} : Instr.raw (.frsq h d a rm sat) = some (mk1 h 0x20D d a 0 0 (mF rm sat false)) := rfl
@[simp] theorem raw_fsqrt {h d a rm sat} : Instr.raw (.fsqrt h d a rm sat) = some (mk1 h 0x20E d a 0 0 (mF rm sat false)) := rfl
@[simp] theorem raw_fexp2 {h d a rm sat} : Instr.raw (.fexp2 h d a rm sat) = some (mk1 h 0x20F d a 0 0 (mF rm sat false)) := rfl
@[simp] theorem raw_flog2 {h d a rm sat} : Instr.raw (.flog2 h d a rm sat) = some (mk1 h 0x210 d a 0 0 (mF rm sat false)) := rfl
@[simp] theorem raw_fsin {h d a rm sat} : Instr.raw (.fsin h d a rm sat) = some (mk1 h 0x211 d a 0 0 (mF rm sat false)) := rfl
@[simp] theorem raw_fcos {h d a rm sat} : Instr.raw (.fcos h d a rm sat) = some (mk1 h 0x212 d a 0 0 (mF rm sat false)) := rfl
@[simp] theorem raw_hadd2 {h d a b rm sat f} : Instr.raw (.hadd2 h d a b rm sat f) = some (mk3 h 0x213 d a b 0 (mF rm sat f)) := rfl
@[simp] theorem raw_hsub2 {h d a b rm sat f} : Instr.raw (.hsub2 h d a b rm sat f) = some (mk3 h 0x214 d a b 0 (mF rm sat f)) := rfl
@[simp] theorem raw_hmul2 {h d a b rm sat f} : Instr.raw (.hmul2 h d a b rm sat f) = some (mk3 h 0x215 d a b 0 (mF rm sat f)) := rfl
@[simp] theorem raw_hfma2 {h d a b c rm sat f} : Instr.raw (.hfma2 h d a b c rm sat f) = some (mk3 h 0x216 d a b c (mF rm sat f)) := rfl
@[simp] theorem raw_hmin2 {h d a b f} : Instr.raw (.hmin2 h d a b f) = some (mk3 h 0x217 d a b 0 (mF .rn false f)) := rfl
@[simp] theorem raw_hmax2 {h d a b f} : Instr.raw (.hmax2 h d a b f) = some (mk3 h 0x218 d a b 0 (mF .rn false f)) := rfl
@[simp] theorem raw_hdot2 {h d a b c rm sat f} : Instr.raw (.hdot2 h d a b c rm sat f) = some (mk3 h 0x219 d a b c (mF rm sat f)) := rfl
@[simp] theorem raw_cvt {h d a df sf pos rm sat} : Instr.raw (.cvt h d a df sf pos rm sat) =  some (mk1 h 0x21A d a 0 (cCvt df sf (pos.truncate 2)) (mF rm sat (pos.getLsbD 2))) := rfl
@[simp] theorem raw_cvt2 {h d a b df sf pos rm sat} : Instr.raw (.cvt2 h d a b df sf pos rm sat) = some (mk3 h 0x21B d a b (cCvt df sf pos) (mF rm sat false)) := rfl
@[simp] theorem raw_ld {h sz d adr ann pf} : Instr.raw (.ld h sz d adr ann pf) = some (mkM h (0x300 + sz.code) d adr (annCode ann) pf) := rfl
@[simp] theorem raw_st {h sz d adr ann} : Instr.raw (.st h sz d adr ann) = some (mkM h (0x308 + sz.code) d adr (annCode ann) false) := rfl
@[simp] theorem raw_lds {h sz d adr ann} : Instr.raw (.lds h sz d adr ann) = some (mkM h (0x310 + sz.code) d adr (annCode ann) false) := rfl
@[simp] theorem raw_sts {h sz d adr ann} : Instr.raw (.sts h sz d adr ann) = some (mkM h (0x318 + sz.code) d adr (annCode ann) false) := rfl
@[simp] theorem raw_ldk {h w d adr ann} : Instr.raw (.ldk h w d adr ann) = some (mkM h (if w then 0x321 else 0x320) (d.zeroExtend 10) adr (annCode ann) false) := rfl
@[simp] theorem raw_pref {h l2 adr} : Instr.raw (.pref h l2 adr) = some (mkM h 0x322 (if l2 then 1 else 0) adr 0 false) := rfl
@[simp] theorem raw_cctl_wb {h a} : Instr.raw (.cctl h (.wb a)) = some (mkM h 0x323 0 a 0 false) := rfl
@[simp] theorem raw_cctl_inv {h a} : Instr.raw (.cctl h (.inv a)) = some (mkM h 0x323 1 a 0 false) := rfl
@[simp] theorem raw_cctl_wbinv {h a} : Instr.raw (.cctl h (.wbinv a)) = some (mkM h 0x323 2 a 0 false) := rfl
@[simp] theorem raw_cctl_iinv {h a} : Instr.raw (.cctl h (.iinv a)) = some (mkM h 0x323 3 a 0 false) := rfl
@[simp] theorem raw_cctl_wball {h} : Instr.raw (.cctl h .wball) = some (mk0 h 0x323 4 0 0 0 0) := rfl
@[simp] theorem raw_cctl_iinvall {h} : Instr.raw (.cctl h .iinvall) = some (mk0 h 0x323 5 0 0 0 0) := rfl
@[simp] theorem raw_fence {h s} : Instr.raw (.fence h s) = some (mk0 h 0x324 0 0 0 0 (s.code.zeroExtend 7)) := rfl
@[simp] theorem raw_qfence {h mask s} : Instr.raw (.qfence h mask s) = some (mk0 h 0x325 0 0 0 (mask.zeroExtend 10) (s.code.zeroExtend 7)) := rfl
@[simp] theorem raw_atom {h op ty d a b c o s} : Instr.raw (.atom h op ty d a b c o s) = some (mk3 h (0x340 + 4 * op.code + ty.code) d a b c (mAtom o s.code)) := rfl
@[simp] theorem raw_atomFadd {h d a b o s} : Instr.raw (.atomFadd h d a b o s) = some (mk3 h 0x360 d a b 0 (mAtom o s.code)) := rfl
@[simp] theorem raw_atoms {h op n d a b c o} : Instr.raw (.atoms h op n d a b c o) = some (mk3 h (0x368 + 2 * op.code + n.toNat) d a b c (mAtom o 0)) := rfl
@[simp] theorem raw_atomsFadd {h d a b o} : Instr.raw (.atomsFadd h d a b o) = some (mk3 h 0x378 d a b 0 (mAtom o 0)) := rfl
@[simp] theorem raw_shape {h sh a b fmt} : Instr.raw (.shape h sh a b fmt) = some (mkK2 h 0x380 (sh.zeroExtend 10) a b 0 fmt) := rfl
@[simp] theorem raw_shext {h sh a} : Instr.raw (.shext h sh a) = some (mkK1 h 0x381 (sh.zeroExtend 10) a 0) := rfl
@[simp] theorem raw_shq {h d sh} : Instr.raw (.shq h d sh) = some (mk0 h 0x382 (d.zeroExtend 10) (sh.zeroExtend 10) 0 0 0) := rfl
@[simp] theorem raw_wbld {h a b slot ch} : Instr.raw (.wbld h a b slot ch) = some (mkK2 h 0x383 0 a b (slot.zeroExtend 10) (ch.zeroExtend 5)) := rfl
@[simp] theorem raw_mma {h f a b sh pk twin z} : Instr.raw (.mma h f a b sh pk twin z) =  some (mkK2 h 0x384 (f.zeroExtend 10) a b (0#1 ++ pk ++ sh) (BitVec.ofBool twin ++ BitVec.ofBool z ++ 0#3)) := rfl
@[simp] theorem raw_accrd {h d f b w4} : Instr.raw (.accrd h d f b w4) = some (mkB h 0x385 d (f.zeroExtend 10) b 0 (mInt w4 false false)) := rfl
@[simp] theorem raw_accwr {h f a b} : Instr.raw (.accwr h f a b) = some (mk3 h 0x386 (f.zeroExtend 10) a b 0 0) := rfl
@[simp] theorem raw_accclr {h f} : Instr.raw (.accclr h f) = some (mk0 h 0x387 (f.zeroExtend 10) 0 0 0 0) := rfl
@[simp] theorem raw_wmark {h d f} : Instr.raw (.wmark h d f) = some (mk0 h 0x388 (d.zeroExtend 10) (f.zeroExtend 10) 0 0 0) := rfl
@[simp] theorem raw_drnld {h n} : Instr.raw (.drnld h n) = some (mk0 h 0x389 (n.zeroExtend 10) 0 0 0 0) := rfl
@[simp] theorem raw_copy {h d a b ch} : Instr.raw (.copy h d a b ch) = some (mkK2 h 0x400 (d.zeroExtend 10) (.k a) b 0 (ch.zeroExtend 5)) := rfl
@[simp] theorem raw_rdwpt_k {h d ch} : Instr.raw (.rdwpt h (.k d) ch) = some (mk0 h 0x401 (d.zeroExtend 10) 0 0 0 (ch.zeroExtend 7)) := rfl
@[simp] theorem raw_rdwpt_v {h d ch} : Instr.raw (.rdwpt h (.v d) ch) = some (mk0 h 0x401 d 0 0 0 (1#5 ++ ch)) := rfl
@[simp] theorem raw_ringp_acq {h ring d} : Instr.raw (.ringp h ring (.acq d)) = some (mk0 h 0x402 (d.zeroExtend 10) (ring.zeroExtend 10) 0 0 0) := rfl
@[simp] theorem raw_ringp_done {h ring} : Instr.raw (.ringp h ring .done) = some (mk0 h 0x402 0 (ring.zeroExtend 10) 0 0 1) := rfl
@[simp] theorem raw_ringc_acq {h ring d} : Instr.raw (.ringc h ring (.acq d)) = some (mk0 h 0x403 (d.zeroExtend 10) (ring.zeroExtend 10) 0 0 0) := rfl
@[simp] theorem raw_ringc_done {h ring} : Instr.raw (.ringc h ring .done) = some (mk0 h 0x403 0 (ring.zeroExtend 10) 0 0 1) := rfl
@[simp] theorem raw_regacq {h a} : Instr.raw (.regacq h a) = some (mkK1 h 0x404 0 a 0) := rfl
@[simp] theorem raw_regrel {h a} : Instr.raw (.regrel h a) = some (mkK1 h 0x405 0 a 0) := rfl
@[simp] theorem raw_spawn {h a b c} : Instr.raw (.spawn h a b c) = some (mk3 h 0x480 0 a b c 0) := rfl
@[simp] theorem raw_enq_own {h a} : Instr.raw (.enq h a .own) = some (mk1 h 0x481 0 a 0 0 0) := rfl
@[simp] theorem raw_enq_core {h a b} : Instr.raw (.enq h a (.core b)) = some (mk3 h 0x481 0 a b 0 1) := rfl
@[simp] theorem raw_enq_hash {h a} : Instr.raw (.enq h a .hash) = some (mk1 h 0x481 0 a 0 0 2) := rfl
@[simp] theorem raw_decr {h a b} : Instr.raw (.decr h a b) = some (mk3 h 0x482 0 a b 0 0) := rfl
@[simp] theorem raw_waitd {h a} : Instr.raw (.waitd h a) = some (mk1 h 0x483 0 a 0 0 0) := rfl
@[simp] theorem raw_leafq {h d a b sp} : Instr.raw (.leafq h d a b sp) = some (mk3 h 0x484 d a b 0 (mInt sp false false)) := rfl
@[simp] theorem raw_fres {h a b} : Instr.raw (.fres h a b) = some (mk3 h 0x485 0 a b 0 0) := rfl
@[simp] theorem raw_waitf {h d a c} : Instr.raw (.waitf h d a c) = some (mk1 h 0x486 d a 0 c 0) := rfl
@[simp] theorem raw_testf {h d a} : Instr.raw (.testf h d a) = some (mk1 h 0x487 d a 0 0 0) := rfl
@[simp] theorem raw_cqry {h d a b} : Instr.raw (.cqry h d a b) = some (mk3 h 0x488 d a b 0 0) := rfl
@[simp] theorem raw_dstep {h d a} : Instr.raw (.dstep h d a) = some (mk1 h 0x489 d a 0 0 0) := rfl
@[simp] theorem raw_poola {h d a c} : Instr.raw (.poola h d a c) = some (mk1 h 0x48A d a 0 (c.zeroExtend 10) 0) := rfl
@[simp] theorem raw_poolf {h a b} : Instr.raw (.poolf h a b) = some (mk3 h 0x48B 0 a b 0 0) := rfl
@[simp] theorem raw_poolft {h a b} : Instr.raw (.poolft h a b) = some (mk3 h 0x48C 0 a b 0 0) := rfl
@[simp] theorem raw_bestupd {h a b c} : Instr.raw (.bestupd h a b c) = some (mk3 h 0x48D 0 a b c 0) := rfl
@[simp] theorem raw_dlnset {h a} : Instr.raw (.dlnset h a) = some (mk1 h 0x48E 0 a 0 0 0) := rfl
@[simp] theorem raw_dlnrd {h d} : Instr.raw (.dlnrd h d) = some (mk0 h 0x48F (d.zeroExtend 10) 0 0 0 0) := rfl
@[simp] theorem raw_cancel {h a} : Instr.raw (.cancel h a) = some (mk1 h 0x490 0 a 0 0 0) := rfl
@[simp] theorem raw_movs {h sreg a} : Instr.raw (.movs h sreg a) = some (mk1 h 0x500 0 a sreg 0 0) := rfl
@[simp] theorem raw_movsr_v {h d sreg} : Instr.raw (.movsr h (.v d) sreg) = some (mk0 h 0x501 d 0 sreg 0 0) := rfl
@[simp] theorem raw_movsr_k {h d sreg} : Instr.raw (.movsr h (.k d) sreg) = some (mk0 h 0x501 (d.zeroExtend 10) 0 sreg 0 1) := rfl
@[simp] theorem raw_movsr_q {h d sreg} : Instr.raw (.movsr h (.q d) sreg) = some (mk0 h 0x501 (d.zeroExtend 10) 0 sreg 0 2) := rfl
@[simp] theorem raw_movq {h d adr} : Instr.raw (.movq h d adr) = some (mkM h 0x502 (d.zeroExtend 10) adr 0 false) := rfl
@[simp] theorem raw_tret {h} : Instr.raw (.tret h) = some (mk0 h 0x503 0 0 0 0 0) := rfl
@[simp] theorem raw_laneend {h} : Instr.raw (.laneend h) = some (mk0 h 0x504 0 0 0 0 0) := rfl
@[simp] theorem raw_pkrd {h d a b} : Instr.raw (.pkrd h d a b) = some (mk3 h 0x505 d a b 0 0) := rfl
@[simp] theorem raw_pkwr {h a b c} : Instr.raw (.pkwr h a b c) = some (mk3 h 0x506 0 a b c 0) := rfl

@[simp] theorem wf_brx {x1 a} : Instr.wf (.brx x1 a) = (a.okPair) := rfl
@[simp] theorem wf_callx {x1 a} : Instr.wf (.callx x1 a) = (a.okPair) := rfl
@[simp] theorem wf_pseti {x1 x2 a b x3 cmp x4} : Instr.wf (.pseti x1 x2 a b x3 cmp x4) = (ok2 a b && cmp.int) := rfl
@[simp] theorem wf_psetiImm {x1 x2 x3 cmp x4 x5} : Instr.wf (.psetiImm x1 x2 x3 cmp x4 x5) = (cmp.int) := rfl
@[simp] theorem wf_psetf {x1 x2 a b x3 x4} : Instr.wf (.psetf x1 x2 a b x3 x4) = (ok2 a b) := rfl
@[simp] theorem wf_pmov_fromV {x1 a b} : Instr.wf (.pmov x1 (.fromV a b)) = (ok2 a b) := rfl
@[simp] theorem wf_vote_ballot {x1 d x2} : Instr.wf (.vote x1 (.ballot d) x2) = (d.toNat % 4 == 0) := rfl
@[simp] theorem wf_kmov {x1 d a w} : Instr.wf (.kmov x1 d a w) = (a.okW w && (!w || d.even)) := rfl
@[simp] theorem wf_kadd {x1 d a b x2 x3 w} : Instr.wf (.kadd x1 d a b x2 x3 w) = (a.okW w && b.okW w && klit1 a b && (!w || d.even)) := rfl
@[simp] theorem wf_ksub {x1 d a b x2 x3 w} : Instr.wf (.ksub x1 d a b x2 x3 w) = (a.okW w && b.okW w && klit1 a b && (!w || d.even)) := rfl
@[simp] theorem wf_kmul {x1 x2 a b x3 x4} : Instr.wf (.kmul x1 x2 a b x3 x4) = (kok2 a b) := rfl
@[simp] theorem wf_kmin {x1 x2 a b x3} : Instr.wf (.kmin x1 x2 a b x3) = (kok2 a b) := rfl
@[simp] theorem wf_kmax {x1 x2 a b x3} : Instr.wf (.kmax x1 x2 a b x3) = (kok2 a b) := rfl
@[simp] theorem wf_kand {x1 x2 a b} : Instr.wf (.kand x1 x2 a b) = (kok2 a b) := rfl
@[simp] theorem wf_kor {x1 x2 a b} : Instr.wf (.kor x1 x2 a b) = (kok2 a b) := rfl
@[simp] theorem wf_kxor {x1 x2 a b} : Instr.wf (.kxor x1 x2 a b) = (kok2 a b) := rfl
@[simp] theorem wf_kshl {x1 x2 a b x3 x4} : Instr.wf (.kshl x1 x2 a b x3 x4) = (kok2 a b) := rfl
@[simp] theorem wf_kshr {x1 x2 a b} : Instr.wf (.kshr x1 x2 a b) = (kok2 a b) := rfl
@[simp] theorem wf_ksar {x1 x2 a b} : Instr.wf (.ksar x1 x2 a b) = (kok2 a b) := rfl
@[simp] theorem wf_kcmp {x1 x2 a b cmp x3} : Instr.wf (.kcmp x1 x2 a b cmp x3) = (kok2 a b && cmp.int) := rfl
@[simp] theorem wf_ksel {x1 x2 a b x3} : Instr.wf (.ksel x1 x2 a b x3) = (kok2 a b) := rfl
@[simp] theorem wf_mov {x1 d a w} : Instr.wf (.mov x1 d a w) = (a.okW w && (!w || d.even)) := rfl
@[simp] theorem wf_sel {x1 x2 a b x3} : Instr.wf (.sel x1 x2 a b x3) = (ok2 a b) := rfl
@[simp] theorem wf_iadd {x1 x2 a b x3 x4} : Instr.wf (.iadd x1 x2 a b x3 x4) = (ok2 a b) := rfl
@[simp] theorem wf_isub {x1 x2 a b x3 x4} : Instr.wf (.isub x1 x2 a b x3 x4) = (ok2 a b) := rfl
@[simp] theorem wf_imul {x1 x2 a b x3 x4} : Instr.wf (.imul x1 x2 a b x3 x4) = (ok2 a b) := rfl
@[simp] theorem wf_imulh {x1 x2 a b x3} : Instr.wf (.imulh x1 x2 a b x3) = (ok2 a b) := rfl
@[simp] theorem wf_imad {x1 x2 a b x3 x4 x5} : Instr.wf (.imad x1 x2 a b x3 x4 x5) = (ok2 a b) := rfl
@[simp] theorem wf_imadw {x1 d a b c x2 x3} : Instr.wf (.imadw x1 d a b c x2 x3) = (ok2 a b && d.even && c.even) := rfl
@[simp] theorem wf_imin {x1 x2 a b x3} : Instr.wf (.imin x1 x2 a b x3) = (ok2 a b) := rfl
@[simp] theorem wf_imax {x1 x2 a b x3} : Instr.wf (.imax x1 x2 a b x3) = (ok2 a b) := rfl
@[simp] theorem wf_iabs {x1 x2 a x3} : Instr.wf (.iabs x1 x2 a x3) = (a.ok32) := rfl
@[simp] theorem wf_ineg {x1 x2 a x3} : Instr.wf (.ineg x1 x2 a x3) = (a.ok32) := rfl
@[simp] theorem wf_iand {x1 x2 a b} : Instr.wf (.iand x1 x2 a b) = (ok2 a b) := rfl
@[simp] theorem wf_ior {x1 x2 a b} : Instr.wf (.ior x1 x2 a b) = (ok2 a b) := rfl
@[simp] theorem wf_ixor {x1 x2 a b} : Instr.wf (.ixor x1 x2 a b) = (ok2 a b) := rfl
@[simp] theorem wf_inot {x1 x2 a} : Instr.wf (.inot x1 x2 a) = (a.ok32) := rfl
@[simp] theorem wf_ishl {x1 x2 a b x3 x4} : Instr.wf (.ishl x1 x2 a b x3 x4) = (ok2 a b) := rfl
@[simp] theorem wf_ishr {x1 x2 a b} : Instr.wf (.ishr x1 x2 a b) = (ok2 a b) := rfl
@[simp] theorem wf_isar {x1 x2 a b} : Instr.wf (.isar x1 x2 a b) = (ok2 a b) := rfl
@[simp] theorem wf_irot {x1 x2 a b} : Instr.wf (.irot x1 x2 a b) = (ok2 a b) := rfl
@[simp] theorem wf_popc {x1 x2 a} : Instr.wf (.popc x1 x2 a) = (a.ok32) := rfl
@[simp] theorem wf_clz {x1 x2 a} : Instr.wf (.clz x1 x2 a) = (a.ok32) := rfl
@[simp] theorem wf_brev {x1 x2 a} : Instr.wf (.brev x1 x2 a) = (a.ok32) := rfl
@[simp] theorem wf_bfe {x1 x2 a b x3} : Instr.wf (.bfe x1 x2 a b x3) = (ok2 a b) := rfl
@[simp] theorem wf_bfi {x1 x2 a b x3} : Instr.wf (.bfi x1 x2 a b x3) = (ok2 a b) := rfl
@[simp] theorem wf_iadd64 {x1 d a b x2 x3} : Instr.wf (.iadd64 x1 d a b x2 x3) = (a.okPair && b.okPair && lit1 a b && d.even) := rfl
@[simp] theorem wf_isub64 {x1 d a b x2 x3} : Instr.wf (.isub64 x1 d a b x2 x3) = (a.okPair && b.okPair && lit1 a b && d.even) := rfl
@[simp] theorem wf_iclamp {x1 x2 a b x3 x4} : Instr.wf (.iclamp x1 x2 a b x3 x4) = (ok2 a b) := rfl
@[simp] theorem wf_padd16 {x1 x2 a b x3 x4} : Instr.wf (.padd16 x1 x2 a b x3 x4) = (ok2 a b) := rfl
@[simp] theorem wf_pmac16 {x1 x2 a b x3} : Instr.wf (.pmac16 x1 x2 a b x3) = (ok2 a b) := rfl
@[simp] theorem wf_pshr {x1 x2 a b x3} : Instr.wf (.pshr x1 x2 a b x3) = (ok2 a b) := rfl
@[simp] theorem wf_hash {x1 x2 a b} : Instr.wf (.hash x1 x2 a b) = (ok2 a b) := rfl
@[simp] theorem wf_lxch {x1 x2 a b x3 x4} : Instr.wf (.lxch x1 x2 a b x3 x4) = (ok2 a b) := rfl
@[simp] theorem wf_slide {x1 x2 a b x3} : Instr.wf (.slide x1 x2 a b x3) = (ok2 a b) := rfl
@[simp] theorem wf_red {x1 x2 a x3 op n sat} : Instr.wf (.red x1 x2 a x3 op n sat) = (a.ok32 && redOk op n sat) := rfl
@[simp] theorem wf_scan {x1 x2 a x3 x4 op n sat} : Instr.wf (.scan x1 x2 a x3 x4 op n sat) = (a.ok32 && redOk op n sat) := rfl
@[simp] theorem wf_bcast {x1 x2 a b} : Instr.wf (.bcast x1 x2 a b) = (ok2 a b) := rfl
@[simp] theorem wf_krdl {x1 x2 x3 b} : Instr.wf (.krdl x1 x2 x3 b) = (b.ok32) := rfl
@[simp] theorem wf_fadd {x1 x2 a b x3 x4} : Instr.wf (.fadd x1 x2 a b x3 x4) = (ok2 a b) := rfl
@[simp] theorem wf_fsub {x1 x2 a b x3 x4} : Instr.wf (.fsub x1 x2 a b x3 x4) = (ok2 a b) := rfl
@[simp] theorem wf_fmul {x1 x2 a b x3 x4} : Instr.wf (.fmul x1 x2 a b x3 x4) = (ok2 a b) := rfl
@[simp] theorem wf_ffma {x1 x2 a b x3 x4 x5} : Instr.wf (.ffma x1 x2 a b x3 x4 x5) = (ok2 a b) := rfl
@[simp] theorem wf_fdiv {x1 x2 a b x3 x4} : Instr.wf (.fdiv x1 x2 a b x3 x4) = (ok2 a b) := rfl
@[simp] theorem wf_fmin {x1 x2 a b} : Instr.wf (.fmin x1 x2 a b) = (ok2 a b) := rfl
@[simp] theorem wf_fmax {x1 x2 a b} : Instr.wf (.fmax x1 x2 a b) = (ok2 a b) := rfl
@[simp] theorem wf_fabs {x1 x2 a} : Instr.wf (.fabs x1 x2 a) = (a.ok32) := rfl
@[simp] theorem wf_fneg {x1 x2 a} : Instr.wf (.fneg x1 x2 a) = (a.ok32) := rfl
@[simp] theorem wf_frnd {x1 x2 a x3} : Instr.wf (.frnd x1 x2 a x3) = (a.ok32) := rfl
@[simp] theorem wf_fscale {x1 x2 a b x3 x4} : Instr.wf (.fscale x1 x2 a b x3 x4) = (ok2 a b) := rfl
@[simp] theorem wf_fclass {x1 x2 a} : Instr.wf (.fclass x1 x2 a) = (a.ok32) := rfl
@[simp] theorem wf_frcp {x1 x2 a x3 x4} : Instr.wf (.frcp x1 x2 a x3 x4) = (a.ok32) := rfl
@[simp] theorem wf_frsq {x1 x2 a x3 x4} : Instr.wf (.frsq x1 x2 a x3 x4) = (a.ok32) := rfl
@[simp] theorem wf_fsqrt {x1 x2 a x3 x4} : Instr.wf (.fsqrt x1 x2 a x3 x4) = (a.ok32) := rfl
@[simp] theorem wf_fexp2 {x1 x2 a x3 x4} : Instr.wf (.fexp2 x1 x2 a x3 x4) = (a.ok32) := rfl
@[simp] theorem wf_flog2 {x1 x2 a x3 x4} : Instr.wf (.flog2 x1 x2 a x3 x4) = (a.ok32) := rfl
@[simp] theorem wf_fsin {x1 x2 a x3 x4} : Instr.wf (.fsin x1 x2 a x3 x4) = (a.ok32) := rfl
@[simp] theorem wf_fcos {x1 x2 a x3 x4} : Instr.wf (.fcos x1 x2 a x3 x4) = (a.ok32) := rfl
@[simp] theorem wf_hadd2 {x1 x2 a b x3 x4 x5} : Instr.wf (.hadd2 x1 x2 a b x3 x4 x5) = (ok2 a b) := rfl
@[simp] theorem wf_hsub2 {x1 x2 a b x3 x4 x5} : Instr.wf (.hsub2 x1 x2 a b x3 x4 x5) = (ok2 a b) := rfl
@[simp] theorem wf_hmul2 {x1 x2 a b x3 x4 x5} : Instr.wf (.hmul2 x1 x2 a b x3 x4 x5) = (ok2 a b) := rfl
@[simp] theorem wf_hfma2 {x1 x2 a b x3 x4 x5 x6} : Instr.wf (.hfma2 x1 x2 a b x3 x4 x5 x6) = (ok2 a b) := rfl
@[simp] theorem wf_hmin2 {x1 x2 a b x3} : Instr.wf (.hmin2 x1 x2 a b x3) = (ok2 a b) := rfl
@[simp] theorem wf_hmax2 {x1 x2 a b x3} : Instr.wf (.hmax2 x1 x2 a b x3) = (ok2 a b) := rfl
@[simp] theorem wf_hdot2 {x1 x2 a b x3 x4 x5 x6} : Instr.wf (.hdot2 x1 x2 a b x3 x4 x5 x6) = (ok2 a b) := rfl
@[simp] theorem wf_cvt {x1 d a df sf spos x2 sat} : Instr.wf (.cvt x1 d a df sf spos x2 sat) = ( a.okW (sf.width == 64) && (df.width != 64 || d.even) && (!sat || df.satOk) && (if sf.width < 32 then spos.toNat * sf.width < 32 else spos == 0)) := rfl
@[simp] theorem wf_cvt2 {x1 x2 a b df sf dpos x3 sat} : Instr.wf (.cvt2 x1 x2 a b df sf dpos x3 sat) = ( ok2 a b && (sf == .f32 || sf == .s32 || sf == .n32) && df.width < 32 && dpos.toNat * (2 * df.width) < 32 && (!sat || df.satOk)) := rfl
@[simp] theorem wf_ld {x1 sz d adr ann pf} : Instr.wf (.ld x1 sz d adr ann pf) = (dataReg sz.regs d && adr.okMem && (!pf || ann.isNone)) := rfl
@[simp] theorem wf_st {x1 sz d adr x2} : Instr.wf (.st x1 sz d adr x2) = (sz.storable && dataReg sz.regs d && adr.okMem) := rfl
@[simp] theorem wf_lds {x1 sz d adr ann} : Instr.wf (.lds x1 sz d adr ann) = (dataReg sz.regs d && adr.okSp && annSp ann) := rfl
@[simp] theorem wf_sts {x1 sz d adr ann} : Instr.wf (.sts x1 sz d adr ann) = (sz.storable && dataReg sz.regs d && adr.okSp && annSp ann) := rfl
@[simp] theorem wf_ldk {x1 w d adr x2} : Instr.wf (.ldk x1 w d adr x2) = (adr.base.isK && adr.index.isK && adr.okMem && (!w || d.even)) := rfl
@[simp] theorem wf_pref {x1 x2 adr} : Instr.wf (.pref x1 x2 adr) = (adr.okMem) := rfl
@[simp] theorem wf_cctl_wb {x1 a} : Instr.wf (.cctl x1 (.wb a)) = (a.okMem) := rfl
@[simp] theorem wf_cctl_inv {x1 a} : Instr.wf (.cctl x1 (.inv a)) = (a.okMem) := rfl
@[simp] theorem wf_cctl_wbinv {x1 a} : Instr.wf (.cctl x1 (.wbinv a)) = (a.okMem) := rfl
@[simp] theorem wf_cctl_iinv {x1 a} : Instr.wf (.cctl x1 (.iinv a)) = (a.okMem) := rfl
@[simp] theorem wf_atom {x1 op ty d a b c x2 x3} : Instr.wf (.atom x1 op ty d a b c x2 x3) = ( a.okPair && b.okW ty.wide && lit1 a b && (!ty.wide || (dataReg 2 d && c.even)) && casC op c) := rfl
@[simp] theorem wf_atomFadd {x1 x2 a b x3 x4} : Instr.wf (.atomFadd x1 x2 a b x3 x4) = (a.okPair && b.ok32 && lit1 a b) := rfl
@[simp] theorem wf_atoms {x1 op x2 x3 a b c x4} : Instr.wf (.atoms x1 op x2 x3 a b c x4) = (ok2 a b && casC op c) := rfl
@[simp] theorem wf_atomsFadd {x1 x2 a b x3} : Instr.wf (.atomsFadd x1 x2 a b x3) = (ok2 a b) := rfl
@[simp] theorem wf_shape {x1 x2 a b x3} : Instr.wf (.shape x1 x2 a b x3) = (kok2 a b) := rfl
@[simp] theorem wf_shext {x1 x2 a} : Instr.wf (.shext x1 x2 a) = (a.ok32) := rfl
@[simp] theorem wf_shq {x1 d x2} : Instr.wf (.shq x1 d x2) = (d.toNat % 4 == 0) := rfl
@[simp] theorem wf_wbld {x1 a b x2 x3} : Instr.wf (.wbld x1 a b x2 x3) = (a.okPair && b.ok32 && klit1 a b) := rfl
@[simp] theorem wf_mma {x1 f a b x2 pk x3 x4} : Instr.wf (.mma x1 f a b x2 pk x3 x4) = (FrameReg.ok f && kok2 a b && pk.toNat % 4 == 0) := rfl
@[simp] theorem wf_accrd {x1 d f b w4} : Instr.wf (.accrd x1 d f b w4) = (FrameReg.ok f && b.ok32 && (!w4 || d.toNat % 4 == 0)) := rfl
@[simp] theorem wf_accwr {x1 f a b} : Instr.wf (.accwr x1 f a b) = (FrameReg.ok f && ok2 a b) := rfl
@[simp] theorem wf_accclr {x1 f} : Instr.wf (.accclr x1 f) = (FrameReg.ok f) := rfl
@[simp] theorem wf_wmark {x1 x2 f} : Instr.wf (.wmark x1 x2 f) = (FrameReg.ok f) := rfl
@[simp] theorem wf_copy {x1 d a b x2} : Instr.wf (.copy x1 d a b x2) = (d.even && a.toNat % 8 == 0 && b.ok32) := rfl
@[simp] theorem wf_rdwpt_k {x1 d x2} : Instr.wf (.rdwpt x1 (.k d) x2) = (d.even) := rfl
@[simp] theorem wf_rdwpt_v {x1 d x2} : Instr.wf (.rdwpt x1 (.v d) x2) = (d.even) := rfl
@[simp] theorem wf_regacq {x1 a} : Instr.wf (.regacq x1 a) = (a.ok32) := rfl
@[simp] theorem wf_regrel {x1 a} : Instr.wf (.regrel x1 a) = (a.ok32) := rfl
@[simp] theorem wf_spawn {x1 a b x2} : Instr.wf (.spawn x1 a b x2) = (a.okPair && b.okPair && lit1 a b) := rfl
@[simp] theorem wf_enq_core {x1 a b} : Instr.wf (.enq x1 a (.core b)) = (a.okPair && b.ok32 && lit1 a b) := rfl
@[simp] theorem wf_enq_own {h a} : Instr.wf (.enq h a .own) = a.okPair := rfl
@[simp] theorem wf_enq_hash {h a} : Instr.wf (.enq h a .hash) = a.okPair := rfl
@[simp] theorem wf_decr {x1 a b} : Instr.wf (.decr x1 a b) = (ok2 a b) := rfl
@[simp] theorem wf_waitd {x1 a} : Instr.wf (.waitd x1 a) = (a.ok32) := rfl
@[simp] theorem wf_leafq {x1 x2 a b sp} : Instr.wf (.leafq x1 x2 a b sp) = (a.ok32 && b.okW (!sp) && lit1 a b) := rfl
@[simp] theorem wf_fres {x1 a b} : Instr.wf (.fres x1 a b) = (a.ok32 && b.okPair && lit1 a b) := rfl
@[simp] theorem wf_waitf {x1 d a x2} : Instr.wf (.waitf x1 d a x2) = (d.even && a.ok32) := rfl
@[simp] theorem wf_testf {x1 x2 a} : Instr.wf (.testf x1 x2 a) = (a.ok32) := rfl
@[simp] theorem wf_cqry {x1 x2 a b} : Instr.wf (.cqry x1 x2 a b) = (a.okPair && b.okPair && lit1 a b) := rfl
@[simp] theorem wf_dstep {x1 x2 a} : Instr.wf (.dstep x1 x2 a) = (a.okPair) := rfl
@[simp] theorem wf_poola {x1 d a x2} : Instr.wf (.poola x1 d a x2) = (d.even && a.ok32) := rfl
@[simp] theorem wf_poolf {x1 a b} : Instr.wf (.poolf x1 a b) = (a.ok32 && b.okPair && lit1 a b) := rfl
@[simp] theorem wf_poolft {x1 a b} : Instr.wf (.poolft x1 a b) = (ok2 a b) := rfl
@[simp] theorem wf_bestupd {x1 a b c} : Instr.wf (.bestupd x1 a b c) = (ok2 a b && c.even) := rfl
@[simp] theorem wf_dlnset {x1 a} : Instr.wf (.dlnset x1 a) = (a.ok32) := rfl
@[simp] theorem wf_cancel {x1 a} : Instr.wf (.cancel x1 a) = (a.ok32) := rfl
@[simp] theorem wf_movs {x1 sreg a} : Instr.wf (.movs x1 sreg a) = (movsOk sreg.toNat a) := rfl
@[simp] theorem wf_movsr {x1 d sreg} : Instr.wf (.movsr x1 d sreg) = (movsrOk d sreg.toNat) := rfl
@[simp] theorem wf_movq {x1 x2 adr} : Instr.wf (.movq x1 x2 adr) = (adr.okMem) := rfl
@[simp] theorem wf_pkrd {x1 x2 a b} : Instr.wf (.pkrd x1 x2 a b) = (ok2 a b) := rfl
@[simp] theorem wf_pkwr {x1 a b x2} : Instr.wf (.pkwr x1 a b x2) = (ok2 a b) := rfl

@[simp] theorem wf_thermalShutdown {sensor temp} : Instr.wf (.thermalShutdown sensor temp) = true := rfl
@[simp] theorem raw_thermalShutdown {sensor temp} : Instr.raw (.thermalShutdown sensor temp) = none := rfl
@[simp] theorem wf_arbiterWindow {temp} : Instr.wf (.arbiterWindow temp) = true := rfl
@[simp] theorem raw_arbiterWindow {temp} : Instr.raw (.arbiterWindow temp) = none := rfl
@[simp] theorem wf_hostWindowRead {off len} : Instr.wf (.hostWindowRead off len) = true := rfl
@[simp] theorem raw_hostWindowRead {off len} : Instr.raw (.hostWindowRead off len) = none := rfl
@[simp] theorem wf_hostWindowWrite {off data} : Instr.wf (.hostWindowWrite off data) = true := rfl
@[simp] theorem raw_hostWindowWrite {off data} : Instr.raw (.hostWindowWrite off data) = none := rfl
@[simp] theorem wf_sectorRead {sector ctx} : Instr.wf (.sectorRead sector ctx) = true := rfl
@[simp] theorem raw_sectorRead {sector ctx} : Instr.raw (.sectorRead sector ctx) = none := rfl
@[simp] theorem wf_sectorWrite {sector mask data ctx} : Instr.wf (.sectorWrite sector mask data ctx) = true := rfl
@[simp] theorem raw_sectorWrite {sector mask data ctx} : Instr.raw (.sectorWrite sector mask data ctx) = none := rfl
@[simp] theorem wf_scrubSector {ch} : Instr.wf (.scrubSector ch) = true := rfl
@[simp] theorem raw_scrubSector {ch} : Instr.raw (.scrubSector ch) = none := rfl
@[simp] theorem wf_memoryRetrain {ch bad} : Instr.wf (.memoryRetrain ch bad) = true := rfl
@[simp] theorem raw_memoryRetrain {ch bad} : Instr.raw (.memoryRetrain ch bad) = none := rfl
@[simp] theorem wf_mrepCommandComplete {ch} : Instr.wf (.mrepCommandComplete ch) = true := rfl
@[simp] theorem raw_mrepCommandComplete {ch} : Instr.raw (.mrepCommandComplete ch) = none := rfl
@[simp] theorem wf_linkLaneFailure {link} : Instr.wf (.linkLaneFailure link) = true := rfl
@[simp] theorem raw_linkLaneFailure {link} : Instr.raw (.linkLaneFailure link) = none := rfl
@[simp] theorem wf_linkTrained {link width rate peer plink} : Instr.wf (.linkTrained link width rate peer plink) = true := rfl
@[simp] theorem raw_linkTrained {link width rate peer plink} : Instr.raw (.linkTrained link width rate peer plink) = none := rfl
@[simp] theorem wf_flitReceive {link flit} : Instr.wf (.flitReceive link flit) = true := rfl
@[simp] theorem raw_flitReceive {link flit} : Instr.raw (.flitReceive link flit) = none := rfl
@[simp] theorem wf_replayRequest {link seq} : Instr.wf (.replayRequest link seq) = true := rfl
@[simp] theorem raw_replayRequest {link seq} : Instr.raw (.replayRequest link seq) = none := rfl
@[simp] theorem wf_retryBackoffExpiry {txid} : Instr.wf (.retryBackoffExpiry txid) = true := rfl
@[simp] theorem raw_retryBackoffExpiry {txid} : Instr.raw (.retryBackoffExpiry txid) = none := rfl
@[simp] theorem wf_deviceLossTimeout {dev} : Instr.wf (.deviceLossTimeout dev) = true := rfl
@[simp] theorem raw_deviceLossTimeout {dev} : Instr.raw (.deviceLossTimeout dev) = none := rfl
@[simp] theorem wf_l2Evict {dpa} : Instr.wf (.l2Evict dpa) = true := rfl
@[simp] theorem raw_l2Evict {dpa} : Instr.raw (.l2Evict dpa) = none := rfl
@[simp] theorem wf_l1DirtyTimeout {core sector} : Instr.wf (.l1DirtyTimeout core sector) = true := rfl
@[simp] theorem raw_l1DirtyTimeout {core sector} : Instr.raw (.l1DirtyTimeout core sector) = none := rfl
@[simp] theorem wf_ringEntryFetch {n} : Instr.wf (.ringEntryFetch n) = true := rfl
@[simp] theorem raw_ringEntryFetch {n} : Instr.raw (.ringEntryFetch n) = none := rfl
@[simp] theorem wf_completionRecordWrite {n} : Instr.wf (.completionRecordWrite n) = true := rfl
@[simp] theorem raw_completionRecordWrite {n} : Instr.raw (.completionRecordWrite n) = none := rfl
@[simp] theorem wf_corePull {core} : Instr.wf (.corePull core) = true := rfl
@[simp] theorem raw_corePull {core} : Instr.raw (.corePull core) = none := rfl
@[simp] theorem wf_clauseIssue {core quad} : Instr.wf (.clauseIssue core quad) = true := rfl
@[simp] theorem raw_clauseIssue {core quad} : Instr.raw (.clauseIssue core quad) = none := rfl
@[simp] theorem wf_blockRetire {launch block} : Instr.wf (.blockRetire launch block) = true := rfl
@[simp] theorem raw_blockRetire {launch block} : Instr.raw (.blockRetire launch block) = none := rfl
@[simp] theorem wf_launchComplete {launch} : Instr.wf (.launchComplete launch) = true := rfl
@[simp] theorem raw_launchComplete {launch} : Instr.raw (.launchComplete launch) = none := rfl
@[simp] theorem wf_detCommit {launch block} : Instr.wf (.detCommit launch block) = true := rfl
@[simp] theorem raw_detCommit {launch block} : Instr.raw (.detCommit launch block) = none := rfl
@[simp] theorem wf_nodeLaunch {graph} : Instr.wf (.nodeLaunch graph) = true := rfl
@[simp] theorem raw_nodeLaunch {graph} : Instr.raw (.nodeLaunch graph) = none := rfl
@[simp] theorem wf_nodeJoin {graph} : Instr.wf (.nodeJoin graph) = true := rfl
@[simp] theorem raw_nodeJoin {graph} : Instr.raw (.nodeJoin graph) = none := rfl
@[simp] theorem wf_nodeCond {graph} : Instr.wf (.nodeCond graph) = true := rfl
@[simp] theorem raw_nodeCond {graph} : Instr.raw (.nodeCond graph) = none := rfl
@[simp] theorem wf_nodeWhile {graph} : Instr.wf (.nodeWhile graph) = true := rfl
@[simp] theorem raw_nodeWhile {graph} : Instr.raw (.nodeWhile graph) = none := rfl
@[simp] theorem wf_nodeEndw {graph} : Instr.wf (.nodeEndw graph) = true := rfl
@[simp] theorem raw_nodeEndw {graph} : Instr.raw (.nodeEndw graph) = none := rfl
@[simp] theorem wf_nodeStore {graph} : Instr.wf (.nodeStore graph) = true := rfl
@[simp] theorem raw_nodeStore {graph} : Instr.raw (.nodeStore graph) = none := rfl
@[simp] theorem wf_nodeDecr {graph} : Instr.wf (.nodeDecr graph) = true := rfl
@[simp] theorem raw_nodeDecr {graph} : Instr.raw (.nodeDecr graph) = none := rfl
@[simp] theorem wf_nodeWaitd {graph} : Instr.wf (.nodeWaitd graph) = true := rfl
@[simp] theorem raw_nodeWaitd {graph} : Instr.raw (.nodeWaitd graph) = none := rfl
@[simp] theorem wf_nodeEnd {graph} : Instr.wf (.nodeEnd graph) = true := rfl
@[simp] theorem raw_nodeEnd {graph} : Instr.raw (.nodeEnd graph) = none := rfl
@[simp] theorem wf_nodeInvalid {graph} : Instr.wf (.nodeInvalid graph) = true := rfl
@[simp] theorem raw_nodeInvalid {graph} : Instr.raw (.nodeInvalid graph) = none := rfl
@[simp] theorem wf_watchdogExpiry {core} : Instr.wf (.watchdogExpiry core) = true := rfl
@[simp] theorem raw_watchdogExpiry {core} : Instr.raw (.watchdogExpiry core) = none := rfl
@[simp] theorem wf_tileFlushTimer {queue} : Instr.wf (.tileFlushTimer queue) = true := rfl
@[simp] theorem raw_tileFlushTimer {queue} : Instr.raw (.tileFlushTimer queue) = none := rfl
@[simp] theorem wf_deadlineExpiry {ctx} : Instr.wf (.deadlineExpiry ctx) = true := rfl
@[simp] theorem raw_deadlineExpiry {ctx} : Instr.raw (.deadlineExpiry ctx) = none := rfl
@[simp] theorem wf_mmaKstep {core} : Instr.wf (.mmaKstep core) = true := rfl
@[simp] theorem raw_mmaKstep {core} : Instr.raw (.mmaKstep core) = none := rfl
@[simp] theorem wf_drainElement {core} : Instr.wf (.drainElement core) = true := rfl
@[simp] theorem raw_drainElement {core} : Instr.raw (.drainElement core) = none := rfl
@[simp] theorem wf_copyChunk {core ch} : Instr.wf (.copyChunk core ch) = true := rfl
@[simp] theorem raw_copyChunk {core ch} : Instr.raw (.copyChunk core ch) = none := rfl
@[simp] theorem wf_spatialQuery {atoll} : Instr.wf (.spatialQuery atoll) = true := rfl
@[simp] theorem raw_spatialQuery {atoll} : Instr.raw (.spatialQuery atoll) = none := rfl
@[simp] theorem wf_spatialStepBody {atoll} : Instr.wf (.spatialStepBody atoll) = true := rfl
@[simp] theorem raw_spatialStepBody {atoll} : Instr.raw (.spatialStepBody atoll) = none := rfl
@[simp] theorem wf_engineAcknowledge {e} : Instr.wf (.engineAcknowledge e) = true := rfl
@[simp] theorem raw_engineAcknowledge {e} : Instr.raw (.engineAcknowledge e) = none := rfl
@[simp] theorem wf_tlbinvPage {asn vpn} : Instr.wf (.tlbinvPage asn vpn) = true := rfl
@[simp] theorem raw_tlbinvPage {asn vpn} : Instr.raw (.tlbinvPage asn vpn) = none := rfl
@[simp] theorem wf_tlbinvAsn {asn} : Instr.wf (.tlbinvAsn asn) = true := rfl
@[simp] theorem raw_tlbinvAsn {asn} : Instr.raw (.tlbinvAsn asn) = none := rfl
@[simp] theorem wf_gqdBind {ctx n desc} : Instr.wf (.gqdBind ctx n desc) = true := rfl
@[simp] theorem raw_gqdBind {ctx n desc} : Instr.raw (.gqdBind ctx n desc) = none := rfl
@[simp] theorem wf_gqdUnbind {n} : Instr.wf (.gqdUnbind n) = true := rfl
@[simp] theorem raw_gqdUnbind {n} : Instr.raw (.gqdUnbind n) = none := rfl
@[simp] theorem wf_pldBind {ctx n desc} : Instr.wf (.pldBind ctx n desc) = true := rfl
@[simp] theorem raw_pldBind {ctx n desc} : Instr.raw (.pldBind ctx n desc) = none := rfl
@[simp] theorem wf_pldUnbind {n} : Instr.wf (.pldUnbind n) = true := rfl
@[simp] theorem raw_pldUnbind {n} : Instr.raw (.pldUnbind n) = none := rfl
@[simp] theorem wf_nop {h} : Instr.wf (.nop h) = true := rfl
@[simp] theorem wf_bra {h imm} : Instr.wf (.bra h imm) = true := rfl
@[simp] theorem wf_call {h imm} : Instr.wf (.call h imm) = true := rfl
@[simp] theorem wf_ret {h} : Instr.wf (.ret h) = true := rfl
@[simp] theorem wf_exit {h} : Instr.wf (.exit h) = true := rfl
@[simp] theorem wf_yield {h} : Instr.wf (.yield h) = true := rfl
@[simp] theorem wf_jmark {h j} : Instr.wf (.jmark h j) = true := rfl
@[simp] theorem wf_jwait {h j} : Instr.wf (.jwait h j) = true := rfl
@[simp] theorem wf_bar {h b} : Instr.wf (.bar h b) = true := rfl
@[simp] theorem wf_abar {h b} : Instr.wf (.abar h b) = true := rfl
@[simp] theorem wf_chkc {h} : Instr.wf (.chkc h) = true := rfl
@[simp] theorem wf_bkpt {h} : Instr.wf (.bkpt h) = true := rfl
@[simp] theorem wf_trap {h code} : Instr.wf (.trap h code) = true := rfl
@[simp] theorem wf_trapSvc {h n} : Instr.wf (.trapSvc h n) = true := rfl
@[simp] theorem wf_plop {h d a b lut} : Instr.wf (.plop h d a b lut) = true := rfl
@[simp] theorem wf_kmovImm {h d imm} : Instr.wf (.kmovImm h d imm) = true := rfl
@[simp] theorem wf_kaddImm {h d a imm} : Instr.wf (.kaddImm h d a imm) = true := rfl
@[simp] theorem wf_movImm {h d imm} : Instr.wf (.movImm h d imm) = true := rfl
@[simp] theorem wf_iaddImm {h d a imm} : Instr.wf (.iaddImm h d a imm) = true := rfl
@[simp] theorem wf_imulImm {h d a imm} : Instr.wf (.imulImm h d a imm) = true := rfl
@[simp] theorem wf_iandImm {h d a imm} : Instr.wf (.iandImm h d a imm) = true := rfl
@[simp] theorem wf_iorImm {h d a imm} : Instr.wf (.iorImm h d a imm) = true := rfl
@[simp] theorem wf_ixorImm {h d a imm} : Instr.wf (.ixorImm h d a imm) = true := rfl
@[simp] theorem wf_ishlImm {h d a imm} : Instr.wf (.ishlImm h d a imm) = true := rfl
@[simp] theorem wf_ishrImm {h d a imm} : Instr.wf (.ishrImm h d a imm) = true := rfl
@[simp] theorem wf_isarImm {h d a imm} : Instr.wf (.isarImm h d a imm) = true := rfl
@[simp] theorem wf_fence {h scope} : Instr.wf (.fence h scope) = true := rfl
@[simp] theorem wf_qfence {h mask scope} : Instr.wf (.qfence h mask scope) = true := rfl
@[simp] theorem wf_drnld {h n} : Instr.wf (.drnld h n) = true := rfl
@[simp] theorem wf_ringp {h ring op} : Instr.wf (.ringp h ring op) = true := rfl
@[simp] theorem wf_ringc {h ring op} : Instr.wf (.ringc h ring op) = true := rfl
@[simp] theorem wf_dlnrd {h d} : Instr.wf (.dlnrd h d) = true := rfl
@[simp] theorem wf_tret {h} : Instr.wf (.tret h) = true := rfl
@[simp] theorem wf_laneend {h} : Instr.wf (.laneend h) = true := rfl
@[simp] theorem wf_copyResume {launch block ch} : Instr.wf (.copyResume launch block ch) = true := rfl
@[simp] theorem raw_copyResume {launch block ch} : Instr.raw (.copyResume launch block ch) = none := rfl
@[simp] theorem wf_drainResume {core frame} : Instr.wf (.drainResume core frame) = true := rfl
@[simp] theorem raw_drainResume {core frame} : Instr.raw (.drainResume core frame) = none := rfl
@[simp] theorem wf_powerGoodRelease : Instr.wf (.powerGoodRelease) = true := rfl
@[simp] theorem raw_powerGoodRelease : Instr.raw (.powerGoodRelease) = none := rfl
@[simp] theorem wf_powerGoodLoss : Instr.wf (.powerGoodLoss) = true := rfl
@[simp] theorem raw_powerGoodLoss : Instr.raw (.powerGoodLoss) = none := rfl
@[simp] theorem wf_railSequenceFault : Instr.wf (.railSequenceFault) = true := rfl
@[simp] theorem raw_railSequenceFault : Instr.raw (.railSequenceFault) = none := rfl
@[simp] theorem wf_boardReset : Instr.wf (.boardReset) = true := rfl
@[simp] theorem raw_boardReset : Instr.raw (.boardReset) = none := rfl
@[simp] theorem wf_perstDeassert : Instr.wf (.perstDeassert) = true := rfl
@[simp] theorem raw_perstDeassert : Instr.raw (.perstDeassert) = none := rfl
@[simp] theorem wf_boot : Instr.wf (.boot) = true := rfl
@[simp] theorem raw_boot : Instr.raw (.boot) = none := rfl
@[simp] theorem wf_lockstepMismatch : Instr.wf (.lockstepMismatch) = true := rfl
@[simp] theorem raw_lockstepMismatch : Instr.raw (.lockstepMismatch) = none := rfl
@[simp] theorem wf_docentSafePoint : Instr.wf (.docentSafePoint) = true := rfl
@[simp] theorem raw_docentSafePoint : Instr.raw (.docentSafePoint) = none := rfl
@[simp] theorem wf_docentQuiesceTimeout : Instr.wf (.docentQuiesceTimeout) = true := rfl
@[simp] theorem raw_docentQuiesceTimeout : Instr.raw (.docentQuiesceTimeout) = none := rfl
@[simp] theorem wf_docentReady : Instr.wf (.docentReady) = true := rfl
@[simp] theorem raw_docentReady : Instr.raw (.docentReady) = none := rfl
@[simp] theorem wf_docentReadyTimeout : Instr.wf (.docentReadyTimeout) = true := rfl
@[simp] theorem raw_docentReadyTimeout : Instr.raw (.docentReadyTimeout) = none := rfl
@[simp] theorem wf_errorRecordWrite : Instr.wf (.errorRecordWrite) = true := rfl
@[simp] theorem raw_errorRecordWrite : Instr.raw (.errorRecordWrite) = none := rfl
@[simp] theorem wf_trapRingWrite : Instr.wf (.trapRingWrite) = true := rfl
@[simp] theorem raw_trapRingWrite : Instr.raw (.trapRingWrite) = none := rfl
@[simp] theorem wf_ctxRestoreLoad : Instr.wf (.ctxRestoreLoad) = true := rfl
@[simp] theorem raw_ctxRestoreLoad : Instr.raw (.ctxRestoreLoad) = none := rfl
@[simp] theorem wf_tlbinvAll : Instr.wf (.tlbinvAll) = true := rfl
@[simp] theorem raw_tlbinvAll : Instr.raw (.tlbinvAll) = none := rfl
@[simp] theorem wf_pwrbudWrite : Instr.wf (.pwrbudWrite) = true := rfl
@[simp] theorem raw_pwrbudWrite : Instr.raw (.pwrbudWrite) = none := rfl
@[simp] theorem wf_registerWrite : Instr.wf (.registerWrite) = true := rfl
@[simp] theorem raw_registerWrite : Instr.raw (.registerWrite) = none := rfl
@[simp] theorem wf_attest : Instr.wf (.attest) = true := rfl
@[simp] theorem raw_attest : Instr.raw (.attest) = none := rfl
@[simp] theorem wf_readIdentityCertificate : Instr.wf (.readIdentityCertificate) = true := rfl
@[simp] theorem raw_readIdentityCertificate : Instr.raw (.readIdentityCertificate) = none := rfl
@[simp] theorem wf_replaceDocent : Instr.wf (.replaceDocent) = true := rfl
@[simp] theorem raw_replaceDocent : Instr.raw (.replaceDocent) = none := rfl
@[simp] theorem wf_replaceDocentAndWriteFlash : Instr.wf (.replaceDocentAndWriteFlash) = true := rfl
@[simp] theorem raw_replaceDocentAndWriteFlash : Instr.raw (.replaceDocentAndWriteFlash) = none := rfl
@[simp] theorem wf_installRecoveryBundle : Instr.wf (.installRecoveryBundle) = true := rfl
@[simp] theorem raw_installRecoveryBundle : Instr.raw (.installRecoveryBundle) = none := rfl
@[simp] theorem wf_fwmbxInvalidCommand : Instr.wf (.fwmbxInvalidCommand) = true := rfl
@[simp] theorem raw_fwmbxInvalidCommand : Instr.raw (.fwmbxInvalidCommand) = none := rfl
@[simp] theorem wf_errctlWrite : Instr.wf (.errctlWrite) = true := rfl
@[simp] theorem raw_errctlWrite : Instr.raw (.errctlWrite) = none := rfl
@[simp] theorem wf_errbaseWrite : Instr.wf (.errbaseWrite) = true := rfl
@[simp] theorem raw_errbaseWrite : Instr.raw (.errbaseWrite) = none := rfl
@[simp] theorem wf_softRowRepair : Instr.wf (.softRowRepair) = true := rfl
@[simp] theorem raw_softRowRepair : Instr.raw (.softRowRepair) = none := rfl
@[simp] theorem wf_hardRowRepair : Instr.wf (.hardRowRepair) = true := rfl
@[simp] theorem raw_hardRowRepair : Instr.raw (.hardRowRepair) = none := rfl
@[simp] theorem wf_laneRemap : Instr.wf (.laneRemap) = true := rfl
@[simp] theorem raw_laneRemap : Instr.raw (.laneRemap) = none := rfl
@[simp] theorem wf_clearPoison : Instr.wf (.clearPoison) = true := rfl
@[simp] theorem raw_clearPoison : Instr.raw (.clearPoison) = none := rfl
@[simp] theorem wf_retrain : Instr.wf (.retrain) = true := rfl
@[simp] theorem raw_retrain : Instr.raw (.retrain) = none := rfl
@[simp] theorem wf_mrepInvalidCommand : Instr.wf (.mrepInvalidCommand) = true := rfl
@[simp] theorem raw_mrepInvalidCommand : Instr.raw (.mrepInvalidCommand) = none := rfl
@[simp] theorem wf_sdomLeave : Instr.wf (.sdomLeave) = true := rfl
@[simp] theorem raw_sdomLeave : Instr.raw (.sdomLeave) = none := rfl
@[simp] theorem wf_sdomJoin : Instr.wf (.sdomJoin) = true := rfl
@[simp] theorem raw_sdomJoin : Instr.raw (.sdomJoin) = none := rfl
@[simp] theorem wf_migrationStart : Instr.wf (.migrationStart) = true := rfl
@[simp] theorem raw_migrationStart : Instr.raw (.migrationStart) = none := rfl
@[simp] theorem wf_migrationRelease : Instr.wf (.migrationRelease) = true := rfl
@[simp] theorem raw_migrationRelease : Instr.raw (.migrationRelease) = none := rfl
@[simp] theorem wf_sqcfgWrite : Instr.wf (.sqcfgWrite) = true := rfl
@[simp] theorem raw_sqcfgWrite : Instr.raw (.sqcfgWrite) = none := rfl
@[simp] theorem wf_sqDoorbell : Instr.wf (.sqDoorbell) = true := rfl
@[simp] theorem raw_sqDoorbell : Instr.raw (.sqDoorbell) = none := rfl
@[simp] theorem wf_cqctlWrite : Instr.wf (.cqctlWrite) = true := rfl
@[simp] theorem raw_cqctlWrite : Instr.raw (.cqctlWrite) = none := rfl
@[simp] theorem wf_trctlWrite : Instr.wf (.trctlWrite) = true := rfl
@[simp] theorem raw_trctlWrite : Instr.raw (.trctlWrite) = none := rfl
@[simp] theorem wf_trbaseWrite : Instr.wf (.trbaseWrite) = true := rfl
@[simp] theorem raw_trbaseWrite : Instr.raw (.trbaseWrite) = none := rfl
@[simp] theorem wf_ctxPreemptSave : Instr.wf (.ctxPreemptSave) = true := rfl
@[simp] theorem raw_ctxPreemptSave : Instr.raw (.ctxPreemptSave) = none := rfl
@[simp] theorem wf_ctxRestore : Instr.wf (.ctxRestore) = true := rfl
@[simp] theorem raw_ctxRestore : Instr.raw (.ctxRestore) = none := rfl
@[simp] theorem wf_ctxEnd : Instr.wf (.ctxEnd) = true := rfl
@[simp] theorem raw_ctxEnd : Instr.raw (.ctxEnd) = none := rfl
@[simp] theorem wf_ctxRelease : Instr.wf (.ctxRelease) = true := rfl
@[simp] theorem raw_ctxRelease : Instr.raw (.ctxRelease) = none := rfl
@[simp] theorem wf_ctxcmdInvalid : Instr.wf (.ctxcmdInvalid) = true := rfl
@[simp] theorem raw_ctxcmdInvalid : Instr.raw (.ctxcmdInvalid) = none := rfl
@[simp] theorem wf_svcrelResume : Instr.wf (.svcrelResume) = true := rfl
@[simp] theorem raw_svcrelResume : Instr.raw (.svcrelResume) = none := rfl
@[simp] theorem wf_svcrelKill : Instr.wf (.svcrelKill) = true := rfl
@[simp] theorem raw_svcrelKill : Instr.raw (.svcrelKill) = none := rfl
@[simp] theorem wf_rds : Instr.wf (.rds) = true := rfl
@[simp] theorem raw_rds : Instr.raw (.rds) = none := rfl
@[simp] theorem wf_rdx : Instr.wf (.rdx) = true := rfl
@[simp] theorem raw_rdx : Instr.raw (.rdx) = none := rfl
@[simp] theorem wf_wb : Instr.wf (.wb) = true := rfl
@[simp] theorem raw_wb : Instr.raw (.wb) = none := rfl
@[simp] theorem wf_cln : Instr.wf (.cln) = true := rfl
@[simp] theorem raw_cln : Instr.raw (.cln) = none := rfl
@[simp] theorem wf_atomMessage : Instr.wf (.atomMessage) = true := rfl
@[simp] theorem raw_atomMessage : Instr.raw (.atomMessage) = none := rfl
@[simp] theorem wf_wrh : Instr.wf (.wrh) = true := rfl
@[simp] theorem raw_wrh : Instr.raw (.wrh) = none := rfl
@[simp] theorem wf_leave : Instr.wf (.leave) = true := rfl
@[simp] theorem raw_leave : Instr.raw (.leave) = none := rfl
@[simp] theorem wf_join : Instr.wf (.join) = true := rfl
@[simp] theorem raw_join : Instr.raw (.join) = none := rfl
@[simp] theorem wf_fwds : Instr.wf (.fwds) = true := rfl
@[simp] theorem raw_fwds : Instr.raw (.fwds) = none := rfl
@[simp] theorem wf_fwdx : Instr.wf (.fwdx) = true := rfl
@[simp] theorem raw_fwdx : Instr.raw (.fwdx) = none := rfl
@[simp] theorem wf_inv : Instr.wf (.inv) = true := rfl
@[simp] theorem raw_inv : Instr.raw (.inv) = none := rfl
@[simp] theorem wf_rcl : Instr.wf (.rcl) = true := rfl
@[simp] theorem raw_rcl : Instr.raw (.rcl) = none := rfl
@[simp] theorem wf_dats : Instr.wf (.dats) = true := rfl
@[simp] theorem raw_dats : Instr.raw (.dats) = none := rfl
@[simp] theorem wf_date : Instr.wf (.date) = true := rfl
@[simp] theorem raw_date : Instr.raw (.date) = none := rfl
@[simp] theorem wf_datm : Instr.wf (.datm) = true := rfl
@[simp] theorem raw_datm : Instr.raw (.datm) = none := rfl
@[simp] theorem wf_rcld : Instr.wf (.rcld) = true := rfl
@[simp] theorem raw_rcld : Instr.raw (.rcld) = none := rfl
@[simp] theorem wf_atomr : Instr.wf (.atomr) = true := rfl
@[simp] theorem raw_atomr : Instr.raw (.atomr) = none := rfl
@[simp] theorem wf_invack : Instr.wf (.invack) = true := rfl
@[simp] theorem raw_invack : Instr.raw (.invack) = none := rfl
@[simp] theorem wf_fwdack : Instr.wf (.fwdack) = true := rfl
@[simp] theorem raw_fwdack : Instr.raw (.fwdack) = none := rfl
@[simp] theorem wf_fwdmiss : Instr.wf (.fwdmiss) = true := rfl
@[simp] theorem raw_fwdmiss : Instr.raw (.fwdmiss) = none := rfl
@[simp] theorem wf_wback : Instr.wf (.wback) = true := rfl
@[simp] theorem raw_wback : Instr.raw (.wback) = none := rfl
@[simp] theorem wf_retry : Instr.wf (.retry) = true := rfl
@[simp] theorem raw_retry : Instr.raw (.retry) = none := rfl
@[simp] theorem wf_poisoned : Instr.wf (.poisoned) = true := rfl
@[simp] theorem raw_poisoned : Instr.raw (.poisoned) = none := rfl
@[simp] theorem wf_done : Instr.wf (.done) = true := rfl
@[simp] theorem raw_done : Instr.raw (.done) = none := rfl
@[simp] theorem wf_unknownMessage : Instr.wf (.unknownMessage) = true := rfl
@[simp] theorem raw_unknownMessage : Instr.raw (.unknownMessage) = none := rfl
@[simp] theorem wf_pmov_toV {h d} : Instr.wf (.pmov h (.toV d)) = true := rfl
@[simp] theorem wf_vote_all {h d a} : Instr.wf (.vote h (.all d) a) = true := rfl
@[simp] theorem wf_vote_any {h d a} : Instr.wf (.vote h (.any d) a) = true := rfl
@[simp] theorem wf_vote_eq {h d a} : Instr.wf (.vote h (.eq d) a) = true := rfl
@[simp] theorem wf_cctl_wball {h} : Instr.wf (.cctl h .wball) = true := rfl
@[simp] theorem wf_cctl_iinvall {h} : Instr.wf (.cctl h .iinvall) = true := rfl

end Sys2Proof
end

