-- ==== Sys2Proof/Laws/PerInstr.lean ====
section
/-! SUPPORT. The per-instruction family: a well-formed instruction takes at most two words, its own and one literal (R318, R323). -/
set_option linter.unusedSimpArgs false

namespace Sys2Proof.Laws.OneLiteral

/-- The statement of the family. -/
def Statement (i : Instr) : Prop := i.wf = true → (encode i).length ≤ 2

theorem src_lits (a : Src) : a.lits.length ≤ 1 := by cases a <;> simp [Src.lits]

theorem klits_k (n : KReg) : (KSrc.k n).lits = [] := rfl

theorem ksrc_lits (a : KSrc) : a.lits.length ≤ 1 := by cases a <;> simp [KSrc.lits]

theorem thermalShutdown (sensor : Nat) (temp : Int) : Statement (.thermalShutdown sensor temp) := by
  intro _; simp [encode]

theorem arbiterWindow (temp : Int) : Statement (.arbiterWindow temp) := by
  intro _; simp [encode]

theorem hostWindowRead (off len : Nat) : Statement (.hostWindowRead off len) := by
  intro _; simp [encode]

theorem hostWindowWrite (off : Nat) (data : List Byte) : Statement (.hostWindowWrite off data) := by
  intro _; simp [encode]

theorem sectorRead (sector : Nat) (ctx : Option Word) : Statement (.sectorRead sector ctx) := by
  intro _; simp [encode]

theorem sectorWrite (sector : Nat) (mask : Word) (data : List Byte) (ctx : Option Word) : Statement (.sectorWrite sector mask data ctx) := by
  intro _; simp [encode]

theorem scrubSector (ch : Nat) : Statement (.scrubSector ch) := by
  intro _; simp [encode]

theorem memoryRetrain (ch : Nat) (bad : Option (Bool × Nat)) : Statement (.memoryRetrain ch bad) := by
  intro _; simp [encode]

theorem mrepCommandComplete (ch : Nat) : Statement (.mrepCommandComplete ch) := by
  intro _; simp [encode]

theorem linkLaneFailure (link : Nat) : Statement (.linkLaneFailure link) := by
  intro _; simp [encode]

theorem linkTrained (link : Nat) (width : BitVec 2) (rate : Bool) (peer : BitVec 3) (plink : BitVec 2) : Statement (.linkTrained link width rate peer plink) := by
  intro _; simp [encode]

theorem flitReceive (link : Nat) (flit : List Byte) : Statement (.flitReceive link flit) := by
  intro _; simp [encode]

theorem replayRequest (link : Nat) (seq : BitVec 12) : Statement (.replayRequest link seq) := by
  intro _; simp [encode]

theorem retryBackoffExpiry (txid : Nat) : Statement (.retryBackoffExpiry txid) := by
  intro _; simp [encode]

theorem deviceLossTimeout (dev : BitVec 3) : Statement (.deviceLossTimeout dev) := by
  intro _; simp [encode]

theorem l2Evict (dpa : Nat) : Statement (.l2Evict dpa) := by
  intro _; simp [encode]

theorem l1DirtyTimeout (core sector : Nat) : Statement (.l1DirtyTimeout core sector) := by
  intro _; simp [encode]

theorem ringEntryFetch (n : Nat) : Statement (.ringEntryFetch n) := by
  intro _; simp [encode]

theorem completionRecordWrite (n : Nat) : Statement (.completionRecordWrite n) := by
  intro _; simp [encode]

theorem corePull (core : Nat) : Statement (.corePull core) := by
  intro _; simp [encode]

theorem clauseIssue (core quad : Nat) : Statement (.clauseIssue core quad) := by
  intro _; simp [encode]

theorem blockRetire (launch block : Nat) : Statement (.blockRetire launch block) := by
  intro _; simp [encode]

theorem launchComplete (launch : Nat) : Statement (.launchComplete launch) := by
  intro _; simp [encode]

theorem detCommit (launch block : Nat) : Statement (.detCommit launch block) := by
  intro _; simp [encode]

theorem nodeLaunch (graph : Nat) : Statement (.nodeLaunch graph) := by
  intro _; simp [encode]

theorem nodeJoin (graph : Nat) : Statement (.nodeJoin graph) := by
  intro _; simp [encode]

theorem nodeCond (graph : Nat) : Statement (.nodeCond graph) := by
  intro _; simp [encode]

theorem nodeWhile (graph : Nat) : Statement (.nodeWhile graph) := by
  intro _; simp [encode]

theorem nodeEndw (graph : Nat) : Statement (.nodeEndw graph) := by
  intro _; simp [encode]

theorem nodeStore (graph : Nat) : Statement (.nodeStore graph) := by
  intro _; simp [encode]

theorem nodeDecr (graph : Nat) : Statement (.nodeDecr graph) := by
  intro _; simp [encode]

theorem nodeWaitd (graph : Nat) : Statement (.nodeWaitd graph) := by
  intro _; simp [encode]

theorem nodeEnd (graph : Nat) : Statement (.nodeEnd graph) := by
  intro _; simp [encode]

theorem nodeInvalid (graph : Nat) : Statement (.nodeInvalid graph) := by
  intro _; simp [encode]

theorem watchdogExpiry (core : Nat) : Statement (.watchdogExpiry core) := by
  intro _; simp [encode]

theorem tileFlushTimer (queue : Nat) : Statement (.tileFlushTimer queue) := by
  intro _; simp [encode]

theorem deadlineExpiry (ctx : Word) : Statement (.deadlineExpiry ctx) := by
  intro _; simp [encode]

theorem mmaKstep (core : Nat) : Statement (.mmaKstep core) := by
  intro _; simp [encode]

theorem drainElement (core : Nat) : Statement (.drainElement core) := by
  intro _; simp [encode]

theorem copyChunk (core ch : Nat) : Statement (.copyChunk core ch) := by
  intro _; simp [encode]

theorem spatialQuery (atoll : Nat) : Statement (.spatialQuery atoll) := by
  intro _; simp [encode]

theorem spatialStepBody (atoll : Nat) : Statement (.spatialStepBody atoll) := by
  intro _; simp [encode]

theorem engineAcknowledge (e : Engine) : Statement (.engineAcknowledge e) := by
  intro _; simp [encode]

theorem tlbinvPage (asn : Half) (vpn : BitVec 36) : Statement (.tlbinvPage asn vpn) := by
  intro _; simp [encode]

theorem tlbinvAsn (asn : Half) : Statement (.tlbinvAsn asn) := by
  intro _; simp [encode]

theorem gqdBind (ctx : Word) (n : Nat) (desc : DWord) : Statement (.gqdBind ctx n desc) := by
  intro _; simp [encode]

theorem gqdUnbind (n : Nat) : Statement (.gqdUnbind n) := by
  intro _; simp [encode]

theorem pldBind (ctx : Word) (n : Nat) (desc : DWord) : Statement (.pldBind ctx n desc) := by
  intro _; simp [encode]

theorem pldUnbind (n : Nat) : Statement (.pldUnbind n) := by
  intro _; simp [encode]

theorem nop (h : Hdr) : Statement (.nop h) := by
  intro hw; simp_all [encode, mk0, mk1, mk3, mkB, mkK1, mkK2, mkI, mkM, ok2, kok2, lit1, klit1, Adr.okMem, Adr.okSp, klits_k, src_lits, ksrc_lits]

theorem bra (h : Hdr) (imm : Imm) : Statement (.bra h imm) := by
  intro hw; simp_all [encode, mk0, mk1, mk3, mkB, mkK1, mkK2, mkI, mkM, ok2, kok2, lit1, klit1, Adr.okMem, Adr.okSp, klits_k, src_lits, ksrc_lits]

theorem brx (h : Hdr) (a : Src) : Statement (.brx h a) := by
  intro hw; simp_all [encode, mk0, mk1, mk3, mkB, mkK1, mkK2, mkI, mkM, ok2, kok2, lit1, klit1, Adr.okMem, Adr.okSp, klits_k, src_lits, ksrc_lits]

theorem call (h : Hdr) (imm : Imm) : Statement (.call h imm) := by
  intro hw; simp_all [encode, mk0, mk1, mk3, mkB, mkK1, mkK2, mkI, mkM, ok2, kok2, lit1, klit1, Adr.okMem, Adr.okSp, klits_k, src_lits, ksrc_lits]

theorem callx (h : Hdr) (a : Src) : Statement (.callx h a) := by
  intro hw; simp_all [encode, mk0, mk1, mk3, mkB, mkK1, mkK2, mkI, mkM, ok2, kok2, lit1, klit1, Adr.okMem, Adr.okSp, klits_k, src_lits, ksrc_lits]

theorem ret (h : Hdr) : Statement (.ret h) := by
  intro hw; simp_all [encode, mk0, mk1, mk3, mkB, mkK1, mkK2, mkI, mkM, ok2, kok2, lit1, klit1, Adr.okMem, Adr.okSp, klits_k, src_lits, ksrc_lits]

theorem exit (h : Hdr) : Statement (.exit h) := by
  intro hw; simp_all [encode, mk0, mk1, mk3, mkB, mkK1, mkK2, mkI, mkM, ok2, kok2, lit1, klit1, Adr.okMem, Adr.okSp, klits_k, src_lits, ksrc_lits]

theorem yield (h : Hdr) : Statement (.yield h) := by
  intro hw; simp_all [encode, mk0, mk1, mk3, mkB, mkK1, mkK2, mkI, mkM, ok2, kok2, lit1, klit1, Adr.okMem, Adr.okSp, klits_k, src_lits, ksrc_lits]

theorem jmark (h : Hdr) (j : JReg) : Statement (.jmark h j) := by
  intro hw; simp_all [encode, mk0, mk1, mk3, mkB, mkK1, mkK2, mkI, mkM, ok2, kok2, lit1, klit1, Adr.okMem, Adr.okSp, klits_k, src_lits, ksrc_lits]

theorem jwait (h : Hdr) (j : JReg) : Statement (.jwait h j) := by
  intro hw; simp_all [encode, mk0, mk1, mk3, mkB, mkK1, mkK2, mkI, mkM, ok2, kok2, lit1, klit1, Adr.okMem, Adr.okSp, klits_k, src_lits, ksrc_lits]

theorem bar (h : Hdr) (b : BarReg) : Statement (.bar h b) := by
  intro hw; simp_all [encode, mk0, mk1, mk3, mkB, mkK1, mkK2, mkI, mkM, ok2, kok2, lit1, klit1, Adr.okMem, Adr.okSp, klits_k, src_lits, ksrc_lits]

theorem abar (h : Hdr) (b : BarReg) : Statement (.abar h b) := by
  intro hw; simp_all [encode, mk0, mk1, mk3, mkB, mkK1, mkK2, mkI, mkM, ok2, kok2, lit1, klit1, Adr.okMem, Adr.okSp, klits_k, src_lits, ksrc_lits]

theorem chkc (h : Hdr) : Statement (.chkc h) := by
  intro hw; simp_all [encode, mk0, mk1, mk3, mkB, mkK1, mkK2, mkI, mkM, ok2, kok2, lit1, klit1, Adr.okMem, Adr.okSp, klits_k, src_lits, ksrc_lits]

theorem bkpt (h : Hdr) : Statement (.bkpt h) := by
  intro hw; simp_all [encode, mk0, mk1, mk3, mkB, mkK1, mkK2, mkI, mkM, ok2, kok2, lit1, klit1, Adr.okMem, Adr.okSp, klits_k, src_lits, ksrc_lits]

theorem trap (h : Hdr) (code : BitVec 26) : Statement (.trap h code) := by
  intro hw; simp_all [encode, mk0, mk1, mk3, mkB, mkK1, mkK2, mkI, mkM, ok2, kok2, lit1, klit1, Adr.okMem, Adr.okSp, klits_k, src_lits, ksrc_lits]

theorem trapSvc (h : Hdr) (n : BitVec 24) : Statement (.trapSvc h n) := by
  intro hw; simp_all [encode, mk0, mk1, mk3, mkB, mkK1, mkK2, mkI, mkM, ok2, kok2, lit1, klit1, Adr.okMem, Adr.okSp, klits_k, src_lits, ksrc_lits]

theorem pseti (h : Hdr) (d : PReg) (a b : Src) (c : PReg) (cmp : Cmp) (n : Bool) : Statement (.pseti h d a b c cmp n) := by
  intro hw; simp_all [encode, mk0, mk1, mk3, mkB, mkK1, mkK2, mkI, mkM, ok2, kok2, lit1, klit1, Adr.okMem, Adr.okSp, klits_k, src_lits, ksrc_lits]

theorem psetiImm (h : Hdr) (d : PReg) (a : VReg) (cmp : Cmp) (n : Bool) (imm : Imm) : Statement (.psetiImm h d a cmp n imm) := by
  intro hw; simp_all [encode, mk0, mk1, mk3, mkB, mkK1, mkK2, mkI, mkM, ok2, kok2, lit1, klit1, Adr.okMem, Adr.okSp, klits_k, src_lits, ksrc_lits]

theorem psetf (h : Hdr) (d : PReg) (a b : Src) (c : PReg) (cmp : Cmp) : Statement (.psetf h d a b c cmp) := by
  intro hw; simp_all [encode, mk0, mk1, mk3, mkB, mkK1, mkK2, mkI, mkM, ok2, kok2, lit1, klit1, Adr.okMem, Adr.okSp, klits_k, src_lits, ksrc_lits]

theorem plop (h : Hdr) (d a b : PReg) (lut : BitVec 4) : Statement (.plop h d a b lut) := by
  intro hw; simp_all [encode, mk0, mk1, mk3, mkB, mkK1, mkK2, mkI, mkM, ok2, kok2, lit1, klit1, Adr.okMem, Adr.okSp, klits_k, src_lits, ksrc_lits]

theorem pmov (h : Hdr) (op : PmovOp) : Statement (.pmov h op) := by
  intro hw; cases op <;> simp_all [encode, mk0, mk1, mk3, mkB, mkK1, mkK2, mkI, mkM, ok2, kok2, lit1, klit1, Adr.okMem, Adr.okSp, klits_k, src_lits, ksrc_lits]

theorem vote (h : Hdr) (op : VoteOp) (a : PReg) : Statement (.vote h op a) := by
  intro hw; cases op <;> simp_all [encode, mk0, mk1, mk3, mkB, mkK1, mkK2, mkI, mkM, ok2, kok2, lit1, klit1, Adr.okMem, Adr.okSp, klits_k, src_lits, ksrc_lits]

theorem kmov (h : Hdr) (d : KReg) (a : KSrc) (w64 : Bool) : Statement (.kmov h d a w64) := by
  intro hw; simp_all [encode, mk0, mk1, mk3, mkB, mkK1, mkK2, mkI, mkM, ok2, kok2, lit1, klit1, Adr.okMem, Adr.okSp, klits_k, src_lits, ksrc_lits]

theorem kmovImm (h : Hdr) (d : KReg) (imm : Imm) : Statement (.kmovImm h d imm) := by
  intro hw; simp_all [encode, mk0, mk1, mk3, mkB, mkK1, mkK2, mkI, mkM, ok2, kok2, lit1, klit1, Adr.okMem, Adr.okSp, klits_k, src_lits, ksrc_lits]

theorem kadd (h : Hdr) (d : KReg) (a b : KSrc) (n sat w64 : Bool) : Statement (.kadd h d a b n sat w64) := by
  intro hw; simp_all [encode, mk0, mk1, mk3, mkB, mkK1, mkK2, mkI, mkM, ok2, kok2, lit1, klit1, Adr.okMem, Adr.okSp, klits_k, src_lits, ksrc_lits]

theorem kaddImm (h : Hdr) (d a : KReg) (imm : Imm) : Statement (.kaddImm h d a imm) := by
  intro hw; simp_all [encode, mk0, mk1, mk3, mkB, mkK1, mkK2, mkI, mkM, ok2, kok2, lit1, klit1, Adr.okMem, Adr.okSp, klits_k, src_lits, ksrc_lits]

theorem ksub (h : Hdr) (d : KReg) (a b : KSrc) (n sat w64 : Bool) : Statement (.ksub h d a b n sat w64) := by
  intro hw; simp_all [encode, mk0, mk1, mk3, mkB, mkK1, mkK2, mkI, mkM, ok2, kok2, lit1, klit1, Adr.okMem, Adr.okSp, klits_k, src_lits, ksrc_lits]

theorem kmul (h : Hdr) (d : KReg) (a b : KSrc) (n sat : Bool) : Statement (.kmul h d a b n sat) := by
  intro hw; simp_all [encode, mk0, mk1, mk3, mkB, mkK1, mkK2, mkI, mkM, ok2, kok2, lit1, klit1, Adr.okMem, Adr.okSp, klits_k, src_lits, ksrc_lits]

theorem kmin (h : Hdr) (d : KReg) (a b : KSrc) (n : Bool) : Statement (.kmin h d a b n) := by
  intro hw; simp_all [encode, mk0, mk1, mk3, mkB, mkK1, mkK2, mkI, mkM, ok2, kok2, lit1, klit1, Adr.okMem, Adr.okSp, klits_k, src_lits, ksrc_lits]

theorem kmax (h : Hdr) (d : KReg) (a b : KSrc) (n : Bool) : Statement (.kmax h d a b n) := by
  intro hw; simp_all [encode, mk0, mk1, mk3, mkB, mkK1, mkK2, mkI, mkM, ok2, kok2, lit1, klit1, Adr.okMem, Adr.okSp, klits_k, src_lits, ksrc_lits]

theorem kand (h : Hdr) (d : KReg) (a b : KSrc) : Statement (.kand h d a b) := by
  intro hw; simp_all [encode, mk0, mk1, mk3, mkB, mkK1, mkK2, mkI, mkM, ok2, kok2, lit1, klit1, Adr.okMem, Adr.okSp, klits_k, src_lits, ksrc_lits]

theorem kor (h : Hdr) (d : KReg) (a b : KSrc) : Statement (.kor h d a b) := by
  intro hw; simp_all [encode, mk0, mk1, mk3, mkB, mkK1, mkK2, mkI, mkM, ok2, kok2, lit1, klit1, Adr.okMem, Adr.okSp, klits_k, src_lits, ksrc_lits]

theorem kxor (h : Hdr) (d : KReg) (a b : KSrc) : Statement (.kxor h d a b) := by
  intro hw; simp_all [encode, mk0, mk1, mk3, mkB, mkK1, mkK2, mkI, mkM, ok2, kok2, lit1, klit1, Adr.okMem, Adr.okSp, klits_k, src_lits, ksrc_lits]

theorem kshl (h : Hdr) (d : KReg) (a b : KSrc) (n sat : Bool) : Statement (.kshl h d a b n sat) := by
  intro hw; simp_all [encode, mk0, mk1, mk3, mkB, mkK1, mkK2, mkI, mkM, ok2, kok2, lit1, klit1, Adr.okMem, Adr.okSp, klits_k, src_lits, ksrc_lits]

theorem kshr (h : Hdr) (d : KReg) (a b : KSrc) : Statement (.kshr h d a b) := by
  intro hw; simp_all [encode, mk0, mk1, mk3, mkB, mkK1, mkK2, mkI, mkM, ok2, kok2, lit1, klit1, Adr.okMem, Adr.okSp, klits_k, src_lits, ksrc_lits]

theorem ksar (h : Hdr) (d : KReg) (a b : KSrc) : Statement (.ksar h d a b) := by
  intro hw; simp_all [encode, mk0, mk1, mk3, mkB, mkK1, mkK2, mkI, mkM, ok2, kok2, lit1, klit1, Adr.okMem, Adr.okSp, klits_k, src_lits, ksrc_lits]

theorem kcmp (h : Hdr) (d : KReg) (a b : KSrc) (cmp : Cmp) (n : Bool) : Statement (.kcmp h d a b cmp n) := by
  intro hw; simp_all [encode, mk0, mk1, mk3, mkB, mkK1, mkK2, mkI, mkM, ok2, kok2, lit1, klit1, Adr.okMem, Adr.okSp, klits_k, src_lits, ksrc_lits]

theorem ksel (h : Hdr) (d : KReg) (a b : KSrc) (c : KReg) : Statement (.ksel h d a b c) := by
  intro hw; simp_all [encode, mk0, mk1, mk3, mkB, mkK1, mkK2, mkI, mkM, ok2, kok2, lit1, klit1, Adr.okMem, Adr.okSp, klits_k, src_lits, ksrc_lits]

theorem mov (h : Hdr) (d : VReg) (a : Src) (w64 : Bool) : Statement (.mov h d a w64) := by
  intro hw; simp_all [encode, mk0, mk1, mk3, mkB, mkK1, mkK2, mkI, mkM, ok2, kok2, lit1, klit1, Adr.okMem, Adr.okSp, klits_k, src_lits, ksrc_lits]

theorem movImm (h : Hdr) (d : VReg) (imm : Imm) : Statement (.movImm h d imm) := by
  intro hw; simp_all [encode, mk0, mk1, mk3, mkB, mkK1, mkK2, mkI, mkM, ok2, kok2, lit1, klit1, Adr.okMem, Adr.okSp, klits_k, src_lits, ksrc_lits]

theorem sel (h : Hdr) (d : VReg) (a b : Src) (c : PReg) : Statement (.sel h d a b c) := by
  intro hw; simp_all [encode, mk0, mk1, mk3, mkB, mkK1, mkK2, mkI, mkM, ok2, kok2, lit1, klit1, Adr.okMem, Adr.okSp, klits_k, src_lits, ksrc_lits]

theorem iadd (h : Hdr) (d : VReg) (a b : Src) (n sat : Bool) : Statement (.iadd h d a b n sat) := by
  intro hw; simp_all [encode, mk0, mk1, mk3, mkB, mkK1, mkK2, mkI, mkM, ok2, kok2, lit1, klit1, Adr.okMem, Adr.okSp, klits_k, src_lits, ksrc_lits]

theorem iaddImm (h : Hdr) (d a : VReg) (imm : Imm) : Statement (.iaddImm h d a imm) := by
  intro hw; simp_all [encode, mk0, mk1, mk3, mkB, mkK1, mkK2, mkI, mkM, ok2, kok2, lit1, klit1, Adr.okMem, Adr.okSp, klits_k, src_lits, ksrc_lits]

theorem isub (h : Hdr) (d : VReg) (a b : Src) (n sat : Bool) : Statement (.isub h d a b n sat) := by
  intro hw; simp_all [encode, mk0, mk1, mk3, mkB, mkK1, mkK2, mkI, mkM, ok2, kok2, lit1, klit1, Adr.okMem, Adr.okSp, klits_k, src_lits, ksrc_lits]

theorem imul (h : Hdr) (d : VReg) (a b : Src) (n sat : Bool) : Statement (.imul h d a b n sat) := by
  intro hw; simp_all [encode, mk0, mk1, mk3, mkB, mkK1, mkK2, mkI, mkM, ok2, kok2, lit1, klit1, Adr.okMem, Adr.okSp, klits_k, src_lits, ksrc_lits]

theorem imulImm (h : Hdr) (d a : VReg) (imm : Imm) : Statement (.imulImm h d a imm) := by
  intro hw; simp_all [encode, mk0, mk1, mk3, mkB, mkK1, mkK2, mkI, mkM, ok2, kok2, lit1, klit1, Adr.okMem, Adr.okSp, klits_k, src_lits, ksrc_lits]

theorem imulh (h : Hdr) (d : VReg) (a b : Src) (n : Bool) : Statement (.imulh h d a b n) := by
  intro hw; simp_all [encode, mk0, mk1, mk3, mkB, mkK1, mkK2, mkI, mkM, ok2, kok2, lit1, klit1, Adr.okMem, Adr.okSp, klits_k, src_lits, ksrc_lits]

theorem imad (h : Hdr) (d : VReg) (a b : Src) (c : VReg) (n sat : Bool) : Statement (.imad h d a b c n sat) := by
  intro hw; simp_all [encode, mk0, mk1, mk3, mkB, mkK1, mkK2, mkI, mkM, ok2, kok2, lit1, klit1, Adr.okMem, Adr.okSp, klits_k, src_lits, ksrc_lits]

theorem imadw (h : Hdr) (d : VReg) (a b : Src) (c : VReg) (n sat : Bool) : Statement (.imadw h d a b c n sat) := by
  intro hw; simp_all [encode, mk0, mk1, mk3, mkB, mkK1, mkK2, mkI, mkM, ok2, kok2, lit1, klit1, Adr.okMem, Adr.okSp, klits_k, src_lits, ksrc_lits]

theorem imin (h : Hdr) (d : VReg) (a b : Src) (n : Bool) : Statement (.imin h d a b n) := by
  intro hw; simp_all [encode, mk0, mk1, mk3, mkB, mkK1, mkK2, mkI, mkM, ok2, kok2, lit1, klit1, Adr.okMem, Adr.okSp, klits_k, src_lits, ksrc_lits]

theorem imax (h : Hdr) (d : VReg) (a b : Src) (n : Bool) : Statement (.imax h d a b n) := by
  intro hw; simp_all [encode, mk0, mk1, mk3, mkB, mkK1, mkK2, mkI, mkM, ok2, kok2, lit1, klit1, Adr.okMem, Adr.okSp, klits_k, src_lits, ksrc_lits]

theorem iabs (h : Hdr) (d : VReg) (a : Src) (sat : Bool) : Statement (.iabs h d a sat) := by
  intro hw; simp_all [encode, mk0, mk1, mk3, mkB, mkK1, mkK2, mkI, mkM, ok2, kok2, lit1, klit1, Adr.okMem, Adr.okSp, klits_k, src_lits, ksrc_lits]

theorem ineg (h : Hdr) (d : VReg) (a : Src) (sat : Bool) : Statement (.ineg h d a sat) := by
  intro hw; simp_all [encode, mk0, mk1, mk3, mkB, mkK1, mkK2, mkI, mkM, ok2, kok2, lit1, klit1, Adr.okMem, Adr.okSp, klits_k, src_lits, ksrc_lits]

theorem iand (h : Hdr) (d : VReg) (a b : Src) : Statement (.iand h d a b) := by
  intro hw; simp_all [encode, mk0, mk1, mk3, mkB, mkK1, mkK2, mkI, mkM, ok2, kok2, lit1, klit1, Adr.okMem, Adr.okSp, klits_k, src_lits, ksrc_lits]

theorem iandImm (h : Hdr) (d a : VReg) (imm : Imm) : Statement (.iandImm h d a imm) := by
  intro hw; simp_all [encode, mk0, mk1, mk3, mkB, mkK1, mkK2, mkI, mkM, ok2, kok2, lit1, klit1, Adr.okMem, Adr.okSp, klits_k, src_lits, ksrc_lits]

theorem ior (h : Hdr) (d : VReg) (a b : Src) : Statement (.ior h d a b) := by
  intro hw; simp_all [encode, mk0, mk1, mk3, mkB, mkK1, mkK2, mkI, mkM, ok2, kok2, lit1, klit1, Adr.okMem, Adr.okSp, klits_k, src_lits, ksrc_lits]

theorem iorImm (h : Hdr) (d a : VReg) (imm : Imm) : Statement (.iorImm h d a imm) := by
  intro hw; simp_all [encode, mk0, mk1, mk3, mkB, mkK1, mkK2, mkI, mkM, ok2, kok2, lit1, klit1, Adr.okMem, Adr.okSp, klits_k, src_lits, ksrc_lits]

theorem ixor (h : Hdr) (d : VReg) (a b : Src) : Statement (.ixor h d a b) := by
  intro hw; simp_all [encode, mk0, mk1, mk3, mkB, mkK1, mkK2, mkI, mkM, ok2, kok2, lit1, klit1, Adr.okMem, Adr.okSp, klits_k, src_lits, ksrc_lits]

theorem ixorImm (h : Hdr) (d a : VReg) (imm : Imm) : Statement (.ixorImm h d a imm) := by
  intro hw; simp_all [encode, mk0, mk1, mk3, mkB, mkK1, mkK2, mkI, mkM, ok2, kok2, lit1, klit1, Adr.okMem, Adr.okSp, klits_k, src_lits, ksrc_lits]

theorem inot (h : Hdr) (d : VReg) (a : Src) : Statement (.inot h d a) := by
  intro hw; simp_all [encode, mk0, mk1, mk3, mkB, mkK1, mkK2, mkI, mkM, ok2, kok2, lit1, klit1, Adr.okMem, Adr.okSp, klits_k, src_lits, ksrc_lits]

theorem ishl (h : Hdr) (d : VReg) (a b : Src) (n sat : Bool) : Statement (.ishl h d a b n sat) := by
  intro hw; simp_all [encode, mk0, mk1, mk3, mkB, mkK1, mkK2, mkI, mkM, ok2, kok2, lit1, klit1, Adr.okMem, Adr.okSp, klits_k, src_lits, ksrc_lits]

theorem ishlImm (h : Hdr) (d a : VReg) (imm : Imm) : Statement (.ishlImm h d a imm) := by
  intro hw; simp_all [encode, mk0, mk1, mk3, mkB, mkK1, mkK2, mkI, mkM, ok2, kok2, lit1, klit1, Adr.okMem, Adr.okSp, klits_k, src_lits, ksrc_lits]

theorem ishr (h : Hdr) (d : VReg) (a b : Src) : Statement (.ishr h d a b) := by
  intro hw; simp_all [encode, mk0, mk1, mk3, mkB, mkK1, mkK2, mkI, mkM, ok2, kok2, lit1, klit1, Adr.okMem, Adr.okSp, klits_k, src_lits, ksrc_lits]

theorem ishrImm (h : Hdr) (d a : VReg) (imm : Imm) : Statement (.ishrImm h d a imm) := by
  intro hw; simp_all [encode, mk0, mk1, mk3, mkB, mkK1, mkK2, mkI, mkM, ok2, kok2, lit1, klit1, Adr.okMem, Adr.okSp, klits_k, src_lits, ksrc_lits]

theorem isar (h : Hdr) (d : VReg) (a b : Src) : Statement (.isar h d a b) := by
  intro hw; simp_all [encode, mk0, mk1, mk3, mkB, mkK1, mkK2, mkI, mkM, ok2, kok2, lit1, klit1, Adr.okMem, Adr.okSp, klits_k, src_lits, ksrc_lits]

theorem isarImm (h : Hdr) (d a : VReg) (imm : Imm) : Statement (.isarImm h d a imm) := by
  intro hw; simp_all [encode, mk0, mk1, mk3, mkB, mkK1, mkK2, mkI, mkM, ok2, kok2, lit1, klit1, Adr.okMem, Adr.okSp, klits_k, src_lits, ksrc_lits]

theorem irot (h : Hdr) (d : VReg) (a b : Src) : Statement (.irot h d a b) := by
  intro hw; simp_all [encode, mk0, mk1, mk3, mkB, mkK1, mkK2, mkI, mkM, ok2, kok2, lit1, klit1, Adr.okMem, Adr.okSp, klits_k, src_lits, ksrc_lits]

theorem popc (h : Hdr) (d : VReg) (a : Src) : Statement (.popc h d a) := by
  intro hw; simp_all [encode, mk0, mk1, mk3, mkB, mkK1, mkK2, mkI, mkM, ok2, kok2, lit1, klit1, Adr.okMem, Adr.okSp, klits_k, src_lits, ksrc_lits]

theorem clz (h : Hdr) (d : VReg) (a : Src) : Statement (.clz h d a) := by
  intro hw; simp_all [encode, mk0, mk1, mk3, mkB, mkK1, mkK2, mkI, mkM, ok2, kok2, lit1, klit1, Adr.okMem, Adr.okSp, klits_k, src_lits, ksrc_lits]

theorem brev (h : Hdr) (d : VReg) (a : Src) : Statement (.brev h d a) := by
  intro hw; simp_all [encode, mk0, mk1, mk3, mkB, mkK1, mkK2, mkI, mkM, ok2, kok2, lit1, klit1, Adr.okMem, Adr.okSp, klits_k, src_lits, ksrc_lits]

theorem bfe (h : Hdr) (d : VReg) (a b : Src) (n : Bool) : Statement (.bfe h d a b n) := by
  intro hw; simp_all [encode, mk0, mk1, mk3, mkB, mkK1, mkK2, mkI, mkM, ok2, kok2, lit1, klit1, Adr.okMem, Adr.okSp, klits_k, src_lits, ksrc_lits]

theorem bfi (h : Hdr) (d : VReg) (a b : Src) (c : VReg) : Statement (.bfi h d a b c) := by
  intro hw; simp_all [encode, mk0, mk1, mk3, mkB, mkK1, mkK2, mkI, mkM, ok2, kok2, lit1, klit1, Adr.okMem, Adr.okSp, klits_k, src_lits, ksrc_lits]

theorem iadd64 (h : Hdr) (d : VReg) (a b : Src) (n sat : Bool) : Statement (.iadd64 h d a b n sat) := by
  intro hw; simp_all [encode, mk0, mk1, mk3, mkB, mkK1, mkK2, mkI, mkM, ok2, kok2, lit1, klit1, Adr.okMem, Adr.okSp, klits_k, src_lits, ksrc_lits]

theorem isub64 (h : Hdr) (d : VReg) (a b : Src) (n sat : Bool) : Statement (.isub64 h d a b n sat) := by
  intro hw; simp_all [encode, mk0, mk1, mk3, mkB, mkK1, mkK2, mkI, mkM, ok2, kok2, lit1, klit1, Adr.okMem, Adr.okSp, klits_k, src_lits, ksrc_lits]

theorem iclamp (h : Hdr) (d : VReg) (a b : Src) (c : VReg) (n : Bool) : Statement (.iclamp h d a b c n) := by
  intro hw; simp_all [encode, mk0, mk1, mk3, mkB, mkK1, mkK2, mkI, mkM, ok2, kok2, lit1, klit1, Adr.okMem, Adr.okSp, klits_k, src_lits, ksrc_lits]

theorem padd16 (h : Hdr) (d : VReg) (a b : Src) (sat sub : Bool) : Statement (.padd16 h d a b sat sub) := by
  intro hw; simp_all [encode, mk0, mk1, mk3, mkB, mkK1, mkK2, mkI, mkM, ok2, kok2, lit1, klit1, Adr.okMem, Adr.okSp, klits_k, src_lits, ksrc_lits]

theorem pmac16 (h : Hdr) (d : VReg) (a b : Src) (c : VReg) : Statement (.pmac16 h d a b c) := by
  intro hw; simp_all [encode, mk0, mk1, mk3, mkB, mkK1, mkK2, mkI, mkM, ok2, kok2, lit1, klit1, Adr.okMem, Adr.okSp, klits_k, src_lits, ksrc_lits]

theorem pshr (h : Hdr) (d : VReg) (a b : Src) (hi : Bool) : Statement (.pshr h d a b hi) := by
  intro hw; simp_all [encode, mk0, mk1, mk3, mkB, mkK1, mkK2, mkI, mkM, ok2, kok2, lit1, klit1, Adr.okMem, Adr.okSp, klits_k, src_lits, ksrc_lits]

theorem hash (h : Hdr) (d : VReg) (a b : Src) : Statement (.hash h d a b) := by
  intro hw; simp_all [encode, mk0, mk1, mk3, mkB, mkK1, mkK2, mkI, mkM, ok2, kok2, lit1, klit1, Adr.okMem, Adr.okSp, klits_k, src_lits, ksrc_lits]

theorem lxch (h : Hdr) (d : VReg) (a b : Src) (seg : BitVec 3) (mode : LxMode) : Statement (.lxch h d a b seg mode) := by
  intro hw; simp_all [encode, mk0, mk1, mk3, mkB, mkK1, mkK2, mkI, mkM, ok2, kok2, lit1, klit1, Adr.okMem, Adr.okSp, klits_k, src_lits, ksrc_lits]

theorem slide (h : Hdr) (d : VReg) (a b : Src) (c : KReg) : Statement (.slide h d a b c) := by
  intro hw; simp_all [encode, mk0, mk1, mk3, mkB, mkK1, mkK2, mkI, mkM, ok2, kok2, lit1, klit1, Adr.okMem, Adr.okSp, klits_k, src_lits, ksrc_lits]

theorem red (h : Hdr) (d : VReg) (a : Src) (seg : BitVec 3) (op : RedOp) (n sat : Bool) : Statement (.red h d a seg op n sat) := by
  intro hw; simp_all [encode, mk0, mk1, mk3, mkB, mkK1, mkK2, mkI, mkM, ok2, kok2, lit1, klit1, Adr.okMem, Adr.okSp, klits_k, src_lits, ksrc_lits]

theorem scan (h : Hdr) (d : VReg) (a : Src) (seg : BitVec 3) (excl : Bool) (op : RedOp) (n sat : Bool) : Statement (.scan h d a seg excl op n sat) := by
  intro hw; simp_all [encode, mk0, mk1, mk3, mkB, mkK1, mkK2, mkI, mkM, ok2, kok2, lit1, klit1, Adr.okMem, Adr.okSp, klits_k, src_lits, ksrc_lits]

theorem bcast (h : Hdr) (d : VReg) (a b : Src) : Statement (.bcast h d a b) := by
  intro hw; simp_all [encode, mk0, mk1, mk3, mkB, mkK1, mkK2, mkI, mkM, ok2, kok2, lit1, klit1, Adr.okMem, Adr.okSp, klits_k, src_lits, ksrc_lits]

theorem krdl (h : Hdr) (d : KReg) (a : VReg) (b : Src) : Statement (.krdl h d a b) := by
  intro hw; simp_all [encode, mk0, mk1, mk3, mkB, mkK1, mkK2, mkI, mkM, ok2, kok2, lit1, klit1, Adr.okMem, Adr.okSp, klits_k, src_lits, ksrc_lits]

theorem fadd (h : Hdr) (d : VReg) (a b : Src) (rm : Rm) (sat : Bool) : Statement (.fadd h d a b rm sat) := by
  intro hw; simp_all [encode, mk0, mk1, mk3, mkB, mkK1, mkK2, mkI, mkM, ok2, kok2, lit1, klit1, Adr.okMem, Adr.okSp, klits_k, src_lits, ksrc_lits]

theorem fsub (h : Hdr) (d : VReg) (a b : Src) (rm : Rm) (sat : Bool) : Statement (.fsub h d a b rm sat) := by
  intro hw; simp_all [encode, mk0, mk1, mk3, mkB, mkK1, mkK2, mkI, mkM, ok2, kok2, lit1, klit1, Adr.okMem, Adr.okSp, klits_k, src_lits, ksrc_lits]

theorem fmul (h : Hdr) (d : VReg) (a b : Src) (rm : Rm) (sat : Bool) : Statement (.fmul h d a b rm sat) := by
  intro hw; simp_all [encode, mk0, mk1, mk3, mkB, mkK1, mkK2, mkI, mkM, ok2, kok2, lit1, klit1, Adr.okMem, Adr.okSp, klits_k, src_lits, ksrc_lits]

theorem ffma (h : Hdr) (d : VReg) (a b : Src) (c : VReg) (rm : Rm) (sat : Bool) : Statement (.ffma h d a b c rm sat) := by
  intro hw; simp_all [encode, mk0, mk1, mk3, mkB, mkK1, mkK2, mkI, mkM, ok2, kok2, lit1, klit1, Adr.okMem, Adr.okSp, klits_k, src_lits, ksrc_lits]

theorem fdiv (h : Hdr) (d : VReg) (a b : Src) (rm : Rm) (sat : Bool) : Statement (.fdiv h d a b rm sat) := by
  intro hw; simp_all [encode, mk0, mk1, mk3, mkB, mkK1, mkK2, mkI, mkM, ok2, kok2, lit1, klit1, Adr.okMem, Adr.okSp, klits_k, src_lits, ksrc_lits]

theorem fmin (h : Hdr) (d : VReg) (a b : Src) : Statement (.fmin h d a b) := by
  intro hw; simp_all [encode, mk0, mk1, mk3, mkB, mkK1, mkK2, mkI, mkM, ok2, kok2, lit1, klit1, Adr.okMem, Adr.okSp, klits_k, src_lits, ksrc_lits]

theorem fmax (h : Hdr) (d : VReg) (a b : Src) : Statement (.fmax h d a b) := by
  intro hw; simp_all [encode, mk0, mk1, mk3, mkB, mkK1, mkK2, mkI, mkM, ok2, kok2, lit1, klit1, Adr.okMem, Adr.okSp, klits_k, src_lits, ksrc_lits]

theorem fabs (h : Hdr) (d : VReg) (a : Src) : Statement (.fabs h d a) := by
  intro hw; simp_all [encode, mk0, mk1, mk3, mkB, mkK1, mkK2, mkI, mkM, ok2, kok2, lit1, klit1, Adr.okMem, Adr.okSp, klits_k, src_lits, ksrc_lits]

theorem fneg (h : Hdr) (d : VReg) (a : Src) : Statement (.fneg h d a) := by
  intro hw; simp_all [encode, mk0, mk1, mk3, mkB, mkK1, mkK2, mkI, mkM, ok2, kok2, lit1, klit1, Adr.okMem, Adr.okSp, klits_k, src_lits, ksrc_lits]

theorem frnd (h : Hdr) (d : VReg) (a : Src) (rm : Rm) : Statement (.frnd h d a rm) := by
  intro hw; simp_all [encode, mk0, mk1, mk3, mkB, mkK1, mkK2, mkI, mkM, ok2, kok2, lit1, klit1, Adr.okMem, Adr.okSp, klits_k, src_lits, ksrc_lits]

theorem fscale (h : Hdr) (d : VReg) (a b : Src) (rm : Rm) (sat : Bool) : Statement (.fscale h d a b rm sat) := by
  intro hw; simp_all [encode, mk0, mk1, mk3, mkB, mkK1, mkK2, mkI, mkM, ok2, kok2, lit1, klit1, Adr.okMem, Adr.okSp, klits_k, src_lits, ksrc_lits]

theorem fclass (h : Hdr) (d : VReg) (a : Src) : Statement (.fclass h d a) := by
  intro hw; simp_all [encode, mk0, mk1, mk3, mkB, mkK1, mkK2, mkI, mkM, ok2, kok2, lit1, klit1, Adr.okMem, Adr.okSp, klits_k, src_lits, ksrc_lits]

theorem frcp (h : Hdr) (d : VReg) (a : Src) (rm : Rm) (sat : Bool) : Statement (.frcp h d a rm sat) := by
  intro hw; simp_all [encode, mk0, mk1, mk3, mkB, mkK1, mkK2, mkI, mkM, ok2, kok2, lit1, klit1, Adr.okMem, Adr.okSp, klits_k, src_lits, ksrc_lits]

theorem frsq (h : Hdr) (d : VReg) (a : Src) (rm : Rm) (sat : Bool) : Statement (.frsq h d a rm sat) := by
  intro hw; simp_all [encode, mk0, mk1, mk3, mkB, mkK1, mkK2, mkI, mkM, ok2, kok2, lit1, klit1, Adr.okMem, Adr.okSp, klits_k, src_lits, ksrc_lits]

theorem fsqrt (h : Hdr) (d : VReg) (a : Src) (rm : Rm) (sat : Bool) : Statement (.fsqrt h d a rm sat) := by
  intro hw; simp_all [encode, mk0, mk1, mk3, mkB, mkK1, mkK2, mkI, mkM, ok2, kok2, lit1, klit1, Adr.okMem, Adr.okSp, klits_k, src_lits, ksrc_lits]

theorem fexp2 (h : Hdr) (d : VReg) (a : Src) (rm : Rm) (sat : Bool) : Statement (.fexp2 h d a rm sat) := by
  intro hw; simp_all [encode, mk0, mk1, mk3, mkB, mkK1, mkK2, mkI, mkM, ok2, kok2, lit1, klit1, Adr.okMem, Adr.okSp, klits_k, src_lits, ksrc_lits]

theorem flog2 (h : Hdr) (d : VReg) (a : Src) (rm : Rm) (sat : Bool) : Statement (.flog2 h d a rm sat) := by
  intro hw; simp_all [encode, mk0, mk1, mk3, mkB, mkK1, mkK2, mkI, mkM, ok2, kok2, lit1, klit1, Adr.okMem, Adr.okSp, klits_k, src_lits, ksrc_lits]

theorem fsin (h : Hdr) (d : VReg) (a : Src) (rm : Rm) (sat : Bool) : Statement (.fsin h d a rm sat) := by
  intro hw; simp_all [encode, mk0, mk1, mk3, mkB, mkK1, mkK2, mkI, mkM, ok2, kok2, lit1, klit1, Adr.okMem, Adr.okSp, klits_k, src_lits, ksrc_lits]

theorem fcos (h : Hdr) (d : VReg) (a : Src) (rm : Rm) (sat : Bool) : Statement (.fcos h d a rm sat) := by
  intro hw; simp_all [encode, mk0, mk1, mk3, mkB, mkK1, mkK2, mkI, mkM, ok2, kok2, lit1, klit1, Adr.okMem, Adr.okSp, klits_k, src_lits, ksrc_lits]

theorem hadd2 (h : Hdr) (d : VReg) (a b : Src) (rm : Rm) (sat f16 : Bool) : Statement (.hadd2 h d a b rm sat f16) := by
  intro hw; simp_all [encode, mk0, mk1, mk3, mkB, mkK1, mkK2, mkI, mkM, ok2, kok2, lit1, klit1, Adr.okMem, Adr.okSp, klits_k, src_lits, ksrc_lits]

theorem hsub2 (h : Hdr) (d : VReg) (a b : Src) (rm : Rm) (sat f16 : Bool) : Statement (.hsub2 h d a b rm sat f16) := by
  intro hw; simp_all [encode, mk0, mk1, mk3, mkB, mkK1, mkK2, mkI, mkM, ok2, kok2, lit1, klit1, Adr.okMem, Adr.okSp, klits_k, src_lits, ksrc_lits]

theorem hmul2 (h : Hdr) (d : VReg) (a b : Src) (rm : Rm) (sat f16 : Bool) : Statement (.hmul2 h d a b rm sat f16) := by
  intro hw; simp_all [encode, mk0, mk1, mk3, mkB, mkK1, mkK2, mkI, mkM, ok2, kok2, lit1, klit1, Adr.okMem, Adr.okSp, klits_k, src_lits, ksrc_lits]

theorem hfma2 (h : Hdr) (d : VReg) (a b : Src) (c : VReg) (rm : Rm) (sat f16 : Bool) : Statement (.hfma2 h d a b c rm sat f16) := by
  intro hw; simp_all [encode, mk0, mk1, mk3, mkB, mkK1, mkK2, mkI, mkM, ok2, kok2, lit1, klit1, Adr.okMem, Adr.okSp, klits_k, src_lits, ksrc_lits]

theorem hmin2 (h : Hdr) (d : VReg) (a b : Src) (f16 : Bool) : Statement (.hmin2 h d a b f16) := by
  intro hw; simp_all [encode, mk0, mk1, mk3, mkB, mkK1, mkK2, mkI, mkM, ok2, kok2, lit1, klit1, Adr.okMem, Adr.okSp, klits_k, src_lits, ksrc_lits]

theorem hmax2 (h : Hdr) (d : VReg) (a b : Src) (f16 : Bool) : Statement (.hmax2 h d a b f16) := by
  intro hw; simp_all [encode, mk0, mk1, mk3, mkB, mkK1, mkK2, mkI, mkM, ok2, kok2, lit1, klit1, Adr.okMem, Adr.okSp, klits_k, src_lits, ksrc_lits]

theorem hdot2 (h : Hdr) (d : VReg) (a b : Src) (c : VReg) (rm : Rm) (sat f16 : Bool) : Statement (.hdot2 h d a b c rm sat f16) := by
  intro hw; simp_all [encode, mk0, mk1, mk3, mkB, mkK1, mkK2, mkI, mkM, ok2, kok2, lit1, klit1, Adr.okMem, Adr.okSp, klits_k, src_lits, ksrc_lits]

theorem cvt (h : Hdr) (d : VReg) (a : Src) (dfmt sfmt : Fmt) (spos : BitVec 3) (rm : Rm) (sat : Bool) : Statement (.cvt h d a dfmt sfmt spos rm sat) := by
  intro hw; simp_all [encode, mk0, mk1, mk3, mkB, mkK1, mkK2, mkI, mkM, ok2, kok2, lit1, klit1, Adr.okMem, Adr.okSp, klits_k, src_lits, ksrc_lits]

theorem cvt2 (h : Hdr) (d : VReg) (a b : Src) (dfmt sfmt : Fmt) (dpos : BitVec 2) (rm : Rm) (sat : Bool) : Statement (.cvt2 h d a b dfmt sfmt dpos rm sat) := by
  intro hw; simp_all [encode, mk0, mk1, mk3, mkB, mkK1, mkK2, mkI, mkM, ok2, kok2, lit1, klit1, Adr.okMem, Adr.okSp, klits_k, src_lits, ksrc_lits]

theorem ld (h : Hdr) (sz : Sz) (d : VReg) (adr : Adr) (ann : Option Scope) (pf : Bool) : Statement (.ld h sz d adr ann pf) := by
  intro hw; simp_all [encode, mk0, mk1, mk3, mkB, mkK1, mkK2, mkI, mkM, ok2, kok2, lit1, klit1, Adr.okMem, Adr.okSp, klits_k, src_lits, ksrc_lits]

theorem st (h : Hdr) (sz : Sz) (d : VReg) (adr : Adr) (ann : Option Scope) : Statement (.st h sz d adr ann) := by
  intro hw; simp_all [encode, mk0, mk1, mk3, mkB, mkK1, mkK2, mkI, mkM, ok2, kok2, lit1, klit1, Adr.okMem, Adr.okSp, klits_k, src_lits, ksrc_lits]

theorem lds (h : Hdr) (sz : Sz) (d : VReg) (adr : Adr) (ann : Option Scope) : Statement (.lds h sz d adr ann) := by
  intro hw; simp_all [encode, mk0, mk1, mk3, mkB, mkK1, mkK2, mkI, mkM, ok2, kok2, lit1, klit1, Adr.okMem, Adr.okSp, klits_k, src_lits, ksrc_lits]

theorem sts (h : Hdr) (sz : Sz) (d : VReg) (adr : Adr) (ann : Option Scope) : Statement (.sts h sz d adr ann) := by
  intro hw; simp_all [encode, mk0, mk1, mk3, mkB, mkK1, mkK2, mkI, mkM, ok2, kok2, lit1, klit1, Adr.okMem, Adr.okSp, klits_k, src_lits, ksrc_lits]

theorem ldk (h : Hdr) (w64 : Bool) (d : KReg) (adr : Adr) (ann : Option Scope) : Statement (.ldk h w64 d adr ann) := by
  intro hw; simp_all [encode, mk0, mk1, mk3, mkB, mkK1, mkK2, mkI, mkM, ok2, kok2, lit1, klit1, Adr.okMem, Adr.okSp, klits_k, src_lits, ksrc_lits]

theorem pref (h : Hdr) (l2 : Bool) (adr : Adr) : Statement (.pref h l2 adr) := by
  intro hw; simp_all [encode, mk0, mk1, mk3, mkB, mkK1, mkK2, mkI, mkM, ok2, kok2, lit1, klit1, Adr.okMem, Adr.okSp, klits_k, src_lits, ksrc_lits]

theorem cctl (h : Hdr) (op : CctlOp) : Statement (.cctl h op) := by
  intro hw; cases op <;> simp_all [encode, mk0, mk1, mk3, mkB, mkK1, mkK2, mkI, mkM, ok2, kok2, lit1, klit1, Adr.okMem, Adr.okSp, klits_k, src_lits, ksrc_lits]

theorem fence (h : Hdr) (scope : Scope) : Statement (.fence h scope) := by
  intro hw; simp_all [encode, mk0, mk1, mk3, mkB, mkK1, mkK2, mkI, mkM, ok2, kok2, lit1, klit1, Adr.okMem, Adr.okSp, klits_k, src_lits, ksrc_lits]

theorem qfence (h : Hdr) (mask : Byte) (scope : Scope) : Statement (.qfence h mask scope) := by
  intro hw; simp_all [encode, mk0, mk1, mk3, mkB, mkK1, mkK2, mkI, mkM, ok2, kok2, lit1, klit1, Adr.okMem, Adr.okSp, klits_k, src_lits, ksrc_lits]

theorem atom (h : Hdr) (op : AtomOp) (ty : AtomTy) (d : VReg) (a b : Src) (c : VReg) (ord : Order) (scope : Scope) : Statement (.atom h op ty d a b c ord scope) := by
  intro hw; simp_all [encode, mk0, mk1, mk3, mkB, mkK1, mkK2, mkI, mkM, ok2, kok2, lit1, klit1, Adr.okMem, Adr.okSp, klits_k, src_lits, ksrc_lits]

theorem atomFadd (h : Hdr) (d : VReg) (a b : Src) (ord : Order) (scope : Scope) : Statement (.atomFadd h d a b ord scope) := by
  intro hw; simp_all [encode, mk0, mk1, mk3, mkB, mkK1, mkK2, mkI, mkM, ok2, kok2, lit1, klit1, Adr.okMem, Adr.okSp, klits_k, src_lits, ksrc_lits]

theorem atoms (h : Hdr) (op : AtomOp) (n : Bool) (d : VReg) (a b : Src) (c : VReg) (ord : Order) : Statement (.atoms h op n d a b c ord) := by
  intro hw; simp_all [encode, mk0, mk1, mk3, mkB, mkK1, mkK2, mkI, mkM, ok2, kok2, lit1, klit1, Adr.okMem, Adr.okSp, klits_k, src_lits, ksrc_lits]

theorem atomsFadd (h : Hdr) (d : VReg) (a b : Src) (ord : Order) : Statement (.atomsFadd h d a b ord) := by
  intro hw; simp_all [encode, mk0, mk1, mk3, mkB, mkK1, mkK2, mkI, mkM, ok2, kok2, lit1, klit1, Adr.okMem, Adr.okSp, klits_k, src_lits, ksrc_lits]

theorem shape (h : Hdr) (sh : ShReg) (a b : KSrc) (fmt : BitVec 5) : Statement (.shape h sh a b fmt) := by
  intro hw; simp_all [encode, mk0, mk1, mk3, mkB, mkK1, mkK2, mkI, mkM, ok2, kok2, lit1, klit1, Adr.okMem, Adr.okSp, klits_k, src_lits, ksrc_lits]

theorem shext (h : Hdr) (sh : ShReg) (a : KSrc) : Statement (.shext h sh a) := by
  intro hw; simp_all [encode, mk0, mk1, mk3, mkB, mkK1, mkK2, mkI, mkM, ok2, kok2, lit1, klit1, Adr.okMem, Adr.okSp, klits_k, src_lits, ksrc_lits]

theorem shq (h : Hdr) (d : KReg) (sh : ShReg) : Statement (.shq h d sh) := by
  intro hw; simp_all [encode, mk0, mk1, mk3, mkB, mkK1, mkK2, mkI, mkM, ok2, kok2, lit1, klit1, Adr.okMem, Adr.okSp, klits_k, src_lits, ksrc_lits]

theorem wbld (h : Hdr) (a b : KSrc) (slot : BitVec 6) (ch : BitVec 2) : Statement (.wbld h a b slot ch) := by
  intro hw; simp_all [encode, mk0, mk1, mk3, mkB, mkK1, mkK2, mkI, mkM, ok2, kok2, lit1, klit1, Adr.okMem, Adr.okSp, klits_k, src_lits, ksrc_lits]

theorem mma (h : Hdr) (f : FrameReg) (a b : KSrc) (sh : ShReg) (pk : KReg) (twin z : Bool) : Statement (.mma h f a b sh pk twin z) := by
  intro hw; simp_all [encode, mk0, mk1, mk3, mkB, mkK1, mkK2, mkI, mkM, ok2, kok2, lit1, klit1, Adr.okMem, Adr.okSp, klits_k, src_lits, ksrc_lits]

theorem accrd (h : Hdr) (d : VReg) (f : FrameReg) (b : Src) (w4 : Bool) : Statement (.accrd h d f b w4) := by
  intro hw; simp_all [encode, mk0, mk1, mk3, mkB, mkK1, mkK2, mkI, mkM, ok2, kok2, lit1, klit1, Adr.okMem, Adr.okSp, klits_k, src_lits, ksrc_lits]

theorem accwr (h : Hdr) (f : FrameReg) (a b : Src) : Statement (.accwr h f a b) := by
  intro hw; simp_all [encode, mk0, mk1, mk3, mkB, mkK1, mkK2, mkI, mkM, ok2, kok2, lit1, klit1, Adr.okMem, Adr.okSp, klits_k, src_lits, ksrc_lits]

theorem accclr (h : Hdr) (f : FrameReg) : Statement (.accclr h f) := by
  intro hw; simp_all [encode, mk0, mk1, mk3, mkB, mkK1, mkK2, mkI, mkM, ok2, kok2, lit1, klit1, Adr.okMem, Adr.okSp, klits_k, src_lits, ksrc_lits]

theorem wmark (h : Hdr) (d : KReg) (f : FrameReg) : Statement (.wmark h d f) := by
  intro hw; simp_all [encode, mk0, mk1, mk3, mkB, mkK1, mkK2, mkI, mkM, ok2, kok2, lit1, klit1, Adr.okMem, Adr.okSp, klits_k, src_lits, ksrc_lits]

theorem drnld (h : Hdr) (n : BitVec 5) : Statement (.drnld h n) := by
  intro hw; simp_all [encode, mk0, mk1, mk3, mkB, mkK1, mkK2, mkI, mkM, ok2, kok2, lit1, klit1, Adr.okMem, Adr.okSp, klits_k, src_lits, ksrc_lits]

theorem copy (h : Hdr) (d : KReg) (a : KReg) (b : KSrc) (ch : BitVec 2) : Statement (.copy h d a b ch) := by
  intro hw; simp_all [encode, mk0, mk1, mk3, mkB, mkK1, mkK2, mkI, mkM, ok2, kok2, lit1, klit1, Adr.okMem, Adr.okSp, klits_k, src_lits, ksrc_lits]

theorem rdwpt (h : Hdr) (d : WptDst) (ch : BitVec 2) : Statement (.rdwpt h d ch) := by
  intro hw; cases d <;> simp_all [encode, mk0, mk1, mk3, mkB, mkK1, mkK2, mkI, mkM, ok2, kok2, lit1, klit1, Adr.okMem, Adr.okSp, klits_k, src_lits, ksrc_lits]

theorem ringp (h : Hdr) (ring : BitVec 3) (op : RingOp) : Statement (.ringp h ring op) := by
  intro hw; cases op <;> simp_all [encode, mk0, mk1, mk3, mkB, mkK1, mkK2, mkI, mkM, ok2, kok2, lit1, klit1, Adr.okMem, Adr.okSp, klits_k, src_lits, ksrc_lits]

theorem ringc (h : Hdr) (ring : BitVec 3) (op : RingOp) : Statement (.ringc h ring op) := by
  intro hw; cases op <;> simp_all [encode, mk0, mk1, mk3, mkB, mkK1, mkK2, mkI, mkM, ok2, kok2, lit1, klit1, Adr.okMem, Adr.okSp, klits_k, src_lits, ksrc_lits]

theorem regacq (h : Hdr) (a : KSrc) : Statement (.regacq h a) := by
  intro hw; simp_all [encode, mk0, mk1, mk3, mkB, mkK1, mkK2, mkI, mkM, ok2, kok2, lit1, klit1, Adr.okMem, Adr.okSp, klits_k, src_lits, ksrc_lits]

theorem regrel (h : Hdr) (a : KSrc) : Statement (.regrel h a) := by
  intro hw; simp_all [encode, mk0, mk1, mk3, mkB, mkK1, mkK2, mkI, mkM, ok2, kok2, lit1, klit1, Adr.okMem, Adr.okSp, klits_k, src_lits, ksrc_lits]

theorem spawn (h : Hdr) (a b : Src) (c : VReg) : Statement (.spawn h a b c) := by
  intro hw; simp_all [encode, mk0, mk1, mk3, mkB, mkK1, mkK2, mkI, mkM, ok2, kok2, lit1, klit1, Adr.okMem, Adr.okSp, klits_k, src_lits, ksrc_lits]

theorem enq (h : Hdr) (a : Src) (mode : EnqMode) : Statement (.enq h a mode) := by
  intro hw; cases mode <;> simp_all [encode, mk0, mk1, mk3, mkB, mkK1, mkK2, mkI, mkM, ok2, kok2, lit1, klit1, Adr.okMem, Adr.okSp, klits_k, src_lits, ksrc_lits]

theorem decr (h : Hdr) (a b : Src) : Statement (.decr h a b) := by
  intro hw; simp_all [encode, mk0, mk1, mk3, mkB, mkK1, mkK2, mkI, mkM, ok2, kok2, lit1, klit1, Adr.okMem, Adr.okSp, klits_k, src_lits, ksrc_lits]

theorem waitd (h : Hdr) (a : Src) : Statement (.waitd h a) := by
  intro hw; simp_all [encode, mk0, mk1, mk3, mkB, mkK1, mkK2, mkI, mkM, ok2, kok2, lit1, klit1, Adr.okMem, Adr.okSp, klits_k, src_lits, ksrc_lits]

theorem leafq (h : Hdr) (d : VReg) (a b : Src) (sp : Bool) : Statement (.leafq h d a b sp) := by
  intro hw; simp_all [encode, mk0, mk1, mk3, mkB, mkK1, mkK2, mkI, mkM, ok2, kok2, lit1, klit1, Adr.okMem, Adr.okSp, klits_k, src_lits, ksrc_lits]

theorem fres (h : Hdr) (a b : Src) : Statement (.fres h a b) := by
  intro hw; simp_all [encode, mk0, mk1, mk3, mkB, mkK1, mkK2, mkI, mkM, ok2, kok2, lit1, klit1, Adr.okMem, Adr.okSp, klits_k, src_lits, ksrc_lits]

theorem waitf (h : Hdr) (d : VReg) (a : Src) (c : VReg) : Statement (.waitf h d a c) := by
  intro hw; simp_all [encode, mk0, mk1, mk3, mkB, mkK1, mkK2, mkI, mkM, ok2, kok2, lit1, klit1, Adr.okMem, Adr.okSp, klits_k, src_lits, ksrc_lits]

theorem testf (h : Hdr) (d : VReg) (a : Src) : Statement (.testf h d a) := by
  intro hw; simp_all [encode, mk0, mk1, mk3, mkB, mkK1, mkK2, mkI, mkM, ok2, kok2, lit1, klit1, Adr.okMem, Adr.okSp, klits_k, src_lits, ksrc_lits]

theorem cqry (h : Hdr) (d : VReg) (a b : Src) : Statement (.cqry h d a b) := by
  intro hw; simp_all [encode, mk0, mk1, mk3, mkB, mkK1, mkK2, mkI, mkM, ok2, kok2, lit1, klit1, Adr.okMem, Adr.okSp, klits_k, src_lits, ksrc_lits]

theorem dstep (h : Hdr) (d : VReg) (a : Src) : Statement (.dstep h d a) := by
  intro hw; simp_all [encode, mk0, mk1, mk3, mkB, mkK1, mkK2, mkI, mkM, ok2, kok2, lit1, klit1, Adr.okMem, Adr.okSp, klits_k, src_lits, ksrc_lits]

theorem poola (h : Hdr) (d : VReg) (a : Src) (c : PReg) : Statement (.poola h d a c) := by
  intro hw; simp_all [encode, mk0, mk1, mk3, mkB, mkK1, mkK2, mkI, mkM, ok2, kok2, lit1, klit1, Adr.okMem, Adr.okSp, klits_k, src_lits, ksrc_lits]

theorem poolf (h : Hdr) (a b : Src) : Statement (.poolf h a b) := by
  intro hw; simp_all [encode, mk0, mk1, mk3, mkB, mkK1, mkK2, mkI, mkM, ok2, kok2, lit1, klit1, Adr.okMem, Adr.okSp, klits_k, src_lits, ksrc_lits]

theorem poolft (h : Hdr) (a b : Src) : Statement (.poolft h a b) := by
  intro hw; simp_all [encode, mk0, mk1, mk3, mkB, mkK1, mkK2, mkI, mkM, ok2, kok2, lit1, klit1, Adr.okMem, Adr.okSp, klits_k, src_lits, ksrc_lits]

theorem bestupd (h : Hdr) (a b : Src) (c : VReg) : Statement (.bestupd h a b c) := by
  intro hw; simp_all [encode, mk0, mk1, mk3, mkB, mkK1, mkK2, mkI, mkM, ok2, kok2, lit1, klit1, Adr.okMem, Adr.okSp, klits_k, src_lits, ksrc_lits]

theorem dlnset (h : Hdr) (a : Src) : Statement (.dlnset h a) := by
  intro hw; simp_all [encode, mk0, mk1, mk3, mkB, mkK1, mkK2, mkI, mkM, ok2, kok2, lit1, klit1, Adr.okMem, Adr.okSp, klits_k, src_lits, ksrc_lits]

theorem dlnrd (h : Hdr) (d : KReg) : Statement (.dlnrd h d) := by
  intro hw; simp_all [encode, mk0, mk1, mk3, mkB, mkK1, mkK2, mkI, mkM, ok2, kok2, lit1, klit1, Adr.okMem, Adr.okSp, klits_k, src_lits, ksrc_lits]

theorem cancel (h : Hdr) (a : Src) : Statement (.cancel h a) := by
  intro hw; simp_all [encode, mk0, mk1, mk3, mkB, mkK1, mkK2, mkI, mkM, ok2, kok2, lit1, klit1, Adr.okMem, Adr.okSp, klits_k, src_lits, ksrc_lits]

theorem movs (h : Hdr) (sreg : BitVec 10) (a : Src) : Statement (.movs h sreg a) := by
  intro hw; simp_all [encode, mk0, mk1, mk3, mkB, mkK1, mkK2, mkI, mkM, ok2, kok2, lit1, klit1, Adr.okMem, Adr.okSp, klits_k, src_lits, ksrc_lits]

theorem movsr (h : Hdr) (d : SrDst) (sreg : BitVec 10) : Statement (.movsr h d sreg) := by
  intro hw; cases d <;> simp_all [encode, mk0, mk1, mk3, mkB, mkK1, mkK2, mkI, mkM, ok2, kok2, lit1, klit1, Adr.okMem, Adr.okSp, klits_k, src_lits, ksrc_lits]

theorem movq (h : Hdr) (d : QReg) (adr : Adr) : Statement (.movq h d adr) := by
  intro hw; simp_all [encode, mk0, mk1, mk3, mkB, mkK1, mkK2, mkI, mkM, ok2, kok2, lit1, klit1, Adr.okMem, Adr.okSp, klits_k, src_lits, ksrc_lits]

theorem tret (h : Hdr) : Statement (.tret h) := by
  intro hw; simp_all [encode, mk0, mk1, mk3, mkB, mkK1, mkK2, mkI, mkM, ok2, kok2, lit1, klit1, Adr.okMem, Adr.okSp, klits_k, src_lits, ksrc_lits]

theorem laneend (h : Hdr) : Statement (.laneend h) := by
  intro hw; simp_all [encode, mk0, mk1, mk3, mkB, mkK1, mkK2, mkI, mkM, ok2, kok2, lit1, klit1, Adr.okMem, Adr.okSp, klits_k, src_lits, ksrc_lits]

theorem pkrd (h : Hdr) (d : VReg) (a b : Src) : Statement (.pkrd h d a b) := by
  intro hw; simp_all [encode, mk0, mk1, mk3, mkB, mkK1, mkK2, mkI, mkM, ok2, kok2, lit1, klit1, Adr.okMem, Adr.okSp, klits_k, src_lits, ksrc_lits]

theorem pkwr (h : Hdr) (a b : Src) (c : VReg) : Statement (.pkwr h a b c) := by
  intro hw; simp_all [encode, mk0, mk1, mk3, mkB, mkK1, mkK2, mkI, mkM, ok2, kok2, lit1, klit1, Adr.okMem, Adr.okSp, klits_k, src_lits, ksrc_lits]

theorem copyResume (launch block ch : Nat) : Statement (.copyResume launch block ch) := by
  intro _; simp [encode]

theorem drainResume (core frame : Nat) : Statement (.drainResume core frame) := by
  intro _; simp [encode]

theorem powerGoodRelease : Statement .powerGoodRelease := by
  intro _; simp [encode]

theorem powerGoodLoss : Statement .powerGoodLoss := by
  intro _; simp [encode]

theorem railSequenceFault : Statement .railSequenceFault := by
  intro _; simp [encode]

theorem boardReset : Statement .boardReset := by
  intro _; simp [encode]

theorem perstDeassert : Statement .perstDeassert := by
  intro _; simp [encode]

theorem boot : Statement .boot := by
  intro _; simp [encode]

theorem lockstepMismatch : Statement .lockstepMismatch := by
  intro _; simp [encode]

theorem docentSafePoint : Statement .docentSafePoint := by
  intro _; simp [encode]

theorem docentQuiesceTimeout : Statement .docentQuiesceTimeout := by
  intro _; simp [encode]

theorem docentReady : Statement .docentReady := by
  intro _; simp [encode]

theorem docentReadyTimeout : Statement .docentReadyTimeout := by
  intro _; simp [encode]

theorem errorRecordWrite : Statement .errorRecordWrite := by
  intro _; simp [encode]

theorem trapRingWrite : Statement .trapRingWrite := by
  intro _; simp [encode]

theorem ctxRestoreLoad : Statement .ctxRestoreLoad := by
  intro _; simp [encode]

theorem tlbinvAll : Statement .tlbinvAll := by
  intro _; simp [encode]

theorem pwrbudWrite : Statement .pwrbudWrite := by
  intro _; simp [encode]

theorem registerWrite : Statement .registerWrite := by
  intro _; simp [encode]

theorem attest : Statement .attest := by
  intro _; simp [encode]

theorem readIdentityCertificate : Statement .readIdentityCertificate := by
  intro _; simp [encode]

theorem replaceDocent : Statement .replaceDocent := by
  intro _; simp [encode]

theorem replaceDocentAndWriteFlash : Statement .replaceDocentAndWriteFlash := by
  intro _; simp [encode]

theorem installRecoveryBundle : Statement .installRecoveryBundle := by
  intro _; simp [encode]

theorem fwmbxInvalidCommand : Statement .fwmbxInvalidCommand := by
  intro _; simp [encode]

theorem errctlWrite : Statement .errctlWrite := by
  intro _; simp [encode]

theorem errbaseWrite : Statement .errbaseWrite := by
  intro _; simp [encode]

theorem softRowRepair : Statement .softRowRepair := by
  intro _; simp [encode]

theorem hardRowRepair : Statement .hardRowRepair := by
  intro _; simp [encode]

theorem laneRemap : Statement .laneRemap := by
  intro _; simp [encode]

theorem clearPoison : Statement .clearPoison := by
  intro _; simp [encode]

theorem retrain : Statement .retrain := by
  intro _; simp [encode]

theorem mrepInvalidCommand : Statement .mrepInvalidCommand := by
  intro _; simp [encode]

theorem sdomLeave : Statement .sdomLeave := by
  intro _; simp [encode]

theorem sdomJoin : Statement .sdomJoin := by
  intro _; simp [encode]

theorem migrationStart : Statement .migrationStart := by
  intro _; simp [encode]

theorem migrationRelease : Statement .migrationRelease := by
  intro _; simp [encode]

theorem sqcfgWrite : Statement .sqcfgWrite := by
  intro _; simp [encode]

theorem sqDoorbell : Statement .sqDoorbell := by
  intro _; simp [encode]

theorem cqctlWrite : Statement .cqctlWrite := by
  intro _; simp [encode]

theorem trctlWrite : Statement .trctlWrite := by
  intro _; simp [encode]

theorem trbaseWrite : Statement .trbaseWrite := by
  intro _; simp [encode]

theorem ctxPreemptSave : Statement .ctxPreemptSave := by
  intro _; simp [encode]

theorem ctxRestore : Statement .ctxRestore := by
  intro _; simp [encode]

theorem ctxEnd : Statement .ctxEnd := by
  intro _; simp [encode]

theorem ctxRelease : Statement .ctxRelease := by
  intro _; simp [encode]

theorem ctxcmdInvalid : Statement .ctxcmdInvalid := by
  intro _; simp [encode]

theorem svcrelResume : Statement .svcrelResume := by
  intro _; simp [encode]

theorem svcrelKill : Statement .svcrelKill := by
  intro _; simp [encode]

theorem rds : Statement .rds := by
  intro _; simp [encode]

theorem rdx : Statement .rdx := by
  intro _; simp [encode]

theorem wb : Statement .wb := by
  intro _; simp [encode]

theorem cln : Statement .cln := by
  intro _; simp [encode]

theorem atomMessage : Statement .atomMessage := by
  intro _; simp [encode]

theorem wrh : Statement .wrh := by
  intro _; simp [encode]

theorem leave : Statement .leave := by
  intro _; simp [encode]

theorem join : Statement .join := by
  intro _; simp [encode]

theorem fwds : Statement .fwds := by
  intro _; simp [encode]

theorem fwdx : Statement .fwdx := by
  intro _; simp [encode]

theorem inv : Statement .inv := by
  intro _; simp [encode]

theorem rcl : Statement .rcl := by
  intro _; simp [encode]

theorem dats : Statement .dats := by
  intro _; simp [encode]

theorem date : Statement .date := by
  intro _; simp [encode]

theorem datm : Statement .datm := by
  intro _; simp [encode]

theorem rcld : Statement .rcld := by
  intro _; simp [encode]

theorem atomr : Statement .atomr := by
  intro _; simp [encode]

theorem invack : Statement .invack := by
  intro _; simp [encode]

theorem fwdack : Statement .fwdack := by
  intro _; simp [encode]

theorem fwdmiss : Statement .fwdmiss := by
  intro _; simp [encode]

theorem wback : Statement .wback := by
  intro _; simp [encode]

theorem retry : Statement .retry := by
  intro _; simp [encode]

theorem poisoned : Statement .poisoned := by
  intro _; simp [encode]

theorem done : Statement .done := by
  intro _; simp [encode]

theorem unknownMessage : Statement .unknownMessage := by
  intro _; simp [encode]

end Sys2Proof.Laws.OneLiteral
end

