-- ==== Sys2Proof/Machine/RegUse.lean ====
section
/-! DEFINITION. Which v, k and p registers a native instruction reads and writes (R176, R322, and the operand columns of the
instruction entries), and what the assembler knows of its opcode: its CLASS (R317) and whether it ends a clause (R181). -/
namespace Sys2Proof

/-- A register of the classes v, k and p (R175). -/
inductive NReg where
  | v (n : Nat)
  | k (n : Nat)
  | p (n : Nat)
deriving DecidableEq, Repr

/-- The registers that an instruction reads and those that it writes. -/
structure RegUse where
  rd : List NReg
  wr : List NReg
deriving DecidableEq, Repr

/-- n consecutive v registers, n consecutive k registers, a predicate (R176). -/
def VReg.span (r : VReg) (n : Nat) : List NReg := (List.range n).map fun i => .v (r.toNat + i)
def KReg.span (r : KReg) (n : Nat) : List NReg := (List.range n).map fun i => .k (r.toNat + i)
def PReg.span (r : PReg) : List NReg := [.p r.toNat]

/-- The registers of a source that takes n of them. -/
def Src.span (n : Nat) : Src → List NReg
  | .v r => r.span n
  | .k r => r.span n
  | .lit _ => []

def KSrc.span (n : Nat) : KSrc → List NReg
  | .k r => r.span n
  | .lit _ => []

/-- The registers of an address whose base takes n of them (R324). -/
def Adr.span (n : Nat) (a : Adr) : List NReg := a.base.span n ++ a.index.span 1

/-- A destination v, a destination k, from the sources named. -/
def useV (d : VReg) (n : Nat) (rd : List NReg) : RegUse := ⟨rd, d.span n⟩
def useK (d : KReg) (n : Nat) (rd : List NReg) : RegUse := ⟨rd, d.span n⟩
def useP (d : PReg) (rd : List NReg) : RegUse := ⟨rd, d.span⟩
def useR (rd : List NReg) : RegUse := ⟨rd, []⟩

/-- p0 to p14 (R358). -/
def allPreds : List NReg := (List.range 15).map .p

/-- 1 register, or 2 when the operand is 64 bits wide. -/
def wid (w64 : Bool) : Nat := if w64 then 2 else 1

/-- The registers of an instruction of a group of a width but for its guard; a device event names none. -/
def Instr.operands (w : Nat) : Instr → RegUse
  | .brx _ a => useR (a.span 2)
  | .callx _ a => useR (a.span 2)
  | .pseti _ d a b c _ _ => useP d (a.span 1 ++ b.span 1 ++ c.span)
  | .psetiImm _ d a _ _ _ => useP d (a.span 1)
  | .psetf _ d a b c _ => useP d (a.span 1 ++ b.span 1 ++ c.span)
  | .plop _ d a b _ => useP d (a.span ++ b.span)
  | .pmov _ (.toV d) => useV d 1 allPreds
  | .pmov _ (.fromV a b) => ⟨a.span 1 ++ b.span 1, allPreds⟩
  | .vote _ (.ballot d) a => useK d (max 1 (w / 32)) a.span
  | .vote _ (.all d) a => useP d a.span
  | .vote _ (.any d) a => useP d a.span
  | .vote _ (.eq d) a => useP d a.span
  | .kmov _ d a w => useK d (wid w) (a.span (wid w))
  | .kmovImm _ d _ => useK d 1 []
  | .kadd _ d a b _ _ w => useK d (wid w) (a.span (wid w) ++ b.span (wid w))
  | .kaddImm _ d a _ => useK d 1 (a.span 1)
  | .ksub _ d a b _ _ w => useK d (wid w) (a.span (wid w) ++ b.span (wid w))
  | .kmul _ d a b _ _ => useK d 1 (a.span 1 ++ b.span 1)
  | .kmin _ d a b _ => useK d 1 (a.span 1 ++ b.span 1)
  | .kmax _ d a b _ => useK d 1 (a.span 1 ++ b.span 1)
  | .kand _ d a b => useK d 1 (a.span 1 ++ b.span 1)
  | .kor _ d a b => useK d 1 (a.span 1 ++ b.span 1)
  | .kxor _ d a b => useK d 1 (a.span 1 ++ b.span 1)
  | .kshl _ d a b _ _ => useK d 1 (a.span 1 ++ b.span 1)
  | .kshr _ d a b => useK d 1 (a.span 1 ++ b.span 1)
  | .ksar _ d a b => useK d 1 (a.span 1 ++ b.span 1)
  | .kcmp _ d a b _ _ => useK d 1 (a.span 1 ++ b.span 1)
  | .ksel _ d a b c => useK d 1 (a.span 1 ++ b.span 1 ++ c.span 1)
  | .mov _ d a w => useV d (wid w) (a.span (wid w))
  | .movImm _ d _ => useV d 1 []
  | .sel _ d a b c => useV d 1 (a.span 1 ++ b.span 1 ++ c.span)
  | .iadd _ d a b _ _ => useV d 1 (a.span 1 ++ b.span 1)
  | .iaddImm _ d a _ => useV d 1 (a.span 1)
  | .isub _ d a b _ _ => useV d 1 (a.span 1 ++ b.span 1)
  | .imul _ d a b _ _ => useV d 1 (a.span 1 ++ b.span 1)
  | .imulImm _ d a _ => useV d 1 (a.span 1)
  | .imulh _ d a b _ => useV d 1 (a.span 1 ++ b.span 1)
  | .imad _ d a b c _ _ => useV d 1 (a.span 1 ++ b.span 1 ++ c.span 1)
  | .imadw _ d a b c _ _ => useV d 2 (a.span 1 ++ b.span 1 ++ c.span 2)
  | .imin _ d a b _ => useV d 1 (a.span 1 ++ b.span 1)
  | .imax _ d a b _ => useV d 1 (a.span 1 ++ b.span 1)
  | .iabs _ d a _ => useV d 1 (a.span 1)
  | .ineg _ d a _ => useV d 1 (a.span 1)
  | .iand _ d a b => useV d 1 (a.span 1 ++ b.span 1)
  | .iandImm _ d a _ => useV d 1 (a.span 1)
  | .ior _ d a b => useV d 1 (a.span 1 ++ b.span 1)
  | .iorImm _ d a _ => useV d 1 (a.span 1)
  | .ixor _ d a b => useV d 1 (a.span 1 ++ b.span 1)
  | .ixorImm _ d a _ => useV d 1 (a.span 1)
  | .inot _ d a => useV d 1 (a.span 1)
  | .ishl _ d a b _ _ => useV d 1 (a.span 1 ++ b.span 1)
  | .ishlImm _ d a _ => useV d 1 (a.span 1)
  | .ishr _ d a b => useV d 1 (a.span 1 ++ b.span 1)
  | .ishrImm _ d a _ => useV d 1 (a.span 1)
  | .isar _ d a b => useV d 1 (a.span 1 ++ b.span 1)
  | .isarImm _ d a _ => useV d 1 (a.span 1)
  | .irot _ d a b => useV d 1 (a.span 1 ++ b.span 1)
  | .popc _ d a => useV d 1 (a.span 1)
  | .clz _ d a => useV d 1 (a.span 1)
  | .brev _ d a => useV d 1 (a.span 1)
  | .bfe _ d a b _ => useV d 1 (a.span 1 ++ b.span 1)
  | .bfi _ d a b c => useV d 1 (a.span 1 ++ b.span 1 ++ c.span 1)
  | .iadd64 _ d a b _ _ => useV d 2 (a.span 2 ++ b.span 2)
  | .isub64 _ d a b _ _ => useV d 2 (a.span 2 ++ b.span 2)
  | .iclamp _ d a b c _ => useV d 1 (a.span 1 ++ b.span 1 ++ c.span 1)
  | .padd16 _ d a b _ _ => useV d 1 (a.span 1 ++ b.span 1)
  | .pmac16 _ d a b c => useV d 1 (a.span 1 ++ b.span 1 ++ c.span 1)
  | .pshr _ d a b _ => useV d 1 (a.span 1 ++ b.span 1 ++ d.span 1)
  | .hash _ d a b => useV d 1 (a.span 1 ++ b.span 1)
  | .lxch _ d a b _ _ => useV d 1 (a.span 1 ++ b.span 1)
  | .slide _ d a b c => useV d 1 (a.span 1 ++ b.span 1 ++ c.span 1)
  | .red _ d a _ _ _ _ => useV d 1 (a.span 1)
  | .scan _ d a _ _ _ _ _ => useV d 1 (a.span 1)
  | .bcast _ d a b => useV d 1 (a.span 1 ++ b.span 1)
  | .krdl _ d a b => useK d 1 (a.span 1 ++ b.span 1)
  | .fadd _ d a b _ _ => useV d 1 (a.span 1 ++ b.span 1)
  | .fsub _ d a b _ _ => useV d 1 (a.span 1 ++ b.span 1)
  | .fmul _ d a b _ _ => useV d 1 (a.span 1 ++ b.span 1)
  | .ffma _ d a b c _ _ => useV d 1 (a.span 1 ++ b.span 1 ++ c.span 1)
  | .fdiv _ d a b _ _ => useV d 1 (a.span 1 ++ b.span 1)
  | .fmin _ d a b => useV d 1 (a.span 1 ++ b.span 1)
  | .fmax _ d a b => useV d 1 (a.span 1 ++ b.span 1)
  | .fabs _ d a => useV d 1 (a.span 1)
  | .fneg _ d a => useV d 1 (a.span 1)
  | .frnd _ d a _ => useV d 1 (a.span 1)
  | .fscale _ d a b _ _ => useV d 1 (a.span 1 ++ b.span 1)
  | .fclass _ d a => useV d 1 (a.span 1)
  | .frcp _ d a _ _ => useV d 1 (a.span 1)
  | .frsq _ d a _ _ => useV d 1 (a.span 1)
  | .fsqrt _ d a _ _ => useV d 1 (a.span 1)
  | .fexp2 _ d a _ _ => useV d 1 (a.span 1)
  | .flog2 _ d a _ _ => useV d 1 (a.span 1)
  | .fsin _ d a _ _ => useV d 1 (a.span 1)
  | .fcos _ d a _ _ => useV d 1 (a.span 1)
  | .hadd2 _ d a b _ _ _ => useV d 1 (a.span 1 ++ b.span 1)
  | .hsub2 _ d a b _ _ _ => useV d 1 (a.span 1 ++ b.span 1)
  | .hmul2 _ d a b _ _ _ => useV d 1 (a.span 1 ++ b.span 1)
  | .hfma2 _ d a b c _ _ _ => useV d 1 (a.span 1 ++ b.span 1 ++ c.span 1)
  | .hmin2 _ d a b _ => useV d 1 (a.span 1 ++ b.span 1)
  | .hmax2 _ d a b _ => useV d 1 (a.span 1 ++ b.span 1)
  | .hdot2 _ d a b c _ _ _ => useV d 1 (a.span 1 ++ b.span 1 ++ c.span 1)
  | .cvt _ d a df sf _ _ _ => useV d (wid (df.width == 64)) (a.span (wid (sf.width == 64)))
  | .cvt2 _ d a b _ _ _ _ _ => useV d 1 (a.span 1 ++ b.span 1 ++ d.span 1)
  | .ld _ sz d a _ _ => useV d sz.regs (a.span 2)
  | .st _ sz d a _ => useR (a.span 2 ++ d.span sz.regs)
  | .lds _ sz d a _ => useV d sz.regs (a.span 1)
  | .sts _ sz d a _ => useR (a.span 1 ++ d.span sz.regs)
  | .ldk _ w d a _ => useK d (wid w) (a.span 2)
  | .pref _ _ a => useR (a.span 2)
  | .cctl _ (.wb a) => useR (a.span 2)
  | .cctl _ (.inv a) => useR (a.span 2)
  | .cctl _ (.wbinv a) => useR (a.span 2)
  | .cctl _ (.iinv a) => useR (a.span 2)
  | .atom _ op ty d a b c _ _ =>
    useV d (wid ty.wide) (a.span 2 ++ b.span (wid ty.wide) ++ if op = .cas then c.span (wid ty.wide) else [])
  | .atomFadd _ d a b _ _ => useV d 1 (a.span 2 ++ b.span 1)
  | .atoms _ op _ d a b c _ => useV d 1 (a.span 1 ++ b.span 1 ++ if op = .cas then c.span 1 else [])
  | .atomsFadd _ d a b _ => useV d 1 (a.span 1 ++ b.span 1)
  | .shape _ _ a b _ => useR (a.span 1 ++ b.span 1)
  | .shext _ _ a => useR (a.span 1)
  | .shq _ d _ => useK d 4 []
  | .wbld _ a b _ _ => useR (a.span 2 ++ b.span 1)
  | .mma _ _ a b _ pk _ _ => useR (a.span 1 ++ b.span 1 ++ pk.span 4)
  | .accrd _ d _ b w4 => useV d (if w4 then 4 else 1) (b.span 1)
  | .accwr _ _ a b => useR (a.span 1 ++ b.span 1)
  | .wmark _ d _ => useK d 1 []
  | .copy _ d a b _ => useK d 2 (a.span 8 ++ b.span 1)
  | .rdwpt _ (.k d) _ => useK d 2 []
  | .rdwpt _ (.v d) _ => useV d 2 []
  | .ringp _ _ (.acq d) => useK d 1 []
  | .ringc _ _ (.acq d) => useK d 1 []
  | .regacq _ a => useR (a.span 1)
  | .regrel _ a => useR (a.span 1)
  | .spawn _ a b c => useR (a.span 2 ++ b.span 2 ++ c.span 1)
  | .enq _ a (.core b) => useR (a.span 2 ++ b.span 1)
  | .enq _ a _ => useR (a.span 2)
  | .decr _ a b => useR (a.span 1 ++ b.span 1)
  | .waitd _ a => useR (a.span 1)
  | .leafq _ d a b sp => useV d 1 (a.span 1 ++ b.span (wid (!sp)))
  | .fres _ a b => useR (a.span 1 ++ b.span 2)
  | .waitf _ d a c => ⟨a.span 1, d.span 2 ++ c.span 1⟩
  | .testf _ d a => useV d 1 (a.span 1)
  | .cqry _ d a b => useV d 1 (a.span 2 ++ b.span 2)
  | .dstep _ d a => useV d 1 (a.span 2)
  | .poola _ d a c => ⟨a.span 1, d.span 2 ++ c.span⟩
  | .poolf _ a b => useR (a.span 1 ++ b.span 2)
  | .poolft _ a b => useR (a.span 1 ++ b.span 1)
  | .bestupd _ a b c => useR (a.span 1 ++ b.span 1 ++ c.span 2)
  | .dlnset _ a => useR (a.span 1)
  | .dlnrd _ d => useK d 1 []
  | .cancel _ a => useR (a.span 1)
  | .movs _ n a => useR (a.span (wid (((sregInfo n.toNat).map (·.wide)).getD false)))
  | .movsr _ (.v d) n => useV d (wid (((sregInfo n.toNat).map (·.wide)).getD false)) []
  | .movsr _ (.k d) n => useK d (wid (((sregInfo n.toNat).map (·.wide)).getD false)) []
  | .movq _ _ a => useR (a.span 2)
  | .pkrd _ d a b => useV d 1 (a.span 1 ++ b.span 1)
  | .pkwr _ a b c => useR (a.span 1 ++ b.span 1 ++ c.span 1)
  | _ => ⟨[], []⟩

/-- A register that holds what is written to it: not v1023, k63 or p15 (R175). -/
def NReg.stored : NReg → Bool
  | .v n => n < 1023
  | .k n => n < 63
  | .p n => n < 15

/-- The header of a native instruction (R320). -/
def Instr.hdr? (i : Instr) : Option Hdr := i.raw.map fun r => r.1.hdr

/-- The registers that an instruction reads, its guard among them, and those that it writes (R321, R322). -/
def Instr.uses (w : Nat) (i : Instr) : RegUse :=
  let u := i.operands w
  let g := match i.hdr? with
    | some h => h.g.span
    | none => []
  ⟨(u.rd ++ g).filter NReg.stored, u.wr.filter NReg.stored⟩

/-- The opcode of a native instruction; 0 for a device event. -/
def Instr.opcode (i : Instr) : Nat :=
  match i.raw with
  | some r => r.1.opc.toNat
  | none => 0

/-- The words of a native instruction with its literal (R323). -/
def Instr.size (i : Instr) : Nat :=
  match i.raw with
  | some r => 1 + r.2.length
  | none => 1

/-- The instruction must be the last of its clause (R181). -/
def Instr.endsClause (i : Instr) : Bool :=
  [0x002, 0x003, 0x004, 0x005, 0x006, 0x007, 0x008, 0x00A, 0x00B, 0x00C, 0x00D, 0x00E, 0x00F, 0x402, 0x403, 0x404, 0x480, 0x481
    , 0x483, 0x484, 0x486, 0x488, 0x489].contains i.opcode

/-- What a clause must be to admit an instruction (R317): any CLASS, one engine's or SYS, CTL or SYS, or SYS alone. -/
inductive Admits where
  | every
  | engine (c : Nat)
  | ctl
  | sys
deriving DecidableEq, Repr

/-- The CLASS values that admit an opcode (R317). -/
def admitsOf (o : Nat) : Admits :=
  if 0x180 ≤ o ∧ o < 0x300 then .engine 0
  else if 0x380 ≤ o ∧ o < 0x400 then .engine 1
  else if 0x400 ≤ o ∧ o ≤ 0x403 then .engine 2
  else if o = 0x488 ∨ o = 0x489 then .engine 3
  else if 0x480 ≤ o ∧ o < 0x500 then .engine 4
  else if o = 0x404 ∨ o = 0x405 then .ctl
  else if 0x500 ≤ o then .sys
  else .every

/-- A load: its destination is written when it returns (R180). -/
def Instr.isLoad : Instr → Bool
  | .ld .. => true
  | .lds .. => true
  | .ldk .. => true
  | .accrd .. => true
  | .rdwpt .. => true
  | .atom _ _ _ d .. => d.toNat ≠ 1023
  | .atomFadd _ d .. => d.toNat ≠ 1023
  | .atoms _ _ _ d .. => d.toNat ≠ 1023
  | .atomsFadd _ d .. => d.toNat ≠ 1023
  | _ => false

end Sys2Proof
end

