-- ==== Sys2Proof/Machine/Amitil.lean ====
section
/-! DEFINITION. Amitil modules (R119 to R126): the module's bytes, its records, the native instruction that an operation names, the
translator's checks, and the binding of threads to lanes. -/
namespace Sys2Proof

/-! ## Records (R124) -/

/-- CLS of an operand (R124). -/
inductive AmCls where
  | none | v | k | p | imm | frame | sh | q
deriving DecidableEq, Repr

/-- An operand: its class and number (R124). -/
structure AmOpd where
  cls : AmCls
  num : Nat
deriving DecidableEq, Repr

/-- KIND of a record (R124). -/
inductive AmKind where
  | op | par | endPar | cond | other | endCond | loop | brk | endLoop | barrier | call | ret
deriving DecidableEq, Repr

/-- A record (R124). -/
structure AmRec where
  kind : AmKind
  opc  : Nat
  m    : Nat
  gn   : Bool
  g    : AmOpd
  d    : AmOpd
  a    : AmOpd
  b    : AmOpd
  c    : AmOpd
  imm  : Word
deriving DecidableEq, Repr

/-- An operand's 32 bits; none when its class, its number or a bit between them is invalid (R124). -/
def amOpd (w : Nat) : Option AmOpd :=
  let n := bits w 23 0
  if bits w 27 24 ≠ 0 then none
  else match bits w 31 28 with
    | 0 => some ⟨.none, n⟩
    | 1 => some ⟨.v, n⟩
    | 2 => some ⟨.k, n⟩
    | 3 => some ⟨.p, n⟩
    | 4 => some ⟨.imm, n⟩
    | 5 => if n ≤ 191 then some ⟨.frame, n⟩ else none
    | 6 => if n ≤ 7 then some ⟨.sh, n⟩ else none
    | 7 => if n ≤ 15 then some ⟨.q, n⟩ else none
    | _ => none

def amKind (n : Nat) : Option AmKind :=
  [.op, .par, .endPar, .cond, .other, .endCond, .loop, .brk, .endLoop, .barrier, .call, .ret][n]?

def AmRec.operands (r : AmRec) : List AmOpd := [r.g, r.d, r.a, r.b, r.c]

/-- The four words of a record; none when it is invalid by its form alone (R124). -/
def amRec (w0 w1 w2 w3 : Nat) : Option AmRec := do
  let kind ← amKind (bits w0 63 60)
  let g ← amOpd (bits w1 63 32)
  let d ← amOpd (bits w1 31 0)
  let b ← amOpd (bits w2 63 32)
  let a ← amOpd (bits w2 31 0)
  let c ← amOpd (bits w3 31 0)
  let opc := bits w0 58 48
  let m := bits w0 47 41
  let r : AmRec := { kind := kind, opc := opc, m := m, gn := w0.testBit 40, g := g, d := d, a := a, b := b, c := c
                     imm := BitVec.ofNat 32 (bits w3 63 32) }
  if w0.testBit 59 || bits w0 39 0 != 0 then none
  else if 1 < (r.operands.filter fun o => o.cls == .imm).length then none
  else match kind with
    | .op => if g.cls = .none ∨ g.cls = .p then some r else none
    | .par => if opc = 0 ∧ m ≤ 1 then some r else none
    | .cond => if opc = 0 ∧ m = 0 ∧ g.cls = .p then some r else none
    | .brk => if opc = 0 ∧ m = 0 ∧ g.cls = .p then some r else none
    | _ => if opc = 0 ∧ m = 0 then some r else none

/-! ## The native instruction of an operation (R122) -/

/-- The numbers that stand for an operation's registers in its native word: D, A, B, C and PK as v or k, and G, D, A, B, C as p
(assumption 26). -/
def amSampleD : Nat := 8
def amSampleA : Nat := 16
def amSampleB : Nat := 24
def amSampleC : Nat := 32
def amSamplePk : Nat := 40

/-- How a source field may stand: its bits, its K bit and its literal. -/
def amField (o : AmOpd) (imm : Word) (vk p : Nat) (code : Bool) : List (BitVec 10 × Bool × List DWord) :=
  match o.cls with
  | .none => [(0, false, [])]
  | .v => [(BitVec.ofNat 10 vk, false, [])]
  | .k => [(BitVec.ofNat 10 vk, true, []), (BitVec.ofNat 10 vk, false, [])]
  | .p => [(BitVec.ofNat 10 p, false, [])]
  | .imm => if code then [(imm.truncate 10, false, [])] else [(0x3FF, true, [imm.zeroExtend 64])]
  | _ => [(BitVec.ofNat 10 o.num, false, [])]

/-- The D field: the composite of the immediate form of PSETI takes CMP and SGN from the modifiers (R354). -/
def AmRec.fieldD (r : AmRec) : BitVec 10 :=
  if r.opc = 0x085 then BitVec.ofNat 10 (2 + bits r.m 4 2 * 16 + r.m % 2 * 128)
  else match r.d.cls with
    | .none => 0
    | .v => BitVec.ofNat 10 amSampleD
    | .k => BitVec.ofNat 10 amSampleD
    | .p => 2
    | .imm => r.imm.truncate 10
    | _ => BitVec.ofNat 10 r.d.num

/-- The C field, and the literal of a long offset; a compare without C combines with p15. -/
def AmRec.fieldC (r : AmRec) : BitVec 10 × List DWord :=
  match r.c.cls with
  | .none => (if r.opc = 0x080 ∨ r.opc = 0x081 then 15 else 0, [])
  | .v => (BitVec.ofNat 10 amSampleC, [])
  | .k => (BitVec.ofNat 10 amSampleC, [])
  | .p => (5, [])
  | .imm =>
    if memOpc r.opc ∧ bit r.m 1 then (0, [r.imm.zeroExtend 64])
    else if r.opc = 0x384 then (BitVec.ofNat 10 (r.imm.toNat % 8 + amSamplePk * 8), [])
    else (r.imm.truncate 10, [])
  | _ => (BitVec.ofNat 10 r.c.num, [])

/-- PMOV acts on the predicates p0 to p14 of its thread by their own numbers, so its guard has none and stands outside its native word
(R358; assumption 26). -/
def AmRec.isPmov (r : AmRec) : Bool := r.opc == 0x083

/-- The guard of the native word. -/
def AmRec.guard (r : AmRec) : BitVec 4 := if r.g.cls = .none ∨ r.isPmov then 15 else 1

/-- The native words that an operation may stand for, with the sample numbers. -/
def AmRec.candidates (r : AmRec) : List (Raw × DWord) :=
  let base : Raw := { s := false, opc := BitVec.ofNat 11 r.opc, g := r.guard, gn := r.gn, d := r.fieldD, a := 0, b := 0, c := 0, m := 0 }
  if immOpc r.opc then
    let i : Imm := r.imm.truncate 27
    let fits := i.signExtend 32 = r.imm
    let regA := match r.a.cls with
      | .v => amSampleA
      | .k => amSampleA
      | _ => 0
    if fits then [({ base with a := BitVec.ofNat 10 regA, b := i.extractLsb' 17 10, c := i.extractLsb' 7 10, m := i.extractLsb' 0 7 }, 0)]
    else []
  else
    let c := r.fieldC
    let bs := if memOpc r.opc ∧ r.b.cls = .none then [(0x3FF, false, []), (63, true, []), (0, false, [])]
      else amField r.b r.imm amSampleB 4 (r.opc == 0x500 || r.opc == 0x501)
    (amField r.a r.imm amSampleA 3 false).flatMap fun a => bs.map fun b =>
        ({ base with a := a.1, b := b.1, c := c.1, m := BitVec.ofBool a.2.1 ++ BitVec.ofBool b.2.1 ++ BitVec.ofNat 5 r.m }
        , (a.2.2 ++ b.2.2 ++ c.2).headD 0)

/-- A word is the encoding of its instruction. -/
def nativeOf (x : Raw × DWord) : Option Instr :=
  match parse x.1 x.2 with
  | none => none
  | some i =>
    match i.raw with
    | none => none
    | some (r', lits) => if i.wf && r' == x.1 && lits == [x.2].take lits.length then some i else none

/-- A register of an Amitil function: v, k and p by number. -/
abbrev AmReg := NReg

/-- The operand, if any, whose registers begin at a sample number. -/
def AmRec.ofSample (r : AmRec) (want : AmCls) (n : Nat) : Option Nat :=
  let at_ (o : AmOpd) (base : Nat) : Option Nat := if o.cls = want ∧ base ≤ n ∧ n < base + 8 then some (o.num + (n - base)) else none
  if r.opc = 0x384 ∧ want = .k ∧ amSamplePk ≤ n ∧ n < amSamplePk + 8 ∧ r.c.cls = .imm then some (bits r.imm.toNat 8 3 + (n - amSamplePk))
  else (at_ r.d amSampleD).orElse fun _ => (at_ r.a amSampleA).orElse fun _ => (at_ r.b amSampleB).orElse fun _ => at_ r.c amSampleC

/-- The predicate operand of a sample number. -/
def AmRec.predOf (r : AmRec) (n : Nat) : Option Nat :=
  let at_ (o : AmOpd) (base : Nat) : Option Nat := if o.cls = .p ∧ n = base then some o.num else none
  if r.isPmov then some n
  else (at_ r.g 1).orElse fun _ => (at_ r.d 2).orElse fun _ => (at_ r.a 3).orElse fun _ => (at_ r.b 4).orElse fun _ => at_ r.c 5

/-- The Amitil register behind a native register of the word; none when the word names a register that no operand gives. -/
def AmRec.reg (r : AmRec) : NReg → Option AmReg
  | .v n => (r.ofSample .v n).map .v
  | .k n => (r.ofSample .k n).map .k
  | .p n => (r.predOf n).map .p

/-- Pairs and longer runs begin at a multiple of their length (R176, R322). -/
def AmRec.aligned (r : AmRec) (u : RegUse) : Bool :=
  let runs (o : AmOpd) (base : Nat) : Bool :=
    let n := ((u.rd ++ u.wr).eraseDups.filter fun x => match x with
      | .v m => o.cls == .v && decide (base ≤ m ∧ m < base + 8)
      | .k m => o.cls == .k && decide (base ≤ m ∧ m < base + 8)
      | .p _ => false).length
    n ≤ 1 || o.num % n == 0
  runs r.d amSampleD && runs r.a amSampleA && runs r.b amSampleB && runs r.c amSampleC

/-- The operand classes that stand for registers are all used by the word. -/
def AmRec.used (r : AmRec) (u : RegUse) : Bool :=
  let has (o : AmOpd) (vk p : Nat) : Bool :=
    match o.cls with
    | .v => (u.rd ++ u.wr).contains (.v vk)
    | .k => (u.rd ++ u.wr).contains (.k vk)
    | .p => (u.rd ++ u.wr).contains (.p p)
    | _ => true
  has r.d amSampleD 2 && has r.a amSampleA 3 && has r.b amSampleB 4 && has r.c amSampleC 5

/-- The operands D, A, B and C, numbered 0 to 3, that name a frame, a shape register or q (R124). -/
def Instr.special : Instr → List (Nat × AmCls)
  | .mma .. => [(0, .frame)]
  | .accrd .. => [(1, .frame)]
  | .accwr .. => [(0, .frame)]
  | .accclr .. => [(0, .frame)]
  | .wmark .. => [(1, .frame)]
  | .shape .. => [(0, .sh)]
  | .shext .. => [(0, .sh)]
  | .shq .. => [(1, .sh)]
  | .movsr _ (.q _) _ => [(0, .q)]
  | .movq .. => [(0, .q)]
  | _ => []

/-- The operands at which IMM stands for a number of the native word that is neither a register nor a literal source (assumption 26). -/
def AmRec.codes (r : AmRec) : List Nat :=
  if immOpc r.opc then [2]
  else if [0x322, 0x323].contains r.opc then [0, 3]
  else if r.opc = 0x389 then [0]
  else if r.opc = 0x500 ∨ r.opc = 0x501 then [2]
  else if memOpc r.opc ∨ [0x180, 0x182, 0x183, 0x21A, 0x21B, 0x325, 0x383, 0x384].contains r.opc then [3]
  else []

/-- Each operand has a class that its place in the instruction admits: a frame, a shape register or q just where the instruction names
one, and IMM as a code or as the literal of A or B (R124). -/
def AmRec.classed (r : AmRec) (i : Instr) : Bool :=
  ([r.d, r.a, r.b, r.c].zip (List.range 4)).all fun (o, n) =>
    match i.special.lookup n, o.cls with
    | some c, c' => c' == c
    | none, .frame => false
    | none, .sh => false
    | none, .q => false
    | none, .imm => r.codes.contains n || ((n == 1 || (n == 2 && !memOpc r.opc)) && i.size == 2)
    | none, _ => true

/-- The native instruction of an operation in a group of a width: the word whose fields the operands give, when it is an encoding, names
just the registers of the operands, and admits their classes (R122, R124; assumption 26). -/
def AmRec.native (r : AmRec) (w : Nat) : Option Instr :=
  if bits r.m 6 5 ≠ 0 then none
  else (r.candidates.filterMap nativeOf).find? fun i =>
    let u := i.uses w
    (u.rd ++ u.wr).all (fun x => (r.reg x).isSome) && r.used u && r.aligned u && r.classed i

/-- The register of an operand as a source of 32 bits. -/
def AmOpd.value : AmOpd → List AmReg
  | ⟨.v, n⟩ => [.v n]
  | ⟨.k, n⟩ => [.k n]
  | ⟨.p, n⟩ => [.p n]
  | _ => []

/-- The Amitil registers that an operation reads and those that it writes. -/
def AmRec.uses (r : AmRec) (i : Instr) (w : Nat) : List AmReg × List AmReg :=
  let u := i.uses w
  (u.rd.filterMap r.reg ++ (if r.isPmov then r.g.value else []), u.wr.filterMap r.reg)

/-- The table of R122: the operations that Amitil has. -/
def amAvailable : Instr → Bool
  | .bra .. => false
  | .brx .. => false
  | .call .. => false
  | .callx .. => false
  | .ret .. => false
  | .exit .. => false
  | .jmark .. => false
  | .jwait .. => false
  | .bar .. => false
  | .abar .. => false
  | .mma _ _ _ _ _ _ twin _ => !twin
  | .ringp .. => false
  | .ringc .. => false
  | .regacq .. => false
  | .regrel .. => false
  | .movs _ n _ => [0x010, 0x023, 0x024].contains n.toNat
  | .movsr _ d n =>
    let any := n.toNat ≤ 0x005 || (0x010 ≤ n.toNat && n.toNat ≤ 0x013) || (0x022 ≤ n.toNat && n.toNat ≤ 0x02F)
    any || (match d with
      | .q _ => decide (0x080 ≤ n.toNat)
      | _ => false)
  | .tret .. => false
  | .laneend .. => false
  | .pkrd .. => false
  | .pkwr .. => false
  | _ => true

/-! ## The module (R123) -/

/-- A function: its name, its parameters and its records, none where one is invalid by its form. -/
structure AmFun where
  name : List Byte
  npar : Nat
  recs : List (Option AmRec)
deriving DecidableEq, Repr

/-- A module (R119, R123). -/
structure AmModule where
  entry   : Nat
  threads : Nat
  scratch : Nat
  width   : Nat
  det     : Bool
  outs    : List (Nat × Nat)
  funs    : List AmFun
deriving DecidableEq, Repr

/-- A function-table entry at an offset (R123). -/
def amFun (bs : List Byte) (o : Nat) : Option AmFun :=
  let f (i n : Nat) : Nat := fieldAt bs (o + i) n
  let name := (bs.drop (f 0 4)).takeWhile fun b => b != 0
  if f 0 4 + name.length < bs.length ∧ f 4 4 + 32 * f 8 4 ≤ bs.length ∧ f 12 2 ≤ 3 ∧ f 14 2 = 0 then
    some { name := name, npar := f 12 2
           recs := (List.range (f 8 4)).map fun i =>
             let w (k : Nat) : Nat := fieldAt bs (f 4 4 + 32 * i + 8 * k) 8
             amRec (w 0) (w 1) (w 2) (w 3) }
  else none

/-- The module of an image; none for a malformed header or table, report code 1 (R123, R124). -/
def amModule (bs : List Byte) : Option AmModule :=
  let f (i n : Nat) : Nat := fieldAt bs i n
  let n := f 8 4
  if 64 ≤ bs.length ∧ bs.take 4 = [0x41, 0x4D, 0x49, 0x4C] ∧ f 4 4 = 1 ∧ 1 ≤ n ∧ n ≤ 65535 ∧ f 12 4 + 16 * n ≤ bs.length ∧ f 16 4 < n
      ∧ 1 ≤ f 20 4 ∧ f 20 4 ≤ 4096 ∧ f 24 4 % 256 = 0 ∧ f 28 1 ≤ 4 ∧ f 29 1 ≤ 1 ∧ f 30 2 = 0 ∧ f 32 4 ≤ 256
      ∧ f 36 4 + 16 * f 32 4 ≤ bs.length ∧ f 40 8 = 0 ∧ f 48 8 = 0 ∧ f 56 8 = 0 then
    ((List.range n).mapM fun i => amFun bs (f 12 4 + 16 * i)).map fun fs =>
      { entry := f 16 4, threads := f 20 4, scratch := f 24 4, width := f 28 1, det := f 29 1 == 1
        outs := (List.range (f 32 4)).map fun i => (f (f 36 4 + 16 * i) 8, f (f 36 4 + 16 * i + 8) 8), funs := fs }
  else none

/-- W: the module's WIDTH, or 32 (R125). -/
def AmModule.lanes (m : AmModule) : Nat := if m.width = 0 then 32 else 8 * 2 ^ m.width

/-- The records of a function. -/
def AmModule.recs (m : AmModule) (n : Nat) : List (Option AmRec) := (m.funs[n]?.map (·.recs)).getD []

/-! ## The checks of a function (R121, R122, R124) -/

/-- An open construct of a body. -/
inductive AmOpen where
  | par | cond | other | loop
deriving DecidableEq, Repr

/-- The scan of a body: what is open, and which registers a record has written, of serial code and of the region. -/
structure AmScan where
  opens  : List AmOpen
  serial : List AmReg
  region : List AmReg
deriving DecidableEq, Repr

def AmScan.inRegion (s : AmScan) : Bool := s.opens.contains .par

/-- The registers that software may not write (R121). -/
def amPreset (x : AmReg) : Bool :=
  match x with
  | .v n => n == 0
  | .k n => decide (n < 6)
  | .p _ => false

/-- How a function is reached (R119, R121): it is the entry, regions reach it, serial code reaches it. -/
structure AmReach where
  entry  : Bool
  region : Bool
  serial : Bool
deriving DecidableEq, Repr

/-- A register has a value where it is read: it is preset, or a record before has written it. v0 is defined inside regions only, so in
a function that regions reach and serial code does not. -/
def AmScan.defined (s : AmScan) (f : AmReach) (x : AmReg) : Bool :=
  match x with
  | .v 0 => s.inRegion || (f.region && !f.serial)
  | .k n => decide (n < 6) || s.serial.contains x || s.region.contains x
  | _ => if s.inRegion then s.region.contains x else s.serial.contains x

/-- Reads and writes of a record (R121). -/
def AmScan.access (s : AmScan) (f : AmReach) (rd wr : List AmReg) : Option AmScan :=
  let isK (x : AmReg) : Bool := match x with
    | .k _ => true
    | _ => false
  if !(rd.all (s.defined f)) || wr.any amPreset || ((s.inRegion || f.region) && wr.any isK) then none
  else some (if s.inRegion then { s with region := wr ++ s.region } else { s with serial := wr ++ s.serial })

/-- The operand may pass or take a value of a call (R121). -/
def AmOpd.passes (o : AmOpd) : Bool := [AmCls.none, .v, .k, .imm].contains o.cls

/-- One record of a function's body; none is report code 2. A region stands in serial code, which may hold an IF or a LOOP open; a
construct that the region opens ends within it (R119, R124). -/
def AmScan.step (m : AmModule) (f : AmReach) (s : AmScan) (r : Option AmRec) : Option AmScan := do
  let r ← r
  match r.kind with
  | .op =>
    let i ← r.native m.lanes
    if !amAvailable i then none
    let u := r.uses i m.lanes
    s.access f u.1 u.2
  | .par => if f.entry && !s.inRegion then some { s with opens := .par :: s.opens, region := [] } else none
  | .endPar => match s.opens with
    | .par :: o => some { s with opens := o }
    | _ => none
  | .cond => (s.access f r.g.value []).map fun s => { s with opens := .cond :: s.opens }
  | .other => match s.opens with
    | .cond :: o => some { s with opens := .other :: o }
    | _ => none
  | .endCond => match s.opens with
    | .cond :: o => some { s with opens := o }
    | .other :: o => some { s with opens := o }
    | _ => none
  | .loop => some { s with opens := .loop :: s.opens }
  | .brk => if (s.opens.takeWhile (· != .par)).contains .loop then s.access f r.g.value [] else none
  | .endLoop => match s.opens with
    | .loop :: o => some { s with opens := o }
    | _ => none
  | .barrier => if s.opens.head? = some .par then some s else none
  | .call =>
    if r.imm.toNat < m.funs.length ∧ r.imm.toNat ≠ m.entry ∧ r.a.passes ∧ r.b.passes ∧ r.c.passes ∧ r.d.passes ∧ r.d.cls ≠ .imm then
      s.access f (r.a.value ++ r.b.value ++ r.c.value) r.d.value
    else none
  | .ret => if (f.entry && s.inRegion) || !r.a.passes then none else s.access f r.a.value []

/-- The index of the first record that fails, for report code 2; records.length stands for a construct left open (R124). -/
def amScan (m : AmModule) (f : AmReach) : List (Option AmRec) → Nat → AmScan → Option Nat
  | [], n, s => if s.opens.isEmpty then none else some n
  | r :: rest, n, s =>
    match s.step m f r with
    | none => some n
    | some s => amScan m f rest (n + 1) s

/-- The functions that a function calls, each with whether the call stands in a region. -/
def amCallees : List (Option AmRec) → Bool → List (Nat × Bool)
  | [], _ => []
  | none :: rest, i => amCallees rest i
  | some r :: rest, i =>
    let i : Bool := match r.kind with
      | .par => true
      | .endPar => false
      | _ => i
    (if r.kind == .call then [(r.imm.toNat, i)] else []) ++ amCallees rest i

/-- The functions that the entry's regions reach by calls, or that its serial code reaches. -/
def AmModule.reached (m : AmModule) (region : Bool) : List Nat :=
  (List.range m.funs.length).foldl (fun l _ => (l ++ l.flatMap fun n => (amCallees (m.recs n) false).map (·.1)).eraseDups)
    (((amCallees (m.recs m.entry) false).filter fun c => c.2 == region).map (·.1)).eraseDups

/-- The first record of function n that the translator's check refuses (R121, R122, R124). -/
def AmModule.check (m : AmModule) (n : Nat) : Option Nat :=
  match m.funs[n]? with
  | none => some 0
  | some f =>
    let pars : List AmReg := if n = m.entry then [] else (List.range f.npar).map fun i => .v (i + 1)
    amScan m ⟨n == m.entry, (m.reached true).contains n, (m.reached false).contains n⟩ f.recs 0 { opens := [], serial := pars, region := [] }

/-! ## Binding regions to lanes (R125, R126) -/

/-- G for a coarsening factor. -/
def amGroups (t w c : Nat) : Nat := cdiv t (w * c)

/-- The smallest power of two, from c on, that keeps the groups and their slots within the limits (R125). -/
def amCoarsen (t w : Nat) : Nat → Nat → Nat
  | 0, c => c
  | fuel + 1, c =>
    let g := amGroups t w c
    if g ≤ 32 ∧ g * max 1 (w / 32) ≤ 64 then c else amCoarsen t w fuel (2 * c)

/-- The coarsening factor of T threads at width W (R125). -/
def amCoarse (t w : Nat) : Nat := amCoarsen t w 13 1

/-- The turn, the group and the lane of a thread: t = i * G * W + g * W + l (R125). -/
def amPlace (total w t : Nat) : Nat × Nat × Nat :=
  let g := amGroups total w (amCoarse total w)
  (t / (g * w), t % (g * w) / w, t % w)

/-- The thread of a turn, a group and a lane; none where the lane skips the turn (R125). -/
def amThread (total w i g l : Nat) : Option Nat :=
  let t := i * amGroups total w (amCoarse total w) * w + g * w + l
  if t < total then some t else none

/-- The WIDTH code of a width (R99, R125). -/
def amWidthCode (w : Nat) : Nat := if w = 16 then 0 else if w = 32 then 1 else if w = 64 then 2 else 3

/-- The first two words of the kernel header of a binding, with the translator's REGEXT and its own need of scratchpad (R110, R126). -/
def AmModule.headerWords (m : AmModule) (regext need : Nat) : Nat × Nat :=
  (0x484B584E + amWidthCode m.lanes * 2 ^ 34 + regext * 2 ^ 36 + m.det.toNat * 2 ^ 40, roundup (m.scratch + need) 256)

/-- A card that launches the kernel carries the WIDTH and GROUPS = G - 1 (R126). -/
def AmModule.cardFits (m : AmModule) (width groups : Nat) : Bool :=
  width == amWidthCode m.lanes && groups + 1 == amGroups m.threads m.lanes (amCoarse m.threads m.lanes)

end Sys2Proof
end

