-- ==== Sys2Proof/Machine/AmitilRun.lean ====
section
/-! DEFINITION. What an Amitil block does (R119 to R122, R125): threads step through their records, each on the lane, the group and the
turn that bind it; an operation acts on the device as its native instruction acts on those lanes; and a segment ends when every group
stands at its barrier. -/
namespace Sys2Proof.Machine

/-! ## Threads -/

/-- A function in progress: its record, its registers, the loops it is in, and where its result goes (R121). -/
structure AmFrame where
  fn    : Nat
  pc    : Nat
  v     : Store Word
  k     : Store Word
  p     : Store Bool
  loops : List Nat
  dst   : AmOpd
deriving DecidableEq, Repr

/-- A thread with its calls, the newest first; serial code has no index (R119). -/
structure AmThread where
  t      : Option Nat
  frames : List AmFrame
deriving DecidableEq, Repr

/-- What a block's card presets (R121). -/
structure AmCard where
  block : Word
  args  : Nat
  inl   : DWord
deriving DecidableEq, Repr

/-- k0 to k5 (R121). -/
def AmCard.preset (c : AmCard) (threads n : Nat) : Word :=
  match n with
  | 0 => c.block
  | 1 => BitVec.ofNat 32 threads
  | 2 => BitVec.ofNat 32 (bits c.args 31 0)
  | 3 => BitVec.ofNat 32 (bits c.args 47 32)
  | 4 => c.inl.truncate 32
  | _ => c.inl.extractLsb' 32 32

/-- A block: its module, its card, its native groups, serial code, and the region that runs, with its threads and whether its PAR has
SERIAL set. -/
structure AmBlock where
  m      : AmModule
  card   : AmCard
  groups : List Group
  serial : AmThread
  region : Option (Bool × List AmThread)
deriving DecidableEq, Repr

/-- A register of a frame (R121). -/
def AmFrame.word (f : AmFrame) (b : AmBlock) (t : Option Nat) : AmReg → Word
  | .v 0 => BitVec.ofNat 32 (t.getD 0)
  | .v n => Store.get 0 f.v n
  | .k n => if n < 6 then b.card.preset b.m.threads n else Store.get 0 f.k n
  | .p n => if Store.get false f.p n then 1 else 0

/-- A register of a frame is written. -/
def AmFrame.set (f : AmFrame) (x : AmReg) (y : Word) : AmFrame :=
  match x with
  | .v n => { f with v := Store.put 0 f.v n y }
  | .k n => { f with k := Store.put 0 f.k n y }
  | .p n => { f with p := Store.put false f.p n (y != 0) }

/-- The value of an operand (R121, R124). -/
def AmFrame.value (f : AmFrame) (b : AmBlock) (t : Option Nat) (r : AmRec) (o : AmOpd) : Word :=
  match o.cls with
  | .v => f.word b t (.v o.num)
  | .k => f.word b t (.k o.num)
  | .imm => r.imm
  | _ => 0

/-! ## Lanes (R125) -/

/-- The turn, the group and the lane of a thread: serial code and a SERIAL region run on lane 0 of group 0 alone (R125). -/
def AmBlock.place (b : AmBlock) (ser : Bool) (th : AmThread) : Nat × Nat × Nat :=
  match th.t with
  | none => (0, 0, 0)
  | some t => if ser then (t, 0, 0) else amPlace b.m.threads b.m.lanes t

/-- Where a thread stands: the record of each function in progress. -/
def AmThread.site (th : AmThread) : List (Nat × Nat) := th.frames.map fun f => (f.fn, f.pc)

/-- The condition of an IF or BREAK, or the guard of an operation (R124). -/
def AmFrame.holds (f : AmFrame) (b : AmBlock) (t : Option Nat) (r : AmRec) : Bool :=
  r.g.cls != .p || (f.word b t (.p r.g.num) != 0) != r.gn

/-! ## Operations (R122) -/

/-- What an operation does to the threads that issue it together, or to the block. -/
inductive AmOut where
  | next (ths : List AmThread) (gs : List Group) (s : State)
  | waits (s : State)
  | parked (s : State)
  | trapped (cause : Word) (addr : DWord) (s : State)
  | stands
deriving DecidableEq, Repr

/-- A native group at an instruction of its own, on the lanes of its threads, whose sample registers hold their operands. -/
def AmBlock.issue (b : AmBlock) (ths : List (Nat × AmThread)) (r : AmRec) (i : Instr) (g : Group) : Group :=
  let u := i.uses b.m.lanes
  let x := laneSet b.m.lanes fun l => ths.any fun e => e.1 == l
  let g0 : Group := { g with
    width := b.m.lanes, role := .general, enc := .e3, v := [], k := [], p := [], handler := false
    lanes := (List.range b.m.lanes).map fun l => if x.getLsbD l then Lane.start 8 else { Lane.start 8 with st := .finished }
    iss := { on := true, hdr := 0, pc := 8, words := encode i, cls := 6, x := x, wait := none, todo := none } }
  ths.foldl (fun g e =>
    match e.2.frames with
    | [] => g
    | f :: _ => (u.rd ++ u.wr).foldl (fun g x =>
      match r.reg x with
      | none => g
      | some y =>
        match x with
        | .v n => g.wv (BitVec.ofNat 10 n) e.1 (f.word b e.2.t y)
        | .k n => g.wk (BitVec.ofNat 6 n) (f.word b e.2.t y)
        | .p n => g.wp (BitVec.ofNat 4 n) e.1 (f.word b e.2.t y != 0)) g) g0

/-- The results of an operation on a lane in its thread's frame. -/
def AmFrame.results (f : AmFrame) (r : AmRec) (i : Instr) (g : Group) (l : Nat) : AmFrame :=
  (i.uses g.width).wr.foldl (fun f x =>
    match r.reg x with
    | none => f
    | some y =>
      match x with
      | .v n => f.set y (g.rv (BitVec.ofNat 10 n) l)
      | .k n => f.set y (g.rk (BitVec.ofNat 6 n))
      | .p n => f.set y (if g.rp (BitVec.ofNat 4 n) l then 1 else 0)) f

/-- A thread past the record at which it stands. -/
def AmThread.past (th : AmThread) : AmThread :=
  match th.frames with
  | f :: rest => { th with frames := { f with pc := f.pc + 1 } :: rest }
  | [] => th

/-- The thread takes the results of its lane, and goes on. -/
def AmThread.take (th : AmThread) (r : AmRec) (i : Instr) (g : Group) (l : Nat) : AmThread :=
  match th.frames with
  | f :: rest => { th with frames := { f.results r i g l with pc := f.pc + 1 } :: rest }
  | [] => th

/-- An operation of threads of one group that stand at it, each with its lane: its native instruction acts on those lanes. A lane that
must wait stays at it, and what the device has begun for it stays begun; a service park and a trap are the outcome of the block (R122,
R353). The threads come back in the order given. -/
def AmBlock.op (b : AmBlock) (gi : Nat) (ths : List (Nat × AmThread)) (r : AmRec) (s : State) : AmOut :=
  let holds (th : AmThread) : Bool := (th.frames.head?.map fun f => f.holds b th.t r).getD false
  let acting := if r.isPmov then ths.filter fun e => holds e.2 else ths
  match r.native b.m.lanes, b.groups[gi]? with
  | some i, some g =>
    match exec i { s with g := b.issue acting r i g } with
    | .next t =>
      let s' := { t with g := s.g }
      let due := if t.g.iss.wait.isSome then t.g.iss.due else 0#128
      let lanes := acting.map (·.1)
      match lanes.find? fun l => (t.g.lane l).st == .trapped with
      | some l => .trapped (t.g.lane l).tcause (t.g.lane l).taddr s'
      | none =>
        if lanes.any fun l => (t.g.lane l).st == .service then .parked s'
        else
          let ends (l : Nat) : Bool := (t.g.lane l).st == .eligible && !due.getLsbD l
          if !acting.isEmpty && !(lanes.any ends) then .waits s'
          else
            .next (ths.map fun e =>
                if !(lanes.contains e.1) then e.2.past else if ends e.1 then e.2.take r i t.g e.1 else e.2)
              (b.groups.set gi t.g) s'
    | _ => .stands
  | _, _ => .stands

/-! ## Structured records (R124) -/

/-- The index of the first record at depth 0 that stops the search, where some kinds open and some close. -/
def amFind (stop opens closes : AmKind → Bool) : List (Option AmRec) → Nat → Nat → Nat
  | [], _, n => n
  | none :: rest, d, n => amFind stop opens closes rest d (n + 1)
  | some r :: rest, d, n =>
    if d = 0 ∧ stop r.kind then n
    else amFind stop opens closes rest (if opens r.kind then d + 1 else if closes r.kind then d - 1 else d) (n + 1)

/-- The ELSE or ENDIF of an IF, or the ENDIF of an ELSE, from the record after it. -/
def amEndOfCond (recs : List (Option AmRec)) (pc : Nat) (orElse : Bool) : Nat :=
  amFind (fun k => k == .endCond || (orElse && k == .other)) (· == .cond) (· == .endCond) (recs.drop (pc + 1)) 0 (pc + 1)

/-- The ENDLOOP of the innermost loop, from the record after a BREAK. -/
def amEndOfLoop (recs : List (Option AmRec)) (pc : Nat) : Nat :=
  amFind (· == .endLoop) (· == .loop) (· == .endLoop) (recs.drop (pc + 1)) 0 (pc + 1)

/-- The ENDPAR of a region, from its PAR. -/
def amEndOfPar (recs : List (Option AmRec)) (pc : Nat) : Nat :=
  amFind (· == .endPar) (fun _ => false) (fun _ => false) (recs.drop (pc + 1)) 0 (pc + 1)

/-- A called function: its parameters are v1 to v3 (R121). -/
def AmFrame.callee (f : AmFrame) (b : AmBlock) (t : Option Nat) (r : AmRec) : AmFrame :=
  { fn := r.imm.toNat, pc := 0, k := [], p := [], loops := [], dst := r.d
    v := Store.put 0 (Store.put 0 (Store.put 0 [] 1 (f.value b t r r.a)) 2 (f.value b t r r.b)) 3 (f.value b t r r.c) }

/-- One structured record of a thread, or its end; none at an operation, a BARRIER, a PAR or an ENDPAR. -/
def AmThread.move (th : AmThread) (b : AmBlock) : Option AmThread :=
  match th.frames with
  | [] => none
  | f :: rest =>
    let recs := b.m.recs f.fn
    let go (f : AmFrame) : Option AmThread := some { th with frames := f :: rest }
    let ret (x : Word) : Option AmThread :=
      match rest with
      | [] => some { th with frames := [] }
      | c :: more =>
        let c := match f.dst.cls with
          | .v => c.set (.v f.dst.num) x
          | .k => c.set (.k f.dst.num) x
          | _ => c
        some { th with frames := { c with pc := c.pc + 1 } :: more }
    match recs[f.pc]? with
    | none => ret 0
    | some none => none
    | some (some r) =>
      match r.kind with
      | .op => none
      | .par => none
      | .endPar => none
      | .barrier => none
      | .cond => go { f with pc := if f.holds b th.t r then f.pc + 1 else amEndOfCond recs f.pc true + 1 }
      | .other => go { f with pc := amEndOfCond recs f.pc false + 1 }
      | .endCond => go { f with pc := f.pc + 1 }
      | .loop => go { f with pc := f.pc + 1, loops := (f.pc + 1) :: f.loops }
      | .brk =>
        if f.holds b th.t r then go { f with pc := amEndOfLoop recs f.pc + 1, loops := f.loops.tail }
        else go { f with pc := f.pc + 1 }
      | .endLoop => go { f with pc := f.loops.headD (f.pc + 1) }
      | .call => some { th with frames := f.callee b th.t r :: f :: rest }
      | .ret => ret (f.value b th.t r r.a)

/-! ## Blocks (R119, R120) -/

/-- The record at which a thread stands. -/
def AmThread.at (th : AmThread) (m : AmModule) : Option AmRec :=
  match th.frames with
  | f :: _ => ((m.recs f.fn)[f.pc]?).join
  | [] => none

/-- The thread has ended its segment (R119). -/
def AmThread.done (th : AmThread) (m : AmModule) : Bool :=
  match th.at m with
  | some r => r.kind == .barrier || r.kind == .endPar
  | none => th.frames.isEmpty

/-- One record of threads of one group that stand at it together, each with its lane. -/
def AmBlock.run (b : AmBlock) (gi : Nat) (ths : List (Nat × AmThread)) (s : State) : AmOut :=
  match ths.head?.bind fun e => e.2.at b.m with
  | some r =>
    if r.kind = .op then b.op gi ths r s
    else match ths.mapM fun e => e.2.move b with
      | some l => .next l b.groups s
      | none => .stands
  | none =>
    match ths.mapM fun e => e.2.move b with
    | some l => .next l b.groups s
    | none => .stands

/-- A thread may run: it has not ended its segment, and every thread of an earlier turn of its lane has (R125). -/
def AmBlock.ready (b : AmBlock) (ser : Bool) (ths : List AmThread) (th : AmThread) : Bool :=
  let p := b.place ser th
  !th.done b.m && ths.all fun y =>
    let q := b.place ser y
    !(q.2 == p.2 && decide (q.1 < p.1)) || y.done b.m

/-- The threads whose record is next, by their place in the list: one that may run, of the caller's choice, as the threads of a segment
are unordered (R120), with every other of its turn and group that may run and stands at the same record (assumption 26). -/
def AmBlock.choose (b : AmBlock) (ser : Bool) (ths : List AmThread) (choice : Nat) : List (Nat × AmThread) :=
  let ok := ((List.range ths.length).zip ths).filter fun e => b.ready ser ths e.2
  match ok[choice % ok.length]? with
  | none => []
  | some e =>
    let at_ (th : AmThread) : (Nat × Nat) × List (Nat × Nat) :=
      let p := b.place ser th
      ((p.1, p.2.1), th.site)
    ok.filter fun x => at_ x.2 == at_ e.2

/-- A native group stands at the barrier that ends the segment: its threads have ended it, and while serial code or a SERIAL region runs
every group but group 0 stands there (R119, R125). -/
def AmBlock.atBarrier (b : AmBlock) (gi : Nat) : Bool :=
  match b.region with
  | none => gi != 0
  | some (ser, ths) => ths.all fun th => (b.place ser th).2.1 != gi || th.done b.m

/-- What a step of a block comes to. -/
inductive AmRun where
  | next (b : AmBlock) (s : State)
  | waits (s : State)
  | parked (s : State)
  | trapped (cause : Word) (addr : DWord) (s : State)
  | ended
deriving DecidableEq, Repr

/-- The region that begins at the PAR of serial code: one thread for every index, with v0 and the uniform registers (R119, R121). -/
def AmBlock.enter (b : AmBlock) (f : AmFrame) (ser : Bool) : AmBlock :=
  { b with region := some (ser, (List.range b.m.threads).map fun t =>
      { t := some t, frames := [{ f with pc := f.pc + 1, v := [], p := [], loops := [] }] }) }

/-- The region ends, and serial code goes on behind it (R119). -/
def AmBlock.leave (b : AmBlock) : AmBlock :=
  match b.serial.frames with
  | f :: rest => { b with region := none, serial := { b.serial with frames := { f with pc := amEndOfPar (b.m.recs f.fn) f.pc + 1 } :: rest } }
  | [] => { b with region := none }

/-- What an outcome of threads is for their block. -/
def AmOut.lift (o : AmOut) (put : List AmThread → List Group → AmBlock) : AmRun :=
  match o with
  | .next l gs s => .next (put l gs) s
  | .waits s => .waits s
  | .parked s => .parked s
  | .trapped c a s => .trapped c a s
  | .stands => .ended

/-- One record of a block: of serial code, of threads of the region that runs, or the barrier that every group has reached (R119, R120,
R125). -/
def AmBlock.step (b : AmBlock) (choice : Nat) (s : State) : AmRun :=
  match b.region with
  | none =>
    match b.serial.frames, b.serial.at b.m with
    | [], _ => .ended
    | f :: _, some r =>
      if r.kind = .par then .next (b.enter f (r.m == 1)) s
      else (b.run 0 [(0, b.serial)] s).lift fun l gs => { b with groups := gs, serial := l.headD b.serial }
    | _, none => (b.run 0 [(0, b.serial)] s).lift fun l gs => { b with groups := gs, serial := l.headD b.serial }
  | some (ser, ths) =>
    if (List.range b.groups.length).all b.atBarrier then
      if ths.any fun x => ((x.at b.m).map fun r => r.kind == .barrier).getD false then
        .next { b with region := some (ser, ths.map AmThread.past) } s
      else .next b.leave s
    else
      let es := b.choose ser ths choice
      let gi := (es.head?.map fun e => (b.place ser e.2).2.1).getD 0
      (b.run gi (es.map fun e => ((b.place ser e.2).2.2, e.2)) s).lift fun l gs =>
        { b with groups := gs
                 region := some (ser, ((es.map (·.1)).zip l).foldl (fun ts e => ts.set e.1 e.2) ths) }

/-- A block of a module at its start, on its native groups (R119, R125). -/
def AmBlock.start (m : AmModule) (card : AmCard) (groups : List Group) : AmBlock :=
  { m := m, card := card, groups := groups, region := none
    serial := { t := none, frames := [{ fn := m.entry, pc := 0, v := [], k := [], p := [], loops := [], dst := ⟨.none, 0⟩ }] } }

end Sys2Proof.Machine
end

