-- ==== Sys2Proof/Machine/Assembler.lean ====
section
/-! DEFINITION. The assembler nkas and the NKX container (R109 to R112, R328 to R337): from the statements of a kernel to its
clauses, its image and the file. The text of the statements is read in AsmLine and AsmText. -/
namespace Sys2Proof

/-! ## Statements (R328 to R330) -/

/-- An instruction of a kernel; one whose target is a label takes its IMM from it (R329). -/
structure AsmInstr where
  ins    : Instr
  target : Option Nat
  line   : Nat
deriving DecidableEq, Repr

/-- The fields of an explicit clause (R330). -/
structure ClauseFields where
  cls    : Option Nat
  wload  : Nat
  wstore : Nat
  wasync : Nat
  safe   : Bool
  yld    : Bool
deriving DecidableEq, Repr

/-- A statement of a kernel's code (R328, R330). -/
inductive AsmItem where
  | label (n : Nat)
  | ins (i : AsmInstr)
  | safe
  | clause (f : ClauseFields)
  | endclause
  | align (n : Nat)
deriving DecidableEq, Repr

/-- A statement of a kernel's data area (R330). -/
inductive DataItem where
  | label (n : Nat)
  | bytes (bs : List Byte)
  | align (n : Nat)
deriving DecidableEq, Repr

/-- An output region: a VA, or a numbered argument (R111, R330). -/
structure OutRegion where
  argrel : Bool
  base   : Nat
  len    : Nat
deriving DecidableEq, Repr

/-- A kernel between .kernel and .end; the defaults are E3, width 32 and zeros (R330). -/
structure AsmKernel where
  name    : List Byte
  enc     : Enc
  width   : Nat
  regs    : Nat
  scratch : Nat
  stages  : List (Nat × Nat)
  rings   : List (Nat × Nat × Nat × Nat)
  cohort  : Nat
  det     : Bool
  outputs : List OutRegion
  drains  : List (Nat × List Word)
  code    : List AsmItem
  data    : List DataItem
deriving DecidableEq, Repr

def AsmKernel.named (name : List Byte) : AsmKernel :=
  { name := name, enc := .e3, width := 1, regs := 0, scratch := 0, stages := [], rings := [], cohort := 0, det := false
    outputs := [], drains := [], code := [], data := [] }

/-- The lanes of a group. -/
def AsmKernel.lanes (k : AsmKernel) : Nat := 16 * 2 ^ k.width

/-! ## The choice of a form (R329) -/

/-- The value, as a signed number, fits 27 bits. -/
def fitsImm (x : DWord) : Option Imm :=
  let i : Imm := x.truncate 27
  if i.signExtend 64 = x then some i else none

/-- The literal word of a 32-bit value, which may be written as a negative number. -/
def lit32 (x : DWord) : DWord := if -(2 ^ 31 : Nat) ≤ x.toInt ∧ x.toInt < 0 then (x.truncate 32).zeroExtend 64 else x

/-- The immediate form, when the opcode has one and the value fits; else the literal (R329). The value of the statement is the number
that its line writes, so 0xFFFF0040 does not fit and -65472 does. -/
def Instr.immForm (i : Instr) : Instr :=
  let pick (x : DWord) (f : Imm → Instr) (g : Src → Instr) : Instr :=
    match fitsImm x with
    | some m => f m
    | none => g (.lit (lit32 x))
  let kpick (x : DWord) (f : Imm → Instr) (g : KSrc → Instr) : Instr :=
    match fitsImm x with
    | some m => f m
    | none => g (.lit (lit32 x))
  match i with
  | .mov h d (.lit x) false => pick x (fun m => .movImm h d m) fun y => .mov h d y false
  | .iadd h d (.v a) (.lit x) false false => pick x (fun m => .iaddImm h d a m) fun y => .iadd h d (.v a) y false false
  | .imul h d (.v a) (.lit x) false false => pick x (fun m => .imulImm h d a m) fun y => .imul h d (.v a) y false false
  | .iand h d (.v a) (.lit x) => pick x (fun m => .iandImm h d a m) fun y => .iand h d (.v a) y
  | .ior h d (.v a) (.lit x) => pick x (fun m => .iorImm h d a m) fun y => .ior h d (.v a) y
  | .ixor h d (.v a) (.lit x) => pick x (fun m => .ixorImm h d a m) fun y => .ixor h d (.v a) y
  | .ishl h d (.v a) (.lit x) false false => pick x (fun m => .ishlImm h d a m) fun y => .ishl h d (.v a) y false false
  | .ishr h d (.v a) (.lit x) => pick x (fun m => .ishrImm h d a m) fun y => .ishr h d (.v a) y
  | .isar h d (.v a) (.lit x) => pick x (fun m => .isarImm h d a m) fun y => .isar h d (.v a) y
  | .pseti h d (.v a) (.lit x) c cmp n =>
    if c = 15 then pick x (fun m => .psetiImm h d a cmp n m) fun y => .pseti h d (.v a) y c cmp n
    else .pseti h d (.v a) (.lit (lit32 x)) c cmp n
  | .kmov h d (.lit x) false => kpick x (fun m => .kmovImm h d m) fun y => .kmov h d y false
  | .kadd h d (.k a) (.lit x) false false false => kpick x (fun m => .kaddImm h d a m) fun y => .kadd h d (.k a) y false false false
  | _ => i

/-- The bits of OFF in a generation (R324, R334). -/
def Enc.offBits : Enc → Nat
  | .e3 => 8
  | .e2 => 6
  | .e1 => 5

/-- OFF when the offset is a multiple of the access size and fits the field, else the literal (R329). -/
def Off.fit (e : Enc) (size : Nat) (o : Off) : Off :=
  match o with
  | .scaled b => .scaled b
  | .lit x =>
    let q := x.toInt / size
    let m : Int := (2 ^ (e.offBits - 1) : Nat)
    if x.toInt % size = 0 ∧ -m ≤ q ∧ q < m then .scaled (BitVec.ofInt 8 q) else .lit x

def Adr.fit (e : Enc) (size : Nat) (a : Adr) : Adr := { a with off := a.off.fit e size }

/-- The form of an instruction of the memory form (R329). -/
def Instr.offForm (e : Enc) : Instr → Instr
  | .ld h sz d a ann pf => .ld h sz d (a.fit e sz.bytes) ann pf
  | .st h sz d a ann => .st h sz d (a.fit e sz.bytes) ann
  | .lds h sz d a ann => .lds h sz d (a.fit e sz.bytes) ann
  | .sts h sz d a ann => .sts h sz d (a.fit e sz.bytes) ann
  | .ldk h w d a ann => .ldk h w d (a.fit e (if w then 8 else 4)) ann
  | .movq h d a => .movq h d (a.fit e 8)
  | i => i

/-! ## Clauses (R331) -/

/-- What the instructions of a clause make of its CLASS. -/
inductive Mix where
  | plain
  | engine (c : Nat)
  | ctl
  | sys
deriving DecidableEq, Repr

/-- The CLASS of a clause with one more instruction; none when it has none (R331). -/
def Mix.join (m : Mix) (a : Admits) : Option Mix :=
  match m, a with
  | m, .every => some m
  | _, .sys => some .sys
  | .sys, _ => some .sys
  | .plain, .engine c => some (.engine c)
  | .plain, .ctl => some .ctl
  | .ctl, .ctl => some .ctl
  | .ctl, .engine _ => none
  | .engine _, .ctl => none
  | .engine c, .engine d => if c = d then some (.engine c) else none

/-- The CLASS value (R316). -/
def Mix.cls : Mix → Nat
  | .plain => 5
  | .ctl => 5
  | .engine c => c
  | .sys => 6

/-- A clause: its fields, the labels of its header, and its instructions. -/
structure AsmClause where
  fields : ClauseFields
  mix    : Mix
  labels : List Nat
  items  : List AsmInstr
deriving DecidableEq, Repr

/-- The words of a clause without its header, literals counted. -/
def AsmClause.count (c : AsmClause) : Nat := (c.items.map fun i => i.ins.size).foldl (· + ·) 0

/-- What stands in the code: a clause, or a padding to a multiple of n bytes. -/
inductive Piece where
  | clause (c : AsmClause)
  | align (n : Nat)
deriving DecidableEq, Repr

/-- The packing in progress: the pieces so far in reverse, the clause that is open, whether it is explicit, and what waits for the
next instruction. -/
structure Packing where
  done     : List Piece
  now      : Option AsmClause
  explicit : Bool
  labels   : List Nat
  safe     : Bool
deriving DecidableEq, Repr

def implicitFields (safe : Bool) : ClauseFields := { cls := none, wload := 63, wstore := 63, wasync := 0, safe := safe, yld := false }

/-- The open clause ends. -/
def Packing.close (p : Packing) : Packing :=
  match p.now with
  | none => p
  | some c => { p with done := if c.items.isEmpty then p.done else .clause c :: p.done, now := none, explicit := false }

/-- A clause of its own begins with the instruction. -/
def Packing.fresh (p : Packing) (i : AsmInstr) (m : Mix) : Packing :=
  let p := p.close
  { p with now := some { fields := implicitFields p.safe, mix := m, labels := p.labels, items := [i] }, labels := [], safe := false }

/-- An instruction: it joins the open clause, or starts one (R331). -/
def Packing.ins (p : Packing) (i : AsmInstr) : Option Packing :=
  let a := admitsOf i.ins.opcode
  match Mix.join .plain a with
  | none => none
  | some alone =>
    match p.now with
    | none => some (p.fresh i alone)
    | some c =>
      let ended := c.items.getLast?.any fun l => l.ins.endsClause
      match c.mix.join a with
      | some m =>
        if p.explicit then
          if ended || !p.labels.isEmpty || p.safe || 16 < c.count + i.ins.size then none
          else some { p with now := some { c with mix := m, items := c.items ++ [i] } }
        else if ended || !p.labels.isEmpty || p.safe || 16 < c.count + i.ins.size then some (p.fresh i alone)
        else some { p with now := some { c with mix := m, items := c.items ++ [i] } }
      | none => if p.explicit then none else some (p.fresh i alone)

/-- One statement (R330, R331). -/
def Packing.item (e : Enc) (p : Packing) : AsmItem → Option Packing
  | .label n => some { p with labels := p.labels ++ [n] }
  | .safe => some { p with safe := true }
  | .ins i => p.ins { i with ins := i.ins.immForm.offForm e }
  | .align n => if p.explicit then none else some { p.close with done := .align n :: p.close.done }
  | .clause f =>
    if p.explicit then none
    else
      let p := p.close
      some { p with now := some { fields := { f with safe := f.safe || p.safe }, mix := .plain, labels := p.labels, items := [] }
                    explicit := true, labels := [], safe := false }
  | .endclause => if p.explicit && p.now.any (fun c => !c.items.isEmpty) then some p.close else none

/-- The pieces of a kernel's code; none where nkas reports an error (R331). -/
def packCode (e : Enc) (l : List AsmItem) : Option (List Piece) :=
  (l.foldlM (Packing.item e) { done := [], now := none, explicit := false, labels := [], safe := false }).bind fun p =>
    if p.explicit then none else some p.close.done.reverse

/-- The CLASS of a clause: its own field where that is given and admits every instruction (R317, R331). -/
def AsmClause.cls (c : AsmClause) : Option Nat :=
  match c.fields.cls with
  | none => some c.mix.cls
  | some k =>
    let ok (i : AsmInstr) : Bool :=
      match admitsOf i.ins.opcode with
      | .every => decide (k < 7)
      | .engine e => k == e || k == 6
      | .ctl => k == 5 || k == 6
      | .sys => k == 6
    if c.items.all ok then some k else none

/-! ## Switch markers (R332) -/

/-- The instruction with its switch marker. -/
def Raw.withS (r : Raw) (s : Bool) : Raw := { r with s := s }

/-- S for each instruction of a clause: it reads a register that an earlier instruction, no load, wrote since the last S (R332). -/
def switches (w : Nat) : List Instr → List NReg → List Bool
  | [], _ => []
  | i :: rest, fresh =>
    let u := i.uses w
    let s := u.rd.any fresh.contains
    let wr := if i.isLoad then [] else u.wr
    s :: switches w rest (if s then wr else fresh ++ wr)

/-! ## Encoding -/

/-- The header word of a clause (R316); in E1 bits 44:41 name ch0 to ch3 (R336). -/
def headerWord (e : Enc) (cls count wload wstore wasync : Nat) (safe yld : Bool) : DWord :=
  let w := match e with | .e1 => wasync * 2 ^ 41 | _ => wasync * 2 ^ 37
  BitVec.ofNat 64 (cls * 2 ^ 61 + (count - 1) * 2 ^ 57 + wload * 2 ^ 51 + wstore * 2 ^ 45 + w + safe.toNat * 2 ^ 36
    + yld.toNat * 2 ^ 35)

/-- The header's fields are valid in the generation (R316, R336). -/
def headerOkIn (e : Enc) (cls wasync : Nat) : Bool :=
  match e with
  | .e3 => decide (cls < 7 ∧ wasync < 256)
  | .e2 => decide (cls < 7 ∧ cls ≠ 3 ∧ wasync < 256) && !wasync.testBit 6
  | .e1 => [0, 2, 5, 6].contains cls && decide (wasync < 16)

/-- The opcode that a generation gives an instruction (R337). -/
def opcodeIn (e : Enc) (o : Nat) : Nat :=
  match e with
  | .e3 => o
  | .e2 => if o = 0x185 then 0x0A0 else o
  | .e1 => if 0x080 ≤ o ∧ o ≤ 0x085 then o - 0x070 else if 0x090 ≤ o ∧ o ≤ 0x09F then o - 0x070 else o

/-- A register field of n bits (R334). -/
def narrow (n : Nat) (f : BitVec 10) : Nat := if f = 0x3FF then 2 ^ n - 1 else f.toNat

/-- A word with register fields of n bits (R334). -/
def packLegacy (e : Enc) (n : Nat) (r : Raw) : DWord :=
  let o := r.opc.toNat
  let dLo := 47 - n
  let aLo := dLo - n
  let bLo := aLo - n
  let cLo := bLo - n
  let head := r.s.toNat * 2 ^ 63 + opcodeIn e o * 2 ^ 52 + r.g.toNat * 2 ^ 48 + r.gn.toNat * 2 ^ 47 + narrow n r.d * 2 ^ dLo
    + narrow n r.a * 2 ^ aLo
  let c := if memOpc o then r.c.toNat / 256 * 2 ^ (n - 2) + r.c.toNat % 2 ^ (n - 2) else if numC o then r.c.toNat else narrow n r.c
  if immOpc o then BitVec.ofNat 64 (head + r.imm.toNat)
  else BitVec.ofNat 64 (head + narrow n r.b * 2 ^ bLo + c * 2 ^ cLo + r.m.toNat * 2 ^ (cLo - 7))

/-- The word of the fields in a generation; none where the generation cannot hold them (R334, R337). -/
def packEnc (e : Enc) (r : Raw) : Option DWord :=
  let w := match e with
    | .e3 => r.pack
    | .e2 => packLegacy .e2 8 r
    | .e1 => packLegacy .e1 7 r
  if unpackEnc e w = some r then some w else none

/-- The byte offset from the kernel header at which each clause and padding begins (R331), and the end. -/
def gapTo (off n : Nat) : Nat :=
  let g := (n - off % n) % n
  if g = 8 then g + n else g

/-- Padding of w words as clauses of NOP words, each a header and 1 to 16 NOPs (R330). -/
def nopClauses (e : Enc) : Nat → Nat → List DWord
  | 0, _ => []
  | fuel + 1, w =>
    if w < 2 then []
    else
      let n := if w ≤ 17 then w - 1 else if w = 18 then 15 else 16
      headerWord e 5 n 63 63 0 false false :: (List.replicate n (encode (.nop ⟨false, 15, false⟩))).flatten ++ nopClauses e fuel (w - 1 - n)

/-- The pieces with their offsets, from an offset on. -/
def offsets : List Piece → Nat → List (Nat × Piece)
  | [], _ => []
  | p :: rest, o =>
    match p with
    | .clause c => (o, p) :: offsets rest (o + 8 + 8 * c.count)
    | .align n => (o, p) :: offsets rest (o + gapTo o n)

def endOf : List Piece → Nat → Nat
  | [], o => o
  | .clause c :: rest, o => endOf rest (o + 8 + 8 * c.count)
  | .align n :: rest, o => endOf rest (o + gapTo o n)

/-- The offset of a label of the code. -/
def labelAt (l : List (Nat × Piece)) (n : Nat) : Option Nat :=
  (l.find? fun e => match e.2 with
    | .clause c => c.labels.contains n
    | .align _ => false).map (·.1)

/-- IMM of a BRA or CALL at an offset: the distance to its label in words (R329). -/
def AsmInstr.resolve (i : AsmInstr) (at_ : Nat) (l : List (Nat × Piece)) : Option Instr :=
  match i.target with
  | none => some i.ins
  | some n =>
    match labelAt l n with
    | none => none
    | some t =>
      let d : Int := ((t : Int) - at_) / 8
      if d < -(2 ^ 26 : Nat) ∨ (2 ^ 26 : Nat) ≤ d then none
      else match i.ins with
        | .bra h _ => some (.bra h (BitVec.ofInt 27 d))
        | .call h _ => some (.call h (BitVec.ofInt 27 d))
        | _ => none

/-- The instructions of a clause from an offset on, their labels resolved. -/
def resolveAll (l : List (Nat × Piece)) : List AsmInstr → Nat → Option (List Instr)
  | [], _ => some []
  | i :: rest, o => do
    let x ← i.resolve o l
    let xs ← resolveAll l rest (o + 8 * i.ins.size)
    return x :: xs

/-- The words of an instruction with its switch marker. -/
def Instr.wordsWith (e : Enc) (i : Instr) (s : Bool) : Option (List DWord) :=
  i.raw.bind fun r => (packEnc e (r.1.withS s)).map fun w => w :: r.2

/-- The words of a piece at its offset. -/
def pieceWords (g : Enc) (width : Nat) (l : List (Nat × Piece)) (e : Nat × Piece) : Option (List DWord) :=
  match e.2 with
  | .align n => some (nopClauses g (gapTo e.1 n) (gapTo e.1 n / 8))
  | .clause c => do
    let is ← resolveAll l c.items (e.1 + 8)
    let ws ← (is.zip (switches width is [])).mapM fun x => x.1.wordsWith g x.2
    let k ← c.cls
    if (c.items.dropLast.any fun i => i.ins.endsClause) || !headerOkIn g k c.fields.wasync then none
    else return headerWord g k c.count c.fields.wload c.fields.wstore c.fields.wasync c.fields.safe c.fields.yld :: ws.flatten

/-- The offset of the code from the kernel header, as the example after R333 has it. -/
def codeOffset : Nat := 0x100

/-- The words of a kernel's code; none where nkas reports an error. -/
def assembleCode (e : Enc) (width : Nat) (l : List AsmItem) : Option (List DWord) := do
  let ps ← packCode e l
  let os := offsets ps codeOffset
  let ws ← os.mapM (pieceWords e width os)
  return ws.flatten

/-! ## The catalogue (R112, R333) -/

/-- The registers whose values an instruction surely replaces in the lanes that execute it. -/
def Instr.kills (w : Nat) (i : Instr) : List NReg :=
  match i with
  | .pmov _ (.fromV _ _) => []
  | .poola .. => []
  | .waitf .. => []
  | _ =>
    match i.hdr? with
    | some h => if h.g = 15 ∧ h.gn = false then (i.uses w).wr else []
    | none => []

/-- What is live before a list of instructions, from what is live after it. -/
def liveBefore (w : Nat) (is : List Instr) (after : List NReg) : List NReg :=
  is.foldr (fun i l => ((i.uses w).rd ++ l.filter fun r => !(i.kills w).contains r).eraseDups) after

/-- The last instruction of a clause. -/
def AsmClause.last (c : AsmClause) : Option AsmInstr := c.items.getLast?

/-- A lane of the clause may go on at the next clause: the last instruction is guarded, or lets it (R181). -/
def AsmClause.falls (c : AsmClause) : Bool :=
  match c.last with
  | none => true
  | some i =>
    let sure := (i.ins.hdr?.map fun h => h.g == 15 && !h.gn).getD false
    match i.ins with
    | .bra .. => !sure
    | .brx .. => !sure
    | .ret .. => !sure
    | .exit .. => !sure
    | _ => true

/-- The clauses that may follow clause n of a kernel: the next one, the target of a branch or a call, any clause for an address in
a register, and the clause after any call for a return (R333). -/
def successors (cs : List AsmClause) (n : Nat) : List Nat :=
  match cs[n]? with
  | none => []
  | some c =>
    let next := if c.falls && decide (n + 1 < cs.length) then [n + 1] else []
    let all := List.range cs.length
    next ++ match c.last with
      | none => []
      | some i =>
        match i.ins, i.target with
        | .bra .., some t => all.filter fun m => (cs[m]?.map fun x => x.labels.contains t).getD false
        | .call .., some t => all.filter fun m => (cs[m]?.map fun x => x.labels.contains t).getD false
        | .bra .., none => all
        | .call .., none => all
        | .brx .., _ => all
        | .callx .., _ => all
        | .ret .., _ => all.filter fun m => 0 < m && ((cs[m - 1]?.bind AsmClause.last).map fun x => match x.ins with
            | .call .. => true
            | .callx .. => true
            | _ => false).getD false
        | _, _ => []

/-- One pass of liveness over the clauses. -/
def livePass (w : Nat) (cs : List AsmClause) (live : List (List NReg)) : List (List NReg) :=
  (cs.zip (List.range cs.length)).map fun e =>
    liveBefore w (e.1.items.map (·.ins)) ((successors cs e.2).flatMap fun m => live.getD m []).eraseDups

/-- What is live at each clause, over every path (R333): as many passes as there are clauses reach every path. -/
def liveIn (w : Nat) (cs : List AsmClause) : List (List NReg) :=
  (List.range (cs.length + 1)).foldl (fun l _ => livePass w cs l) (cs.map fun _ => [])

/-- The two words of a live-mask entry (R112). -/
def maskWords (l : List NReg) : List DWord :=
  let f (acc : Nat × Nat × Nat) (r : NReg) : Nat × Nat × Nat :=
    match r with
    | .v n => (acc.1 ||| 2 ^ (n / 64), acc.2.1, acc.2.2)
    | .p n => (acc.1, acc.2.1 ||| 2 ^ n, acc.2.2)
    | .k n => (acc.1, acc.2.1, acc.2.2 ||| 2 ^ n)
  let m := l.foldl f (0, 0, 0)
  [BitVec.ofNat 64 (m.1 + m.2.1 * 2 ^ 16), BitVec.ofNat 64 m.2.2]

/-- The clauses with their offsets in words from the start of the code (R112). -/
def clauseOffsets (os : List (Nat × Piece)) : List (Nat × AsmClause) :=
  os.filterMap fun e => match e.2 with
    | .clause c => some ((e.1 - codeOffset) / 8, c)
    | .align _ => none

/-- The safe points, the live masks and the line marks (R112, R333). -/
def catalogue (w : Nat) (os : List (Nat × Piece)) : List DWord × List DWord × List DWord :=
  let cs := clauseOffsets os
  let live := liveIn w (cs.map (·.2))
  let safe := (cs.zip live).filter fun e => e.1.2.fields.safe
  let sp := (safe.zip (List.range safe.length)).map fun e => BitVec.ofNat 64 (e.1.1.1 + e.2 * 2 ^ 32)
  let lm := safe.flatMap fun e => maskWords e.2
  let ln := cs.map fun e => BitVec.ofNat 64 (e.1 + ((e.2.items.head?.map (·.line)).getD 0) % 2 ^ 24 * 2 ^ 32)
  (sp, lm, ln)

/-! ## The image (R110, R333) -/

/-- The data area's bytes, from an offset on. -/
def dataBytes : List DataItem → Nat → List Byte
  | [], _ => []
  | .label _ :: rest, o => dataBytes rest o
  | .bytes bs :: rest, o => bs ++ dataBytes rest (o + bs.length)
  | .align n :: rest, o => List.replicate ((n - o % n) % n) 0 ++ dataBytes rest (o + (n - o % n) % n)

/-- The offset of a label of the data area. -/
def dataLabel : List DataItem → Nat → Nat → Option Nat
  | [], _, _ => none
  | .label m :: rest, o, n => if m = n then some o else dataLabel rest o n
  | .bytes bs :: rest, o, n => dataLabel rest (o + bs.length) n
  | .align a :: rest, o, n => dataLabel rest (o + (a - o % a) % a) n

/-- 16 words of a drain program, padded with END (R330). -/
def drainWords (k : AsmKernel) (n : Nat) : List Word :=
  let ws := ((k.drains.find? fun d => d.1 == n).map (·.2)).getD []
  (List.range 16).map fun i => ws.getD i 0

/-- The drain programs that the header counts: every number up to the highest. -/
def AsmKernel.drainCount (k : AsmKernel) : Nat := (k.drains.map fun d => d.1 + 1).foldl max 0

/-- The two words of an output region (R111). -/
def OutRegion.words (o : OutRegion) : List DWord := [BitVec.ofNat 64 (o.argrel.toNat * 2 ^ 63 + o.base % 2 ^ 48), BitVec.ofNat 64 o.len]

/-- Word 0 of the header (R110). -/
def AsmKernel.word0 (k : AsmKernel) : Nat :=
  let enc := match k.enc with | .e3 => 0 | .e2 => 1 | .e1 => 2
  0x484B584E + enc * 2 ^ 32 + k.width * 2 ^ 34 + k.regs * 2 ^ 36 + k.det.toNat * 2 ^ 40 + k.stages.length * 2 ^ 42

/-- STAGE0 to STAGE3 (R110). -/
def AsmKernel.word2 (k : AsmKernel) : Nat :=
  ((k.stages.zip (List.range 4)).map fun e => (e.1.1 + (e.1.2 - 1) * 4) * 2 ^ (16 * e.2)).foldl (· + ·) 0

/-- Four of the rings, from one on (R110). -/
def AsmKernel.ringWord (k : AsmKernel) (from_ : Nat) : Nat :=
  ((k.rings.filter fun r => decide (from_ ≤ r.1 ∧ r.1 < from_ + 4)).map fun r =>
    (r.2.1 + r.2.2.1 * 32 + r.2.2.2 * 128) * 2 ^ (16 * (r.1 - from_))).foldl (· + ·) 0

/-- The limits of the directives (R330). -/
def AsmKernel.ok (k : AsmKernel) : Bool :=
  decide (k.width < 4) && decide (k.regs ≤ 15) && k.scratch % 256 == 0 && decide (k.stages.length ≤ 4)
    && (k.stages.all fun s => decide (s.1 < 3 ∧ 1 ≤ s.2 ∧ s.2 ≤ 32))
    && (k.rings.all fun r => decide (r.1 < 8 ∧ 2 ≤ r.2.1 ∧ r.2.1 ≤ 16 ∧ r.2.2.1 < 4 ∧ r.2.2.2 < 4)) && decide (k.cohort ≤ 4)
    && decide (k.outputs.length ≤ 256) && (k.drains.all fun d => decide (d.1 < 32 ∧ d.2.length ≤ 16))

/-- ABAR and the twin modifier need .cohort (R330). -/
def AsmKernel.allows (k : AsmKernel) (i : Instr) : Bool :=
  match i with
  | .abar .. => decide (1 ≤ k.cohort)
  | .mma _ _ _ _ _ _ twin _ => !twin || k.cohort == 2
  | _ => true

/-- Where the parts of an image stand: code at 0x100, then the drain table, the output table, the safe points, the live masks, the
line marks and the data area, each at a multiple of 64 (assumption 25). -/
structure Layout where
  drn  : Nat
  out  : Nat
  sp   : Nat
  lm   : Nat
  ln   : Nat
  data : Nat
deriving DecidableEq, Repr

def layoutOf (k : AsmKernel) (code sp lm ln : Nat) : Layout :=
  let drn := roundup (codeOffset + 8 * code) 64
  let out := roundup (drn + 64 * k.drainCount) 64
  let spo := roundup (out + 16 * k.outputs.length) 64
  let lmo := roundup (spo + 8 * sp) 64
  let lno := roundup (lmo + 8 * lm) 64
  { drn := drn, out := out, sp := spo, lm := lmo, ln := lno, data := roundup (lno + 8 * ln) 64 }

/-- Bytes up to an offset, padded with zeros. -/
def padBytes (bs : List Byte) (n : Nat) : List Byte := bs ++ List.replicate (n - bs.length) 0

/-- The image of a kernel; none where nkas reports an error (R110, R330, R333). -/
def AsmKernel.image (k : AsmKernel) : Option (List Byte) := do
  if !k.ok then none
  let ps ← packCode k.enc k.code
  let os := offsets ps codeOffset
  if !(clauseOffsets os).all fun c => c.2.items.all fun i => k.allows i.ins then none
  let ws := (← os.mapM (pieceWords k.enc k.lanes os)).flatten
  let (sp, lm, ln) := catalogue k.lanes os
  let l := layoutOf k ws.length sp.length lm.length ln.length
  let hdr : List Nat :=
    [k.word0, k.scratch, k.word2, k.ringWord 0, k.ringWord 4, codeOffset + 8 * ws.length * 2 ^ 32, l.drn + k.drainCount * 2 ^ 32
      , l.out + k.outputs.length * 2 ^ 32, l.sp + sp.length * 2 ^ 32, l.lm + lm.length / 2 * 2 ^ 32, l.ln
      , l.ln + 8 * ln.length * 2 ^ 32, 0, 0, 0, 0]
  let words (xs : List DWord) : List Byte := xs.flatMap fun x => toBytes 8 x.toNat
  let bs := padBytes (hdr.flatMap (toBytes 8)) codeOffset ++ words ws
  let bs := padBytes bs l.drn ++ ((List.range k.drainCount).flatMap fun n => (drainWords k n).flatMap fun w => toBytes 4 w.toNat)
  let bs := padBytes bs l.out ++ words (k.outputs.flatMap OutRegion.words)
  let bs := padBytes bs l.sp ++ words sp
  let bs := padBytes bs l.lm ++ words lm
  let bs := padBytes bs l.ln ++ words ln
  return padBytes bs l.data ++ dataBytes k.data l.data

/-! ## The container (R109) -/

/-- The file with these kernels: header, directory, names and images (R109). -/
def nkxFile (ks : List (List Byte × List Byte)) : List Byte :=
  let dir := 64
  let names := dir + 16 * ks.length
  let total := (ks.map fun k => k.1.length + 1).foldl (· + ·) 0
  let images := roundup (names + total) 64
  let place (s : List Nat × List Nat × Nat × Nat) (k : List Byte × List Byte) : List Nat × List Nat × Nat × Nat :=
    (s.1 ++ [s.2.2.1], s.2.1 ++ [s.2.2.2], s.2.2.1 + k.1.length + 1, roundup (s.2.2.2 + k.2.length) 64)
  let p := ks.foldl place ([], [], names, images)
  let head := [0x4E, 0x4B, 0x58, 0x01] ++ toBytes 4 1 ++ toBytes 4 ks.length ++ toBytes 4 dir
  let entries := (ks.zip (p.1.zip p.2.1)).flatMap fun e => toBytes 4 e.2.1 ++ toBytes 4 e.2.2 ++ toBytes 8 e.1.2.length
  let bs := padBytes head dir ++ entries ++ ks.flatMap fun k => k.1 ++ [0]
  (ks.zip p.2.1).foldl (fun b e => padBytes b e.2 ++ e.1.2) bs

/-- The bytes of a name from an offset up to its NUL. -/
def nameAt (f : List Byte) (o : Nat) : List Byte := (f.drop o).takeWhile fun b => b != 0

/-- The kernels of a file, each with its name and image, or none when it is no NKX file of version 1 (R109). -/
def nkxKernels (f : List Byte) : Option (List (List Byte × List Byte)) :=
  let n := fieldAt f 8 4
  let d := fieldAt f 12 4
  if f.length < 64 ∨ f.take 4 ≠ [0x4E, 0x4B, 0x58, 0x01] ∨ fieldAt f 4 4 ≠ 1 ∨ (f.drop 16).take 48 ≠ List.replicate 48 0
      ∨ f.length < d + 16 * n then none
  else (List.range n).mapM fun i =>
    let e := d + 16 * i
    let o := fieldAt f (e + 4) 4
    let len := fieldAt f (e + 8) 8
    if f.length < o + len then none else some (nameAt f (fieldAt f e 4), (f.drop o).take len)

end Sys2Proof
end

