-- ==== Sys2Proof/Machine/AmitilHeap.lean ====
section
/-! DEFINITION. The code heap of an Amitil module and what the translator writes there (R126 to R131): the descriptor, stubs and far
thunks, placement, the catalogue, the release of parked lanes and the reclaiming of functions. The code of a function is the
translator's own and an argument here (assumption 26). -/
namespace Sys2Proof.Machine

/-- An act of the translator, in the order made: bytes written to the heap, the catalogue or the placement table at an address; what has
been written made visible at domain scope; cached copies of a range invalidated (R129). -/
inductive AmAct where
  | write (va : Nat) (bytes : List Byte)
  | visible
  | invalidate (va len : Nat)
deriving DecidableEq, Repr

/-- An act performed, on behalf of Docent in the heap's address space. -/
def AmAct.perform (w : Who) : AmAct → Mem Unit
  | .write va bytes => engineWrite w va bytes
  | .visible => release w 3
  | .invalidate va len => do
    let ps ← pieces w .nothing (len / 4096 + 2) va len
    ps.forM fun p => Mem.mod fun s => (List.range 32).foldl (fun s c =>
      (cuts 32 (p.len / 32 + 2) p.leaf.dpa p.len).foldl (fun s x => s.dropBytes c x.1 x.2) (s.dropCode c p.leaf.dpa p.len)) s

/-- A report (R128). -/
structure AmReport where
  code : Nat
  func : Nat
  rec_ : Nat
  need : Nat
deriving DecidableEq, Repr

/-- A stub: its callee, its address, and the address of the function that its TRAP word has been patched to, if any (R129). -/
structure AmStub where
  fn      : Nat
  va      : Nat
  patched : Bool
deriving DecidableEq, Repr

/-- A placed function: its offset, its bytes of code, the stubs that follow, and its safe points as OFF and LMI (R129, R130). -/
structure AmPlaced where
  fn    : Nat
  off   : Nat
  len   : Nat
  stubs : List AmStub
  safe  : List (Nat × Nat)
deriving DecidableEq, Repr

/-- A code heap as its driver and the translator know it, in its address space (R127). -/
structure AmHeap where
  asn    : Nat
  va     : Nat
  hlog   : Nat
  modva  : Nat
  catva  : Nat
  catlen : Nat
  plva   : Nat
  state  : Nat
  report : AmReport
  placed : List AmPlaced
  /-- Live-mask entries in use, and which of the two safe-point buffers is (R130). -/
  masks  : Nat
  buf    : Bool
  /-- Where the output-region table of the kernel header stands, and its entries (R123). -/
  outOff : Nat
  outs   : List (Nat × Nat)
deriving DecidableEq, Repr

/-! ## The descriptor (R127, R128) -/

/-- The heap of a descriptor that the driver has written; none when it has no heap (R127). -/
def amHeap (asn va : Nat) (bs : List Byte) : Option AmHeap :=
  let f (i n : Nat) : Nat := fieldAt bs i n
  if bs.take 4 = [0x41, 0x4D, 0x48, 0x50] ∧ 20 ≤ f 4 1 ∧ f 4 1 ≤ 32 ∧ va % 2 ^ f 4 1 = 0 ∧ f 16 8 % 64 = 0 ∧ f 24 8 % 64 = 0 then
    some { asn := asn, va := va, hlog := f 4 1, modva := f 8 8, catva := f 16 8, catlen := f 24 8, plva := f 32 8, state := 0
           report := ⟨0, 0, 0, 0⟩, placed := [], masks := 0, buf := false, outOff := 0, outs := [] }
  else none

/-- The heap of a trapping PC: the low HLOG bits cleared (R127). -/
def AmHeap.of (hlog pc : Nat) : Nat := pc / 2 ^ hlog * 2 ^ hlog

/-- The kernel header's address (R127). -/
def AmHeap.khdr (h : AmHeap) : Nat := h.va + 256

/-- The report's bytes at offset 64 (R127, R128). -/
def AmHeap.reportStore (h : AmHeap) : AmAct :=
  .write (h.va + 64) (toBytes 4 h.report.code ++ toBytes 4 h.report.func ++ toBytes 4 h.report.rec_ ++ toBytes 4 h.report.need
    ++ List.replicate 16 0)

/-- A later report replaces an earlier one (R128). -/
def AmHeap.fail (h : AmHeap) (r : AmReport) : AmHeap := { h with report := r }

/-- The fields that binding writes: STATE, GROUPS, WIDTH, COARSE and SCRATCH (R126, R127). -/
def AmHeap.bindStores (h : AmHeap) (m : AmModule) (need : Nat) : List AmAct :=
  let c := amCoarse m.threads m.lanes
  [.write (h.va + 40) (toBytes 4 (amGroups m.threads m.lanes c) ++ toBytes 1 (amWidthCode m.lanes) ++ toBytes 1 c ++ [0, 0]
      ++ toBytes 4 (m.headerWords 0 need).2)
  , .write (h.va + 5) (toBytes 1 h.state), h.reportStore]

/-! ## The catalogue (R112, R130) -/

/-- The live-mask table is the first half of the area, and the second half holds two safe-point buffers (R130). -/
def AmHeap.maskRoom (h : AmHeap) : Nat := h.catlen / 2 / 16
def AmHeap.safeRoom (h : AmHeap) : Nat := h.catlen / 4 / 8

/-- The address of a safe-point buffer. -/
def AmHeap.safeVa (h : AmHeap) (buf : Bool) : Nat := h.catva + h.catlen / 2 + if buf then h.catlen / 4 else 0

/-- The safe points of every placed function in ascending OFF (R112). -/
def AmHeap.safePoints (h : AmHeap) : List (Nat × Nat) := sortBy (fun a b => decide (a.1 ≤ b.1)) (h.placed.flatMap (·.safe))

/-- Word 8 of the kernel header: SPCNT and SPOFF (R110, R130). -/
def AmHeap.word8 (h : AmHeap) : Nat := h.safePoints.length * 2 ^ 32 + (h.safeVa h.buf - h.khdr) % 2 ^ 32

/-- The complete table in the buffer not in use, then the switch by one 8-byte store (R130). -/
def AmHeap.switch (h : AmHeap) : AmHeap × List AmAct :=
  let h := { h with buf := !h.buf }
  (h, [.write (h.safeVa h.buf) (h.safePoints.flatMap fun e => toBytes 8 (e.1 + e.2 * 2 ^ 32)), .write (h.khdr + 64) (toBytes 8 h.word8)])

/-! ## Stubs and thunks (R129) -/

/-- The header of a CTL clause of n words. -/
def amCtl (n : Nat) : Nat := (headerWord .e3 5 n 63 63 0 false false).toNat

/-- The word of a native instruction. -/
def wordOf (i : Instr) : Nat := ((encode i).headD 0).toNat

def amHdr : Hdr := ⟨false, 15, false⟩

/-- The TRAP word of a stub: a service trap with the callee's function index (R129, R353). -/
def amTrap (fn : Nat) : Nat := wordOf (.trapSvc amHdr (BitVec.ofNat 24 fn))

/-- A stub: a CTL clause of the service trap, and 24 bytes of zeros for the far thunk. -/
def amStubBytes (fn : Nat) : List Byte := toBytes 8 (amCtl 1) ++ toBytes 8 (amTrap fn) ++ List.replicate 24 0

/-- The TRAP word of a stub and its far thunk. -/
def AmStub.trapVa (x : AmStub) : Nat := x.va + 8
def AmStub.thunkVa (x : AmStub) : Nat := x.va + 16

/-- BRA at an address reaches a target (R343). -/
def amReaches (at_ target : Nat) : Bool := decide (-(2 ^ 26 : Nat) ≤ ((target : Int) - at_) / 8 ∧ ((target : Int) - at_) / 8 < (2 ^ 26 : Nat))

/-- The BRA word at an address to a target (R343). -/
def amBra (at_ target : Nat) : Nat := wordOf (.bra amHdr (BitVec.ofInt 27 (((target : Int) - at_) / 8)))

/-- The far thunk: a CTL clause of a BRX with the function's address as its literal (R129). -/
def amThunk (target : Nat) : List Byte :=
  toBytes 8 (amCtl 2) ++ (encode (.brx amHdr (.lit (BitVec.ofNat 64 target)))).flatMap fun w => toBytes 8 w.toNat

/-- Step 3 of R129 for one stub: the far thunk where BRA does not reach. -/
def AmStub.thunkStore (x : AmStub) (target : Nat) : List AmAct :=
  if amReaches x.trapVa target then [] else [.write x.thunkVa (amThunk target)]

/-- Step 4 of R129 for one stub: the TRAP word becomes a BRA in one 8-byte store. -/
def AmStub.patchStore (x : AmStub) (target : Nat) : AmAct :=
  .write x.trapVa (toBytes 8 (amBra x.trapVa (if amReaches x.trapVa target then target else x.thunkVa)))

/-- The TRAP word again, and the thunk zeroed (R131). -/
def AmStub.restoreStores (x : AmStub) : List AmAct := 
  [.write x.trapVa (toBytes 8 (amTrap x.fn)), .write x.thunkVa (List.replicate 24 0)]

/-! ## Placement (R129) -/

/-- Bytes of a placed function with its stubs. -/
def AmPlaced.size (p : AmPlaced) : Nat := p.len + 40 * p.stubs.length

/-- The first offset from lo on at which n bytes are free, among ranges in ascending order. -/
def amFit (n limit : Nat) : List (Nat × Nat) → Nat → Option Nat
  | [], lo => if lo + n ≤ limit then some lo else none
  | (o, len) :: rest, lo => if lo + n ≤ o then some lo else amFit n limit rest (max lo (o + len))

/-- First fit in ascending heap offset (R129); the table of output regions takes its room as well. -/
def AmHeap.fit (h : AmHeap) (n : Nat) : Option Nat :=
  amFit n (2 ^ h.hlog)
    (sortBy (fun a b => decide (a.1 ≤ b.1)) ((h.outOff, 16 * h.outs.length) :: h.placed.map fun p => (p.off, p.size))) 512

/-- What the translator makes of a function: its code, which may depend on where its stubs stand, the functions it calls, and the clause
headers with SAFE set as offsets in words with their live masks. -/
structure AmCode where
  len   : Nat
  words : Nat → List DWord
  calls : List Nat
  safe  : List (Nat × DWord × DWord)

/-- Every stub of a function in the heap. -/
def AmHeap.stubsOf (h : AmHeap) (fn : Nat) : List AmStub := (h.placed.flatMap (·.stubs)).filter fun x => x.fn == fn

/-- The placement of a function, steps 1 to 4 of R129: the stores in their order, and the address of its first clause header; none for
want of code space, or of room in the catalogue, with the report code and the bytes sought. -/
def AmHeap.place (h : AmHeap) (fn : Nat) (c : AmCode) : Except (Nat × Nat) (AmHeap × List AmAct × Nat) :=
  let size := 8 * c.len + 40 * c.calls.length
  match h.fit size with
  | none => .error (3, size)
  | some off =>
    let target := h.va + off
    let stubs : List AmStub := (c.calls.zip (List.range c.calls.length)).map fun e =>
      { fn := e.1, va := target + 8 * c.len + 40 * e.2, patched := false }
    let safe := (c.safe.zip (List.range c.safe.length)).map fun e => ((off - 512) / 8 + e.1.1, h.masks + e.2)
    if h.maskRoom < h.masks + c.safe.length then .error (4, 16 * c.safe.length)
    else if h.safeRoom < h.safePoints.length + c.safe.length then .error (4, 8 * c.safe.length)
    else
      let code : AmAct := .write target ((c.words target).flatMap (fun w => toBytes 8 w.toNat) ++ c.calls.flatMap amStubBytes)
      let masks : List AmAct := (c.safe.zip (List.range c.safe.length)).map fun e =>
        .write (h.catva + 16 * (h.masks + e.2)) (toBytes 8 e.1.2.1.toNat ++ toBytes 8 e.1.2.2.toNat)
      let lm : AmAct := .write (h.khdr + 72) (toBytes 8 ((h.masks + c.safe.length) * 2 ^ 32 + (h.catva - h.khdr) % 2 ^ 32))
      let item : AmPlaced := { fn := fn, off := off, len := 8 * c.len, stubs := stubs, safe := safe }
      let sw := { h with placed := h.placed ++ [item], masks := h.masks + c.safe.length }.switch
      let old := sw.1.stubsOf fn
      let thunks := old.flatMap fun x => x.thunkStore target
      let patches := old.map fun x => x.patchStore target
      let done := { sw.1 with placed := sw.1.placed.map fun p =>
        { p with stubs := p.stubs.map fun x => if x.fn = fn then { x with patched := true } else x } }
      .ok (done, [code] ++ masks ++ [lm] ++ sw.2 ++ thunks
          ++ [.visible, .invalidate target size] ++ (old.map fun x => .invalidate x.thunkVa 24)
          ++ patches ++ [.write (h.plva + 8 * fn) (toBytes 8 off)], target)

/-! ## Parked lanes (R129, R302) -/

/-- The register writes of Docent that release the lanes parked at a stub: SVCPC, SVCTGT, and SVCREL for every group of the heap's
address space with such lanes. -/
def AmStub.release (x : AmStub) (s : State) (asn : Nat) (kill : Bool) (target : Nat) : List Access :=
  let at_ := BitVec.ofNat 64 x.trapVa
  let gs := s.allGroups.filter fun g => s.asnOf g.ctx == asn && g.lanes.any fun a => a.st == .service && a.lpc == at_
  if gs.isEmpty then []
  else
    [⟨.docent, 0x700018, 8, at_⟩, ⟨.docent, 0x700020, 8, BitVec.ofNat 64 target⟩]
      ++ gs.map fun g => ⟨.docent, 0x700028, 8
        , BitVec.ofNat 64 (kill.toNat * 2 ^ 63 + g.core * 2 ^ 58 + g.slot * 2 ^ 52 + g.ctx.toNat)⟩

/-- Step 5 of R129, or the kills of step 4 of R131, over every stub of a function. -/
def AmHeap.releases (h : AmHeap) (s : State) (fn : Nat) (kill : Bool) (target : Nat) : List Access :=
  (h.stubsOf fn).flatMap fun x => x.release s h.asn kill target

/-- What follows a call that traps at a stub (R129): a function already placed resumes its lanes at once; else it is placed, and then they
resume. -/
def AmHeap.serve (h : AmHeap) (s : State) (fn : Nat) (c : AmCode) : Except (Nat × Nat) (AmHeap × List AmAct × List Access) :=
  match h.placed.find? fun p => p.fn == fn with
  | some p => .ok (h, [], h.releases s fn false (h.va + p.off))
  | none =>
    match h.place fn c with
    | .error e => .error e
    | .ok (h, ws, target) => .ok (h, ws, h.releases s fn false target)

/-! ## Reclaiming (R131) -/

/-- An address lies in the code of a placed function. -/
def AmHeap.holds (h : AmHeap) (p : AmPlaced) (pc : Nat) : Bool := decide (h.va + p.off ≤ pc ∧ pc < h.va + p.off + p.size)

/-- The groups that run code from this heap. -/
def AmHeap.groups (h : AmHeap) (s : State) : List Group :=
  s.allGroups.filter fun g => s.asnOf g.ctx == h.asn
    && g.lanes.any fun a => !a.st.gone && decide (h.va ≤ a.lpc.toNat ∧ a.lpc.toNat < h.va + 2 ^ h.hlog)

/-- A group stands at a safe point: each lane at a clause header that the catalogue names, or in a service park (R112, R131). -/
def AmHeap.atSafePoint (h : AmHeap) (g : Group) : Bool :=
  g.lanes.all fun a => a.st.gone || a.st == .service
    || (a.inside.isNone && h.safePoints.any fun e => h.va + 512 + 8 * e.1 == a.lpc.toNat)

/-- The return-stack entries of a group's lanes that are spilled (R190, R191). -/
def spilledEntries (g : Group) : Mem (List Nat) := do
  let w := { hwWho g.ctx g.priv [14] with core := g.core }
  let slots := g.laneIdx.flatMap fun l =>
    if (g.lane l).st.gone then [] else (List.range (g.lane l).spdepth).map fun d => g.spillSlot l d
  let es ← slots.mapM fun a => loadBytes w a 64 0
  return es.flatMap fun bs => (List.range 8).map fun i => fieldAt bs (8 * i) 8

/-- The addresses that keep a function: LPC and the return stack of every lane of such a group, held in hardware or spilled (R131). -/
def AmHeap.roots (h : AmHeap) (s : State) : Mem (List Nat) := do
  let spilled ← (h.groups s).mapM spilledEntries
  return ((h.groups s).flatMap fun g => g.lanes.flatMap fun a => if a.st.gone then [] else a.lpc.toNat :: a.stack.map (·.toNat))
    ++ spilled.flatten

/-- A function is live: the entry, or one in which a root lies (R131). -/
def AmHeap.live (h : AmHeap) (entry : Nat) (roots : List Nat) (p : AmPlaced) : Bool := p.fn == entry || roots.any (h.holds p)

/-- Step 2 of R131 at the roots of groups that are held: functions that are not live are reclaimed, their patched stubs restored, their
safe points dropped and their placement cleared. -/
def AmHeap.reclaim (h : AmHeap) (entry : Nat) (roots : List Nat) : AmHeap × List AmAct :=
  let dead := h.placed.filter fun p => !h.live entry roots p
  let gone (fn : Nat) : Bool := dead.any fun p => p.fn == fn
  let kept := h.placed.filter fun p => h.live entry roots p
  let back := (kept.flatMap (·.stubs)).filter fun x => x.patched && gone x.fn
  let kept := kept.map fun p => { p with stubs := p.stubs.map fun x => if gone x.fn then { x with patched := false } else x }
  let (h, table) := { h with placed := kept }.switch
  (h, back.flatMap AmStub.restoreStores ++ [.visible] ++ (back.map fun x => .invalidate x.va 40)
    ++ table ++ dead.map fun p => .write (h.plva + 8 * p.fn) (toBytes 8 0))

/-- What the translator does for a request: its heap, its acts and register writes, and the groups that it holds at safe points while it
reclaims, which then resume; or the groups that it must bring to a safe point first (R131). -/
inductive AmAnswer where
  | work (h : AmHeap) (acts : List AmAct) (access : List Access) (held : List (Nat × Nat))
  | bring (groups : List (Nat × Nat))
deriving DecidableEq, Repr

/-- A request of a stub: the function is checked, and placed again after reclaiming where the heap is full, which needs every group that
runs its code at a safe point; a function that fails its check, or finds no room, leaves the report, and in the second case its parked
lanes are killed (R124, R131). -/
def AmHeap.request (h : AmHeap) (s : State) (m : AmModule) (fn : Nat) (c : AmCode) : Mem AmAnswer := do
  match (if h.placed.any fun p => p.fn == fn then none else m.check fn) with
  | some n =>
    let h := h.fail ⟨2, fn, n, 0⟩
    return .work h [h.reportStore] [] []
  | none =>
    match h.serve s fn c with
    | .ok r => return .work r.1 r.2.1 r.2.2 []
    | .error _ =>
      let gs := h.groups s
      let names (l : List Group) : List (Nat × Nat) := l.map fun g => (g.core, g.slot)
      match gs.filter fun g => !h.atSafePoint g with
      | [] =>
        let (h, ws) := h.reclaim m.entry (← h.roots s)
        match h.serve s fn c with
        | .ok (h, ws', acc) => return .work h (ws ++ ws') acc (names gs)
        | .error (code, need) =>
          let h := h.fail ⟨code, fn, 0, need⟩
          return .work h (ws ++ [h.reportStore]) (h.releases s fn true 0) (names gs)
      | late => return .bring (names late)

/-! ## Binding (R124, R126, R128) -/

/-- The kernel header of a heap (R110, R127). -/
def AmHeap.header (h : AmHeap) (m : AmModule) (regext need : Nat) : List Nat :=
  let w := m.headerWords regext need
  [w.1, w.2, 0, 0, 0, 256 + (2 ^ h.hlog - 512) * 2 ^ 32, 0, (h.outOff - 256) + h.outs.length * 2 ^ 32, h.word8, h.masks * 2 ^ 32 + (h.catva - h.khdr) % 2 ^ 32, 0, 0, 0, 0, 0, 0]

/-- The binding of a heap: the module is parsed, its entry checked and placed at the first code offset; a failure sets STATE to 2 and
writes the report (R124, R126, R128). The output regions of the module are copied behind the entry's code (R123). -/
def AmHeap.bind (h : AmHeap) (bs : List Byte) (c : AmCode) (regext need : Nat) : AmHeap × List AmAct :=
  let bad (r : AmReport) : AmHeap × List AmAct :=
    let h := { h with state := 2, report := r }
    (h, [.write (h.va + 5) (toBytes 1 2), h.reportStore])
  match amModule bs with
  | none => bad ⟨1, 0, 0, 0⟩
  | some m =>
    match m.check m.entry with
    | some n => bad ⟨2, m.entry, n, 0⟩
    | none =>
      match h.place m.entry c with
      | .error (code, need) => bad ⟨code, m.entry, 0, need⟩
      | .ok (h, ws, _) =>
        let room := 16 * m.outs.length
        match h.fit room with
        | none => bad ⟨3, m.entry, 0, room⟩
        | some o =>
        let h := { h with state := 1, outOff := o, outs := m.outs }
        (h, ws ++ [.write (h.va + o) (m.outs.flatMap fun e => toBytes 8 e.1 ++ toBytes 8 e.2)
            , .write h.khdr ((h.header m regext need).flatMap (toBytes 8))] ++ h.bindStores m need)

end Sys2Proof.Machine
end

