-- ==== Sys2Proof/Machine/AsmLine.lean ====
section
/-! DEFINITION. The text of a line for nkas (R328, R329): its tokens, its operands and the instruction that it writes, by the
assembly forms of the instruction entries. -/
namespace Sys2Proof

open Machine

/-! ## Tokens (R328) -/

/-- A token of a line. A number has no sign here; a floating-point literal is m * 10^e. -/
inductive Tok where
  | word (s : String)
  | dir (s : String)
  | int (n : Nat)
  | dec (m : Nat) (e : Int)
  | sym (c : Char)
deriving DecidableEq, Repr

def asDigit (c : Char) : Option Nat := if '0' ≤ c ∧ c ≤ '9' then some (c.toNat - '0'.toNat) else none

/-- The value of a character as a digit of hexadecimal. -/
def asHex (c : Char) : Option Nat :=
  if 'a' ≤ c ∧ c ≤ 'f' then some (c.toNat - 'a'.toNat + 10)
  else if 'A' ≤ c ∧ c ≤ 'F' then some (c.toNat - 'A'.toNat + 10)
  else asDigit c

def asLetter (c : Char) : Bool := decide (('a' ≤ c ∧ c ≤ 'z') ∨ ('A' ≤ c ∧ c ≤ 'Z') ∨ c = '_')

/-- The characters of an identifier after its first (R328). -/
def inIdent (c : Char) : Bool := asLetter c || (asDigit c).isSome || c == '.'

/-- The value of digits in a base; underscores may stand between digits (R328). -/
def digitsValue (base : Nat) (cs : List Char) : Option Nat :=
  if cs.isEmpty ∨ cs.head? = some '_' ∨ cs.getLast? = some '_' then none
  else (cs.filter (· ≠ '_')).foldlM (fun n c => (asHex c).bind fun d => if d < base then some (n * base + d) else none) 0

/-- The part of a number after its whole digits: the fraction and the exponent of a floating-point literal, and the rest. -/
def numberTail (whole : List Char) (cs : List Char) : Option (Tok × List Char) :=
  let dig (c : Char) : Bool := (asDigit c).isSome
  let (frac, r, flt) := match cs with
    | '.' :: r => (r.takeWhile dig, r.dropWhile dig, true)
    | r => ([], r, false)
  let ex : Option (Option (Int × List Char)) := match r with
    | 'e' :: '-' :: r => some ((digitsValue 10 (r.takeWhile dig)).map fun n => (-(n : Int), r.dropWhile dig))
    | 'e' :: '+' :: r => some ((digitsValue 10 (r.takeWhile dig)).map fun n => ((n : Int), r.dropWhile dig))
    | 'e' :: r => some ((digitsValue 10 (r.takeWhile dig)).map fun n => ((n : Int), r.dropWhile dig))
    | _ => none
  if flt && frac.isEmpty then none
  else match ex with
    | some none => none
    | some (some (x, r)) => (digitsValue 10 (whole ++ frac)).map fun m => (.dec m (x - frac.length), r)
    | none =>
      if flt then (digitsValue 10 (whole ++ frac)).map fun m => (.dec m (-(frac.length : Int)), r)
      else (digitsValue 10 whole).map fun n => (.int n, r)

/-- A number at the head of a line; what follows it is no part of an identifier. -/
def lexNumber (cs : List Char) : Option (Tok × List Char) :=
  let out : Option (Tok × List Char) := match cs with
    | '0' :: 'x' :: r =>
      let h (c : Char) : Bool := (asHex c).isSome || c == '_'
      (digitsValue 16 (r.takeWhile h)).map fun n => (.int n, r.dropWhile h)
    | '0' :: 'b' :: r =>
      let h (c : Char) : Bool := (asDigit c).isSome || c == '_'
      (digitsValue 2 (r.takeWhile h)).map fun n => (.int n, r.dropWhile h)
    | _ =>
      let h (c : Char) : Bool := (asDigit c).isSome || c == '_'
      numberTail (cs.takeWhile h) (cs.dropWhile h)
  out.bind fun o => if o.2.head?.any inIdent then none else some o

/-- The tokens of a line without its comment (R328); the first argument bounds their number. -/
def lexLine : Nat → List Char → Option (List Tok)
  | 0, _ => some []
  | fuel + 1, cs =>
    match cs with
    | [] => some []
    | c :: r =>
      if c = ' ' ∨ c = '\t' ∨ c = '\r' then lexLine fuel r
      else if c = ';' ∨ (c = '/' ∧ r.head? = some '/') then some []
      else if asLetter c then (lexLine fuel (r.dropWhile inIdent)).map fun l => .word (String.ofList (c :: r.takeWhile inIdent)) :: l
      else if c = '.' then
        if r.head?.any asLetter then (lexLine fuel (r.dropWhile inIdent)).map fun l => .dir (String.ofList (r.takeWhile inIdent)) :: l
        else none
      else if (asDigit c).isSome then (lexNumber cs).bind fun o => (lexLine fuel o.2).map fun l => o.1 :: l
      else if [',', ':', '[', ']', '+', '-', '*', '(', ')', '!', '='].contains c then (lexLine fuel r).map fun l => .sym c :: l
      else none

/-- The parts of a list between separators. -/
def splitAtSep {α : Type} [DecidableEq α] (sep : α) : List α → List (List α)
  | [] => [[]]
  | x :: r =>
    match splitAtSep sep r with
    | [] => [[]]
    | p :: ps => if x = sep then [] :: p :: ps else (x :: p) :: ps

/-! ## Operands (R329) -/

/-- The register classes that a line may name (R329). -/
inductive RCls where
  | v | k | p | j | sh | q | a | b | rg
deriving DecidableEq, Repr

/-- An operand. -/
inductive Opd where
  | reg (c : RCls) (n : Nat)
  | pair (c : RCls) (n : Nat)
  | name (s : String)
  | int (i : Int)
  | dec (neg : Bool) (m : Nat) (e : Int)
  | mem (base : Option (RCls × Nat)) (index : Option (RCls × Nat × Nat)) (off : Int)
deriving DecidableEq, Repr

/-- The prefix of each class and how many registers it has. -/
def regClasses : List (String × RCls × Nat) :=
  [("v", .v, 1024), ("k", .k, 64), ("p", .p, 16), ("j", .j, 8), ("sh", .sh, 8), ("q", .q, 16), ("a", .a, 192), ("b", .b, 16), ("rg", .rg, 8)]

/-- A decimal number without a leading zero. -/
def plainNumber (cs : List Char) : Option Nat :=
  if cs.isEmpty ∨ (cs.head? = some '0' ∧ cs ≠ ['0']) then none
  else cs.foldlM (fun n c => (asDigit c).map fun d => n * 10 + d) 0

/-- The register that an identifier names. -/
def regOf (s : String) : Option (RCls × Nat) :=
  let cs := s.toList
  let pre := String.ofList (cs.takeWhile asLetter)
  (plainNumber (cs.dropWhile asLetter)).bind fun n =>
    (regClasses.lookup pre).bind fun c => if n < c.2 then some (c.1, n) else none

/-- A sign and what follows it; signs may be given together. -/
def signOf : List Tok → Bool × List Tok
  | .sym '-' :: r => let (s, r) := signOf r; (!s, r)
  | .sym '+' :: r => signOf r
  | r => (false, r)

/-- The parts of an address as they are read. -/
structure AdrParts where
  base  : Option (RCls × Nat)
  index : Option (RCls × Nat × Nat)
  off   : Option Int
deriving DecidableEq, Repr

/-- The terms of an address in their order: base, index, offset (R329). A register pair may stand for the base. -/
def adrTerms (env : String → Option Int) : Nat → List Tok → AdrParts → Option AdrParts
  | 0, _, _ => none
  | _ + 1, [], p => some p
  | fuel + 1, ts, p =>
    let (neg, r) := signOf ts
    let offset (i : Int) (r : List Tok) : Option AdrParts :=
      match p.off with
      | some _ => none
      | none => adrTerms env fuel r { p with off := some (if neg then -i else i) }
    match r with
    | .int n :: r => offset n r
    | .word s :: .sym '*' :: .int n :: r =>
      match regOf s with
      | some (c, m) => if neg || p.index.isSome || p.off.isSome || !([1, 2, 4, 8].contains n) then none
        else adrTerms env fuel r { p with index := some (c, m, n) }
      | none => none
    | .word s :: .sym ':' :: .word t :: r =>
      match regOf s, regOf t with
      | some (c, m), some (d, n) => if neg || c ≠ d || n ≠ m + 1 || m % 2 ≠ 0 || p.base.isSome || p.index.isSome || p.off.isSome then none
        else adrTerms env fuel r { p with base := some (c, m) }
      | _, _ => none
    | .word s :: r =>
      match regOf s with
      | some (c, m) =>
        if neg || p.off.isSome || p.index.isSome then none
        else if p.base.isSome then adrTerms env fuel r { p with index := some (c, m, 1) }
        else adrTerms env fuel r { p with base := some (c, m) }
      | none => (env s).bind fun i => offset i r
    | _ => none

/-- The operand of some tokens; a name may be a label's (R329). -/
def operandOf (env : String → Option Int) (ts : List Tok) : Option Opd :=
  match ts with
  | [.word s] => some (match regOf s with
    | some (c, n) => .reg c n
    | none => match env s with
      | some i => .int i
      | none => .name s)
  | [.word s, .sym ':', .word t] =>
    match regOf s, regOf t with
    | some (c, m), some (d, n) => if c = d ∧ n = m + 1 ∧ m % 2 = 0 then some (.pair c m) else none
    | _, _ => none
  | .sym '[' :: r =>
    if r.getLast? = some (.sym ']') ∧ 1 < r.length then
      (adrTerms env (r.length + 1) r.dropLast ⟨none, none, none⟩).map fun p => .mem p.base p.index (p.off.getD 0)
    else none
  | [.int n] => some (.int n)
  | [.dec m e] => some (.dec false m e)
  | [.sym '-', .int n] => some (.int (-(n : Int)))
  | [.sym '-', .dec m e] => some (.dec true m e)
  | _ => none

/-- The operands of tokens separated by commas. -/
def operandsOf (env : String → Option Int) (ts : List Tok) : Option (List Opd) :=
  if ts.isEmpty then some [] else (splitAtSep (.sym ',') ts).mapM (operandOf env)

/-! ## Constants (R328, R329) -/

/-- The exact value of a floating-point literal, where it is a binary fraction; no format needs a longer exponent. -/
def decValue (neg : Bool) (m : Nat) (e : Int) : Option XR :=
  if 1200 < e.natAbs then none
  else if 0 ≤ e then some (.fin neg (m * 10 ^ e.toNat) 0)
  else
    let k := (-e).toNat
    if m % 5 ^ k = 0 then some (.fin neg (m / 5 ^ k) e) else none

/-- The bits of a floating-point literal in a format that holds it exactly (R328). -/
def decBits (f : Fmt) (neg : Bool) (m : Nat) (e : Int) : Option Nat :=
  (decValue neg m e).bind fun x =>
    let c := (convert f .rn false false x).code
    if (fmtValue f false c).eq x then some c else none

/-- What a constant operand is taken as: 32 bits; a signed number for the immediate forms (of bits or of an integer); an integer;
FP32; a packed pair; 64 bits; or an element format of CVT (R328, R329). -/
inductive LitKind where
  | bits | immBits | immInt | int | f32 | half (f16 : Bool) | wide | fmt (f : Fmt)
deriving DecidableEq, Repr

/-- The operand is 64 bits wide. -/
def LitKind.isWide : LitKind → Bool
  | .wide => true
  | .fmt f => f.width == 64
  | _ => false

/-- The literal of a whole number. -/
def LitKind.ofInt (k : LitKind) (i : Int) : Option DWord :=
  if k.isWide then (if -(2 ^ 63 : Nat) ≤ i ∧ i < (2 ^ 64 : Nat) then some (BitVec.ofInt 64 i) else none)
  else if i < -(2 ^ 31 : Nat) ∨ (2 ^ 32 : Nat) ≤ i then none
  else match k with
    | .immBits => some (BitVec.ofInt 64 i)
    | .immInt => some (BitVec.ofInt 64 i)
    | _ => some ((BitVec.ofInt 32 i).zeroExtend 64)

/-- The literal of a floating-point literal: in FP32, in both elements of a pair, in the format of CVT, or a whole number where the
operand is an integer. -/
def LitKind.ofDec (k : LitKind) (neg : Bool) (m : Nat) (e : Int) : Option DWord :=
  let whole : Option DWord := (decBits (if k.isWide then .s64 else .s32) neg m e).bind fun _ =>
    (decValue neg m e).bind fun x => k.ofInt (x.units 0)
  match k with
  | .bits => (decBits .f32 neg m e).map fun c => BitVec.ofNat 64 c
  | .immBits => (decBits .f32 neg m e).map fun c => BitVec.ofNat 64 c
  | .f32 => (decBits .f32 neg m e).map fun c => BitVec.ofNat 64 c
  | .half f16 => (decBits (if f16 then .f16 else .bf16) neg m e).map fun c => BitVec.ofNat 64 (c * 65537)
  | .fmt f => (decBits f neg m e).map fun c => BitVec.ofNat 64 c
  | .immInt => whole
  | .int => whole
  | .wide => whole

/-- The literal of a constant operand. -/
def Opd.lit (k : LitKind) : Opd → Option DWord
  | .int i => k.ofInt i
  | .dec neg m e => k.ofDec neg m e
  | _ => none

/-- A plain number below a bound. -/
def Opd.nat (bound : Nat) : Opd → Option Nat
  | .int i => if 0 ≤ i ∧ i < bound then some i.toNat else none
  | _ => none

/-! ## Register operands (R329) -/

def Opd.v : Opd → Option VReg
  | .reg .v n => some (BitVec.ofNat 10 n)
  | _ => none

/-- A v register of 64 bits, which may be written as a pair. -/
def Opd.v64 : Opd → Option VReg
  | .reg .v n => some (BitVec.ofNat 10 n)
  | .pair .v n => some (BitVec.ofNat 10 n)
  | _ => none

def Opd.vw (w64 : Bool) (o : Opd) : Option VReg := if w64 then o.v64 else o.v

def Opd.k : Opd → Option KReg
  | .reg .k n => some (BitVec.ofNat 6 n)
  | _ => none

def Opd.k64 : Opd → Option KReg
  | .reg .k n => some (BitVec.ofNat 6 n)
  | .pair .k n => some (BitVec.ofNat 6 n)
  | _ => none

def Opd.kw (w64 : Bool) (o : Opd) : Option KReg := if w64 then o.k64 else o.k

def Opd.p : Opd → Option PReg
  | .reg .p n => some (BitVec.ofNat 4 n)
  | _ => none

def Opd.j : Opd → Option JReg
  | .reg .j n => some (BitVec.ofNat 3 n)
  | _ => none

def Opd.sh : Opd → Option ShReg
  | .reg .sh n => some (BitVec.ofNat 3 n)
  | _ => none

def Opd.q : Opd → Option QReg
  | .reg .q n => some (BitVec.ofNat 4 n)
  | _ => none

def Opd.frame : Opd → Option FrameReg
  | .reg .a n => some (BitVec.ofNat 8 n)
  | _ => none

def Opd.bar : Opd → Option BarReg
  | .reg .b n => some (BitVec.ofNat 4 n)
  | _ => none

def Opd.ring : Opd → Option (BitVec 3)
  | .reg .rg n => some (BitVec.ofNat 3 n)
  | _ => none

/-- A source of kind v/k. -/
def Opd.src (k : LitKind) (o : Opd) : Option Src :=
  match o with
  | .reg .v n => some (.v (BitVec.ofNat 10 n))
  | .reg .k n => some (.k (BitVec.ofNat 6 n))
  | .pair .v n => if k.isWide then some (.v (BitVec.ofNat 10 n)) else none
  | .pair .k n => if k.isWide then some (.k (BitVec.ofNat 6 n)) else none
  | _ => (o.lit k).map .lit

/-- A source of kind k. -/
def Opd.ksrc (k : LitKind) (o : Opd) : Option KSrc :=
  match o with
  | .reg .k n => some (.k (BitVec.ofNat 6 n))
  | .pair .k n => if k.isWide then some (.k (BitVec.ofNat 6 n)) else none
  | _ => (o.lit k).map .lit

/-- A register of an address. -/
def addrReg : RCls × Nat → Option Src
  | (.v, n) => some (.v (BitVec.ofNat 10 n))
  | (.k, n) => some (.k (BitVec.ofNat 6 n))
  | _ => none

/-- The address of the memory form (R324, R329). Without an index, k63 gives 0; without a base, k63 does so for the scratchpad and a
literal for memory, which then holds the offset when OFF cannot. -/
def Opd.adr (g : Enc) (sp : Bool) (size : Nat) (o : Opd) : Option Adr :=
  match o with
  | .mem base index off => do
    let (i, sc) ← match index with
      | none => some (Src.k 63, 1)
      | some (c, n, s) => (addrReg (c, n)).map fun r => (r, s)
    let sc : BitVec 2 := if sc = 1 then 0 else if sc = 2 then 1 else if sc = 4 then 2 else 3
    let x : Word := BitVec.ofInt 32 off
    let small : Bool := decide (-(2 ^ 31 : Nat) ≤ off ∧ off < (2 ^ 31 : Nat))
    match base with
    | some r =>
      if !small then none
      else return { base := ← addrReg r, index := i, scale := sc, off := (Off.lit x).fit g size }
    | none =>
      if sp then
        if !small then none else return { base := .k 63, index := i, scale := sc, off := (Off.lit x).fit g size }
      else if small ∧ ¬((Off.lit x).fit g size).isLit then
        return { base := .lit 0, index := i, scale := sc, off := (Off.lit x).fit g size }
      else return { base := .lit (← LitKind.ofInt .wide off), index := i, scale := sc, off := .scaled 0 }
  | _ => none

/-- The address of an atomic: a register or a constant, with no index and no offset (R396). -/
def Opd.atomAdr (k : LitKind) (o : Opd) : Option Src :=
  match o with
  | .mem (some r) none 0 => addrReg r
  | .mem none none off => (k.ofInt off).map .lit
  | _ => none

/-! ## Modifiers (R325, R329) -/

/-- Takes the first modifier that a table names out of a list. -/
def takeMod {α : Type} (t : List (String × α)) : List String → Option α × List String
  | [] => (none, [])
  | m :: r =>
    match t.lookup m with
    | some a => (some a, r)
    | none => let (x, r) := takeMod t r; (x, m :: r)

/-- Takes a modifier of one bit. -/
def takeFlag (s : String) (ms : List String) : Bool × List String :=
  let (x, r) := takeMod [(s, ())] ms
  (x.isSome, r)

def rmMods : List (String × Rm) := [("rn", .rn), ("rz", .rz), ("rd", .rd), ("ru", .ru)]
def cmpMods : List (String × Cmp) :=
  [("eq", .eq), ("ne", .ne), ("lt", .lt), ("le", .le), ("gt", .gt), ("ge", .ge), ("num", .num), ("nan", .nan)]
def scopeMods : List (String × Scope) := [("g", .g), ("b", .b), ("a", .a), ("d", .d), ("x", .x)]
def orderMods : List (String × Order) := [("acq", .acq), ("rel", .rel), ("ar", .ar)]
def szMods : List (String × Sz) :=
  [("n8", .n8), ("s8", .s8), ("n16", .n16), ("s16", .s16), ("w32", .w32), ("w64", .w64), ("w128", .w128)]
def atomMods : List (String × AtomOp) :=
  [("add", .add), ("min", .min), ("max", .max), ("and", .and), ("or", .or), ("xor", .xor), ("exch", .exch), ("cas", .cas)]
def tyMods : List (String × AtomTy) := [("s32", .s32), ("n32", .n32), ("s64", .s64), ("n64", .n64)]
def redMods : List (String × RedOp) :=
  [("add", .add), ("min", .min), ("max", .max), ("and", .and), ("or", .or), ("xor", .xor), ("fadd", .fadd), ("fmax", .fmax)]
def fmtMods : List (String × Fmt) :=
  [("f32", .f32), ("bf16", .bf16), ("f16", .f16), ("e4m3", .e4m3), ("e5m2", .e5m2), ("fp4", .fp4), ("ds8", .ds8), ("s32", .s32)
    , ("s16", .s16), ("s8", .s8), ("s4", .s4), ("n8", .n8), ("n16", .n16), ("n32", .n32), ("s64", .s64), ("n64", .n64)]
def segMods : List (String × BitVec 3) :=
  [("seg2", 1), ("seg4", 2), ("seg8", 3), ("seg16", 4), ("seg32", 5), ("seg64", 6), ("seg128", 7)]
def lutMods : List (String × BitVec 4) := [("and", 0x8), ("or", 0xE), ("xor", 0x6), ("nand", 0x7), ("nor", 0x1), ("andn", 0x4)]
def lxMods : List (String × LxMode) := [("at", .at), ("below", .below), ("above", .above), ("flip", .flip)]
def chMods : List (String × BitVec 2) := [("ch0", 0), ("ch1", 1), ("ch2", 2), ("ch3", 3)]
def ePosMods : List (String × BitVec 3) := [("e1", 1), ("e2", 2), ("e3", 3), ("e4", 4), ("e5", 5), ("e6", 6), ("e7", 7)]
def pPosMods : List (String × BitVec 2) := [("p1", 1), ("p2", 2), ("p3", 3)]
def shapeMods : List (String × BitVec 5) :=
  [("s8s8", 0), ("s8s4", 1), ("s4s4", 2), ("s8ds8", 3), ("bf16ds8", 4), ("e4e4", 5), ("e4e5", 6), ("e5e4", 7), ("e5e5", 8), ("e4fp4", 9)
    , ("e5fp4", 10), ("fp4fp4", 11), ("bf16fp4", 12), ("bf16bf16", 13), ("f16f16", 14)]

/-- An instruction of a line before its operands are read: guard, mnemonic, modifiers, the n of .lut=n, the operands, and the kernel's
generation. -/
structure InsLine where
  h   : Hdr
  mn  : String
  ms  : List String
  lut : Option Nat
  os  : List Opd
  g   : Enc
deriving DecidableEq, Repr

/-- No modifiers are left. -/
def InsLine.plain (x : InsLine) : Option Unit := if x.ms.isEmpty then some () else none

/-- One modifier of a table, whose absence is a default; no other. -/
def InsLine.one {α : Type} (x : InsLine) (t : List (String × α)) (d : α) : Option α :=
  let (a, r) := takeMod t x.ms
  if r.isEmpty then some (a.getD d) else none

/-- One flag; no other modifier. -/
def InsLine.flag (x : InsLine) (s : String) : Option Bool :=
  let (a, r) := takeFlag s x.ms
  if r.isEmpty then some a else none

/-- .n and .sat. -/
def InsLine.nSat (x : InsLine) : Option (Bool × Bool) :=
  let (n, r) := takeFlag "n" x.ms
  let (s, r) := takeFlag "sat" r
  if r.isEmpty then some (n, s) else none

/-- .n, .sat and .w64. -/
def InsLine.nSatW (x : InsLine) : Option (Bool × Bool × Bool) :=
  let (w, r) := takeFlag "w64" x.ms
  let y : InsLine := { x with ms := r }
  y.nSat.map fun p => (p.1, p.2, w)

/-- The rounding mode and .sat. -/
def InsLine.rmSat (x : InsLine) : Option (Rm × Bool) :=
  let (m, r) := takeMod rmMods x.ms
  let (s, r) := takeFlag "sat" r
  if r.isEmpty then some (m.getD .rn, s) else none

/-- .f16 is one, .bf16 zero. -/
def InsLine.half (x : InsLine) : Bool × List String :=
  let (f, r) := takeMod [("bf16", false), ("f16", true)] x.ms
  (f.getD false, r)

/-- The comparison and .n. -/
def InsLine.cmpN (x : InsLine) : Option (Cmp × Bool) :=
  let (c, r) := takeMod cmpMods x.ms
  let (n, r) := takeFlag "n" r
  if r.isEmpty then some (c.getD .eq, n) else none

def InsLine.da (x : InsLine) (k : LitKind) : Option (VReg × Src) :=
  match x.os with
  | [d, a] => do return (← d.v, ← a.src k)
  | _ => none

def InsLine.dab (x : InsLine) (ka kb : LitKind) : Option (VReg × Src × Src) :=
  match x.os with
  | [d, a, b] => do return (← d.v, ← a.src ka, ← b.src kb)
  | _ => none

def InsLine.dabc (x : InsLine) (k : LitKind) : Option (VReg × Src × Src × VReg) :=
  match x.os with
  | [d, a, b, c] => do return (← d.v, ← a.src k, ← b.src k, ← c.v)
  | _ => none

def InsLine.ab (x : InsLine) (ka kb : LitKind) : Option (Src × Src) :=
  match x.os with
  | [a, b] => do return (← a.src ka, ← b.src kb)
  | _ => none

def InsLine.a (x : InsLine) (k : LitKind) : Option Src :=
  match x.os with
  | [a] => a.src k
  | _ => none

def InsLine.kab (x : InsLine) (k : LitKind) : Option (KReg × KSrc × KSrc) :=
  match x.os with
  | [d, a, b] => do return (← d.kw k.isWide, ← a.ksrc k, ← b.ksrc k)
  | _ => none

/-- The second source of an instruction that has an immediate form: a signed number where that form may be taken, else a literal. -/
def immSrc (ok : Bool) (b : Src) : Src :=
  match b with
  | .lit x => if ok then b else .lit (lit32 x)
  | _ => b

def immKSrc (ok : Bool) (b : KSrc) : KSrc :=
  match b with
  | .lit x => if ok then b else .lit (lit32 x)
  | _ => b

/-- The source is a v register. -/
def Src.isV : Src → Bool
  | .v _ => true
  | _ => false

/-- An instruction of three operands that has an immediate form. -/
def InsLine.imm3 (x : InsLine) (ok : Bool) (f : VReg → Src → Src → Instr) : Option Instr := do
  let (d, a, b) ← x.dab .int .immInt
  return f d a (immSrc (ok && a.isV) b)

/-! ## The families (R341 to R437) -/

def InsLine.control (x : InsLine) : Option Instr :=
  match x.mn, x.os with
  | "NOP", [] => do x.plain; return .nop x.h
  | "BRA", [_] => do x.plain; return .bra x.h 0
  | "BRX", [a] => do x.plain; return .brx x.h (← a.src .wide)
  | "CALL", [_] => do x.plain; return .call x.h 0
  | "CALLX", [a] => do x.plain; return .callx x.h (← a.src .wide)
  | "RET", [] => do x.plain; return .ret x.h
  | "EXIT", [] => do x.plain; return .exit x.h
  | "YIELD", [] => do x.plain; return .yield x.h
  | "JMARK", [j] => do x.plain; return .jmark x.h (← j.j)
  | "JWAIT", [j] => do x.plain; return .jwait x.h (← j.j)
  | "BAR", [b] => do x.plain; return .bar x.h (← b.bar)
  | "ABAR", [b] => do x.plain; return .abar x.h (← b.bar)
  | "CHKC", [] => do x.plain; return .chkc x.h
  | "BKPT", [] => do x.plain; return .bkpt x.h
  | "TRAP", [n] => do
    if ← x.flag "svc" then return .trapSvc x.h (BitVec.ofNat 24 (← n.nat (2 ^ 24)))
    else return .trap x.h (BitVec.ofNat 26 (← n.nat (2 ^ 26)))
  | _, _ => none

def InsLine.predicate (x : InsLine) : Option Instr :=
  match x.mn, x.os with
  | "PSETI", d :: a :: b :: r => do
    let (c, n) ← x.cmpN
    let pc ← match r with
      | [] => some (15 : PReg)
      | [c] => c.p
      | _ => none
    let a ← a.src .int
    return .pseti x.h (← d.p) a (immSrc (a.isV && r.isEmpty) (← b.src .immInt)) pc c n
  | "PSETF", d :: a :: b :: r => do
    let pc ← match r with
      | [] => some (15 : PReg)
      | [c] => c.p
      | _ => none
    return .psetf x.h (← d.p) (← a.src .f32) (← b.src .f32) pc (← x.one cmpMods .eq)
  | "PLOP", [d, a, b] => do
    let lut ← match x.lut with
      | some n => do x.plain; if n < 16 then some (BitVec.ofNat 4 n) else none
      | none => x.one lutMods 0
    return .plop x.h (← d.p) (← a.p) (← b.p) lut
  | "PMOV", [d, .name "pall"] => do x.plain; return .pmov x.h (.toV (← d.v))
  | "PMOV", [.name "pall", a, b] => do x.plain; return .pmov x.h (.fromV (← a.src .int) (← b.src .int))
  | "VOTE", [d, a] => do
    let op ← match ← x.one [("all", 0), ("any", 1), ("ballot", 2), ("eq", 3)] 0 with
      | 0 => d.p.map VoteOp.all
      | 1 => d.p.map VoteOp.any
      | 2 => d.k.map VoteOp.ballot
      | _ => d.p.map VoteOp.eq
    return .vote x.h op (← a.p)
  | _, _ => none

def InsLine.uniform (x : InsLine) : Option Instr :=
  match x.mn with
  | "KMOV" => do
    let w ← x.flag "w64"
    match x.os with
    | [d, a] => return .kmov x.h (← d.kw w) (← a.ksrc (if w then .wide else .immBits)) w
    | _ => none
  | "KADD" => do
    let (n, s, w) ← x.nSatW
    let (d, a, b) ← match x.os with
      | [d, a, b] => do
        if w then pure (← d.k64, ← a.ksrc .wide, ← b.ksrc .wide) else pure (← d.k, ← a.ksrc .int, ← b.ksrc .immInt)
      | _ => none
    let ok := !w && !n && !s && (match a with | .k _ => true | .lit _ => false)
    return .kadd x.h d a (if w then b else immKSrc ok b) n s w
  | "KSUB" => do
    let (n, s, w) ← x.nSatW
    let (d, a, b) ← x.kab (if w then .wide else .int)
    return .ksub x.h d a b n s w
  | "KMUL" => do let (n, s) ← x.nSat; let (d, a, b) ← x.kab .int; return .kmul x.h d a b n s
  | "KMIN" => do let n ← x.flag "n"; let (d, a, b) ← x.kab .int; return .kmin x.h d a b n
  | "KMAX" => do let n ← x.flag "n"; let (d, a, b) ← x.kab .int; return .kmax x.h d a b n
  | "KAND" => do x.plain; let (d, a, b) ← x.kab .int; return .kand x.h d a b
  | "KOR" => do x.plain; let (d, a, b) ← x.kab .int; return .kor x.h d a b
  | "KXOR" => do x.plain; let (d, a, b) ← x.kab .int; return .kxor x.h d a b
  | "KSHL" => do let (n, s) ← x.nSat; let (d, a, b) ← x.kab .int; return .kshl x.h d a b n s
  | "KSHR" => do x.plain; let (d, a, b) ← x.kab .int; return .kshr x.h d a b
  | "KSAR" => do x.plain; let (d, a, b) ← x.kab .int; return .ksar x.h d a b
  | "KCMP" => do let (c, n) ← x.cmpN; let (d, a, b) ← x.kab .int; return .kcmp x.h d a b c n
  | "KSEL" => do
    x.plain
    match x.os with
    | [d, a, b, c] => return .ksel x.h (← d.k) (← a.ksrc .bits) (← b.ksrc .bits) (← c.k)
    | _ => none
  | _ => none

def InsLine.integer (x : InsLine) : Option Instr :=
  match x.mn with
  | "MOV" => do
    let w ← x.flag "w64"
    match x.os with
    | [d, a] => return .mov x.h (← d.vw w) (← a.src (if w then .wide else .immBits)) w
    | _ => none
  | "SEL" => do
    x.plain
    match x.os with
    | [d, a, b, c] => return .sel x.h (← d.v) (← a.src .bits) (← b.src .bits) (← c.p)
    | _ => none
  | "IADD" => do let (n, s) ← x.nSat; x.imm3 (!n && !s) fun d a b => .iadd x.h d a b n s
  | "ISUB" => do let (n, s) ← x.nSat; let (d, a, b) ← x.dab .int .int; return .isub x.h d a b n s
  | "IMUL" => do let (n, s) ← x.nSat; x.imm3 (!n && !s) fun d a b => .imul x.h d a b n s
  | "IMULH" => do let n ← x.flag "n"; let (d, a, b) ← x.dab .int .int; return .imulh x.h d a b n
  | "IMAD" => do let (n, s) ← x.nSat; let (d, a, b, c) ← x.dabc .int; return .imad x.h d a b c n s
  | "IMADW" => do
    let (n, s) ← x.nSat
    match x.os with
    | [d, a, b, c] => return .imadw x.h (← d.v64) (← a.src .int) (← b.src .int) (← c.v64) n s
    | _ => none
  | "IMIN" => do let n ← x.flag "n"; let (d, a, b) ← x.dab .int .int; return .imin x.h d a b n
  | "IMAX" => do let n ← x.flag "n"; let (d, a, b) ← x.dab .int .int; return .imax x.h d a b n
  | "IABS" => do let s ← x.flag "sat"; let (d, a) ← x.da .int; return .iabs x.h d a s
  | "INEG" => do let s ← x.flag "sat"; let (d, a) ← x.da .int; return .ineg x.h d a s
  | "IAND" => do x.plain; x.imm3 true fun d a b => .iand x.h d a b
  | "IOR" => do x.plain; x.imm3 true fun d a b => .ior x.h d a b
  | "IXOR" => do x.plain; x.imm3 true fun d a b => .ixor x.h d a b
  | "INOT" => do x.plain; let (d, a) ← x.da .int; return .inot x.h d a
  | "ISHL" => do let (n, s) ← x.nSat; x.imm3 (!n && !s) fun d a b => .ishl x.h d a b n s
  | "ISHR" => do x.plain; x.imm3 true fun d a b => .ishr x.h d a b
  | "ISAR" => do x.plain; x.imm3 true fun d a b => .isar x.h d a b
  | "IROT" => do x.plain; let (d, a, b) ← x.dab .int .int; return .irot x.h d a b
  | "POPC" => do x.plain; let (d, a) ← x.da .int; return .popc x.h d a
  | "CLZ" => do x.plain; let (d, a) ← x.da .int; return .clz x.h d a
  | "BREV" => do x.plain; let (d, a) ← x.da .int; return .brev x.h d a
  | "BFE" => do let n ← x.flag "n"; let (d, a, b) ← x.dab .int .int; return .bfe x.h d a b n
  | "BFI" => do x.plain; let (d, a, b, c) ← x.dabc .int; return .bfi x.h d a b c
  | "IADD64" => do
    let (n, s) ← x.nSat
    match x.os with
    | [d, a, b] => return .iadd64 x.h (← d.v64) (← a.src .wide) (← b.src .wide) n s
    | _ => none
  | "ISUB64" => do
    let (n, s) ← x.nSat
    match x.os with
    | [d, a, b] => return .isub64 x.h (← d.v64) (← a.src .wide) (← b.src .wide) n s
    | _ => none
  | "ICLAMP" => do let n ← x.flag "n"; let (d, a, b, c) ← x.dabc .int; return .iclamp x.h d a b c n
  | "PADD16" => do
    let (sub, r) := takeFlag "sub" x.ms
    let s ← { x with ms := r }.flag "sat"
    let (d, a, b) ← x.dab .int .int
    return .padd16 x.h d a b s sub
  | "PMAC16" => do x.plain; let (d, a, b, c) ← x.dabc .int; return .pmac16 x.h d a b c
  | "PSHR" => do let hi ← x.one [("lo", false), ("hi", true)] false; let (d, a, b) ← x.dab .int .int; return .pshr x.h d a b hi
  | "HASH" => do x.plain; let (d, a, b) ← x.dab .int .int; return .hash x.h d a b
  | _ => none

def InsLine.cross (x : InsLine) : Option Instr :=
  let (sg, ms) := takeMod segMods x.ms
  let seg := sg.getD 0
  match x.mn with
  | "LXCH" => do
    let m ← { x with ms := ms }.one lxMods .at
    let (d, a, b) ← x.dab .bits .int
    return .lxch x.h d a b seg m
  | "SLIDE" => do
    x.plain
    match x.os with
    | [d, a, b, c] => return .slide x.h (← d.v) (← a.src .bits) (← b.src .int) (← c.k)
    | _ => none
  | "RED" => do
    let (op, ms) := takeMod redMods ms
    let op := op.getD .add
    let (n, s) ← { x with ms := ms }.nSat
    let (d, a) ← x.da (if op = .fadd ∨ op = .fmax then .f32 else .int)
    return .red x.h d a seg op n s
  | "SCAN" => do
    let (op, ms) := takeMod redMods ms
    let op := op.getD .add
    let (ex, ms) := takeFlag "excl" ms
    let (n, s) ← { x with ms := ms }.nSat
    let (d, a) ← x.da (if op = .fadd ∨ op = .fmax then .f32 else .int)
    return .scan x.h d a seg ex op n s
  | "BCAST" => do x.plain; let (d, a, b) ← x.dab .bits .int; return .bcast x.h d a b
  | "KRDL" => do
    x.plain
    match x.os with
    | [d, a, b] => return .krdl x.h (← d.k) (← a.v) (← b.src .int)
    | _ => none
  | _ => none

def InsLine.float (x : InsLine) : Option Instr :=
  let two (f : VReg → Src → Src → Rm → Bool → Instr) : Option Instr := do
    let (m, s) ← x.rmSat
    let (d, a, b) ← x.dab .f32 .f32
    return f d a b m s
  let one (f : VReg → Src → Rm → Bool → Instr) : Option Instr := do
    let (m, s) ← x.rmSat
    let (d, a) ← x.da .f32
    return f d a m s
  match x.mn with
  | "FADD" => two (.fadd x.h)
  | "FSUB" => two (.fsub x.h)
  | "FMUL" => two (.fmul x.h)
  | "FFMA" => do let (m, s) ← x.rmSat; let (d, a, b, c) ← x.dabc .f32; return .ffma x.h d a b c m s
  | "FDIV" => two (.fdiv x.h)
  | "FMIN" => do x.plain; let (d, a, b) ← x.dab .f32 .f32; return .fmin x.h d a b
  | "FMAX" => do x.plain; let (d, a, b) ← x.dab .f32 .f32; return .fmax x.h d a b
  | "FABS" => do x.plain; let (d, a) ← x.da .f32; return .fabs x.h d a
  | "FNEG" => do x.plain; let (d, a) ← x.da .f32; return .fneg x.h d a
  | "FRND" => do let m ← x.one rmMods .rn; let (d, a) ← x.da .f32; return .frnd x.h d a m
  | "FSCALE" => do let (m, s) ← x.rmSat; let (d, a, b) ← x.dab .f32 .int; return .fscale x.h d a b m s
  | "FCLASS" => do x.plain; let (d, a) ← x.da .f32; return .fclass x.h d a
  | "FRCP" => one (.frcp x.h)
  | "FRSQ" => one (.frsq x.h)
  | "FSQRT" => one (.fsqrt x.h)
  | "FEXP2" => one (.fexp2 x.h)
  | "FLOG2" => one (.flog2 x.h)
  | "FSIN" => one (.fsin x.h)
  | "FCOS" => one (.fcos x.h)
  | _ => none

def InsLine.packed (x : InsLine) : Option Instr :=
  let (f, ms) := x.half
  let two (mk : VReg → Src → Src → Rm → Bool → Bool → Instr) : Option Instr := do
    let (m, s) ← { x with ms := ms }.rmSat
    let (d, a, b) ← x.dab (.half f) (.half f)
    return mk d a b m s f
  match x.mn with
  | "HADD2" => two (.hadd2 x.h)
  | "HSUB2" => two (.hsub2 x.h)
  | "HMUL2" => two (.hmul2 x.h)
  | "HFMA2" => do let (m, s) ← { x with ms := ms }.rmSat; let (d, a, b, c) ← x.dabc (.half f); return .hfma2 x.h d a b c m s f
  | "HMIN2" => do if !ms.isEmpty then none else let (d, a, b) ← x.dab (.half f) (.half f); return .hmin2 x.h d a b f
  | "HMAX2" => do if !ms.isEmpty then none else let (d, a, b) ← x.dab (.half f) (.half f); return .hmax2 x.h d a b f
  | "HDOT2" => do let (m, s) ← { x with ms := ms }.rmSat; let (d, a, b, c) ← x.dabc (.half f); return .hdot2 x.h d a b c m s f
  | "CVT" => do
    let (df, ms) := takeMod fmtMods x.ms
    let (sf, ms) := takeMod fmtMods ms
    let (pos, ms) := takeMod ePosMods ms
    let (m, s) ← { x with ms := ms }.rmSat
    let df ← df
    let sf ← sf
    match x.os with
    | [d, a] => return .cvt x.h (← d.vw (df.width == 64)) (← a.src (.fmt sf)) df sf (pos.getD 0) m s
    | _ => none
  | "CVT2" => do
    let (df, ms) := takeMod fmtMods x.ms
    let (sf, ms) := takeMod fmtMods ms
    let (pos, ms) := takeMod pPosMods ms
    let (m, s) ← { x with ms := ms }.rmSat
    let df ← df
    let sf ← sf
    let (d, a, b) ← x.dab (.fmt sf) (.fmt sf)
    return .cvt2 x.h d a b df sf (pos.getD 0) m s
  | _ => none

/-- .acq (loads) or .rel (stores) with its scope: both or neither (R325). -/
def annMods (s : String) (ms : List String) : Option (Option Scope × List String) :=
  let (on, r) := takeFlag s ms
  let (sc, r) := takeMod scopeMods r
  match on, sc with
  | true, some sc => some (some sc, r)
  | false, none => some (none, r)
  | _, _ => none

/-- A data register of some width, which may be written as a pair when it is 64 bits wide. -/
def Opd.data (sz : Sz) (o : Opd) : Option VReg := if sz = .w64 then o.v64 else o.v

def InsLine.memory (x : InsLine) : Option Instr :=
  match x.mn, x.os with
  | "LD", [d, m] => do
    let (sz, ms) := takeMod szMods x.ms
    let sz ← sz
    let (pf, ms) := takeFlag "pf" ms
    let (ann, ms) ← annMods "acq" ms
    if !ms.isEmpty then none else return .ld x.h sz (← d.data sz) (← m.adr x.g false sz.bytes) ann pf
  | "ST", [m, d] => do
    let (sz, ms) := takeMod szMods x.ms
    let sz ← sz
    let (ann, ms) ← annMods "rel" ms
    if !ms.isEmpty then none else return .st x.h sz (← d.data sz) (← m.adr x.g false sz.bytes) ann
  | "LDS", [d, m] => do
    let (sz, ms) := takeMod szMods x.ms
    let sz ← sz
    let (ann, ms) ← annMods "acq" ms
    if !ms.isEmpty then none else return .lds x.h sz (← d.data sz) (← m.adr x.g true sz.bytes) ann
  | "STS", [m, d] => do
    let (sz, ms) := takeMod szMods x.ms
    let sz ← sz
    let (ann, ms) ← annMods "rel" ms
    if !ms.isEmpty then none else return .sts x.h sz (← d.data sz) (← m.adr x.g true sz.bytes) ann
  | "LDK", [d, m] => do
    let (w, ms) := takeMod [("w32", false), ("w64", true)] x.ms
    let w ← w
    let (ann, ms) ← annMods "acq" ms
    if !ms.isEmpty then none else return .ldk x.h w (← d.kw w) (← m.adr x.g false (if w then 8 else 4)) ann
  | "PREF", [m] => do return .pref x.h (← x.one [("l1", false), ("l2", true)] false) (← m.adr x.g false 1)
  | "CCTL", [m] => do
    let a ← m.adr x.g false 1
    let op ← x.one [("wb", CctlOp.wb a), ("inv", .inv a), ("wbinv", .wbinv a), ("iinv", .iinv a)] (.wb a)
    return .cctl x.h op
  | "CCTL", [] => do
    match x.ms with
    | ["wball"] => return .cctl x.h .wball
    | ["iinvall"] => return .cctl x.h .iinvall
    | _ => none
  | "FENCE", [] => do return .fence x.h (← x.one scopeMods .g)
  | "QFENCE", [n] => do return .qfence x.h (BitVec.ofNat 8 (← n.nat 256)) (← x.one scopeMods .g)
  | "MOVQ", [m, q] => do x.plain; return .movq x.h (← q.q) (← m.adr x.g false 8)
  | _, _ => none

def InsLine.atomic (x : InsLine) : Option Instr :=
  let (fa, ms) := takeFlag "fadd" x.ms
  let (ord, ms) := takeMod orderMods ms
  let ord := ord.getD .none
  match x.mn, x.os with
  | "ATOM", d :: a :: b :: r => do
    let (sc, ms) := takeMod scopeMods ms
    let sc := sc.getD .g
    let a ← a.atomAdr .wide
    if fa then
      if !ms.isEmpty || !r.isEmpty then none else return .atomFadd x.h (← d.v) a (← b.src .f32) ord sc
    else
      let (op, ms) := takeMod atomMods ms
      let op ← op
      let (ty, ms) := takeMod tyMods ms
      let ty ← ty
      if !ms.isEmpty then none
      else
        let c ← match op, r with
          | .cas, [c] => c.vw ty.wide
          | .cas, _ => none
          | _, [] => some 0
          | _, _ => none
        return .atom x.h op ty (← d.vw ty.wide) a (← b.src (if ty.wide then .wide else .int)) c ord sc
  | "ATOMS", d :: a :: b :: r => do
    let a ← a.atomAdr .int
    if fa then
      if !ms.isEmpty || !r.isEmpty then none else return .atomsFadd x.h (← d.v) a (← b.src .f32) ord
    else
      let (op, ms) := takeMod atomMods ms
      let op ← op
      let (n, ms) := takeMod [("s32", false), ("n32", true)] ms
      let n ← n
      if !ms.isEmpty then none
      else
        let c ← match op, r with
          | .cas, [c] => c.v
          | .cas, _ => none
          | _, [] => some 0
          | _, _ => none
        return .atoms x.h op n (← d.v) a (← b.src .int) c ord
  | _, _ => none

def InsLine.matrix (x : InsLine) : Option Instr :=
  match x.mn, x.os with
  | "SHAPE", [s, a, b] => do
    let (f, ms) := takeMod shapeMods x.ms
    let f ← f
    if !ms.isEmpty then none else return .shape x.h (← s.sh) (← a.ksrc .int) (← b.ksrc .int) f
  | "SHEXT", [s, a] => do x.plain; return .shext x.h (← s.sh) (← a.ksrc .int)
  | "SHQ", [d, s] => do x.plain; return .shq x.h (← d.k) (← s.sh)
  | "WBLD", [n, a, b] => do
    return .wbld x.h (← a.ksrc .wide) (← b.ksrc .int) (BitVec.ofNat 6 (← n.nat 64)) (← x.one chMods 0)
  | "MMA", [f, s, a, b, pk] => do
    let (t, ms) := takeFlag "twin" x.ms
    let z ← { x with ms := ms }.flag "z"
    return .mma x.h (← f.frame) (← a.ksrc .int) (← b.ksrc .int) (← s.sh) (← pk.k) t z
  | "ACCRD", [d, f, b] => do return .accrd x.h (← d.v) (← f.frame) (← b.src .int) (← x.flag "w4")
  | "ACCWR", [f, a, b] => do x.plain; return .accwr x.h (← f.frame) (← a.src .int) (← b.src .bits)
  | "ACCCLR", [f] => do x.plain; return .accclr x.h (← f.frame)
  | "WMARK", [d, f] => do x.plain; return .wmark x.h (← d.k) (← f.frame)
  | "DRNLD", [n] => do x.plain; return .drnld x.h (BitVec.ofNat 5 (← n.nat 32))
  | "COPY", [d, a, b] => do return .copy x.h (← d.k64) (← a.k) (← b.ksrc .int) (← x.one chMods 0)
  | "RDWPT", [d] => do
    let (v, ms) := takeFlag "v" x.ms
    let ch ← { x with ms := ms }.one chMods 0
    if v then return .rdwpt x.h (.v (← d.v64)) ch else return .rdwpt x.h (.k (← d.k64)) ch
  | "RINGP", [d, r] => if x.ms = ["acq"] then do return .ringp x.h (← r.ring) (.acq (← d.k)) else none
  | "RINGP", [r] => if x.ms = ["pub"] then do return .ringp x.h (← r.ring) .done else none
  | "RINGC", [d, r] => if x.ms = ["acq"] then do return .ringc x.h (← r.ring) (.acq (← d.k)) else none
  | "RINGC", [r] => if x.ms = ["rel"] then do return .ringc x.h (← r.ring) .done else none
  | "REGACQ", [a] => do x.plain; return .regacq x.h (← a.ksrc .int)
  | "REGREL", [a] => do x.plain; return .regrel x.h (← a.ksrc .int)
  | _, _ => none

def InsLine.tasks (x : InsLine) : Option Instr :=
  match x.mn, x.os with
  | "SPAWN", [a, b, c] => do x.plain; return .spawn x.h (← a.src .wide) (← b.src .wide) (← c.v)
  | "ENQ", [a] =>
    if x.ms = ["own"] then do return .enq x.h (← a.src .wide) .own
    else if x.ms = ["hash"] then do return .enq x.h (← a.src .wide) .hash
    else none
  | "ENQ", [a, b] => if x.ms = ["core"] then do return .enq x.h (← a.src .wide) (.core (← b.src .int)) else none
  | "DECR", [a, b] => do x.plain; return .decr x.h (← a.src .int) (← b.src .int)
  | "WAITD", [a] => do x.plain; return .waitd x.h (← a.src .int)
  | "LEAFQ", [d, a, b] => do
    let sp ← x.flag "sp"
    return .leafq x.h (← d.v) (← a.src .int) (← b.src (if sp then .int else .wide)) sp
  | "FRES", [a, b] => do x.plain; return .fres x.h (← a.src .int) (← b.src .wide)
  | "WAITF", [d, a, c] => do x.plain; return .waitf x.h (← d.v64) (← a.src .int) (← c.v)
  | "TESTF", [d, a] => do x.plain; return .testf x.h (← d.v) (← a.src .int)
  | "CQRY", [d, a, b] => do x.plain; return .cqry x.h (← d.v) (← a.src .wide) (← b.src .wide)
  | "DSTEP", [d, a] => do x.plain; return .dstep x.h (← d.v) (← a.src .wide)
  | "POOLA", [d, a, p] => do x.plain; return .poola x.h (← d.v64) (← a.src .int) (← p.p)
  | "POOLF", [a, b] => do x.plain; return .poolf x.h (← a.src .int) (← b.src .wide)
  | "POOLFT", [a, b] => do x.plain; return .poolft x.h (← a.src .int) (← b.src .int)
  | "BESTUPD", [a, b, c] => do x.plain; return .bestupd x.h (← a.src .int) (← b.src .int) (← c.v64)
  | "DLNSET", [a] => do x.plain; return .dlnset x.h (← a.src .int)
  | "DLNRD", [d] => do x.plain; return .dlnrd x.h (← d.k)
  | "CANCEL", [a] => do x.plain; return .cancel x.h (← a.src .int)
  | _, _ => none

/-- The system registers that stand alone, and those that are numbered: the first number and how many (R431). -/
def sregNames : List (String × Nat) :=
  [("LPC", 0x000), ("TCAUSE", 0x001), ("TADDR", 0x002), ("TPC", 0x003), ("TNPC", 0x004), ("SPDEPTH", 0x005), ("FPCTL", 0x010)
    , ("STK", 0x011), ("DBG", 0x012), ("ASYNCST", 0x013), ("ATB", 0x020), ("TBASE", 0x021), ("DLN", 0x022), ("DLNACT", 0x023)
    , ("BPB", 0x024), ("DETC", 0x025), ("TLBINV", 0x030), ("CLK", 0x080), ("RTC", 0x081), ("CORE", 0x082), ("SLOT", 0x083)]
def sregRows : List (String × Nat × Nat) :=
  [("DETCE", 0x026, 10), ("GQD", 0x040, 16), ("PLD", 0x050, 8), ("ECFG", 0x060, 8), ("DCFG", 0x070, 16), ("ECNT", 0x088, 8)
    , ("DCNT", 0x090, 16)]

/-- The number of a system register's name (R431). -/
def sregOf (s : String) : Option Nat :=
  match sregNames.lookup s with
  | some n => some n
  | none =>
    let cs := s.toList
    (sregRows.lookup (String.ofList (cs.takeWhile asLetter))).bind fun r =>
      (plainNumber (cs.dropWhile asLetter)).bind fun n => if n < r.2 then some (r.1 + n) else none

def InsLine.system (x : InsLine) : Option Instr :=
  match x.mn, x.os with
  | "MOVS", [.name s, a] => do
    x.plain
    let n ← sregOf s
    let w := ((sregInfo n).map (·.wide)).getD false
    return .movs x.h (BitVec.ofNat 10 n) (← a.src (if w then .wide else .bits))
  | "MOVSR", [d, .name s] => do
    x.plain
    let n ← sregOf s
    let w := ((sregInfo n).map (·.wide)).getD false
    match d with
    | .reg .q m => return .movsr x.h (.q (BitVec.ofNat 4 m)) (BitVec.ofNat 10 n)
    | _ =>
      match d.vw w with
      | some v => return .movsr x.h (.v v) (BitVec.ofNat 10 n)
      | none => return .movsr x.h (.k (← d.kw w)) (BitVec.ofNat 10 n)
  | "TRET", [] => do x.plain; return .tret x.h
  | "LANEEND", [] => do x.plain; return .laneend x.h
  | "PKRD", [d, a, b] => do x.plain; return .pkrd x.h (← d.v) (← a.src .int) (← b.src .int)
  | "PKWR", [a, b, c] => do x.plain; return .pkwr x.h (← a.src .int) (← b.src .int) (← c.v)
  | _, _ => none

/-- The instruction of a line: the family that has its mnemonic reads it; it must be well-formed once its form is chosen. -/
def InsLine.instr (x : InsLine) : Option Instr :=
  let i := x.control <|> x.predicate <|> x.uniform <|> x.integer <|> x.cross <|> x.float <|> x.packed <|> x.memory <|> x.atomic
    <|> x.matrix <|> x.tasks <|> x.system
  i.bind fun i => if i.immForm.wf then some i else none

/-- The guard of a line, and what follows it (R329). -/
def guardOf (ts : List Tok) : Option (Hdr × List Tok) :=
  match ts with
  | .sym '(' :: .word s :: .sym ')' :: r =>
    match regOf s with
    | some (.p, n) => some (⟨false, BitVec.ofNat 4 n, false⟩, r)
    | _ => none
  | .sym '(' :: .sym '!' :: .word s :: .sym ')' :: r =>
    match regOf s with
    | some (.p, n) => some (⟨false, BitVec.ofNat 4 n, true⟩, r)
    | _ => none
  | r => some (⟨false, 15, false⟩, r)

/-- The instruction that tokens write, and the label that it branches to (R329). -/
def instrOf (g : Enc) (env : String → Option Int) (ts : List Tok) : Option (Instr × Option String) :=
  (guardOf ts).bind fun o =>
    match o.2 with
    | .word s :: r =>
      match (splitAtSep '.' s.toList).map String.ofList with
      | [] => none
      | mn :: ms =>
        let go (ms : List String) (lut : Option Nat) (r : List Tok) : Option (Instr × Option String) :=
          let branch : Option String := match mn, r with
            | "BRA", [.word t] => some t
            | "CALL", [.word t] => some t
            | _, _ => none
          if branch.isNone ∧ (mn = "BRA" ∨ mn = "CALL") then none
          else do
            let os ← operandsOf env r
            let i ← { h := o.1, mn := mn, ms := ms, lut := lut, os := os, g := g : InsLine }.instr
            return (i, branch)
        match r with
        | .sym '=' :: .int n :: r => if ms.getLast? = some "lut" then go ms.dropLast (some n) r else none
        | r => go ms none r
    | _ => none

end Sys2Proof
end

