-- ==== Sys2Proof/Machine/AsmText.lean ====
section
/-! DEFINITION. A text for nkas (R328 to R330): its lines, labels and directives, the micro-instructions of drain programs (R265), and
the kernels that it makes. -/
namespace Sys2Proof

open Machine

/-! ## Drain programs (R265, R330) -/

/-- The value of a word in a table of upper-case names; either case may be written, as R328 gives none for these words. -/
def eitherCase (t : List (String × Nat)) (w : String) : Option Nat := t.lookup w.toUpper

def microSources : List (String × Nat) :=
  [("T0", 0), ("T1", 1), ("T2", 2), ("T3", 3), ("ACC", 4), ("ROW", 5), ("COL", 6), ("ZERO", 7)]
def microAxes : List (String × Nat) := [("ROW", 0), ("COL", 1)]
def microModes : List (String × Nat) := [("RNE", 0), ("RZ", 1), ("RD", 2), ("RU", 3)]
def microFmts : List (String × Nat) :=
  [("FP32", 0), ("BF16", 1), ("FP16", 2), ("E4M3", 3), ("E5M2", 4), ("FP4", 5), ("DS8", 6), ("S32", 7), ("S16", 8), ("S8", 9)
    , ("INT4", 10), ("N8", 11), ("N16", 12), ("N32", 13)]

/-- What stands at a place of a form of R265. -/
inductive MicroArg where
  | td | sa | sb | p | axis | size | cnt | amt | fmt
deriving DecidableEq, Repr

/-- The forms of R265: the operation and its operands. CVT's mode, saturation and source format follow its format. -/
def microForms : List (String × Nat × List MicroArg) :=
  [("END", 0, []), ("MOV", 1, [.td, .sa]), ("SCALE", 2, [.td, .sa, .p, .axis]), ("BIAS", 3, [.td, .sa, .p, .axis])
    , ("ADDF", 4, [.td, .sa, .sb]), ("MULF", 5, [.td, .sa, .sb]), ("CLAMP", 6, [.td, .sa, .p]), ("RELU", 7, [.td, .sa])
    , ("GELU", 8, [.td, .sa, .p]), ("AMAX", 9, [.sa, .p]), ("NANCHK", 10, [.sa]), ("CVT", 11, [.td, .sa, .fmt])
    , ("ST", 12, [.sa, .p, .size]), ("RESF", 13, [.sa, .sb, .p]), ("DCD", 14, [.cnt, .amt]), ("ADDI", 15, [.td, .sa, .sb])]

/-- The bits that an operand of a micro-instruction gives, at their place. -/
def microArg (a : MicroArg) (ts : List Tok) : Option Nat :=
  match a, ts with
  | .td, [.word w] => (eitherCase microSources w).bind fun n => if n < 4 then some (n * 2 ^ 26) else none
  | .sa, [.word w] => (eitherCase microSources w).map (· * 2 ^ 23)
  | .sb, [.word w] => (eitherCase microSources w).map (· * 2 ^ 20)
  | .p, [.int n] => if n < 4 then some n else none
  | .axis, [.word w] => (eitherCase microAxes w).map (· * 4)
  | .size, [.int n] => ([(1, 0), (2, 4), (4, 8)] : List (Nat × Nat)).lookup n
  | .cnt, [.int n] => if n < 4096 then some n else none
  | .amt, [.int n] => if n < 128 then some (n * 2 ^ 12) else none
  | .amt, [.sym '-', .int n] => if n ≤ 128 then some ((256 - n) % 256 * 2 ^ 12) else none
  | .fmt, [.word w] => eitherCase microFmts w
  | _, _ => none

/-- The bits of the operands in their order, and the operands that are left. -/
def microArgs : List MicroArg → List (List Tok) → Option (Nat × List (List Tok))
  | [], r => some (0, r)
  | a :: as, ts :: r => do
    let x ← microArg a ts
    let (y, r) ← microArgs as r
    return (x + y, r)
  | _ :: _, [] => none

/-- An operand that may be left out: its number in a table, else 0. -/
def microOption (t : List (String × Nat)) (r : List (List Tok)) : Nat × List (List Tok) :=
  match r with
  | [.word w] :: r' =>
    match eitherCase t w with
    | some n => (n, r')
    | none => (0, r)
  | _ => (0, r)

/-- The word of a micro-instruction (R265). -/
def microWord (ts : List Tok) : Option Word :=
  match ts with
  | .word mn :: r => do
    let (op, form) ← microForms.lookup mn
    let (x, rest) ← microArgs form (if r.isEmpty then [] else splitAtSep (.sym ',') r)
    let (m, o1) := if op = 11 then microOption microModes rest else (0, rest)
    let (s, o2) := if op = 11 then microOption [("SAT", 1)] o1 else (0, o1)
    let (f, o3) := if op = 11 then microOption [("FP32", 0), ("S32", 1)] o2 else (0, o2)
    let w : Word := BitVec.ofNat 32 (op * 2 ^ 28 + x + m * 2 ^ 4 + s * 2 ^ 6 + f * 2 ^ 7)
    if o3.isEmpty && microOk w then some w else none
  | _ => none

/-! ## Statements (R328, R330) -/

/-- A kernel while its lines are read: the labels that wait for a statement, whether the current area is the data area, and the
drain program that is open. -/
structure AsmText where
  k       : AsmKernel
  pending : List Nat
  inData  : Bool
  drain   : Option (Nat × List Word)
deriving DecidableEq, Repr

/-- The labels at the head of a line, and what follows them (R328). -/
def labelsOf : List Tok → List String × List Tok
  | .word s :: .sym ':' :: r => let (l, r) := labelsOf r; (s :: l, r)
  | r => ([], r)

/-- Statements of the code, at which the labels that wait stand. -/
def AsmText.code (t : AsmText) (l : List AsmItem) : AsmText :=
  { t with k := { t.k with code := t.k.code ++ t.pending.map .label ++ l }, pending := [], inData := false }

/-- A statement of the data area, at which the labels that wait stand. -/
def AsmText.data (t : AsmText) (l : List DataItem) : AsmText :=
  { t with k := { t.k with data := t.k.data ++ t.pending.map .label ++ l }, pending := [], inData := true }

def classNames : List (String × Nat) := [("VEC", 0), ("MAT", 1), ("CPY", 2), ("SPC", 3), ("TSK", 4), ("CTL", 5), ("SYS", 6)]

/-- The fields of .clause (R316, R330); what is left out is as for a clause that nkas makes itself (R331). -/
def clauseFields : List Tok → ClauseFields → Option ClauseFields
  | [], f => some f
  | .word "class" :: .sym '=' :: .word c :: r, f => (eitherCase classNames c).bind fun n => clauseFields r { f with cls := some n }
  | .word "wload" :: .sym '=' :: .int n :: r, f => if n < 64 then clauseFields r { f with wload := n } else none
  | .word "wstore" :: .sym '=' :: .int n :: r, f => if n < 64 then clauseFields r { f with wstore := n } else none
  | .word "wasync" :: .sym '=' :: .int n :: r, f => if n < 256 then clauseFields r { f with wasync := n } else none
  | .word "safe" :: r, f => clauseFields r { f with safe := true }
  | .word "yld" :: r, f => clauseFields r { f with yld := true }
  | _, _ => none

/-- The bytes of a value of n bytes, signed or not. -/
def dataInt (n : Nat) (i : Int) : Option (List Byte) :=
  if -(2 ^ (8 * n - 1) : Nat) ≤ i ∧ i < (2 ^ (8 * n) : Nat) then some (toBytes n (i % (2 ^ (8 * n) : Nat)).toNat) else none

/-- The bytes of a value of .data (R330); an FP32 value is held exactly (R328). -/
def dataValue (kind : String) (o : Opd) : Option (List Byte) :=
  match kind, o with
  | "w8", .int i => dataInt 1 i
  | "w16", .int i => dataInt 2 i
  | "w32", .int i => dataInt 4 i
  | "w64", .int i => dataInt 8 i
  | "f32", .int i => (decBits .f32 (decide (i < 0)) i.natAbs 0).map (toBytes 4)
  | "f32", .dec neg m e => (decBits .f32 neg m e).map (toBytes 4)
  | _, _ => none

/-- A directive (R330); .kernel and .end delimit the lines of a kernel, and .enc is read before them. -/
def AsmText.directive (t : AsmText) (env : String → Option Int) (d : String) (r : List Tok) : Option AsmText :=
  match d, r with
  | "enc", [.word e] => if ["e3", "e2", "e1"].contains e then some t else none
  | "width", [.int n] => (([(16, 0), (32, 1), (64, 2), (128, 3)] : List (Nat × Nat)).lookup n).map fun w => { t with k.width := w }
  | "regs", [.int n] => if n < 16 then some { t with k.regs := n } else none
  | "scratch", [.int n] => if n % 256 = 0 ∧ n < 2 ^ 32 then some { t with k.scratch := n } else none
  | "stage", [.word w, .sym ',', .int n] =>
    (([("copy", 0), ("matrix", 1), ("vector", 2)] : List (String × Nat)).lookup w).bind fun role =>
      if 1 ≤ n ∧ n ≤ 32 ∧ t.k.stages.length < 4 then some { t with k.stages := t.k.stages ++ [(role, n)] } else none
  | "ring", [.int i, .sym ',', .int depth, .sym ',', .int prod, .sym ',', .int cons] =>
    if t.k.rings.any (fun x => x.1 == i) then none else some { t with k.rings := t.k.rings ++ [(i, depth, prod, cons)] }
  | "cohort", [.int n] => if 1 ≤ n ∧ n ≤ 4 then some { t with k.cohort := n } else none
  | "lagoon", [] => if t.k.cohort = 0 then none else some t
  | "det", [] => some { t with k.det := true }
  | "output", [.int va, .sym ',', .int n] =>
    if va < 2 ^ 48 ∧ n < 2 ^ 64 then some { t with k.outputs := t.k.outputs ++ [⟨false, va, n⟩] } else none
  | "output", [.word "arg", .sym '(', .int a, .sym ')', .sym ',', .int n] =>
    if a < 2 ^ 48 ∧ n < 2 ^ 64 then some { t with k.outputs := t.k.outputs ++ [⟨true, a, n⟩] } else none
  | "clause", r => (clauseFields r (implicitFields false)).map fun f => t.code [.clause f]
  | "endclause", [] => some (t.code [.endclause])
  | "safe", [] => some { t with k.code := t.k.code ++ [.safe] }
  | "align", [.int n] =>
    if n = 0 ∨ n &&& (n - 1) ≠ 0 then none
    else if t.inData then some { t with k.data := t.k.data ++ [.align n] }
    else some { t with k.code := t.k.code ++ [.align n] }
  | "drain", [.int n] => if n < 32 ∧ !(t.k.drains.any fun x => x.1 == n) then some { t with drain := some (n, []) } else none
  | "data", .word kind :: .sym ',' :: r =>
    (operandsOf env r).bind fun os => (os.mapM (dataValue kind)).bind fun bs =>
      if bs.isEmpty then none else some (t.data [.bytes bs.flatten])
  | _, _ => none

/-- A line: a micro-instruction inside .drain, else labels with a directive or an instruction (R328, R330). The number of a label is its
place among the kernel's labels. -/
def AsmText.line (names : List String) (e : Enc) (env : String → Option Int) (t : AsmText) (l : Nat × List Tok) : Option AsmText :=
  match t.drain with
  | some (n, ws) =>
    match l.2 with
    | [] => some t
    | [.dir "enddrain"] => some { t with drain := none, k.drains := t.k.drains ++ [(n, ws)] }
    | ts => (microWord ts).bind fun w => if ws.length < 16 then some { t with drain := some (n, ws ++ [w]) } else none
  | none =>
    let (ls, r) := labelsOf l.2
    let t := { t with pending := t.pending ++ ls.filterMap names.idxOf? }
    match r with
    | [] => some t
    | .dir d :: r => t.directive env d r
    | r => (instrOf e env r).bind fun o =>
      match o.2 with
      | none => some (t.code [.ins ⟨o.1, none, l.1⟩])
      | some s => (names.idxOf? s).map fun n => t.code [.ins ⟨o.1, some n, l.1⟩]

/-! ## Kernels -/

/-- The generation that .enc selects for a kernel (R330). -/
def encOf (ls : List (Nat × List Tok)) : Enc :=
  ls.foldl (fun e l => match (labelsOf l.2).2 with
    | [.dir "enc", .word "e3"] => .e3
    | [.dir "enc", .word "e2"] => .e2
    | [.dir "enc", .word "e1"] => .e1
    | _ => e) .e3

/-- The kernel of some lines, with values for its labels; none where nkas reports an error. -/
def kernelWith (name : List Byte) (names : List String) (ls : List (Nat × List Tok)) (values : List (Option Nat)) : Option AsmKernel :=
  let e := encOf ls
  let env (s : String) : Option Int := ((names.zip values).lookup s).bind fun v => v.map Int.ofNat
  let t : AsmText := { k := { AsmKernel.named name with enc := e }, pending := [], inData := false, drain := none }
  (ls.foldlM (AsmText.line names e env) t).bind fun t =>
    if t.drain.isSome then none else some (if t.inData then t.data [] else t.code []).k

/-- The values of a kernel's labels: offsets from the kernel header, a code label's of its clause and a data label's of its place in
the data area (R329, R330). -/
def AsmKernel.labelValues (k : AsmKernel) (count : Nat) : Option (List (Option Nat)) :=
  (packCode k.enc k.code).map fun ps =>
    let os := offsets ps codeOffset
    let cs := (clauseOffsets os).map (·.2)
    let safe := (cs.filter fun c => c.fields.safe).length
    let l := layoutOf k ((endOf ps codeOffset - codeOffset) / 8) safe (2 * safe) cs.length
    (List.range count).map fun n => labelAt os n <|> dataLabel k.data l.data n

/-- The kernel whose label values are those it was read with: a value may decide the size of an instruction, and so of the code. -/
def settle (name : List Byte) (names : List String) (ls : List (Nat × List Tok)) : Nat → List (Option Nat) → Option AsmKernel
  | 0, _ => none
  | fuel + 1, vs =>
    (kernelWith name names ls vs).bind fun k => (k.labelValues names.length).bind fun new =>
      if new = vs then some k else settle name names ls fuel new

/-- The kernel of some lines (R328 to R330). Its labels begin at 0, and a label may be defined once. -/
def kernelOf (name : List Byte) (ls : List (Nat × List Tok)) : Option AsmKernel :=
  let names := ls.flatMap fun l => (labelsOf l.2).1
  if names.Nodup then settle name names ls 9 (names.map fun _ => some 0) else none

/-- The kernels read so far, and the one that is open with its lines in reverse. -/
structure TextSplit where
  done : List (List Byte × List (Nat × List Tok))
  now  : Option (List Byte × List (Nat × List Tok))
deriving DecidableEq, Repr

/-- A line falls into the kernel that is open, or begins one; nothing but blank lines stands outside (R330). -/
def TextSplit.line (t : TextSplit) (l : Nat × List Tok) : Option TextSplit :=
  match t.now, l.2 with
  | none, [] => some t
  | none, [.dir "kernel", .word s] => some { t with now := some (s.toList.map fun c => BitVec.ofNat 8 c.toNat, []) }
  | none, _ => none
  | some k, ts =>
    match labelsOf ts with
    | (ls, [.dir "end"]) =>
      some { done := t.done ++ [(k.1, (if ls.isEmpty then k.2 else (l.1, ts.dropLast) :: k.2).reverse)], now := none }
    | _ => some { t with now := some (k.1, l :: k.2) }

/-- The tokens of each line, with the line's number from 1 on. -/
def tokenLines (cs : List Char) : Option (List (Nat × List Tok)) :=
  ((splitAtSep '\n' cs).mapM fun l => lexLine (l.length + 1) l).map fun ls => (List.range ls.length).map (· + 1) |>.zip ls

/-- The kernels of a text (R328 to R330). -/
def nkasKernels (text : String) : Option (List AsmKernel) := do
  let ls ← tokenLines text.toList
  let t ← ls.foldlM TextSplit.line ⟨[], none⟩
  if t.now.isSome then none else t.done.mapM fun k => kernelOf k.1 k.2

/-- The container that nkas makes of a text; none where it reports an error (R109, R328 to R333). -/
def nkas (text : String) : Option (List Byte) := do
  let ks ← nkasKernels text
  let is ← ks.mapM fun k => k.image.map fun i => (k.name, i)
  return nkxFile is

end Sys2Proof
end

