-- ==== Sys2Proof/Tests/Slice0.lean ====
section
/-! SUPPORT. Tests. Expected words and values are the spec's worked examples or hand computations from its rules; a comment names the
rule. The witnesses meet the hypotheses of the statements. -/
namespace Sys2Proof.Tests
open Sys2Proof Sys2Proof.Machine

set_option maxRecDepth 20000
-- One theorem at a time: evaluated side by side, these tests need more memory than a check of the package has.
set_option Elab.async false

/-! ## Helpers -/

/-- A guard that is always true. -/
def all : Hdr := ⟨false, 15, false⟩

/-- The machine after reset with a NOP placed: a width-16 GENERAL group in a SYS clause. -/
def one : State := State.reset.withFetchWord 64 0x001F000000000000

/-- The words of an entry decode to its instruction and to nothing more. -/
def reads (e : DWord × Instr) : Bool := decide (decode .e3 [e.1] = some (e.2, 1))

/-- What a next state shows. -/
def got {α : Type} (o : Host.Outcome State Fault Refusal) (f : State → α) : Option α :=
  match o with
  | .next t => some (f t)
  | _ => none

/-- A v register with its values in lanes 0 to 15. -/
def setV (d : VReg) (f : Nat → Word) (s : State) : State :=
  { s with g := (List.range 16).foldl (fun g l => g.wv d l (f l)) s.g }

/-- A k register. -/
def setK (d : KReg) (x : Word) (s : State) : State := { s with g := s.g.wk d x }

/-- A clause of another class. -/
def cls (n : Nat) (s : State) : State := { s with g := { s.g with iss := { s.g.iss with cls := n } } }

/-- A v register of lane l after an instruction. -/
def vAfter (i : Instr) (s : State) (d : VReg) (l : Nat) : Option Word := got (exec i s) fun t => t.g.rv d l

/-- A k register after an instruction. -/
def kAfter (i : Instr) (s : State) (d : KReg) : Option Word := got (exec i s) fun t => t.g.rk d

/-- The word in issue executes normally, as a computation. -/
def normalB (s : State) (h : Hdr) (cls : List Nat) (roles : List Role) (regs : List VReg) : Bool :=
  cls.contains s.g.iss.cls && roles.contains s.g.role && s.g.active h != 0 &&
  regs.all (fun r => r.toNat == 1023 || decide (r.toNat / 64 ≤ s.g.grant)) && s.g.iss.wait == none && !s.g.stepping

theorem normal_of {s : State} {h : Hdr} {cls : List Nat} {roles : List Role} {regs : List VReg}
    (w : normalB s h cls roles regs = true) : Normal s h cls roles regs := by
  simp only [normalB, Bool.and_eq_true, List.contains_iff_mem, bne_iff_ne, ne_eq, List.all_eq_true, Bool.or_eq_true, beq_iff_eq,
    decide_eq_true_eq, Bool.not_eq_true'] at w
  obtain ⟨⟨⟨⟨⟨a, b⟩, c⟩, d⟩, e⟩, f⟩ := w
  exact ⟨a, b, c, d, e, f⟩

theorem test_words_control : let h := all; ([
    (0x001F000000000000, .nop h),
    (0x002F000007FFFFFC, .bra h (-4)),
    (0x003F000040000000, .brx h (.v 8)),
    (0x004F000000000005, .call h 5),
    (0x005F000030000040, .callx h (.k 6)),
    (0x006F000000000000, .ret h),
    (0x007F000000000000, .exit h),
    (0x008F000000000000, .yield h),
    (0x00DF000000000000, .chkc h),
    (0x00EF000000000000, .bkpt h),
    (0x009F004000000000, .jmark h 2),
    (0x00AF00E000000000, .jwait h 7),
    (0x00BF01E000000000, .bar h 15),
    (0x00CF006000000000, .abar h 3),
    (0x00FF000000000011, .trap h 17),
    (0x00FF000004123456, .trapSvc h 0x123456)
  ] : List (DWord × Instr)).all reads = true := by decide

theorem test_words_predicates : let h := all; ([
    (0x080F010018080789, .pseti h 8 (.v 3) (.v 4) 15 .lt true),
    (0x085F19201FFFFFFF, .psetiImm h 9 3 .gt true (-1)),
    (0x081F01001808013C, .psetf h 8 (.v 3) (.k 4) 2 .nan),
    (0x082F00201006000E, .plop h 1 2 3 0xE),
    (0x083F008000000000, .pmov h (.toV 4)),
    (0x083F0000200A0001, .pmov h (.fromV (.v 4) (.v 5))),
    (0x084F002010000001, .vote h (.any 1) 2),
    (0x084F010010000002, .vote h (.ballot 8) 2)
  ] : List (DWord × Instr)).all reads = true := by decide

theorem test_words_uniform : let h := all; ([
    (0x090F008030000044, .kmov h 4 (.k 6) true),
    (0x091F008030100065, .kadd h 4 (.k 6) (.k 8) true false true),
    (0x092F008030100065, .ksub h 4 (.k 6) (.k 8) true false true),
    (0x093F008030100062, .kmul h 4 (.k 6) (.k 8) false true),
    (0x094F008030100061, .kmin h 4 (.k 6) (.k 8) true),
    (0x095F008030100061, .kmax h 4 (.k 6) (.k 8) true),
    (0x096F008030100060, .kand h 4 (.k 6) (.k 8)),
    (0x097F008030100060, .kor h 4 (.k 6) (.k 8)),
    (0x098F008030100060, .kxor h 4 (.k 6) (.k 8)),
    (0x09AF008030100060, .kshr h 4 (.k 6) (.k 8)),
    (0x09BF008030100060, .ksar h 4 (.k 6) (.k 8)),
    (0x099F008030100063, .kshl h 4 (.k 6) (.k 8) true true),
    (0x09CF008030100075, .kcmp h 4 (.k 6) (.k 8) .ge true),
    (0x09DF008030100560, .ksel h 4 (.k 6) (.k 8) 10),
    (0x09EF008007FFFFF9, .kmovImm h 4 (-7)),
    (0x09FF008030000007, .kaddImm h 4 6 7)
  ] : List (DWord × Instr)).all reads = true := by decide

theorem test_words_integer : let h := all; ([
    (0x100F008010000004, .mov h 4 (.v 2) true),
    (0x101F008008040180, .sel h 4 (.v 1) (.v 2) 3),
    (0x102F008008040003, .iadd h 4 (.v 1) (.v 2) true true),
    (0x103F008008040003, .isub h 4 (.v 1) (.v 2) true true),
    (0x104F008008040003, .imul h 4 (.v 1) (.v 2) true true),
    (0x110F008008040003, .ishl h 4 (.v 1) (.v 2) true true),
    (0x105F008008040001, .imulh h 4 (.v 1) (.v 2) true),
    (0x108F008008040001, .imin h 4 (.v 1) (.v 2) true),
    (0x109F008008040001, .imax h 4 (.v 1) (.v 2) true),
    (0x117F008008040001, .bfe h 4 (.v 1) (.v 2) true),
    (0x106F008008040181, .imad h 4 (.v 1) (.v 2) 3 true false),
    (0x107F008008040302, .imadw h 4 (.v 1) (.v 2) 6 false true),
    (0x10AF008008000002, .iabs h 4 (.v 1) true),
    (0x10BF008008000002, .ineg h 4 (.v 1) true),
    (0x10CF008008040020, .iand h 4 (.v 1) (.k 2)),
    (0x10DF008008040020, .ior h 4 (.v 1) (.k 2)),
    (0x10EF008008040020, .ixor h 4 (.v 1) (.k 2)),
    (0x111F008008040020, .ishr h 4 (.v 1) (.k 2)),
    (0x112F008008040020, .isar h 4 (.v 1) (.k 2)),
    (0x113F008008040020, .irot h 4 (.v 1) (.k 2)),
    (0x11FF008008040020, .hash h 4 (.v 1) (.k 2)),
    (0x10FF008008000000, .inot h 4 (.v 1)),
    (0x114F008008000000, .popc h 4 (.v 1)),
    (0x115F008008000000, .clz h 4 (.v 1)),
    (0x116F008008000000, .brev h 4 (.v 1)),
    (0x118F008008040180, .bfi h 4 (.v 1) (.v 2) 3),
    (0x119F0080100C0002, .iadd64 h 4 (.v 2) (.v 6) false true),
    (0x11AF0080100C0002, .isub64 h 4 (.v 2) (.v 6) false true),
    (0x11BF008008040181, .iclamp h 4 (.v 1) (.v 2) 3 true),
    (0x11CF008008040006, .padd16 h 4 (.v 1) (.v 2) true true),
    (0x11DF00C008040300, .pmac16 h 6 (.v 1) (.v 2) 6),
    (0x11EF010030060024, .pshr h 8 (.v 6) (.k 3) true),
    (0x140F008000000009, .movImm h 4 9),
    (0x141F00800FFFFFFE, .iaddImm h 4 1 (-2)),
    (0x142F00800FFFFFFE, .imulImm h 4 1 (-2)),
    (0x143F00800FFFFFFE, .iandImm h 4 1 (-2)),
    (0x144F00800FFFFFFE, .iorImm h 4 1 (-2)),
    (0x145F00800FFFFFFE, .ixorImm h 4 1 (-2)),
    (0x146F00800FFFFFFE, .ishlImm h 4 1 (-2)),
    (0x147F00800FFFFFFE, .ishrImm h 4 1 (-2)),
    (0x148F00800FFFFFFE, .isarImm h 4 1 (-2))
  ] : List (DWord × Instr)).all reads = true := by decide

theorem test_words_crosslane : let h := all; ([
    (0x180F004008080183, .lxch h 2 (.v 1) (.v 4) 3 .flip),
    (0x181F006010020480, .slide h 3 (.v 2) (.v 1) 9),
    (0x182F00A008000185, .red h 5 (.v 1) 3 .min true false),
    (0x183F00A008000502, .scan h 5 (.v 1) 2 true .add false true),
    (0x184F00E018040020, .bcast h 7 (.v 3) (.k 2)),
    (0x185F0140180A0000, .krdl h 10 3 (.v 5))
  ] : List (DWord × Instr)).all reads = true := by decide

theorem test_words_float : let h := all; ([
    (0x200F008008040006, .fadd h 4 (.v 1) (.v 2) .rd true),
    (0x201F008008040006, .fsub h 4 (.v 1) (.v 2) .rd true),
    (0x202F008008040006, .fmul h 4 (.v 1) (.v 2) .rd true),
    (0x204F008008040006, .fdiv h 4 (.v 1) (.v 2) .rd true),
    (0x20AF008008040006, .fscale h 4 (.v 1) (.v 2) .rd true),
    (0x2033808008040181, .ffma ⟨false, 3, true⟩ 4 (.v 1) (.v 2) 3 .rz false),
    (0x205F008008040000, .fmin h 4 (.v 1) (.v 2)),
    (0x206F008008040000, .fmax h 4 (.v 1) (.v 2)),
    (0x207F008008000000, .fabs h 4 (.v 1)),
    (0x208F008008000000, .fneg h 4 (.v 1)),
    (0x20BF008008000000, .fclass h 4 (.v 1)),
    (0x209F008008000003, .frnd h 4 (.v 1) .ru),
    (0x20CF008008000007, .frcp h 4 (.v 1) .ru true),
    (0x20DF008008000007, .frsq h 4 (.v 1) .ru true),
    (0x20EF008008000007, .fsqrt h 4 (.v 1) .ru true),
    (0x20FF008008000007, .fexp2 h 4 (.v 1) .ru true),
    (0x210F008008000007, .flog2 h 4 (.v 1) .ru true),
    (0x211F008008000007, .fsin h 4 (.v 1) .ru true),
    (0x212F008008000007, .fcos h 4 (.v 1) .ru true),
    (0x213F008008040009, .hadd2 h 4 (.v 1) (.v 2) .rz false true),
    (0x214F008008040009, .hsub2 h 4 (.v 1) (.v 2) .rz false true),
    (0x215F008008040009, .hmul2 h 4 (.v 1) (.v 2) .rz false true),
    (0x216F008008040209, .hfma2 h 4 (.v 1) (.v 2) 4 .rz false true),
    (0x217F008008040008, .hmin2 h 4 (.v 1) (.v 2) true),
    (0x218F008008040008, .hmax2 h 4 (.v 1) (.v 2) true),
    (0x219F008008040188, .hdot2 h 4 (.v 1) (.v 2) 3 .rn false true),
    (0x21AF008018000800, .cvt h 4 (.v 3) .bf16 .f32 0 .rn false),
    (0x21BF012008049804, .cvt2 h 9 (.v 1) (.v 2) .e4m3 .f32 1 .rn true)
  ] : List (DWord × Instr)).all reads = true := by decide

theorem test_words_memory : let h := all; ([
    (0x303F0100200481D0, .ld h .s16 8 ⟨.k 4, .v 2, 1, .scaled 3⟩ (some .d) false),
    (0x30DF0140A7FE0094, .st h .w64 10 ⟨.v 20, .v 1023, 0, .scaled 1⟩ (some .x)),
    (0x314F006050010040, .lds h .w32 3 ⟨.k 10, .v 0, 2, .scaled 0⟩ none),
    (0x318F00C02FFE0088, .sts h .n8 6 ⟨.v 5, .v 1023, 0, .scaled 1⟩ (some .b)),
    (0x321F0100107E0260, .ldk h true 8 ⟨.k 2, .k 63, 0, .scaled 4⟩ none),
    (0x322F00202005FFC0, .pref h true ⟨.k 4, .v 2, 3, .scaled (-1)⟩),
    (0x323F004020040040, .cctl h (.wbinv ⟨.k 4, .v 2, 0, .scaled 0⟩)),
    (0x323F00A000000000, .cctl h .iinvall),
    (0x324F000000000003, .fence h .d),
    (0x325F000000000101, .qfence h 2 .b),
    (0x35FF0140A018071C, .atom h .cas .n64 10 (.v 20) (.v 12) 14 .ar .x),
    (0x360F0140A018000A, .atomFadd h 10 (.v 20) (.v 12) .acq .a),
    (0x36CF7FE0200A0000, .atoms h .max false 1023 (.v 4) (.v 5) 0 .none),
    (0x378F00E060100050, .atomsFadd h 7 (.k 12) (.v 8) .rel)
  ] : List (DWord × Instr)).all reads = true := by decide

theorem test_words_matrix : let h := all; ([
    (0x380F006040120064, .shape h 3 (.k 8) (.k 9) 4),
    (0x381F006050000040, .shext h 3 (.k 10)),
    (0x382F028018000000, .shq h 20 3),
    (0x383F000050180261, .wbld h (.k 10) (.k 12) 4 1),
    (0x384F00A040123178, .mma h 5 (.k 8) (.k 9) 2 12 true true),
    (0x385F010028040001, .accrd h 8 5 (.v 2) true),
    (0x386F00A010100000, .accwr h 5 (.v 2) (.v 8)),
    (0x387F17E000000000, .accclr h 191),
    (0x388F014028000000, .wmark h 10 5),
    (0x389F03E000000000, .drnld h 31)
  ] : List (DWord × Instr)).all reads = true := by decide

theorem test_words_async : let h := all; ([
    (0x400F0280400A0060, .copy h 20 8 (.k 5) 0),
    (0x401F02C000000001, .rdwpt h (.k 22) 1),
    (0x401F02C000000007, .rdwpt h (.v 22) 3),
    (0x402F028008000000, .ringp h 1 (.acq 20)),
    (0x403F000028000001, .ringc h 5 .done),
    (0x404F000038000040, .regacq h (.k 7)),
    (0x405F000038000040, .regrel h (.k 7))
  ] : List (DWord × Instr)).all reads = true := by decide

theorem test_words_tasks : let h := all; ([
    (0x480F0000A02C0180, .spawn h (.v 20) (.v 22) 3),
    (0x481F0000A00E0021, .enq h (.v 20) (.core (.k 7))),
    (0x481F0000A0000002, .enq h (.v 20) .hash),
    (0x482F000008040000, .decr h (.v 1) (.v 2)),
    (0x483F000008000000, .waitd h (.v 1)),
    (0x484F018018280040, .leafq h 12 (.k 3) (.v 20) false),
    (0x484F0180182A0041, .leafq h 12 (.k 3) (.v 21) true),
    (0x485F000008080000, .fres h (.v 1) (.v 4)),
    (0x486F008008000480, .waitf h 4 (.v 1) 9),
    (0x487F00A008000000, .testf h 5 (.v 1)),
    (0x488F0180A0140020, .cqry h 12 (.v 20) (.k 10)),
    (0x489F0180A0000000, .dstep h 12 (.v 20)),
    (0x48AF008008000180, .poola h 4 (.v 1) 3),
    (0x48BF000008080000, .poolf h (.v 1) (.v 4)),
    (0x48CF000008060000, .poolft h (.v 1) (.v 3)),
    (0x48DF000008060200, .bestupd h (.v 1) (.v 3) 4),
    (0x48EF000008000000, .dlnset h (.v 1)),
    (0x48FF00A000000000, .dlnrd h 5),
    (0x490F000040000040, .cancel h (.k 8))
  ] : List (DWord × Instr)).all reads = true := by decide

theorem test_words_system : let h := all; ([
    (0x500F000040220040, .movs h 0x011 (.k 8)),
    (0x501F00C000200001, .movsr h (.k 6) 0x010),
    (0x501F004001000002, .movsr h (.q 2) 0x080),
    (0x502F004020058040, .movq h 2 ⟨.k 4, .v 2, 3, .scaled 0⟩),
    (0x503F000000000000, .tret h),
    (0x504F000000000000, .laneend h),
    (0x505F010028120020, .pkrd h 8 (.v 5) (.k 9)),
    (0x506F000028120420, .pkwr h (.v 5) (.k 9) 8)
  ] : List (DWord × Instr)).all reads = true := by decide
/-! ## Ill-formed terms -/

/-- A literal of a 32-bit operand above 32 bits, and two literals (R323), in each operand check. -/
theorem test_wf_literals : ([
    .iadd all 3 (.lit 0x100000000) (.v 1) false false, .iadd all 3 (.lit 1) (.lit 2) false false, .iabs all 3 (.lit 0x100000000) false,
    .kand all 3 (.lit 0x100000000) (.k 1), .kand all 3 (.lit 1) (.lit 2), .kmov all 3 (.lit 0x100000000) false,
    .mov all 3 (.lit 0x100000000) false, .krdl all 3 1 (.lit 0x100000000), .regacq all (.lit 0x100000000),
    .iadd64 all 4 (.lit 1) (.lit 2) false false, .decr all (.lit 1) (.lit 2), .spawn all (.lit 0) (.lit 8) 1,
    .ld all .w32 3 ⟨.lit 0, .lit 1, 0, .scaled 0⟩ none false, .lds all .w32 3 ⟨.lit 0x100000000, .v 1, 0, .scaled 0⟩ none,
    .wbld all (.lit 0) (.lit 64) 0 0, .cancel all (.lit 0x100000000) ] : List Instr).all (fun i => !i.wf) = true := by decide

/-- Odd registers where a pair stands (R322). -/
theorem test_wf_pairs : ([
    .brx all (.v 3), .callx all (.k 5), .kmov all 3 (.k 2) true, .kadd all 4 (.k 3) (.k 2) false false true, .ksub all 3 (.k 2) (.k 2) false false true,
    .mov all 3 (.v 2) true, .imadw all 3 (.v 1) (.v 2) 4 false false, .imadw all 4 (.v 1) (.v 2) 5 false false,
    .iadd64 all 5 (.v 2) (.v 4) false false, .isub64 all 4 (.v 3) (.v 4) false false, .atom all .cas .n64 4 (.v 2) (.v 6) 9 .none .g,
    .atom all .add .n64 4 (.v 2) (.v 7) 0 .none .g, .copy all 5 8 (.k 1) 0, .rdwpt all (.k 5) 0, .rdwpt all (.v 5) 0, .enq all (.v 3) .own,
    .fres all (.v 1) (.v 3), .waitf all 5 (.v 1) 2, .cqry all 3 (.v 2) (.v 5), .dstep all 3 (.v 5), .poola all 5 (.v 1) 2, .poolf all (.v 1) (.v 5),
    .bestupd all (.v 1) (.v 2) 5, .leafq all 3 (.v 1) (.v 5) false, .ldk all true 5 ⟨.k 2, .k 4, 0, .scaled 0⟩ none,
    .movsr all (.v 3) 0x000, .movsr all (.k 3) 0x000, .movs all 0x011 (.v 3) ] : List Instr).all (fun i => !i.wf) = true := by decide

/-- The checks of single instructions: CMP 6 for integers (R355), the ballot's D (R359), SGN and ISAT of RED (R375), conversions (R386,
R387), registers and sizes of accesses (R324, R388), C of an atomic (R324), frames and quads (R322, R407), and system registers (R431). -/
theorem test_wf_fields : ([
    .pseti all 1 (.v 1) (.v 2) 15 .num false, .psetiImm all 1 2 .nan false 0, .kcmp all 1 (.k 1) (.k 2) .nan false, .vote all (.ballot 9) 1,
    .red all 3 (.v 1) 0 .min false true, .red all 3 (.v 1) 0 .and true false, .scan all 3 (.v 1) 0 false .fadd true false,
    .cvt all 4 (.v 3) .s32 .f32 0 .rn true, .cvt all 4 (.v 3) .f32 .bf16 2 .rn false, .cvt all 4 (.v 3) .f32 .f32 1 .rn false,
    .cvt all 5 (.v 3) .s64 .f32 0 .rn false, .cvt2 all 4 (.v 1) (.v 2) .f32 .f32 0 .rn false, .cvt2 all 4 (.v 1) (.v 2) .bf16 .f16 0 .rn false,
    .cvt2 all 4 (.v 1) (.v 2) .bf16 .f32 1 .rn false, .ld all .w64 3 ⟨.v 2, .v 1, 0, .scaled 0⟩ none false,
    .ld all .w128 6 ⟨.v 2, .v 1, 0, .scaled 0⟩ none false, .ld all .w32 3 ⟨.v 2, .v 1, 0, .scaled 0⟩ (some .d) true,
    .st all .s8 3 ⟨.v 2, .v 1, 0, .scaled 0⟩ none, .sts all .s16 3 ⟨.v 2, .v 1, 0, .scaled 0⟩ none, .lds all .w32 3 ⟨.v 2, .v 1, 0, .scaled 0⟩ (some .d),
    .ldk all false 3 ⟨.v 2, .k 1, 0, .scaled 0⟩ none, .atom all .add .n32 3 (.v 2) (.v 1) 4 .none .g, .atoms all .or false 3 (.v 2) (.v 1) 4 .none,
    .shq all 6 0, .mma all 192 (.k 1) (.k 2) 0 4 false false, .mma all 5 (.k 1) (.k 2) 0 5 false false, .accrd all 6 1 (.v 2) true,
    .accwr all 192 (.v 1) (.v 2), .accclr all 200, .wmark all 1 255, .copy all 4 9 (.k 1) 0, .movs all 0x000 (.v 2), .movs all 0x3FF (.v 2),
    .movsr all (.q 1) 0x030, .movq all 1 ⟨.v 3, .v 1, 0, .scaled 0⟩, .pref all false ⟨.v 3, .v 1, 0, .scaled 0⟩,
    .cctl all (.inv ⟨.v 3, .v 1, 0, .scaled 0⟩) ] : List Instr).all (fun i => !i.wf) = true := by decide

/-- Words that no instruction has: an OPC of zero, one unassigned, a reserved modifier, and a missing literal's upper half. -/
theorem test_reserved_words :
    ([0x0, 0x7FFF000000000000, 0x001F000000000001, 0x112F001000000010] : List DWord).all (fun w => decode .e3 [w] == none) = true ∧
    decode .e3 [0xA02F00C027FE0020, 0x13FC00000] = none ∧ decode .e3 [] = none := by decide

/-- R323: the length of a literal form, and of the SHAPE form with a literal. -/
theorem test_literal_words :
    decode .e3 [0xA02F00C027FE0020, 0x3FC00000] = some (.fmul ⟨true, 15, false⟩ 6 (.v 4) (.lit 0x3FC00000) .rn false, 2) ∧
    (decode .e3 [0x380F000147FE0063, 0x80]).map (·.2) = some 2 := by decide

/-- R334, R337: the E1 word of the example. -/
theorem test_legacy_word : decode .e1 [0x202F040010000000] = some (.fmul all 4 (.v 0) (.v 4) .rn false, 1) := by decide

/-! ## Values -/

/-- R360: the 64-bit addition of the KADD example, and its 32-bit form. -/
theorem test_kadd :
    let s := setK 4 0xFFFFFFF0 (setK 5 0x40 one)
    kAfter (.kadd all 4 (.k 4) (.lit 0x20) false false true) s 4 = some 0x10 ∧
    kAfter (.kadd all 4 (.k 4) (.lit 0x20) false false true) s 5 = some 0x41 ∧
    kAfter (.kadd all 4 (.k 4) (.lit 0x20) false false false) s 5 = some 0x40 := by decide

/-- R243: KMUL wraps, and under .sat clamps to the largest S32 value. -/
theorem test_kmul :
    let s := setK 1 0x40000000 one
    kAfter (.kmul all 2 (.k 1) (.lit 4) false false) s 2 = some 0 ∧ kAfter (.kmul all 2 (.k 1) (.lit 4) false true) s 2 = some 0x7FFFFFFF := by
  decide

/-- R355, R356: the PSETI example, signed and .n. -/
theorem test_pseti :
    let s := setV 3 (fun _ => 0xFFFFFFFF) (setV 4 (fun _ => 1) one)
    got (exec (.pseti all 1 (.v 3) (.v 4) 15 .lt false) s) (fun t => t.g.rp 1 7) = some true ∧
    got (exec (.pseti all 1 (.v 3) (.v 4) 15 .lt true) s) (fun t => t.g.rp 1 7) = some false := by decide

/-- R357: .andn is a and not b. -/
theorem test_plop :
    let s : State := { one with g := one.g.wp 1 3 true }
    got (exec (.plop all 3 1 2 4) s) (fun t => (t.g.rp 3 3, t.g.rp 3 4)) = some (true, false) := by decide

/-- R359: a ballot of lanes 0 and 9. -/
theorem test_ballot :
    let s : State := { one with g := (one.g.wp 2 0 true).wp 2 9 true }
    kAfter (.vote all (.ballot 8) 2) s 8 = some 0x201 := by decide

/-- R364: the high half of a product, signed and .n. -/
theorem test_imulh :
    let s := setV 1 (fun _ => 0xFFFFFFFF) one
    vAfter (.imulh all 3 (.v 1) (.lit 2) false) s 3 0 = some 0xFFFFFFFF ∧ vAfter (.imulh all 3 (.v 1) (.lit 2) true) s 3 0 = some 1 := by
  decide

/-- R366: a shift by 32 gives zero, an arithmetic one the sign; rotation takes the amount modulo 32. -/
theorem test_shifts :
    let s := setV 1 (fun _ => 0x80000001) one
    vAfter (.ishl all 3 (.v 1) (.lit 32) false false) s 3 0 = some 0 ∧ vAfter (.isar all 3 (.v 1) (.lit 40)) s 3 0 = some 0xFFFFFFFF ∧
    vAfter (.irot all 3 (.v 1) (.lit 33)) s 3 0 = some 3 := by decide

/-- R365: bits 15:8 of 0xF00, sign-extended and (.n) zero-extended. -/
theorem test_bfe :
    let s := setV 1 (fun _ => 0xF00) one
    vAfter (.bfe all 3 (.v 1) (.lit 0x408) false) s 3 5 = some 0xFFFFFFFF ∧ vAfter (.bfe all 3 (.v 1) (.lit 0x408) true) s 3 5 = some 0xF := by
  decide

/-- R369: the PMAC16 example. -/
theorem test_pmac16 :
    let s := setV 1 (fun _ => 0xFFFE0003) (setV 2 (fun _ => 0x00050004) (setV 6 (fun _ => 10) one))
    vAfter (.pmac16 all 6 (.v 1) (.v 2) 6) s 6 3 = some 12 := by decide

/-- R369: the PSHR examples: a clamp that sets FPCTL.SAT, and none. -/
theorem test_pshr :
    let s (x : Word) := setV 8 (fun _ => 0x12345678) (setV 4 (fun _ => x) one)
    got (exec (.pshr all 8 (.v 4) (.lit 1) false) (s 0x10000)) (fun t => (t.g.rv 8 2, t.g.fpctl)) = some (0x12347FFF, 0x10) ∧
    got (exec (.pshr all 8 (.v 4) (.lit 1) false) (s 0xFFFFFFFD)) (fun t => (t.g.rv 8 2, t.g.fpctl)) = some (0x1234FFFF, 0) := by decide

/-- R372, R373: the first LXCH of the example, and with lane 6's guard false. -/
theorem test_lxch :
    let s := setV 1 (fun l => BitVec.ofNat 32 (l + 1)) one
    let t : State := { s with g := (List.range 16).foldl (fun g l => g.wp 1 l (decide (l ≠ 6))) s.g }
    vAfter (.lxch all 2 (.v 1) (.lit 4) 3 .flip) s 2 1 = some 6 ∧ vAfter (.lxch ⟨false, 1, false⟩ 2 (.v 1) (.lit 4) 3 .flip) t 2 2 = some 7 ∧
    vAfter (.lxch ⟨false, 1, false⟩ 2 (.v 1) (.lit 4) 3 .flip) t 2 6 = some 0 := by decide

/-- R374: lane 0 takes the k register, the others the lane below; a B that differs raises UNIF with DIS in that lane. -/
theorem test_slide :
    let s := setK 9 0x00070006 (setV 2 (fun l => BitVec.ofNat 32 (100 + l)) (setV 4 (fun l => if l = 5 then 2 else 1) one))
    vAfter (.slide all 3 (.v 2) (.lit 1) 9) s 3 0 = some 0x00070006 ∧ vAfter (.slide all 3 (.v 2) (.lit 1) 9) s 3 4 = some 103 ∧
    got (exec (.slide all 3 (.v 2) (.v 4) 9) s) (fun t => ((t.g.lane 5).tcause, (t.g.lane 6).tcause)) =
      some (0x80080000 + BitVec.ofNat 32 cUNIF, 0x80000000 + BitVec.ofNat 32 cUNIF) := by decide

/-- R375: RED.add over segments of 8, and RED.fadd in ascending lane order. -/
theorem test_red :
    vAfter (.red all 5 (.v 1) 3 .add false false) (setV 1 (fun l => BitVec.ofNat 32 (l + 1)) one) 5 0 = some 36 ∧
    vAfter (.red all 5 (.v 1) 3 .add false false) (setV 1 (fun l => BitVec.ofNat 32 (l + 1)) one) 5 12 = some 100 ∧
    vAfter (.red all 5 (.v 1) 0 .fadd false false)
      (setV 1 (fun l => if l = 0 then 0x4B800000 else if l < 3 then 0x3F800000 else 0) one) 5 9 = some 0x4B800000 := by decide

/-- R376: an exclusive scan gives lane 0 the identity. -/
theorem test_scan :
    let s := setV 1 (fun l => BitVec.ofNat 32 (l + 1)) one
    vAfter (.scan all 5 (.v 1) 0 true .add false false) s 5 0 = some 0 ∧ vAfter (.scan all 5 (.v 1) 0 true .add false false) s 5 15 = some 120 := by
  decide

/-- R380: the fused and the unfused product of the example round differently. -/
theorem test_ffma :
    let s := setV 1 (fun _ => 0x3F800800) (setV 3 (fun _ => 0xBF800000) one)
    vAfter (.ffma all 4 (.v 1) (.v 1) 3 .rn false) s 4 0 = some 0x3A000400 ∧ vAfter (.fmul all 4 (.v 1) (.v 1) .rn false) s 4 0 = some 0x3F801000 := by
  decide

/-- R380: 1/3 in the four modes; 1/0 is an infinity and no NaN; 0/0 is the canonical NaN and sets NANP. -/
theorem test_fdiv :
    let s := setV 1 (fun _ => 0x3F800000) (setV 2 (fun _ => 0x40400000) one)
    vAfter (.fdiv all 4 (.v 1) (.v 2) .rn false) s 4 0 = some 0x3EAAAAAB ∧ vAfter (.fdiv all 4 (.v 1) (.v 2) .rz false) s 4 0 = some 0x3EAAAAAA ∧
    got (exec (.fdiv all 4 (.v 1) (.v 0) .rn false) s) (fun t => (t.g.rv 4 0, t.g.fpctl)) = some (0x7F800000, 0) ∧
    got (exec (.fdiv all 4 (.v 0) (.v 0) .rn false) s) (fun t => (t.g.rv 4 0, t.g.fpctl)) = some (0x7FC00000, 0x20) := by decide

/-- R241, R381: FMIN takes the operand that is no NaN, and FNEG flips the sign of a NaN and keeps its payload. -/
theorem test_fmin_fneg :
    let s := setV 1 (fun _ => 0x7F800001) (setV 2 (fun _ => 0xC0000000) one)
    vAfter (.fmin all 4 (.v 1) (.v 2)) s 4 0 = some 0xC0000000 ∧ vAfter (.fneg all 4 (.v 1)) s 4 0 = some 0xFF800001 := by decide

/-- R382: the square root of 2, and of −1. -/
theorem test_fsqrt :
    let s := setV 1 (fun _ => 0x40000000) (setV 2 (fun _ => 0xBF800000) one)
    vAfter (.fsqrt all 4 (.v 1) .rn false) s 4 0 = some 0x3FB504F3 ∧ vAfter (.fsqrt all 4 (.v 2) .rn false) s 4 0 = some 0x7FC00000 := by decide

/-- R382: FEXP2 of 3 and FLOG2 of 8 are exact. -/
theorem test_exp_log :
    let s := setV 1 (fun _ => 0x40400000) (setV 2 (fun _ => 0x41000000) one)
    vAfter (.fexp2 all 4 (.v 1) .rn false) s 4 0 = some 0x41000000 ∧ vAfter (.flog2 all 4 (.v 2) .rn false) s 4 0 = some 0x40400000 := by decide +kernel

/-- R384: the HDOT2 and HMUL2 examples. -/
theorem test_hdot2 :
    let s := setV 1 (fun _ => 0xC0003FC0) (setV 2 (fun _ => 0x3E804080) (setV 6 (fun _ => 0x3F000000) one))
    vAfter (.hdot2 all 6 (.v 1) (.v 2) 6 .rn false false) s 6 0 = some 0x40C00000 ∧
    vAfter (.hmul2 all 7 (.v 1) (.v 2) .rn false false) s 7 0 = some 0xBF0040C0 := by decide

/-- R387: the CVT example, to nearest and toward zero. -/
theorem test_cvt :
    let s := setV 3 (fun _ => 0x3F818000) one
    vAfter (.cvt all 4 (.v 3) .bf16 .f32 0 .rn false) s 4 0 = some 0x3F82 ∧ vAfter (.cvt all 4 (.v 3) .bf16 .f32 0 .rz false) s 4 0 = some 0x3F81 := by
  decide

/-- R387: the CVT2 example, with and without .sat. -/
theorem test_cvt2 :
    let s := setV 1 (fun _ => 0x40400000) (setV 2 (fun _ => 0xC3FA0000) (setV 9 (fun _ => 0x12345678) one))
    vAfter (.cvt2 all 9 (.v 1) (.v 2) .e4m3 .f32 1 .rn true) s 9 0 = some 0xFE445678 ∧
    got (exec (.cvt2 all 9 (.v 1) (.v 2) .e4m3 .f32 1 .rn false) s) (fun t => (t.g.rv 9 0, t.g.fpctl)) = some (0x7F445678, 0x20) := by decide

/-- R343: a BRA to its own clause header's address yields; BRX beyond 48 bits raises XLATE, sub-cause 3, ACC 3. -/
theorem test_branches :
    got (exec (.bra all (-1)) one) (fun t => ((t.g.lane 2).lpc, (t.g.lane 2).yld)) = some (0, true) ∧
    got (exec (.brx all (.v 2)) (setV 3 (fun _ => 0x10000) one)) (fun t => ((t.g.lane 2).st, (t.g.lane 2).tcause)) = some (.trapped, 0x80300300 + BitVec.ofNat 32 cXLATE) := by
  decide

/-- R190, R344: CALL pushes the address behind it, and RET on an empty stack raises STACK. -/
theorem test_calls :
    got (exec (.call all 5) one) (fun t => ((t.g.lane 2).lpc, (t.g.lane 2).stack)) = some (48, [16]) ∧
    got (exec (.ret all) one) (fun t => ((t.g.lane 2).st, bits (t.g.lane 2).tcause.toNat 7 0)) = some (.trapped, cSTACK) := by decide

/-- R347, R348: JMARK stores the active lanes; at JWAIT the first lane of the mask to arrive parks, and the last goes on. -/
theorem test_rejoin :
    let s (x : BitVec 128) : State := { one with g := { (one.g.wp 1 3 true) with j := [(2, x)] } }
    got (exec (.jmark all 2) one) (fun t => t.g.rj 2) = some 0xFFFF ∧
    got (exec (.jwait ⟨false, 1, false⟩ 2) (s 0x18)) (fun t => ((t.g.lane 3).st, (t.g.lane 4).st)) = some (.joinPark 2, .eligible) ∧
    got (exec (.jwait ⟨false, 1, false⟩ 2) (s 0x8)) (fun t => (t.g.lane 3).st) = some .eligible := by decide

/-- R353: BKPT leaves the lane at the instruction, with TNPC behind it. -/
theorem test_bkpt :
    got (exec (.bkpt all) one) (fun t => ((t.g.lane 0).tcause, (t.g.lane 0).tpc, (t.g.lane 0).tnpc)) = some (0x8000000F, 8, 16) := by decide

/-- R436: TRET outside the handler raises PERM. -/
theorem test_tret : got (exec (.tret all) one) (fun t => bits (t.g.lane 0).tcause.toNat 7 0) = some cPERM := by decide

/-- R249, R253: the shape example: 48 by 48 by 24 chunks of BF16 by DS8 with scales. -/
theorem test_shape :
    let s := setK 4 0x20183030 (setK 5 1536 (cls 1 one))
    got (exec (.shape all 0 (.k 4) (.k 5) 4) s) (fun t => (t.g.rsh 0).toNat) = some 0xA4303000C54080000000060000000017 ∧
    got (exec (.shext all 0 (.lit 0x1010)) { s with g := s.g.wsh 0 0xA4303000C54080000000060000000017 })
      (fun t => (t.g.rsh 0).toNat / 2 ^ 64) = some 0xA4303000C5204000 := by decide
/-- R248: the ATOMS.FADD example: the word ends as 2^24 + 2, and the lanes return the values they met. -/
theorem test_atoms_fadd :
    let s : State := { one with sp := [(2, 0x80), (3, 0x4B)], g := { (setV 5 (fun l => if l = 2 then 0x40000000 else 0x3F800000) one).g with
      scratch := 64, iss := { one.g.iss with x := 7 } } }
    got (exec (.atomsFadd all 7 (.v 4) (.v 5) .none) s) (fun t => (Memory.read t.sp 0 4, t.g.rv 7 2)) =
      some ([0x01, 0x00, 0x80, 0x4B], 0x4B800000) := by decide

/-- R392: STS and LDS of a byte at offset 5, and a word at offset 2, which is misaligned. -/
theorem test_scratchpad :
    let s : State := { one with g := { (setV 2 (fun _ => 0x1234) one).g with scratch := 16 } }
    let a (x : DWord) : Adr := ⟨.lit x, .v 1023, 0, .scaled 0⟩
    got (exec (.sts all .n8 2 (a 5) none) s) (fun t => t.sp) = some [(5, 0x34)] ∧
    vAfter (.lds all .s8 3 (a 5) none) { s with sp := [(5, 0x84)] } 3 0 = some 0xFFFFFF84 ∧
    got (exec (.lds all .w32 3 (a 2) none) s) (fun t => ((t.g.lane 0).st, bits (t.g.lane 0).tcause.toNat 7 0)) = some (.trapped, cALIGN) := by
  decide

/-- R194: scratchpad offsets at and beyond SCRATCH raise PERM. -/
theorem test_scratchpad_range :
    let s : State := { one with g := { one.g with scratch := 16 } }
    got (exec (.lds all .w32 3 ⟨.lit 16, .v 1023, 0, .scaled 0⟩ none) s) (fun t => bits (t.g.lane 0).tcause.toNat 7 0) = some cPERM := by decide

/-- R161: a handle is core 1, entry 1, generation 3. -/
theorem test_handle : (hCore 0x08008003, hEntry 0x08008003, hGen 0x08008003) = (1, 1, 3) := by decide

/-- R148: affinity 0x0123 lies in segment 54 of 64. -/
theorem test_segment : segOf 64 0x0123 = 54 := by decide

/-- The words of the card of the example, as software writes them (R99). -/
def card : List DWord :=
  [0x0000004020000000, 0x0123004020100000, 0x0042004020000C00, 0x1000160300000060, 0x0000100700000000, 0x11, 0, 0]

/-- R99: the fields that the hardware fills, and those of word 3 of the card of the example. -/
theorem test_card :
    fillCard card 5 0x102 = [0x0005004020000000, 0x0123004020100000, 0x0042004020000C00, 0x1000160300000060, 0x0000100700000000, 0x11, 0x102, 0] ∧
    (fun t : Task => (t.cancellable, t.prio, t.width, t.cohort)) (Task.card 0 (fillCard card 5 0x102) (.ring 3) 54 false) = (true, 1, 64, 0) ∧
    (fun t : Task => (t.ngroups, t.nblocks, t.dv, t.donec)) (Task.card 0 (fillCard card 5 0x102) (.ring 3) 54 false) = (4, 0x60, true, 7) := by
  decide

/-- R426: the DLNSET and DLNRD example. -/
theorem test_deadline :
    let s : State := { setK 5 5000 one with rtc := 1000000 }
    got (exec (.dlnset all (.k 5)) s) (fun t => (t.cx 0).dln) = some 0x80000000000F55C8 ∧
    kAfter (.dlnrd all 6) { one with rtc := 1003250, ctxs := [(0, { Ctx.reset with dln := 0x80000000000F55C8 })] } 6 = some 1750 := by decide

/-- R153, R154: a counter clamps at zero and says so. -/
theorem test_counter :
    let s : State := { one with counters := [(7, ⟨3, some 0, false⟩)] }
    ((s.adjust 7 1).counter 7).value = 2 ∧ ((s.adjust 7 5).counter 7).value = 0 ∧ ((s.adjust 7 5).counter 7).under = true := by decide

/-- R431: FTZ and NANT are bits 0 and 1 of FPCTL, and its reserved bits stay zero. -/
theorem test_movs : got (exec (.movs all 0x010 (.lit 0xFFFFFF03)) one) (fun t => t.g.fpctl) = some 0x3 := by decide

/-- R431, R434: TCAUSE is each lane's own. -/
theorem test_movsr :
    vAfter (.movsr all (.v 3) 0x001) { one with g := one.g.modLanes 0x800 fun _ a => { a with tcause := 0x8000000F } } 3 11 = some 0x8000000F := by
  decide

/-- R37: the mapping example. -/
theorem test_mapping :
    one.chanOf 0x123480 = 3 ∧ one.lineOf 0x123480 = 0x123 ∧ subOf 0x123480 = 0 ∧ one.chanOf 0x123500 = 0 ∧ one.lineAddr 3 0x123 = 0x123480 := by
  decide

/-- R41, R42: one flipped bit in byte 17 of a sector is corrected there; two bytes are not. -/
theorem test_correction :
    let w : List Byte := List.replicate 36 0
    let z : List Byte := checkBytes (List.replicate 36 0)
    let good := w.take 34 ++ z
    (syndromes good = (0, 0)) ∧ (syndromes (modifyAt (fun b => b ^^^ 0x20) good 17)).1 = 0x20 ∧
    errorPos (syndromes (modifyAt (fun b => b ^^^ 0x20) good 17)).1 (syndromes (modifyAt (fun b => b ^^^ 0x20) good 17)).2 = some 17 := by decide

/-- R98: the error-record example. -/
theorem test_error_record :
    let r : ErrRec := { cause := 1, sub := 0, engine := 0, inst := 3, repair := 1, ctx := none, dpa := some 0x123480, count := 1, info0 := 0, info1 := 0, time := 0 }
    (words64 (sealed (r.words 0x2A 0) true) 8).take 4 = [0x0000002A01003109, 0x123480, 0, 0x00000001FFFFFFFF] := by decide

/-- CRC-32C of the ASCII digits 1 to 9, the check value of the Castagnoli polynomial. -/
theorem test_crc : crc32c [0x31, 0x32, 0x33, 0x34, 0x35, 0x36, 0x37, 0x38, 0x39] = 0xE3069283 := by decide

/-- R31, R34: Curator writes 400, and at 103 degrees the effective budget is 230. -/
theorem test_budget :
    let s : State := { one with bus := ⟨.curator, 0x100000, 4, 400⟩ }
    got (exec .pwrbudWrite s) (fun t => (t.pwr.budget, t.pwr.clamp)) = some (350, true) ∧
    thcap 103 = 230 := by decide

/-- R83: a host write of PWRBUD only sets DENY. -/
theorem test_deny :
    got (exec .pwrbudWrite { one with bus := ⟨.host, 0x100000, 4, 160⟩ }) (fun t => (t.pwr.budget, t.fw.deny)) = some (350, true) := by decide

/-- R72, R77: the coherence bytes of the two examples. -/
theorem test_coherence_bytes :
    (cohByte stS 3 true, cohByte Machine.stM 4 false, cohByte stE 2 false, cohByte stO 2 true, cohByte stS 5 false) = (0x99, 0x24, 0x12, 0x93, 0x29) := by decide

/-- R70: step 1 of the example: the first RDS of a grain that no copy is held of is answered with DATE, and the byte is E of device 2. -/
theorem test_rds :
    let s : State := { one with coh := { Coh.reset with present := 0x3F }, rx := ⟨mHdr mtRDS 2 0 1 9 2 false 0 64, []⟩ }
    got (exec .rds s) (fun t => ((t.outbox.map fun x => match x with | .msg m => (m.op, mDst m, mTx m, m.data.length) | _ => (0, 0, 0, 0)),
      Memory.byte t.side (4 * 64))) = some ([(mtDATE, 2, 9, 128)], 0x12) := by decide

/-- R75: steps 6 and 7 of the example: an owner that has left is no holder, and RDX is granted at once. -/
theorem test_rdx :
    let s : State := { one with
      coh := { Coh.reset with present := 0x1F }
      l2 := (List.range 4).map fun i => (64 + i, { data := List.replicate 32 0, coh := 0x29, dirty := false, rst := .home })
      rx := ⟨mHdr mtRDX 3 0 1 9 3 false 0 64, []⟩ }
    got (exec .rdx s) (fun t => (t.outbox.map fun x => match x with | .msg m => (m.op, mDst m) | _ => (0, 0))) =
      some [(mtDATM, 3), (mtDONE, 3)] := by decide

/-- R68: a message type that is not listed is no request. -/
theorem test_message_rows :
    (Msg.row ⟨mHdr 0x01 0 0 0 0 0 false 0 0, []⟩, Msg.row ⟨mHdr 0x03 0 0 0 0 0 false 0 0, []⟩, Msg.row ⟨mHdr 0x01 0 0 3 0 0 false 0 0, []⟩,
      Msg.row ⟨mHdr 0x37 0 0 0 0 0 false 0 0, []⟩) = (.rds, .unknownMessage, .unknownMessage, .done) := by decide

/-- R83, R105: the rows of accesses of each block. -/
theorem test_access_rows :
    ([(0x100000, 4, 0), (0x200008, 8, 0x0100000000000000), (0x300028, 4, 0x40), (0x300030, 4, 0x04000000), (0x400008, 8, 0), (0x400010, 4, 0),
      (0x400028, 8, 0), (0x600008, 8, 0), (0x600018, 8, 0), (0x700000, 8, 0x0001000000000000), (0x700008, 8, 0x2000000000000000),
      (0x700028, 8, 0x8000000000000000), (0x700028, 8, 0), (0x500000, 8, 0), (0x100002, 4, 0)] : List (Nat × Nat × DWord)).map
        (fun e => Access.row ⟨.host, e.1, e.2.1, e.2.2⟩) =
      [.pwrbudWrite, .softRowRepair, .sdomLeave, .migrationStart, .sqcfgWrite, .sqDoorbell, .cqctlWrite, .errctlWrite, .trctlWrite, .attest,
       .ctxPreemptSave, .svcrelKill, .svcrelResume, .registerWrite, .registerWrite] := by decide

/-- R115: a COND node with NEXT and ALT, and an END node with a bit that it does not use. -/
theorem test_node_rows :
    nodeRow [0x0000000400030003, 0x1000, 0, 0, 0, 0, 0, 0] 5 = .nodeCond 5 ∧ nodeRow [0x10009, 0, 0, 0, 0, 0, 0, 0] 5 = .nodeInvalid 5 := by decide

/-- R205: the leaf of the walk example. -/
theorem test_leaf :
    let l := mkLeaf 1 0x4020100000 0xA9C8004000200000
    (l.dpa, l.ord, l.gr, l.c, l.rd, l.wr, l.ex) = (0x4000300000, 1, 128, true, true, true, false) := by decide

/-- R235: the DS8 code 0x2D is 0.21875, 14 units of 2^-6. -/
theorem test_ds8 : ds8Value 0x2D = 14 := by decide

/-- R263: the example's program is well-formed, and a word with a bit that its form does not use is not. -/
theorem test_micro_form :
    [0x32000004, 0x70000000, 0xB4000001, 0xC0800005, 0x00000000].all microOk = true ∧ microOk 0x00000001 = false := by decide

/-- R263, R265: RELU of 0.75 is 0.75, and of −1.5 is +0. -/
theorem test_relu :
    let op : MOp := { id := 0, task := 0, block := 0, gi := 0, ctx := 0, frame := 0, sh := 0, aoff := 0, slot := 0, den := true, drn := 0, pk := []
                      twin := false, half := false, z := false, ftz := false, nant := false, dv := false, dc := 0, next := 0, nan := none, pc := 0 }
    let b : Block := { task := 0, idx := 0, core := 0, rank := 0, ctx := 0, base := 0, scratch := 0, ngroups := 1, slots := [], rings := [], issued := []
                       done := [], canc := false, retired := false }
    let d (x : Word) : Drain := { op := op, elem := 0, mi := 0, t := [x, 0, 0, 0], amax := none, nanchk := none, stop := none, told := false }
    let t (o : MicroOut) : Option (List Word) := match o with | .ok _ d _ => some d.t | _ => none
    t (micro one 0 b (d 0x3F400000) 0x70000000) = some [0x3F400000, 0, 0, 0] ∧ t (micro one 0 b (d 0xBFC00000) 0x70000000) = some [0, 0, 0, 0] := by
  decide

/-- R302: the SVCREL example: lanes 3 and 7 of the group in slot 4 of core 9 resume, and a second write finds none. -/
theorem test_svcrel :
    let s : State := { one with
      bus := ⟨.docent, 0x700028, 8, 0x2440000000000102⟩
      creg := { CtxRegs.reset with svcpc := 0x4021000408, svctgt := 0x4021800000 }
      g := { one.g with ctx := 0x102, core := 9, slot := 4, lanes := (List.range 16).map fun l =>
        if l = 3 ∨ l = 7 then { Lane.start 0x4021000408 with st := .service } else Lane.start 64 } }
    (s.svcLanes s.bus).map (·.2) = some 0x88 ∧
    got (exec .svcrelResume s) (fun t => ((t.g.lane 3).st, (t.g.lane 3).lpc, (t.g.lane 4).lpc, t.svcLanes t.bus)) =
      some (.eligible, 0x4021800000, 64, none) := by decide

/-- R286, R287: the trap registers of a misaligned load in a clause of four words. -/
theorem test_trap :
    let s : State := { one with g := { (setK 4 0x20300000 (setK 5 0x40 (setV 2 (fun l => if l = 9 then 0x10 else 0) one))).g with
      iss := { one.g.iss with hdr := 0x4020001000, pc := 0x4020001018, words := [0, 0, 0, 0], x := 0x200 } } }
    got (exec (.ld all .w32 8 ⟨.k 4, .v 2, 0, .scaled 0⟩ none false) { s with g := setV 2 (fun _ => 2) s |>.g })
      (fun t => ((t.g.lane 9).tpc, (t.g.lane 9).tnpc, (t.g.lane 9).taddr, (t.g.lane 9).tcause)) =
      some (0x4020001018, 0x4020001020, 0x4020300002, 0x80000000 + BitVec.ofNat 32 cALIGN) := by decide

/-- The placed instruction is the one that the first step executes, and the machine goes on. -/
theorem test_first_step :
    got (step (State.reset.withFetchWord 64 (0x130F000000000000 + 0))) (fun _ => true) = some true ∧
    got (step (State.reset.withFetchWord 64 0xA02F00C027FE0020)) (fun t => t.g.iss.on) = some true := by decide

/-! ## Tools: the assembler and Amitil -/

/-- R333: the example after it, word by word. -/
theorem test_nkas_example :
    assembleCode .e3 32
      [ .ins ⟨.ld all .w32 8 ⟨.k 4, .v 2, 2, .lit 0x40⟩ none false, none, 1⟩
      , .ins ⟨.ffma ⟨false, 3, true⟩ 4 (.v 1) (.v 2) 3 .rz false, none, 2⟩
      , .ins ⟨.fmul all 6 (.v 4) (.lit 0x3FC00000) .rn false, none, 3⟩ ]
      = some [0x07FFE00000000000, 0x304F010020050840, 0x2033808008040181, 0xA02F00C027FE0020, 0x000000003FC00000] := by decide +kernel

/-- R328: the text of the same example. -/
theorem test_nkas_text :
    ((nkasKernels ("  .kernel scale\n  .width  32\n  LD.w32  v8, [k4 + v2*4 + 0x40]\n  (!p3) FFMA.rz v4, v1, v2, v3\n"
        ++ "  FMUL    v6, v4, 1.5    // reads v4: S = 1\n  .end")).bind fun l => l.head?.bind fun k => assembleCode k.enc k.lanes k.code)
      = some [0x07FFE00000000000, 0x304F010020050840, 0x2033808008040181, 0xA02F00C027FE0020, 0x000000003FC00000] := by decide +kernel

/-- R265, R330: the drain program of the example after R265. -/
theorem test_nkas_drain :
    ((nkasKernels ("  .kernel d\n  .drain 0\n  BIAS t0, ACC, 0, col\n  RELU t0, t0\n  CVT t1, t0, BF16, RNE\n  ST t1, 1, 2\n  END\n"
        ++ "  .enddrain\n  EXIT\n  .end")).map fun l => l.map fun k => k.drains)
      = some [[(0, [0x32000004, 0x70000000, 0xB4000001, 0xC0800005, 0])]] := by decide +kernel

/-- R338: FMUL v4, v0, v4 in E1. -/
theorem test_nkas_e1 :
    assembleCode .e1 32 [.ins ⟨.fmul all 4 (.v 0) (.v 4) .rn false, none, 1⟩] = some [0x01FFE00000000000, 0x202F040010000000] := by
  decide +kernel

/-- R109: a file gives its kernels back. -/
theorem test_nkx :
    nkxKernels (nkxFile [([0x41], [1, 2, 3]), ([0x42, 0x43], [4])]) = some [([0x41], [1, 2, 3]), ([0x42, 0x43], [4])] := by decide +kernel

/-- R126: T = 3,000 at width 128 takes c = 2 and 12 groups; threads 2,000 and 2,999, and the lane that skips turn 1. -/
theorem test_amitil_binding :
    amCoarse 3000 128 = 2 ∧ amGroups 3000 128 2 = 12 ∧ amPlace 3000 128 2000 = (1, 3, 80) ∧ amPlace 3000 128 2999 = (1, 11, 55) ∧
    amThread 3000 128 1 11 56 = none := by decide +kernel

/-- R122, R124: IADD v5, v6, k9 and an odd 64-bit destination. -/
theorem test_amitil_operation :
    ((amRec (0x102 <<< 48) 0x10000005 (0x10000006 + 0x20000009 <<< 32) 0).bind fun r => (r.native 32).map fun i => r.uses i 32)
      = some ([.v 6, .k 9], [.v 5]) ∧
    ((amRec (0x305 <<< 48) 0x1000000B 0x20000004 0).bind fun r => r.native 32) = none := by decide +kernel

/-- R119, R122: a thread of a region adds 3 to its index. -/
theorem test_amitil_thread :
    let rec1 := amRec (0x102 <<< 48) 0x10000005 (0x10000000 + 0x40000000 <<< 32) (3 <<< 32)
    let m : AmModule := { entry := 0, threads := 2, scratch := 0, width := 1, det := false, outs := [], funs := [⟨[], 0, [rec1]⟩] }
    let th : AmThread := { t := some 1, frames := [{ fn := 0, pc := 0, v := [], k := [], p := [], loops := [], dst := ⟨.none, 0⟩ }] }
    (match ({ AmBlock.start m ⟨0, 0, 0⟩ [one.g] with region := some (false, [th]) }).step 0 one with
      | .next b _ => (b.region.map fun x => x.2.map fun th => th.frames.map fun f => (f.pc, f.v)).getD []
      | _ => []) = [[(1, [(5, 4)])]] := by decide +kernel
/-! ## Witnesses: states and operands that meet the hypotheses of the statements, by statement and clause -/

/-- What a program of accesses comes to, where it comes to something. -/
def comes {α : Type} (m : Mem α) (s : State) : Option (α × State) :=
  match m.on s with
  | (.ok a, u) => some (a, u)
  | _ => none

theorem on_of_comes {α : Type} {m : Mem α} {s : State} {x : α × State} (h : comes m s = some x) : m.on s = (.ok x.1, x.2) := by
  unfold comes at h
  split at h
  · next a u e => cases h; exact e
  · cases h

/-- The program of accesses ends without a fault, in a value and a state that meet p. -/
def okWith {α : Type} (m : Mem α) (s : State) (p : α → State → Bool) : Bool :=
  match comes m s with
  | some x => p x.1 x.2
  | none => false

theorem of_okWith {α : Type} {m : Mem α} {s : State} {p : α → State → Bool} (h : okWith m s p = true) :
    ∃ a u, m.on s = (.ok a, u) ∧ p a u = true := by
  unfold okWith at h
  split at h
  · next x e => exact ⟨_, _, on_of_comes e, h⟩
  · cases h

/-- The program of accesses ends in a fault of a cause. -/
def faults {α : Type} (m : Mem α) (s : State) (p : Cause → State → Bool) : Bool :=
  match m.on s with
  | (.error (.trap c), u) => p c u
  | _ => false

theorem of_faults {α : Type} {m : Mem α} {s : State} {p : Cause → State → Bool} (h : faults m s p = true) :
    ∃ c u, m.on s = (.error (.trap c), u) ∧ p c u = true := by
  unfold faults at h
  split at h
  · next c u e => exact ⟨c, u, e, h⟩
  · cases h

theorem of_any {α : Type} {o : Option α} {p : α → Bool} (h : o.any p = true) : ∃ x, o = some x ∧ p x = true := by
  cases o with
  | none => cases h
  | some x => exact ⟨x, rfl, h⟩

/-- A program of accesses without a result completes. -/
def done (m : Mem Unit) (s : State) : Bool := (comes m s).isSome

theorem of_done {m : Mem Unit} {s : State} (h : done m s = true) : ∃ u, m.on s = (.ok (), u) := by
  obtain ⟨x, e⟩ := Option.isSome_iff_exists.1 h
  exact ⟨x.2, on_of_comes e⟩

theorem of_done_if {m : Mem Unit} {s : State} {p : State → Bool} (h : okWith m s (fun _ => p) = true) :
    ∃ u, m.on s = (.ok (), u) ∧ p u = true := by
  obtain ⟨_, u, e, w⟩ := of_okWith h
  exact ⟨u, e, w⟩

/-- The accesses of a list of lanes all complete with these results, in a state that meets p. -/
def completesB {α : Type} [DecidableEq α] (acc : Nat → Mem α) (res : Nat → α) (wr : Nat → α → Group → Group) (p : State → Bool) :
    List Nat → State → Bool
  | [], s => p s
  | l :: ls, s =>
    match comes (acc l) s with
    | some x => decide (x.1 = res l) && completesB acc res wr p ls { x.2 with g := wr l (res l) x.2.g }
    | none => false

theorem of_completesB {α : Type} [DecidableEq α] {acc : Nat → Mem α} {res : Nat → α} {wr : Nat → α → Group → Group} {p : State → Bool} :
    ∀ {ls : List Nat} {s : State}, completesB acc res wr p ls s = true → ∃ u, Completes acc res wr ls s u ∧ p u = true := by
  intro ls
  induction ls with
  | nil => intro s h; exact ⟨s, rfl, h⟩
  | cons l ls ih =>
    intro s h
    unfold completesB at h
    split at h
    · next x e =>
      simp only [Bool.and_eq_true, decide_eq_true_eq] at h
      obtain ⟨u, c, w⟩ := ih h.2
      exact ⟨u, ⟨x.2, h.1 ▸ on_of_comes e, c⟩, w⟩
    · cases h

theorem of_completes {α : Type} [DecidableEq α] {acc : Nat → Mem α} {res : Nat → α} {wr : Nat → α → Group → Group} {ls : List Nat} {s : State}
    (h : completesB acc res wr (fun _ => true) ls s = true) : ∃ u, Completes acc res wr ls s u :=
  (of_completesB h).imp fun _ w => w.1

/-- A MATRIX clause, a COPY clause and so on stand in `cls n one`; a SYS clause in `one`. One lane executes here. -/
def solo : State := { one with g := { one.g with iss := { one.g.iss with x := 1 } } }

/-- The group runs its handler on every lane. -/
def handling : State := { one with g := { one.g with handler := true, lanes := one.g.lanes.map fun a => { a with handler := true } } }

theorem lane_lt {x : BitVec 128} (e : x = 0xFFFF#128) {l : Nat} (w : x.getLsbD l = true) : l < 16 := by
  subst e
  refine Decidable.byContradiction fun h => ?_
  have p : (0xFFFF#128).toNat < 2 ^ l := Nat.lt_of_lt_of_le (by decide : (0xFFFF#128).toNat < 2 ^ 16) (Nat.pow_le_pow_right (by decide) (by omega))
  have q : (0xFFFF#128).getLsbD l = false := Nat.testBit_lt_two_pow p
  rw [q] at w
  cases w

theorem lanes16 {x : BitVec 128} {P : Nat → Prop} (e : x = 0xFFFF#128) (f : ∀ l, l < 16 → P l) : ∀ l, x.getLsbD l = true → P l :=
  fun l w => f l (lane_lt e w)

theorem witness_IntegerResults :
    Normal one all anyClass anyRole (3 :: (Src.regs (.v 1) ++ Src.regs (.v 2))) ∧
    Normal (cls 0 one) all anyClass anyRole (1023 :: (Src.regs (.k 63) ++ Src.regs (.lit 7))) ∧
    Normal one all anyClass anyRole (63 :: 1023 :: (Src.regs (.v 0) ++ Src.regs (.lit 0))) ∧ Normal one all anyClass anyRole [3, 1] ∧
    Normal one all anyClass anyRole [3] :=
  ⟨normal_of (by decide), normal_of (by decide), normal_of (by decide), normal_of (by decide), normal_of (by decide)⟩

theorem witness_IntegerExactResults :
    let s := setV 1 (fun _ => 0x7FFFFFFF) one
    Normal s all anyClass anyRole (3 :: (Src.regs (.v 1) ++ Src.regs (.lit 1))) ∧
    someLane s all (fun l => (intRes 32 false true (ival false (s.g.s32 (.v 1) l) + ival false (s.g.s32 (.lit 1) l))).2) = true ∧ s.g.satt = false ∧
    Normal s all anyClass anyRole (4 :: 6 :: (Src.regs (.v 2) ++ Src.regs (.k 62))) ∧ Normal s all anyClass anyRole (4 :: Src.regs (.lit 3)) ∧ 0 < 1 :=
  ⟨normal_of (by decide), by decide, by decide, normal_of (by decide), normal_of (by decide), by decide⟩

theorem witness_PackedResults :
    let s := setV 1 (fun _ => 0x7FFF8000) one
    Normal s all anyClass vecRole (3 :: (Src.regs (.v 1) ++ Src.regs (.v 1))) ∧ s.g.satt = false ∧
    Normal s all anyClass vecRole (3 :: 3 :: (Src.regs (.v 1) ++ Src.regs (.v 1))) :=
  ⟨normal_of (by decide), by decide, normal_of (by decide)⟩

theorem witness_UniformResults :
    Normal (cls 5 one) all anyClass anyRole [] ∧ (intRes 32 false true (ival false (0x7FFFFFFF : Word) + 1)).2 = true ∧ one.g.satt = false :=
  ⟨normal_of (by decide), by decide, by decide⟩

theorem witness_PredicateResults :
    Normal one all anyClass anyRole (Src.regs (.v 1) ++ Src.regs (.k 2)) ∧ Normal one all anyClass anyRole [63] ∧ Normal one all anyClass anyRole [] ∧
    (60 : KReg).toNat % 4 = 0 ∧ (60 : KReg).toNat ≤ 60 ∧ one.g.width ∈ [16, 32, 64, 128] :=
  ⟨normal_of (by decide), normal_of (by decide), normal_of (by decide), by decide, by decide, by decide⟩

theorem witness_FloatResults :
    Normal (cls 0 one) all [0, 6] vecRole (4 :: (Src.regs (.v 1) ++ Src.regs (.v 2))) ∧
    Normal one all [0, 6] vecRole (4 :: 3 :: (Src.regs (.v 1) ++ Src.regs (.lit 0x7F800001))) ∧ Normal one all [0, 6] vecRole (4 :: Src.regs (.k 9)) ∧
    one.g.nant = false ∧ one.g.satt = false :=
  ⟨normal_of (by decide), normal_of (by decide), normal_of (by decide), by decide, by decide⟩

theorem witness_FloatSignClassChoice :
    Normal one all [0, 6] vecRole (4 :: Src.regs (.v 1)) ∧ Normal one all [0, 6] vecRole (4 :: (Src.regs (.v 1) ++ Src.regs (.v 2))) ∧
    ffF32.value false 0x7F800001 = .nan ∧ ffF32.value false 0x3F800000 ≠ .nan ∧
    (ffF32.value false 0x80000000).lt (ffF32.value false 0x00000001) = true :=
  ⟨normal_of (by decide), normal_of (by decide), by decide, by decide, by decide⟩

theorem witness_PackedFloatResults :
    Normal one all [0, 6] vecRole (7 :: (Src.regs (.v 1) ++ Src.regs (.v 2))) ∧ Normal one all [0, 6] vecRole (6 :: 6 :: (Src.regs (.v 1) ++ Src.regs (.v 2))) :=
  ⟨normal_of (by decide), normal_of (by decide)⟩

theorem witness_ConversionResults :
    Normal one all [0, 6] vecRole (4 :: Src.regs (.v 3)) ∧ Fmt.bf16.width ≠ 64 ∧ Fmt.n64.width = 64 ∧ one.g.satt = false ∧ one.g.nant = false ∧
    Normal one all [0, 6] vecRole (9 :: (Src.regs (.v 1) ++ Src.regs (.v 2))) :=
  ⟨normal_of (by decide), by decide, by decide, by decide, by decide, normal_of (by decide)⟩

theorem witness_CrossLaneResults :
    Normal one all [0, 6] vecRole (3 :: (Src.regs (.v 2) ++ Src.regs (.lit 15))) ∧
    (∀ l, (one.g.active all).getLsbD l = true → one.g.s32 (.lit 15) l = 15) ∧ Normal one all [0, 6] vecRole (2 :: Src.regs (.lit 16)) ∧
    Normal one all [0, 6] vecRole (5 :: Src.regs (.v 1)) :=
  ⟨normal_of (by decide), fun _ _ => rfl, normal_of (by decide), normal_of (by decide)⟩

theorem witness_NopHasNoEffect : one.g.iss.cls ∈ anyClass ∧ one.g.iss.wait = none ∧ one.g.stepping = false := by decide

theorem witness_TransferResults :
    Normal one all anyClass anyRole [] ∧ Ends one 1 ∧ ((0 : Nat) : Int) = one.g.iss.pc.toNat + 8 * (-1 : Imm).toInt ∧ 0 < 2 ^ 48 ∧ 0 % 8 = 0 ∧
    Normal one all anyClass anyRole (Src.regs (.v 2)) ∧ Ends one (len1 (.v 2)) ∧
    (∀ l, (one.g.active all).getLsbD l = true → (one.g.s64 (.k 62) l).toNat < 2 ^ 48 ∧ (one.g.s64 (.k 62) l).toNat % 8 = 0) :=
  ⟨normal_of (by decide), by unfold Ends; decide, by decide, by decide, by decide, normal_of (by decide), by unfold Ends; decide, lanes16 (by decide) (by decide)⟩

/-- Every lane has called once. -/
def called : State := { one with g := { one.g with lanes := one.g.lanes.map fun a => { a with stack := [64] } } }

/-- Lane 0 executes alone, with a full stack and a depth at its limit of 0. -/
def deep : State := { solo with g := { solo.g with lanes := solo.g.lanes.map fun a => { a with stack := List.replicate 8 64 } } }

theorem active_solo (l : Nat) (w : (solo.g.active all).getLsbD l = true) : l = 0 := by
  have e : solo.g.active all = 1#128 := by decide
  rw [e] at w
  simpa using w

theorem witness_CallReturnResults :
    called.g.iss.todo = none ∧ called.g.lanes.length = called.g.width ∧ (∀ l, (called.g.active all).getLsbD l = true → (called.g.lane l).stack.length < 8) ∧
    Normal called all anyClass anyRole [] ∧ Ends called 1 ∧ ((48 : Nat) : Int) = called.g.iss.pc.toNat + 8 * (5 : Imm).toInt ∧
    (∀ l, l < 16 → ∃ x r, (called.g.lane l).stack = x :: r ∧ x.toNat % 8 = 0) := by
  refine ⟨rfl, by decide, ?_, normal_of (by decide), by unfold Ends; decide, by decide, ?_⟩
  · exact lanes16 (by decide) (by decide)
  · intro l h
    exact ⟨64, [], (by decide : ∀ l, l < 16 → (called.g.lane l).stack = [64]) l h, by decide⟩

theorem witness_BranchAndCallTraps :
    Normal one all anyClass anyRole (Src.regs (.lit 4)) ∧ one.g.handler = false ∧ one.g.lanes.length = one.g.width ∧
    (one.g.active all).getLsbD 15 = true ∧ (one.g.s64 (.lit 4) 15).toNat % 8 ≠ 0 ∧ 2 ^ 48 ≤ (one.g.s64 (.lit 0x1000000000000) 15).toNat ∧
    Ends one (len1 (.v 2)) ∧ Normal deep all anyClass anyRole [] ∧ Ends deep 1 ∧ deep.g.iss.todo = none ∧ deep.g.active all = 1#128 <<< 0 ∧
    (deep.g.lane 0).stack.length = 8 ∧ (deep.g.lane 0).spdepth = deep.g.stk.toNat / 2 ^ 56 ∧ 0 ≤ deep.immTarget 5 ∧ deep.immTarget 5 < 2 ^ 48 ∧
    deep.immTarget 5 % 8 = 0 ∧ (solo.g.lane 0).stack = [] ∧ (solo.g.lane 0).spdepth = 0 :=
  ⟨normal_of (by decide), by decide, by decide, by decide, by decide, by decide, by unfold Ends; decide, normal_of (by decide), by unfold Ends; decide,
    by decide, by decide, by decide, by decide, by decide, by decide, by decide, by decide, by decide⟩

theorem witness_RejoinResults :
    Normal one all anyClass anyRole [] ∧ Ends one 1 ∧ one.g.lanes.length = one.g.width ∧
    (∀ l, (one.g.active all &&& one.g.rj 2).getLsbD l = true → (one.g.lane l).st.gone = false) :=
  ⟨normal_of (by decide), by unfold Ends; decide, by decide, fun l w => by
    have e : one.g.active all &&& one.g.rj 2 = 0#128 := by decide
    rw [e] at w
    simp at w⟩

/-- The launch of the group in issue, whose blocks form cohorts of 2. -/
def cohort : State := { one with tasks := [Task.card 0 [0, 0, 0, 0x2000000000, 0, 0, 0, 0] (.ring 0) 0 false] }

/-- The group has a CANCEL event pending. -/
def cancelled (s : State) : State := { s with g := { s.g with cancel := true } }

theorem witness_EndingAndWaitingResults :
    one.g.mayCancel = false ∧ cohort.g.mayCancel = false ∧ (cancelled one).g.mayCancel = true ∧ Normal (cancelled one) all anyClass anyRole [] ∧
    Ends (cancelled one) 1 ∧ NotHeld (cancelled one) ∧
    Normal one all anyClass anyRole [] ∧ Ends one 1 ∧ NotHeld one ∧
    (∃ k u, cohort.task cohort.g.task = some k ∧ k.cohort ≠ 0 ∧
      (release ((cohort.entered 1).who (lowest (cohort.g.active all))) 2).on (cohort.entered 1) = (.ok (), u)) ∧ NotHeld cohort ∧
    Normal cohort all anyClass anyRole [] ∧ (∀ k, one.task one.g.task = some k → k.cohort = 0) ∧ one.g.handler = false ∧ 15 < one.g.lanes.length ∧
    (one.g.lane 15).st.gone = false :=
  ⟨by decide, by decide, by decide, normal_of (by decide), by unfold Ends; decide, .inl (by decide),
    normal_of (by decide), by unfold Ends; decide, .inl (by decide), ⟨_, (of_done (by decide +kernel)).imp fun _ w => ⟨rfl, by decide, w⟩⟩, .inl (by decide),
    normal_of (by decide), (fun _ w => nomatch (by decide : one.task one.g.task = none).symm.trans w), by decide, by decide, by decide⟩

theorem witness_CancelDelivery :
    let gone : Group := { one.g with lanes := one.g.lanes.map fun a => { a with st := .finished } }
    let s : State := { one with ctxs := [(0, { Ctx.reset with tbase := 2 })] }
    15 < one.g.lanes.length ∧ (one.g.lane 15).st.gone = false ∧ 15 < gone.lanes.length ∧ (gone.lane 15).st.gone = true ∧
    (s.cx s.g.ctx).tbase.getLsbD 1 = true ∧ (one.cx one.g.ctx).tbase.getLsbD 1 = false := by decide

/-- The state in which a step acts. -/
def acting (s : State) : State := s.background.advance.arise

/-- The word of an instruction placed alone, and an error on lane 0 of its group that it meets in the registers. -/
def meets (i : Instr) : State := { State.reset.withFetchWord 64 ((encode i).headD 0).toNat with upsets := [.unit 0 0 0 1] }

/-- The step stands at an instruction with an error on hand, which concerns lanes that act and are not trapped otherwise, or none. -/
def metB (s0 : State) (p : BitVec 128 → Bool) : Bool :=
  let s := acting s0
  match decode s.g.enc s.g.iss.rest with
  | none => false
  | some (i, _) =>
    match exec i s, s.met s0.background.upsets i (s.acts i) with
    | .next t, some u => p (eccLanes s t u (s.acts i))
    | _, _ => false

/-- At a NOP without and with an error, at LANEEND outside a handler, which is ILLEGAL, and at a word that is no instruction. -/
theorem witness_StepExecutesTheWord :
    one.calm = true ∧ (acting one).agenda = [] ∧ (acting one).g.iss.on = true ∧ (acting one).g.iss.x ≠ 0 ∧ (acting one).g.iss.rest ≠ [] ∧
    decode (acting one).g.enc (acting one).g.iss.rest = some (.nop all, 1) ∧ (got (exec (.nop all) (acting one)) fun t =>
      (acting one).met one.background.upsets (.nop all) ((acting one).acts (.nop all)) == none && t.agenda.isEmpty) = some true ∧
    metB (meets (.nop all)) (· != 0) = true ∧ (acting (meets (.nop all))).agenda = [] ∧
    metB (meets (.laneend all)) (· == 0) = true ∧ (acting (meets (.laneend all))).agenda = [] ∧
    (let s := acting (State.reset.withFetchWord 64 0)
     s.agenda = [] ∧ s.g.iss.on = true ∧ s.g.iss.x ≠ 0 ∧ s.g.iss.rest ≠ [] ∧ decode s.g.enc s.g.iss.rest = none) ∧
    (acting { one with g := { one.g with iss := { one.g.iss with x := 0 } } }).g.iss.x = 0 := by decide +kernel

theorem witness_DecodeInvertsEncode : (Instr.accclr all 191).wf = true ∧ encode (Instr.accclr all 191) ≠ [] := by decide

theorem witness_RegistersAndLanes :
    0 < 128 ∧ 127 < 128 ∧ (1020 : VReg).toNat % 2 = 0 ∧ (1020 : VReg).toNat < 1022 ∧ (60 : KReg).toNat % 2 = 0 ∧ (60 : KReg).toNat < 62 ∧
    15 < one.g.width := by decide

theorem witness_IssueChecks :
    let s := cls 3 one
    let copy : State := { one with g := { one.g with role := .copy } }
    s.g.iss.wait = none ∧ s.g.stepping = false ∧ s.g.handler = false ∧ s.g.iss.cls ∉ [1, 6] ∧ one.g.iss.cls ∈ [1, 6] ∧
    one.g.active ⟨false, 0, false⟩ = 0 ∧ copy.g.active all ≠ 0 ∧ copy.g.role ∉ vecRole ∧ one.g.role ∈ vecRole ∧
    (∃ r ∈ ([64, 1, 2] : List VReg), r.toNat ≠ 1023 ∧ one.g.grant < r.toNat / 64) := by decide

theorem witness_TrapTaking :
    one.g.handler = false ∧ 15 < one.g.lanes.length ∧ (0x8000 : BitVec 128).getLsbD 15 = true ∧ (0x8000 : BitVec 128).getLsbD 14 = false ∧
    handling.g.handler = true ∧ (0x8000 : BitVec 128) ≠ 0 ∧ handling.g.lanes.length = handling.g.width ∧ handling.g.width ≤ 128 := by decide

theorem witness_HandlerEntryAndExit :
    let g := one.g.modLanes 0x8000 fun _ a => { a with st := .trapped, tcause := 0x80000006 }
    let allOver : Group := { one.g with handler := true }
    g.lanes.length = g.width ∧ g.width ≤ 128 ∧ 15 < g.width ∧ (∀ e ∈ g.kshadow, 48 ≤ e.1) ∧ (g.lane 15).st = .trapped ∧ (g.lane 14).st ≠ .trapped ∧
    handling.g.handler = true ∧ (∃ a ∈ handling.g.lanes, a.handler = true) ∧ allOver.handler = true ∧ (∀ a ∈ allOver.lanes, a.handler = false) ∧
    (∀ e ∈ allOver.kshadow, 48 ≤ e.1) := by decide

/-- The handler with lanes that TRET has marked. -/
def marked (x : BitVec 128) (tpc : DWord) : State := { handling with g := handling.g.modLanes x fun _ a => { a with marked := true, tpc := tpc } }

theorem witness_TrapReturn :
    let m (s : State) (l : Nat) : Prop := (s.g.lane l).marked = true ∧ (s.g.lane l).st = .eligible
    let allOver (s : State) : Prop := ∀ k, k < s.g.width → (s.g.lane k).handler = true → m s k
    (marked 0xFFFF 64).g.handler = true ∧ (marked 0xFFFF 64).g.lanes.length = (marked 0xFFFF 64).g.width ∧ (marked 0xFFFF 64).g.width ≤ 128 ∧
    15 < (marked 0xFFFF 64).g.width ∧ m (marked 0xFFFF 64) 15 ∧ allOver (marked 0xFFFF 64) ∧
    (∀ k, k < 16 → m (marked 0xFFFF 64) k → ((marked 0xFFFF 64).g.lane k).tpc.toNat % 8 = 0) ∧
    m (marked 1 64) 0 ∧ ¬allOver (marked 1 64) ∧ m (marked 1 60) 0 ∧ ((marked 1 60).g.lane 0).tpc.toNat % 8 ≠ 0 := by
  simp only
  decide

theorem witness_HandlerInstructionResults :
    Normal handling all [6] anyRole [] ∧ handling.g.handler = true ∧ one.g.handler = false ∧ Normal one all [6] anyRole [] ∧
    (((handling.entered 1).g.endLanes (handling.g.active all) .killed).leaveHandler).stepping = false ∧
    Normal handling all [6] anyRole (8 :: (Src.regs (.lit 15) ++ Src.regs (.k 2))) ∧
    (∀ l, (handling.g.active all).getLsbD l = true → (handling.g.s32 (.lit 15) l).toNat < handling.g.width ∧
      bits (handling.g.s32 (.lit 0x83F) l).toNat 11 10 = 2 ∧ bits (handling.g.s32 (.lit 0x83F) l).toNat 9 0 < 64 ∧
      bits (handling.g.s32 (.lit 0x40F) l).toNat 11 10 = 1 ∧ bits (handling.g.s32 (.lit 0x40F) l).toNat 9 0 < 16 ∧
      bits (handling.g.s32 (.lit 0x03F) l).toNat 11 10 = 0 ∧ handling.g.beyond (BitVec.ofNat 10 (handling.g.s32 (.lit 0x03F) l).toNat) = false) ∧
    (∀ l, (handling.g.active all).getLsbD l = true → handling.g.pkCheck (handling.g.s32 (.lit 15) l).toNat (handling.g.s32 (.k 2) l).toNat = none) :=
  ⟨normal_of (by decide), by decide, by decide, normal_of (by decide), by decide, normal_of (by decide),
    lanes16 (by decide) (by decide), lanes16 (by decide) (by decide)⟩

theorem lane_zero {x : BitVec 128} {P : Nat → Prop} (e : x = 1#128) (f : P 0) : ∀ l, x.getLsbD l = true → P l := by
  intro l w
  subst e
  have q : l = 0 := by simpa using w
  exact q ▸ f

/-- A sector of a home with these bytes at these places. -/
def sector (bs : List (Nat × Byte)) : L2Sec :=
  { data := bs.foldl (fun d b => modifyAt (fun _ => b.2) d b.1) (List.replicate 32 0), coh := 0, dirty := false, rst := .home }

/-- One lane of a context whose only table entry is a 1 GiB page at DPA 0, REL, C, readable, writable and executable, of 128-byte
grains, and PROF where prof says so; the word at 0x40 is 0x44332211. -/
def paged (prof : Bool) : State :=
  { solo with
    g := { solo.g with scratch := 64 }
    ctxs := [(0, { Ctx.reset with atb := 0x1000 })]
    l2 := [(2, sector [(0, 0x11), (1, 0x22), (2, 0x33), (3, 0x44)]), (128, sector [(1, 0x20), (7, 0x80)]),
           (256, sector [(6, 0xE8), (7, if prof then 0xAB else 0xA9)])] }

/-- An address without an index. -/
def at_ (x : DWord) : Adr := ⟨.lit x, .v 1023, 0, .scaled 0⟩

theorem witness_LoadResults :
    let s := paged false
    let load (adr : Adr) (m l : Nat) : Mem (List Byte) := do
      let a ← vaCheck (s.g.ea64 adr m l) (min m 4) 0
      loadBytes (s.who l) a m (Machine.annOf (some .d))
    s.g.iss.todo = none ∧ Normal s all anyClass anyRole (3 :: Adr.regs (at_ 0x40)) ∧
    (∃ u, Completes (fun l => load (at_ 0x40) 4 l) (fun _ => [0x11, 0x22, 0x33, 0x44]) (fun l b g => putWords 3 (extendSz .w32 b) l g)
      (s.activeLanes all) (s.entered 2) u) ∧
    s.activeLanes all = [0] ∧ (∃ c u, (load (at_ 0x42) 4 0).on (s.entered 2) = (.error (.trap c), u) ∧ true = true) ∧ Normal s all anyClass anyRole [] ∧
    (∃ bs u, (do let a ← vaCheck (s.g.ea64 (at_ 0x40) 8 0) 4 0
                 loadBytes (s.who (lowest (s.g.active all))) a 8 (Machine.annOf none)).on (s.entered 2) = (.ok bs, u) ∧ true = true) ∧
    ([1, 2, 3, 4] : List Byte).length = Sz.w32.bytes ∧ (1022 : VReg).toNat + Sz.w32.regs ≤ 1023 :=
  ⟨rfl, normal_of (by decide), of_completes (by decide +kernel), by decide, of_faults (p := fun _ _ => true) (by decide +kernel), normal_of (by decide),
    of_okWith (p := fun _ _ => true) (by decide +kernel), by decide, by decide⟩

theorem witness_StoreResults :
    let s := paged true
    s.g.iss.todo = none ∧ Normal s all anyClass anyRole (1023 :: Adr.regs (at_ 0x44)) ∧
    (∃ u, Completes (fun l => do
        let a ← vaCheck (s.g.ea64 (at_ 0x44) 4 l) 4 1
        storeBytes (s.who l) a (Machine.annOf none) [0, 0, 0, 0]) (fun _ => ()) (fun _ _ g => g) (s.activeLanes all) (s.entered 2) u) ∧
    Normal s all [6] anyRole (Adr.regs (at_ 0x48)) ∧
    (∃ u, Completes (fun l => do
        let e := s.g.ea64 (at_ 0x48) 8 l
        if 0 ≤ e ∧ e < (2 ^ 48 : Nat) then withAcc 1 (checkQuar (s.who l) 3 e.toNat 8)
        let a ← vaCheck e 4 1
        storeBytes (s.who l) a 0 (toBytes 8 (s.g.rq 2).toNat)) (fun _ => ()) (fun _ _ g => g) (s.activeLanes all) (s.entered 2) u) :=
  ⟨rfl, normal_of (by decide), of_completes (by decide +kernel), normal_of (by decide), of_completes (by decide +kernel)⟩

theorem witness_FaultingAccessTraps :
    let s := paged false
    s.g.iss.todo = none ∧ Normal s all anyClass anyRole (3 :: Adr.regs (at_ 0x42)) ∧ s.activeLanes all = [0] ∧ s.g.handler = false ∧
    0 < s.g.lanes.length ∧
    ∃ c u, (do let a ← vaCheck (s.g.ea64 (at_ 0x42) 4 0) 4 0
               loadBytes (s.who 0) a 4 (Machine.annOf none)).on (s.entered (alen (at_ 0x42))) = (.error (.trap c), u) ∧ true = true :=
  ⟨rfl, normal_of (by decide), by decide, by decide, by decide, of_faults (p := fun _ _ => true) (by decide +kernel)⟩

theorem witness_AddressChecks :
    (6 : Int) % (4 : Nat) ≠ 0 ∧ (2 ^ 48 : Int) % (4 : Nat) = 0 ∧ (-4 : Int) % (4 : Nat) = 0 ∧ (2 ^ 48 - 4 : Int) % (4 : Nat) = 0 ∧
    (0 : Int) ≤ 2 ^ 48 - 4 ∧ (2 ^ 48 - 4 : Int) < 2 ^ 48 ∧ ((paged false).g.scratch : Int) < 64 + (4 : Nat) ∧ (60 : Int) + (4 : Nat) ≤ (paged false).g.scratch := by
  decide

theorem witness_PageChecks :
    (∃ l u, (walk ((paged false).who 0) 0x40).on (paged false) = (.ok l, u) ∧ (l.rd && !l.prv && l.wr && l.ex) = true) ∧
    (∃ l u, (walk ((paged false).who 0) 0x40).on { paged false with l2 := Store.put (sector []) (paged false).l2 256 (sector [(6, 0xC8), (7, 0xA9)]) } = (.ok l, u) ∧
      (Need.fetch.ex && !l.ex) = true) ∧
    malformed 1 0x4020100000 0xA9C8004000200000 = false ∧ (0xA9C8004000200000 : Nat).testBit 51 = true :=
  ⟨of_okWith (by decide +kernel), of_okWith (by decide +kernel), by decide, by decide⟩

/-- A store into a sector that the cache lacks, and into one that it holds. -/
theorem witness_CacheForwardsStores :
    let held : State := { one with l1 := [(l1Key 0 2, ⟨List.replicate 32 7, 3, 0xFFFFFFFF, 0, 0, 32, some 0⟩)] }
    let fits (u : State) : Bool := (Store.look u.l1 (l1Key (u.l1Core 0 0x5C) (0x5C / 32))).all fun e => e.data.length == 32
    ([1, 2, 3, 4] : List Byte) ≠ [] ∧ 0x5C % 32 + ([1, 2, 3, 4] : List Byte).length ≤ 32 ∧
    (∃ u, (l1Room (one.who 0) (l1Key (one.l1Core 0 0x5C) (0x5C / 32))).on one = (.ok (), u) ∧ fits u = true) ∧
    (∃ u, (l1Room (held.who 0) (l1Key (held.l1Core 0 0x5C) (0x5C / 32))).on held = (.ok (), u) ∧ fits u = true) :=
  ⟨by decide, by decide, of_done_if (by decide +kernel), of_done_if (by decide +kernel)⟩

theorem witness_ScratchpadResults :
    let s := paged false
    s.g.iss.todo = none ∧ Normal s all anyClass anyRole (4 :: Adr.regs (at_ 48)) ∧
    (∀ l, (s.g.active all).getLsbD l = true → s.g.ea32 (at_ 48) 16 l % (16 : Nat) = 0 ∧ 0 ≤ s.g.ea32 (at_ 48) 16 l ∧
      s.g.ea32 (at_ 48) 16 l + (16 : Nat) ≤ s.g.scratch) :=
  ⟨rfl, normal_of (by decide), lane_zero (by decide) (by decide)⟩

theorem witness_AtomicNewValues :
    0 < 64 ∧ (60 : Word).toNat % 4 = 0 ∧ (60 : Word).toNat + 4 ≤ (paged false).g.scratch ∧ ∀ o, (fun o => (o + 1) % 2 ^ 32) o < 2 ^ 32 :=
  ⟨by decide, by decide, by decide, fun _ => Nat.mod_lt _ (by decide)⟩

theorem witness_AtomicResults :
    let s := paged false
    s.g.iss.todo = none ∧ Normal s all anyClass anyRole (9 :: 0 :: (Src.regs (.lit 0x40) ++ Src.regs (.v 3))) ∧
    (∃ u, Completes (fun l => laneAtomic (s.entered 2) l 4 (s.g.s64 (.lit 0x40) l) .rel 0 0 0 5 0 fun o => atomNew .add 32 true o 5 0) (fun _ => 0x44332211)
      (fun l o g => putWords 9 (toBytes 4 o) l g) (s.activeLanes all) (s.entered 2) u) ∧
    (∃ u, Completes (fun l => laneAtoms (s.entered 2) l (s.g.s32 (.lit 60) l) fun o => atomNew .max 32 true o 5 0) (fun _ => 0)
      (fun l o g => putWords 9 (toBytes 4 o) l g) (s.activeLanes all) (s.entered 2) u) :=
  ⟨rfl, normal_of (by decide), of_completes (by decide +kernel), of_completes (by decide +kernel)⟩

theorem witness_CacheAndFenceResults :
    let s := paged false
    s.g.iss.todo = none ∧ Normal s all anyClass anyRole (Adr.regs (at_ 0x40)) ∧
    (∃ u, Completes (fun l => do let p ← cctlLine (s.entered 2) (at_ 0x40) l
                                 (s.lineKeys s.g.core p.dpa).forM fun k => flushKey (s.who l) p.gr k)
      (fun _ => ()) (fun _ _ g => g) (s.activeLanes all) (s.entered 2) u) ∧
    Normal s all anyClass anyRole [] ∧
    (∃ u, (fenceAt (s.who (lowest (s.g.active all))) (Machine.Scope.code .x)).on (s.entered 1) = (.ok (), u)) ∧
    (∀ i, i < 8 → (0xFF : Byte).getLsbD i = true → s.g.async.getD i 0 = 0) ∧
    (∃ i, i < 8 ∧ (0x80 : Byte).getLsbD i = true ∧ ([0, 0, 0, 0, 0, 0, 0, 1] : List Nat).getD i 0 ≠ 0) :=
  ⟨rfl, normal_of (by decide), of_completes (by decide +kernel), normal_of (by decide), of_done (by decide +kernel), by decide, by decide⟩

/-- sh0 holds a grant of 8 by 8 by one chunk of BF16 by DS8, held slots 0 and 1 are ready, and the group's kernel has one drain program. -/
def matrix : State :=
  { paged false with
    g := { ((paged false).g.wsh 0 0x84080800081020000000000000000000) with iss := { solo.g.iss with cls := 1 } }
    tasks := [{ Task.card 0 [0x80, 0, 0, 0, 0, 0, 0, 0] (.ring 0) 0 false with hdr := [0, 0, 0, 0, 0, 0, 0x100000000, 0], launched := true }]
    cores := [(0, { Core.reset with wslots := [(0, { WSlot.reset with st := .ready }), (1, { WSlot.reset with st := .ready })] })] }

theorem witness_ShapeResults :
    let s := cls 1 one
    Normal s all [1, 6] matRole [] ∧ s.g.handler = false ∧ ¬15 ≤ (4 : BitVec 5).toNat ∧ bits 0x20183030 7 0 = 48 ∧ bits 0x20183030 28 16 = 24 ∧
    ¬(1536 % 64 ≠ 0) ∧ 1537 % 64 ≠ 0 ∧ bits 0x20183007 7 0 < 8 ∧ (s.g.rsh 0).toNat.testBit 127 = false ∧
    (let old := (0xA4303000C54080000000060000000017 : BitVec 128).toNat
     old.testBit 127 = true ∧ old.testBit 126 = false ∧ 0 < 16 ∧ 32 ≤ 8 * 2 ^ bits old 90 89 ∧ 32 ≤ 8 * 2 ^ bits old 88 87 ∧ bits old 90 89 < 3 ∧
     bits old 73 64 = 0 ∧ bits old 31 12 = 0) ∧ (60 : KReg).toNat % 4 = 0 :=
  ⟨normal_of (by decide), by decide, by decide, by decide, by decide, by decide, by decide, by decide, by decide, by decide, by decide⟩

/-- Every queue of the group has 63 commands outstanding. -/
def crowded (s : State) : State := { s with g := { s.g with async := List.replicate 8 63 } }

/-- A group of 128 lanes, of which 63 wait on as many ACCRDs and the last executes. -/
def manyLoads : State :=
  { matrix with g := { matrix.g with
      width := 128, iss := { matrix.g.iss with x := 1 <<< 127 }
      lanes := (List.range 128).map fun l => if l < 63 then { Lane.start 8 with st := .accPark 8 5 0 false 8 (l + 1) } else Lane.start 8 } }

theorem witness_MatrixResults :
    let s := matrix
    s.g.counterFull 1 = false ∧ s.g.counterFull 4 = false ∧ (0 : DWord).toNat.testBit 11 = false ∧ s.g.loads < 63 ∧
    Normal (crowded s) all [1, 6] matRole [] ∧ (crowded s).g.counterFull 1 = true ∧ (crowded s).g.counterFull 4 = true ∧
    ((crowded s).entered 1).mmaCheck 5 0 0 (Shape.of ((crowded s).g.rsh 0)) false = none ∧
    Normal manyLoads all [1, 6] matRole (8 :: Src.regs (.lit 1020)) ∧ 63 ≤ manyLoads.g.loads ∧ ((manyLoads.core 0).frame 5).owner = none ∧
    Normal s all [1, 6] matRole [] ∧ s.g.owner = (0, 0) ∧
    ((s.g.ks64 (.lit 0)).toNat % 64 = 0 ∧ (s.g.ks32 (.k 63)).toNat % 64 = 0 ∧ 64 % 64 = 0 ∧ 0 < 64 ∧ 1 + (64 - 1) / 16384 < s.part.slots ∧
      ((s.core 0).wslot 1).heldBy (s.slotOwner 0 0) = true ∧ ∃ u, (release (s.who (lowest (s.g.active all))) 3).on (s.entered 1) = (.ok (), u)) ∧
    ((Shape.of (s.g.rsh 0)).chg = false ∧ (s.entered 1).mmaCheck 5 0 0 (Shape.of (s.g.rsh 0)) false = none) ∧
    ((s.core 0).frame 5).owner = none ∧
    (∃ k, s.task s.g.task = some k ∧ (0 : BitVec 5).toNat < bits (k.h 6) 39 32 ∧ s.twinLeader = false ∧
      (s.core 0).program (s.asnOf s.g.ctx) k.khdr 0 = none ∧ (s.core 0).dslots.length < 32 ∧
      ∃ ws u, (withAcc 3 (readParts (s.who (lowest (s.g.active all))) .fetch false 3 (k.khdr + bits (k.h 6) 31 0 + 64 * 0) 64)).on (s.entered 1) =
        (.ok ws, u) ∧ (((List.range 16).map fun i => BitVec.ofNat 32 (fieldAt ws (4 * i) 4)).all microOk &&
        ((u.core 0).program (s.asnOf s.g.ctx) k.khdr 0).isNone) = true) ∧
    Normal s all [1, 6] matRole (8 :: Src.regs (.lit 1020)) ∧ 1020 % 4 = 0 ∧ 1020 + 4 ≤ 1024 ∧
    ((((s.entered 2).core 0).claim 5 s.g.owner).frame 5).row (1020 / 32) = .ready ∧
    Normal s all [1, 6] matRole (Src.regs (.lit 1023) ++ Src.regs (.v 2)) ∧
    (∀ l, (s.g.active all).getLsbD l = true → (s.g.s32 (.lit 1023) l).toNat < 1024) :=
  ⟨by decide, by decide, by decide, by decide, normal_of (by decide), by decide, by decide, by decide, normal_of (by decide +kernel), by decide +kernel, by decide,
    normal_of (by decide), by decide, ⟨by decide, by decide, by decide, by decide, by decide, by decide, of_done (by decide +kernel)⟩,
    ⟨by decide, by decide⟩, by decide, ⟨_, rfl, by decide, by decide, by decide, by decide, of_okWith (by decide +kernel)⟩, normal_of (by decide), by decide, by decide, by decide,
    normal_of (by decide), lane_zero (by decide) (by decide)⟩

/-- A block of the launch in issue, with the stage ring of stage 0 and stage 1; k8 to k15 describe a copy of 64 bytes. -/
def staged (n : Nat) : State :=
  { paged false with
    g := { ((paged false).g.wk 12 64).wk 13 1 with regext := 2, iss := { solo.g.iss with cls := n } }
    tasks := [{ Task.card 0 [0, 0, 0, 0, 0, 0, 0, 0] (.ring 0) 0 false with hdr := [0x80000000000, 0, 0, 0, 0, 0, 0, 0], launched := true }]
    blocks := [{ task := 0, idx := 0, core := 0, rank := 0, ctx := 0, base := 0, scratch := 64, ngroups := 2, slots := [0]
                 rings := [⟨2, 0, 1, 0, false, 0, false, [.free, .free], [], []⟩], issued := [0, 0, 0, 0], done := [0, 0, 0, 0]
                 canc := false, retired := false }] }

theorem witness_AsyncResults :
    let s := staged 2
    let r := staged 5
    s.g.counterFull 3 = false ∧ (crowded s).g.counterFull 3 = true ∧ Normal (crowded s) all [2, 6] [.copy, .general] [] ∧ s.g.mayCancel = false ∧
    (cancelled s).g.mayCancel = true ∧ Normal (cancelled s) all [2, 6] anyRole [] ∧ Ends (cancelled s) 1 ∧
    let k (i : Nat) : Nat := (s.g.rk (8 + BitVec.ofNat 6 i)).toNat
    (∃ bk, s.gblock = some bk ∧ s.ringRole 0 true true = false ∧ (bk.ring 0).slot (bk.ring 0).phead = .free ∧
      (∀ x xs, (bk.ring 0).pwait = x :: xs → x = s.g.index) ∧ (bk.ring 0).phead < 16) ∧
    Normal s all [2, 6] [.copy, .general] [] ∧ 0 < k 4 ∧ k 4 ≤ 2 ^ 20 ∧ 0 < bits (k 5) 12 0 ∧ bits (k 5) 12 0 ≤ 4096 ∧ bits (k 5) 31 23 = 0 ∧
    (k 5).testBit 19 = false ∧ bits (k 5) 15 13 = 0 ∧ (k 5).testBit 16 = false ∧ (k 5).testBit 20 = false ∧
    (s.g.ks32 (.lit 0)).toNat.testBit 12 = false ∧ (60 : KReg).toNat % 2 = 0 ∧ (60 : KReg).toNat < 62 ∧
    (∃ u, (release (s.who (lowest (s.g.active all))) 3).on (s.entered 2) = (.ok (), u)) ∧ Normal s all [2, 6] anyRole [2] ∧ Ends s 1 ∧
    (let h : State := { s with blocks := s.blocks.map fun b => b.setRing 0 { b.ring 0 with slots := [.reserved 0, .free] } }
     h.ringRole 0 true false = false) ∧
    Normal r all [5, 6] anyRole [] ∧ Ends r 1 ∧ (r.g.ks32 (.k 63)).toNat ≤ r.g.grant ∧ r.g.grant < 2 ∧ 2 ≤ r.g.regext ∧ 2 * (r.g.width / 16) ≤ 32 ∧
    (∀ q ∈ (r.core 0).regq, q.1 ≠ r.g.quad) ∧ r.g.iss.on = true ∧
    r.unitsUsed 0 r.g.quad + 2 * (r.g.width / 16) ≤ 32 + r.g.grant * (r.g.width / 16) ∧ 0 < { r.g with grant := 1 }.grant :=
  ⟨by decide, by decide, normal_of (by decide), by decide, by decide, normal_of (by decide), by unfold Ends; decide,
    ⟨_, rfl, by decide, by decide, (fun _ _ w => nomatch w), by decide⟩, normal_of (by decide), by decide, by decide, by decide, by decide, by decide, by decide,
    by decide, by decide, by decide, by decide, by decide, by decide, of_done (by decide +kernel), normal_of (by decide), by unfold Ends; decide, by decide,
    normal_of (by decide), by unfold Ends; decide, by decide, by decide, by decide, by decide, by decide, by decide, by decide, by decide⟩

/-- A context with a pool of 4 nodes at 0x400 and metadata at 0x200, counter 7 at zero and 6 at one, a gathering queue and a future READY
and one PENDING. -/
def working (n : Nat) : State :=
  { paged false with
    g := { (paged false).g with iss := { solo.g.iss with cls := n } }
    l2 := Store.put (sector []) (paged false).l2 16 { sector [] with dirty := true }
    pools := [(1, { Pool.reset with bound := true, desc := [0x400, 4, 0x200, 0], head := 0 })]
    counters := [(6, ⟨1, some 0, false⟩), (7, ⟨0, some 0, false⟩)]
    gqs := [(0, { GQueue.reset with bound := true, desc := [0x600, 0x800, 0x1, 0] })]
    cores := [(0, { Core.reset with futs := [(0, { Fut.reset with st := .ready, value := 5, gen := 1 }), (1, { Fut.reset with st := .pending, gen := 1 })] })] }

/-- The active lanes act with these results, and all complete; the group neither waits nor steps afterwards. -/
def acts (s : State) (n : Nat) (out : LaneOut) (acc : Nat → Mem LaneOut) : Prop :=
  ∃ u, Completes acc (fun _ => out) (fun l o g => o.apply l g) (s.activeLanes all) (s.entered n) u ∧ (u.g.iss.wait.isNone && !u.g.stepping) = true

theorem witness_TaskResults_spawn :
    let s := working 4
    s.g.mayCancel = false ∧ (cancelled s).g.mayCancel = true ∧ Normal (cancelled s) all [4, 6] anyRole (3 :: (Src.regs (.v 20) ++ Src.regs (.v 22))) ∧
    Ends (cancelled s) 1 ∧ s.g.iss.todo = none ∧ Normal s all [4, 6] anyRole (3 :: (Src.regs (.v 20) ++ Src.regs (.v 22))) ∧ Ends s 1 ∧
    acts s 1 {} (fun l => do
      let ws ← readCard (s.entered 1) l (s.g.s64 (.v 20) l)
      postLane (s.entered 1) l (spawnCard (s.entered 1) ws (s.g.s64 (.v 22) l) (s.g.rv 3 l)) (segOf s.part.slices (bits (s.g.rv 3 l).toNat 15 0))) :=
  ⟨by decide, by decide, normal_of (by decide), by unfold Ends; decide, rfl, normal_of (by decide), by unfold Ends; decide, of_completesB (by decide +kernel)⟩

theorem witness_TaskResults_decr :
    let s := working 4
    acts s 2 {} (fun l => do
      if !s.ownsCounter s.g.ctx (s.g.s32 (.lit 6) l).toNat then permAt 0
      release (s.who l) 3
      Mem.mod fun t => t.adjust (s.g.s32 (.lit 6) l).toNat (sext (s.g.s32 (.v 2) l).toNat 24)
      return {}) :=
  of_completesB (by decide +kernel)

theorem witness_TaskResults_fres :
    let s := working 4
    acts s 2 {} (fun l => do
      release (s.who l) 3
      Mem.mod fun t => t.resolve (s.g.s32 (.lit 0x8001) l) (some s.g.ctx) .ready (s.g.s64 (.v 4) l)
      return {}) :=
  of_completesB (by decide +kernel)

theorem witness_TaskResults_pools :
    let s := working 4
    (∀ l, (s.g.active all).getLsbD l = true → s.g.s32 (.lit 1) l = 1) ∧ (1 : Word).toNat < 8 ∧ (s.pool 1).bound = true ∧ (s.pool 1).ctx = s.g.ctx ∧
    acts s 2 {} (fun _ => do
      let t ← get
      (t.pool 1).sweep 1 (CSet.of 0xFFFF0000) false
      return {}) ∧
    acts s 2 { v := vwrites64 4 0x400, p := [(3, true)] } (fun l => do
      let t0 ← get
      let q := t0.pool 1
      let t ← get
      let r ← if t.refuses s.g.ctx (s.tagOf s.g.task).1 (s.tagOf s.g.task).2 then pure none else q.take 1 (s.tagOf s.g.task).1 (s.tagOf s.g.task).2
      (s.who l).det! 7
      acquire (s.who l) 3
      match r with
      | none => return { p := [(3, false)] }
      | some i => return { v := vwrites64 4 (BitVec.ofNat 64 (q.base + i * q.size)), p := [(3, true)] }) :=
  ⟨fun _ _ => rfl, by decide, by decide, by decide, of_completesB (by decide +kernel), of_completesB (by decide +kernel)⟩

theorem witness_TaskResults :
    let s := working 4
    let w (n : Word) : State := setK 10 n s
    (cancelled s).g.mayCancel = true ∧ Normal (cancelled s) all [4, 6] anyRole (Src.regs (.k 10)) ∧ Ends (cancelled s) (len1 (.k 10)) ∧ (w 6).g.mayCancel = false ∧
    Normal (w 6) all [4, 6] anyRole (Src.regs (.k 10)) ∧ Ends (w 6) (len1 (.k 10)) ∧ Ends (w 7) (len1 (.k 10)) ∧
    (∀ l, ((w 6).g.active all).getLsbD l = true → (w 6).g.s32 (.k 10) l = 6) ∧
    (¬∃ bk, s.gblock = some bk ∧ bk.rings.any (fun r => r.holds s.g.index) = true) ∧ s.ownsCounter s.g.ctx 7 = true ∧ (s.counter 7).value = 0 ∧
    s.ownsCounter s.g.ctx 6 = true ∧ (s.counter 6).value ≠ 0 ∧ Normal s all [4, 6] anyRole (Src.regs (.lit 6)) ∧
    (∀ l, (s.g.active all).getLsbD l = true → s.g.s32 (.lit 6) l = 6) ∧
    (∃ u, (cancelAll s.g.ctx (CSet.of 8)).on (s.entered 1) = (.ok (), u) ∧ (u.g.iss.wait.isNone && !u.g.stepping) = true) ∧
    Normal s all [4, 6] anyRole [] ∧ (∀ l, (s.g.active all).getLsbD l = true → (s.ownFut (s.g.s32 (.lit 1) l)).isSome = true) :=
  ⟨by decide, normal_of (by decide), by unfold Ends; decide, by decide, normal_of (by decide), by unfold Ends; decide, by unfold Ends; decide,
    lane_zero (by decide) (by decide), (fun e => match e with | ⟨_, w, _⟩ => nomatch w), by decide, by decide, by decide, by decide,
    normal_of (by decide), fun _ _ => rfl, of_done_if (by decide +kernel),
    normal_of (by decide), lane_zero (by decide) (by decide)⟩

theorem witness_SearchResults :
    let s := working 4
    let q := working 3
    (cancelled s).g.mayCancel = true ∧ Normal (cancelled s) all [4, 6] anyRole (12 :: (Src.regs (.k 63) ++ Src.regs (.v 20))) ∧
    Normal (cancelled s) all [4, 6] anyRole (4 :: 9 :: Src.regs (.k 10)) ∧ Ends (cancelled s) (len1 (.k 10)) ∧ s.g.mayCancel = false ∧
    s.g.iss.todo = none ∧ Normal s all [4, 6] anyRole (12 :: (Src.regs (.k 63) ++ Src.regs (.v 20))) ∧ Ends s (len2 (.k 63) (.v 20)) ∧
    (∀ l, (s.g.active all).getLsbD l = true → s.g.s32 (.k 63) l = 0) ∧
    (∃ u0, (release (s.who (lowest (s.g.active all))) 3).on (s.entered 1) = (.ok (), u0) ∧
      completesB (fun l => leafLane u0 12 0 (.v 20) false l) (fun _ => { v := [(12, 0x10001)] }) (fun l o g => o.apply l g)
        (fun u => u.g.iss.wait.isNone && !u.g.stepping) (s.activeLanes all) u0 = true) ∧
    Normal q all [3, 6] anyRole (12 :: (Src.regs (.v 20) ++ Src.regs (.k 10))) ∧
    acts q 1 { v := [(12, 0x10001)] } (fun l => spatialLane (q.entered 1) false 12 (q.g.s64 (.v 20) l) (q.g.s64 (.k 10) l) l) ∧
    (∀ n ∈ [(1 : Word), 0x8001], let w : State := setK 10 n s
      Normal w all [4, 6] anyRole (4 :: 9 :: Src.regs (.k 10)) ∧ Ends w (len1 (.k 10)) ∧ w.g.mayCancel = false ∧ w.g.lanes.length = w.g.width ∧
      (∀ l, (w.g.active all).getLsbD l = true → ∀ m, (w.g.active all).getLsbD m = true → w.g.s32 (.k 10) l = w.g.s32 (.k 10) m → l = m) ∧
      (∀ l, (w.g.active all).getLsbD l = true → (w.ownFut (w.g.s32 (.k 10) l)).isSome = true)) :=
  ⟨by decide, normal_of (by decide), normal_of (by decide), by unfold Ends; decide, by decide, rfl, normal_of (by decide), by unfold Ends; decide,
    lane_zero (by decide) (by decide), of_done_if (by decide +kernel), normal_of (by decide), of_completesB (by decide +kernel), by
      simp only [List.forall_mem_cons, List.not_mem_nil, false_imp_iff, implies_true, and_true]
      constructor <;> exact ⟨normal_of (by decide), by unfold Ends; decide, by decide, by decide, lane_zero (by decide) (lane_zero (by decide) fun _ => rfl),
        lane_zero (by decide) (by decide)⟩⟩

theorem witness_FuturesAndCounters :
    let s := one
    s.g.core < s.part.cores ∧ 0 < 4096 ∧ ((s.core s.g.core).fut 0).st = .free ∧ (∀ m, m < 0 → ((s.core s.g.core).fut m).st ≠ .free) ∧
    (∀ e, ((s.core s.g.core).fut e).gen < 2 ^ 15) ∧ s.g.core < 32 ∧ s.refuses s.g.ctx (s.tagOf s.g.task).1 (s.tagOf s.g.task).2 = false ∧
    (∀ g ∈ s.allGroups, ∀ a ∈ g.lanes, ∀ w r q, a.st ≠ .futPark w r q) ∧
    ((working 4).counter 6).value - (1 : Int) = 0 ∧ ((working 4).counter 7).value - (1 : Int) < 0 ∧
    (0xFFFFFF : Int) < ((working 4).counter 6).value - (-0xFFFFFF : Int) ∧ ((working 4).counter 6).value - (-0xFFFFFE : Int) ≤ 0xFFFFFF := by
  refine ⟨by decide, by decide, by decide, (fun _ w => nomatch w), fun e => ?_, by decide, by decide, ?_, by decide, by decide, by decide, by decide⟩
  · exact (by decide : (0 : Nat) < 2 ^ 15)
  · intro g w a v
    rw [(by decide : one.allGroups = [one.g])] at w
    simp only [List.mem_singleton] at w
    subst w
    rw [(by decide : one.g.lanes = List.replicate 16 (Lane.start 8))] at v
    rw [List.eq_of_mem_replicate v]
    intro _ _ _ c
    cases c

theorem witness_SystemRegisterResults :
    (∃ inf, sregInfo 0x010 = some inf ∧ inf.wide = false) ∧ (∃ inf, sregInfo 0x003 = some inf ∧ inf.wide = true) ∧
    Normal one all [6] anyRole (Src.regs (.lit 3)) ∧ sregLane 0x010 = false ∧ sregPrivW 0x010 = false ∧
    (∀ l, (one.g.active all).getLsbD l = true → (one.g.s32 (.lit 3) l).zeroExtend 64 = 3) ∧
    (∃ u, (writeSreg (one.who (lowest (one.g.active all))) 0x010 3).on (one.entered 2) = (.ok (), u) ∧ (u.g.iss.wait.isNone && !u.g.stepping) = true) ∧
    sregLane 0x003 = true ∧ sregPrivW 0x003 = true ∧ one.g.priv = false ∧ ({ one.g with ctx := 0x80000000 } : Group).priv = true ∧
    Normal one all [6] anyRole [] ∧ sregPrivR 0x001 = false ∧ 0x001 < 0x080 ∧ Normal one all [6] anyRole [62] ∧ one.g.handler = false ∧
    (one.core one.g.core).ecfg.length = 8 ∧ (one.core one.g.core).ecnt.length = 8 :=
  ⟨⟨_, rfl, rfl⟩, ⟨_, rfl, rfl⟩, normal_of (by decide), by decide, by decide, fun _ _ => rfl, of_done_if (by decide +kernel), by decide, by decide, by decide, by decide,
    normal_of (by decide), by decide, by decide, normal_of (by decide), by decide, by decide, by decide⟩

/-- The machine after reset with an access on the bus. -/
def bus (who : Agent) (off size : Nat) (x : DWord) : State := { one with bus := ⟨who, off, size, x⟩ }

/-- Row, ring and mailbox registers take the access on their offset. -/
def takes (s : State) (r : Reg) : Bool :=
  s.bus.ok && decide (regAt s.bus.off = r) && s.assigned r && r.writers s.bus.who

theorem takes_iff {s : State} {r : Reg} (w : takes s r = true) : s.busTakes r := by
  simp only [takes, Bool.and_eq_true, decide_eq_true_eq] at w
  exact ⟨w.1.1.1, w.1.1.2, w.1.2, w.2⟩

theorem witness_ResetAndPowerResults :
    (100 : Int) < 115 ∧
    State.reset.pwr.railFault = false ∧ ({ State.reset with pwr := { Power.reset with railFault := true } } : State).pwr.railFault = true ∧
    (115 : Int) ≤ 115 ∧ State.reset.err.queue.length < 64 ∧ (bus .curator 0x100000 4 400).busTakes .pwrbud ∧
    (bus .curator 0x100000 4 400).pwr.lock = false ∧ (bus .curator 0x100000 4 400).bus.mask &&& 0x1FF ≠ 0 ∧
    (bus .curator 0x100004 4 0).busTakes .pwrbud ∧ (bus .curator 0x100004 4 0).bus.mask &&& 0x1FF = 0 ∧
    ({ bus .curator 0x100000 8 151 with pwr := { Power.reset with lock := true } } : State).busTakes .pwrbud :=
  ⟨by decide, by decide, by decide, by decide, by decide, takes_iff (by decide), by decide, by decide, takes_iff (by decide), by decide, takes_iff (by decide)⟩

theorem witness_BootResults :
    State.reset.err.queue.length < 58 ∧ State.reset.fw.boot ≠ 10 ∧ ({ State.reset with fw := { Firm.reset with boot := 10 } } : State).fw.boot = 10 ∧
    State.reset.pwr.inReset = false ∧ State.reset.pwr.thermal = false ∧ State.reset.err.queue.length < 64 ∧
    ({ State.reset with fw := { Firm.reset with docQuiesce := true } } : State).fw.docQuiesce = true ∧
    ({ State.reset with fw := { Firm.reset with docStart := true, cmd := 4 } } : State).fw.docStart = true ∧
    ({ State.reset with fw := { Firm.reset with docStart := true, cmd := 3 } } : State).fw.cmd ≠ 4 := by decide

/-- A mailbox command with its buffer at host address 0x5000, in a boot state. -/
def mailbox (boot : BitVec 4) (busy : Bool) : State :=
  { bus .host 0x700000 8 0x0001000000005001 with fw := { Firm.reset with boot := boot, busy := busy, running := [[1], [2], [3]] } }

/-- The clauses on an image or a bundle that verifies rest on the opaque verification of Config (assumption 5). -/
theorem witness_MailboxResults :
    (mailbox 6 true).busTakes .fwmbx ∧ (mailbox 6 true).again = false ∧ (mailbox 6 true).fw.busy = true ∧ (mailbox 6 false).busTakes .fwmbx ∧
    (mailbox 6 false).fw.busy = false ∧ (mailbox 6 false).busField (mailbox 6 false).fw.mbx 0 0 = 1 ∧ (mailbox 8 false).busTakes .fwmbx ∧
    (mailbox 10 false).busTakes .fwmbx ∧ (mailbox 11 false).busTakes .fwmbx ∧ (mailbox 5 false).busTakes .fwmbx ∧ (mailbox 5 false).fw.boot.toNat < 6 ∧
    (mailbox 6 false).fw.idok = false ∧ (∀ k, k < 3 → (mailbox 6 false).fw.inUse k ≠ []) ∧ (∀ a n, (mailbox 6 false).hostHole a n = false) ∧
    (∀ a n, (mailbox 8 false).hostHole a n = false) :=
  ⟨takes_iff (by decide), by decide, by decide, takes_iff (by decide), by decide, by decide, takes_iff (by decide), takes_iff (by decide),
    takes_iff (by decide), takes_iff (by decide), by decide, by decide, by decide, fun _ _ => rfl, fun _ _ => rfl⟩

theorem witness_RegisterWriteResults :
    (bus .curator 0x300020 4 5).busTakes .sroute ∧ (bus .docent 0x300030 4 0).busTakes .smigc ∧ (bus .docent 0x300038 8 0).busTakes .smigs ∧
    (bus .docent 0x700018 8 8).busTakes .svcpc ∧ (bus .docent 0x100020 4 0).busTakes (.pwrshr 3) ∧ 3 < one.pwr.shares.length ∧
    (bus .docent 0x700010 8 0).busTakes .ctxst ∧ (bus .docent 0x700008 8 0).busTakes .ctxcmd ∧ one.creg.busy = false ∧
    (bus .host 0x700000 4 0).busTakes .fwmbx ∧ one.fw.busy = false ∧ (bus .docent 0x200100 8 0).busTakes (.mrep 31) ∧ (one.chan 31).busy = false ∧
    (bus .docent 0x200000 4 0).busTakes .mscrub ∧ (bus .docent 0x500038 8 0).busTakes (.win 7) ∧ 7 < one.win.length ∧
    (bus .docent (0x400000 + 48 * 15) 8 0).busTakes (.sqbase 15) ∧ (one.sq 15).en = false ∧
    (bus .docent 0x200108 8 0xFFFF).busTakes (.mlane 0) ∧ (bus .docent 0x300000 8 0xFF).busTakes (.slnk 0) ∧
    (bus .host 0x100002 4 0).bus.ok = false ∧ (bus .docent 0x100002 4 0).bus.ok = false ∧ (bus .host 0x100138 4 0).bus.ok = true ∧
    (bus .host 0x100138 4 0).assigned (regAt 0x100138) = false ∧ one.assigned (regAt 0x100138) = false ∧ one.again = false ∧
    (bus .host 0x100000 4 0).bus.ok = true ∧ (bus .host 0x100000 4 0).assigned (regAt 0x100000) = true ∧ (regAt 0x100000).writers .host = false :=
  ⟨takes_iff (by decide), takes_iff (by decide), takes_iff (by decide), takes_iff (by decide), takes_iff (by decide), by decide, takes_iff (by decide),
    takes_iff (by decide), by decide, takes_iff (by decide), by decide, takes_iff (by decide), by decide, takes_iff (by decide), takes_iff (by decide),
    by decide, takes_iff (by decide), by decide, takes_iff (by decide), takes_iff (by decide), by decide, by decide, by decide, by decide, by decide,
    by decide, by decide, by decide, by decide⟩

/-- A submission ring 2 with its registers, its entry at head 0 and host memory. -/
def ring (q : SQ) (host : List Host.Cell) : State := { one with sqs := [(2, q)], hostmem := host }

theorem witness_RingRegisterResults :
    let on (who : Agent) (off : Nat) (x : DWord) : State := { bus who off 8 x with sqs := [(2, { SQ.reset with en := true, ctx := 7 })] }
    (on .docent 0x400060 0).busTakes (.sqbase 2) ∧ ((on .docent 0x400060 0).sq 2).en = true ∧ (bus .docent 0x400060 8 0).busTakes (.sqbase 2) ∧
    ((bus .docent 0x400060 8 0).sq 2).en = false ∧ (bus .docent 0x400080 8 0).busTakes (.cqbase 2) ∧ (on .docent 0x400068 0).busTakes (.sqcfg 2) ∧
    (on .docent 0x400038 0x8000000000000007).busTakes (.sqcfg 1) ∧ ((on .docent 0x400038 0x8000000000000007).sq 1).en = false ∧
    (on .docent 0x400038 0x8000000000000007).busField ((on .docent 0x400038 0x8000000000000007).sq 1).cfg 63 63 = 1 ∧
    (∃ m, m < 16 ∧ m ≠ 1 ∧ ((on .docent 0x400038 0x8000000000000007).sq m).en = true ∧ ((on .docent 0x400038 0x8000000000000007).sq m).ctx = 7) ∧
    (∀ m, m < 16 → m ≠ 1 → ((on .docent 0x400038 0x8000000000000008).sq m).en = true → ((on .docent 0x400038 0x8000000000000008).sq m).ctx ≠ 8) ∧
    (bus .host 0x400070 4 3).busTakes (.sqdb 2) ∧ (bus .host 0x400070 4 3).bus.covers 15 0 = true ∧ (bus .host 0x400088 8 0).busTakes (.cqctl 2) ∧
    (bus .host 0x600008 8 0).busTakes .errctl ∧ (bus .docent 0x600008 8 0).busTakes .errctl ∧ (bus .docent 0x600000 8 0).busTakes .errbase ∧
    (bus .docent 0x600018 8 0).busTakes .trctl ∧ (bus .docent 0x600018 8 0).trap.pend = [] ∧ (bus .docent 0x600010 8 0).busTakes .trbase :=
  ⟨takes_iff (by decide), by decide, takes_iff (by decide), by decide, takes_iff (by decide), takes_iff (by decide), takes_iff (by decide), by decide, by decide,
    by decide, by decide, takes_iff (by decide), by decide, takes_iff (by decide), takes_iff (by decide), takes_iff (by decide), takes_iff (by decide),
    takes_iff (by decide), by decide, takes_iff (by decide)⟩

theorem witness_RingEntryResults :
    let q : SQ := { SQ.reset with en := true, tail := 1, sqbase := 0x8000000000001000, cqbase := 0x8000000000002000, held := [[]] }
    let s := ring q []
    let g := ring q [(0x101F, 0x20), (0x1008, 1)]
    let d := ring { q with sqbase := 0x0000FFFFFFFFF000 } []
    let hole (s : State) : State := { s with unrouted := [(0, 2 ^ 20)] }
    let words (s : State) : List DWord := words64 (Memory.read s.hostmem (baseAddr (s.sq 2).sqbase) 64) 8
    let e : TrapSrc × TrapEntry := (.watchdog 0, { cause := 1, sub := 0, src := 4, nest := false, slot := 0, ctx := 0, core := 0, info := 0, asn := 0
                                                   pc := 0, addr := 0, mask := 0, detail := 0 })
    let r : ErrRec := ErrRec.mk0 1 0 0 0 0
    let l : State := { one with err := { ErrRing.reset with en := true, host := true, queue := [r] }, trap := { TrapRing.reset with en := true, host := true, due := [e] } }
    (s.sq 2).en = true ∧ (s.sq 2).head ≠ (s.sq 2).tail ∧ baseHost (s.sq 2).sqbase = true ∧ bits ((words s).getD 3 0).toNat 63 60 ≠ 2 ∧ s.segCount 0 < 1024 ∧
    bits ((words g).getD 3 0).toNat 63 60 = 2 ∧ startOk (words g) = true ∧ g.graphs.length < 64 ∧ baseHost (d.sq 2).sqbase = false ∧ d.refused (ringWho 2) (baseAddr (d.sq 2).sqbase) = true ∧
    s.hostHole 0x1000 64 = false ∧ s.hostHole 0x2000 128 = false ∧ (hole s).hostHole 0x1000 64 = true ∧ (hole s).hostHole 0x2008 120 = true ∧
    (hole l).hostHole (l.err.base.toNat + 8) 56 = true ∧ (hole l).hostHole (l.trap.base.toNat + 8) 56 = true ∧ s.err.queue.length < 64 ∧
    (s.sq 2).recordDue = true ∧ baseHost (s.sq 2).cqbase = true ∧ l.err.queue = [r] ∧ l.err.en = true ∧ l.err.full = false ∧ l.err.host = true ∧
    l.trap.due = [e] ∧ l.trap.pending e.1 = false ∧ l.trap.en = true ∧ l.trap.full = false ∧ l.trap.host = true := by
  simp only
  decide

/-- A memory of zeros with these data bytes changed. -/
def flipped (bs : List Host.Cell) : State := { one with mem := bs }

theorem witness_RepairAndSectorResults :
    let s := bus .docent 0x2000F8 8 0x0100000000000000
    let b : State := { s with chans := [(30, { MChan.reset with busy := true, cmd := 3, arem := true })] }
    s.busTakes (.mrep 30) ∧ (s.chan 30).busy = false ∧ s.busField (s.chan 30).rep 34 30 ≤ 11 ∧ s.contextsRun = false ∧
    ({ s with blocks := (staged 2).blocks } : State).contextsRun = true ∧ (b.chan 30).busy = true ∧ (b.chan 30).cmd = 3 ∧ (b.chan 30).arem = true ∧
    ({ s with chans := [(30, { MChan.reset with busy := true, cmd := 5, arem := true, brem := true })] } : State).again = false ∧ s.err.queue.length < 62 ∧
    ((readOutcome 0 ((one.writeSector 0 (List.replicate 32 0) 7).sector 0)).toOption.map fun x => badCoh x.2.1 && x.2.2.isNone) = some true ∧
    (one.writeSector 0 (List.replicate 32 0) 7).sectorHere 0 = true ∧
    ((readOutcome 5 (one.sector 5)).toOption.map fun x => !badCoh x.2.1 && x.2.2.isNone) = some true ∧
    b.lineBusy 30 = false ∧ s.sectorHere 5 = true ∧
    (readOutcome 5 (one.sector 5)).toOption.isSome = true ∧ ((readOutcome 5 ((flipped [(163, 0x20)]).sector 5)).toOption.bind (·.2.2)) = some 3 ∧
    (readOutcome 5 ((flipped [(162, 0x11), (163, 0x20)]).sector 5)).toOption = none ∧ 31 < s.part.channels ∧ s.mscrub.getLsbD 31 = true ∧
    ({ s with mscrub := 0 } : State).mscrub.getLsbD 31 = false :=
  ⟨takes_iff (by decide), by decide, by decide, by decide, by decide, by decide, by decide, by decide, by decide, by decide, by decide +kernel, by decide +kernel,
    by decide +kernel, by decide, by decide, by decide +kernel, by decide +kernel, by decide +kernel, by decide, by decide, by decide⟩

/-- A window of 1 MiB at offset 0 to DPA 0 in grains of 32 bytes, and its first sector in L2. -/
def windowed : State := { one with win := modifyAt (fun _ => 0xD000000000000000) one.win 0, l2 := [(0, sector [(5, 0x77)])] }

/-- Link 1 with these registers. -/
def linked (l : Link) : State := { one with links := [(1, l)] }

/-- A flit of 256 bytes with this header, its payload empty, and its check. -/
def flit (h : Nat) : List Byte :=
  let p : List Byte := toBytes 4 h ++ List.replicate 248 0
  p ++ toBytes 4 (crc32c p).toNat

theorem witness_HostAndLinkResults :
    let w : Nat := 0xD000000000000000
    let l : Link := { Link.reset with up := true, width := 2 }
    let m : Msg := ⟨mHdr mtINVACK 0 3 0 9 3 false 0 64, []⟩
    let q : Link := { l with queues := [[], [], [], [m], [], [], [], []], credits := [256, 256, 256, 256] }
    ((linked Link.reset).link 1).up = false ∧ ((linked q).link 1).up = true ∧ ((linked q).link 1).ready = some 3 ∧ ((linked q).link 1).queues.getD 3 [] = [m] ∧
    one.hostq = [] ∧ one.again = false ∧ (∀ x ∈ one.windows, 0 + 4 ≤ winStart x ∨ winEnd x ≤ 0) ∧
    windowed.winAt 4 = some w ∧ (∀ x ∈ windowed.windows, x ≠ w → 4 + 4 ≤ winStart x ∨ winEnd x ≤ 4) ∧ 4 + 4 ≤ winEnd w ∧
    winTarget w 4 = 4 ∧ windowed.outOfRange 4 = false ∧ homeDev 0 = windowed.own ∧ windowed.redirected 0 = none ∧ windowed.txOpen 0 = false ∧
    windowed.coh.served = [] ∧ windowed.cleanAt (holder 0 32) (sector [(5, 0x77)]).data 0 ∧
    Store.look windowed.l2 0 = some (sector [(5, 0x77)]) ∧ (sector [(5, 0x77)]).data.length = 32 ∧
    one.behind 1 = [] ∧ ((linked { l with width := 1 }).link 1).width.toNat ≤ 1 ∧ ((linked { l with width := 1 }).link 1).up = true ∧
    2 ≤ ((linked l).link 1).width.toNat ∧ (((linked l).link 1).times.filter fun t => decide ((linked l).rtc.toNat < t + 1000000)).length < 2 ∧
    (∀ h ∈ [0x0000000F, 0x00000010, 0x00000320],
      (crc32c (sliceBytes (flit h) 0 252)).toNat = fieldAt (flit h) 252 4 ∧ fieldAt (flit h) 0 4 = h) ∧
    bits 0x10 31 20 = l.expect ∧ one.coh.en = true ∧
    (crc32c (sliceBytes (List.replicate 256 1) 0 252)).toNat ≠ fieldAt (List.replicate 256 1) 252 4 ∧ l.bad < 7 ∧
    ((linked { l with buf := [(5, []), (6, [])] }).link 1).buf.findIdx? (fun e => e.1 == (6 : BitVec 12).toNat) = some 1 := by
  refine ⟨by decide, by decide, by decide +kernel, by decide,
    by decide, by decide, by decide, by decide, by decide, by decide, by decide, by decide, by decide, by decide, by decide, by decide, .inl ⟨_, rfl, rfl, rfl⟩,
    by decide, by decide, by decide, by decide, by decide, by decide, by decide, by decide +kernel, by decide, by decide, by decide +kernel, by decide, by decide⟩

/-- A home whose sector 64 has the coherence byte b, with a message from device 3 on hand. -/
def homeOf (b : Byte) (op : Nat) (dirty : Bool) (data : List Byte) : State :=
  { one with l2 := [(64, { sector [] with coh := b })], coh := { one.coh with present := 0x3F }, rx := ⟨mHdr op 3 0 0 9 3 dirty 0 64, data⟩ }

theorem serves_of (b : Byte) (op : Nat) (dirty : Bool) (data : List Byte)
    (h : let s := homeOf b op dirty data
      (s.coh.en = true ∧ s.isPresent (mSrc s.rx) = true) ∧ homeDev (mGrain s.rx) = s.own ∧ s.outOfRange (32 * mGrain s.rx) = false ∧
      s.redirected (mAddr s.rx) = none ∧ mGrain s.rx = 64 ∧ mSize s.rx = 32 ∧
      b.getLsbD 6 = false ∧ (b.toNat % 8 ≤ 4 ∨ b.toNat % 8 = 6) ∧ (1 ≤ b.toNat % 8 → b.toNat % 8 ≤ 4 → s.isPresent (bits b.toNat 5 3) = true)) :
    Serves (homeOf b op dirty data) [(sector []).data] b := by
  obtain ⟨a, c, d, e, f, g, i, j, k⟩ := h
  refine ⟨a, c, d, e, rfl, rfl, by rw [g]; rfl, fun n w => ?_, ⟨i, j⟩, k⟩
  obtain rfl : n = 0 := by simpa using w
  exact ⟨b, by rw [f]; exact .inl ⟨_, rfl, rfl, rfl⟩, fun _ => rfl⟩

/-- One state for each clause: the coherence byte, the message, and what the clause asks of them. -/
theorem witness_HomeRequestResults :
    let z : List Byte := toBytes 8 5 ++ toBytes 8 0 ++ List.replicate 16 0
    let bad : List Byte := toBytes 8 5 ++ toBytes 8 0 ++ [9] ++ List.replicate 15 0
    (∀ b ∈ [(0 : Byte), 0x1E, 0x19, 0x11, 0x91, 0x99, 0x9B, 0x12, 0x13, 0x14, 0x1A, 0x1C], ∃ ds, Serves (homeOf b 1 false []) ds b) ∧
    (∃ ds, Serves (homeOf 0 mtATOM false z) ds 0) ∧ atomOk z = true ∧ atomOk bad = false ∧ (homeOf 0 mtATOM false z).coh.served = [] ∧
    Store.look (homeOf 0 mtATOM false z).l2 64 = some (sector []) ∧ (∃ ds, Serves (homeOf 0 mtATOM false bad) ds 0) ∧
    (∃ ds, Serves (homeOf 0x1C mtWB false (List.replicate 32 7)) ds 0x1C) ∧ (∃ ds, Serves (homeOf 0 mtWRH true (List.replicate 32 7)) ds 0) ∧
    mReq (homeOf 0 1 false []).rx = 3 ∧ (homeOf 0 1 false []).peers.filter (· != 3) ≠ [] ∧ mDirty (homeOf 0 mtWRH true []).rx = true ∧
    mDirty (homeOf 0 mtWB false []).rx = false ∧ (homeOf 0 1 false []).holdsCopy 64 32 = true ∧
    (let s : State := { homeOf 0 1 false [] with l2 := [] }
     (∃ ds, Serves s ds 0) ∧ s.holdsCopy 64 32 = false) := by
  refine ⟨?_, ⟨_, serves_of _ _ _ _ (by decide)⟩, by decide, by decide, rfl, by decide, ⟨_, serves_of _ _ _ _ (by decide)⟩, ⟨_, serves_of _ _ _ _ (by decide)⟩,
    ⟨_, serves_of _ _ _ _ (by decide)⟩, by decide, by decide, by decide, by decide, by decide,
    ⟨[List.replicate 32 0], ⟨by decide, by decide⟩, by decide, by decide, by decide, by decide, rfl, by decide, fun n w => ?_, by decide, by decide⟩, by decide⟩
  · simp only [List.forall_mem_cons, List.not_mem_nil, false_imp_iff, implies_true, and_true]
    refine ⟨?_, ?_, ?_, ?_, ?_, ?_, ?_, ?_, ?_, ?_, ?_, ?_⟩ <;> exact ⟨_, serves_of _ _ _ _ (by decide)⟩
  · obtain rfl : n = 0 := by simpa using w
    exact ⟨0, .inr ⟨by decide, by rfl⟩, fun _ => rfl⟩
/-- A device 0 that holds sector 0 of device 3's memory in a state, with a message from device 3 on hand. -/
def ownerOf (l2 : Store L2Sec) (outs : List OutReq) (op : Nat) (data : List Byte) : State :=
  { one with l2 := l2, coh := { one.coh with present := 0x3F, outs := outs }, rx := ⟨mHdr op 3 0 0 9 3 false 0 (3 * 2 ^ 33), data⟩ }

/-- A request of this device to device 3. -/
def outReq (mtype : Nat) : OutReq :=
  { txid := 9, grain := 3 * 2 ^ 33, gsize := 32, mtype := mtype, data := List.replicate 32 7, tag := [], retries := 0, ticket := 0, waiting := false, gotData := none
    gotDone := false, live := true, since := 0 }

theorem witness_CoherenceMessageResults :
    let k : Nat := 3 * 2 ^ 33
    let held : State := ownerOf [(k, { sector [] with rst := .e })] [] mtINV []
    let buffered : State := ownerOf [] [outReq mtWB] mtINV []
    let got : OutReq := { outReq mtRDX with gotData := some (List.replicate 32 7), into := k }
    let tx : HomeTx := ⟨64, 32, .remote (homeOf 0 mtRDX false []).rx, 9, 0x08, none, false, 0, true, false, 0, false⟩
    let home (t : HomeTx) : State := { homeOf 0 mtINVACK false [] with coh := { (homeOf 0 0 false []).coh with txs := [t] } }
    held.ownerTakes ∧ held.ownerCopy k 32 = some (List.replicate 32 0, false, false) ∧ buffered.ownerTakes ∧
    buffered.ownerCopy k 32 = some (List.replicate 32 7, false, true) ∧ (ownerOf [] [] mtINV []).ownerTakes ∧ (ownerOf [] [] mtINV []).ownerCopy k 32 = none ∧
    (ownerOf [] [outReq mtRDS] mtDATS []).answers [mtRDS] (outReq mtRDS) ∧ (ownerOf [] [outReq mtRDX] mtDATM []).answers [mtRDX] (outReq mtRDX) ∧
    (ownerOf [] [outReq mtRDX] mtDONE []).remoteSt k ≠ .o ∧ (ownerOf [] [got] mtDONE []).answers [mtRDX] got ∧
    (ownerOf [] [outReq mtATOM] mtATOMR []).answers [mtATOM] (outReq mtATOM) ∧ (ownerOf [] [outReq mtCLN] mtWBACK []).answers [mtWB, mtCLN] (outReq mtCLN) ∧
    (ownerOf [] [outReq mtRDS] mtPOISONED []).answers [mtRDS, mtRDX, mtATOM, mtWRH] (outReq mtRDS) ∧ (outReq mtRDS).mtype ≠ mtWRH ∧
    (ownerOf [] [outReq mtWRH] mtPOISONED []).answers [mtRDS, mtRDX, mtATOM, mtWRH] (outReq mtWRH) ∧ (outReq mtWRH).mtype = mtWRH ∧
    tx.bad = false ∧ ({ tx with bad := true } : HomeTx).bad = true ∧ one.coh.waiting = [] ∧
    (ownerOf [] [outReq mtRDS] mtRETRY []).coh.outs.find? (fun o => o.matches (ownerOf [] [] mtRETRY []).rx) = some (outReq mtRDS) ∧
    (ownerOf [] [{ outReq mtRDS with waiting := true }] mtRETRY []).coh.outs.find? (fun o => o.txid == 9 && o.waiting) = some { outReq mtRDS with waiting := true } ∧
    (ownerOf [] [] mtDATS []).takesMsg ∧ (ownerOf [] [] mtDATS []).coh.txs = [] ∧ ({ one with coh := { one.coh with en := false } } : State).coh.en = false ∧
    (home tx).answersTx tx ∧ tx.acks.toNat.testBit 3 = true ∧ (home { tx with acks := 0x10, owner := some 3, data := true }).answersTx { tx with acks := 0x10, owner := some 3, data := true } ∧
    (0x10 : Byte).toNat.testBit 3 = false ∧ (homeOf 0 mtRDX false []).rx.op = mtRDX ∧ (homeOf 0 mtRDS false []).rx.op = mtRDS := by
  refine ⟨⟨⟨by decide, by decide⟩, by decide, by decide⟩, by decide, ⟨⟨by decide, by decide⟩, by decide, by decide⟩, by decide, ⟨⟨by decide, by decide⟩, by decide, by decide⟩,
    by decide, ⟨⟨by decide, by decide⟩, by decide, by decide⟩, ⟨⟨by decide, by decide⟩, by decide, by decide⟩, by decide, ⟨⟨by decide, by decide⟩, by decide, by decide⟩,
    ⟨⟨by decide, by decide⟩, by decide, by decide⟩, ⟨⟨by decide, by decide⟩, by decide, by decide⟩, ⟨⟨by decide, by decide⟩, by decide, by decide⟩, by decide,
    ⟨⟨by decide, by decide⟩, by decide, by decide⟩, by decide, by decide, by decide, by decide, by decide, by decide,
    ⟨by decide, by decide⟩, by decide, by decide, ⟨⟨by decide, by decide⟩, by decide⟩, by decide, ⟨⟨by decide, by decide⟩, by decide⟩, by decide, by decide, by decide⟩

/-- A page migration from page 1 of this device to page 5, of 4 KiB. -/
def migrating (c : Coh) (off : Nat) : State :=
  { bus .docent off 4 1 with coh := { c with smigs := 0x1000, smigd := 0x5000 } }

theorem witness_DomainAndEvictionResults :
    let d : State := ownerOf [] [] mtLEAVE []
    let lone (mst : BitVec 2) : State := { bus .curator 0x300028 4 0 with coh := { Coh.reset with mst := mst, present := 0x3F } }
    let tx : HomeTx := ⟨64, 32, .own false, 9, 0x08, none, false, 0, true, false, 0, false⟩
    let old : State := { d with coh := { d.coh with txs := [tx] }, rtc := 10000 }
    let clean : L2Sec := sector []
    let x : L1Sec := ⟨List.replicate 32 7, 3, 0xFFFFFFFF, 0, 0, 32, some 0⟩
    let l1 : State := { one with l2 := [(64, clean)], l1 := [(l1Key 0 64, x)], clk := 2000 }
    d.takesMsg ∧ d.busyWith 3 = false ∧ (ownerOf [] [] mtJOIN []).rx.op = mtJOIN ∧ d.coh.lost.toNat.testBit 3 = false ∧
    ({ d with coh := { d.coh with lost := 8 } } : State).coh.lost.toNat.testBit 3 = true ∧ (lone 0).busTakes .sdom ∧ (lone 0).coh.awaiting = 0 ∧
    (lone 0).remoteGrains = [] ∧ (lone 0).coh.outs = [] ∧ (lone 2).busTakes .sdom ∧ (lone 2).coh.mst = 2 ∧ old.late.contains 3 = true ∧
    old.coh.smigBusy = false ∧ d.late.contains 3 = false ∧ (migrating Coh.reset 0x300030).busTakes .smigc ∧
    (migrating { Coh.reset with smigBusy := true } 0x300030).busTakes .smigc ∧ (migrating Coh.reset 0x300030).migRefused 0 = false ∧
    (migrating Coh.reset 0x300030).outOfRange 0x1000 = false ∧ (migrating Coh.reset 0x300030).outOfRange 0x5000 = false ∧
    (migrating { Coh.reset with smigSt := 2 } 0x300030).busTakes .smigc ∧
    Store.look l1.l2 (2048 / 32) = some clean ∧ clean.rst = .home ∧ clean.dirty = false ∧ Store.look one.l2 64 = none ∧
    (let s : State := ownerOf [(3 * 2 ^ 33, { sector [] with rst := .s })] [] 0 []
     s.remoteSt (holder (3 * 2 ^ 33) 32) = .s) ∧
    Store.look l1.l1 (l1Key 0 64) = some x ∧ x.dirty ≠ 0 ∧ x.since + 1024 ≤ l1.clk.toNat ∧ homeDev 64 = l1.own ∧ l1.redirected 64 = none ∧
    l1.txOpen (holder 64 x.gr) = false ∧ l1.coh.served = [] ∧ l1.cleanAt (holder 64 x.gr) clean.data 0 :=
  by
  refine ⟨⟨by decide, by decide⟩, by decide, by decide, by decide, by decide, takes_iff (by decide), by decide, by decide, by decide, takes_iff (by decide), by decide,
    by decide, by decide, by decide, takes_iff (by decide), takes_iff (by decide), by decide, by decide, by decide, takes_iff (by decide), by decide, by decide, by decide,
    by decide, by decide, by decide, by decide, by decide, by decide, by decide, by decide, by decide, .inl ⟨_, rfl, rfl, rfl⟩⟩
/-- The group of the context waits between clauses; its clause at 0 has one word, a NOP. -/
def waiting : State :=
  { paged false with
    g := .idle
    groups := [{ (paged false).g with iss := .none, lanes := (paged false).g.lanes.map fun a => { a with lpc := 0 } }]
    l2 := Store.put (sector []) (paged false).l2 0 (sector [(14, 0x1F)])
    blocks := [{ task := 0, idx := 0, core := 0, rank := 0, ctx := 0, base := 0, scratch := 64, ngroups := 1, slots := [0], rings := [], issued := [0, 0, 0, 0]
                 done := [0, 0, 0, 0], canc := false, retired := false }]
    tasks := [{ Task.card 0 [0, 0, 0, 0, 0, 0, 0, 0] (.ring 0) 0 false with hdr := [0, 0, 0, 0, 0, 0, 0, 0], launched := true }] }

/-- A launch of one block of one group of 16 lanes, at the head of its list. -/
def launch : Task :=
  { Task.card 0 [0, 0, 0, 0x1000000000000001, 0, 0, 0, 0] (.ring 2) 0 false with hdr := [0, 0, 0, 0, 0, 0, 0, 0], launched := true }

/-- Core 0, to which slice 0 is near, with the launch at the head of its list and a block of it resident where bs says so. -/
def launching (t : Task) (bs : Bool) : State :=
  { paged false with
    g := .idle, groups := [], tasks := [t]
    blocks := if bs then [{ task := 0, idx := 0, core := 0, rank := 0, ctx := 0, base := 0, scratch := 0, ngroups := 1, slots := [0], rings := [], issued := [0, 0, 0, 0]
                            done := [0, 0, 0, 0], canc := false, retired := t.commits == 0 && t.retired == 1 }] else [] }

theorem witness_DispatchResults_issue :
    let v := waiting.settle.enterHandlers 0 0
    one.issuing = true ∧ waiting.issuing = false ∧ ({ waiting with groups := [] } : State).issuing = false ∧
    (({ waiting with groups := [] } : State).settle.enterHandlers 0 0).chosen 0 0 = none ∧
    ∃ g, v.chosen 0 0 = some g ∧ (g.norm.iss.wait.isNone && g.norm.choose == some (0, 0xFFFF, none) && v.flowing g && !v.promoted g &&
      okWith (fetchClause ((v.takeUp 0 0 g).g.fetchWho 0) g.norm.enc (0 : DWord).toNat) (v.takeUp 0 0 g) fun x _ =>
        x.2.any (fun ws => !ws.isEmpty) && hClass x.1 != 6) = true :=
  ⟨by decide +kernel, by decide +kernel, by decide +kernel, by decide +kernel, of_any (by decide +kernel)⟩

theorem witness_DispatchResults_waits :
    let w : State := { waiting with groups := waiting.groups.map fun g => { g with iss := { one.g.iss with wait := some .retry } } }
    ∃ g, (w.settle.enterHandlers 0 0).chosen 0 0 = some g ∧ g.norm.iss.wait.isSome = true := of_any (by decide +kernel)

theorem witness_DispatchResults_pull :
    let s := launching launch false
    (s.core 0).reserve = none ∧ (s.pullLists 0).2 = false ∧ (s.pullLists 0).1.head? = some (0, 0) ∧ s.head 0 0 = some launch ∧ s.task launch.id = some launch ∧
    launch.cohort = 0 ∧ launch.lagoon = false ∧ s.fits launch 0 = some ([[0]], 0) ∧ one.pullLists 0 = ([], true) := by decide +kernel

/-- TYPE of the card is not 1. -/
theorem witness_DispatchResults_form :
    let bad : Task := { launch with words := [0, 0, 0, 1, 0, 0, 0, 0], launched := false }
    let s := launching bad false
    (s.pullLists 0).2 = false ∧ (s.pullLists 0).1.head? = some (0, 0) ∧ s.head 0 0 = some bad ∧ bad.formOk = false ∧ bad.dv = false := by decide +kernel

/-- Launches whose last block has retired: of no output, and of a DET launch with an output of 4 bytes at 0x40. -/
def allOver : Task := { launch with handed := 1, retired := 1 }
def det : Task := { allOver with words := [0, 0, 0, 0x1000800000000001, 0, 0, 0, 0] }
def digest : Task := { det with hdr := [0, 0, 0, 0, 0, 0, 0, 0x100000000], outs := [(0x40, 4)] }

theorem witness_DispatchResults_retire :
    let s := launching { launch with handed := 1 } true
    s.l1 = [] ∧ ∃ b, s.findBlock 0 0 = some b ∧ (s.mayRetire b && !s.lagoon.contains (b.core / 4)) = true := ⟨rfl, of_any (by decide +kernel)⟩

theorem witness_DispatchResults_complete :
    (launching allOver false).mayComplete allOver = true ∧ allOver.isDet = false ∧ (launching digest false).mayComplete digest = true ∧ digest.isDet = true ∧
    bits (digest.h 7) 47 32 ≠ 0 := by decide

theorem witness_DispatchResults_digest :
    ∃ m u, (digestMessage digest).on (launching digest false) = (.ok m, u) ∧ ((launching digest false).detv 0 == u.detv 0) = true :=
  of_okWith (by decide +kernel)

theorem witness_DispatchResults_commit :
    let s := launching det true
    ∃ b, s.findBlock 0 0 = some b ∧ (s.mayCommit b &&
      done ((s.detBytes 0 0).forM fun x => l2Write (hwWho b.ctx true [8, 0, 0]) x.1 x.2.1 [x.2.2] : Mem Unit) s) = true := of_any (by decide +kernel)

/-- A graph at 0x400 of a node of these words, visited by the walker, with a card at 0x480 and the condition word at 0x40. -/
def graphed (ws : List Nat) (loops : List (Nat × Nat)) (cond : Byte) : State :=
  let bytes := ws.flatMap (toBytes 8)
  let z : List Byte := List.replicate 32 0
  { paged false with
    l2 := [(0, sector []), (2, sector [(0, cond)]), (32, { sector [] with data := (bytes ++ z).take 32 }), (33, sector []), (36, sector []), (37, sector []),
           (128, sector [(1, 0x20), (7, 0x80)]), (256, sector [(6, 0xE8), (7, 0xA9)])]
    counters := [(6, ⟨1, some 0, false⟩), (7, ⟨0, some 0, false⟩)]
    graphs := [{ id := 5, ring := 2, ctx := 0, asn := 0, va := 0x400, count := 1, node := 0, user := 0, loops := loops, out := [], await := none, ending := none, worst := 0
                 canc := false }] }

/-- The graph of a state, its node of a row, is visited. -/
def visitedB (s : State) (i : Instr) (p : Graph → List DWord → State → Bool) : Bool :=
  match s.graph 5 with
  | none => false
  | some g => s.mayWalk g && decide (g.node < g.count) && match comes g.read s with
    | none => false
    | some (ws, u) => decide (nodeRow ws 5 = i) && decide (u.graph 5 = some g) && p g ws u

theorem visits_of {s : State} {i : Instr} {p : Graph → List DWord → State → Bool} (h : visitedB s i p = true) :
    ∃ g ws u, Visits s 5 i g ws u ∧ p g ws u = true := by
  unfold visitedB at h
  split at h
  · cases h
  · next g e =>
    simp only [Bool.and_eq_true, decide_eq_true_eq] at h
    obtain ⟨⟨a, b⟩, c⟩ := h
    split at c
    · cases c
    · next ws u f =>
      simp only [Bool.and_eq_true, decide_eq_true_eq] at c
      exact ⟨g, ws, u, ⟨e, a, b, on_of_comes f, c.1.1, c.1.2⟩, c.2⟩

/-- The access comes to a state in which the graph stands as before. -/
def keeps {α : Type} (m : Mem α) (u : State) (g : Graph) (f : α → Bool) : Bool :=
  match comes m u with
  | some (a, v) => f a && decide (v.graph 5 = some g)
  | none => false

theorem witness_GraphNodeResults_simple :
    (∃ g ws u, Visits (graphed [0x10002] [] 0) 5 (.nodeJoin 5) g ws u ∧ decide (g.out = []) = true) ∧
    (∃ g ws u, Visits (graphed [0x200010003, 0x40] [] 1) 5 (.nodeCond 5) g ws u ∧ keeps (engineRead g.who 0x40 4) u g (· == toBytes 4 1) = true) ∧
    (∃ g ws u, Visits (graphed [0x200010004, 0x40, 3] [] 1) 5 (.nodeWhile 5) g ws u ∧ keeps (engineRead g.who 0x40 4) u g (· == toBytes 4 1) = true) ∧
    (∃ g ws u, Visits (graphed [0x200010004, 0x40, 3] ((List.range 8).map fun i => (i + 9, 1)) 1) 5 (.nodeWhile 5) g ws u ∧
      decide (g.loops.head?.map (·.1) ≠ some g.node ∧ 8 < ((g.node, 0) :: g.loops).length) = true) ∧
    (∃ g ws u, Visits (graphed [0x200000005] [(2, 1)] 0) 5 (.nodeEndw 5) g ws u ∧ decide (g.loops.head?.map (·.1) = some 2) = true) ∧
    (∃ g ws u, Visits (graphed [0x300000005] [(2, 1)] 0) 5 (.nodeEndw 5) g ws u ∧ decide (g.loops.head?.map (·.1) ≠ some 3) = true) := by
  refine ⟨visits_of ?_, visits_of ?_, visits_of ?_, visits_of ?_, visits_of ?_, visits_of ?_⟩ <;> decide +kernel

theorem witness_GraphNodeResults_acts :
    (∃ g ws u, Visits (graphed [0x10006, 0x44, 5] [] 0) 5 (.nodeStore 5) g ws u ∧ keeps (nodeStore g 0x44 5) u g (fun _ => true) = true) ∧
    (∃ g ws u, Visits (graphed [0x10007, 0, 0x600000000] [] 0) 5 (.nodeDecr 5) g ws u ∧ u.ownsCounter g.ctx 6 = true) ∧
    (∃ g ws u, Visits (graphed [0x10008, 0, 0x700000000] [] 0) 5 (.nodeWaitd 5) g ws u ∧ u.ownsCounter g.ctx 7 = true) ∧
    (∃ g ws u, Visits (graphed [0x10008, 0, 0x800000000] [] 0) 5 (.nodeWaitd 5) g ws u ∧ (!u.ownsCounter g.ctx 8) = true) ∧
    (∃ g ws u, Visits (graphed [9] [] 0) 5 (.nodeEnd 5) g ws u ∧ decide (g.out = []) = true) ∧
    (∃ g ws u, Visits (graphed [0x10009] [] 0) 5 (.nodeInvalid 5) g ws u ∧ true = true) ∧
    (let s := graphed [9] [] 0
     ∃ g, s.graph 5 = some g ∧ s.mayWalk { g with node := 1 } = true ∧ g.count ≤ { g with node := 1 }.node) ∧
    (∃ g ws u, Visits (graphed [0x10011, 0x480] [] 0) 5 (.nodeLaunch 5) g ws u ∧ keeps (engineRead g.who 0x480 64) u g (fun bs =>
      let t0 := Task.card u.nextId (fillCard (words64 bs 8) g.asn.toNat g.ctx) (.graph 5 g.node) 0 false
      !t0.wv && !t0.dv && decide (u.segCount t0.seg < 1024) && decide (g.out.length < 16)) = true) := by
  refine ⟨visits_of ?_, visits_of ?_, visits_of ?_, visits_of ?_, visits_of ?_, visits_of ?_, ⟨_, rfl, rfl, by decide⟩, visits_of ?_⟩ <;> decide +kernel
theorem witness_TimerAndBindingResults :
    let hung : State := { one with cores := [(0, { Core.reset with watch := 0x100000 })] }
    let row : GRow := ⟨[], 0, 0, false, false⟩
    let q : GQueue := { GQueue.reset with bound := true, desc := [0x600, 0x800, 0x100000001, 0], rows := [row], first := 0 }
    let tile : State := { one with gqs := [(0, q)], rtc := 2 }
    2 ^ 20 ≤ (hung.core 0).watch ∧ (one.core 0).watch < 2 ^ 20 ∧ tile.tileWaits 0 = false ∧ tile.flushDue 0 = true ∧ one.tileWaits 0 = false ∧
    one.flushDue 0 = false := by decide

/-- A context whose deadline has passed, its best-plan slots at 0x80, and its ring. -/
def late : State :=
  { paged false with ctxs := [(0, { Ctx.reset with atb := 0x1000, bpb := 0x81, dln := 0x8000000000000005 })], rtc := 5, sqs := [(2, { SQ.reset with en := true })] }

theorem witness_TimerAndBindingResults_deadline :
    one.deadlineDue 0 = false ∧ late.deadlineDue 0 = true ∧ (late.cx 0).expiring = false ∧
    ∃ bs v, (expireUnits 0 (CSet.of ((late.expire 0).cx 0).dlnact)).on (late.expire 0) = (.ok bs, v) ∧
      (bs.isSome && (v.sq 2).en && (v.sq 2).ctx == 0 && !(v.sq 0).en && !(v.sq 1).en) = true :=
  ⟨by decide, by decide, by decide, of_okWith (by decide +kernel)⟩

theorem witness_TimerAndBindingResults_binding :
    ((paged false).cx ((paged false).gq 1).ctx).run ≠ .saved ∧
    (({ one with ctxs := [(0, { Ctx.reset with run := .saved })] } : State).cx (one.gq 1).ctx).run = .saved ∧
    (∃ ws u, (readDesc (hwWho 0 true [4, 1]) 0x40).on (paged false) = (.ok ws, u) ∧
      okWith (Pool.bind { u.pool 1 with reg := 0x41, bound := true, desc := [0x440, 2, 0x480, 0] } 1) u (fun _ _ => true) = true) ∧
    (∃ c u, (readDesc (hwWho 0 true [4, 1]) (2 ^ 40)).on (paged false) = (.error (.trap c), u) ∧ true = true) :=
  ⟨by decide, by decide, of_okWith (by decide +kernel), of_faults (p := fun _ _ => true) (by decide +kernel)⟩

/-- A matrix operation of 8 by 8 by one chunk on frame 5 with the next K-step n. -/
def multiplies (n : Nat) : MOp :=
  { id := 1, task := 0, block := 0, gi := 0, ctx := 0, frame := 5, sh := 0x84080800081020000000000000000000, aoff := 0, slot := 0, den := false, drn := 0, pk := []
    twin := false, half := false, z := false, ftz := false, nant := true, dv := false, dc := 0, next := n, nan := none, pc := 0 }

/-- A drain at element 3. -/
def drains : Drain := { op := { multiplies 2 with nant := false }, elem := 3, mi := 0, t := [1, 2, 3, 4], amax := none, nanchk := none, stop := none, told := false }

theorem witness_EngineResults_matrix :
    let s : State := { one with cores := [(0, { Core.reset with mq := [multiplies 0] })] }
    let d : State := { one with cores := [(0, { Core.reset with drain := some drains })] }
    let a : State := { one with cores := [(0, { Core.reset with aside := [{ drains with stop := some (.nan 3 1) }] })] }
    s.nextOp 0 = some (multiplies 0) ∧ one.nextOp 0 = none ∧ d.nextDrain 0 = some drains ∧ drains.op.den = false ∧ drains.op.nan = none ∧ drains.op.dv = false ∧
    drains.t ≠ [] ∧ drains.elem % 32 + 1 < drains.op.ncols ∧ one.nextDrain 0 = none ∧
    (a.core 0).aside.any (fun d => d.op.frame == 5 && d.stop.isSome) = true := by decide +kernel

theorem witness_EngineResults_micro :
    one.upsets.contains (.drain 0 true) = false ∧ ({ one with upsets := [.drain 0 true] } : State).upsets.contains (.drain 0 true) = true ∧
    bits (0x12000000 : Word).toNat 25 23 = 4 ∧
    let f (x : Word) : XR := ffF32.value false x.toNat
    (f 0x3F800000).isNan = false ∧ (XR.add .rn (f 0x3F800000) (f 0x40000000)).isNan = false ∧ ((f 0x3F800000).mul (f 0x40000000)).isNan = false ∧
    (List.range 16).map (fun k => bits (BitVec.ofNat 32 (k * 2 ^ 28)).toNat 31 28) = List.range 16 ∧
    ({ drains with elem := 7 }.rowEnd = false ∨ { drains with elem := 7 }.rowEnd = true) ∧ ({ drains with elem := 231 } : Drain).rowEnd = true ∧
    231 / 32 + 1 = (Shape.of (multiplies 0).sh).em ∧ ({ one with counters := [(6, ⟨1, some 0, false⟩)] } : State).ownsCounter 0 6 = true := by decide +kernel

/-- A copy of 64 bytes from 0 to 32 in a block's scratchpad bytes. -/
def copies (sk dk : Nat) : CopyCmd :=
  { task := 0, block := 0, gi := 0, ctx := 0, skind := sk, srank := 0, saddr := 0x40, dkind := dk, drank := 0, daddr := 0, len := 32, rows := 1, sstr := 0, dstr := 0
    dc := none, ticket := 0, pos := 0, chunk := 0, stop := none, after := 0, pc := 0, priv := false, refill := false }

def copying (c : CopyCmd) : State := { waiting with cores := [(0, { Core.reset with chans := [[c], [], [], []] })], blocks := waiting.blocks.map fun b => { b with scratch := 128 } }

theorem witness_EngineResults_copy :
    ({ copying (copies 0 1) with upsets := [.copy 0 0] } : State).nextCopy 0 0 = some (copies 0 1) ∧ (copying (copies 0 1)).upsets.contains (.copy 0 0) = false ∧
    ({ copying (copies 0 1) with upsets := [.copy 0 0] } : State).upsets.contains (.copy 0 0) = true ∧ (copies 0 1).refill = false ∧ (copies 0 1).dc = none ∧
    (copying (copies 0 1)).nextCopy 0 0 = some (copies 0 1) ∧ (copying (copies 1 1)).nextCopy 0 0 = some (copies 1 1) ∧ one.nextCopy 0 0 = none ∧
    (∃ b, (copying (copies 1 1)).rankBlock (copies 1 1) 0 = some b ∧ 0x40 + 32 ≤ b.scratch ∧ b.done.length = 4) ∧
    ((copying (copies 1 1)).core 0).chans.length = 4 ∧
    ∃ a u, (moveChunk ((copying (copies 0 1)).copyWho 0 0 (copies 0 1)) 0 (copies 0 1) 0 0 32).on (copying (copies 0 1)) = (.ok a, u) ∧
      ((u.findBlock 0 0).map (·.done.length)) == some 4 :=
  ⟨by decide +kernel, by decide +kernel, by decide +kernel, by decide +kernel, by decide +kernel, by decide +kernel, by decide +kernel, by decide +kernel,
    ⟨_, rfl, by decide +kernel, by decide +kernel⟩, by decide +kernel, of_okWith (by decide +kernel)⟩

theorem witness_EngineResults_acknowledge :
    let s : State := { one with g := .idle, creg := { one.creg with col := some ⟨0, 1, 0, []⟩ } }
    s.mayAck (.drain 3) = true ∧ s.mayAck .gather = true ∧ one.mayAck (.drain 3) = false := by decide +kernel

/-- A point query whose record stands at 0x600 and the octree's header at 0x640, and a step. -/
def asks (step : Bool) : SpCmd :=
  { step := step, rec_ := 0x600, oct := 0x640, handle := 0, task := 0, block := 0, gi := 0, ctx := 0, tag := 0, canc := false, body := 0
    work := if step then [0, 0, 2, 0, 0, 0, 0, 0, 0, 0, 0, 0, 0, 0, 0, 0, 0, 0] else [], pc := 0, priv := false }

def asking (c : SpCmd) (st : FutSt) : State :=
  { paged false with spatial := [(0, [c])], cores := [(0, { Core.reset with futs := [(0, { Fut.reset with st := st })] })] }

theorem witness_EngineResults_spatial :
    (asking { asks false with isOver := true } .ready).spCancelled { asks false with isOver := true } = true ∧
    (asking (asks false) .pending).nextSp 0 = some (asks false) ∧ (asking (asks false) .pending).spCancelled (asks false) = false ∧
    (asking (asks false) .cancelled).spCancelled (asks false) = true ∧ (asking (asks true) .cancelled).spCancelled (asks true) = true ∧ one.nextSp 0 = none := by
  decide +kernel

/-- An engine's command comes to a value, or to a code. -/
def spEnds {α : Type} (m : SpM α) (s : State) (ok : Bool) : Bool :=
  match m s with
  | (.ok (.ok _), _) => ok
  | (.ok (.error _), _) => !ok
  | _ => false

theorem of_spEnds {α : Type} {m : SpM α} {s : State} :
    (spEnds m s true = true → ∃ x u, m s = (.ok (.ok x), u)) ∧ (spEnds m s false = true → ∃ x u, m s = (.ok (.error x), u)) := by
  refine ⟨fun h => ?_, fun h => ?_⟩ <;> unfold spEnds at h <;> split at h
  · next x u e => exact ⟨x, u, e⟩
  · cases h
  · cases h
  · cases h
  · next x u e => exact ⟨x, u, e⟩
  · cases h

/-- The octree of one level whose root node at 0 is free everywhere; without its handle the query ends with code 2. -/
theorem witness_EngineResults_queries :
    let c := asks false
    let s := asking c .pending
    let t : State := { s with l2 := Store.put (sector []) s.l2 50 (sector [(13, 1)]) }
    let b := asks true
    (∃ x u, runQuery (t.spWho 0 c) c.rec_.toNat c.oct.toNat t = (.ok (.ok x), u)) ∧
    (∃ x u, runQuery (s.spWho 0 c) c.rec_.toNat c.oct.toNat s = (.ok (.error x), u)) ∧
    ∃ x u, bodyStep ((asking b .pending).spWho 0 b) b (asking b .pending) = (.ok (.ok x), u) :=
  ⟨of_spEnds.1 (by decide +kernel), of_spEnds.2 (by decide +kernel), of_spEnds.1 (by decide +kernel)⟩
/-- A write of CTXCMD with a command on context 7 and an area at 0x100000. -/
def commands (cmd : Nat) (run : RunSt) : State :=
  { bus .docent 0x700008 8 (BitVec.ofNat 64 (cmd * 2 ^ 61 + 0x100 * 2 ^ 32 + 7)) with g := .idle, ctxs := [(7, { Ctx.reset with run := run })] }

theorem witness_ContextCommandResults_start :
    let live : State := { commands 2 .running with tasks := [{ launch with words := [0, 0, 0, 0x1000000000000001, 0, 0, 7, 0] }] }
    (commands 3 .running).busTakes .ctxcmd ∧ (commands 3 .running).again = false ∧ (commands 3 .running).creg.busy = false ∧
    ({ commands 3 .running with creg := { one.creg with busy := true } } : State).busTakes .ctxcmd ∧
    BitVec.ofNat 32 ((commands 3 .running).busField (commands 3 .running).creg.cmdReg 31 0) = 7 ∧
    ((commands 1 .running).cx 7).run = .running ∧ ((commands 1 .saved).cx 7).run ≠ .running ∧ ((commands 1 .saved).cx 7).run ≠ .stopped ∧ live.busTakes .ctxcmd ∧
    live.ctxLive 7 = true :=
  ⟨takes_iff (by decide), by decide, by decide, takes_iff (by decide), by decide, by decide, by decide, by decide, takes_iff (by decide), by decide⟩

/-- A command goes on, for context 7 and an area at 0x100000 of so many MiB, whose sectors are in L2; every engine has acknowledged where acked says so. -/
def goesOn (cmd : BitVec 3) (acked : Bool) (mibs : Half) (run : RunSt) : State :=
  let c : CtxRegs := { one.creg with ctx := 7, area := 0x100000, alen := mibs, busy := true, col := some ⟨7, cmd, 0x100000, if acked then one.engines else []⟩ }
  { one with g := .idle, again := true, creg := c, counters := [(6, ⟨1, some 7, false⟩)], ctxs := [(7, { Ctx.reset with run := run })], l2 := (List.range 16).map fun i => (0x8000 + i, sector []) }

theorem collected_of {s : State} {c : Collect} (h : s.creg.col = some c) (w : c.stops = true) (e : c.acks = s.engines) : s.collected = true := by
  simp [State.collected, h, w, e]

theorem witness_ContextCommandResults_save :
    let s := goesOn 1 true 1 .stopping
    let u : State := { s with again := false }
    let groups : Mem (List Group) := do ctxFlush u 7; u.groups.mapM fun g => if g.ctx == 7 then savedGroup g else pure g
    s.again = true ∧ s.collected = true ∧ (goesOn 1 false 1 .stopping).collected = false ∧
    (∃ v, (ctxFlush u 7).on u = (.ok (), v)) ∧
    ∃ gs v, groups.on u = (.ok gs, v) ∧
      (let ss := { v with groups := gs }.ctxSections 7
       (decide (areaTotal ss ≤ (goesOn 1 true 1 .stopping).creg.alen.toNat * 2 ^ 20) &&
        decide ((goesOn 1 true 0 .stopping).creg.alen.toNat * 2 ^ 20 < areaTotal ss) &&
        okWith (areaWrite (ctxWho 7) 0x100000 (v.areaHeader 7 ss 1) (areaBody ss)) v (fun _ _ => true) &&
        faults (areaWrite (ctxWho 7) (2 ^ 38) (v.areaHeader 7 ss 1) (areaBody ss)) v (fun _ _ => true)) = true) :=
  ⟨rfl, collected_of (c := ⟨7, 1, 0x100000, one.engines⟩) (by simp [goesOn]) (by decide) (by simp [goesOn, State.engines, State.part]),
    by decide +kernel, of_done (by decide +kernel), of_okWith (by decide +kernel)⟩

/-- Context 7 saved with its counter 6 in an area of one MiB at 0x100000. -/
def savedArea : State :=
  let s := goesOn 1 false 1 .saved
  ((comes (areaWrite (ctxWho 7) 0x100000 (s.areaHeader 7 (s.ctxSections 7) 1) (areaBody (s.ctxSections 7))) s).map (·.2)).getD one

/-- The same area as CTX_RELEASE leaves it. -/
def releasedArea : State :=
  let s := goesOn 4 false 1 .saved
  let ss := s.releaseSections 7 (s.ctxSections 7)
  ((comes (areaWrite (ctxWho 7) 0x100000 (s.areaHeader 7 ss 4) (areaBody ss)) s).map (·.2)).getD one

/-- A command goes on with that area, or with one behind it, which is no saved context. -/
def restores (cmd : BitVec 3) (area : DWord) (mibs : Half) : State :=
  { savedArea with again := true, creg := { (goesOn cmd false mibs .saved).creg with area := area } }

theorem witness_ContextCommandResults_restore :
    let s := restores 2 0x100000 1
    let area (s : State) := ({ s with again := false } : State).readArea
    s.ctxLive 7 = false ∧ (goesOn 2 false 1 .stopped).ctxLive 7 = true ∧
    (∃ w v, (area s).on s = (.ok w, v) ∧ (w.2 && ((parseArea w.1).map fun a => a.state == 1 && (v.cx 7).run == .saved && v.limitOf a == none) == some true) = true) ∧
    (let t : State := { releasedArea with again := true, counters := [], creg := s.creg }
     ∃ w v, (area t).on t = (.ok w, v) ∧ (((parseArea w.1).bind fun a => v.limitOf a) == some 4) = true) ∧
    (let t : State := { s with l2 := [(0x8000, { sector [] with coh := 6 })] }
     ∃ c u, (area t).on t = (.error (.trap c), u) ∧ (c.code != cXLATE && okWith (setAreaState u 3) u fun _ _ => true) = true) ∧
    (∃ c u, (area (restores 2 (2 ^ 38) 1)).on (restores 2 (2 ^ 38) 1) = (.error (.trap c), u) ∧ (c.code == cXLATE) = true) ∧
    (∃ w v, (area (restores 2 0x200000 1)).on (restores 2 0x200000 1) = (.ok w, v) ∧ (!w.2) = true) ∧
    (let t : State := { s with l2 := (s.l2.filter fun e => e.1 != 0x8002) ++ [(0x8002, sector [])] }
     ∃ w v, (area t).on t = (.ok w, v) ∧ (w.2 && (parseArea w.1).isNone) = true) := by
  exact ⟨by decide +kernel, by decide +kernel, of_okWith (by decide +kernel), of_okWith (by decide +kernel), of_faults (by decide +kernel),
    of_faults (by decide +kernel), of_okWith (by decide +kernel), of_okWith (by decide +kernel)⟩

/-- A released context whose deadline was armed, with 5 microseconds left. -/
def releasedArmed : Area :=
  { state := 4, saved := { ctx := { Ctx.reset with dln := 2 ^ 63 }, rem := 5, graphs := [] }, blocks := [], groups := [], mats := [], copies := []
    sps := [], futs := [], dets := [], cards := [], counters := [], done := [] }

theorem witness_ContextCommandResults_load :
    let s : State := { restores 5 0x100000 1 with g := .idle }
    (s.creg.col.map (·.cmd)) = some 5 ∧ (restores 2 0x100000 1).creg.col.map (·.cmd) ≠ some 5 ∧
    (∃ a v, s.loadItems.on s = (.ok a, v) ∧ (a.any fun a => (v.loadArea a []).isSome &&
      (let x := v.loadRegs a
       okWith (x.loadReads a) x fun p w => (w.loadArea a p.1).isSome)) = true) ∧
    releasedArmed.saved.ctx.dln.getLsbD 63 = true := by
  exact ⟨by decide +kernel, by decide +kernel, of_okWith (by decide +kernel), by decide +kernel⟩

theorem witness_ContextCommandResults_release :
    let s : State := restores 4 0x100000 1
    let u : State := { s with again := false }
    let far : State := restores 4 (2 ^ 38) 1
    let other : State := restores 4 0x200000 1
    (∃ h v, (areaGet (ctxWho 7) 0x100000 64).on u = (.ok h, v) ∧
      (v.releasable h && (v.cx 7).run == .saved &&
       okWith (areaRest (ctxWho 7) 0x100000 (roundup (h.getD 2 0) 64)) v fun rest w =>
        rest.2.isEmpty &&
        (let ss := w.releaseSections 7 (areaSections (h ++ rest.1))
         decide (areaTotal ss ≤ w.creg.alen.toNat * 2 ^ 20) &&
         okWith (areaWrite (ctxWho 7) 0x100000 (modifyAt (fun _ => h.getD 3 0) (w.areaHeader 7 ss 4) 3) (areaBody ss)) w fun _ _ => true)) = true) ∧
    (∃ e v, (areaGet (ctxWho far.creg.ctx) far.creg.area.toNat 64).on { far with again := false } = (.error (.trap e), v) ∧ true = true) ∧
    (∃ h v, (areaGet (ctxWho other.creg.ctx) other.creg.area.toNat 64).on { other with again := false } = (.ok h, v) ∧ (!v.releasable h) = true) ∧
    (let t : State := { s with again := false, mem := [], l2 := (s.l2.filter fun e => e.1 != 0x8002) ++ [(0x8002, { sector [] with coh := 6 })] }
     ∃ h v, (areaGet (ctxWho 7) 0x100000 64).on t = (.ok h, v) ∧
      (okWith (areaRest (ctxWho 7) 0x100000 (roundup (h.getD 2 0) 64)) v fun rest _ =>
        rest.2.any fun o => decide (o < dirEnd (bits (h.getD 1 0) 63 32))) = true) := by
  exact ⟨of_okWith (by decide +kernel), of_faults (by decide +kernel), of_okWith (by decide +kernel), of_okWith (by decide +kernel)⟩

/-- A group with its lane 3 parked at SVCPC, on core 0 in slot 0. -/
theorem witness_ContextCommandResults_service :
    let s : State := { bus .docent 0x700028 8 0 with g := { one.g with lanes := one.g.lanes.map fun a => { a with st := .service, lpc := 0 } } }
    s.busTakes .svcrel ∧ (∃ g m, s.svcLanes s.bus = some (g, m) ∧ m ≠ 0) ∧ s.bus.mask = 2 ^ 64 - 1 ∧ s.bus.value < 2 ^ 64 ∧ one.svcLanes s.bus = none :=
  ⟨takes_iff (by decide +kernel), ⟨_, _, rfl, by decide +kernel⟩, by decide +kernel, by decide +kernel, by decide +kernel⟩

theorem witness_StepsKeepMemoryCanonical :
    Memory.wf one.mem = true ∧ Memory.wf one.hostmem = true ∧ Memory.wf one.sp = true ∧ ∃ t, step one = .next t :=
  ⟨by decide, by decide, by decide, _, rfl⟩

end Sys2Proof.Tests
end

namespace Sys2Proof.Machine

/-! ## System registers -/

theorem lowest_mem {x : BitVec 128} (h : x ≠ 0) : x.getLsbD (lowest x) = true := by
  unfold lowest
  cases hf : (List.range 128).find? fun l => x.getLsbD l with
  | some l => exact List.find?_some hf
  | none =>
    refine absurd (BitVec.eq_of_getLsbD_eq fun l hl => ?_) h
    have := List.find?_eq_none.mp hf l (List.mem_range.mpr hl)
    simpa using this

/-- Where the active lanes agree, uniform(F) is the value that they share (R327). -/
theorem State.uniform_of_agree (s : State) (n : Nat) {act : BitVec 128} (f : Nat → DWord) (body : DWord → State) {x : DWord}
    (hact : act ≠ 0) (h : ∀ l, act.getLsbD l = true → f l = x) : s.uniform n act f body = body x := by
  have hx : f (lowest act) = x := h _ (lowest_mem hact)
  have hd : unlike s.g.width act f = 0 := laneSet_eq_zero fun l _ => by
    cases hl : act.getLsbD l with
    | false => rfl
    | true => simp [h l hl, hx]
  simp only [State.uniform, hd, hx, if_true]

theorem State.raiseAll_eq (s : State) (n : Nat) {x : BitVec 128} (c : Cause) (hx : x ≠ 0) (hh : s.g.handler = false) :
    s.raiseAll n x c =
      { s with g := { s.g.modLanes x fun _ a => a.trap s.g.iss n c with iss := { s.g.iss with x := s.g.iss.x &&& ~~~x } } } := by
  unfold State.raiseAll State.raise
  rw [if_neg hx, if_neg (by simp [hh])]

/-- A trap outside the handler neither waits nor arms STEP. -/
theorem State.raiseAll_wait_stepping (s : State) (n : Nat) {x : BitVec 128} (c : Cause) (hx : x ≠ 0) (hh : s.g.handler = false) :
    (s.raiseAll n x c).g.iss.wait = s.g.iss.wait ∧ (s.raiseAll n x c).g.stepping = s.g.stepping := by
  rw [s.raiseAll_eq n c hx hh]; exact ⟨rfl, rfl⟩

theorem Group.handler_of_not_priv {g : Group} (h : g.priv = false) : g.handler = false := by
  simp only [Group.priv, Bool.or_eq_false_iff] at h; exact h.1

theorem Normal.runsSys {s : State} {h : Hdr} {regs : List VReg} (N : Normal s h [6] anyRole regs) (n : Nat) : Runs (.sys h regs n) s :=
  N.runs (.sys h regs n) rfl (by simp [Info.sys]) (fun _ _ => rfl) rfl nofun nofun

/-- The value that MOVS moves to a register of this width, in a lane (R433). -/
def movsVal (inf : SregInfo) (g : Group) (a : Src) (l : Nat) : DWord := if inf.wide then g.s64 a l else (g.s32 a l).zeroExtend 64

/-- The own effect of MOVS (R433). -/
def State.movsEffect (s : State) (h : Hdr) (n : Nat) (a : Src) (inf : SregInfo) : State :=
  let e := s.entered (len1 a)
  let act := s.g.active h
  if sregLane n then
    if sregPrivW n && !s.g.priv then e.raiseAll (len1 a) act (.mk0 cPERM)
    else { e with g := e.g.modLanes act fun l y => y.writeSreg n (movsVal inf s.g a l) }
  else
    e.uniform (len1 a) act (movsVal inf s.g a) fun x =>
      if sregPrivW n && !s.g.priv then e.raiseAll (len1 a) act (.mk0 cPERM)
      else e.memOnce (.sys h (Src.regs a) (len1 a)) act (writeSreg (s.who (lowest act)) n x.toNat)

section
variable {s : State} {h : Hdr} {sreg : BitVec 10} {a : Src} {inf : SregInfo} {x : DWord} {u : State}

theorem execMovs_eq (hi : sregInfo sreg.toNat = some inf) (N : Normal s h [6] anyRole (Src.regs a))
    (hu : s.movsEffect h sreg.toNat a inf = u) (hw : u.g.iss.wait = none) (hs : u.g.stepping = false) :
    exec (.movs h sreg a) s = .next (u.left (len1 a)).settle := by
  rw [exec_movs]
  unfold execMovs
  dsimp only
  rw [(N.runsSys (len1 a)).exact _ u ?_ hw hs]
  · rfl
  · rw [hi]; exact hu

/-- MOVS to a register of the group, the context, the core or the device (R433). -/
theorem execMovs_shared (hi : sregInfo sreg.toNat = some inf) (N : Normal s h [6] anyRole (Src.regs a))
    (hl : sregLane sreg.toNat = false) (hx : ∀ l, (s.g.active h).getLsbD l = true → movsVal inf s.g a l = x)
    (hp : sregPrivW sreg.toNat = false ∨ s.g.priv = true)
    (hu : (writeSreg (s.who (lowest (s.g.active h))) sreg.toNat x.toNat).on (s.entered (len1 a)) = (.ok (), u))
    (hw : u.g.iss.wait = none) (hs : u.g.stepping = false) : exec (.movs h sreg a) s = .next (u.left (len1 a)).settle := by
  refine execMovs_eq hi N ?_ hw hs
  have hq : ¬ (sregPrivW sreg.toNat && !s.g.priv) = true := by rcases hp with e | e <;> simp [e]
  simp only [State.movsEffect]
  rw [if_neg (by simp [hl]), State.uniform_of_agree _ _ _ _ N.act hx, if_neg hq]
  simp only [State.memOnce, hu]

/-- MOVS to a register of the lanes (R433). -/
theorem execMovs_lane (hi : sregInfo sreg.toNat = some inf) (N : Normal s h [6] anyRole (Src.regs a)) (hl : sregLane sreg.toNat = true)
    (hp : sregPrivW sreg.toNat = false ∨ s.g.priv = true) :
    exec (.movs h sreg a) s = .next (({ s.entered (len1 a) with
      g := (s.entered (len1 a)).g.modLanes (s.g.active h) fun l y => y.writeSreg sreg.toNat (movsVal inf s.g a l) }).left (len1 a)).settle := by
  have hq : ¬ (sregPrivW sreg.toNat && !s.g.priv) = true := by rcases hp with e | e <;> simp [e]
  exact execMovs_eq hi N (by simp only [State.movsEffect]; rw [if_pos hl, if_neg hq]) N.wait N.step

/-- MOVS to a register that needs privilege, without it (R431). -/
theorem execMovs_perm (hi : sregInfo sreg.toNat = some inf) (N : Normal s h [6] anyRole (Src.regs a))
    (hx : ∀ l, (s.g.active h).getLsbD l = true → movsVal inf s.g a l = x) (hp : sregPrivW sreg.toNat = true) (hq : s.g.priv = false) :
    exec (.movs h sreg a) s =
      .next (((s.entered (len1 a)).raiseAll (len1 a) (s.g.active h) (.mk0 cPERM)).left (len1 a)).settle := by
  obtain ⟨hw, hs⟩ := (s.entered (len1 a)).raiseAll_wait_stepping (len1 a) (.mk0 cPERM) N.act (Group.handler_of_not_priv hq)
  have hr : (sregPrivW sreg.toNat && !s.g.priv) = true := by simp [hp, hq]
  refine execMovs_eq hi N ?_ (hw.trans N.wait) (hs.trans N.step)
  simp only [State.movsEffect]
  rw [State.uniform_of_agree _ _ _ _ N.act hx]
  simp only [hr, if_true, ite_self]

end

/-! ### MOVSR -/

theorem RegsOnly.wk64 (g : Group) (d : KReg) (x : DWord) : RegsOnly g (g.wk64 d x) := (RegsOnly.wk ..).trans (.wk ..)

theorem wk64_fpctl (g : Group) (d : KReg) (x : DWord) : (g.wk64 d x).fpctl = g.fpctl := by simp [Group.wk64]

theorem Group.rk_wk64 (g : Group) (d r : KReg) (x : DWord) : (g.wk64 d x).rk r =
    if r.toNat = 63 then g.rk r else if r = d then x.truncate 32 else if r = d + 1 then x.extractLsb' 32 32 else g.rk r := by
  have hd : d ≠ d + 1 := by simp
  simp only [Group.wk64, Group.rk_wk]
  grind

theorem Group.rq_wq_self (g : Group) (r : QReg) (x : DWord) : (g.wq r x).rq r = x := Store.get_put_self ..

theorem Group.rq_wq_ne (g : Group) {r p : QReg} (x : DWord) (h : p ≠ r) : (g.wq r x).rq p = g.rq p :=
  Store.get_put_ne _ _ _ fun e => h (BitVec.eq_of_toNat_eq e)

/-- The group after MOVSR has read register n and written what d names (R434). -/
def State.movsrGroup (s : State) (act : BitVec 128) (d : SrDst) (n : Nat) (wide : Bool) : Group :=
  match d with
  | .q r => s.g.wq r (s.readSreg n (lowest act))
  | .k r => if wide then s.g.wk64 r (s.readSreg n (lowest act)) else s.g.wk r ((s.readSreg n (lowest act)).truncate 32)
  | .v r => (lanesIn act s.g.width).foldl
      (fun g l => if wide then g.wv64 r l (s.readSreg n l) else g.wv r l ((s.readSreg n l).truncate 32)) s.g

section
variable {s : State} {h : Hdr} {sreg : BitVec 10} {inf : SregInfo}

/-- MOVSR of a register that its destination may hold, with the privilege that it needs. -/
theorem execMovsr_eq (d : SrDst) (hi : sregInfo sreg.toNat = some inf) (N : Normal s h [6] anyRole (SrDst.regs d))
    (hp : (sregPrivR sreg.toNat && !s.g.priv) = false) (hq : (∃ q, d = .q q) ∨ sreg.toNat < 0x080) :
    exec (.movsr h d sreg) s = .next ({ s.begun (.sys h (SrDst.regs d) 1) with
      g := (s.begun (.sys h (SrDst.regs d) 1)).movsrGroup (s.g.active h) d sreg.toNat inf.wide }.finish (.sys h (SrDst.regs d) 1)) := by
  have hp' : ¬ (sregPrivR sreg.toNat && !(s.begun (.sys h (SrDst.regs d) 1)).g.priv) = true := ne_true_of_eq_false hp
  rw [exec_movsr]
  unfold execMovsr
  rw [(N.runsSys 1).issue]
  dsimp only
  rw [hi, if_neg ?_, if_neg hp']
  · cases d <;> rfl
  · rcases hq with ⟨q, rfl⟩ | hq
    · exact ne_true_of_eq_false (Bool.and_false _)
    · exact ne_true_of_eq_false (Bool.and_eq_false_imp.mpr fun e => absurd (of_decide_eq_true e) (Nat.not_le.mpr hq))

/-- MOVSR to a q register (R434). -/
theorem execMovsr_q (q : QReg) (hi : sregInfo sreg.toNat = some inf) (N : Normal s h [6] anyRole [])
    (hp : (sregPrivR sreg.toNat && !s.g.priv) = false) :
    ∃ t, exec (.movsr h (.q q) sreg) s = .next t ∧ t.g.rq q = (s.entered 1).readSreg sreg.toNat (lowest (s.g.active h)) ∧
      (∀ p, p ≠ q → t.g.rq p = s.g.rq p) ∧ (∀ r l, t.g.rv r l = s.g.rv r l) ∧ (∀ r, t.g.rk r = s.g.rk r) ∧ t.mem = s.mem ∧ t.sp = s.sp := by
  refine ⟨({ s.entered 1 with
    g := (s.entered 1).g.wq q ((s.entered 1).readSreg sreg.toNat (lowest (s.g.active h))) } : State).left 1, ?_,
    Group.rq_wq_self .., fun p hp => Group.rq_wq_ne _ _ hp, fun _ _ => rfl, fun _ => rfl, rfl, rfl⟩
  rw [execMovsr_eq (.q q) hi N hp (.inl ⟨q, rfl⟩), begun_entered _ N.wait]
  exact congrArg _ (finish_left _ N.wait N.step)

/-- MOVSR of a register that only q may hold to another one (R306). -/
theorem execMovsr_quar (r : VReg) (N : Normal s h [6] anyRole [r]) (hq : 0x080 ≤ sreg.toNat) (hh : s.g.handler = false) :
    exec (.movsr h (.v r) sreg) s = .next (((s.entered 1).raiseAll 1 (s.g.active h) (.mk0 cQUAR)).left 1) := by
  obtain ⟨hw, hs⟩ := (s.entered 1).raiseAll_wait_stepping 1 (.mk0 cQUAR) N.act hh
  rw [exec_movsr]
  unfold execMovsr
  refine (N.runsSys 1).exact _ _ ?_ (hw.trans N.wait) (hs.trans N.step)
  dsimp only
  exact if_pos (by simp [sregQ, hq])

/-- MOVSR to a k register or a k pair (R434). -/
theorem execMovsr_k (k : KReg) (hi : sregInfo sreg.toNat = some inf) (N : Normal s h [6] anyRole [])
    (hp : (sregPrivR sreg.toNat && !s.g.priv) = false) (hn : sreg.toNat < 0x080) :
    ∃ t, exec (.movsr h (.k k) sreg) s = .next t ∧
      if inf.wide then WritesK64 s t 1 k ((s.entered 1).readSreg sreg.toNat (lowest (s.g.active h)))
      else WritesK s t 1 k (((s.entered 1).readSreg sreg.toNat (lowest (s.g.active h))).truncate 32) := by
  refine ⟨_, execMovsr_eq (.k k) hi N hp (.inr hn), ?_⟩
  rw [← show s.begun (.sys h [] 1) = s.entered 1 from begun_entered _ N.wait]
  cases hw : inf.wide
  · exact (follows_regs _ s _ (.wk ..) N.wait N.step).congr (fun _ _ _ => Group.rv_wk ..) (fun _ => Group.rk_wk ..)
      (fun _ _ _ => Group.rp_wk ..) (wk_fpctl ..)
  · refine (follows_regs _ s _ (.wk64 ..) N.wait N.step).congr (fun _ _ _ => ?_) (fun _ => Group.rk_wk64 ..) (fun _ _ _ => ?_) (wk64_fpctl ..)
    · simp [Group.wk64]; rfl
    · simp [Group.wk64]; rfl

/-- MOVSR to v registers acts lane by lane, as a vector instruction whose lanes write what they read. -/
theorem execMovsr_vop (r : VReg) (f : Nat → List (VReg × Word)) (hi : sregInfo sreg.toNat = some inf) (N : Normal s h [6] anyRole [r])
    (hp : (sregPrivR sreg.toNat && !s.g.priv) = false) (hn : sreg.toNat < 0x080)
    (hf : (s.begun (.sys h [r] 1)).movsrGroup (s.g.active h) (.v r) sreg.toNat inf.wide =
      actAll (fun l => { v := f l }) (lanesIn (s.g.active h) s.g.width) (s.begun (.sys h [r] 1)).g) :
    exec (.movsr h (.v r) sreg) s = vop (.sys h [r] 1) s fun _ l => { v := f l } := by
  have hl := lanesOut_ok (s.begun (.sys h [r] 1)) 1 (s.g.active h) (fun l => { v := f l }) fun _ _ => cause_plain rfl nofun nofun
  rw [execMovsr_eq (.v r) hi N hp (.inr hn)]
  unfold vop
  rw [(N.runsSys 1).issue]
  refine congrArg (fun u => Host.Outcome.next (State.finish u (.sys h [r] 1))) (Eq.trans ?_ hl.symm)
  exact congrArg (fun g => { s.begun (.sys h [r] 1) with g := g }) hf

/-- MOVSR to a v register or a v pair (R434). -/
theorem execMovsr_v (r : VReg) (hi : sregInfo sreg.toNat = some inf) (N : Normal s h [6] anyRole [r])
    (hp : (sregPrivR sreg.toNat && !s.g.priv) = false) (hn : sreg.toNat < 0x080) :
    ∃ t, exec (.movsr h (.v r) sreg) s = .next t ∧
      if inf.wide then WritesV64 s t h 1 r fun l => (s.entered 1).readSreg sreg.toNat l
      else WritesV s t h 1 r fun l => ((s.entered 1).readSreg sreg.toNat l).truncate 32 := by
  have R : Runs (.sys h [r] 1) s := N.runsSys 1
  rw [← show s.begun (.sys h [r] 1) = s.entered 1 from begun_entered _ N.wait]
  cases hw : inf.wide
  · rw [execMovsr_vop r (fun l => [(r, ((s.begun (.sys h [r] 1)).readSreg sreg.toNat l).truncate 32)]) hi N hp hn (by rw [hw]; rfl)]
    exact R.vopV _ _ _ fun _ => rfl
  · rw [execMovsr_vop r (fun l => vwrites64 r ((s.begun (.sys h [r] 1)).readSreg sreg.toNat l)) hi N hp hn (by rw [hw]; rfl)]
    obtain ⟨t, ht, hf⟩ := R.vop2 (fun _ l => { v := vwrites64 r ((s.begun (.sys h [r] 1)).readSreg sreg.toNat l) }) r _ (fun _ => false) (fun _ => false) (fun _ => rfl) (by simp [someLane_false]) (by simp [someLane_false])
    rw [someLane_false, stickyFp_none] at hf
    exact ⟨t, ht, hf⟩

end

/-! ### Fields of the registers -/

@[simp] theorem cx_modCx (s : State) (c : Word) (f : Ctx → Ctx) : (s.modCx c f).cx c = f (s.cx c) := Store.get_put_self ..

@[simp] theorem core_modCore (s : State) (c : Nat) (f : Core → Core) : (s.modCore c f).core c = f (s.core c) := Store.get_put_self ..

/-- A write of n goes to its field alone: n reads back the bits of x in the mask, and every other register reads as before. -/
def KeepsField (w : Who) (s : State) (n mask x l : Nat) : Prop :=
  ∃ t, (writeSreg w n x).on s = (.ok (), t) ∧ t.readSreg n l = BitVec.ofNat 64 (x &&& mask) ∧
    (∀ m, (sregInfo m).isSome = true → m ≠ n → t.readSreg m l = s.readSreg m l) ∧ t.mem = s.mem ∧ t.sp = s.sp

theorem truncate_ofNat_and (x m : Nat) (h : m < 2 ^ 32) :
    (BitVec.ofNat 32 x &&& BitVec.ofNat 32 m).zeroExtend 64 = BitVec.ofNat 64 (x &&& m) := by
  apply BitVec.eq_of_toNat_eq
  have hl : x % 2 ^ 32 &&& m % 2 ^ 32 = x &&& m := by
    rw [← Nat.and_mod_two_pow, Nat.mod_eq_of_lt (Nat.lt_of_le_of_lt Nat.and_le_right h)]
  have hm : x &&& m < 2 ^ 64 := Nat.lt_of_le_of_lt Nat.and_le_right (by omega)
  simp only [BitVec.toNat_setWidth, BitVec.toNat_and, BitVec.toNat_ofNat, hl]

theorem keepsField_stk (w : Who) (s : State) (x l : Nat) : KeepsField w s 0x011 0xFF00FFFFFFFFFFC0 x l := by
  refine ⟨{ s with g := { s.g with stk := masked x 0xFF00FFFFFFFFFFC0 } }, rfl, rfl, fun m _ hm => ?_, rfl, rfl⟩
  simp only [State.readSreg, if_neg hm]; rfl

theorem keepsField_dbg (w : Who) (s : State) (x l : Nat) : KeepsField w s 0x012 0x3 x l := by
  refine ⟨{ s with g := { s.g with dbg := BitVec.ofNat 32 x &&& 3#32 } }, rfl, truncate_ofNat_and x 3 (by decide), fun m _ hm => ?_, rfl, rfl⟩
  simp only [State.readSreg, if_neg hm]; rfl

/-- A register of the running context. -/
theorem keepsField_ctx (w : Who) (s : State) (n mask x l : Nat) (f : Ctx → Ctx)
    (hw : writeSreg w n x = Mem.mod fun s => s.modCx s.g.ctx f)
    (hn : (s.modCx s.g.ctx f).readSreg n l = BitVec.ofNat 64 (x &&& mask))
    (hm : ∀ m, m ≠ n → (s.modCx s.g.ctx f).readSreg m l = s.readSreg m l) : KeepsField w s n mask x l :=
  ⟨s.modCx s.g.ctx f, by rw [hw]; rfl, hn, fun m _ => hm m, rfl, rfl⟩

theorem keepsField_atb (w : Who) (s : State) (x l : Nat) : KeepsField w s 0x020 0xFFFF01FFFFFFF000 x l := by
  refine keepsField_ctx w s _ _ x l (fun c => { c with atb := masked x 0xFFFF01FFFFFFF000 }) rfl ?_ fun m hm => ?_
  · simp [State.readSreg, masked]
  · simp only [State.readSreg, if_neg hm, modCx_g, cx_modCx]; rfl

theorem keepsField_tbase (w : Who) (s : State) (x l : Nat) : KeepsField w s 0x021 0xFFFFFFFFFFC3 x l := by
  refine keepsField_ctx w s _ _ x l (fun c => { c with tbase := masked x 0xFFFFFFFFFFC3 }) rfl ?_ fun m hm => ?_
  · simp [State.readSreg, masked]
  · simp only [State.readSreg, if_neg hm, modCx_g, cx_modCx]; rfl

theorem keepsField_dlnact (w : Who) (s : State) (x l : Nat) : KeepsField w s 0x023 0xFFFFFFFF x l := by
  refine keepsField_ctx w s _ _ x l (fun c => { c with dlnact := BitVec.ofNat 32 x }) rfl ?_ fun m hm => ?_
  · rw [← truncate_ofNat_and x _ (by decide), show BitVec.ofNat 32 x &&& 0xFFFFFFFF#32 = BitVec.ofNat 32 x from BitVec.and_allOnes]
    simp [State.readSreg]
  · simp only [State.readSreg, if_neg hm, modCx_g, cx_modCx]; rfl

theorem keepsField_bpb (w : Who) (s : State) (x l : Nat) : KeepsField w s 0x024 0xFFFFFFFFFF80 x l := by
  refine keepsField_ctx w s _ _ x l (fun c => { c with bpb := masked x 0xFFFFFFFFFF80 }) rfl ?_ fun m hm => ?_
  · simp [State.readSreg, masked]
  · simp only [State.readSreg, if_neg hm, modCx_g, cx_modCx]; rfl

theorem length_modifyAt {α : Type} (f : α → α) (l : List α) (n : Nat) : (modifyAt f l n).length = l.length := by
  induction l generalizing n with
  | nil => rfl
  | cons a as ih => cases n <;> simp [modifyAt, ih]

theorem getD_modifyAt {α : Type} (f : α → α) (l : List α) (n m : Nat) (d : α) (hn : n < l.length) :
    (modifyAt f l n).getD m d = if m = n then f (l.getD n d) else l.getD m d := by
  induction l generalizing n m with
  | nil => simp at hn
  | cons a as ih =>
    cases n with
    | zero => cases m <;> simp [modifyAt]
    | succ n =>
      cases m with
      | zero => simp [modifyAt]
      | succ m => simpa [modifyAt] using ih n m (by simpa using hn)

/-- A core's event counter i with its configuration x, from zero (R314). -/
def Core.configure (c : Core) (i : Nat) (x : Word) : Core :=
  { c with ecfg := modifyAt (fun _ => ecfgMask x) c.ecfg i, ecnt := modifyAt (fun _ => 0) c.ecnt i }

theorem sregInfo_gap {n : Nat} (h : (sregInfo n).isSome = true) : ¬ (0x057 < n ∧ n < 0x060) ∧ ¬ (0x083 < n ∧ n < 0x088) := by
  have hg : ∀ m ∈ List.range' 0x058 8 ++ List.range' 0x084 4, sregInfo m = none := by decide
  refine Decidable.byContradiction fun hc => ?_
  rw [hg n (List.mem_append.mpr (by rw [List.mem_range'_1, List.mem_range'_1]; omega))] at h
  cases h

theorem lt_eight_cases {i : Nat} (h : i < 8) : i = 0 ∨ i = 1 ∨ i = 2 ∨ i = 3 ∨ i = 4 ∨ i = 5 ∨ i = 6 ∨ i = 7 := by omega

theorem writeSreg_ecfg (w : Who) (s : State) {i : Nat} (x : Nat) (hi : i < 8) :
    (writeSreg w (0x060 + i) x).on s = (.ok (), s.modCore s.g.core fun c => c.configure i (BitVec.ofNat 32 x)) := by
  rcases lt_eight_cases hi with rfl | rfl | rfl | rfl | rfl | rfl | rfl | rfl <;> rfl

theorem readSreg_ecfg (s : State) (l : Nat) {i : Nat} (hi : i < 8) :
    s.readSreg (0x060 + i) l = ((s.core s.g.core).ecfg.getD i 0).zeroExtend 64 := by
  rcases lt_eight_cases hi with rfl | rfl | rfl | rfl | rfl | rfl | rfl | rfl <;> rfl

theorem readSreg_ecnt (s : State) (l : Nat) {i : Nat} (hi : i < 8) : s.readSreg (0x088 + i) l = (s.core s.g.core).ecnt.getD i 0 := by
  rcases lt_eight_cases hi with rfl | rfl | rfl | rfl | rfl | rfl | rfl | rfl <;> rfl

/-- The registers that are no event counter of a core do not depend on it. -/
theorem readSreg_modCore (s : State) (c : Nat) (f : Core → Core) {n : Nat} (l : Nat)
    (h : n ≤ 0x057 ∨ 0x067 < n ∧ n ≤ 0x083 ∨ 0x08F < n) : (s.modCore c f).readSreg n l = s.readSreg n l := by
  rcases h with h | ⟨h, h'⟩ | h
  · simp only [State.readSreg, h, if_true]; rfl
  · obtain h' | rfl | rfl | rfl | rfl : n ≤ 0x07F ∨ n = 0x080 ∨ n = 0x081 ∨ n = 0x082 ∨ n = 0x083 := by omega
    · simp only [State.readSreg, Nat.not_le.mpr h, h', if_true, if_false]; rfl
    all_goals rfl
  · simp only [State.readSreg, Nat.not_le.mpr h, show ¬ n ≤ 0x067 by omega, if_false]; rfl

/-- A write of the configuration of an event counter keeps its fields and clears the counter (R314). -/
theorem writeSreg_ecfg_fields (w : Who) (s : State) (x l : Nat) {i : Nat} (hi : i < 8) (hc : (s.core s.g.core).ecfg.length = 8)
    (hn : (s.core s.g.core).ecnt.length = 8) :
    ∃ t, (writeSreg w (0x060 + i) x).on s = (.ok (), t) ∧ t.readSreg (0x060 + i) l = BitVec.ofNat 64 (x &&& 0x800000FF) ∧
      t.readSreg (0x088 + i) l = 0 ∧
      ∀ n, (sregInfo n).isSome = true → n ≠ 0x060 + i → n ≠ 0x088 + i → t.readSreg n l = s.readSreg n l := by
  refine ⟨_, writeSreg_ecfg w s x hi, ?_, ?_, fun n h h1 h2 => ?_⟩
  · rw [readSreg_ecfg _ l hi, modCore_g, core_modCore, Core.configure, getD_modifyAt _ _ _ _ _ (hc ▸ hi), if_pos rfl]
    exact truncate_ofNat_and x 0x800000FF (by decide)
  · rw [readSreg_ecnt _ l hi, modCore_g, core_modCore, Core.configure, getD_modifyAt _ _ _ _ _ (hn ▸ hi), if_pos rfl]
  · obtain ⟨g1, g2⟩ := sregInfo_gap h
    by_cases k1 : 0x060 ≤ n ∧ n < 0x068
    · obtain ⟨j, rfl⟩ : ∃ j, n = 0x060 + j := ⟨n - 0x060, by omega⟩
      rw [readSreg_ecfg _ l (by omega), readSreg_ecfg _ l (by omega), modCore_g, core_modCore, Core.configure,
        getD_modifyAt _ _ _ _ _ (hc ▸ hi), if_neg (by omega)]
    · by_cases k2 : 0x088 ≤ n ∧ n < 0x090
      · obtain ⟨j, rfl⟩ : ∃ j, n = 0x088 + j := ⟨n - 0x088, by omega⟩
        rw [readSreg_ecnt _ l (by omega), readSreg_ecnt _ l (by omega), modCore_g, core_modCore, Core.configure,
          getD_modifyAt _ _ _ _ _ (hn ▸ hi), if_neg (by omega)]
      · exact readSreg_modCore _ _ _ _ (by omega)

/-- FPCTL, bit by bit (R245). -/
theorem fpctlWrite_getLsbD (old x : Word) (i : Nat) : (fpctlWrite old x).getLsbD i =
    if i = 0 then (x.getLsbD 0 || old.getLsbD 3) else if i = 1 ∨ i = 2 then x.getLsbD i
    else if i = 3 then old.getLsbD 3 else if i = 4 ∨ i = 5 then (old.getLsbD i && !x.getLsbD i) else false := by
  by_cases h : i < 32
  · have h1 : ∀ i < 32, (0x1#32).getLsbD i = decide (i = 0) := by decide
    have h6 : ∀ i < 32, (0x6#32).getLsbD i = decide (i = 1 ∨ i = 2) := by decide
    have h7 : ∀ i < 32, (0x7#32).getLsbD i = decide (i = 0 ∨ i = 1 ∨ i = 2) := by decide
    have h8 : ∀ i < 32, (0x8#32).getLsbD i = decide (i = 3) := by decide
    have h30 : ∀ i < 32, (0x30#32).getLsbD i = decide (i = 4 ∨ i = 5) := by decide
    unfold fpctlWrite
    cases h3 : old.getLsbD 3 <;>
      simp only [BitVec.getLsbD_or, BitVec.getLsbD_and, BitVec.getLsbD_not, h, h1 i h, h6 i h, h7 i h, h8 i h, h30 i h, if_true, if_false,
        Bool.false_eq_true] <;>
      grind
  · rw [BitVec.getLsbD_of_ge _ _ (by omega)]
    grind

/-- What a write of FPCTL reads back (R245). -/
theorem writeSreg_fpctl_fields (w : Who) (s : State) (x l : Nat) :
    ∃ t, (writeSreg w 0x010 x).on s = (.ok (), t) ∧
      ∀ i, i < 64 → (t.readSreg 0x010 l).getLsbD i =
        if i = 0 then (x.testBit 0 || s.g.fpctl.getLsbD 3) else if i = 1 ∨ i = 2 then x.testBit i
        else if i = 3 then s.g.fpctl.getLsbD 3 else if i = 4 ∨ i = 5 then (s.g.fpctl.getLsbD i && !x.testBit i) else false := by
  refine ⟨{ s with g := { s.g with fpctl := fpctlWrite s.g.fpctl (BitVec.ofNat 32 x) } }, rfl, fun i hi => ?_⟩
  have hx : ∀ j, j < 32 → (BitVec.ofNat 32 x).getLsbD j = x.testBit j := fun j hj => by rw [BitVec.getLsbD_ofNat]; simp [hj]
  show ((fpctlWrite s.g.fpctl (BitVec.ofNat 32 x)).zeroExtend 64).getLsbD i = _
  rw [BitVec.getLsbD_setWidth, fpctlWrite_getLsbD]
  grind

end Sys2Proof.Machine

namespace Sys2Proof.Machine

/-- Settles O43: MOVS and MOVSR by their own effects (R433, R434), and the fields by what a read after a write returns. -/
theorem systemRegisterResults : Obligations.SystemRegisterResults := by
  unfold Obligations.SystemRegisterResults
  refine ⟨fun s h sreg a r k q x u inf => ?_, fun s w x l => ⟨?_, fun i hi hc hn => ?_, ?_⟩⟩
  · intro n e act val read hi
    have priv (hp : sregPrivR n = false ∨ s.g.priv = true) : (sregPrivR sreg.toNat && !s.g.priv) = false := by
      rcases hp with e | e
      · simp [show sregPrivR sreg.toNat = false from e]
      · simp [e]
    exact ⟨fun N => ⟨execMovs_shared hi N, execMovs_lane hi N, execMovs_perm hi N⟩,
      fun N hp => ⟨execMovsr_q q hi N (priv hp), execMovsr_k k hi N (priv hp)⟩,
      fun N hp => execMovsr_v r hi N (priv hp), execMovsr_quar r⟩
  · simp only [List.forall_mem_cons]
    exact ⟨keepsField_stk w s x l, keepsField_dbg w s x l, keepsField_atb w s x l, keepsField_tbase w s x l, keepsField_dlnact w s x l,
      keepsField_bpb w s x l, nofun⟩
  · exact writeSreg_ecfg_fields w s x l hi hc hn
  · exact writeSreg_fpctl_fields w s x l

end Sys2Proof.Machine

namespace Sys2Proof

/-! ## Bits of a register after an access -/

theorem add_eq_or_of_and_eq_zero {x y : Nat} (h : x &&& y = 0) : x + y = x ||| y := by
  have hl : x + y < 2 ^ (x + y) := Nat.lt_two_pow_self
  have hx : x % 2 ^ (x + y) = x := Nat.mod_eq_of_lt (by omega)
  have hy : y % 2 ^ (x + y) = y := Nat.mod_eq_of_lt (by omega)
  have hand : BitVec.ofNat (x + y) x &&& BitVec.ofNat (x + y) y = 0#(x + y) := by
    apply BitVec.eq_of_toNat_eq
    simp [hx, hy, h]
  have hsum := congrArg BitVec.toNat (BitVec.add_eq_or_of_and_eq_zero _ _ hand)
  simpa [hx, hy, Nat.mod_eq_of_lt hl] using hsum

/-- A number with the bits of a mask replaced. -/
theorem testBit_merge (old v m i : Nat) :
    ((old - (old &&& m)) + (v &&& m)).testBit i = if m.testBit i then v.testBit i else old.testBit i := by
  have hkeep (x y : Nat) : (x ^^^ (x &&& y)) &&& y = 0 := by
    apply Nat.eq_of_testBit_eq
    intro j
    simp only [Nat.testBit_and, Nat.testBit_xor, Nat.zero_testBit]
    cases x.testBit j <;> cases y.testBit j <;> rfl
  have hsplit : (old ^^^ (old &&& m)) + (old &&& m) = old := by
    rw [add_eq_or_of_and_eq_zero]
    · apply Nat.eq_of_testBit_eq
      intro j
      simp only [Nat.testBit_and, Nat.testBit_or, Nat.testBit_xor]
      cases old.testBit j <;> cases m.testBit j <;> rfl
    · rw [Nat.and_comm old m, ← Nat.and_assoc, Nat.and_comm m old, hkeep, Nat.zero_and]
  have hrest : old - (old &&& m) = old ^^^ (old &&& m) := by omega
  have hdisj : (old ^^^ (old &&& m)) &&& (v &&& m) = 0 := by
    rw [Nat.and_comm v m, ← Nat.and_assoc, hkeep, Nat.zero_and]
  rw [hrest, add_eq_or_of_and_eq_zero hdisj]
  simp only [Nat.testBit_or, Nat.testBit_and, Nat.testBit_xor]
  cases old.testBit i <;> cases v.testBit i <;> cases m.testBit i <;> rfl

theorem testBit_bits (x hi lo i : Nat) : (bits x hi lo).testBit i = (decide (i < hi + 1 - lo) && x.testBit (lo + i)) := by
  rw [bits, Nat.testBit_mod_two_pow, Nat.testBit_shiftRight]

theorem testBit_maskOf (lo n i : Nat) : (Machine.maskOf lo n).testBit i = (decide (lo ≤ i) && decide (i < lo + n)) := by
  rw [Machine.maskOf, Nat.testBit_mul_two_pow, Nat.testBit_two_pow_sub_one]
  grind

/-- A bit of a register after an access: the bit written, where the access covers it (R83). -/
def Access.bitOf (a : Access) (old i : Nat) : Bool := if a.mask.testBit i then a.value.testBit i else old.testBit i

theorem Access.testBit_fieldOf (a : Access) (old hi lo i : Nat) :
    (a.fieldOf old hi lo).testBit i = (decide (i < hi + 1 - lo) && a.bitOf old (lo + i)) := by
  simp only [Access.fieldOf, testBit_bits, testBit_merge, Nat.testBit_and, testBit_maskOf, Access.bitOf]
  grind

theorem Access.fieldOf_lt (a : Access) (old hi lo : Nat) : a.fieldOf old hi lo < 2 ^ (hi + 1 - lo) :=
  Nat.mod_lt _ (Nat.two_pow_pos _)

/-- Fields that hold what the access leaves make up the bits of the mask that they cover. -/
theorem Access.testBit_of_fields {a : Access} {old new rw : Nat} (fs : List (Nat × Nat))
    (hc : ∀ i, rw.testBit i = true → ∃ e ∈ fs, e.2 ≤ i ∧ i ≤ e.1) (h : ∀ e ∈ fs, bits new e.1 e.2 = a.fieldOf old e.1 e.2)
    (i : Nat) (hi : rw.testBit i = true) : new.testBit i = a.bitOf old i := by
  obtain ⟨e, he, hlo, hhi⟩ := hc i hi
  have hb := congrArg (Nat.testBit · (i - e.2)) (h e he)
  simp only [testBit_bits, Access.testBit_fieldOf, show e.2 + (i - e.2) = i by omega, show i - e.2 < e.1 + 1 - e.2 by omega,
    decide_true, Bool.true_and] at hb
  exact hb

/-- The fields of a mask of 64 bits. -/
theorem covers_of_fields {rw : Nat} (fs : List (Nat × Nat)) (h : rw < 2 ^ 64)
    (hf : ∀ i, i < 64 → rw.testBit i = true → ∃ e ∈ fs, e.2 ≤ i ∧ i ≤ e.1) (i : Nat) (hi : rw.testBit i = true) :
    ∃ e ∈ fs, e.2 ≤ i ∧ i ≤ e.1 := by
  refine hf i ?_ hi
  refine Decidable.byContradiction fun hn => ?_
  rw [Nat.testBit_lt_two_pow (Nat.lt_of_lt_of_le h (Nat.pow_le_pow_right (by decide) (by omega)))] at hi
  cases hi

end Sys2Proof

namespace Sys2Proof.Machine

/-- What a register holds, where its block answers. -/
def State.regValue (s : State) (r : Reg) : Nat :=
  match r with
  | .devstat => s.devstat
  | .pwrbud => s.pwr.bud
  | .pwrshr n => (s.pwr.shares.getD n 0).toNat
  | .pwrlim c => (Store.get limReset s.pwr.lims c).toNat
  | .mscrub => s.mscrub.toNat
  | .mrep c => (s.chan c).rep
  | .mlane c => (s.chan c).lanes
  | .slnk n => (s.link n).status
  | .sroute => s.coh.sroute.toNat
  | .sdom => s.coh.sdom
  | .smigc => s.coh.smigc
  | .smigs => s.coh.smigs.toNat
  | .smigd => s.coh.smigd.toNat
  | .sqbase n => (s.sq n).sqbase.toNat
  | .sqcfg n => (s.sq n).cfg
  | .sqhead n => (s.sq n).headReg
  | .cqbase n => (s.sq n).cqbase.toNat
  | .cqctl n => (s.sq n).cqctl
  | .win n => winRead (s.win.getD n 0).toNat
  | .errbase => s.err.baseReg
  | .errctl => s.err.ctl
  | .trbase => s.trap.baseReg
  | .trctl => s.trap.ctl
  | .fwmbx => s.fw.mbx
  | .ctxcmd => s.creg.cmdReg
  | .ctxst => s.creg.st
  | .svcpc => s.creg.svcpc.toNat
  | .svctgt => s.creg.svctgt.toNat
  | .sqdb _ | .svcrel | .gap => 0

/-! What each register with read-write fields holds. -/

section
variable (s : State)

theorem regValue_pwrshr (n : Nat) : s.regValue (.pwrshr n) = (s.pwr.shares.getD n 0).toNat := rfl

theorem regValue_mscrub : s.regValue .mscrub = s.mscrub.toNat := rfl

theorem regValue_mrep (c : Nat) : s.regValue (.mrep c) = (s.chan c).rep := rfl

theorem regValue_sroute : s.regValue .sroute = s.coh.sroute.toNat := rfl

theorem regValue_smigc : s.regValue .smigc = s.coh.smigc := rfl

theorem regValue_smigs : s.regValue .smigs = s.coh.smigs.toNat := rfl

theorem regValue_smigd : s.regValue .smigd = s.coh.smigd.toNat := rfl

theorem regValue_sqbase (n : Nat) : s.regValue (.sqbase n) = (s.sq n).sqbase.toNat := rfl

theorem regValue_cqbase (n : Nat) : s.regValue (.cqbase n) = (s.sq n).cqbase.toNat := rfl

theorem regValue_win (n : Nat) : s.regValue (.win n) = winRead (s.win.getD n 0).toNat := rfl

theorem regValue_fwmbx : s.regValue .fwmbx = s.fw.mbx := rfl

theorem regValue_ctxcmd : s.regValue .ctxcmd = s.creg.cmdReg := rfl

theorem regValue_ctxst : s.regValue .ctxst = s.creg.st := rfl

theorem regValue_svcpc : s.regValue .svcpc = s.creg.svcpc.toNat := rfl

theorem regValue_svctgt : s.regValue .svctgt = s.creg.svctgt.toNat := rfl

end

theorem regRead_eq (s : State) (off : Nat) : s.regRead off = if s.assigned (regAt off) then s.regValue (regAt off) else 0 := by
  unfold State.regRead
  generalize regAt off = r
  dsimp only
  cases s.assigned r
  · rfl
  · simp only [Bool.not_true, if_true, if_false, Bool.false_eq_true]
    cases r <;> rfl

@[simp] theorem chan_setChan (s : State) (n m : Nat) (c : MChan) : (s.setChan n c).chan m = if m = n then c else s.chan m := Store.get_put ..

@[simp] theorem link_setLink (s : State) (n m : Nat) (c : Link) : (s.setLink n c).link m = if m = n then c else s.link m := Store.get_put ..

@[simp] theorem sq_setSq (s : State) (n m : Nat) (c : SQ) : (s.setSq n c).sq m = if m = n then c else s.sq m := Store.get_put ..

/-! ### Writes of plain registers -/

theorem execRegisterWrite_takes {s : State} {r : Reg} (h : s.busTakes r) : exec .registerWrite s = .next (s.plainWrite r s.bus) := by
  obtain ⟨hok, hr, ha, hw⟩ := h
  rw [exec_registerWrite]
  unfold execRegisterWrite regOp State.regWrite
  simp [hok, hr, ha, hw]

/-- From s to t the write on the bus has stored the read-write fields of register r and changed no other register, and nothing outside
the registers. -/
def StoresFields (s t : State) (r : Reg) (rw : Nat) : Prop :=
  (∀ i, rw.testBit i = true → (t.regRead s.bus.off).testBit i =
    if s.bus.mask.testBit i then s.bus.value.testBit i else (s.regRead s.bus.off).testBit i) ∧
  (∀ o, regAt o ≠ r → t.regRead o = s.regRead o) ∧ t.pwr.shares.length = s.pwr.shares.length ∧ t.win.length = s.win.length ∧
  t.mem = s.mem ∧ t.groups = s.groups ∧ t.g = s.g ∧ t.cores = s.cores ∧ t.tasks = s.tasks ∧ t.l2 = s.l2

/-- Everything outside the registers is as before, and so are the numbers of registers and the registers that answer. -/
def RegistersOnly (s t : State) : Prop :=
  (∀ q, t.assigned q = s.assigned q) ∧ t.pwr.shares.length = s.pwr.shares.length ∧ t.win.length = s.win.length ∧
  t.mem = s.mem ∧ t.groups = s.groups ∧ t.g = s.g ∧ t.cores = s.cores ∧ t.tasks = s.tasks ∧ t.l2 = s.l2

theorem storesFields_of {s t : State} {r : Reg} {rw : Nat} (h : s.busTakes r) (hr : RegistersOnly s t)
    (hb : ∀ i, rw.testBit i = true → (t.regValue r).testBit i = s.bus.bitOf (s.regValue r) i)
    (hq : ∀ q, q ≠ r → t.regValue q = s.regValue q) : StoresFields s t r rw := by
  obtain ⟨_, hoff, ha, _⟩ := h
  obtain ⟨ht, hr⟩ := hr
  refine ⟨fun i hi => ?_, fun o ho => ?_, hr⟩
  · simpa [regRead_eq, ht, hoff, ha, Access.bitOf] using hb i hi
  · rw [regRead_eq, regRead_eq, ht, hq _ ho]

/-- A register whose fields hold what the access leaves. -/
theorem storesFields_of_fields {s t : State} {r : Reg} {rw : Nat} (fs : List (Nat × Nat)) (h : s.busTakes r) (hr : RegistersOnly s t)
    (hrw : rw < 2 ^ 64) (hc : ∀ i, i < 64 → rw.testBit i = true → ∃ e ∈ fs, e.2 ≤ i ∧ i ≤ e.1)
    (hf : ∀ e ∈ fs, bits (t.regValue r) e.1 e.2 = s.bus.fieldOf (s.regValue r) e.1 e.2)
    (hq : ∀ q, q ≠ r → t.regValue q = s.regValue q) : StoresFields s t r rw :=
  storesFields_of h hr (Access.testBit_of_fields fs (covers_of_fields fs hrw hc) hf) hq

theorem toNat_ofNat_fieldOf (a : Access) (w old hi lo : Nat) (h : hi + 1 - lo ≤ w) :
    (BitVec.ofNat w (a.fieldOf old hi lo)).toNat = a.fieldOf old hi lo := by
  rw [BitVec.toNat_ofNat]
  exact Nat.mod_eq_of_lt (Nat.lt_of_lt_of_le (a.fieldOf_lt old hi lo) (Nat.pow_le_pow_right (by decide) h))

/-- What a write of a channel leaves of it reads as before in every channel. -/
theorem chan_setChan_same {β : Type} (p : MChan → β) {s : State} {n : Nat} {c : MChan} (hp : p c = p (s.chan n)) (m : Nat) :
    p ((s.setChan n c).chan m) = p (s.chan m) := by
  rw [chan_setChan]
  split
  · next e => rw [e, hp]
  · rfl

/-- What a write of a ring's registers leaves of them reads as before in every ring. -/
theorem sq_setSq_same {β : Type} (p : SQ → β) {s : State} {n : Nat} {c : SQ} (hp : p c = p (s.sq n)) (m : Nat) :
    p ((s.setSq n c).sq m) = p (s.sq m) := by
  rw [sq_setSq]
  split
  · next e => rw [e, hp]
  · rfl

/-- HOST and BASE of a ring's base register after a write (R105). -/
theorem ringBaseWrite_fields (a : Access) (old : DWord) :
    bits (ringBaseWrite a old).toNat 63 63 = a.fieldOf old.toNat 63 63 ∧ bits (ringBaseWrite a old).toNat 47 12 = a.fieldOf old.toNat 47 12 := by
  have h1 := a.fieldOf_lt old.toNat 63 63
  have h2 := a.fieldOf_lt old.toNat 47 12
  simp only [ringBaseWrite, bits, Nat.shiftRight_eq_div_pow, BitVec.toNat_ofNat]
  omega

section
variable {s : State}

theorem storesFields_smigc (h : s.busTakes .smigc) (x : BitVec 2) (hx : x.toNat = s.bus.fieldOf s.coh.smigc 25 24) :
    StoresFields s { s with coh := { s.coh with smigSize := x } } .smigc 0x3000000 := by
  refine storesFields_of_fields [(25, 24)] h ⟨fun _ => rfl, rfl, rfl, rfl, rfl, rfl, rfl, rfl, rfl⟩ (by decide) (by decide) ?_ fun q hq => ?_
  · simp only [List.forall_mem_singleton, regValue_smigc, ← hx]
    simp only [Coh.smigc, b2n, bits, Nat.shiftRight_eq_div_pow]
    omega
  · cases q
    case smigc => exact absurd rfl hq
    all_goals rfl

theorem storesFields_smigs (h : s.busTakes .smigs) (x : DWord) (hx : x.toNat = s.bus.fieldOf s.coh.smigs.toNat 40 12 * 4096) :
    StoresFields s { s with coh := { s.coh with smigs := x } } .smigs 0x1FFFFFFF000 := by
  refine storesFields_of_fields [(40, 12)] h ⟨fun _ => rfl, rfl, rfl, rfl, rfl, rfl, rfl, rfl, rfl⟩ (by decide) (by decide) ?_ fun q hq => ?_
  · have hf := s.bus.fieldOf_lt s.coh.smigs.toNat 40 12
    simp only [List.forall_mem_singleton, regValue_smigs, bits, Nat.shiftRight_eq_div_pow]
    omega
  · cases q
    case smigs => exact absurd rfl hq
    all_goals rfl

theorem storesFields_smigd (h : s.busTakes .smigd) (x : DWord) (hx : x.toNat = s.bus.fieldOf s.coh.smigd.toNat 40 12 * 4096) :
    StoresFields s { s with coh := { s.coh with smigd := x } } .smigd 0x1FFFFFFF000 := by
  refine storesFields_of_fields [(40, 12)] h ⟨fun _ => rfl, rfl, rfl, rfl, rfl, rfl, rfl, rfl, rfl⟩ (by decide) (by decide) ?_ fun q hq => ?_
  · have hf := s.bus.fieldOf_lt s.coh.smigd.toNat 40 12
    simp only [List.forall_mem_singleton, regValue_smigd, bits, Nat.shiftRight_eq_div_pow]
    omega
  · cases q
    case smigd => exact absurd rfl hq
    all_goals rfl

theorem storesFields_svcpc (h : s.busTakes .svcpc) (x : DWord) (hx : x.toNat = s.bus.fieldOf s.creg.svcpc.toNat 47 3 * 8) :
    StoresFields s { s with creg := { s.creg with svcpc := x } } .svcpc 0xFFFFFFFFFFF8 := by
  refine storesFields_of_fields [(47, 3)] h ⟨fun _ => rfl, rfl, rfl, rfl, rfl, rfl, rfl, rfl, rfl⟩ (by decide) (by decide) ?_ fun q hq => ?_
  · have hf := s.bus.fieldOf_lt s.creg.svcpc.toNat 47 3
    simp only [List.forall_mem_singleton, regValue_svcpc, bits, Nat.shiftRight_eq_div_pow]
    omega
  · cases q
    case svcpc => exact absurd rfl hq
    all_goals rfl

theorem storesFields_svctgt (h : s.busTakes .svctgt) (x : DWord) (hx : x.toNat = s.bus.fieldOf s.creg.svctgt.toNat 47 3 * 8) :
    StoresFields s { s with creg := { s.creg with svctgt := x } } .svctgt 0xFFFFFFFFFFF8 := by
  refine storesFields_of_fields [(47, 3)] h ⟨fun _ => rfl, rfl, rfl, rfl, rfl, rfl, rfl, rfl, rfl⟩ (by decide) (by decide) ?_ fun q hq => ?_
  · have hf := s.bus.fieldOf_lt s.creg.svctgt.toNat 47 3
    simp only [List.forall_mem_singleton, regValue_svctgt, bits, Nat.shiftRight_eq_div_pow]
    omega
  · cases q
    case svctgt => exact absurd rfl hq
    all_goals rfl

theorem storesFields_ctxst (h : s.busTakes .ctxst) (x : Half) (hx : x.toNat = s.bus.fieldOf s.creg.st 31 16) :
    StoresFields s { s with creg := { s.creg with alen := x } } .ctxst 0xFFFF0000 := by
  refine storesFields_of_fields [(31, 16)] h ⟨fun _ => rfl, rfl, rfl, rfl, rfl, rfl, rfl, rfl, rfl⟩ (by decide) (by decide) ?_ fun q hq => ?_
  · simp only [List.forall_mem_singleton, regValue_ctxst, ← hx]
    simp only [CtxRegs.st, b2n, bits, Nat.shiftRight_eq_div_pow]
    omega
  · cases q
    case ctxst => exact absurd rfl hq
    all_goals rfl

theorem storesFields_ctxcmd (h : s.busTakes .ctxcmd) (x : DWord) (c : Word) (hx : x.toNat = s.bus.fieldOf s.creg.cmdReg 60 32 * 4096)
    (hc : c.toNat = s.bus.fieldOf s.creg.cmdReg 31 0) :
    StoresFields s { s with creg := { s.creg with area := x, ctx := c } } .ctxcmd 0x1FFFFFFFFFFFFFFF := by
  refine storesFields_of_fields [(60, 32), (31, 0)] h ⟨fun _ => rfl, rfl, rfl, rfl, rfl, rfl, rfl, rfl, rfl⟩ (by decide) (by decide) ?_ fun q hq => ?_
  · have hf := s.bus.fieldOf_lt s.creg.cmdReg 60 32
    simp only [List.forall_mem_cons, regValue_ctxcmd, ← hc]
    generalize s.bus.fieldOf s.creg.cmdReg 60 32 = f at *
    simp only [CtxRegs.cmdReg, bits, Nat.shiftRight_eq_div_pow]
    exact ⟨by omega, by omega, nofun⟩
  · cases q
    case ctxcmd => exact absurd rfl hq
    all_goals rfl

theorem storesFields_fwmbx (h : s.busTakes .fwmbx) (x : BitVec 36) (b : Bool) (hx : x.toNat = s.bus.fieldOf s.fw.mbx 47 12)
    (hb : b.toNat = s.bus.fieldOf s.fw.mbx 0 0) :
    StoresFields s { s with fw := { s.fw with mbaddr := x, mbhost := b } } .fwmbx 0xFFFFFFFFF001 := by
  refine storesFields_of_fields [(47, 12), (0, 0)] h ⟨fun _ => rfl, rfl, rfl, rfl, rfl, rfl, rfl, rfl, rfl⟩ (by decide) (by decide) ?_ fun q hq => ?_
  · have hb1 := b.toNat_le
    simp only [List.forall_mem_cons, regValue_fwmbx, ← hx, ← hb]
    simp only [Firm.mbx, b2n, bits, Nat.shiftRight_eq_div_pow]
    exact ⟨by omega, by omega, nofun⟩
  · cases q
    case fwmbx => exact absurd rfl hq
    all_goals rfl

theorem storesFields_mscrub (h : s.busTakes .mscrub) (x : Word) (hx : x.toNat / 2 ^ 31 = s.bus.fieldOf s.mscrub.toNat 31 31) :
    StoresFields s { s with mscrub := x } .mscrub 0x80000000 := by
  refine storesFields_of_fields [(31, 31)] h ⟨fun _ => rfl, rfl, rfl, rfl, rfl, rfl, rfl, rfl, rfl⟩ (by decide) (by decide) ?_ fun q hq => ?_
  · simp only [List.forall_mem_singleton, regValue_mscrub, bits, Nat.shiftRight_eq_div_pow]
    omega
  · cases q
    case mscrub => exact absurd rfl hq
    all_goals rfl

theorem storesFields_mrep {c : Nat} (h : s.busTakes (.mrep c)) (sub : Bool) (lane : BitVec 5) (line : BitVec 26)
    (hs : sub.toNat = s.bus.fieldOf (s.chan c).rep 40 40) (ha : lane.toNat = s.bus.fieldOf (s.chan c).rep 34 30)
    (hl : line.toNat = s.bus.fieldOf (s.chan c).rep 25 0) :
    StoresFields s (s.setChan c { s.chan c with sub := sub, lane := lane, line := line }) (.mrep c) 0x107C3FFFFFF := by
  refine storesFields_of_fields [(40, 40), (34, 30), (25, 0)] h ⟨fun _ => rfl, rfl, rfl, rfl, rfl, rfl, rfl, rfl, rfl⟩ (by decide) (by decide) ?_ fun q hq => ?_
  · have hs1 := sub.toNat_le
    simp only [List.forall_mem_cons, regValue_mrep, ← hs, ← ha, ← hl, chan_setChan, if_true]
    simp only [MChan.rep, b2n, bits, Nat.shiftRight_eq_div_pow]
    exact ⟨by omega, by omega, by omega, nofun⟩
  · cases q
    case mrep d => exact congrArg MChan.rep ((chan_setChan ..).trans (if_neg fun e => hq (congrArg Reg.mrep e)))
    case mlane d => refine chan_setChan_same MChan.lanes ?_ d; rfl
    all_goals rfl

theorem storesFields_sqbase {n : Nat} (h : s.busTakes (.sqbase n)) (x : DWord) (hx : x = ringBaseWrite s.bus (s.sq n).sqbase) :
    StoresFields s (s.setSq n { s.sq n with sqbase := x }) (.sqbase n) 0x8000FFFFFFFFF000 := by
  refine storesFields_of_fields [(63, 63), (47, 12)] h ⟨fun _ => rfl, rfl, rfl, rfl, rfl, rfl, rfl, rfl, rfl⟩ (by decide) (by decide) ?_ fun q hq => ?_
  · simp only [List.forall_mem_cons, regValue_sqbase, sq_setSq, if_true, hx]
    exact ⟨(ringBaseWrite_fields ..).1, (ringBaseWrite_fields ..).2, nofun⟩
  · cases q
    case sqbase d => exact congrArg (fun q : SQ => q.sqbase.toNat) ((sq_setSq ..).trans (if_neg fun e => hq (congrArg Reg.sqbase e)))
    case sqcfg d => refine sq_setSq_same SQ.cfg ?_ d; rfl
    case sqhead d => refine sq_setSq_same SQ.headReg ?_ d; rfl
    case cqbase d => refine sq_setSq_same (fun q : SQ => q.cqbase.toNat) ?_ d; rfl
    case cqctl d => refine sq_setSq_same SQ.cqctl ?_ d; rfl
    all_goals rfl

theorem storesFields_cqbase {n : Nat} (h : s.busTakes (.cqbase n)) (x : DWord) (hx : x = ringBaseWrite s.bus (s.sq n).cqbase) :
    StoresFields s (s.setSq n { s.sq n with cqbase := x }) (.cqbase n) 0x8000FFFFFFFFF000 := by
  refine storesFields_of_fields [(63, 63), (47, 12)] h ⟨fun _ => rfl, rfl, rfl, rfl, rfl, rfl, rfl, rfl, rfl⟩ (by decide) (by decide) ?_ fun q hq => ?_
  · simp only [List.forall_mem_cons, regValue_cqbase, sq_setSq, if_true, hx]
    exact ⟨(ringBaseWrite_fields ..).1, (ringBaseWrite_fields ..).2, nofun⟩
  · cases q
    case cqbase d => exact congrArg (fun q : SQ => q.cqbase.toNat) ((sq_setSq ..).trans (if_neg fun e => hq (congrArg Reg.cqbase e)))
    case sqcfg d => refine sq_setSq_same SQ.cfg ?_ d; rfl
    case sqhead d => refine sq_setSq_same SQ.headReg ?_ d; rfl
    case sqbase d => refine sq_setSq_same (fun q : SQ => q.sqbase.toNat) ?_ d; rfl
    case cqctl d => refine sq_setSq_same SQ.cqctl ?_ d; rfl
    all_goals rfl

theorem storesFields_sroute (h : s.busTakes .sroute) (x : Word)
    (hx : x = BitVec.ofNat 32 (s.bus.fieldOf s.coh.sroute.toNat 31 0 &&& 0xBBBBBBBB)) :
    StoresFields s { s with coh := { s.coh with sroute := x } } .sroute 0xBBBBBBBB := by
  refine storesFields_of h ⟨fun _ => rfl, rfl, rfl, rfl, rfl, rfl, rfl, rfl, rfl⟩ (fun i hi => ?_) fun q hq => ?_
  · have hi32 : i < 32 := by
      refine Decidable.byContradiction fun hn => ?_
      rw [Nat.testBit_lt_two_pow (Nat.lt_of_lt_of_le (by decide) (Nat.pow_le_pow_right (by decide) (Nat.le_of_not_lt hn)))] at hi
      cases hi
    simp only [regValue_sroute, hx, BitVec.toNat_ofNat, Nat.testBit_mod_two_pow, Nat.testBit_and, Access.testBit_fieldOf, hi, hi32]
    simp
  · cases q
    case sroute => exact absurd rfl hq
    all_goals rfl

theorem storesFields_pwrshr {n : Nat} (h : s.busTakes (.pwrshr n)) (hn : n < s.pwr.shares.length) (f : Word → Word)
    (hf : ∀ w, (f w).toNat = s.bus.fieldOf w.toNat 31 0) :
    StoresFields s { s with pwr := { s.pwr with shares := modifyAt f s.pwr.shares n } } (.pwrshr n) 0xFFFFFFFF := by
  refine storesFields_of_fields [(31, 0)] h ⟨fun _ => rfl, length_modifyAt .., rfl, rfl, rfl, rfl, rfl, rfl, rfl⟩ (by decide) (by decide) ?_
    fun q hq => ?_
  · have hx := (f (s.pwr.shares.getD n 0)).isLt
    simp only [List.forall_mem_singleton, regValue_pwrshr, getD_modifyAt _ _ _ _ _ hn, if_true, ← hf, bits, Nat.shiftRight_eq_div_pow]
    omega
  · cases q
    case pwrshr m => exact congrArg BitVec.toNat ((getD_modifyAt _ _ _ _ _ hn).trans (if_neg fun e => hq (congrArg Reg.pwrshr e)))
    all_goals rfl

end

/-- The fields of WIN that read as they are stored: E, SIZE, TYPE (R85). -/
theorem testBit_winRead (w : DWord) (i : Nat) (h : 58 ≤ i ∧ i ≤ 63 ∨ 18 ≤ i ∧ i ≤ 19) : (winRead w.toNat).testBit i = w.toNat.testBit i := by
  have hk (n x : Nat) : x / 2 ^ n * 2 ^ n ≤ x := Nat.div_mul_le_self ..
  have h1 := hk (if 20 ≤ bits w.toNat 62 58 then bits w.toNat 62 58 - 20 else 0) (bits w.toNat 57 42)
  have h2 := hk (if 20 ≤ bits w.toNat 62 58 then bits w.toNat 62 58 - 20 else 0) (bits w.toNat 40 20)
  have hb : bits (winRead w.toNat) 63 58 = bits w.toNat 63 58 ∧ bits (winRead w.toNat) 19 18 = bits w.toNat 19 18 := by
    simp only [winRead]
    generalize bits w.toNat 57 42 / _ * _ = a at *
    generalize bits w.toNat 40 20 / _ * _ = b at *
    simp only [bits, Nat.shiftRight_eq_div_pow] at *
    omega
  rcases h with ⟨hl, hh⟩ | ⟨hl, hh⟩
  · have ht := congrArg (Nat.testBit · (i - 58)) hb.1
    simpa only [testBit_bits, show i - 58 < 63 + 1 - 58 by omega, show 58 + (i - 58) = i by omega, decide_true, Bool.true_and] using ht
  · have ht := congrArg (Nat.testBit · (i - 18)) hb.2
    simpa only [testBit_bits, show i - 18 < 19 + 1 - 18 by omega, show 18 + (i - 18) = i by omega, decide_true, Bool.true_and] using ht

theorem storesFields_win {s : State} {n : Nat} (h : s.busTakes (.win n)) (hn : n < s.win.length) (f : DWord → DWord)
    (hf : ∀ w, (f w).toNat = s.bus.fieldOf w.toNat 63 42 * 2 ^ 42 + s.bus.fieldOf w.toNat 40 18 * 2 ^ 18) :
    StoresFields s { s with win := modifyAt f s.win n } (.win n) 0xFC000000000C0000 := by
  refine storesFields_of h ⟨fun _ => rfl, rfl, length_modifyAt .., rfl, rfl, rfl, rfl, rfl, rfl⟩ (fun i hi => ?_) fun q hq => ?_
  · obtain ⟨e, he, hlo, hhi⟩ := covers_of_fields [(63, 58), (19, 18)] (by decide) (by decide) i hi
    have hr : 58 ≤ i ∧ i ≤ 63 ∨ 18 ≤ i ∧ i ≤ 19 := by
      simp only [List.mem_cons, List.not_mem_nil, or_false] at he
      rcases he with rfl | rfl
      · exact .inl ⟨hlo, hhi⟩
      · exact .inr ⟨hlo, hhi⟩
    let w := s.win.getD n 0
    have h1 := s.bus.fieldOf_lt w.toNat 63 42
    have h2 := s.bus.fieldOf_lt w.toNat 40 18
    have hw : (f w).toNat.testBit i = s.bus.bitOf w.toNat i := by
      refine Access.testBit_of_fields [(63, 42), (40, 18)] (covers_of_fields _ (by decide) (by decide)) ?_ i hi
      simp only [List.forall_mem_cons, hf, bits, Nat.shiftRight_eq_div_pow]
      exact ⟨by omega, by omega, nofun⟩
    simp only [regValue_win, getD_modifyAt _ _ _ _ _ hn, if_true]
    rw [testBit_winRead _ i hr, hw, Access.bitOf, Access.bitOf, testBit_winRead _ i hr]
  · cases q
    case win m =>
      exact congrArg (fun w : DWord => winRead w.toNat) ((getD_modifyAt _ _ _ _ _ hn).trans (if_neg fun e => hq (congrArg Reg.win e)))
    all_goals rfl

end Sys2Proof.Machine

namespace Sys2Proof.Machine

/-! ### The bus -/

theorem bool_toNat_fieldOf (a : Access) (old i : Nat) : (a.fieldOf old i i == 1).toNat = a.fieldOf old i i := by
  have hf := a.fieldOf_lt old i i
  rw [Nat.add_sub_cancel_left] at hf
  obtain h | h : a.fieldOf old i i = 0 ∨ a.fieldOf old i i = 1 := by omega
  · rw [h]; rfl
  · rw [h]; rfl

theorem toNat_ofNat_fieldOf_mul (a : Access) (w old hi lo k : Nat) (h : hi + 1 - lo + k ≤ w) :
    (BitVec.ofNat w (a.fieldOf old hi lo * 2 ^ k)).toNat = a.fieldOf old hi lo * 2 ^ k := by
  rw [BitVec.toNat_ofNat]
  refine Nat.mod_eq_of_lt (Nat.lt_of_lt_of_le ?_ (Nat.pow_le_pow_right (by decide) h))
  rw [Nat.pow_add]
  exact Nat.mul_lt_mul_of_pos_right (a.fieldOf_lt old hi lo) (Nat.two_pow_pos k)

/-- The read-write fields of the registers that REGISTER_WRITE stores, and when it does. -/
def storedFields (s : State) (r : Reg) (rw : Nat) : Prop :=
  match r with
  | .sroute => rw = 0xBBBBBBBB
  | .smigc => rw = 0x3000000
  | .smigs | .smigd => rw = 0x1FFFFFFF000
  | .svcpc | .svctgt => rw = 0xFFFFFFFFFFF8
  | .pwrshr n => n < s.pwr.shares.length ∧ rw = 0xFFFFFFFF
  | .ctxst => rw = 0xFFFF0000
  | .ctxcmd => s.creg.busy = false ∧ rw = 0x1FFFFFFFFFFFFFFF
  | .fwmbx => s.fw.busy = false ∧ rw = 0xFFFFFFFFF001
  | .mrep c => (s.chan c).busy = false ∧ rw = 0x107C3FFFFFF
  | .mscrub => rw = 0x80000000
  | .win n => n < s.win.length ∧ rw = 0xFC000000000C0000
  | .sqbase n | .cqbase n => (s.sq n).en = false ∧ rw = 0x8000FFFFFFFFF000
  | _ => False

theorem plainWrite_storesFields {s : State} {r : Reg} {rw : Nat} (h : s.busTakes r) (hr : storedFields s r rw) :
    StoresFields s (s.plainWrite r s.bus) r rw := by
  cases r <;> simp only [storedFields] at hr
  case sroute => subst hr; exact storesFields_sroute h _ rfl
  case smigc => subst hr; exact storesFields_smigc h _ (toNat_ofNat_fieldOf _ _ _ _ _ (by decide))
  case smigs => subst hr; exact storesFields_smigs h _ (toNat_ofNat_fieldOf_mul _ _ _ _ _ 12 (by decide))
  case smigd => subst hr; exact storesFields_smigd h _ (toNat_ofNat_fieldOf_mul _ _ _ _ _ 12 (by decide))
  case svcpc => subst hr; exact storesFields_svcpc h _ (toNat_ofNat_fieldOf_mul _ _ _ _ _ 3 (by decide))
  case svctgt => subst hr; exact storesFields_svctgt h _ (toNat_ofNat_fieldOf_mul _ _ _ _ _ 3 (by decide))
  case ctxst => subst hr; exact storesFields_ctxst h _ (toNat_ofNat_fieldOf _ _ _ _ _ (by decide))
  case mscrub =>
    subst hr
    refine storesFields_mscrub h _ ?_
    have h1 := s.bus.fieldOf_lt s.mscrub.toNat 31 31
    have h2 := s.bus.fieldOf_lt s.mscrub.toNat 27 20
    have h3 := s.bus.fieldOf_lt s.mscrub.toNat 19 16
    have h4 : bits s.mscrub.toNat 15 0 < 2 ^ 16 := Nat.mod_lt _ (by decide)
    dsimp only
    rw [BitVec.toNat_ofNat]
    omega
  case pwrshr n => obtain ⟨hn, rfl⟩ := hr; exact storesFields_pwrshr h hn _ fun _ => toNat_ofNat_fieldOf _ _ _ _ _ (by decide)
  case ctxcmd =>
    obtain ⟨hb, rfl⟩ := hr
    rw [show s.plainWrite .ctxcmd s.bus = _ from if_neg (by simp [hb])]
    exact storesFields_ctxcmd h _ _ (toNat_ofNat_fieldOf_mul _ _ _ _ _ 12 (by decide)) (toNat_ofNat_fieldOf _ _ _ _ _ (by decide))
  case fwmbx =>
    obtain ⟨hb, rfl⟩ := hr
    rw [show s.plainWrite .fwmbx s.bus = _ from if_neg (by simp [hb])]
    exact storesFields_fwmbx h _ _ (toNat_ofNat_fieldOf _ _ _ _ _ (by decide)) (bool_toNat_fieldOf ..)
  case mrep c =>
    obtain ⟨hb, rfl⟩ := hr
    rw [show s.plainWrite (.mrep c) s.bus = _ from if_neg (by simp [hb])]
    exact storesFields_mrep h _ _ _ (bool_toNat_fieldOf ..) (toNat_ofNat_fieldOf _ _ _ _ _ (by decide)) (toNat_ofNat_fieldOf _ _ _ _ _ (by decide))
  case win n =>
    obtain ⟨hn, rfl⟩ := hr
    refine storesFields_win h hn _ fun w => ?_
    have h1 := s.bus.fieldOf_lt w.toNat 63 42
    have h2 := s.bus.fieldOf_lt w.toNat 40 18
    dsimp only
    rw [BitVec.toNat_ofNat]
    omega
  case sqbase n =>
    obtain ⟨hb, rfl⟩ := hr
    rw [show s.plainWrite (.sqbase n) s.bus = _ from if_neg (by simp [hb])]
    exact storesFields_sqbase h _ rfl
  case cqbase n =>
    obtain ⟨hb, rfl⟩ := hr
    rw [show s.plainWrite (.cqbase n) s.bus = _ from if_neg (by simp [hb])]
    exact storesFields_cqbase h _ rfl

/-! ### Refused writes -/

theorem regOp_not_ok {s : State} (who : Agent → Bool) (body : State → Access → State) (h : s.bus.ok = false) :
    regOp who s body = .next { s with outbox := s.outbox ++ if s.bus.who = .host then [.unsupported] else [] } := by
  unfold regOp State.regWrite
  dsimp only
  rw [if_pos (by simp [h])]
  cases s.bus.who <;> simp

theorem regOp_unassigned {s : State} (who : Agent → Bool) (body : State → Access → State) (h : s.bus.ok = true)
    (ha : s.assigned (regAt s.bus.off) = false) : regOp who s body = .next s := by
  unfold regOp State.regWrite
  dsimp only
  rw [if_neg (by simp [h]), if_pos (by simp [ha])]

theorem regOp_denied {s : State} (who : Agent → Bool) (body : State → Access → State) (h : s.bus.ok = true)
    (ha : s.assigned (regAt s.bus.off) = true) (hw : who s.bus.who = false) : regOp who s body = .next s.deny := by
  unfold regOp State.regWrite
  dsimp only
  rw [if_neg (by simp [h]), if_neg (by simp [ha]), if_pos (by simp [hw])]

/-- The event is a register write that these agents may make. -/
def WritesAs (s : State) (i : Instr) (who : Agent → Bool) : Prop := ∃ body, exec i s = regOp who s body

/-- The commands of the firmware mailbox (R92). -/
def mailboxRows : List Instr :=
  [.attest, .readIdentityCertificate, .replaceDocent, .replaceDocentAndWriteFlash, .installRecoveryBundle, .fwmbxInvalidCommand]

/-- The context commands (R297). -/
def contextRows : List Instr :=
  [.ctxPreemptSave, .ctxRestore, .ctxEnd, .ctxRelease, .ctxcmdInvalid]

/-- The register writes of Curator and Docent. -/
def firmRows : List Instr :=
  [.softRowRepair, .hardRowRepair, .laneRemap, .clearPoison, .retrain, .mrepInvalidCommand, .migrationStart, .migrationRelease, .sqcfgWrite,
    .errbaseWrite, .trbaseWrite, .svcrelResume, .svcrelKill]

/-- The register writes of every agent. -/
def anyRows : List Instr :=
  [.sqDoorbell, .cqctlWrite, .errctlWrite, .trctlWrite]

/-- The register writes of Curator alone. -/
def curatorRows : List Instr :=
  [.pwrbudWrite, .sdomLeave, .sdomJoin]

section
variable {s : State} (h : s.again = false)
include h

theorem writesAs_mbxOp {i : Instr} (cmd : Nat) (body : State → State) (hi : exec i s = mbxOp s cmd body) : WritesAs s i fun _ => true :=
  ⟨_, hi.trans (if_neg (by simp [h]))⟩

theorem writesAs_ctxOp {i : Instr} (start again : State → State) (hi : exec i s = ctxOp s start again) : WritesAs s i Agent.firm :=
  ⟨_, hi.trans (if_neg (by simp [h]))⟩

theorem writesAs_fwmbx : ∀ i ∈ mailboxRows, WritesAs s i fun _ => true := by
  simp only [mailboxRows, List.forall_mem_cons]
  exact ⟨writesAs_mbxOp h _ _ exec_attest, writesAs_mbxOp h _ _ exec_readIdentityCertificate, writesAs_mbxOp h _ _ exec_replaceDocent,
    writesAs_mbxOp h _ _ exec_replaceDocentAndWriteFlash, writesAs_mbxOp h _ _ exec_installRecoveryBundle,
    writesAs_mbxOp h _ _ exec_fwmbxInvalidCommand, List.forall_mem_nil _⟩

theorem writesAs_ctxcmd : ∀ i ∈ contextRows, WritesAs s i Agent.firm := by
  simp only [contextRows, List.forall_mem_cons]
  exact ⟨writesAs_ctxOp h _ _ exec_ctxPreemptSave, writesAs_ctxOp h _ _ exec_ctxRestore, writesAs_ctxOp h _ _ exec_ctxEnd,
    writesAs_ctxOp h _ _ exec_ctxRelease, writesAs_ctxOp h _ _ exec_ctxcmdInvalid, List.forall_mem_nil _⟩

end

theorem writesAs_firm (s : State) : ∀ i ∈ firmRows, WritesAs s i Agent.firm := by
  simp only [firmRows, List.forall_mem_cons]
  exact ⟨⟨_, exec_softRowRepair⟩, ⟨_, exec_hardRowRepair⟩, ⟨_, exec_laneRemap⟩, ⟨_, exec_clearPoison⟩, ⟨_, exec_retrain⟩, ⟨_,
    exec_mrepInvalidCommand⟩, ⟨_, exec_migrationStart⟩, ⟨_, exec_migrationRelease⟩, ⟨_, exec_sqcfgWrite⟩, ⟨_, exec_errbaseWrite⟩, ⟨_,
    exec_trbaseWrite⟩, ⟨_, exec_svcrelResume⟩, ⟨_, exec_svcrelKill⟩, List.forall_mem_nil _⟩

theorem writesAs_any (s : State) : ∀ i ∈ anyRows, WritesAs s i fun _ => true := by
  simp only [anyRows, List.forall_mem_cons]
  exact ⟨⟨_, exec_sqDoorbell⟩, ⟨_, exec_cqctlWrite⟩, ⟨_, exec_errctlWrite⟩, ⟨_, exec_trctlWrite⟩, List.forall_mem_nil _⟩

theorem writesAs_curator (s : State) : ∀ i ∈ curatorRows, WritesAs s i Agent.curatorOnly := by
  simp only [curatorRows, List.forall_mem_cons]
  exact ⟨⟨_, exec_pwrbudWrite⟩, ⟨_, exec_sdomLeave⟩, ⟨_, exec_sdomJoin⟩, List.forall_mem_nil _⟩

theorem writesAs_registerWrite (s : State) : WritesAs s .registerWrite (regAt s.bus.off).writers := ⟨_, exec_registerWrite⟩

/-- The event that an access is admits the writers of the register that it names. -/
theorem writesAs_row {s : State} (h : s.again = false) (hok : s.bus.ok = true) : WritesAs s s.bus.row (regAt s.bus.off).writers := by
  have hw := writesAs_registerWrite s
  unfold Access.row
  dsimp only
  rw [if_neg (by simp [hok])]
  cases ha : regAt s.bus.off <;> rw [ha] at hw <;> dsimp only
  case pwrbud => exact writesAs_curator s _ (by simp [curatorRows])
  case mrep c =>
    split
    · exact hw
    · refine writesAs_firm s _ ?_
      repeat' split
      all_goals simp [firmRows]
  case sdom =>
    split
    · exact writesAs_curator s _ (by simp [curatorRows])
    split
    · exact writesAs_curator s _ (by simp [curatorRows])
    · exact hw
  case smigc =>
    split
    · exact writesAs_firm s _ (by simp [firmRows])
    split
    · exact writesAs_firm s _ (by simp [firmRows])
    · exact hw
  case sqcfg n => exact writesAs_firm s _ (by simp [firmRows])
  case sqdb n => exact writesAs_any s _ (by simp [anyRows])
  case cqctl n => exact writesAs_any s _ (by simp [anyRows])
  case errbase => exact writesAs_firm s _ (by simp [firmRows])
  case errctl => exact writesAs_any s _ (by simp [anyRows])
  case trbase => exact writesAs_firm s _ (by simp [firmRows])
  case trctl => exact writesAs_any s _ (by simp [anyRows])
  case fwmbx =>
    split
    · exact hw
    all_goals exact writesAs_fwmbx h _ (by simp [mailboxRows])
  case ctxcmd =>
    split
    · exact hw
    all_goals exact writesAs_ctxcmd h _ (by simp [contextRows])
  case svcrel =>
    refine writesAs_firm s _ ?_
    split <;> simp [firmRows]
  all_goals exact hw

/-- The events that are register writes. -/
def writeRows : List Instr :=
  [.registerWrite, .pwrbudWrite, .softRowRepair, .hardRowRepair, .laneRemap, .clearPoison, .retrain, .mrepInvalidCommand,
    .sdomLeave, .sdomJoin, .migrationStart, .migrationRelease, .sqcfgWrite, .sqDoorbell, .cqctlWrite, .errctlWrite, .errbaseWrite, .trctlWrite,
    .trbaseWrite, .attest, .readIdentityCertificate, .replaceDocent, .replaceDocentAndWriteFlash, .installRecoveryBundle, .fwmbxInvalidCommand,
    .ctxPreemptSave, .ctxRestore, .ctxEnd, .ctxRelease, .ctxcmdInvalid, .svcrelResume, .svcrelKill]

theorem writesAs_of_mem {s : State} (h : s.again = false) {i : Instr} (hi : i ∈ writeRows) : ∃ who, WritesAs s i who := by
  have hs : i = .registerWrite ∨ i ∈ curatorRows ∨ i ∈ firmRows ∨ i ∈ anyRows ∨ i ∈ mailboxRows ∨ i ∈ contextRows := by
    simp only [writeRows, curatorRows, firmRows, anyRows, mailboxRows, contextRows, List.mem_cons, List.not_mem_nil, or_false] at hi ⊢
    grind
  rcases hs with rfl | hs | hs | hs | hs | hs
  · exact ⟨_, writesAs_registerWrite s⟩
  · exact ⟨_, writesAs_curator s i hs⟩
  · exact ⟨_, writesAs_firm s i hs⟩
  · exact ⟨_, writesAs_any s i hs⟩
  · exact ⟨_, writesAs_fwmbx h i hs⟩
  · exact ⟨_, writesAs_ctxcmd h i hs⟩

/-! ### Counts that ones clear -/

theorem getLsbD_clear (a : Access) (w : Nat) (x : BitVec w) (i : Nat) :
    (x &&& ~~~BitVec.ofNat w (a.fieldOf 0 (w - 1) 0)).getLsbD i = (x.getLsbD i && !(a.mask.testBit i && a.value.testBit i)) := by
  by_cases hi : i < w
  · rw [BitVec.getLsbD_and, BitVec.getLsbD_not, BitVec.getLsbD_ofNat, Access.testBit_fieldOf, Access.bitOf, Nat.zero_add, Nat.zero_testBit]
    simp [hi, show i < w - 1 + 1 by omega]
  · rw [BitVec.getLsbD_of_ge _ _ (by omega), BitVec.getLsbD_of_ge x _ (by omega)]
    rfl

/-- Settles O47: every write row is one operation on the bus, which refuses or stores (R83). -/
theorem registerWriteResults : Obligations.RegisterWriteResults := by
  unfold Obligations.RegisterWriteResults
  refine ⟨fun s r rw h hr => ?_, fun s => ?_, fun s c i => ?_⟩
  · refine ⟨_, execRegisterWrite_takes h, plainWrite_storesFields h ?_⟩
    cases r <;> exact hr
  · intro rows h
    refine ⟨fun hok i hi => ?_, fun hok ha i hi => ?_, fun hok ha hw _ => ?_⟩
    · obtain ⟨who, body, he⟩ := writesAs_of_mem h hi
      exact he.trans (regOp_not_ok who body hok)
    · obtain ⟨who, body, he⟩ := writesAs_of_mem h hi
      exact he.trans (regOp_unassigned who body hok ha)
    · obtain ⟨body, he⟩ := writesAs_row h hok
      exact he.trans (regOp_denied _ body hok ha hw)
  · intro ones
    refine ⟨fun h => ⟨_, execRegisterWrite_takes h, ?_, rfl⟩, fun h => ⟨_, execRegisterWrite_takes h, ?_, rfl⟩⟩
    · simp only [State.plainWrite, chan_setChan, if_true]
      exact getLsbD_clear s.bus 16 _ i
    · simp only [State.plainWrite, link_setLink, if_true]
      exact getLsbD_clear s.bus 8 _ i

end Sys2Proof.Machine

namespace Sys2Proof.Machine

/-! ## The grants of a window (R32) -/

/-- Amounts of power: none negative, and together within a bound. -/
def Within (b : Rat) (l : List (Nat × Rat)) : Prop := (∀ e ∈ l, 0 ≤ e.2) ∧ (l.map (·.2)).sum ≤ b

theorem wattSum_eq (l : List Rat) : wattSum l = l.sum := (List.sum_eq_foldl).symm

theorem foldl_add_eq (l : List Nat) : l.foldl (· + ·) 0 = l.sum := (List.sum_eq_foldl_nat).symm

theorem within_nil {b : Rat} (hb : 0 ≤ b) : Within b [] := ⟨nofun, hb⟩

theorem within_cons {b a : Rat} {k : Nat} {l : List (Nat × Rat)} : Within b ((k, a) :: l) ↔ 0 ≤ a ∧ Within (b - a) l := by
  simp only [Within, List.forall_mem_cons, List.map_cons, List.sum_cons, and_assoc]
  refine and_congr_right fun _ => and_congr_right fun _ => ?_
  constructor
  · intro h; grind
  · intro h; grind

theorem Within.mono {b c : Rat} {l : List (Nat × Rat)} (h : Within b l) (hbc : b ≤ c) : Within c l := by
  obtain ⟨h0, hs⟩ := h
  exact ⟨h0, Rat.le_trans hs hbc⟩

theorem Within.nonneg {b : Rat} {l : List (Nat × Rat)} (h : Within b l) : 0 ≤ b := by
  induction l generalizing b with
  | nil => exact h.2
  | cons e r ih =>
    obtain ⟨h0, hr⟩ := within_cons.mp h
    have hb := ih hr
    grind

theorem Within.append {b c : Rat} {l m : List (Nat × Rat)} (h : Within b l) (k : Within c m) : Within (b + c) (l ++ m) := by
  induction l generalizing b with
  | nil => exact k.mono (by have hb := h.nonneg; grind)
  | cons e r ih =>
    obtain ⟨h0, hr⟩ := within_cons.mp h
    exact within_cons.mpr ⟨h0, (ih hr).mono (by grind)⟩

theorem Within.erase {b : Rat} {m : Store Rat} (k : Nat) (h : Within b m) : Within b (m.erase k) := by
  induction m generalizing b with
  | nil => exact h
  | cons e r ih =>
    obtain ⟨h0, hr⟩ := within_cons.mp h
    simp only [Store.erase]
    split
    · exact (ih hr).mono (by grind)
    · exact within_cons.mpr ⟨h0, ih hr⟩

theorem Within.insert {b a : Rat} {m : Store Rat} (k : Nat) (h : Within b m) (ha : 0 ≤ a) : Within (b + a) (m.insert k a) := by
  induction m generalizing b with
  | nil => exact within_cons.mpr ⟨ha, h.mono (by grind)⟩
  | cons e r ih =>
    obtain ⟨h0, hr⟩ := within_cons.mp h
    simp only [Store.insert]
    split
    · exact within_cons.mpr ⟨ha, hr.mono (by grind)⟩
    split
    · exact within_cons.mpr ⟨ha, h.mono (by grind)⟩
    · exact within_cons.mpr ⟨h0, (ih hr).mono (by grind)⟩

theorem Within.put {b a : Rat} {m : Store Rat} (k : Nat) (h : Within b m) (ha : 0 ≤ a) : Within (b + a) (Store.put 0 m k a) := by
  unfold Store.put
  split
  · exact (h.erase k).mono (by grind)
  · exact h.insert k ha

theorem Within.foldl_put {b c : Rat} (l : List (Nat × Rat)) {m : Store Rat} (h : Within b m) (hl : Within c l) :
    Within (b + c) (l.foldl (fun m e => Store.put 0 m e.1 e.2) m) := by
  induction l generalizing b c m with
  | nil => exact h.mono (by have hc := hl.nonneg; grind)
  | cons e r ih =>
    obtain ⟨h0, hr⟩ := within_cons.mp hl
    exact (ih (h.put e.1 h0) hr).mono (by grind)

/-- Some of the members of a list take amounts within their shares of power, q for each unit of weight. -/
theorem Within.shares {α : Type} {q : Rat} (hq : 0 ≤ q) (l : List α) (p : α → Bool) (key weight : α → Nat) (amount : α → Rat)
    (h : ∀ c ∈ l, p c = true → 0 ≤ amount c ∧ amount c ≤ q * weight c) :
    Within (q * ((l.map weight).sum : Nat)) ((l.filter p).map fun c => (key c, amount c)) := by
  induction l with
  | nil => exact within_nil (Rat.mul_nonneg hq Rat.natCast_nonneg)
  | cons c r ih =>
    obtain ⟨hc, hr⟩ := List.forall_mem_cons.mp h
    have hsum : q * (((c :: r).map weight).sum : Nat) = q * weight c + q * ((r.map weight).sum : Nat) := by
      rw [List.map_cons, List.sum_cons, Rat.natCast_add, Rat.mul_add]
    rw [hsum, List.filter_cons]
    split
    · next hp =>
      obtain ⟨h0, hle⟩ := hc hp
      exact within_cons.mpr ⟨h0, (ih hr).mono (by grind)⟩
    · have hw : 0 ≤ q * weight c := Rat.mul_nonneg hq Rat.natCast_nonneg
      exact (ih hr).mono (by grind)

theorem rat_le_of_eq {a b : Rat} (h : a = b) : a ≤ b := h ▸ Rat.le_refl

theorem rat_div_nonneg {a : Rat} (h : 0 ≤ a) (w : Nat) : 0 ≤ a / (w : Rat) := by
  rw [Rat.div_def]
  refine Rat.mul_nonneg h ?_
  rcases Nat.eq_zero_or_pos w with rfl | hw
  · exact rat_le_of_eq Rat.inv_zero.symm
  · exact Rat.le_of_lt (Rat.inv_pos.mpr (Rat.natCast_pos.mpr hw))

/-- The shares of a whole that is divided by w, w times over, come to no more than the whole. -/
theorem rat_div_mul_le {a : Rat} (h : 0 ≤ a) (w : Nat) : a / (w : Rat) * w ≤ a := by
  rcases Nat.eq_zero_or_pos w with rfl | hw
  · exact (Rat.mul_zero _).symm ▸ h
  · exact rat_le_of_eq (Rat.div_mul_cancel (Rat.ne_of_lt (Rat.natCast_pos.mpr hw)).symm)

/-- Shares in proportion to weights come to no more than the whole. -/
theorem Within.proportion {α : Type} {left : Rat} (hl : 0 ≤ left) (l : List α) (key weight : α → Nat) :
    Within left (l.map fun c => (key c, left * weight c / ((l.map weight).sum : Nat))) := by
  have hq := rat_div_nonneg hl (l.map weight).sum
  have h := Within.shares hq l (fun _ => true) key weight (fun c => left * weight c / ((l.map weight).sum : Nat)) fun c _ _ => by
    have hc : left * weight c / ((l.map weight).sum : Nat) = left / ((l.map weight).sum : Nat) * weight c := by
      rw [Rat.div_def, Rat.div_def, Rat.mul_assoc, Rat.mul_comm (weight c : Rat), ← Rat.mul_assoc]
    rw [hc]
    exact ⟨Rat.mul_nonneg hq Rat.natCast_nonneg, Rat.le_refl⟩
  rw [List.filter_eq_self.mpr fun _ _ => rfl] at h
  exact h.mono (rat_div_mul_le hl _)

theorem unitGrants_within {left : Rat} (hl : 0 ≤ left) (want : List (Nat × Nat)) : Within left (unitGrants left want) := by
  unfold unitGrants
  dsimp only
  rw [foldl_add_eq]
  by_cases ht : (((want.map fun e => e.2).sum : Nat) : Rat) ≤ left
  · simp only [ht, if_true]
    have h := Within.shares (q := 1) (by decide) want (fun _ => true) (·.1) (·.2) (fun e => (e.2 : Rat)) fun e _ _ =>
      ⟨Rat.natCast_nonneg, rat_le_of_eq (Rat.one_mul _).symm⟩
    rw [List.filter_eq_self.mpr fun _ _ => rfl, Rat.one_mul] at h
    exact h.mono ht
  · simp only [ht, if_false]
    exact Within.proportion hl want (·.1) (·.2)

theorem shareLast_within {left : Rat} (hl : 0 ≤ left) (cores : List (Nat × Nat × Nat)) : Within left (shareLast left cores) := by
  unfold shareLast
  dsimp only
  rw [foldl_add_eq]
  by_cases hw : (cores.map fun c => c.2.1).sum = 0
  · simp only [hw, if_true]
    have h := Within.shares (q := 0) Rat.le_refl cores (fun _ => true) (·.1) (·.2.1) (fun _ => 0) fun c _ _ =>
      ⟨Rat.le_refl, rat_le_of_eq (Rat.zero_mul _).symm⟩
    rw [List.filter_eq_self.mpr fun _ _ => rfl, Rat.zero_mul] at h
    exact h.mono hl
  · simp only [hw, if_false]
    exact Within.proportion hl cores (·.1) (·.2.1)

/-- The cores that are granted their whole request in a step of the division take no more than their shares. -/
theorem shareRound_within {left : Rat} (hl : 0 ≤ left) (cores : List (Nat × Nat × Nat)) :
    Within left (shareRound left cores).2.1 ∧ (shareRound left cores).1 = left - ((shareRound left cores).2.1.map (·.2)).sum := by
  unfold shareRound
  dsimp only
  rw [wattSum_eq, foldl_add_eq]
  refine ⟨?_, by rw [List.map_map]; rfl⟩
  refine (Within.shares (rat_div_nonneg hl (cores.map fun c => c.2.1).sum) cores _ (·.1) (·.2.1) (fun c => (c.2.2 : Rat))
    fun c hm hp => ⟨Rat.natCast_nonneg, ?_⟩).mono (rat_div_mul_le hl _)
  simp only [Bool.and_eq_true, decide_eq_true_eq] at hp
  obtain ⟨h0, hle⟩ := hp
  have hpos : 0 < (cores.map fun c => c.2.1).sum := List.sum_pos_iff_exists_pos_nat.mpr ⟨_, List.mem_map_of_mem hm, h0⟩
  generalize (cores.map fun c => c.2.1).sum = w at *
  have hw : (0 : Rat) < w := Rat.natCast_pos.mpr hpos
  refine Rat.le_of_mul_le_mul_right (c := (w : Rat)) ?_ hw
  rw [Rat.mul_assoc, Rat.mul_comm (c.2.1 : Rat), ← Rat.mul_assoc, Rat.div_mul_cancel (Rat.ne_of_lt hw).symm]
  exact hle

theorem shareOut_within (n : Nat) {left : Rat} (hl : 0 ≤ left) (cores : List (Nat × Nat × Nat)) : Within left (shareOut n left cores) := by
  induction n generalizing left cores with
  | zero => exact shareLast_within hl cores
  | succ n ih =>
    obtain ⟨hd, hs⟩ := shareRound_within hl cores
    unfold shareOut
    generalize shareRound left cores = r at *
    obtain ⟨left', done, rest⟩ := r
    dsimp only at *
    subst hs
    split
    · exact shareLast_within hl cores
    · obtain ⟨h0, hle⟩ := hd
      exact (Within.append ⟨h0, Rat.le_refl⟩ (ih (by grind) rest)).mono (by grind)

/-- What a window grants out of what the floors leave: to the engines and channels first, and the rest to the cores (R32). -/
def grantsOf (left : Rat) (n : Nat) (want : List (Nat × Nat)) (cores : List (Nat × Nat × Nat)) : Store Rat :=
  let given := unitGrants left want
  (shareOut n (left - wattSum (given.map fun e => e.2)) cores ++ given).foldl (fun m e => Store.put 0 m e.1 e.2) []

theorem grantsOf_within {left : Rat} (hl : 0 ≤ left) (n : Nat) (want : List (Nat × Nat)) (cores : List (Nat × Nat × Nat)) :
    Within left (grantsOf left n want cores) := by
  obtain ⟨g0, gs⟩ := unitGrants_within hl want
  unfold grantsOf
  dsimp only
  rw [wattSum_eq]
  generalize unitGrants left want = given at *
  have hrest : 0 ≤ left - (given.map fun e => e.2).sum := by grind
  have hp := (shareOut_within n hrest cores).append ⟨g0, Rat.le_refl⟩
  exact ((within_nil Rat.le_refl).foldl_put _ hp).mono (by grind)

/-- The grants of a window, of requests and what the floors take (R32). -/
def windowGrants (p : Power) (n floors : Nat) (want ask : List (Nat × Nat)) : Store Rat :=
  grantsOf (1000 * p.eff.toNat - floors : Nat) n (want.map fun e => (e.1, min e.2 (Config.unitCeiling e.1)))
    (ask.map fun e => (e.1, p.weight e.1, e.2))

theorem windowGrants_le (p : Power) (n floors : Nat) (want ask : List (Nat × Nat)) :
    ((windowGrants p n floors want ask).map (·.2)).sum ≤ ((1000 * p.eff.toNat : Nat) : Rat) := by
  obtain ⟨_, hs⟩ := grantsOf_within (left := (1000 * p.eff.toNat - floors : Nat)) Rat.natCast_nonneg n
    (want.map fun e => (e.1, min e.2 (Config.unitCeiling e.1))) (ask.map fun e => (e.1, p.weight e.1, e.2))
  exact Rat.le_trans hs (Rat.natCast_le_natCast.mpr (Nat.sub_le _ _))

/-! ### The window -/

/-- Free amounts leave all but the counter of free values. -/
theorem freeAmounts_eq (s : State) (bound : Nat) (keys : List Nat) : ∃ l n, s.freeAmounts bound keys = (l, { s with freeCtr := n }) := by
  unfold State.freeAmounts
  suffices h : ∀ l n, ∃ l' n', keys.foldl (fun r k => (r.1 ++ [(k, (r.2.freeBelow bound).1)], (r.2.freeBelow bound).2))
      (l, { s with freeCtr := n }) = (l', { s with freeCtr := n' }) from h [] s.freeCtr
  induction keys with
  | nil => exact fun l n => ⟨l, n, rfl⟩
  | cons k ks ih => exact fun l n => ih _ (n + 1)

/-- The events of DETC that a throttle notes change contexts and the counter of free values only. -/
theorem foldl_detEvent_state (l : List Word) (s : State) : ∃ n cs,
    l.foldl (fun s c => if Config.freeBool s.freeCtr then (s.detEvent c 6 0).draw else s.draw) s = { s with freeCtr := n, ctxs := cs } := by
  induction l generalizing s with
  | nil => exact ⟨_, _, rfl⟩
  | cons c cs ih =>
    simp only [List.foldl_cons]
    split
    · obtain ⟨n, x, h⟩ := ih (s.detEvent c 6 0).draw
      exact ⟨n, x, h⟩
    · obtain ⟨n, x, h⟩ := ih s.draw
      exact ⟨n, x, h⟩

/-- The division of a window sets the grants and the limiters, and may note events of contexts (R32, R33). -/
theorem arbitrate_eq (s : State) : ∃ ctr cs lims floors want ask, s.arbitrate = { s with
    freeCtr := ctr, ctxs := cs, pwr := { s.pwr with grant := windowGrants s.pwr s.part.cores floors want ask, lims := lims } } := by
  obtain ⟨want, c1, h1⟩ := freeAmounts_eq s.draw 350000 ((List.range (s.part.cores / 4)).map (64 + ·) ++ (List.range (4 * s.part.cores)).map (128 + ·))
  obtain ⟨ask, c2, h2⟩ := freeAmounts_eq { s.draw with freeCtr := c1 } 350000 (List.range s.part.cores)
  obtain ⟨ks, c3, h3⟩ := freeAmounts_eq { s.draw with freeCtr := c2 } 62 (List.range s.part.cores)
  obtain ⟨vs, c4, h4⟩ := freeAmounts_eq { s.draw with freeCtr := c3 } 7 (List.range s.part.cores)
  unfold State.arbitrate
  dsimp only [State.freeBelow]
  rw [h1]
  dsimp only
  rw [h2]
  dsimp only
  rw [h3]
  dsimp only
  rw [h4]
  dsimp only
  split
  · obtain ⟨n, cs, h⟩ := foldl_detEvent_state _ _
    exact ⟨n, cs, _, _, want, ask, h⟩
  · exact ⟨_, _, _, _, want, ask, rfl⟩

theorem thcap_eq (t : Int) : thcap t = if t ≤ 100 then 350 else if t ≤ 105 then (350 - 40 * (t - 100)).toNat else 150 := by
  unfold thcap
  split
  · omega
  split <;> omega

theorem thcap_le (t : Int) : thcap t ≤ 350 := by
  unfold thcap
  split
  · omega
  split <;> omega

theorem foldl_max_eq {l : List Int} {a t : Int} (ha : a ≤ t) (hl : ∀ x ∈ l, x ≤ t) (ht : t ∈ l) : l.foldl max a = t := by
  rw [List.foldl_max, List.max?_eq_some_iff.mpr ⟨ht, hl⟩]
  exact Int.max_eq_right ha

/-- The sensor that shows the highest reading shows T, and no other exceeds it (R31). -/
theorem heat_getD (p : Power) (hot : Nat) (t : Int) (h : hot < 16) : (p.heat hot t).getD hot 0 = t := by
  simp [Power.heat, List.getD_eq_getElem?_getD, h]

theorem temp_of_heat (p q : Power) (hot : Nat) (t : Int) (h : hot < 16) (hq : q.sensors = p.heat hot t) : q.temp = t := by
  have hle : ∀ x ∈ p.heat hot t, x ≤ t := by
    intro x hx
    obtain ⟨i, _, rfl⟩ := List.mem_map.mp hx
    split
    · exact Int.le_refl _
    · exact Int.min_le_left ..
  have hmem : t ∈ p.heat hot t := List.mem_map.mpr ⟨hot, List.mem_range.mpr h, if_pos rfl⟩
  unfold Power.temp
  rw [hq]
  refine foldl_max_eq ?_ hle hmem
  cases hl : p.heat hot t with
  | nil => rw [hl] at hmem; cases hmem
  | cons a l => exact hle a (by rw [hl]; exact List.mem_cons_self)

/-- The effective budget of a window (R32). -/
theorem windowBudget (b : BitVec 9) (t : Int) : (BitVec.ofNat 9 (min b.toNat (thcap t))).toNat =
    min b.toNat (if t ≤ 100 then 350 else if t ≤ 105 then (350 - 40 * (t - 100)).toNat else 150) := by
  have h := thcap_le t
  rw [← thcap_eq, BitVec.toNat_ofNat]
  omega

theorem execArbiterWindow_result (s : State) (temp : Int) : ∃ t, exec (.arbiterWindow temp) s = .next t ∧
    t.pwr.temp = temp ∧ (t.pwr.alert = true ↔ 100 ≤ temp) ∧ t.pwr.budget = s.pwr.budget ∧
    (t.pwr.eff.toNat = min s.pwr.budget.toNat
      (if temp ≤ 100 then 350 else if temp ≤ 105 then (350 - 40 * (temp - 100)).toNat else 150)) ∧
    (t.pwr.grant.map (·.2)).sum ≤ ((1000 * t.pwr.eff.toNat : Nat) : Rat) ∧
    (temp < 115 → t.agenda = s.agenda) ∧
    (115 ≤ temp → ∃ k, k < 16 ∧ t.pwr.sensors.getD k 0 = temp ∧ t.agenda = s.agenda ++ [.row (.thermalShutdown k temp)]) ∧
    t.mem = s.mem ∧ t.groups = s.groups ∧ t.g = s.g ∧ t.cores = s.cores := by
  let hot := (Config.freeWord s.freeCtr).toNat % 16
  have hhot : hot < 16 := Nat.mod_lt _ (by decide)
  obtain ⟨ctr, cs, lims, floors, want, ask, h⟩ := arbitrate_eq { s.draw with pwr := { s.pwr with
    sensors := s.pwr.heat hot temp, alert := decide (100 ≤ temp), eff := BitVec.ofNat 9 (min s.pwr.budget.toNat (thcap temp)) } }
  have htemp := fun q => temp_of_heat s.pwr q hot temp hhot
  have halert : decide (100 ≤ temp) = true ↔ 100 ≤ temp := decide_eq_true_iff
  have hgrant := fun p n => windowGrants_le p n floors want ask
  rw [exec_arbiterWindow]
  refine ⟨_, congrArg Host.Outcome.next (congrArg (fun u : State => if 115 ≤ temp then u.dueRow (.thermalShutdown hot temp) else u) h), ?_⟩
  dsimp only
  split
  · next h115 =>
    exact ⟨htemp _ rfl, halert, rfl, windowBudget .., hgrant .., fun hn => absurd h115 (by omega),
      fun _ => ⟨hot, hhot, heat_getD _ _ _ hhot, rfl⟩, rfl, rfl, rfl, rfl⟩
  · next h115 =>
    exact ⟨htemp _ rfl, halert, rfl, windowBudget .., hgrant .., fun _ => rfl, fun hn => absurd hn h115, rfl, rfl, rfl, rfl⟩

/-! ### The budget -/

theorem regOp_takes {s : State} {r : Reg} (h : s.busTakes r) {who : Agent → Bool} (hwho : r.writers = who) (body : State → Access → State) :
    regOp who s body = .next (body s s.bus) := by
  subst hwho
  obtain ⟨hok, hr, ha, hw⟩ := h
  unfold regOp State.regWrite
  dsimp only
  rw [hr, if_neg (by simp [hok]), if_neg (by simp [ha]), if_neg (by simp [hw])]

/-- The power registers after a write of PWRBUD with this LOCK bit and BUDGET field; touched says that the access covers BUDGET (R34). -/
def Power.takeBudget (p : Power) (lock touched : Bool) (b : Nat) : Power :=
  if p.lock then p
  else
    let p := { p with lock := lock }
    if touched then { p with budget := BitVec.ofNat 9 (max 150 (min 350 b)), clamp := p.clamp || decide (b < 150) || decide (350 < b) } else p

theorem takeBudget_locked {p : Power} (h : p.lock = true) (lock touched : Bool) (b : Nat) : p.takeBudget lock touched b = p := if_pos h

theorem takeBudget_eff (p : Power) (lock touched : Bool) (b : Nat) : (p.takeBudget lock touched b).eff = p.eff := by
  unfold Power.takeBudget
  split
  · rfl
  · cases touched <;> rfl

theorem takeBudget_lock {p : Power} (h : p.lock = false) (lock touched : Bool) (b : Nat) : (p.takeBudget lock touched b).lock = lock := by
  rw [Power.takeBudget, if_neg (by simp [h])]
  cases touched <;> rfl

theorem takeBudget_untouched (p : Power) (lock : Bool) (b : Nat) : (p.takeBudget lock false b).budget = p.budget := by
  unfold Power.takeBudget
  split <;> rfl

theorem takeBudget_budget {p : Power} (h : p.lock = false) (lock : Bool) (b : Nat) :
    (p.takeBudget lock true b).budget.toNat = if b < 150 then 150 else if 350 < b then 350 else b := by
  rw [Power.takeBudget, if_neg (by simp [h])]
  show (BitVec.ofNat 9 (max 150 (min 350 b))).toNat = _
  rw [BitVec.toNat_ofNat]
  split
  · omega
  split <;> omega

theorem takeBudget_clamp {p : Power} (h : p.lock = false) (lock : Bool) {b : Nat} (hb : b < 150 ∨ 350 < b) :
    (p.takeBudget lock true b).clamp = true := by
  rw [Power.takeBudget, if_neg (by simp [h])]
  show (p.clamp || decide (b < 150) || decide (350 < b)) = true
  rcases hb with hb | hb <;> simp [hb]

theorem execPwrbudWrite_takes {s : State} (h : s.busTakes .pwrbud) :
    ∃ p : Power, p.lock = s.pwr.lock ∧ p.budget = s.pwr.budget ∧ p.eff = s.pwr.eff ∧ exec .pwrbudWrite s = .next { s with
      pwr := p.takeBudget (s.busField s.pwr.bud 31 31 == 1) (decide (s.bus.mask &&& 0x1FF ≠ 0)) (s.busField s.pwr.bud 8 0) } := by
  refine ⟨{ s.pwr with clamp := if s.bus.clears 16 then false else s.pwr.clamp }, rfl, rfl, rfl, ?_⟩
  rw [exec_pwrbudWrite, execPwrbudWrite, regOp_takes h (who := Agent.curatorOnly) rfl]
  congr 1
  dsimp only
  congr 1
  unfold State.busField Power.takeBudget
  generalize s.bus.mask &&& 0x1FF = m
  generalize s.bus.fieldOf s.pwr.bud 8 0 = b
  generalize s.bus.fieldOf s.pwr.bud 31 31 = l
  by_cases hm : m = 0 <;> cases s.bus.clears 16 <;> simp [hm]

theorem execPwrbudWrite_result (s : State) (h : s.busTakes .pwrbud) :
    let b := s.busField s.pwr.bud 8 0
    ∃ t, exec .pwrbudWrite s = .next t ∧
      (s.pwr.lock = true → t.pwr.budget = s.pwr.budget ∧ t.pwr.lock = true) ∧
      (s.pwr.lock = false → t.pwr.lock = (s.busField s.pwr.bud 31 31 == 1) ∧
        (s.bus.mask &&& 0x1FF = 0 → t.pwr.budget = s.pwr.budget) ∧
        (s.bus.mask &&& 0x1FF ≠ 0 → t.pwr.budget.toNat = (if b < 150 then 150 else if 350 < b then 350 else b) ∧
          (b < 150 ∨ 350 < b → t.pwr.clamp = true))) ∧
      t.pwr.eff = s.pwr.eff ∧ { t with pwr := s.pwr } = s := by
  intro b
  obtain ⟨p, hlock, hbudget, heff, hexec⟩ := execPwrbudWrite_takes h
  rw [← hlock, ← hbudget, ← heff]
  refine ⟨_, hexec, fun hl => ?_, fun hl => ⟨takeBudget_lock hl .., fun hm => ?_, fun hm => ?_⟩, takeBudget_eff .., rfl⟩
  · dsimp only
    rw [takeBudget_locked hl]
    exact ⟨rfl, hl⟩
  · dsimp only
    rw [decide_eq_false (not_not_intro hm)]
    exact takeBudget_untouched ..
  · dsimp only
    rw [decide_eq_true hm]
    exact ⟨takeBudget_budget hl .., takeBudget_clamp hl _⟩

/-! ## The registers of the device space right after reset (R10, R34, R54) -/

/-- PWRSHR has four registers (R34). -/
theorem regAt_pwrshr {off n : Nat} (h : regAt off = .pwrshr n) : n < 4 := by
  unfold regAt at h
  dsimp only at h
  generalize off % 0x100000 / 8 = i at h
  generalize off / 0x100000 = b at h
  split at h
  case h_2 =>
    split at h
    · cases h
    split at h
    · cases h
      omega
    split at h <;> cases h
  case h_9 => cases h
  case h_5 =>
    split at h
    · cases h
    split at h <;> cases h
  all_goals
    repeat' split at h
    all_goals cases h

/-- What a register holds right after reset (R10, R34, R54). -/
def resetValue : Reg → Nat
  | .devstat => 0x0960010000000000
  | .pwrbud => 350 * 2 ^ 17 + 350
  | .pwrshr _ => 0x88888888
  | .pwrlim _ => 0x4008
  | .mscrub => 0x81880000
  | .sdom => 0x80010000
  | _ => 0

theorem reset_regValue (r : Reg) (h : ∀ n, r = .pwrshr n → n < 4) : State.reset.regValue r = resetValue r := by
  cases r
  case pwrshr n =>
    have hn := h n rfl
    obtain rfl | rfl | rfl | rfl : n = 0 ∨ n = 1 ∨ n = 2 ∨ n = 3 := by omega
    all_goals rfl
  case win n =>
    have hw : State.reset.win.getD n 0 = 0 := by
      show (List.replicate 8 (0 : BitVec 64)).getD n 0 = 0
      rw [List.getD_eq_getElem?_getD, List.getElem?_replicate]
      split <;> rfl
    show winRead (State.reset.win.getD n 0).toNat = 0
    rw [hw]
    decide
  case mrep => exact (by decide : MChan.reset.rep = 0)
  case mlane => exact (by decide : MChan.reset.lanes = 0)
  case slnk => exact (by decide : Link.reset.status = 0)
  case sqcfg => exact (by decide : SQ.reset.cfg = 0)
  case sqhead => exact (by decide : SQ.reset.headReg = 0)
  case cqctl => exact (by decide : SQ.reset.cqctl = 0)
  case devstat => decide
  case pwrbud => decide
  case sdom => decide
  all_goals rfl

theorem reset_bootFailed : State.reset.bootFailed = false := by decide

theorem reset_part : State.reset.part.cores = 32 := by decide

theorem reset_regRead (off : Nat) : match regAt off with
    | .devstat => State.reset.regRead off = 0x0960010000000000
    | .pwrbud => State.reset.regRead off = 350 * 2 ^ 17 + 350
    | .pwrshr _ => State.reset.regRead off = 0x88888888
    | .pwrlim n => n < 32 → State.reset.regRead off = 0x4008
    | .mscrub => State.reset.regRead off = 0x81880000
    | .sdom => State.reset.regRead off = 0x80010000
    | _ => State.reset.regRead off = 0 := by
  rw [regRead_eq, reset_regValue _ fun _ => regAt_pwrshr]
  have hb := reset_bootFailed
  have hc := reset_part
  cases hr : regAt off
  case pwrshr n =>
    have hn := regAt_pwrshr hr
    exact if_pos (by simp [State.assigned, hb, hc]; omega)
  case pwrlim n =>
    intro hn
    exact if_pos (by simp [State.assigned, hb, hc, hn])
  case devstat | pwrbud | mscrub | sdom => exact if_pos (by simp [State.assigned, hb])
  all_goals exact ite_self 0

/-! ## Supply, resets, thermal shutdown (R29 to R31) -/

theorem railsLost_le (s : State) (k : Nat) (h : s.railsLost.getD k false = true) : s.pwr.rails.getD k false = true := by
  simp only [State.railsLost, List.getD_eq_getElem?_getD, List.getElem?_mapIdx] at h ⊢
  cases hr : s.pwr.rails[k]? with
  | none => simp [hr] at h
  | some r =>
    rw [hr] at h
    simp only [Option.map_some, Option.getD_some, Bool.and_eq_true] at h
    exact h.1

/-- What a reset of the whole device clears and what it keeps (assumption 4). -/
def DeviceCleared (s t : State) : Prop :=
  t.g.lanes = [] ∧ t.g.iss.on = false ∧ t.groups = [] ∧ t.tasks = [] ∧ t.blocks = [] ∧ t.cores = [] ∧ t.ctxs = [] ∧ t.counters = [] ∧
  t.graphs = [] ∧ t.sqs = [] ∧ t.l1 = [] ∧ t.l2 = [] ∧ t.links = [] ∧ t.win = List.replicate 8 0 ∧ t.fw.key = none ∧ t.fw.ready = false ∧
  t.fw.record = s.fw.record ∧ t.fw.curator = s.fw.curator ∧ t.fw.docent = s.fw.docent ∧ t.fw.active = s.fw.active ∧
  t.hostmem = s.hostmem ∧ t.pwr.budget = s.cfg.budget ∧ t.pwr.eff = s.cfg.budget

theorem deviceReset_cleared (s : State) (p : Power) (hb : p.budget = s.cfg.budget) (he : p.eff = s.cfg.budget) :
    DeviceCleared s (s.deviceReset p) :=
  ⟨rfl, rfl, rfl, rfl, rfl, rfl, rfl, rfl, rfl, rfl, rfl, rfl, rfl, rfl, rfl, rfl, rfl, rfl, rfl, rfl, rfl, hb, he⟩

theorem execPowerGoodLoss_result (s : State) : ∃ t, exec .powerGoodLoss s = .next t ∧ DeviceCleared s t ∧
    t.pwr.inReset = true ∧ t.agenda = [] ∧ t.pwr.thermal = s.pwr.thermal ∧
    t.pwr.railFault = (s.pwr.railFault && t.pwr.rails.any id) ∧ ∀ k, t.pwr.rails.getD k false = true → s.pwr.rails.getD k false = true := by
  rw [exec_powerGoodLoss]
  exact ⟨_, rfl, deviceReset_cleared s.draw _ rfl rfl, rfl, rfl, rfl, rfl, railsLost_le s⟩

theorem execBoardReset_result (s : State) : ∃ t, exec .boardReset s = .next t ∧ DeviceCleared s t ∧
    t.pwr.thermal = false ∧ t.fw.lsrst = s.fw.lsrst ∧ t.agenda = if s.pwr.inReset || s.pwr.railFault then [] else [.row .boot] := by
  rw [exec_boardReset]
  have hc := deviceReset_cleared s { s.powerReset with inReset := s.pwr.inReset, railFault := s.pwr.railFault } rfl rfl
  unfold execBoardReset
  dsimp only
  cases s.pwr.inReset || s.pwr.railFault
  · exact ⟨_, rfl, hc, rfl, rfl, rfl⟩
  · exact ⟨_, rfl, hc, rfl, rfl, rfl⟩

theorem report_of_room (s : State) (r : ErrRec) (h : s.err.queue.length < 64) : s.report r =
    { s with err := { s.err with queue := s.err.queue ++ [{ r with time := s.rtc }] }, agenda := s.agenda ++ [.row .errorRecordWrite] } :=
  if_pos h

/-- The compute die is reset and the record THERM names the sensor (R31). -/
theorem execThermalShutdown_result (s : State) (sensor : Nat) (temp : Int) (ht : 115 ≤ temp) (hq : s.err.queue.length < 64) :
    ∃ t, exec (.thermalShutdown sensor temp) s = .next t ∧
      t.pwr.thermal = true ∧ t.pwr.alert = true ∧ t.g.lanes = [] ∧ t.groups = [] ∧ t.tasks = [] ∧ t.cores = [] ∧ t.fw = s.fw ∧ t.mem = s.mem ∧
      ∃ r, t.err.queue = s.err.queue ++ [r] ∧ r.cause = 0x20 ∧ r.engine = 14 ∧ r.inst = sensor := by
  rw [exec_thermalShutdown, execThermalShutdown, if_neg (by omega)]
  exact ⟨_, congrArg Host.Outcome.next (report_of_room _ _ hq), rfl, rfl, rfl, rfl, rfl, rfl, rfl, rfl, _, rfl, rfl, rfl, rfl⟩

theorem execPowerGoodRelease_good (s : State) (h : s.pwr.railFault = false) : exec .powerGoodRelease s =
    .next { s with pwr := { s.pwr with rails := List.replicate 5 true, inReset := false }, agenda := s.agenda ++ [.row .boot] } := by
  rw [exec_powerGoodRelease, execPowerGoodRelease, if_neg (by simp [h])]
  rfl

theorem execPowerGoodRelease_fault (s : State) (h : s.pwr.railFault = true) : exec .powerGoodRelease s = .next s := by
  rw [exec_powerGoodRelease, execPowerGoodRelease, if_pos h]

/-- Nothing is resident, listed or counted right after reset (R10; assumptions 9 and 10). -/
theorem reset_holds_nothing : let s := State.reset
   s.allGroups = [] ∧ s.tasks = [] ∧ s.blocks = [] ∧ s.graphs = [] ∧ s.outbox = [] ∧ s.err.queue = [] ∧ s.trap.due = [] ∧
   (∀ a, Memory.byte s.mem a = 0 ∧ Memory.byte s.hostmem a = 0 ∧ Memory.byte s.sp a = 0) ∧
   (∀ n, (s.counter n).value = 0 ∧ (s.counter n).owner = none ∧ (s.pool n).bound = false ∧ (s.gq n).bound = false) ∧
   (∀ c, (s.cx c).run = .running ∧ (s.cx c).atb = 0 ∧ (s.cx c).tbase = 0 ∧ (s.cx c).dln = 0 ∧ (s.cx c).detc = 0) ∧
   s.agenda = [.row .boot] ∧ s.pwr.inReset = false ∧ s.fw.ready = false :=
  ⟨rfl, rfl, rfl, rfl, rfl, rfl, rfl, fun _ => ⟨rfl, rfl, rfl⟩, fun _ => ⟨rfl, rfl, rfl, rfl⟩,
    fun _ => ⟨rfl, rfl, rfl, rfl, rfl⟩, rfl, rfl, rfl⟩

/-- Settles O44: the registers at reset by cases of the register at an offset; the reset events by what a reset of the device clears; the
grants of a window stay within the budget because every step of the division of R32 hands out no more than is left. -/
theorem resetAndPowerResults : Obligations.ResetAndPowerResults := by
  refine ⟨⟨reset_regRead, reset_holds_nothing⟩, fun s sensor temp => ⟨execPowerGoodRelease_good s, execPowerGoodRelease_fault s,
    exec_railSequenceFault, exec_perstDeassert, ?_, execThermalShutdown_result s sensor temp⟩,
    fun s temp => ⟨execArbiterWindow_result s temp, execPwrbudWrite_result s⟩⟩
  obtain ⟨t, ht, hc, hrest⟩ := execPowerGoodLoss_result s
  obtain ⟨u, hu, kc, krest⟩ := execBoardReset_result s
  simp only [DeviceCleared] at hc kc
  intro i hi
  simp only [List.mem_cons, List.not_mem_nil, or_false] at hi
  rcases hi with rfl | rfl
  · refine ⟨t, ht, ?_⟩
    rw [if_pos rfl]
    simpa only [and_assoc] using And.intro hc hrest
  · refine ⟨u, hu, ?_⟩
    rw [if_neg (by simp)]
    simpa only [and_assoc] using And.intro kc krest

end Sys2Proof.Machine
